-- ==== Sys2Proof/Word.lean ====
section
/-! DEFINITION. The word types of the SVL-880 and the sparse maps that hold its memories. Numbers follow R45 to
R48 (quarters, stones, accumulators) and the conventions of 00_scope.md (bit 0 is the least significant). -/

namespace Sys2Proof

/-- A register word (R14). -/
abbrev Word := BitVec 32
/-- A byte of a bank or of SHARED. -/
abbrev Byte := BitVec 8
/-- The sample word, format 1.27 (R45). -/
abbrev Quarter := BitVec 28
/-- Eight consecutive quarters, one per lane (R50, R116). -/
abbrev Row := Vector Quarter 8
/-- One 66-bit block's 64 payload bits (R239). -/
abbrev Block := BitVec 64

/-- A row of zeros. -/
def Row.zero : Row := Vector.replicate 8 0

/-- The two dies of the package (R4). -/
inductive DieId
  | a
  | b
  deriving DecidableEq, Repr

/-- The partner of a die. -/
def DieId.other : DieId → DieId
  | .a => .b
  | .b => .a

/-- The two chain ports of a die (R234). -/
inductive PortId
  | n
  | s
  deriving DecidableEq, Repr

/-- Index of a port's register block: CHN_N 0, CHN_S 1 (R277). -/
def PortId.idx : PortId → Nat
  | .n => 0
  | .s => 1

/-- The other port of the die. -/
def PortId.other : PortId → PortId
  | .n => .s
  | .s => .n

/-- The eight clock domains (table "The eight clock domains" of 01_levels_domains_latency.md). -/
inductive Dom
  | eng | ctl | nrx | srx | ltx | sapm | saps | keep
  deriving DecidableEq, Repr

/-- A sparse memory: addresses strictly rising, and no entry equal to what an unlisted address reads as. -/
abbrev SMap (α : Type) := List (Nat × α)

/-- Read a sparse map whose unlisted addresses read as `dflt`. -/
def SMap.get {α : Type} (dflt : Nat → α) : SMap α → Nat → α
  | [], k => dflt k
  | (j, v) :: m, k => if j = k then v else SMap.get dflt m k

/-- Remove every entry of an address. -/
def SMap.erase {α : Type} : SMap α → Nat → SMap α
  | [], _ => []
  | (j, v) :: m, k => if j = k then SMap.erase m k else (j, v) :: SMap.erase m k

/-- Insert an entry at its place in rising order, replacing one at the same address. -/
def SMap.insert {α : Type} : SMap α → Nat → α → SMap α
  | [], k, v => [(k, v)]
  | (j, w) :: m, k, v =>
    if k < j then (k, v) :: (j, w) :: m
    else if j = k then (k, v) :: m
    else (j, w) :: SMap.insert m k v

/-- Write a sparse map; writing what an unlisted address reads as removes the entry. -/
def SMap.set {α : Type} [DecidableEq α] (dflt : Nat → α) (m : SMap α) (k : Nat) (v : α) : SMap α :=
  if v = dflt k then SMap.erase m k else SMap.insert m k v

/-- Every address of the map is above `lo` and the addresses rise. -/
def SMap.rising {α : Type} : Nat → SMap α → Bool
  | _, [] => true
  | lo, (j, _) :: m => decide (lo ≤ j) && SMap.rising (j + 1) m

/-- The canonical form: rising addresses and no entry equal to the default. -/
def SMap.wf {α : Type} [DecidableEq α] (dflt : Nat → α) (m : SMap α) : Bool :=
  SMap.rising 0 m && m.all (fun e => decide (e.2 ≠ dflt e.1))

/-- Update one element of a vector by a function. -/
def vupd {α : Type} {n : Nat} (v : Vector α n) (i : Fin n) (f : α → α) : Vector α n :=
  v.set i.val (f v[i]) i.isLt

/-- Bits `lo` to `lo + w - 1` of a number. -/
def bitsOf (v lo w : Nat) : Nat := v / 2 ^ lo % 2 ^ w

/-- Saturating count: `a + b`, at most `2^w - 1` (the manual's saturating counters). -/
def satAdd (w a b : Nat) : Nat := min (a + b) (2 ^ w - 1)

end Sys2Proof
end

