-- ==== Sys2Proof/Syntax.lean ====
section
/-! DEFINITION. The commands of the SVL-880: one constructor of `Instr` for each row of spec/opcode_table.json,
and the operand types they carry. Every command names the die it occurs on; the other operands are what comes from
outside that die's state (a register write's value, a received block, a measured interval, the check-bit errors a read
finds). -/

namespace Sys2Proof

/-- The three tile buses of a course (R50). -/
inductive BusId
  | x | y | z
  deriving DecidableEq, Repr

/-- Access sizes a master may use on the crossbar (R391). -/
inductive AccSize
  | byte | half | word | beat64
  deriving DecidableEq, Repr

/-- Check-bit errors a read may find (R122, R123). -/
inductive EccKind
  | sbe | dbe
  deriving DecidableEq, Repr

/-- The check-bit errors found in the code words of one row: lane pair and kind (R121). -/
abbrev RowErr := List (Fin 4 × EccKind)

/-- A requester of a yard bank, in the manner of R118. -/
inductive Requester
  | seat (s : Fin 24)
  | hod (h : Fin 16)
  | stateCopy
  | crossbar
  | writeBack
  | test
  deriving DecidableEq, Repr

/-- The blocks that follow the four-state enable rule (R31 to R34). -/
inductive EnBlock
  | wall (w : Fin 4)
  | vox
  | port (p : PortId)
  | bridgeM2S
  | bridgeS2M
  | sap (p : Fin 8)
  | cvd
  | i2c (n : Fin 2)
  | midi
  deriving DecidableEq, Repr

/-- A load of the chain as it stands in a queue: header block, payload and check block (R260). -/
structure Load where
  header : Block
  payload : List Block
  check : Block
  deriving DecidableEq, Repr

/-- The two tables one STATE_COPY_BLOCK may carry, by phase of R305. -/
inductive CopyItem
  | zBanks (seat : Fin 24)
  | courseRegs (seat : Fin 24)
  | routes
  | voiceCfg
  | rings
  | swapSlots
  | generators
  | chainMaps
  | sharedRegion (start count : Nat)
  | tiles (seat : Fin 24)
  | voices
  | yardRows (first : BitVec 22) (count : Nat)
  | dirtyTile (seat : Fin 24) (tile : Fin 3) (firstRow : BitVec 9)
  | dirtyYard (first : BitVec 22)
  | phaseEnd
  deriving DecidableEq, Repr

/-- A change to a copied phase-1 item that the lead repeats to the joiner (R306). -/
inductive CopyChange
  | engw (course : Fin 28) (index : BitVec 12) (q : Quarter)
  | morw (sink : BitVec 15) (w : Word)
  | voiceReg (addr : Word) (w : Word)
  | ringBack (ring : BitVec 10) (w : Word)
  | shared (addr : Word) (b : Byte)
  deriving DecidableEq, Repr

/-- Reference inputs 0 to 4 and the pair input 5 (R313). -/
abbrev RefInput := Fin 6

/-- Core register index x0 to x31. -/
abbrev XReg := BitVec 5

/-- Two-operand integer functions of RV32I (R380). -/
inductive AluFn
  | add | sub | sll | slt | sltu | xor | srl | sra | or | and
  deriving DecidableEq, Repr

/-- Branch conditions of RV32I. -/
inductive BrCond
  | eq | ne | lt | ge | ltu | geu
  deriving DecidableEq, Repr

/-- CSR access functions of Zicsr. -/
inductive CsrFn
  | rw | rs | rc
  deriving DecidableEq, Repr

/-- The single-cycle instructions of R382: integer operations, LUI, AUIPC, CSR accesses, fences and branches not taken. -/
inductive AluOp
  | reg (f : AluFn) (rd rs1 rs2 : XReg)
  | imm (f : AluFn) (rd rs1 : XReg) (i : BitVec 12)
  | lui (rd : XReg) (i : BitVec 20)
  | auipc (rd : XReg) (i : BitVec 20)
  | csrReg (f : CsrFn) (rd rs1 : XReg) (csr : BitVec 12)
  | csrImm (f : CsrFn) (rd : XReg) (z : BitVec 5) (csr : BitVec 12)
  | branch (c : BrCond) (rs1 rs2 : XReg) (ofs : BitVec 13)
  | fence
  | fenceI
  deriving DecidableEq, Repr

/-- The two forms of TAKEN_BRANCH (R382). -/
inductive JumpOp
  | branch (c : BrCond) (rs1 rs2 : XReg) (ofs : BitVec 13)
  | jal (rd : XReg) (ofs : BitVec 21)
  deriving DecidableEq, Repr

/-- Multiply instructions of M. -/
inductive MulFn
  | mul | mulh | mulhsu | mulhu
  deriving DecidableEq, Repr

/-- Divide instructions of M. -/
inductive DivFn
  | div | divu | rem | remu
  deriving DecidableEq, Repr

/-- Load widths of RV32I. -/
inductive LoadFn
  | lb | lh | lw | lbu | lhu
  deriving DecidableEq, Repr

/-- Store widths of RV32I. -/
inductive StoreFn
  | sb | sh | sw
  deriving DecidableEq, Repr

/-- The supply rails of R429, in the order of BTL_SUPPLY. -/
inductive Rail
  | vcore | vio18 | vio33 | vana | vser | vcv
  deriving DecidableEq, Repr

/-- The reset thresholds of R429 that a rail may be below. -/
inductive ResetRail
  | vcore | vio18
  deriving DecidableEq, Repr

/-- Causes for which a die asserts its DWN wire by itself (R299). -/
inductive DwnCause
  | supply | resetPin | engPll | freeze
  deriving DecidableEq, Repr

/-- Which event a stamp records (R340). -/
inductive StampEvent
  | startTx (seq : Word)
  | loadTx (lane : BitVec 2) (opos : BitVec 9) (odie : Bool) (seq : BitVec 16)
  | startRx (seq : Word)
  | loadRx (lane : BitVec 2) (opos : BitVec 9) (odie : Bool) (seq : BitVec 16)
  | ppsRx
  deriving DecidableEq, Repr

/-- The outcome of an I2C transfer on its bus: acknowledged bytes, the byte refused, or a clock stuck low (R402). -/
inductive I2cResult
  | ok (readBytes : List Byte)
  | nack (byteIdx : BitVec 5)
  deriving DecidableEq, Repr

/-- The path a pallet takes to the store (R255). -/
inductive PalletPath
  | forwardIn
  | partyWall
  deriving DecidableEq, Repr

/-- The classes of party-wall traffic (R287). -/
inductive PwClass
  | heartbeat | batch | mortar | pallet | load | health | copy
  deriving DecidableEq, Repr

/-- A block of a class of party-wall traffic fails its check at the die that receives it (R285). -/
structure PwLoss where
  die : DieId
  cls : PwClass
  deriving DecidableEq, Repr

/-- How the container before a start block ended: its tail was complete, and the blocks of it with an invalid sync header
(R241). -/
structure ContainerEnd where
  complete : Bool
  bad : Byte
  deriving DecidableEq, Repr

/-- A pallet that came back to the master, and the LTX cycles from the launch of the container being sent to its check
(R253). -/
structure PalletBack where
  blocks : Vector Block 15
  cycle : BitVec 15
  deriving DecidableEq, Repr

/-- A port whose receiver has reached block lock or left hi-ber, with its module's inputs as they then stand: bit 0 LOS, bit 1
MODABS, bit 2 TXFLT (R236, R237). -/
structure LockGain where
  port : PortId
  pins : BitVec 3
  deriving DecidableEq, Repr

/-- Why a port is lost (R270). -/
inductive LossCause
  | los | modabs | txflt | blockLock | hiber | noStart
  deriving DecidableEq, Repr

/-- Read-out memory spaces of R453. -/
inductive ReadSpace
  | tiles | yard | banks | routes | pallets | loads
  deriving DecidableEq, Repr

/-- One run of a program tile in an image: first bundle address and the bundles (section PROGRAM of R412). -/
structure ProgRun where
  seat : Fin 24
  start : BitVec 13
  hold : Bool
  plan : BitVec 16
  first : BitVec 13
  bundles : List (BitVec 128)
  deriving DecidableEq, Repr

/-- One group of a scene in the scene library (R201): offset in frames, mask, and the back-copy writes. -/
structure SceneGroup where
  offset : Nat
  mask : BitVec 27
  writes : List (Word × Word)
  deriving DecidableEq, Repr

/-- A scene of the library (R201). -/
structure Scene where
  number : BitVec 16
  groups : List SceneGroup
  deriving DecidableEq, Repr

/-- The sections of an image whose bytes the builder lays out, as pass 2 places them (R412). -/
inductive Section
  | program (runs : List ProgRun)
  | zBank (seat : Fin 24) (front back : List (BitVec 12 × Quarter))
  | seatMap (a b : List Word)
  | engMap (entry exit : List (BitVec 12 × BitVec 5 × BitVec 9))
  | yardMap (a b : List (BitVec 2 × BitVec 8 × BitVec 9))
  | rings (descs : List (BitVec 10 × BitVec 22 × BitVec 20 × Word × Word × BitVec 20))
      (binds : List (BitVec 7 × BitVec 10))
  | yardData (rows : List (BitVec 22 × Row))
  | mortar (front back : List (BitVec 15 × Word)) (bridge : List (BitVec 9 × Word)) (gens : List (Word × Word))
  | vox (cfg : List (Word × Word)) (area : Word)
  | chain (ctrl : Word) (p : BitVec 10) (ext : List (BitVec 14)) (own : List (BitVec 9))
  | ref (regs : List (Word × Word))
  | cvd (cfg : List (Fin 16 × Word))
  | scene (show_ : Word) (lib : List Scene)
  deriving DecidableEq, Repr

/-- The commands, in the order of spec/opcode_table.json. -/
inductive Instr
  /-- REGISTER_WRITE (R10). -/
  | registerWrite (d : DieId) (m : BitVec 3) (user : Bool) (addr : Word) (size : AccSize) (v : Word) (hw : Word)
  /-- RC_READ (R10). -/
  | rcRead (d : DieId) (m : BitVec 3) (user : Bool) (addr : Word) (size : AccSize) (hw : Word)
  /-- POSTED_WRITE_EFFECT (R30). -/
  | postedWriteEffect (d : DieId) (blk : BitVec 5) (dom : Dom) (hw : Word)
  /-- SHADOW_UPDATE (R30). -/
  | shadowUpdate (d : DieId) (addr : Word)
  /-- TRANSITION_END (R32). -/
  | transitionEnd (d : DieId) (b : EnBlock)
  /-- KEEP_FALLOVER (R23). -/
  | keepFallover (d : DieId)
  /-- FRAME_TICK (R192). -/
  | frameTick (d : DieId) (stamp : BitVec 48)
  /-- MIRROR_RELOAD_DONE (R151). -/
  | mirrorReloadDone (d : DieId)
  /-- HANDOVER_RELEASE (R304). -/
  | handoverRelease (d : DieId)
  /-- FRAME_TICK_LINE (R386). -/
  | frameTickLine (d : DieId)
  /-- GPIO_TIMED_CHANGE (R401). -/
  | gpioTimedChange (d : DieId)
  /-- PPS_OUT_PULSE (R329). -/
  | ppsOutPulse (d : DieId)
  /-- EXCHANGE_WINDOW (R88). -/
  | exchangeWindow (d : DieId) (reading : BitVec 12) (limits : BitVec 8)
  /-- FOLLOW_RESOLVE (R223). -/
  | followResolve (d : DieId)
  /-- LEAD_BATCH_RECEIVE (R223). -/
  | leadBatchReceive (d : DieId)
  /-- WINDOW_CLOSE (R160). -/
  | windowClose (d : DieId)
  /-- ISSUE_STOP (R90). -/
  | issueStop (d : DieId)
  /-- MPY (R55). -/
  | mpy (d : DieId) (c : Fin 28) (acc : Bool) (ma mb : BitVec 4) (msh : BitVec 2)
  /-- MAC (R55). -/
  | mac (d : DieId) (c : Fin 28) (acc : Bool) (ma mb : BitVec 4) (msh : BitVec 2)
  /-- MSU (R55). -/
  | msu (d : DieId) (c : Fin 28) (acc : Bool) (ma mb : BitVec 4) (msh : BitVec 2)
  /-- ALOD (R55). -/
  | alod (d : DieId) (c : Fin 28) (acc : Bool) (ma : BitVec 4)
  /-- ACLR (R55). -/
  | aclr (d : DieId) (c : Fin 28) (acc : Bool)
  /-- ACPY (R55). -/
  | acpy (d : DieId) (c : Fin 28) (acc : Bool)
  /-- AADD (R55). -/
  | aadd (d : DieId) (c : Fin 28) (acc : Bool)
  /-- DMPY (R55). -/
  | dmpy (d : DieId) (c : Fin 28) (ma mb : BitVec 4) (msh : BitVec 2)
  /-- DMAC (R55). -/
  | dmac (d : DieId) (c : Fin 28) (ma mb : BitVec 4) (msh : BitVec 2)
  /-- DMSU (R55). -/
  | dmsu (d : DieId) (c : Fin 28) (ma mb : BitVec 4) (msh : BitVec 2)
  /-- MOV (R56). -/
  | mov (d : DieId) (c : Fin 28) (qd qs : BitVec 4)
  /-- LDI (R56). -/
  | ldi (d : DieId) (c : Fin 28) (qd : BitVec 4) (imm : Quarter)
  /-- ADD (R56). -/
  | addOp (d : DieId) (c : Fin 28) (qd qs qt : BitVec 4)
  /-- SUB (R56). -/
  | subOp (d : DieId) (c : Fin 28) (qd qs qt : BitVec 4)
  /-- ADDW (R56). -/
  | addw (d : DieId) (c : Fin 28) (qd qs qt : BitVec 4)
  /-- SUBW (R56). -/
  | subw (d : DieId) (c : Fin 28) (qd qs qt : BitVec 4)
  /-- NEG (R56). -/
  | negOp (d : DieId) (c : Fin 28) (qd qs : BitVec 4)
  /-- ABS (R56). -/
  | absOp (d : DieId) (c : Fin 28) (qd qs : BitVec 4)
  /-- MIN (R56). -/
  | minOp (d : DieId) (c : Fin 28) (qd qs qt : BitVec 4)
  /-- MAX (R56). -/
  | maxOp (d : DieId) (c : Fin 28) (qd qs qt : BitVec 4)
  /-- AND (R56). -/
  | andOp (d : DieId) (c : Fin 28) (qd qs qt : BitVec 4)
  /-- OR (R56). -/
  | orOp (d : DieId) (c : Fin 28) (qd qs qt : BitVec 4)
  /-- XOR (R56). -/
  | xorOp (d : DieId) (c : Fin 28) (qd qs qt : BitVec 4)
  /-- SHL (R57). -/
  | shl (d : DieId) (c : Fin 28) (qd qs : BitVec 4) (sh : BitVec 5)
  /-- SHRA (R57). -/
  | shra (d : DieId) (c : Fin 28) (qd qs : BitVec 4) (sh : BitVec 5)
  /-- SHRL (R57). -/
  | shrl (d : DieId) (c : Fin 28) (qd qs : BitVec 4) (sh : BitVec 5)
  /-- CMPLT (R56). -/
  | cmplt (d : DieId) (c : Fin 28) (qs qt : BitVec 4)
  /-- CMPEQ (R56). -/
  | cmpeq (d : DieId) (c : Fin 28) (qs qt : BitVec 4)
  /-- SEL (R56). -/
  | sel (d : DieId) (c : Fin 28) (qd qs qt : BitVec 4)
  /-- STA (R83). -/
  | sta (d : DieId) (c : Fin 28) (acc : Bool) (qd : BitVec 4) (sh : BitVec 5) (width mode : BitVec 2)
  /-- DSTA (R83). -/
  | dsta (d : DieId) (c : Fin 28) (qd : BitVec 4) (sh : BitVec 5) (mode : BitVec 2)
  /-- DADD (R86). -/
  | dadd (d : DieId) (c : Fin 28) (qd qs qt : BitVec 4)
  /-- DSUB (R86). -/
  | dsub (d : DieId) (c : Fin 28) (qd qs qt : BitVec 4)
  /-- MINX (R87). -/
  | minx (d : DieId) (c : Fin 28) (qs : BitVec 4) (sel : BitVec 5)
  /-- MAXX (R87). -/
  | maxx (d : DieId) (c : Fin 28) (qs : BitVec 4) (sel : BitVec 5)
  /-- SRES (R87). -/
  | sres (d : DieId) (c : Fin 28) (qd qi : BitVec 4)
  /-- LANE (R56). -/
  | lane (d : DieId) (c : Fin 28) (qd qs : BitVec 4) (lane : Fin 8)
  /-- ROT (R56). -/
  | rot (d : DieId) (c : Fin 28) (qd qs : BitVec 4) (rot : Fin 8)
  /-- MFS (R501). -/
  | mfs (d : DieId) (c : Fin 28) (qd : BitVec 4) (idx : BitVec 5) (part : Bool)
  /-- MTS (R501). -/
  | mts (d : DieId) (c : Fin 28) (idx : BitVec 5) (qs : BitVec 4) (hi : BitVec 4)
  /-- MTSI (R501). -/
  | mtsi (d : DieId) (c : Fin 28) (idx : BitVec 5) (imm : Quarter) (hi : BitVec 4)
  /-- ASV (R58). -/
  | asv (d : DieId) (c : Fin 28) (acc : Bool) (qd : BitVec 4) (part : BitVec 2)
  /-- ARS (R58). -/
  | ars (d : DieId) (c : Fin 28) (acc : Bool) (qs : BitVec 4) (part : BitVec 2)
  /-- CLRO (R56). -/
  | clro (d : DieId) (c : Fin 28)
  /-- LANE_LOAD (R62). -/
  | laneLoad (d : DieId) (c : Fin 28) (bus : BusId) (ag : Fin 4) (up : BitVec 2) (q : BitVec 4) (err : RowErr)
  /-- BROADCAST_LOAD (R62). -/
  | broadcastLoad (d : DieId) (c : Fin 28) (bus : BusId) (ag : Fin 4) (up : BitVec 2) (q : BitVec 4) (err : RowErr)
  /-- TILE_STORE (R62). -/
  | tileStore (d : DieId) (c : Fin 28) (bus : BusId) (ag : Fin 4) (up : BitVec 2) (q : BitVec 4)
  /-- RING_STORE (R97). -/
  | ringStore (d : DieId) (c : Fin 28) (ag : Fin 4) (up : BitVec 2) (q : BitVec 4)
  /-- YARD_ROW_LOAD (R117). -/
  | yardRowLoad (d : DieId) (c : Fin 28) (ag : Fin 4) (up : BitVec 2) (q : BitVec 4) (err : RowErr)
  /-- YARD_ROW_STORE (R117). -/
  | yardRowStore (d : DieId) (c : Fin 28) (ag : Fin 4) (up : BitVec 2) (q : BitVec 4)
  /-- CORRECTION_WRITEBACK (R122). -/
  | correctionWriteback (d : DieId)
  /-- RING_SECOND_ACCESS (R132). -/
  | ringSecondAccess (d : DieId) (c : Fin 28) (err : RowErr)
  /-- YARD_STALL_RETRY (R66). -/
  | yardStallRetry (d : DieId) (c : Fin 28) (err : RowErr)
  /-- OPERATION_WRITEBACK (R65). -/
  | operationWriteback (d : DieId) (c : Fin 28)
  /-- END (R67). -/
  | endKernel (d : DieId) (c : Fin 28) (cycle : BitVec 15)
  /-- BR (R67). -/
  | br (d : DieId) (c : Fin 28) (target : BitVec 13)
  /-- BRC (R68). -/
  | brc (d : DieId) (c : Fin 28) (cond : BitVec 4) (target : BitVec 13)
  /-- RPT (R70). -/
  | rpt (d : DieId) (c : Fin 28) (count : BitVec 13)
  /-- LOOP (R71). -/
  | loop (d : DieId) (c : Fin 28) (len : BitVec 5) (count : BitVec 13)
  /-- LOOPX (R71). -/
  | loopx (d : DieId) (c : Fin 28) (last : BitVec 13) (count : BitVec 13)
  /-- RTI (R78). -/
  | rti (d : DieId) (c : Fin 28)
  /-- BRK (R74). -/
  | brk (d : DieId) (c : Fin 28)
  /-- COURSE_INTERRUPT_ENTRY (R76). -/
  | courseInterruptEntry (d : DieId) (c : Fin 28)
  /-- DOORBELL_RING (R114). -/
  | doorbellRing (d : DieId) (c : Fin 28)
  /-- SEATMAP_WRITE (R92). -/
  | seatmapWrite (d : DieId) (w : Fin 4) (v : Word)
  /-- WALL_RETENTION_LOSS (R103). -/
  | wallRetentionLoss (d : DieId) (w : Fin 4)
  /-- WEAR_MEASURE (R106). -/
  | wearMeasure (d : DieId) (c : Fin 28) (margin : BitVec 12)
  /-- MIGRATION_GO (R108). -/
  | migrationGo (d : DieId) (w : Fin 4)
  /-- MIGRATION_ARM (R112). -/
  | migrationArm (d : DieId) (w : Fin 4)
  /-- MIGRATION_ABORT (R113). -/
  | migrationAbort (d : DieId) (w : Fin 4)
  /-- MIGRATION_REARM (R113). -/
  | migrationRearm (d : DieId) (w : Fin 4)
  /-- YARD_ARBITRATION (R118). -/
  | yardArbitration (d : DieId) (bank : Fin 4) (cycle : BitVec 15) (reqs : List Requester)
  /-- YARDW_READ (R120). -/
  | yardwRead (d : DieId) (m : BitVec 3) (addr : Word) (err : RowErr)
  /-- YARDW_WRITE (R124). -/
  | yardwWrite (d : DieId) (m : BitVec 3) (addr : Word) (v : Word) (err : RowErr)
  /-- ENGW_WRITE (R185). -/
  | engwWrite (d : DieId) (m : BitVec 3) (addr : Word) (v : Word) (err : RowErr)
  /-- HOD_PUSH (R134). -/
  | hodPush (d : DieId) (h : Fin 16) (d3 : Word)
  /-- HOD_ROW_MOVE (R136). -/
  | hodRowMove (d : DieId) (h : Fin 16) (err : RowErr) (engineRow : Bool)
  /-- TEST_STEP_START (R141). -/
  | testStepStart (d : DieId) (bank : Fin 4)
  /-- TEST_CAPTURE (R138). -/
  | testCapture (d : DieId) (bank : Fin 4) (sbe : List (Fin 32))
  /-- TEST_MARCH_CYCLE (R138). -/
  | testMarchCycle (d : DieId) (bank : Fin 4) (ok : Bool)
  /-- TEST_RESTORE (R138). -/
  | testRestore (d : DieId) (bank : Fin 4)
  /-- REMAP_GO (R142). -/
  | remapGo (d : DieId) (bank : Fin 4)
  /-- REMAP_COPY (R142). -/
  | remapCopy (d : DieId) (bank : Fin 4) (err : RowErr)
  /-- REMAP_CLEAN_PASS (R142). -/
  | remapCleanPass (d : DieId) (bank : Fin 4)
  /-- MORW_WRITE (R149). -/
  | morwWrite (d : DieId) (sink : BitVec 15) (v : Word)
  /-- GENERATOR_WRITE (R170). -/
  | generatorWrite (d : DieId) (addr : Word) (v : Word)
  /-- BRIDGE_SAMPLE (R175). -/
  | bridgeSample (d : DieId) (s2m : Bool) (ch : BitVec 8) (phi : BitVec 24)
  /-- BRIDGE_LOCK (R177). -/
  | bridgeLock (d : DieId) (ratio : Word)
  /-- BRIDGE_LOCK_LOSS (R177). -/
  | bridgeLockLoss (d : DieId)
  /-- BRIDGE_WAIT_ABORT (R178). -/
  | bridgeWaitAbort (d : DieId) (s2m : Bool)
  /-- BRIDGE_MAP_WRITE (R174). -/
  | bridgeMapWrite (d : DieId) (v : Word)
  /-- SWAP_ARM (R190). -/
  | swapArm (d : DieId) (n : Fin 4)
  /-- SWAP_DISARM (R191). -/
  | swapDisarm (d : DieId) (n : Fin 4)
  /-- SCENE_RECALL (R201). -/
  | sceneRecall (d : DieId) (payload : Vector Block 2)
  /-- FIRMWARE_EVENT_PUSH (R209). -/
  | firmwareEventPush (d : DieId) (hi : Word)
  /-- NOTE_LOAD (R210). -/
  | noteLoad (d : DieId) (payload : List Block)
  /-- MIDI_RX_BYTE (R403). -/
  | midiRxByte (d : DieId) (uart : Fin 2) (byte : Byte) (framing : Bool)
  /-- MFIFO_READ (R230). -/
  | mfifoRead (d : DieId) (m : BitVec 3)
  /-- ACTIVE_SENSE_TIMEOUT (R231). -/
  | activeSenseTimeout (d : DieId) (uart : Fin 2)
  /-- START_BLOCK_RECEIVE (R248). -/
  | startBlockReceive (d : DieId) (p : PortId) (startByte : Byte) (hdr : Vector Block 15) (arrival : Word) (toFt : BitVec 48) (filler : BitVec 16) (before : ContainerEnd) (fill : BitVec 9)
  /-- CONTAINER_FORWARD (R248). -/
  | containerForward (d : DieId) (bad : List (BitVec 13))
  /-- CONTAINER_ORIGINATE (R247). -/
  | containerOriginate (d : DieId) (seed : BitVec 48) (ltx : Word)
  /-- PALLET_RECEIVE (R255). -/
  | palletReceive (d : DieId) (path : PalletPath) (blocks : Vector Block 15) (cycle : BitVec 15)
  /-- PALLET_ELIGIBLE (R252). -/
  | palletEligible (d : DieId)
  /-- PALLET_INSERT (R252). -/
  | palletInsert (d : DieId) (p : Fin 384)
  /-- MASTER_PALLET_RETURN (R253). -/
  | masterPalletReturn (d : DieId) (x : PalletBack)
  /-- DETACH (R250). -/
  | detach (d : DieId)
  /-- RESEQ_WRITE (R250). -/
  | reseqWrite (d : DieId)
  /-- LOAD_RECEIVE (R261). -/
  | loadReceive (d : DieId) (p : PortId) (ld : Load)
  /-- CONTROL_BLOCK_SEND (R262). -/
  | controlBlockSend (d : DieId) (room : BitVec 11)
  /-- CREDIT_RECEIVE (R263). -/
  | creditReceive (d : DieId) (p : PortId) (wrap : Bool) (cred : Block)
  /-- LOAD_FETCH (R267). -/
  | loadFetch (d : DieId) (lane : Fin 4)
  /-- CHAIN_MAP_WRITE (R251). -/
  | chainMapWrite (d : DieId) (p : PortId) (v : Word)
  /-- P_ARM (R259). -/
  | pArm (d : DieId)
  /-- CHN_CTRL_WRITE (R268). -/
  | chnCtrlWrite (d : DieId) (v : Word)
  /-- ELECTION_TIMEOUT (R269). -/
  | electionTimeout (d : DieId)
  /-- PORT_LOST (R270). -/
  | portLost (d : DieId) (p : PortId) (cause : LossCause)
  /-- REPEAT_END (R270). -/
  | repeatEnd (d : DieId)
  /-- NEAR_HEAL (R272). -/
  | nearHeal (d : DieId) (p : PortId)
  /-- FILL_RESTART (R277). -/
  | fillRestart (d : DieId) (p : PortId)
  /-- PAIR_JOIN (R282). -/
  | pairJoin (d : DieId)
  /-- LEAD_TIMEOUT (R282). -/
  | leadTimeout (d : DieId)
  /-- LEAD_ALONE_B (R282). -/
  | leadAloneB (d : DieId)
  /-- LINK_TRAINED (R286). -/
  | linkTrained (d : DieId)
  /-- LINK_DOWN (R286). -/
  | linkDown (d : DieId)
  /-- PW_BLOCK_DROP (R285). -/
  | pwBlockDrop (x : PwLoss)
  /-- HEARTBEAT_SEND (R291). -/
  | heartbeatSend (d : DieId)
  /-- HEALTH_REPORT_RECEIVE (R296). -/
  | healthReportReceive (d : DieId)
  /-- PLL_CHECK (R295). -/
  | pllCheck (d : DieId) (fails : BitVec 3)
  /-- PALLET_PASS (R288). -/
  | palletPass (d : DieId) (blocks : Vector Block 15)
  /-- LOAD_RELAY (R289). -/
  | loadRelay (d : DieId)
  /-- FENCE_ASSERT (R298). -/
  | fenceAssert (d : DieId)
  /-- UNFENCE (R298). -/
  | unfence (d : DieId)
  /-- DWN_ASSERT (R299). -/
  | dwnAssert (d : DieId) (cause : DwnCause)
  /-- STANDDOWN (R299). -/
  | standdown (d : DieId)
  /-- DRIVER_HOLD_EXPIRE (R299). -/
  | driverHoldExpire (d : DieId)
  /-- LEAD_DWN_RECEIVE (R301). -/
  | leadDwnReceive (d : DieId)
  /-- HANDOVER_REQUEST (R304). -/
  | handoverRequest (d : DieId)
  /-- STATE_COPY_BLOCK (R305). -/
  | stateCopyBlock (d : DieId) (item : CopyItem)
  /-- COPY_CHANGE_REPEAT (R306). -/
  | copyChangeRepeat (d : DieId) (change : CopyChange)
  /-- SOLO (R309). -/
  | solo (d : DieId)
  /-- IDENTITY_BLOCK (R423). -/
  | identityBlock (d : DieId)
  /-- REF_INPUT_EVENT (R313). -/
  | refInputEvent (d : DieId) (i : RefInput) (at_ offset : BitVec 48) (displaced : Bool)
  /-- FREQUENCY_GATE (R317). -/
  | frequencyGate (d : DieId) (i : Fin 5) (offs : BitVec 16) (nearOther : Bool)
  /-- INPUT_STOPPED (R317). -/
  | inputStopped (d : DieId) (i : Fin 5)
  /-- RANK_WRITE (R314). -/
  | rankWrite (d : DieId) (v : Word)
  /-- ABSORPTION_END (R322). -/
  | absorptionEnd (d : DieId) (phase : Word)
  /-- SLEW_COMPLETE (R322). -/
  | slewComplete (d : DieId) (fine : BitVec 7) (phase : Word)
  /-- REF_LOCK (R320). -/
  | refLock (d : DieId)
  /-- HOLD_LIMIT (R320). -/
  | holdLimit (d : DieId)
  /-- PAIR_INPUT_LOSS (R326). -/
  | pairInputLoss (d : DieId)
  /-- WCK_ALIGN (R330). -/
  | wckAlign (d : DieId)
  /-- PPS_ALIGN (R330). -/
  | ppsAlign (d : DieId)
  /-- ALIGN_ABORT (R330). -/
  | alignAbort (d : DieId)
  /-- ALIGN_DONE (R330). -/
  | alignDone (d : DieId)
  /-- SIDE_WCK_QUALIFY (R331). -/
  | sideWckQualify (d : DieId) (freq : Word)
  /-- TIME_OFFSET_UPDATE (R336). -/
  | timeOffsetUpdate (d : DieId) (pps : Bool) (frac : BitVec 12) (corr : Word)
  /-- TIME_STEP_ARM (R336). -/
  | timeStepArm (d : DieId)
  /-- TOD_MESSAGE (R339). -/
  | todMessage (d : DieId) (bytes : Vector Byte 16) (inWindow : Bool)
  /-- PPS_EDGE (R339). -/
  | ppsEdge (d : DieId)
  /-- STAMP_CAPTURE (R340). -/
  | stampCapture (d : DieId) (e : StampEvent) (preload : Word)
  /-- STAMP_READ (R341). -/
  | stampRead (d : DieId) (m : BitVec 3) (rx : Bool) (age : Word)
  /-- TIME_NS_READ (R332). -/
  | timeNsRead (d : DieId) (m : BitVec 3)
  /-- PORT_FRAME (R353). -/
  | portFrame (d : DieId) (p : Fin 8) (phase : BitVec 15) (bits : BitVec 16) (alien : Bool) (lastTwo : Bool)
  /-- SAP_INPUT_WORD (R352). -/
  | sapInputWord (d : DieId) (p : Fin 8) (w : Word)
  /-- SAP_OUTPUT_WORD (R352). -/
  | sapOutputWord (d : DieId) (p : Fin 8)
  /-- SAP_MASK_WRITE (R357). -/
  | sapMaskWrite (d : DieId) (p : Fin 8) (v : Word) (lastTwo : Bool)
  /-- SAP_CTRL_WRITE (R359). -/
  | sapCtrlWrite (d : DieId) (p : Fin 8) (v : Word)
  /-- GROUP_CLOCK_LOSS (R361). -/
  | groupClockLoss (d : DieId) (side : Bool)
  /-- CV_CLEAR_INPUT (R368). -/
  | cvClearInput (d : DieId) (low : Bool)
  /-- CV_DATA_WRITE (R368). -/
  | cvDataWrite (d : DieId) (n : Fin 16) (v : Word) (setting : Bool)
  /-- CV_CFG_WRITE (R369). -/
  | cvCfgWrite (d : DieId) (n : Fin 16) (v : Word)
  /-- VCV_GOOD (R370). -/
  | vcvGood (d : DieId)
  /-- ALU_INSTRUCTION (R382). -/
  | aluInstruction (d : DieId) (n : Fin 4) (op : AluOp) (comp : Bool)
  /-- TAKEN_BRANCH (R382). -/
  | takenBranch (d : DieId) (n : Fin 4) (op : JumpOp) (comp : Bool)
  /-- JALR (R382). -/
  | jalr (d : DieId) (n : Fin 4) (rd rs1 : XReg) (ofs : BitVec 12) (comp : Bool)
  /-- MUL (R382). -/
  | mulInsn (d : DieId) (n : Fin 4) (f : MulFn) (rd rs1 rs2 : XReg)
  /-- DIV (R382). -/
  | divInsn (d : DieId) (n : Fin 4) (f : DivFn) (rd rs1 rs2 : XReg)
  /-- CORE_LOAD (R382). -/
  | coreLoad (d : DieId) (n : Fin 4) (f : LoadFn) (rd rs1 : XReg) (ofs : BitVec 12) (comp : Bool) (err : Option EccKind)
  /-- CORE_STORE (R382). -/
  | coreStore (d : DieId) (n : Fin 4) (f : StoreFn) (rs1 rs2 : XReg) (ofs : BitVec 12) (comp : Bool)
  /-- ILLEGAL_INSTRUCTION (R380). -/
  | illegalInstruction (d : DieId) (n : Fin 4) (word : Word)
  /-- MRET (R389). -/
  | mret (d : DieId) (n : Fin 4)
  /-- WFI (R389). -/
  | wfi (d : DieId) (n : Fin 4)
  /-- CORE_INTERRUPT_ENTRY (R388). -/
  | coreInterruptEntry (d : DieId) (n : Fin 4) (divide : Bool)
  /-- SEMAPHORE_READ (R385). -/
  | semaphoreRead (d : DieId) (m : BitVec 3) (s : Fin 16)
  /-- SEMAPHORE_WRITE (R385). -/
  | semaphoreWrite (d : DieId) (m : BitVec 3) (s : Fin 16) (v : Word)
  /-- DOORBELL_SET (R386). -/
  | doorbellSet (d : DieId) (n : Fin 4) (v : Word)
  /-- CORE_RUN_WRITE (R383). -/
  | coreRunWrite (d : DieId) (v : Word)
  /-- CROSSBAR_REQUEST (R395). -/
  | crossbarRequest (d : DieId) (m : Fin 7) (addr : Word) (write : Bool) (contenders : List (Fin 7))
  /-- REQUEST_URGENT (R396). -/
  | requestUrgent (d : DieId) (m : Fin 7)
  /-- BURST (R397). -/
  | burst (d : DieId) (m : Fin 7) (addr : Word) (beats : BitVec 5) (wrap : Bool) (write : Bool) (data : List (BitVec 64)) (err : List (Nat × EccKind))
  /-- MASTER_RESET_MID_BURST (R398). -/
  | masterResetMidBurst (d : DieId) (m : Fin 7)
  /-- GPIO_EDGE (R400). -/
  | gpioEdge (d : DieId) (pin : Fin 16) (level : Bool)
  /-- GPIO_ARM (R401). -/
  | gpioArm (d : DieId)
  /-- I2C_GO (R402). -/
  | i2cGo (d : DieId) (n : Fin 2) (v : Word)
  /-- I2C_DONE (R402). -/
  | i2cDone (d : DieId) (n : Fin 2) (r : I2cResult)
  /-- I2C_TIMEOUT (R402). -/
  | i2cTimeout (d : DieId) (n : Fin 2)
  /-- I2C_RECOVER (R402). -/
  | i2cRecover (d : DieId) (n : Fin 2)
  /-- MIDI_TX_PUSH (R403). -/
  | midiTxPush (d : DieId) (byte : Byte)
  /-- MIDI_TX_BYTE_SENT (R403). -/
  | midiTxByteSent (d : DieId)
  /-- DIE_RESET (R418). -/
  | dieReset (d : DieId) (rebootBit : Bool)
  /-- FLASH_DISCOVERY (R408). -/
  | flashDiscovery (d : DieId) (bootw : Bool) (role : BitVec 2) (sfdp : Bool) (oct quadIo quadOut : Bool) (addr4 : Bool)
  /-- IMAGE_PASS1 (R415). -/
  | imagePass1 (d : DieId) (a b : List Byte)
  /-- ENG_START (R418). -/
  | engStart (d : DieId)
  /-- IMAGE_PASS2 (R415). -/
  | imagePass2 (d : DieId) (secs : List Section) (slot : List Byte)
  /-- IMAGE_RELEASE (R418). -/
  | imageRelease (d : DieId) (micros : Word)
  /-- NOIMAGE (R420). -/
  | noimage (d : DieId)
  /-- STRAP_HOLD (R417). -/
  | strapHold (d : DieId)
  /-- FLASH_COMMAND (R409). -/
  | flashCommand (d : DieId) (v : Word)
  /-- FLASH_COMMAND_DONE (R409). -/
  | flashCommandDone (d : DieId) (data : List Byte)
  /-- REBOOT (R421). -/
  | reboot (d : DieId)
  /-- PLUG_SEATED (R426). -/
  | plugSeated (d : DieId)
  /-- PLUG_POWERED (R426). -/
  | plugPowered (d : DieId)
  /-- PLUG_LEAVING (R427). -/
  | plugLeaving (d : DieId)
  /-- LEAVE_RESET (R427). -/
  | leaveReset (d : DieId)
  /-- SUPPLY_WARN (R429). -/
  | supplyWarn (d : DieId) (r : Rail)
  /-- SUPPLY_RESET (R429). -/
  | supplyReset (d : DieId) (r : ResetRail)
  /-- SUPPLY_RESTORE (R429). -/
  | supplyRestore (d : DieId) (r : Rail)
  /-- LOG_EVENT (R434). -/
  | logEvent (d : DieId) (cls : BitVec 3) (code : BitVec 16) (w4 w5 w6 : Word)
  /-- LOG_RECORD_WRITE (R434). -/
  | logRecordWrite (d : DieId) (parityFail : Bool)
  /-- LOG_READBACK (R440). -/
  | logReadback (d : DieId) (err : Option EccKind)
  /-- LOG_FREEZE_WRITE (R435). -/
  | logFreezeWrite (d : DieId) (v : Bool)
  /-- LOG_CLEAR (R436). -/
  | logClear (d : DieId) (v : Word)
  /-- LOG_CLEAR_DONE (R436). -/
  | logClearDone (d : DieId)
  /-- LOG_FWCODE (R437). -/
  | logFwcode (d : DieId) (v : Word)
  /-- LOG_CURSOR_WRITE (R439). -/
  | logCursorWrite (d : DieId) (v : Word) (err : Option EccKind)
  /-- LOG_WIN7_READ (R439). -/
  | logWin7Read (d : DieId) (m : BitVec 3) (err : Option EccKind)
  /-- PCT_SNAPSHOT (R442). -/
  | pctSnapshot (d : DieId) (m : BitVec 3) (cycle : BitVec 15)
  /-- PCT_EVENT (R443). -/
  | pctEvent (d : DieId) (event : BitVec 10) (pc : BitVec 22)
  /-- PCT_COUNTER_WRITE (R445). -/
  | pctCounterWrite (d : DieId) (n : Fin 8) (v : Word) (inc : Bool)
  /-- FREEZE_PIN (R447). -/
  | freezePin (d : DieId)
  /-- FREEZE_GO (R447). -/
  | freezeGo (d : DieId) (partner : Bool)
  /-- FREEZE_REQUEST (R448). -/
  | freezeRequest (d : DieId) (cause : BitVec 2)
  /-- FENCE_WAIT_TIMEOUT (R448). -/
  | fenceWaitTimeout (d : DieId)
  /-- DOMAIN_CLOSE (R449). -/
  | domainClose (d : DieId) (dom : Dom)
  /-- DOMAIN_FORCE_CLOSE (R449). -/
  | domainForceClose (d : DieId) (dom : Dom)
  /-- READOUT_STATUS (R452). -/
  | readoutStatus (d : DieId)
  /-- READOUT_CHAININFO (R452). -/
  | readoutChaininfo (d : DieId) (id : Byte)
  /-- READOUT_CHAIN (R453). -/
  | readoutChain (d : DieId) (id : Byte) (addr : Word) (count : BitVec 16)
  /-- READOUT_MEM (R453). -/
  | readoutMem (d : DieId) (id : Byte) (addr : Word) (count : BitVec 16)
  /-- READOUT_LOG (R452). -/
  | readoutLog (d : DieId) (addr : Word) (count : BitVec 16)
  /-- THAW (R455). -/
  | thaw (d : DieId)
  /-- READOUT_RESET (R454). -/
  | readoutReset (d : DieId)
  /-- BLOCK_LOCK_GAINED (R236). -/
  | blockLockGained (d : DieId) (x : LockGain)
  /-- SIDE_WCK_LOSS (R331). -/
  | sideWckLoss (d : DieId)
  /-- SPLIT_START (R423). -/
  | splitStart (d : DieId)
  /-- WCK_OUT_FALL (R329). -/
  | wckOutFall (d : DieId)
  /-- PARTNER_DWN_RELEASE (R312). -/
  | partnerDwnRelease (d : DieId)
  /-- ENVIRONMENT_CALL (R380). -/
  | environmentCall (d : DieId) (n : Fin 4) (isBreak : Bool) (comp : Bool)
  deriving DecidableEq, Repr

end Sys2Proof
end

