-- ==== Sys2Proof/Machine/StEngine.lean ====
section
/-! DEFINITION. The state of the engine: bricks, courses and their tiles (02_bricks_and_courses.md), walls and
migrations (03_walls_schedules_repair.md), the yard, its rings, hods, test engines and remaps (04_yard_tiles_hods.md). -/

namespace Sys2Proof.Machine

/-- Brick state (R49): Q0 to Q15, the two accumulators, their wrap counts, the status bits and the dither LFSR. -/
structure Brick where
  q : Vector Quarter 16
  ac0 : BitVec 70
  ac1 : BitVec 70
  awc0 : BitVec 3
  awc1 : BitVec 3
  n : Bool
  z : Bool
  f : Bool
  aov0 : Bool
  aov1 : Bool
  qsat : Bool
  lfsr : BitVec 32
  deriving DecidableEq, Repr

/-- One loop level of the sequencer (R51, R71). -/
structure LoopLevel where
  lc : BitVec 13
  ls : BitVec 13
  le : BitVec 13
  deriving DecidableEq, Repr

/-- The search unit (R87); `best` is absent until the first element after a start. -/
structure Search where
  sv : Quarter
  si : BitVec 16
  sn : BitVec 16
  has : Bool
  deriving DecidableEq, Repr

/-- The tiles an engine store may name. -/
inductive TileId
  | x | y | exit
  deriving DecidableEq, Repr

/-- Where a Q register's write comes from: its place in the order of R60. -/
inductive QSrc
  | z | y | x | yard | store | alu
  deriving DecidableEq, Repr

/-- What an operation in flight writes at the end of its last issue cycle (R65). -/
inductive Wb
  /-- A Q register in every lane. -/
  | q (src : QSrc) (qd : BitVec 4) (row : Row)
  /-- QSAT of the lanes a store saturated (R83). -/
  | qsat (lanes : Vector Bool 8)
  /-- An accumulator, its wrap count, and the lanes whose AOV the operation sets. -/
  | acc (n : Bool) (ac : Vector (BitVec 70) 8) (awc : Vector (BitVec 3) 8) (aov : Vector Bool 8)
  /-- ARS part 0b10: AOV of every lane takes a value (R58). -/
  | aovSet (n : Bool) (aov : Vector Bool 8)
  /-- ARS part 0b11: the brick status of every lane (R58). -/
  | bs (v : Vector (BitVec 6) 8)
  /-- CMPLT, CMPEQ: F, and N and Z where given. -/
  | cmp (f : Vector Bool 8) (nz : Option (Vector Bool 8 × Vector Bool 8))
  /-- A course register by index, with the packed value of R501 and AGM's bits 31:28. -/
  | creg (idx : BitVec 5) (v : Quarter) (hi : BitVec 4)
  /-- A post-update of an X, Y, Z generator (bus 0 to 2) or a yard pointer (bus 3). -/
  | post (bus : Fin 4) (ag : Fin 4) (v : BitVec 22)
  /-- A tile store (R62). -/
  | tile (t : TileId) (row : Nat) (data : Row)
  /-- A ring store into a seat's inbound ring tile (R97). -/
  | ring (seat : Fin 24) (row : Nat) (data : Row)
  /-- CLRO. -/
  | clro
  /-- A search step: maximum or minimum, start, element count, values (R87). -/
  | search (max start : Bool) (count : Nat) (vals : Row)
  /-- BRK's pending bit, which reads 1 from the next cycle (R74). -/
  | brk
  deriving DecidableEq, Repr

/-- The sequencer operation the bundle of the present cycle holds (R67). -/
inductive SeqAct
  | none
  | end_ (cycle : BitVec 15)
  | br (target : BitVec 13)
  | rpt (count : BitVec 13)
  | loop (count last : BitVec 13)
  | rti
  deriving DecidableEq, Repr

/-- A yard access of a course that waits for its bank (R66, R132). -/
structure YardAcc where
  store : Bool
  ag : Fin 4
  up : BitVec 2
  q : BitVec 4
  /-- The second access of a load from a SMOOTH ring, with the row the first access returned. -/
  second : Option Row
  /-- The data of a store, read from Q at its issue. -/
  data : Row
  err : RowErr
  deriving DecidableEq, Repr

/-- A store a course made, as the comparison of R111 sees it. -/
inductive StoreRec
  | tile (t : TileId) (row : Nat) (data : Row)
  | ring (row : Nat) (data : Row)
  | yard (row : BitVec 22) (data : Row)
  deriving DecidableEq, Repr

/-- A course (R50, R51): bricks, course registers, sequencer, memories. -/
structure Course where
  bricks : Vector Brick 8
  xa : Vector (BitVec 15) 4
  ya : Vector (BitVec 15) 4
  za : Vector (BitVec 15) 4
  dp : Vector (BitVec 22) 4
  xm : BitVec 13
  ym : BitVec 13
  zm : BitVec 13
  dm : BitVec 22
  xl : BitVec 12
  yl : BitVec 12
  zl : BitVec 12
  agm : BitVec 32
  levels : Vector LoopLevel 3
  ld : BitVec 2
  rc : BitVec 13
  ipc : BitVec 13
  ibr : BitVec 17
  ics : BitVec 9
  search : Search
  /-- Operations in flight: cycles still to run, and the write. -/
  flight : List (Nat × Wb)
  /-- Address of the bundle of the present cycle. -/
  pc : BitVec 13
  /-- The course fetches; false before its first FT and after END. -/
  running : Bool
  /-- END issued in this frame at or before cycle N - 513 (R89). -/
  reachedEnd : Bool
  /-- Cycle on which END issued in the present frame; 0x7FFF while none has (R114). -/
  endCyc : BitVec 15
  /-- Address of the END bundle the course is idle after. -/
  endPc : BitVec 13
  /-- Sequencer operation issued in the present cycle. -/
  act : SeqAct
  /-- Delay slots still to issue, their target, and whether RTI opened them. -/
  slots : Nat
  tgt : BitVec 13
  slotRti : Bool
  /-- A repeat is active (R70). -/
  rpt : Bool
  /-- A handler was entered while the course was idle after END (R78). -/
  idleTaken : Bool
  /-- The source whose handler runs. -/
  handler : Option (Fin 4)
  /-- The handlers that the running one interrupted, innermost first, each with its `idleTaken` (R78). -/
  outer : List (Fin 4 × Bool)
  /-- The request eligible at the start of the present cycle, and the one that was eligible at the start of the cycle that
  has just ended (R74, R75). -/
  now : Option (Fin 4)
  taken : Option (Fin 4)
  /-- Requests raised in the present cycle, bit i for source i: their pending bits read 1 from the start of the next (R74). -/
  raised : BitVec 4
  /-- The first resumed bundle has not issued since RTI (R78). -/
  resumed : Bool
  /-- The loop cache refills: the first back-edge costs one cycle (R78). -/
  refill : Bool
  /-- The present cycle is the overhead cycle of a back-edge (R73). -/
  overhead : Bool
  /-- Start of the loop body the loop cache holds (R73). -/
  cache : Option (BitVec 13)
  /-- The bundles of that body which the loop cache holds, by address (R50, R73). -/
  cached : List (Nat × BitVec 128)
  /-- A stalled yard access (R66). -/
  stalled : Option YardAcc
  /-- Yard stall cycles of the present frame (R101). -/
  stalls : Nat
  /-- Cycles of the present frame that were no stall. -/
  ticks : Nat
  /-- Stores issued in the present cycle. -/
  stores : List StoreRec
  /-- Stores issued in the present frame with their issue cycles, as `ticks` counts, kept while a migration compares them
  (R111). -/
  compared : List (Nat × StoreRec)
  /-- The latest yard load that was delivered in this frame: its issue cycle, as `ticks` counts, and its row (R109). -/
  lastYard : Option (Nat × Row)
  /-- Program tile: bundles by address; an unlisted address holds an END bundle. -/
  prog : SMap (BitVec 128)
  x : SMap Row
  y : SMap Row
  zFront : SMap Row
  zBack : SMap Row
  entryEng : SMap Row
  entryMor : SMap Row
  exitWork : SMap Row
  exitPres : SMap Row
  ringIn : SMap Row
  /-- Check-bit state of the tiles: two bits per lane pair (1 correctable, 2 uncorrectable), keyed by tile and row. -/
  bad : SMap (BitVec 8)
  /-- Correctable and uncorrectable reads of the course's tiles, as YRD_CTERR shows them (R122, R123). -/
  sbe : BitVec 16
  dbe : BitVec 8
  /-- Tile rows whose correction write-back is pending, by tile and row (R122). -/
  fixes : List Nat
  deriving DecidableEq, Repr

/-- What a migration holds beside its registers (R108 to R111). -/
structure Migration where
  /-- Hod 3's progress: bundles copied in LOAD, rows copied in SHADOW. -/
  copied : Nat
  /-- Rows of the spare written by an engine-port store during SHADOW (R110). -/
  written : List Nat
  /-- The spare that serves the migration. -/
  spare : Fin 7
  /-- The source, as GO found it. -/
  src : Fin 7
  /-- The GO write took effect in the present frame, so LOAD has not begun (R108). -/
  waiting : Bool
  /-- Frames of LOAD begun (R108). -/
  frames : Nat
  /-- The migration has ended and the spare returns to the SPARE role at the next FT (R111, R113). -/
  ending : Bool
  /-- ABORT was written in LOAD: the spare's test sequence stands still until the next FT (R113). -/
  rest : Bool
  /-- REARM was written: the retired course becomes the spare at the next FT (R113). -/
  rearm : Bool
  deriving DecidableEq, Repr

/-- A wall's power (R102, R103): its state, the frames left of a transition, and whether it holds its retention. -/
structure WallPower where
  framesLeft : Nat
  /-- The wall's program, Z and yard contents are held. -/
  held : Bool
  deriving DecidableEq, Repr

/-- A delay ring descriptor (R127, R133). -/
structure RingDesc where
  valid : Bool
  base : Nat
  maxLen : Nat
  frontLen : Nat
  frontSmooth : Bool
  backLen : Nat
  backSmooth : Bool
  wp : Nat
  clamp : Bool
  ringErr : Bool
  oldLen : Nat
  oldWp : Nat
  /-- Frames of a running fade still to come; 0 when none runs. -/
  fade : Nat
  deriving DecidableEq, Repr

/-- A descriptor a hod runs (R135), and whether an FT has passed since it was pushed (ATFT). -/
structure HodDesc where
  d0 : Word
  d1 : Word
  d2 : Word
  d3 : Word
  ft : Bool
  deriving DecidableEq, Repr

/-- A hod (R134 to R137): its queue, the running descriptor and the rows already moved. -/
structure Hod where
  queue : List HodDesc
  running : Option HodDesc
  moved : Nat
  /-- A row read from the yard whose write has no grant yet (R136). -/
  inHand : Option Row
  deriving DecidableEq, Repr

/-- Where a bank's test engine stands in its step (R138). -/
inductive TestPhase
  | idle
  | capture
  | march (cycle : Nat)
  /-- The restore is next; whether the march was completed. -/
  | restore (done : Bool)
  deriving DecidableEq, Repr

/-- A bank's test engine (R138 to R141). -/
structure TestEngine where
  /-- The next test row in physical order: 512 per tile, tiles 0 to 263. -/
  next : Nat
  phase : TestPhase
  /-- The row is borrowed and served from the shadow. -/
  borrowed : Bool
  shadow : Vector Row 8
  /-- Frames since the last step started. -/
  frames : Nat
  /-- Code words found correctable on the pass before, and on this one (R138). -/
  seen : List Nat
  found : List Nat
  deriving DecidableEq, Repr

/-- A bank's spare-tile remap (R142). -/
structure Remap where
  srcPhys : Nat
  /-- The logical tile, as GO found it. -/
  tile : Nat
  spare : Nat
  /-- Next row of the COPY pass. -/
  nextRow : Nat
  /-- Rows the present CLEAN pass has still to copy, and rows marked dirty. -/
  todo : List Nat
  dirty : List Nat
  /-- Copy reads whose write into the spare is still to come: absolute cycle of the read, row, data. -/
  reads : List (Nat × Nat × Row)
  deriving DecidableEq, Repr

/-- A YARDW write that has made its read and not its write (R124): its master and address, and whether another requester has
written the row since. -/
structure YardRmw where
  m : BitVec 3
  addr : Word
  spoilt : Bool
  deriving DecidableEq, Repr

/-- The yard (R116 to R144). Rows are keyed by physical place: `(bank * 264 + tile) * 4096 + row`. -/
structure Yard where
  rows : SMap Row
  bad : SMap (BitVec 8)
  /-- Physical tile of logical tile `256 * bank + tile`; unlisted: the tile's own number. -/
  tileMap : SMap Nat
  /-- Retired physical tiles, `264 * bank + tile`. -/
  retired : List Nat
  /-- Remap candidates: cause plus one by `264 * bank + tile`. -/
  cand : SMap Nat
  rings : SMap RingDesc
  /-- Ring bound to `4 * seat + pointer`, plus one; 0 none (R128). -/
  binds : SMap Nat
  /-- The grant of each bank's present cycle (R117): `none` while no arbitration stands in this frame, `some none` once
  it is used or where no one won, else the winner; and that cycle counted from frame 0. -/
  grants : Vector (Option (Option Requester)) 4
  cycles : Vector Nat 4
  /-- YARDW writes between their two grants (R124). -/
  rmws : List YardRmw
  /-- Rows whose correction write-back is pending (R122). -/
  fixes : List Nat
  tests : Vector TestEngine 4
  remaps : Vector Remap 4
  hods : Vector Hod 16
  /-- Live rows marked unwritten at JOIN: ranges of row addresses, start and count, and the rows written since (R307). -/
  live : List (Nat × Nat)
  /-- The live regions the image declares (R412). -/
  liveMap : List (Nat × Nat)
  unwritten : Bool
  rewritten : List Nat
  deriving DecidableEq, Repr

/-- The engine of a die. -/
structure Engine where
  courses : Vector Course 28
  walls : Vector WallPower 4
  migs : Vector Migration 4
  /-- Entry map: seat and flat index of a sink, as `512 * seat + index + 1`; 0 unused (R96). -/
  entryMap : SMap Nat
  /-- Exit map: the same for a source minus 0x4000. -/
  exitMap : SMap Nat
  /-- Built-in spare test: the value fixed at manufacture (R105). -/
  spareTest : Vector Bool 28
  /-- From cycle N - 8 no course issues (R90). -/
  stopped : Bool
  /-- The exchange window of the present frame is open (R88). -/
  window : Bool
  /-- The baselines of R106 recorded by the first measurement after the first die reset; no die reset loses them (log 186). -/
  wearBase : Vector (Option (BitVec 12)) 28
  deriving DecidableEq, Repr

/-- A brick after die reset (R49). -/
def Brick.reset : Brick :=
  ⟨Vector.replicate 16 0, 0, 0, 0, 0, false, false, false, false, false, false, 0⟩

/-- A course after die reset (R51): every register zero but ICS.IE. DESIGN CHOICE: the search unit starts at zero with no
best value, which R51 and R87 do not give (log 192). -/
def Course.reset : Course where
  bricks := Vector.replicate 8 Brick.reset
  xa := Vector.replicate 4 0
  ya := Vector.replicate 4 0
  za := Vector.replicate 4 0
  dp := Vector.replicate 4 0
  xm := 0
  ym := 0
  zm := 0
  dm := 0
  xl := 0
  yl := 0
  zl := 0
  agm := 0
  levels := Vector.replicate 3 ⟨0, 0, 0⟩
  ld := 0
  rc := 0
  ipc := 0
  ibr := 0
  ics := 0x100
  search := ⟨0, 0, 0, false⟩
  flight := []
  pc := 0
  running := false
  reachedEnd := false
  endCyc := 0x7FFF
  endPc := 0
  act := .none
  slots := 0
  tgt := 0
  slotRti := false
  rpt := false
  idleTaken := false
  handler := none
  outer := []
  now := none
  taken := none
  raised := 0
  resumed := false
  refill := false
  overhead := false
  cache := none
  cached := []
  stalled := none
  stalls := 0
  ticks := 0
  stores := []
  compared := []
  lastYard := none
  prog := []
  x := []
  y := []
  zFront := []
  zBack := []
  entryEng := []
  entryMor := []
  exitWork := []
  exitPres := []
  ringIn := []
  bad := []
  sbe := 0
  dbe := 0
  fixes := []

/-- The engine after die reset. -/
def Engine.reset : Engine where
  courses := Vector.replicate 28 Course.reset
  walls := Vector.replicate 4 ⟨0, false⟩
  migs := Vector.replicate 4 ⟨0, [], 6, 0, false, 0, false, false, false⟩
  entryMap := []
  exitMap := []
  spareTest := Vector.replicate 28 false
  stopped := false
  window := false
  wearBase := Vector.replicate 28 none

/-- An undefined ring descriptor. -/
def RingDesc.none : RingDesc := ⟨false, 0, 0, 0, false, 0, false, 0, false, false, 0, 0, 0⟩

/-- The yard after die reset, before the image. -/
def Yard.reset : Yard where
  rows := []
  bad := []
  tileMap := []
  retired := []
  cand := []
  rings := []
  binds := []
  grants := Vector.replicate 4 none
  cycles := Vector.replicate 4 0
  rmws := []
  fixes := []
  tests := Vector.replicate 4 ⟨0, .idle, false, Vector.replicate 8 Row.zero, 0, [], []⟩
  remaps := Vector.replicate 4 ⟨0, 0, 0, 0, [], [], []⟩
  hods := Vector.replicate 16 ⟨[], none, 0, none⟩
  live := []
  liveMap := []
  unwritten := false
  rewritten := []

end Sys2Proof.Machine
end

