-- ==== Sys2Proof/Machine/Flags.lean ====
section
/-! DEFINITION. The arithmetic of a brick and its flags: saturation, accumulation with wrap counts, the store procedure,
dither and the search step (R45 to R48, R55 to R58, R81 to R87). Every result is computed exactly on integers and then
narrowed. -/

namespace Sys2Proof.Machine

/-- Clamp an integer to a range. -/
def clampI (lo hi x : Int) : Int := if x < lo then lo else if hi < x then hi else x

/-- A quarter from an integer in units of 2^-27, saturating (R56). -/
def satQ (x : Int) : Quarter := BitVec.ofInt 28 (clampI (-134217728) 134217727 x)

/-- The high stone of a quarter (R46). -/
def stoneHi (q : Quarter) : Int := (BitVec.ofNat 14 (q.toNat / 2 ^ 14)).toInt

/-- The low stone of a quarter (R46). -/
def stoneLo (q : Quarter) : Int := (BitVec.ofNat 14 q.toNat).toInt

/-- A stone from an integer in units of 2^-13, saturating (R86). -/
def satStone (x : Int) : Int := clampI (-8192) 8191 x

/-- A quarter from two stones (R46). -/
def ofStones (hi lo : Int) : Quarter :=
  BitVec.ofNat 28 ((BitVec.ofInt 14 hi).toNat * 2 ^ 14 + (BitVec.ofInt 14 lo).toNat)

/-- The factor of MSH (R53). -/
def mshFactor (m : BitVec 2) : Int :=
  match m.toNat with
  | 0 => 1
  | 1 => 2
  | 2 => 256
  | _ => 4096

/-- A quarter product in units of 2^-54, scaled (R47, R55). -/
def prodQ (a b : Quarter) (m : BitVec 2) : Int := a.toInt * b.toInt * mshFactor m

/-- A stone product, placed by appending 28 zero bits, scaled (R47). -/
def prodS (a b : Int) (m : BitVec 2) : Int := a * b * 268435456 * mshFactor m

/-- An accumulator with its wrap count, and whether the operation sets AOV. -/
structure AccVal where
  ac : BitVec 70
  awc : BitVec 3
  aov : Bool
  deriving DecidableEq, Repr

/-- An accumulator loaded outright: AWC becomes 0 (R55, R82). -/
def accLoad (x : Int) : AccVal := ⟨BitVec.ofInt 70 x, 0, false⟩

/-- Wraps of an exact sum: +1 above the range, -1 below it, else 0 (R81). -/
def wrapOf (sum : Int) : Int :=
  if 590295810358705651711 < sum then 1 else if sum < -590295810358705651712 then -1 else 0

/-- Accumulation modulo 2^70 with the wrap count of R81, pinned at +3 and -3 (R82). `more` is the wrap count AADD adds. -/
def accAdd (a : AccVal) (x more : Int) : AccVal :=
  let sum := a.ac.toInt + x
  let w := wrapOf sum
  let n := a.awc.toInt
  ⟨BitVec.ofInt 70 sum,
   if n = 3 ∨ n = -3 then a.awc else BitVec.ofInt 3 (clampI (-3) 3 (n + more + w)),
   decide (w ≠ 0)⟩

/-- One step of the dither register (R85). -/
def lfsrStep (l : BitVec 32) : BitVec 32 :=
  let n := l.toNat
  let f := (n / 2 ^ 31 + n / 2 ^ 21 + n / 2 + n) % 2
  BitVec.ofNat 32 (n * 2 + f)

/-- The register after `n` steps. -/
def lfsrSteps : Nat → BitVec 32 → BitVec 32
  | 0, l => l
  | n + 1, l => lfsrSteps n (lfsrStep l)

/-- dither() in units of 1/4,096 of the LSB (R85). -/
def ditherOf (l : BitVec 32) : Int := (l.toNat % 4096 : Nat) + (l.toNat / 65536 % 4096 : Nat) - 4095

/-- Round `x / 2^e` to an integer by the modes of R84 (dither already added). -/
def roundMode (x : Int) (e : Nat) (mode : BitVec 2) : Int :=
  let p : Int := 2 ^ e
  match mode.toNat with
  | 1 =>
    let q := x / p
    let r := x - q * p
    if 2 * r > p ∨ (2 * r = p ∧ q % 2 = 1) then q + 1 else q
  | 2 => x / p
  | _ => (2 * x + p) / (2 * p)

/-- The store procedure of R83: the value in units of the width's LSB, and whether it saturated. `w` is the width, `s` the
signed shift, `d` the dither in units of 1/4,096 LSB (0 where the mode is not 0b11). -/
def storeAcc (ac : BitVec 70) (awc : BitVec 3) (s : Int) (w : Nat) (mode : BitVec 2) (d : Int) : Int × Bool :=
  let top : Int := 2 ^ (w - 1) - 1
  let bottom : Int := -(2 ^ (w - 1))
  if 0 < awc.toInt then (top, true)
  else if awc.toInt < 0 then (bottom, true)
  else
    let e : Nat := (55 + s - w).toNat
    let x := ac.toInt * 4096 + d * 2 ^ e
    let v := roundMode x (e + 12) mode
    if top < v then (top, true) else if v < bottom then (bottom, true) else (v, false)

/-- The width of STA from IMM[1:0] (R83). -/
def staWidth (w : BitVec 2) : Nat := 28 - 4 * w.toNat

/-- A shift count: 28 to 31 act as 28 (R57). -/
def shiftCount (n : BitVec 5) : Nat := min n.toNat 28

/-- One element of a search (R87). -/
def searchElem (max : Bool) (u : Search) (v : Quarter) (i : Nat) : Search :=
  if !u.has || (if max then decide (u.sv.toInt < v.toInt) else decide (v.toInt < u.sv.toInt)) then
    { u with sv := v, si := BitVec.ofNat 16 (u.sn.toNat + i), has := true }
  else u

/-- A search step over the first `count` lanes; a starting step holds no best value and counts from 0 (R87). -/
def searchStep (max start : Bool) (count : Nat) (vals : Row) (u : Search) : Search :=
  let u := if start then { u with sn := 0, has := false } else u
  let u := ((List.finRange 8).filter (fun (i : Fin 8) => decide (i.val < count))).foldl
    (fun u i => searchElem max u vals[i] i.val) u
  { u with sn := u.sn + 8 }

end Sys2Proof.Machine
end

