-- ==== Sys2Proof/Config.lean ====
section
/-! DEFINITION. What an implementation fixes and the manual does not state: constants without a body, so that no proof
can see a value of them. Those that take a `Nat` first take the die's count of free values drawn so far. -/

namespace Sys2Proof.Config

/-- FREE VALUE. When a store result and an ALU result reach one Q register in one cycle, which of the two the register
keeps: R60 names them as one place in its order. -/
opaque storeWins : Nat → Bool

/-- FREE VALUE. What YRD_TESTHOLDb.ROW shows for a held test row of a spare tile, which has no row address (R116, R140). -/
opaque heldSpareRow : Nat → Nat

/-- The part is life-rated, -L (R8, R9). -/
opaque lifeRated : Bool

/-- The factory baseline of a course's timing margin in a -L part (R9, R106). -/
opaque factoryMargin : Nat → BitVec 12

/-- FREE VALUE. What a spare's built-in test leaves in its tiles at cycle N - 512, by tile and row (R105): the manual does not
give the sequence. -/
opaque scratchRow : Nat → Nat → Nat → Row

/-- FREE VALUE. What an ENGW read of a course of an OFF wall returns (R103, R185). -/
opaque offTile : Nat → Quarter

/-- The CRC-32 of the spare test fixed at manufacture (R105). -/
opaque spareExpected : BitVec 32

/-- FREE VALUE. Whether a slot of the log memory fails when a clear that ends LOGFAIL writes and reads it back (R441). -/
opaque slotFails : Nat → Nat → Bool

/-- FREE VALUE. The program address a counter's wrap captures when a write meets an increment (R444, R445). -/
opaque samplePc : Nat → BitVec 22

/-- FREE VALUE. By how many units of 2^-60 a sine generator's value departs from the true one, before it is brought into
the bound of R167. -/
opaque sineError : Nat → Int

/-- FREE VALUE. The pink filter's next state and output, from its state and the white sample: R168 gives the filter by
its response only. -/
opaque pinkStep : BitVec 128 → Quarter → BitVec 128

/-- FREE VALUE. See `pinkStep`. -/
opaque pinkOut : BitVec 128 → Quarter → Int

/-- FREE VALUE. A bridge channel's output sample before saturation and ramp, in quarter units: from its latest input samples,
the phase fraction, the output sample's place in its input period and the tracked ratio. R175 and R176 give the polyphase
filter by its limits only. -/
opaque bridgeFilter : List Quarter → BitVec 24 → Nat → BitVec 32 → Int

/-- FREE VALUE. Whether a ramped bridge output whose exact value lies between two quarters takes the upper one (R177, R178). -/
opaque rampUp : Nat → Bool

/-- FREE VALUE. The ratio that locked bridges have tracked by a CTLRATE tick (R175, R177), from the ratio before. -/
opaque trackedRatio : Nat → BitVec 32 → BitVec 32

/-- FREE VALUE. The CODE of the FIRMWARE-class record of a recall whose scene is absent, or whose arm was late (R201). -/
opaque sceneCode : Bool → BitVec 16

/-- FREE VALUE. What the allocator writes into the parts of a command row whose contents R221 does not give, by row and
lane. -/
opaque commandPad : Nat → Nat → Nat → Quarter

/-- FREE VALUE. The VALUE of the ALL_OFF events that MIDI messages and a sensing timeout give (R229, R231). -/
opaque allOffValue : Nat → BitVec 16

/-- FREE VALUE. CTL cycles since the last KEEP edge, by which the CTL copy of TIME has advanced (R332). -/
opaque ctlCycles : Nat → Nat

/-- FREE VALUE. How many blocks beyond the first a window of phase 4 compares (R308): the manual does not give the number. -/
opaque sweepBlocks : Nat → Nat

/-- FREE VALUE. PAIR_COPY.LEFT in phase 1, whose items the manual does not divide into rows or blocks (R305, R312). -/
opaque copyLeft : Nat → BitVec 24

/-- FREE VALUE. What a reader that goes on takes for an uncorrectable 64-bit word of a bank or SHARED, of which its read gives no
data (R267, R305, R392). -/
opaque lostWord : Nat → BitVec 64

/-- The strap `CLRSEL` of a die (R367), which the board sets. -/
opaque strapClrsel : DieId → Bool

/-- FREE VALUE. A byte that an I2C transfer with WLEN above 16 sends beyond the 16 bytes of DATA (R402). -/
opaque i2cByte : Nat → Nat → Byte

/-- FREE VALUE. The levels of SCL and SDA of a controller's bus, in bits 0 and 1, while a transfer moves them, and of SDA when it
is abandoned (R402, R405). -/
opaque i2cLines : Nat → Nat → BitVec 2

/-- FREE VALUE. The length in bits of a read-out chain (R452), by ID. -/
opaque chainLength : Nat → BitVec 32

/-- FREE VALUE. The check bits that stand with a stored word (R121, R392, R452), by space, address and data. -/
opaque checkBits : Nat → Nat → Nat → Nat

/-- How many check bits a stored word of a memory space has where the manual gives no number (R452). -/
opaque checkWidth : Nat → Nat

/-- Which copy of the pallet store, and which of its 32 slots, a quarter index of the read-out names (R453). -/
opaque palletPlace : Nat → Nat × Nat

/-- Which block of a lane's load queue a block address of the read-out names (R453). -/
opaque loadPlace : Nat → Nat

/-- The strap `KEEPSRC` of a die (R23, R416), which the board sets: high where KEEP runs from the internal oscillator. -/
opaque strapKeepsrc : DieId → Bool

/-- `HOX_IN` of a die is 10 MHz, otherwise 20 MHz (R316, R500): what the board feeds. -/
opaque hoxAtTen : DieId → Bool

/-- The cycle of the frame at which a load reads PCT_CYCLO (R442). -/
opaque readCycle : Nat → Nat

/-- FREE VALUE. CTL cycles a core waits beside the counts of R382: crossbar losses, PERI and window accesses, WFI, and the
entry into an exception's handler. -/
opaque waitCycles : Nat → Nat

/-- FREE VALUE. The change of the ENG frequency, in 0.0001 ppm, that the loop makes at an event of an input: of the loop's bandwidth in mHz
and the phase error in units of 40 ps. The manual gives the bandwidth, and not the loop's law (R313). -/
opaque loopStep : Nat → Int → Int

end Sys2Proof.Config
end

