-- ==== Sys2Proof/Machine/Regs.lean ====
section
/-! DEFINITION. The register map: for every register of the manual's caption lines its address (`R`), its fields (`F`),
and the row that gives its instances, clock domain, reset value and the type of each field (R10, R35 to R38). A register
whose reset column says that the image or the straps give its value stands here with the value it holds before them. -/

namespace Sys2Proof.Machine

/-- The field types of R10. -/
inductive FTy
  | rw | ro | w1c | wo | rc | wk
  deriving DecidableEq, Repr

/-- A field of a register at an address. -/
structure Fld where
  addr : Nat
  lo : Nat
  w : Nat
  deriving DecidableEq, Repr

/-- A field of a register row. -/
structure FRow where
  lo : Nat
  w : Nat
  ty : FTy
  deriving DecidableEq, Repr

/-- One caption line: the instances lie at `base + s1 * i + s2 * j` for `i < n1`, `j < n2`. -/
structure RegRow where
  base : Nat
  n1 : Nat
  s1 : Nat
  n2 : Nat
  s2 : Nat
  dom : Dom
  reset : Nat
  fields : List FRow
  deriving DecidableEq, Repr

/-- Does an instance of the row stand at this address? -/
def RegRow.has (r : RegRow) (a : Nat) : Bool :=
  r.base ≤ a && (a - r.base) / r.s1 < r.n1 && (a - r.base) % r.s1 % r.s2 == 0 && (a - r.base) % r.s1 / r.s2 < r.n2

namespace R

/-- ENG_Cn.MODE (R114). -/
def ENG_C_MODE (i : Nat) : Nat := 0x1000b000 + 0x40 * i
/-- ENG_Cn.START (R114). -/
def ENG_C_START (i : Nat) : Nat := 0x1000b004 + 0x40 * i
/-- ENG_Cn.STAT (R114). -/
def ENG_C_STAT (i : Nat) : Nat := 0x1000b008 + 0x40 * i
/-- ENG_Cn.OVR (R114). -/
def ENG_C_OVR (i : Nat) : Nat := 0x1000b00c + 0x40 * i
/-- ENG_Cn.STALL (R114). -/
def ENG_C_STALL (i : Nat) : Nat := 0x1000b010 + 0x40 * i
/-- ENG_Cn.BELL (R114). -/
def ENG_C_BELL (i : Nat) : Nat := 0x1000b014 + 0x40 * i
/-- ENG_Cn.WEAR (R114). -/
def ENG_C_WEAR (i : Nat) : Nat := 0x1000b018 + 0x40 * i
/-- ENG_SEQ (R115). -/
def ENG_SEQ : Nat := 0x1000b800
/-- ENG_RATE (R115). -/
def ENG_RATE : Nat := 0x1000b804
/-- ENG_WCTL (R115). -/
def ENG_WCTL : Nat := 0x1000b808
/-- ENG_SEATMAPw (R115). -/
def ENG_SEATMAP (i : Nat) : Nat := 0x1000b810 + 0x4 * i
/-- ENG_MIGw (R115). -/
def ENG_MIG (i : Nat) : Nat := 0x1000b820 + 0x4 * i
/-- ENG_MIGFw (R115). -/
def ENG_MIGF (i : Nat) : Nat := 0x1000b830 + 0x4 * i
/-- ENG_OVRIRQ (R115). -/
def ENG_OVRIRQ : Nat := 0x1000b840
/-- ENG_OVRIEN (R115). -/
def ENG_OVRIEN : Nat := 0x1000b844
/-- ENG_BELLIRQ (R115). -/
def ENG_BELLIRQ : Nat := 0x1000b848
/-- ENG_BELLIEN (R115). -/
def ENG_BELLIEN : Nat := 0x1000b84c
/-- ENG_SPSIGw (R115). -/
def ENG_SPSIG (i : Nat) : Nat := 0x1000b850 + 0x4 * i
/-- ENG_SPFAIL (R115). -/
def ENG_SPFAIL : Nat := 0x1000b860
/-- ENG_MAPIDX (R115). -/
def ENG_MAPIDX : Nat := 0x1000b870
/-- ENG_MAPDATA (R115). -/
def ENG_MAPDATA : Nat := 0x1000b874
/-- ENG_MAPERR (R115). -/
def ENG_MAPERR : Nat := 0x1000b878
/-- YRD_IRQ (R145). -/
def YRD_IRQ : Nat := 0x1000c000
/-- YRD_IEN (R145). -/
def YRD_IEN : Nat := 0x1000c004
/-- YRD_HODSTAT (R145). -/
def YRD_HODSTAT : Nat := 0x1000c008
/-- YRD_COLLADDR (R145). -/
def YRD_COLLADDR : Nat := 0x1000c00c
/-- YRD_SBEb (R145). -/
def YRD_SBE (i : Nat) : Nat := 0x1000c010 + 0x4 * i
/-- YRD_DBEb (R145). -/
def YRD_DBE (i : Nat) : Nat := 0x1000c020 + 0x4 * i
/-- YRD_ERRADDR (R145). -/
def YRD_ERRADDR : Nat := 0x1000c030
/-- YRD_CTSEL (R145). -/
def YRD_CTSEL : Nat := 0x1000c040
/-- YRD_CTERR (R145). -/
def YRD_CTERR : Nat := 0x1000c044
/-- YRD_REMAPb (R145). -/
def YRD_REMAP (i : Nat) : Nat := 0x1000c060 + 0x4 * i
/-- YRD_TMAPIDX (R145). -/
def YRD_TMAPIDX : Nat := 0x1000c070
/-- YRD_TMAPDATA (R145). -/
def YRD_TMAPDATA : Nat := 0x1000c074
/-- YRD_TESTCTL (R145). -/
def YRD_TESTCTL : Nat := 0x1000c080
/-- YRD_TESTSTAT (R145). -/
def YRD_TESTSTAT : Nat := 0x1000c084
/-- YRD_TESTABN (R145). -/
def YRD_TESTABN : Nat := 0x1000c088
/-- YRD_TESTHOLDb (R145). -/
def YRD_TESTHOLD (i : Nat) : Nat := 0x1000c090 + 0x4 * i
/-- YRD_RIDX (R145). -/
def YRD_RIDX : Nat := 0x1000c0a0
/-- YRD_RBASE (R145). -/
def YRD_RBASE : Nat := 0x1000c0a4
/-- YRD_RMAX (R145). -/
def YRD_RMAX : Nat := 0x1000c0a8
/-- YRD_RLEN (R145). -/
def YRD_RLEN : Nat := 0x1000c0ac
/-- YRD_RBACK (R145). -/
def YRD_RBACK : Nat := 0x1000c0b0
/-- YRD_RSTAT (R145). -/
def YRD_RSTAT : Nat := 0x1000c0b4
/-- YRD_RBIND (R145). -/
def YRD_RBIND : Nat := 0x1000c0b8
/-- YRD_HODn_D0 (R146). -/
def YRD_HOD_D0 (i : Nat) : Nat := 0x1000c100 + 0x20 * i
/-- YRD_HODn_D1 (R146). -/
def YRD_HOD_D1 (i : Nat) : Nat := 0x1000c104 + 0x20 * i
/-- YRD_HODn_D2 (R146). -/
def YRD_HOD_D2 (i : Nat) : Nat := 0x1000c108 + 0x20 * i
/-- YRD_HODn_D3 (R146). -/
def YRD_HOD_D3 (i : Nat) : Nat := 0x1000c10c + 0x20 * i
/-- YRD_HODn_STAT (R146). -/
def YRD_HOD_STAT (i : Nat) : Nat := 0x1000c110 + 0x20 * i
/-- YRD_HODIRQ (R146). -/
def YRD_HODIRQ : Nat := 0x1000c300
/-- YRD_HODIEN (R146). -/
def YRD_HODIEN : Nat := 0x1000c304
/-- MOR_CTRL (R181). -/
def MOR_CTRL : Nat := 0x1000a000
/-- MOR_STAT (R181). -/
def MOR_STAT : Nat := 0x1000a004
/-- MOR_IRQ (R181). -/
def MOR_IRQ : Nat := 0x1000a008
/-- MOR_IEN (R181). -/
def MOR_IEN : Nat := 0x1000a00c
/-- MOR_FADECNT (R181). -/
def MOR_FADECNT : Nat := 0x1000a010
/-- MOR_SATCNT (R181). -/
def MOR_SATCNT : Nat := 0x1000a014
/-- MOR_BADSRC (R181). -/
def MOR_BADSRC : Nat := 0x1000a018
/-- MOR_DIGEST (R181). -/
def MOR_DIGEST : Nat := 0x1000a01c
/-- MOR_PWMISS (R181). -/
def MOR_PWMISS : Nat := 0x1000a020
/-- MOR_FRIDX (R181). -/
def MOR_FRIDX : Nat := 0x1000a030
/-- MOR_FRDATA (R181). -/
def MOR_FRDATA : Nat := 0x1000a034
/-- MOR_FRFADE (R181). -/
def MOR_FRFADE : Nat := 0x1000a038
/-- MOR_SINEn_INC (R181). -/
def MOR_SINE_INC (i : Nat) : Nat := 0x1000a100 + 0x10 * i
/-- MOR_SINEn_OFS (R181). -/
def MOR_SINE_OFS (i : Nat) : Nat := 0x1000a104 + 0x10 * i
/-- MOR_SINEn_LEVEL (R181). -/
def MOR_SINE_LEVEL (i : Nat) : Nat := 0x1000a108 + 0x10 * i
/-- MOR_PINKn_LEVEL (R181). -/
def MOR_PINK_LEVEL (i : Nat) : Nat := 0x1000a140 + 0x4 * i
/-- MOR_WHITEn_LEVEL (R181). -/
def MOR_WHITE_LEVEL (i : Nat) : Nat := 0x1000a148 + 0x4 * i
/-- MOR_IMPLEVEL (R181). -/
def MOR_IMPLEVEL : Nat := 0x1000a158
/-- MOR_IMPFRAME (R181). -/
def MOR_IMPFRAME : Nat := 0x1000a150
/-- MOR_IMPCTL (R181). -/
def MOR_IMPCTL : Nat := 0x1000a154
/-- MOR_BRCTL (R181). -/
def MOR_BRCTL : Nat := 0x1000a200
/-- MOR_BRRATIO (R181). -/
def MOR_BRRATIO : Nat := 0x1000a204
/-- MOR_BRPHM2S (R181). -/
def MOR_BRPHM2S : Nat := 0x1000a208
/-- MOR_BRPHS2M (R181). -/
def MOR_BRPHS2M : Nat := 0x1000a20c
/-- MOR_BRSAT (R181). -/
def MOR_BRSAT : Nat := 0x1000a210
/-- MOR_BRIDX (R181). -/
def MOR_BRIDX : Nat := 0x1000a214
/-- MOR_BRMAP (R181). -/
def MOR_BRMAP : Nat := 0x1000a218
/-- ENG_SWAPn_MASK (R204). -/
def ENG_SWAP_MASK (i : Nat) : Nat := 0x1000b880 + 0x10 * i
/-- ENG_SWAPn_FRAME (R204). -/
def ENG_SWAP_FRAME (i : Nat) : Nat := 0x1000b884 + 0x10 * i
/-- ENG_SWAPn_CTL (R204). -/
def ENG_SWAP_CTL (i : Nat) : Nat := 0x1000b888 + 0x10 * i
/-- ENG_SWAPCTL (R204). -/
def ENG_SWAPCTL : Nat := 0x1000b8c0
/-- ENG_SWAPIRQ (R204). -/
def ENG_SWAPIRQ : Nat := 0x1000b8c4
/-- ENG_SWAPIEN (R204). -/
def ENG_SWAPIEN : Nat := 0x1000b8c8
/-- ENG_SWAPLAST (R204). -/
def ENG_SWAPLAST : Nat := 0x1000b8cc
/-- ENG_SWAPLASTMASK (R204). -/
def ENG_SWAPLASTMASK : Nat := 0x1000b8d0
/-- ENG_SWAPSKIP (R204). -/
def ENG_SWAPSKIP : Nat := 0x1000b8d4
/-- VOX_CTRL (R233). -/
def VOX_CTRL : Nat := 0x10009000
/-- VOX_STAT (R233). -/
def VOX_STAT : Nat := 0x10009004
/-- VOX_IRQ (R233). -/
def VOX_IRQ : Nat := 0x10009008
/-- VOX_IEN (R233). -/
def VOX_IEN : Nat := 0x1000900c
/-- VOX_FWEV_LO (R233). -/
def VOX_FWEV_LO : Nat := 0x10009010
/-- VOX_FWEV_HI (R233). -/
def VOX_FWEV_HI : Nat := 0x10009014
/-- VOX_QSTAT (R233). -/
def VOX_QSTAT : Nat := 0x10009018
/-- VOX_QDROP (R233). -/
def VOX_QDROP : Nat := 0x1000901c
/-- VOX_LATECNT (R233). -/
def VOX_LATECNT : Nat := 0x10009020
/-- VOX_PAIROWN (R233). -/
def VOX_PAIROWN : Nat := 0x10009028
/-- VOX_BATCH (R233). -/
def VOX_BATCH : Nat := 0x10009024
/-- VOX_STARTS (R233). -/
def VOX_STARTS : Nat := 0x1000902c
/-- VOX_CHLISTEN (R233). -/
def VOX_CHLISTEN : Nat := 0x10009030
/-- VOX_CFGVIEW (R233). -/
def VOX_CFGVIEW : Nat := 0x10009034
/-- VOX_MCFG (R233). -/
def VOX_MCFG : Nat := 0x10009038
/-- VOX_MERR (R233). -/
def VOX_MERR : Nat := 0x1000903c
/-- VOX_MFIFO (R233). -/
def VOX_MFIFO : Nat := 0x10009040
/-- VOX_MMAPm_LO (R233). -/
def VOX_MMAP_LO (i : Nat) : Nat := 0x10009050 + 0x8 * i
/-- VOX_MMAPm_HI (R233). -/
def VOX_MMAP_HI (i : Nat) : Nat := 0x10009054 + 0x8 * i
/-- VOX_MENm (R233). -/
def VOX_MEN (i : Nat) : Nat := 0x10009060 + 0x4 * i
/-- VOX_AREA (R233). -/
def VOX_AREA : Nat := 0x10009070
/-- VOX_GCFGg (R233). -/
def VOX_GCFG (i : Nat) : Nat := 0x10009100 + 0x4 * i
/-- VOX_GSTATg (R233). -/
def VOX_GSTAT (i : Nat) : Nat := 0x10009140 + 0x4 * i
/-- VOX_GDROPg (R233). -/
def VOX_GDROP (i : Nat) : Nat := 0x10009180 + 0x4 * i
/-- VOX_VIDX (R233). -/
def VOX_VIDX : Nat := 0x100091c0
/-- VOX_VSTAT (R233). -/
def VOX_VSTAT : Nat := 0x100091c4
/-- CHN_x_CTRL (R277). -/
def CHNX_CTRL (i : Nat) : Nat := 0x10003000 + 0x1000 * i
/-- CHN_x_STAT (R277). -/
def CHNX_STAT (i : Nat) : Nat := 0x10003004 + 0x1000 * i
/-- CHN_x_IRQ (R277). -/
def CHNX_IRQ (i : Nat) : Nat := 0x10003008 + 0x1000 * i
/-- CHN_x_IEN (R277). -/
def CHNX_IEN (i : Nat) : Nat := 0x1000300c + 0x1000 * i
/-- CHN_x_FILL (R277). -/
def CHNX_FILL (i : Nat) : Nat := 0x10003010 + 0x1000 * i
/-- CHN_x_RTT (R277). -/
def CHNX_RTT (i : Nat) : Nat := 0x10003014 + 0x1000 * i
/-- CHN_x_CABLE (R277). -/
def CHNX_CABLE (i : Nat) : Nat := 0x10003018 + 0x1000 * i
/-- CHN_x_ERR (R277). -/
def CHNX_ERR (i : Nat) : Nat := 0x1000301c + 0x1000 * i
/-- CHN_x_SLIP (R277). -/
def CHNX_SLIP (i : Nat) : Nat := 0x10003020 + 0x1000 * i
/-- CHN_x_WDROP (R277). -/
def CHNX_WDROP (i : Nat) : Nat := 0x10003024 + 0x1000 * i
/-- CHN_x_MAPIDX (R277). -/
def CHNX_MAPIDX (i : Nat) : Nat := 0x10003030 + 0x1000 * i
/-- CHN_x_MAPDATA (R277). -/
def CHNX_MAPDATA (i : Nat) : Nat := 0x10003034 + 0x1000 * i
/-- CHN_x_LANEl (R277). -/
def CHNX_LANE (i : Nat) (j : Nat) : Nat := 0x10003040 + 0x1000 * i + 0x4 * j
/-- CHN_CTRL (R278). -/
def CHN_CTRL : Nat := 0x10005000
/-- CHN_STAT (R278). -/
def CHN_STAT : Nat := 0x10005004
/-- CHN_ALARM (R278). -/
def CHN_ALARM : Nat := 0x10005008
/-- CHN_IRQ (R278). -/
def CHN_IRQ : Nat := 0x1000500c
/-- CHN_IEN (R278). -/
def CHN_IEN : Nat := 0x10005010
/-- CHN_PCTL (R278). -/
def CHN_PCTL : Nat := 0x10005014
/-- CHN_PFRAME (R278). -/
def CHN_PFRAME : Nat := 0x10005018
/-- CHN_STORE (R278). -/
def CHN_STORE : Nat := 0x1000501c
/-- CHN_LATE (R278). -/
def CHN_LATE : Nat := 0x10005020
/-- CHN_MISS (R278). -/
def CHN_MISS : Nat := 0x10005024
/-- CHN_DUP (R278). -/
def CHN_DUP : Nat := 0x10005028
/-- CHN_STALE (R278). -/
def CHN_STALE : Nat := 0x1000502c
/-- CHN_RXBASE (R278). -/
def CHN_RXBASE : Nat := 0x10005040
/-- CHN_TXBASEl (R278). -/
def CHN_TXBASE (i : Nat) : Nat := 0x10005080 + 0x10 * i
/-- CHN_RXCNT (R278). -/
def CHN_RXCNT : Nat := 0x10005044
/-- CHN_TXCNTl (R278). -/
def CHN_TXCNT (i : Nat) : Nat := 0x10005084 + 0x10 * i
/-- CHN_RXHEAD (R278). -/
def CHN_RXHEAD : Nat := 0x10005048
/-- CHN_TXTAILl (R278). -/
def CHN_TXTAIL (i : Nat) : Nat := 0x1000508c + 0x10 * i
/-- CHN_RXTAIL (R278). -/
def CHN_RXTAIL : Nat := 0x1000504c
/-- CHN_TXHEADl (R278). -/
def CHN_TXHEAD (i : Nat) : Nat := 0x10005088 + 0x10 * i
/-- CHN_TXSEQl (R278). -/
def CHN_TXSEQ (i : Nat) : Nat := 0x100050c0 + 0x4 * i
/-- PAIR_CTRL (R312). -/
def PAIR_CTRL : Nat := 0x10006000
/-- PAIR_STAT (R312). -/
def PAIR_STAT : Nat := 0x10006004
/-- PAIR_IRQ (R312). -/
def PAIR_IRQ : Nat := 0x10006008
/-- PAIR_IEN (R312). -/
def PAIR_IEN : Nat := 0x1000600c
/-- PAIR_FENCE (R312). -/
def PAIR_FENCE : Nat := 0x10006010
/-- PAIR_DIV (R312). -/
def PAIR_DIV : Nat := 0x10006014
/-- PAIR_DIVFRAME (R312). -/
def PAIR_DIVFRAME : Nat := 0x10006018
/-- PAIR_HOFRAME (R312). -/
def PAIR_HOFRAME : Nat := 0x10006020
/-- PAIR_SKEW (R312). -/
def PAIR_SKEW : Nat := 0x1000601c
/-- PAIR_COPY (R312). -/
def PAIR_COPY : Nat := 0x10006024
/-- PAIR_HLOCALw (R312). -/
def PAIR_HLOCAL (i : Nat) : Nat := 0x10006030 + 0x4 * i
/-- PAIR_HPARTw (R312). -/
def PAIR_HPART (i : Nat) : Nat := 0x10006040 + 0x4 * i
/-- PAIR_RINGIDX (R312). -/
def PAIR_RINGIDX : Nat := 0x10006050
/-- PAIR_RINGINC (R312). -/
def PAIR_RINGINC : Nat := 0x10006054
/-- PAIR_LOST (R312). -/
def PAIR_LOST : Nat := 0x10006058
/-- PAIR_MISSCNT (R312). -/
def PAIR_MISSCNT : Nat := 0x1000605c
/-- REF_CTRL (R344). -/
def REF_CTRL : Nat := 0x10001000
/-- REF_STAT (R344). -/
def REF_STAT : Nat := 0x10001004
/-- REF_IRQ (R344). -/
def REF_IRQ : Nat := 0x10001008
/-- REF_IEN (R344). -/
def REF_IEN : Nat := 0x1000100c
/-- REF_RANK (R344). -/
def REF_RANK : Nat := 0x10001010
/-- REF_INi (R344). -/
def REF_IN (i : Nat) : Nat := 0x10001020 + 0x4 * i
/-- REF_PHASE (R344). -/
def REF_PHASE : Nat := 0x10001040
/-- REF_FOFS (R344). -/
def REF_FOFS : Nat := 0x10001044
/-- REF_HOLDLIM (R344). -/
def REF_HOLDLIM : Nat := 0x10001048
/-- REF_HOLDTIME (R344). -/
def REF_HOLDTIME : Nat := 0x1000104c
/-- REF_ALIGN (R344). -/
def REF_ALIGN : Nat := 0x10001050
/-- REF_ALIGNOFS (R344). -/
def REF_ALIGNOFS : Nat := 0x10001054
/-- REF_SIDE (R344). -/
def REF_SIDE : Nat := 0x10001060
/-- REF_SIDEFREQ (R344). -/
def REF_SIDEFREQ : Nat := 0x10001064
/-- REF_SWCNT (R344). -/
def REF_SWCNT : Nat := 0x10001068
/-- TIM_CTRL (R345). -/
def TIM_CTRL : Nat := 0x10002000
/-- TIM_STAT (R345). -/
def TIM_STAT : Nat := 0x10002004
/-- TIM_IRQ (R345). -/
def TIM_IRQ : Nat := 0x10002008
/-- TIM_IEN (R345). -/
def TIM_IEN : Nat := 0x1000200c
/-- TIM_NS (R345). -/
def TIM_NS : Nat := 0x10002010
/-- TIM_SEC (R345). -/
def TIM_SEC : Nat := 0x10002014
/-- TIM_SECHI (R345). -/
def TIM_SECHI : Nat := 0x10002018
/-- TIM_TICK (R345). -/
def TIM_TICK : Nat := 0x1000201c
/-- TIM_SETNS (R345). -/
def TIM_SETNS : Nat := 0x10002020
/-- TIM_SETSEC (R345). -/
def TIM_SETSEC : Nat := 0x10002024
/-- TIM_SETSECHI (R345). -/
def TIM_SETSECHI : Nat := 0x10002028
/-- TIM_STEPFRAME (R345). -/
def TIM_STEPFRAME : Nat := 0x1000202c
/-- TIM_OFFS (R345). -/
def TIM_OFFS : Nat := 0x10002030
/-- TIM_CORR (R345). -/
def TIM_CORR : Nat := 0x10002034
/-- TIM_STEPLIM (R345). -/
def TIM_STEPLIM : Nat := 0x10002038
/-- TIM_UTC (R345). -/
def TIM_UTC : Nat := 0x1000203c
/-- TIM_SQCTL (R345). -/
def TIM_SQCTL : Nat := 0x10002040
/-- TIM_SQTXID (R345). -/
def TIM_SQTXID : Nat := 0x10002050
/-- TIM_SQRXID (R345). -/
def TIM_SQRXID : Nat := 0x10002058
/-- TIM_SQTXAGE (R345). -/
def TIM_SQTXAGE : Nat := 0x10002054
/-- TIM_SQRXAGE (R345). -/
def TIM_SQRXAGE : Nat := 0x1000205c
/-- TIM_CAPNS (R345). -/
def TIM_CAPNS : Nat := 0x10002068
/-- TIM_CAPSEC (R345). -/
def TIM_CAPSEC : Nat := 0x1000206c
/-- TIM_CAPTICK (R345). -/
def TIM_CAPTICK : Nat := 0x10002070
/-- TIM_SQSTAT (R345). -/
def TIM_SQSTAT : Nat := 0x10002060
/-- TIM_SQDROP (R345). -/
def TIM_SQDROP : Nat := 0x10002064
/-- TIM_ENTNSn (R345). -/
def TIM_ENTNS (i : Nat) : Nat := 0x10002080 + 0x8 * i
/-- TIM_ENTSECn (R345). -/
def TIM_ENTSEC (i : Nat) : Nat := 0x10002084 + 0x8 * i
/-- TIM_RXDELAY (R345). -/
def TIM_RXDELAY : Nat := 0x100020a0
/-- TIM_DSTEP (R345). -/
def TIM_DSTEP : Nat := 0x100020a4
/-- SAP_p_CTRL (R362). -/
def SAP_P_CTRL (i : Nat) : Nat := 0x10007000 + 0x100 * i
/-- SAP_p_STAT (R362). -/
def SAP_P_STAT (i : Nat) : Nat := 0x10007004 + 0x100 * i
/-- SAP_p_MASK (R362). -/
def SAP_P_MASK (i : Nat) : Nat := 0x10007008 + 0x100 * i
/-- SAP_p_AMASK (R362). -/
def SAP_P_AMASK (i : Nat) : Nat := 0x1000700c + 0x100 * i
/-- SAP_p_PHASE (R362). -/
def SAP_P_PHASE (i : Nat) : Nat := 0x10007010 + 0x100 * i
/-- SAP_p_SAT (R362). -/
def SAP_P_SAT (i : Nat) : Nat := 0x10007014 + 0x100 * i
/-- SAP_Gg_CTRL (R363). -/
def SAP_G_CTRL (i : Nat) : Nat := 0x10007800 + 0x80 * i
/-- SAP_Gg_STAT (R363). -/
def SAP_G_STAT (i : Nat) : Nat := 0x10007804 + 0x80 * i
/-- SAP_Gg_IRQ (R363). -/
def SAP_G_IRQ (i : Nat) : Nat := 0x10007808 + 0x80 * i
/-- SAP_Gg_IEN (R363). -/
def SAP_G_IEN (i : Nat) : Nat := 0x1000780c + 0x80 * i
/-- CVD_CTRL (R378). -/
def CVD_CTRL : Nat := 0x10008000
/-- CVD_STAT (R378). -/
def CVD_STAT : Nat := 0x10008004
/-- CVD_IRQ (R378). -/
def CVD_IRQ : Nat := 0x10008008
/-- CVD_IEN (R378). -/
def CVD_IEN : Nat := 0x1000800c
/-- CVD_MIDRB (R378). -/
def CVD_MIDRB : Nat := 0x10008010
/-- CVD_n_CFG (R379). -/
def CVD_N_CFG (i : Nat) : Nat := 0x10008100 + 0x40 * i
/-- CVD_n_DATA (R379). -/
def CVD_N_DATA (i : Nat) : Nat := 0x10008104 + 0x40 * i
/-- CVD_n_OUT (R379). -/
def CVD_N_OUT (i : Nat) : Nat := 0x10008108 + 0x40 * i
/-- CVD_n_STAT (R379). -/
def CVD_N_STAT (i : Nat) : Nat := 0x1000810c + 0x40 * i
/-- CVD_n_RB (R379). -/
def CVD_N_RB (i : Nat) : Nat := 0x10008110 + 0x40 * i
/-- CVD_n_SAT (R379). -/
def CVD_N_SAT (i : Nat) : Nat := 0x10008114 + 0x40 * i
/-- CVD_n_SINC (R379). -/
def CVD_N_SINC (i : Nat) : Nat := 0x10008118 + 0x40 * i
/-- CVD_n_SPH (R379). -/
def CVD_N_SPH (i : Nat) : Nat := 0x1000811c + 0x40 * i
/-- CVD_n_SLEV (R379). -/
def CVD_N_SLEV (i : Nat) : Nat := 0x10008120 + 0x40 * i
/-- CVD_n_SOFS (R379). -/
def CVD_N_SOFS (i : Nat) : Nat := 0x10008124 + 0x40 * i
/-- XBR_IRQ (R404). -/
def XBR_IRQ : Nat := 0x1000d000
/-- XBR_IEN (R404). -/
def XBR_IEN : Nat := 0x1000d004
/-- XBR_ERRADDR (R404). -/
def XBR_ERRADDR : Nat := 0x1000d008
/-- XBR_ERRID (R404). -/
def XBR_ERRID : Nat := 0x1000d00c
/-- XBR_ECC (R404). -/
def XBR_ECC : Nat := 0x1000d010
/-- XBR_CORECTL (R404). -/
def XBR_CORECTL : Nat := 0x1000d020
/-- XBR_SEMs (R404). -/
def XBR_SEM (i : Nat) : Nat := 0x1000d100 + 0x4 * i
/-- XBR_n_IEN (R404). -/
def XBR_N_IEN (i : Nat) : Nat := 0x1000d200 + 0x20 * i
/-- XBR_n_IPEND (R404). -/
def XBR_N_IPEND (i : Nat) : Nat := 0x1000d204 + 0x20 * i
/-- XBR_n_LATCH (R404). -/
def XBR_N_LATCH (i : Nat) : Nat := 0x1000d208 + 0x20 * i
/-- XBR_n_DBSET (R404). -/
def XBR_N_DBSET (i : Nat) : Nat := 0x1000d20c + 0x20 * i
/-- XBR_n_CLAIM (R404). -/
def XBR_N_CLAIM (i : Nat) : Nat := 0x1000d210 + 0x20 * i
/-- MISC_GPIO_DIR (R405). -/
def MISC_GPIO_DIR : Nat := 0x10011000
/-- MISC_GPIO_OUT (R405). -/
def MISC_GPIO_OUT : Nat := 0x10011004
/-- MISC_GPIO_IN (R405). -/
def MISC_GPIO_IN : Nat := 0x10011008
/-- MISC_GPIO_EDGE (R405). -/
def MISC_GPIO_EDGE : Nat := 0x1001100c
/-- MISC_GPIO_IRQ (R405). -/
def MISC_GPIO_IRQ : Nat := 0x10011010
/-- MISC_GPIO_TOUT (R405). -/
def MISC_GPIO_TOUT : Nat := 0x10011014
/-- MISC_GPIO_TFRAME (R405). -/
def MISC_GPIO_TFRAME : Nat := 0x10011018
/-- MISC_GPIO_TCTL (R405). -/
def MISC_GPIO_TCTL : Nat := 0x1001101c
/-- MISC_I2Cn_CTRL (R405). -/
def MISC_I2C_CTRL (i : Nat) : Nat := 0x10011100 + 0x80 * i
/-- MISC_I2Cn_XFER (R405). -/
def MISC_I2C_XFER (i : Nat) : Nat := 0x10011104 + 0x80 * i
/-- MISC_I2Cn_STAT (R405). -/
def MISC_I2C_STAT (i : Nat) : Nat := 0x10011108 + 0x80 * i
/-- MISC_I2Cn_DATAw (R405). -/
def MISC_I2C_DATA (i : Nat) (j : Nat) : Nat := 0x10011110 + 0x80 * i + 0x4 * j
/-- MISC_MIDI_CTRL (R405). -/
def MISC_MIDI_CTRL : Nat := 0x10011200
/-- MISC_MIDI_TX (R405). -/
def MISC_MIDI_TX : Nat := 0x10011204
/-- MISC_MIDI_STAT (R405). -/
def MISC_MIDI_STAT : Nat := 0x10011208
/-- BTL_CTRL (R430). -/
def BTL_CTRL : Nat := 0x10000000
/-- BTL_KEY (R430). -/
def BTL_KEY : Nat := 0x10000004
/-- BTL_STAT (R430). -/
def BTL_STAT : Nat := 0x10000008
/-- BTL_STRAP (R430). -/
def BTL_STRAP : Nat := 0x1000000c
/-- BTL_GEN (R430). -/
def BTL_GEN : Nat := 0x10000010
/-- BTL_IDENT (R430). -/
def BTL_IDENT : Nat := 0x10000014
/-- BTL_PIDENT (R430). -/
def BTL_PIDENT : Nat := 0x10000018
/-- BTL_PGEN (R430). -/
def BTL_PGEN : Nat := 0x1000001c
/-- BTL_PINFO (R430). -/
def BTL_PINFO : Nat := 0x10000020
/-- BTL_SLOTSTAT (R430). -/
def BTL_SLOTSTAT : Nat := 0x10000024
/-- BTL_LOADTIME (R430). -/
def BTL_LOADTIME : Nat := 0x10000028
/-- BTL_TRIAL (R430). -/
def BTL_TRIAL : Nat := 0x1000002c
/-- BTL_TRIALGEN (R430). -/
def BTL_TRIALGEN : Nat := 0x10000030
/-- BTL_IRQ (R430). -/
def BTL_IRQ : Nat := 0x10000040
/-- BTL_IEN (R430). -/
def BTL_IEN : Nat := 0x10000044
/-- BTL_PLUG (R430). -/
def BTL_PLUG : Nat := 0x10000048
/-- BTL_SUPPLY (R430). -/
def BTL_SUPPLY : Nat := 0x10000050
/-- BTL_SUPIEN (R430). -/
def BTL_SUPIEN : Nat := 0x10000054
/-- BTL_FCMD (R430). -/
def BTL_FCMD : Nat := 0x10000060
/-- BTL_FADDR (R430). -/
def BTL_FADDR : Nat := 0x10000064
/-- BTL_FSTAT (R430). -/
def BTL_FSTAT : Nat := 0x10000068
/-- BTL_FBUFw (R430). -/
def BTL_FBUF (i : Nat) : Nat := 0x10000100 + 0x4 * i
/-- LOG_CTRL (R456). -/
def LOG_CTRL : Nat := 0x1000e000
/-- LOG_STAT (R456). -/
def LOG_STAT : Nat := 0x1000e004
/-- LOG_IRQ (R456). -/
def LOG_IRQ : Nat := 0x1000e008
/-- LOG_IEN (R456). -/
def LOG_IEN : Nat := 0x1000e00c
/-- LOG_IRQCLS (R456). -/
def LOG_IRQCLS : Nat := 0x1000e010
/-- LOG_CURSOR (R456). -/
def LOG_CURSOR : Nat := 0x1000e014
/-- LOG_FNEXT (R456). -/
def LOG_FNEXT : Nat := 0x1000e018
/-- LOG_HEAD (R456). -/
def LOG_HEAD : Nat := 0x1000e01c
/-- LOG_WRITTEN (R456). -/
def LOG_WRITTEN : Nat := 0x1000e020
/-- LOG_WINSTAT (R456). -/
def LOG_WINSTAT : Nat := 0x1000e024
/-- LOG_WINw (R456). -/
def LOG_WIN (i : Nat) : Nat := 0x1000e040 + 0x4 * i
/-- LOG_EPITAPHk (R456). -/
def LOG_EPITAPH (i : Nat) : Nat := 0x1000e090 + 0x4 * i
/-- LOG_MISSEDc (R456). -/
def LOG_MISSED (i : Nat) : Nat := 0x1000e060 + 0x4 * i
/-- LOG_KEY (R456). -/
def LOG_KEY : Nat := 0x1000e080
/-- LOG_CLEAR (R456). -/
def LOG_CLEAR : Nat := 0x1000e084
/-- LOG_ECC (R456). -/
def LOG_ECC : Nat := 0x1000e088
/-- LOG_EPICNT (R456). -/
def LOG_EPICNT : Nat := 0x1000e0a0
/-- LOG_FWCODE (R456). -/
def LOG_FWCODE : Nat := 0x1000e0b0
/-- LOG_FWDATAi (R456). -/
def LOG_FWDATA (i : Nat) : Nat := 0x1000e0b4 + 0x4 * i
/-- LOG_BADIDX (R456). -/
def LOG_BADIDX : Nat := 0x1000e0c0
/-- LOG_BADMAP (R456). -/
def LOG_BADMAP : Nat := 0x1000e0c4
/-- PCT_CTRL (R457). -/
def PCT_CTRL : Nat := 0x1000f000
/-- PCT_CYCLO (R457). -/
def PCT_CYCLO : Nat := 0x1000f008
/-- PCT_CYCHI (R457). -/
def PCT_CYCHI : Nat := 0x1000f00c
/-- PCT_OVF (R457). -/
def PCT_OVF : Nat := 0x1000f010
/-- PCT_UEN (R457). -/
def PCT_UEN : Nat := 0x1000f014
/-- PCT_SELn (R457). -/
def PCT_SEL (i : Nat) : Nat := 0x1000f020 + 0x4 * i
/-- PCT_CNTn (R457). -/
def PCT_CNT (i : Nat) : Nat := 0x1000f040 + 0x4 * i
/-- PCT_SNAPn (R457). -/
def PCT_SNAP (i : Nat) : Nat := 0x1000f060 + 0x4 * i
/-- PCT_SAMPPCn (R457). -/
def PCT_SAMPPC (i : Nat) : Nat := 0x1000f080 + 0x4 * i
/-- FRZ_CTRL (R458). -/
def FRZ_CTRL : Nat := 0x10010000
/-- FRZ_KEY (R458). -/
def FRZ_KEY : Nat := 0x10010004
/-- FRZ_STAT (R458). -/
def FRZ_STAT : Nat := 0x10010008

end R

namespace F

/-- ENG_Cn.MODE.HOLD. -/
def ENG_C_MODE_HOLD (i : Nat) : Fld := ⟨R.ENG_C_MODE i, 0, 1⟩
/-- ENG_Cn.START.ADDR. -/
def ENG_C_START_ADDR (i : Nat) : Fld := ⟨R.ENG_C_START i, 0, 13⟩
/-- ENG_Cn.STAT.ENDCYC. -/
def ENG_C_STAT_ENDCYC (i : Nat) : Fld := ⟨R.ENG_C_STAT i, 0, 15⟩
/-- ENG_Cn.STAT.SEQERR. -/
def ENG_C_STAT_SEQERR (i : Nat) : Fld := ⟨R.ENG_C_STAT i, 16, 1⟩
/-- ENG_Cn.STAT.BUSERR. -/
def ENG_C_STAT_BUSERR (i : Nat) : Fld := ⟨R.ENG_C_STAT i, 17, 1⟩
/-- ENG_Cn.STAT.AOV. -/
def ENG_C_STAT_AOV (i : Nat) : Fld := ⟨R.ENG_C_STAT i, 18, 1⟩
/-- ENG_Cn.STAT.QSAT. -/
def ENG_C_STAT_QSAT (i : Nat) : Fld := ⟨R.ENG_C_STAT i, 19, 1⟩
/-- ENG_Cn.STAT.STALLDEV. -/
def ENG_C_STAT_STALLDEV (i : Nat) : Fld := ⟨R.ENG_C_STAT i, 20, 1⟩
/-- ENG_Cn.OVR.CONSEC. -/
def ENG_C_OVR_CONSEC (i : Nat) : Fld := ⟨R.ENG_C_OVR i, 0, 3⟩
/-- ENG_Cn.OVR.ZEROED. -/
def ENG_C_OVR_ZEROED (i : Nat) : Fld := ⟨R.ENG_C_OVR i, 3, 1⟩
/-- ENG_Cn.OVR.TOTAL. -/
def ENG_C_OVR_TOTAL (i : Nat) : Fld := ⟨R.ENG_C_OVR i, 16, 16⟩
/-- ENG_Cn.STALL.LAST. -/
def ENG_C_STALL_LAST (i : Nat) : Fld := ⟨R.ENG_C_STALL i, 0, 16⟩
/-- ENG_Cn.STALL.PLAN. -/
def ENG_C_STALL_PLAN (i : Nat) : Fld := ⟨R.ENG_C_STALL i, 16, 16⟩
/-- ENG_Cn.BELL.DONE. -/
def ENG_C_BELL_DONE (i : Nat) : Fld := ⟨R.ENG_C_BELL i, 2, 1⟩
/-- ENG_Cn.WEAR.MARGIN. -/
def ENG_C_WEAR_MARGIN (i : Nat) : Fld := ⟨R.ENG_C_WEAR i, 0, 12⟩
/-- ENG_Cn.WEAR.BASE. -/
def ENG_C_WEAR_BASE (i : Nat) : Fld := ⟨R.ENG_C_WEAR i, 16, 12⟩
/-- ENG_Cn.WEAR.VALID. -/
def ENG_C_WEAR_VALID (i : Nat) : Fld := ⟨R.ENG_C_WEAR i, 31, 1⟩
/-- ENG_RATE.RATE. -/
def ENG_RATE_RATE : Fld := ⟨R.ENG_RATE, 0, 2⟩
/-- ENG_RATE.FAM. -/
def ENG_RATE_FAM : Fld := ⟨R.ENG_RATE, 2, 1⟩
/-- ENG_RATE.NCYC. -/
def ENG_RATE_NCYC : Fld := ⟨R.ENG_RATE, 16, 15⟩
/-- ENG_WCTL.WALL_EN. -/
def ENG_WCTL_WALL_EN : Fld := ⟨R.ENG_WCTL, 0, 4⟩
/-- ENG_WCTL.WALL_STATE. -/
def ENG_WCTL_WALL_STATE : Fld := ⟨R.ENG_WCTL, 4, 8⟩
/-- ENG_WCTL.RET. -/
def ENG_WCTL_RET : Fld := ⟨R.ENG_WCTL, 16, 4⟩
/-- ENG_MIGw.SRC. -/
def ENG_MIG_SRC (i : Nat) : Fld := ⟨R.ENG_MIG i, 0, 3⟩
/-- ENG_MIGw.PHASE. -/
def ENG_MIG_PHASE (i : Nat) : Fld := ⟨R.ENG_MIG i, 4, 3⟩
/-- ENG_MIGw.LATE. -/
def ENG_MIG_LATE (i : Nat) : Fld := ⟨R.ENG_MIG i, 11, 1⟩
/-- ENG_MIGw.NOVERIFY. -/
def ENG_MIG_NOVERIFY (i : Nat) : Fld := ⟨R.ENG_MIG i, 12, 1⟩
/-- ENG_MIGw.MATCH. -/
def ENG_MIG_MATCH (i : Nat) : Fld := ⟨R.ENG_MIG i, 16, 8⟩
/-- ENG_MIGw.ARMED. -/
def ENG_MIG_ARMED (i : Nat) : Fld := ⟨R.ENG_MIG i, 24, 1⟩
/-- ENG_OVRIRQ.COURSE. -/
def ENG_OVRIRQ_COURSE : Fld := ⟨R.ENG_OVRIRQ, 0, 28⟩
/-- ENG_BELLIRQ.COURSE. -/
def ENG_BELLIRQ_COURSE : Fld := ⟨R.ENG_BELLIRQ, 0, 28⟩
/-- ENG_MAPIDX.IDX. -/
def ENG_MAPIDX_IDX : Fld := ⟨R.ENG_MAPIDX, 0, 12⟩
/-- ENG_MAPIDX.MAP. -/
def ENG_MAPIDX_MAP : Fld := ⟨R.ENG_MAPIDX, 15, 1⟩
/-- ENG_MAPERR.DUP. -/
def ENG_MAPERR_DUP : Fld := ⟨R.ENG_MAPERR, 0, 1⟩
/-- YRD_IRQ.DBE. -/
def YRD_IRQ_DBE : Fld := ⟨R.YRD_IRQ, 0, 1⟩
/-- YRD_IRQ.COLL. -/
def YRD_IRQ_COLL : Fld := ⟨R.YRD_IRQ, 1, 1⟩
/-- YRD_IRQ.HODERR. -/
def YRD_IRQ_HODERR : Fld := ⟨R.YRD_IRQ, 2, 1⟩
/-- YRD_IRQ.TESTFAIL. -/
def YRD_IRQ_TESTFAIL : Fld := ⟨R.YRD_IRQ, 3, 1⟩
/-- YRD_IRQ.REMAP. -/
def YRD_IRQ_REMAP : Fld := ⟨R.YRD_IRQ, 4, 1⟩
/-- YRD_IRQ.RINGERR. -/
def YRD_IRQ_RINGERR : Fld := ⟨R.YRD_IRQ, 5, 1⟩
/-- YRD_HODSTAT.COLL. -/
def YRD_HODSTAT_COLL : Fld := ⟨R.YRD_HODSTAT, 0, 1⟩
/-- YRD_HODSTAT.HOD. -/
def YRD_HODSTAT_HOD : Fld := ⟨R.YRD_HODSTAT, 1, 4⟩
/-- YRD_SBEb.COUNT. -/
def YRD_SBE_COUNT (i : Nat) : Fld := ⟨R.YRD_SBE i, 0, 32⟩
/-- YRD_DBEb.COUNT. -/
def YRD_DBE_COUNT (i : Nat) : Fld := ⟨R.YRD_DBE i, 0, 32⟩
/-- YRD_CTSEL.COURSE. -/
def YRD_CTSEL_COURSE : Fld := ⟨R.YRD_CTSEL, 0, 5⟩
/-- YRD_REMAPb.SRC. -/
def YRD_REMAP_SRC (i : Nat) : Fld := ⟨R.YRD_REMAP i, 0, 8⟩
/-- YRD_REMAPb.PHASE. -/
def YRD_REMAP_PHASE (i : Nat) : Fld := ⟨R.YRD_REMAP i, 9, 2⟩
/-- YRD_REMAPb.SPARES. -/
def YRD_REMAP_SPARES (i : Nat) : Fld := ⟨R.YRD_REMAP i, 12, 4⟩
/-- YRD_REMAPb.LOST. -/
def YRD_REMAP_LOST (i : Nat) : Fld := ⟨R.YRD_REMAP i, 16, 8⟩
/-- YRD_REMAPb.NOSPARE. -/
def YRD_REMAP_NOSPARE (i : Nat) : Fld := ⟨R.YRD_REMAP i, 24, 1⟩
/-- YRD_TMAPIDX.TILE. -/
def YRD_TMAPIDX_TILE : Fld := ⟨R.YRD_TMAPIDX, 0, 8⟩
/-- YRD_TMAPIDX.BANK. -/
def YRD_TMAPIDX_BANK : Fld := ⟨R.YRD_TMAPIDX, 8, 2⟩
/-- YRD_TESTCTL.EN. -/
def YRD_TESTCTL_EN : Fld := ⟨R.YRD_TESTCTL, 0, 4⟩
/-- YRD_TESTCTL.PACE. -/
def YRD_TESTCTL_PACE : Fld := ⟨R.YRD_TESTCTL, 8, 8⟩
/-- YRD_TESTSTAT.HELD. -/
def YRD_TESTSTAT_HELD : Fld := ⟨R.YRD_TESTSTAT, 0, 4⟩
/-- YRD_TESTSTAT.ACTIVE. -/
def YRD_TESTSTAT_ACTIVE : Fld := ⟨R.YRD_TESTSTAT, 4, 4⟩
/-- YRD_TESTSTAT.LAPS. -/
def YRD_TESTSTAT_LAPS : Fld := ⟨R.YRD_TESTSTAT, 8, 24⟩
/-- YRD_TESTABN.COUNT. -/
def YRD_TESTABN_COUNT : Fld := ⟨R.YRD_TESTABN, 0, 32⟩
/-- YRD_TESTHOLDb.VALID. -/
def YRD_TESTHOLD_VALID (i : Nat) : Fld := ⟨R.YRD_TESTHOLD i, 31, 1⟩
/-- YRD_RIDX.IDX. -/
def YRD_RIDX_IDX : Fld := ⟨R.YRD_RIDX, 0, 10⟩
/-- YRD_HODn_STAT.LEVEL. -/
def YRD_HOD_STAT_LEVEL (i : Nat) : Fld := ⟨R.YRD_HOD_STAT i, 0, 4⟩
/-- YRD_HODn_STAT.BUSY. -/
def YRD_HOD_STAT_BUSY (i : Nat) : Fld := ⟨R.YRD_HOD_STAT i, 4, 1⟩
/-- YRD_HODn_STAT.ERR. -/
def YRD_HOD_STAT_ERR (i : Nat) : Fld := ⟨R.YRD_HOD_STAT i, 5, 1⟩
/-- YRD_HODn_STAT.DROP. -/
def YRD_HOD_STAT_DROP (i : Nat) : Fld := ⟨R.YRD_HOD_STAT i, 6, 1⟩
/-- YRD_HODn_STAT.DONE. -/
def YRD_HOD_STAT_DONE (i : Nat) : Fld := ⟨R.YRD_HOD_STAT i, 16, 16⟩
/-- YRD_HODIRQ.HOD. -/
def YRD_HODIRQ_HOD : Fld := ⟨R.YRD_HODIRQ, 0, 16⟩
/-- MOR_CTRL.MIRROR. -/
def MOR_CTRL_MIRROR : Fld := ⟨R.MOR_CTRL, 0, 1⟩
/-- MOR_STAT.PWOFF. -/
def MOR_STAT_PWOFF : Fld := ⟨R.MOR_STAT, 0, 1⟩
/-- MOR_STAT.MIRBUSY. -/
def MOR_STAT_MIRBUSY : Fld := ⟨R.MOR_STAT, 1, 1⟩
/-- MOR_IRQ.FADEDONE. -/
def MOR_IRQ_FADEDONE : Fld := ⟨R.MOR_IRQ, 0, 1⟩
/-- MOR_IRQ.SAT. -/
def MOR_IRQ_SAT : Fld := ⟨R.MOR_IRQ, 1, 1⟩
/-- MOR_IRQ.BADSRC. -/
def MOR_IRQ_BADSRC : Fld := ⟨R.MOR_IRQ, 2, 1⟩
/-- MOR_IRQ.BRLOCK. -/
def MOR_IRQ_BRLOCK : Fld := ⟨R.MOR_IRQ, 3, 1⟩
/-- MOR_IRQ.PWMISS. -/
def MOR_IRQ_PWMISS : Fld := ⟨R.MOR_IRQ, 4, 1⟩
/-- MOR_IEN.SAT. -/
def MOR_IEN_SAT : Fld := ⟨R.MOR_IEN, 1, 1⟩
/-- MOR_SATCNT.COUNT. -/
def MOR_SATCNT_COUNT : Fld := ⟨R.MOR_SATCNT, 0, 32⟩
/-- MOR_PWMISS.COUNT. -/
def MOR_PWMISS_COUNT : Fld := ⟨R.MOR_PWMISS, 0, 32⟩
/-- MOR_FRIDX.SINK. -/
def MOR_FRIDX_SINK : Fld := ⟨R.MOR_FRIDX, 0, 15⟩
/-- MOR_BRCTL.M2S_EN. -/
def MOR_BRCTL_M2S_EN : Fld := ⟨R.MOR_BRCTL, 0, 1⟩
/-- MOR_BRCTL.S2M_EN. -/
def MOR_BRCTL_S2M_EN : Fld := ⟨R.MOR_BRCTL, 1, 1⟩
/-- MOR_BRCTL.M2S_STATE. -/
def MOR_BRCTL_M2S_STATE : Fld := ⟨R.MOR_BRCTL, 2, 2⟩
/-- MOR_BRCTL.S2M_STATE. -/
def MOR_BRCTL_S2M_STATE : Fld := ⟨R.MOR_BRCTL, 4, 2⟩
/-- MOR_BRCTL.LOCK. -/
def MOR_BRCTL_LOCK : Fld := ⟨R.MOR_BRCTL, 6, 1⟩
/-- MOR_BRPHM2S.PHI. -/
def MOR_BRPHM2S_PHI : Fld := ⟨R.MOR_BRPHM2S, 0, 24⟩
/-- MOR_BRPHS2M.PHI. -/
def MOR_BRPHS2M_PHI : Fld := ⟨R.MOR_BRPHS2M, 0, 24⟩
/-- MOR_BRSAT.COUNT. -/
def MOR_BRSAT_COUNT : Fld := ⟨R.MOR_BRSAT, 0, 32⟩
/-- MOR_BRIDX.CH. -/
def MOR_BRIDX_CH : Fld := ⟨R.MOR_BRIDX, 0, 8⟩
/-- MOR_BRIDX.DIR. -/
def MOR_BRIDX_DIR : Fld := ⟨R.MOR_BRIDX, 8, 1⟩
/-- ENG_SWAPn_CTL.ARMED. -/
def ENG_SWAP_CTL_ARMED (i : Nat) : Fld := ⟨R.ENG_SWAP_CTL i, 2, 1⟩
/-- ENG_SWAPn_CTL.LEADARMED. -/
def ENG_SWAP_CTL_LEADARMED (i : Nat) : Fld := ⟨R.ENG_SWAP_CTL i, 3, 1⟩
/-- ENG_SWAPCTL.ZMIRROR. -/
def ENG_SWAPCTL_ZMIRROR : Fld := ⟨R.ENG_SWAPCTL, 0, 1⟩
/-- ENG_SWAPIRQ.DONE. -/
def ENG_SWAPIRQ_DONE : Fld := ⟨R.ENG_SWAPIRQ, 0, 4⟩
/-- ENG_SWAPIRQ.LATE. -/
def ENG_SWAPIRQ_LATE : Fld := ⟨R.ENG_SWAPIRQ, 4, 4⟩
/-- ENG_SWAPIRQ.DISLATE. -/
def ENG_SWAPIRQ_DISLATE : Fld := ⟨R.ENG_SWAPIRQ, 8, 4⟩
/-- ENG_SWAPIRQ.PAIRMIS. -/
def ENG_SWAPIRQ_PAIRMIS : Fld := ⟨R.ENG_SWAPIRQ, 12, 1⟩
/-- ENG_SWAPIRQ.SKIP. -/
def ENG_SWAPIRQ_SKIP : Fld := ⟨R.ENG_SWAPIRQ, 13, 1⟩
/-- ENG_SWAPSKIP.SEAT. -/
def ENG_SWAPSKIP_SEAT : Fld := ⟨R.ENG_SWAPSKIP, 0, 24⟩
/-- VOX_CTRL.EN. -/
def VOX_CTRL_EN : Fld := ⟨R.VOX_CTRL, 0, 1⟩
/-- VOX_CTRL.STATE. -/
def VOX_CTRL_STATE : Fld := ⟨R.VOX_CTRL, 1, 2⟩
/-- VOX_IRQ.QFULL. -/
def VOX_IRQ_QFULL : Fld := ⟨R.VOX_IRQ, 0, 1⟩
/-- VOX_IRQ.LATE. -/
def VOX_IRQ_LATE : Fld := ⟨R.VOX_IRQ, 1, 1⟩
/-- VOX_IRQ.NOTEDROP. -/
def VOX_IRQ_NOTEDROP : Fld := ⟨R.VOX_IRQ, 2, 1⟩
/-- VOX_IRQ.CFGERR. -/
def VOX_IRQ_CFGERR : Fld := ⟨R.VOX_IRQ, 3, 1⟩
/-- VOX_IRQ.CMDCOLL. -/
def VOX_IRQ_CMDCOLL : Fld := ⟨R.VOX_IRQ, 4, 1⟩
/-- VOX_IRQ.MSENSE. -/
def VOX_IRQ_MSENSE : Fld := ⟨R.VOX_IRQ, 5, 1⟩
/-- VOX_IEN.FWMIDI. -/
def VOX_IEN_FWMIDI : Fld := ⟨R.VOX_IEN, 6, 1⟩
/-- VOX_QDROP.COUNT. -/
def VOX_QDROP_COUNT : Fld := ⟨R.VOX_QDROP, 0, 32⟩
/-- VOX_LATECNT.COUNT. -/
def VOX_LATECNT_COUNT : Fld := ⟨R.VOX_LATECNT, 0, 32⟩
/-- VOX_PAIROWN.COUNT. -/
def VOX_PAIROWN_COUNT : Fld := ⟨R.VOX_PAIROWN, 0, 32⟩
/-- VOX_CHLISTEN.LAYERS. -/
def VOX_CHLISTEN_LAYERS : Fld := ⟨R.VOX_CHLISTEN, 0, 16⟩
/-- VOX_CFGVIEW.FRONT. -/
def VOX_CFGVIEW_FRONT : Fld := ⟨R.VOX_CFGVIEW, 0, 1⟩
/-- VOX_MCFG.ASEN. -/
def VOX_MCFG_ASEN : Fld := ⟨R.VOX_MCFG, 0, 2⟩
/-- VOX_MCFG.CCA. -/
def VOX_MCFG_CCA : Fld := ⟨R.VOX_MCFG, 2, 7⟩
/-- VOX_MCFG.CCB. -/
def VOX_MCFG_CCB : Fld := ⟨R.VOX_MCFG, 9, 7⟩
/-- VOX_MCFG.CCC. -/
def VOX_MCFG_CCC : Fld := ⟨R.VOX_MCFG, 16, 7⟩
/-- VOX_MERR.M0. -/
def VOX_MERR_M0 : Fld := ⟨R.VOX_MERR, 0, 16⟩
/-- VOX_MERR.M1. -/
def VOX_MERR_M1 : Fld := ⟨R.VOX_MERR, 16, 16⟩
/-- VOX_AREA.CMDROW. -/
def VOX_AREA_CMDROW : Fld := ⟨R.VOX_AREA, 0, 9⟩
/-- VOX_AREA.LVLROW. -/
def VOX_AREA_LVLROW : Fld := ⟨R.VOX_AREA, 16, 9⟩
/-- VOX_GDROPg.COUNT. -/
def VOX_GDROP_COUNT (i : Nat) : Fld := ⟨R.VOX_GDROP i, 0, 16⟩
/-- VOX_VIDX.VOICE. -/
def VOX_VIDX_VOICE : Fld := ⟨R.VOX_VIDX, 0, 10⟩
/-- CHN_x_CTRL.EN. -/
def CHNX_CTRL_EN (i : Nat) : Fld := ⟨R.CHNX_CTRL i, 0, 1⟩
/-- CHN_x_CTRL.STATE. -/
def CHNX_CTRL_STATE (i : Nat) : Fld := ⟨R.CHNX_CTRL i, 1, 2⟩
/-- CHN_x_CTRL.GEN1. -/
def CHNX_CTRL_GEN1 (i : Nat) : Fld := ⟨R.CHNX_CTRL i, 3, 1⟩
/-- CHN_x_CTRL.NOWRAP. -/
def CHNX_CTRL_NOWRAP (i : Nat) : Fld := ⟨R.CHNX_CTRL i, 4, 1⟩
/-- CHN_x_STAT.LOCK. -/
def CHNX_STAT_LOCK (i : Nat) : Fld := ⟨R.CHNX_STAT i, 0, 1⟩
/-- CHN_x_STAT.HIBER. -/
def CHNX_STAT_HIBER (i : Nat) : Fld := ⟨R.CHNX_STAT i, 1, 1⟩
/-- CHN_x_STAT.LOS. -/
def CHNX_STAT_LOS (i : Nat) : Fld := ⟨R.CHNX_STAT i, 2, 1⟩
/-- CHN_x_STAT.MODABS. -/
def CHNX_STAT_MODABS (i : Nat) : Fld := ⟨R.CHNX_STAT i, 3, 1⟩
/-- CHN_x_STAT.TXFLT. -/
def CHNX_STAT_TXFLT (i : Nat) : Fld := ⟨R.CHNX_STAT i, 4, 1⟩
/-- CHN_x_STAT.LOST. -/
def CHNX_STAT_LOST (i : Nat) : Fld := ⟨R.CHNX_STAT i, 5, 1⟩
/-- CHN_x_STAT.TAKEN. -/
def CHNX_STAT_TAKEN (i : Nat) : Fld := ⟨R.CHNX_STAT i, 10, 1⟩
/-- CHN_x_STAT.FILLLOW. -/
def CHNX_STAT_FILLLOW (i : Nat) : Fld := ⟨R.CHNX_STAT i, 11, 1⟩
/-- CHN_x_IRQ.LOCKCHG. -/
def CHNX_IRQ_LOCKCHG (i : Nat) : Fld := ⟨R.CHNX_IRQ i, 0, 1⟩
/-- CHN_x_IRQ.LOST. -/
def CHNX_IRQ_LOST (i : Nat) : Fld := ⟨R.CHNX_IRQ i, 1, 1⟩
/-- CHN_x_IRQ.WRAPCHG. -/
def CHNX_IRQ_WRAPCHG (i : Nat) : Fld := ⟨R.CHNX_IRQ i, 2, 1⟩
/-- CHN_x_IRQ.FILLLOW. -/
def CHNX_IRQ_FILLLOW (i : Nat) : Fld := ⟨R.CHNX_IRQ i, 3, 1⟩
/-- CHN_x_IRQ.TRUNC. -/
def CHNX_IRQ_TRUNC (i : Nat) : Fld := ⟨R.CHNX_IRQ i, 4, 1⟩
/-- CHN_x_IRQ.ESLIP. -/
def CHNX_IRQ_ESLIP (i : Nat) : Fld := ⟨R.CHNX_IRQ i, 5, 1⟩
/-- CHN_x_IRQ.MASTERCHG. -/
def CHNX_IRQ_MASTERCHG (i : Nat) : Fld := ⟨R.CHNX_IRQ i, 6, 1⟩
/-- CHN_x_IRQ.DUPPOS. -/
def CHNX_IRQ_DUPPOS (i : Nat) : Fld := ⟨R.CHNX_IRQ i, 7, 1⟩
/-- CHN_x_IRQ.RATEMIS. -/
def CHNX_IRQ_RATEMIS (i : Nat) : Fld := ⟨R.CHNX_IRQ i, 8, 1⟩
/-- CHN_x_IRQ.SEQMIS. -/
def CHNX_IRQ_SEQMIS (i : Nat) : Fld := ⟨R.CHNX_IRQ i, 9, 1⟩
/-- CHN_x_FILL.LAST. -/
def CHNX_FILL_LAST (i : Nat) : Fld := ⟨R.CHNX_FILL i, 0, 16⟩
/-- CHN_x_FILL.MIN. -/
def CHNX_FILL_MIN (i : Nat) : Fld := ⟨R.CHNX_FILL i, 16, 16⟩
/-- CHN_x_RTT.RTT. -/
def CHNX_RTT_RTT (i : Nat) : Fld := ⟨R.CHNX_RTT i, 0, 24⟩
/-- CHN_x_RTT.VALID. -/
def CHNX_RTT_VALID (i : Nat) : Fld := ⟨R.CHNX_RTT i, 31, 1⟩
/-- CHN_x_CABLE.DELAY. -/
def CHNX_CABLE_DELAY (i : Nat) : Fld := ⟨R.CHNX_CABLE i, 0, 24⟩
/-- CHN_x_ERR.HCRC. -/
def CHNX_ERR_HCRC (i : Nat) : Fld := ⟨R.CHNX_ERR i, 0, 8⟩
/-- CHN_x_ERR.PCRC. -/
def CHNX_ERR_PCRC (i : Nat) : Fld := ⟨R.CHNX_ERR i, 8, 8⟩
/-- CHN_x_ERR.LCRC. -/
def CHNX_ERR_LCRC (i : Nat) : Fld := ⟨R.CHNX_ERR i, 16, 8⟩
/-- CHN_x_ERR.BADBLK. -/
def CHNX_ERR_BADBLK (i : Nat) : Fld := ⟨R.CHNX_ERR i, 24, 8⟩
/-- CHN_x_SLIP.ESLIP. -/
def CHNX_SLIP_ESLIP (i : Nat) : Fld := ⟨R.CHNX_SLIP i, 0, 8⟩
/-- CHN_x_SLIP.TRUNC. -/
def CHNX_SLIP_TRUNC (i : Nat) : Fld := ⟨R.CHNX_SLIP i, 8, 8⟩
/-- CHN_x_SLIP.GSAT. -/
def CHNX_SLIP_GSAT (i : Nat) : Fld := ⟨R.CHNX_SLIP i, 16, 16⟩
/-- CHN_x_WDROP.COUNT. -/
def CHNX_WDROP_COUNT (i : Nat) : Fld := ⟨R.CHNX_WDROP i, 0, 16⟩
/-- CHN_x_MAPIDX.SLOT. -/
def CHNX_MAPIDX_SLOT (i : Nat) : Fld := ⟨R.CHNX_MAPIDX i, 0, 14⟩
/-- CHN_x_LANEl.SENT. -/
def CHNX_LANE_SENT (i : Nat) (j : Nat) : Fld := ⟨R.CHNX_LANE i j, 0, 16⟩
/-- CHN_x_LANEl.FREED. -/
def CHNX_LANE_FREED (i : Nat) (j : Nat) : Fld := ⟨R.CHNX_LANE i j, 16, 16⟩
/-- CHN_CTRL.POSID. -/
def CHN_CTRL_POSID : Fld := ⟨R.CHN_CTRL, 0, 9⟩
/-- CHN_CTRL.MCAP. -/
def CHN_CTRL_MCAP : Fld := ⟨R.CHN_CTRL, 9, 1⟩
/-- CHN_CTRL.MRANK. -/
def CHN_CTRL_MRANK : Fld := ⟨R.CHN_CTRL, 10, 8⟩
/-- CHN_CTRL.INS_EN. -/
def CHN_CTRL_INS_EN : Fld := ⟨R.CHN_CTRL, 18, 1⟩
/-- CHN_CTRL.MFORCE. -/
def CHN_CTRL_MFORCE : Fld := ⟨R.CHN_CTRL, 20, 1⟩
/-- CHN_STAT.JOIN. -/
def CHN_STAT_JOIN : Fld := ⟨R.CHN_STAT, 0, 2⟩
/-- CHN_STAT.ELECT. -/
def CHN_STAT_ELECT : Fld := ⟨R.CHN_STAT, 2, 2⟩
/-- CHN_STAT.WRAPNEAR. -/
def CHN_STAT_WRAPNEAR : Fld := ⟨R.CHN_STAT, 4, 1⟩
/-- CHN_STAT.WRAPFAR. -/
def CHN_STAT_WRAPFAR : Fld := ⟨R.CHN_STAT, 5, 1⟩
/-- CHN_STAT.MPOS. -/
def CHN_STAT_MPOS : Fld := ⟨R.CHN_STAT, 6, 9⟩
/-- CHN_STAT.MRANK. -/
def CHN_STAT_MRANK : Fld := ⟨R.CHN_STAT, 15, 8⟩
/-- CHN_ALARM.RING. -/
def CHN_ALARM_RING : Fld := ⟨R.CHN_ALARM, 0, 16⟩
/-- CHN_IRQ.RXLOAD. -/
def CHN_IRQ_RXLOAD : Fld := ⟨R.CHN_IRQ, 0, 1⟩
/-- CHN_IRQ.RXOVF. -/
def CHN_IRQ_RXOVF : Fld := ⟨R.CHN_IRQ, 1, 1⟩
/-- CHN_IRQ.LATE. -/
def CHN_IRQ_LATE : Fld := ⟨R.CHN_IRQ, 2, 1⟩
/-- CHN_IRQ.MISS. -/
def CHN_IRQ_MISS : Fld := ⟨R.CHN_IRQ, 3, 1⟩
/-- CHN_IRQ.STALE. -/
def CHN_IRQ_STALE : Fld := ⟨R.CHN_IRQ, 4, 1⟩
/-- CHN_IRQ.ORIGCONF. -/
def CHN_IRQ_ORIGCONF : Fld := ⟨R.CHN_IRQ, 5, 1⟩
/-- CHN_IRQ.CAP. -/
def CHN_IRQ_CAP : Fld := ⟨R.CHN_IRQ, 6, 1⟩
/-- CHN_IRQ.PERR. -/
def CHN_IRQ_PERR : Fld := ⟨R.CHN_IRQ, 7, 1⟩
/-- CHN_PCTL.P. -/
def CHN_PCTL_P : Fld := ⟨R.CHN_PCTL, 0, 10⟩
/-- CHN_PCTL.PNEW. -/
def CHN_PCTL_PNEW : Fld := ⟨R.CHN_PCTL, 16, 10⟩
/-- CHN_PCTL.ARMED. -/
def CHN_PCTL_ARMED : Fld := ⟨R.CHN_PCTL, 27, 1⟩
/-- CHN_LATE.COUNT. -/
def CHN_LATE_COUNT : Fld := ⟨R.CHN_LATE, 0, 32⟩
/-- CHN_MISS.COUNT. -/
def CHN_MISS_COUNT : Fld := ⟨R.CHN_MISS, 0, 32⟩
/-- CHN_DUP.COUNT. -/
def CHN_DUP_COUNT : Fld := ⟨R.CHN_DUP, 0, 32⟩
/-- CHN_STALE.COUNT. -/
def CHN_STALE_COUNT : Fld := ⟨R.CHN_STALE, 0, 32⟩
/-- CHN_RXCNT.COUNT. -/
def CHN_RXCNT_COUNT : Fld := ⟨R.CHN_RXCNT, 0, 12⟩
/-- CHN_TXCNTl.COUNT. -/
def CHN_TXCNT_COUNT (i : Nat) : Fld := ⟨R.CHN_TXCNT i, 0, 12⟩
/-- CHN_RXHEAD.INDEX. -/
def CHN_RXHEAD_INDEX : Fld := ⟨R.CHN_RXHEAD, 0, 12⟩
/-- CHN_TXTAILl.INDEX. -/
def CHN_TXTAIL_INDEX (i : Nat) : Fld := ⟨R.CHN_TXTAIL i, 0, 12⟩
/-- CHN_RXTAIL.INDEX. -/
def CHN_RXTAIL_INDEX : Fld := ⟨R.CHN_RXTAIL, 0, 12⟩
/-- CHN_TXHEADl.INDEX. -/
def CHN_TXHEAD_INDEX (i : Nat) : Fld := ⟨R.CHN_TXHEAD i, 0, 12⟩
/-- CHN_TXSEQl.SEQ. -/
def CHN_TXSEQ_SEQ (i : Nat) : Fld := ⟨R.CHN_TXSEQ i, 0, 16⟩
/-- PAIR_STAT.ROLE. -/
def PAIR_STAT_ROLE : Fld := ⟨R.PAIR_STAT, 0, 3⟩
/-- PAIR_STAT.MODE. -/
def PAIR_STAT_MODE : Fld := ⟨R.PAIR_STAT, 3, 1⟩
/-- PAIR_STAT.LINK. -/
def PAIR_STAT_LINK : Fld := ⟨R.PAIR_STAT, 4, 2⟩
/-- PAIR_STAT.BRIDGE. -/
def PAIR_STAT_BRIDGE : Fld := ⟨R.PAIR_STAT, 6, 1⟩
/-- PAIR_STAT.PARTNER. -/
def PAIR_STAT_PARTNER : Fld := ⟨R.PAIR_STAT, 7, 3⟩
/-- PAIR_STAT.HOARMED. -/
def PAIR_STAT_HOARMED : Fld := ⟨R.PAIR_STAT, 10, 1⟩
/-- PAIR_STAT.MISS. -/
def PAIR_STAT_MISS : Fld := ⟨R.PAIR_STAT, 16, 6⟩
/-- PAIR_IRQ.MISS. -/
def PAIR_IRQ_MISS : Fld := ⟨R.PAIR_IRQ, 0, 1⟩
/-- PAIR_IRQ.TAKEOVER. -/
def PAIR_IRQ_TAKEOVER : Fld := ⟨R.PAIR_IRQ, 1, 1⟩
/-- PAIR_IRQ.DIVERGE. -/
def PAIR_IRQ_DIVERGE : Fld := ⟨R.PAIR_IRQ, 2, 1⟩
/-- PAIR_IRQ.STOOD. -/
def PAIR_IRQ_STOOD : Fld := ⟨R.PAIR_IRQ, 3, 1⟩
/-- PAIR_IRQ.COPYDONE. -/
def PAIR_IRQ_COPYDONE : Fld := ⟨R.PAIR_IRQ, 4, 1⟩
/-- PAIR_IRQ.COPYFAIL. -/
def PAIR_IRQ_COPYFAIL : Fld := ⟨R.PAIR_IRQ, 5, 1⟩
/-- PAIR_IRQ.SVCLOST. -/
def PAIR_IRQ_SVCLOST : Fld := ⟨R.PAIR_IRQ, 6, 1⟩
/-- PAIR_IRQ.SKEW. -/
def PAIR_IRQ_SKEW : Fld := ⟨R.PAIR_IRQ, 7, 1⟩
/-- PAIR_IRQ.LINK. -/
def PAIR_IRQ_LINK : Fld := ⟨R.PAIR_IRQ, 8, 1⟩
/-- PAIR_IRQ.HEALTH. -/
def PAIR_IRQ_HEALTH : Fld := ⟨R.PAIR_IRQ, 9, 1⟩
/-- PAIR_IRQ.RINGINC. -/
def PAIR_IRQ_RINGINC : Fld := ⟨R.PAIR_IRQ, 10, 1⟩
/-- PAIR_IRQ.BOTHLEAD. -/
def PAIR_IRQ_BOTHLEAD : Fld := ⟨R.PAIR_IRQ, 11, 1⟩
/-- PAIR_IRQ.HOLATE. -/
def PAIR_IRQ_HOLATE : Fld := ⟨R.PAIR_IRQ, 12, 1⟩
/-- PAIR_FENCE.FOUT. -/
def PAIR_FENCE_FOUT : Fld := ⟨R.PAIR_FENCE, 0, 1⟩
/-- PAIR_FENCE.FIN. -/
def PAIR_FENCE_FIN : Fld := ⟨R.PAIR_FENCE, 1, 1⟩
/-- PAIR_FENCE.DOUT. -/
def PAIR_FENCE_DOUT : Fld := ⟨R.PAIR_FENCE, 2, 1⟩
/-- PAIR_FENCE.DIN. -/
def PAIR_FENCE_DIN : Fld := ⟨R.PAIR_FENCE, 3, 1⟩
/-- PAIR_FENCE.FIRQ. -/
def PAIR_FENCE_FIRQ : Fld := ⟨R.PAIR_FENCE, 8, 1⟩
/-- PAIR_FENCE.FIEN. -/
def PAIR_FENCE_FIEN : Fld := ⟨R.PAIR_FENCE, 9, 1⟩
/-- PAIR_DIV.CONSEC. -/
def PAIR_DIV_CONSEC : Fld := ⟨R.PAIR_DIV, 0, 2⟩
/-- PAIR_DIV.TOTAL. -/
def PAIR_DIV_TOTAL : Fld := ⟨R.PAIR_DIV, 16, 16⟩
/-- PAIR_SKEW.SKEW. -/
def PAIR_SKEW_SKEW : Fld := ⟨R.PAIR_SKEW, 0, 16⟩
/-- PAIR_COPY.PHASE. -/
def PAIR_COPY_PHASE : Fld := ⟨R.PAIR_COPY, 0, 3⟩
/-- PAIR_COPY.RESTARTS. -/
def PAIR_COPY_RESTARTS : Fld := ⟨R.PAIR_COPY, 4, 2⟩
/-- PAIR_COPY.LEFT. -/
def PAIR_COPY_LEFT : Fld := ⟨R.PAIR_COPY, 8, 24⟩
/-- PAIR_RINGIDX.GROUP. -/
def PAIR_RINGIDX_GROUP : Fld := ⟨R.PAIR_RINGIDX, 0, 5⟩
/-- PAIR_LOST.COUNT. -/
def PAIR_LOST_COUNT : Fld := ⟨R.PAIR_LOST, 0, 32⟩
/-- PAIR_MISSCNT.COUNT. -/
def PAIR_MISSCNT_COUNT : Fld := ⟨R.PAIR_MISSCNT, 0, 32⟩
/-- REF_CTRL.FASTACQ. -/
def REF_CTRL_FASTACQ : Fld := ⟨R.REF_CTRL, 0, 1⟩
/-- REF_CTRL.REVERT. -/
def REF_CTRL_REVERT : Fld := ⟨R.REF_CTRL, 1, 1⟩
/-- REF_CTRL.FORCE. -/
def REF_CTRL_FORCE : Fld := ⟨R.REF_CTRL, 2, 1⟩
/-- REF_CTRL.FSEL. -/
def REF_CTRL_FSEL : Fld := ⟨R.REF_CTRL, 3, 3⟩
/-- REF_STAT.STATE. -/
def REF_STAT_STATE : Fld := ⟨R.REF_STAT, 0, 3⟩
/-- REF_STAT.SEL. -/
def REF_STAT_SEL : Fld := ⟨R.REF_STAT, 3, 3⟩
/-- REF_STAT.SWITCHING. -/
def REF_STAT_SWITCHING : Fld := ⟨R.REF_STAT, 6, 1⟩
/-- REF_STAT.DISPUTE. -/
def REF_STAT_DISPUTE : Fld := ⟨R.REF_STAT, 7, 1⟩
/-- REF_STAT.ALIGNING. -/
def REF_STAT_ALIGNING : Fld := ⟨R.REF_STAT, 8, 1⟩
/-- REF_IRQ.STATE. -/
def REF_IRQ_STATE : Fld := ⟨R.REF_IRQ, 0, 1⟩
/-- REF_IRQ.SWITCH. -/
def REF_IRQ_SWITCH : Fld := ⟨R.REF_IRQ, 1, 1⟩
/-- REF_IRQ.QUAL. -/
def REF_IRQ_QUAL : Fld := ⟨R.REF_IRQ, 2, 1⟩
/-- REF_IRQ.DISPUTE. -/
def REF_IRQ_DISPUTE : Fld := ⟨R.REF_IRQ, 3, 1⟩
/-- REF_IRQ.ALIGN. -/
def REF_IRQ_ALIGN : Fld := ⟨R.REF_IRQ, 4, 1⟩
/-- REF_IRQ.SIDE. -/
def REF_IRQ_SIDE : Fld := ⟨R.REF_IRQ, 5, 1⟩
/-- REF_RANK.RANKi. -/
def REF_RANK_RANK : Fld := ⟨R.REF_RANK, 0, 15⟩
/-- REF_INi.OFFS. -/
def REF_IN_OFFS (i : Nat) : Fld := ⟨R.REF_IN i, 0, 16⟩
/-- REF_INi.ACT. -/
def REF_IN_ACT (i : Nat) : Fld := ⟨R.REF_IN i, 16, 1⟩
/-- REF_INi.QUAL. -/
def REF_IN_QUAL (i : Nat) : Fld := ⟨R.REF_IN i, 17, 1⟩
/-- REF_INi.CAUSE. -/
def REF_IN_CAUSE (i : Nat) : Fld := ⟨R.REF_IN i, 18, 2⟩
/-- REF_INi.RATEMIS. -/
def REF_IN_RATEMIS (i : Nat) : Fld := ⟨R.REF_IN i, 20, 1⟩
/-- REF_SIDE.SRC. -/
def REF_SIDE_SRC : Fld := ⟨R.REF_SIDE, 0, 1⟩
/-- REF_SIDE.QUAL. -/
def REF_SIDE_QUAL : Fld := ⟨R.REF_SIDE, 1, 1⟩
/-- REF_SIDE.RATE. -/
def REF_SIDE_RATE : Fld := ⟨R.REF_SIDE, 14, 18⟩
/-- TIM_CTRL.AUTO. -/
def TIM_CTRL_AUTO : Fld := ⟨R.TIM_CTRL, 0, 1⟩
/-- TIM_CTRL.SRC. -/
def TIM_CTRL_SRC : Fld := ⟨R.TIM_CTRL, 1, 2⟩
/-- TIM_CTRL.PPSOUT_EN. -/
def TIM_CTRL_PPSOUT_EN : Fld := ⟨R.TIM_CTRL, 4, 1⟩
/-- TIM_STAT.VALID. -/
def TIM_STAT_VALID : Fld := ⟨R.TIM_STAT, 0, 1⟩
/-- TIM_STAT.FAR. -/
def TIM_STAT_FAR : Fld := ⟨R.TIM_STAT, 3, 1⟩
/-- TIM_STAT.TODLOST. -/
def TIM_STAT_TODLOST : Fld := ⟨R.TIM_STAT, 4, 1⟩
/-- TIM_STAT.STEPARMED. -/
def TIM_STAT_STEPARMED : Fld := ⟨R.TIM_STAT, 5, 1⟩
/-- TIM_IRQ.OVF. -/
def TIM_IRQ_OVF : Fld := ⟨R.TIM_IRQ, 2, 1⟩
/-- TIM_IRQ.FAR. -/
def TIM_IRQ_FAR : Fld := ⟨R.TIM_IRQ, 3, 1⟩
/-- TIM_IRQ.VALID. -/
def TIM_IRQ_VALID : Fld := ⟨R.TIM_IRQ, 4, 1⟩
/-- TIM_IRQ.TODERR. -/
def TIM_IRQ_TODERR : Fld := ⟨R.TIM_IRQ, 5, 1⟩
/-- TIM_IRQ.STEPDONE. -/
def TIM_IRQ_STEPDONE : Fld := ⟨R.TIM_IRQ, 6, 1⟩
/-- TIM_UTC.UTCOFS. -/
def TIM_UTC_UTCOFS : Fld := ⟨R.TIM_UTC, 0, 16⟩
/-- TIM_UTC.FLAGS. -/
def TIM_UTC_FLAGS : Fld := ⟨R.TIM_UTC, 16, 4⟩
/-- TIM_SQCTL.SBDIV. -/
def TIM_SQCTL_SBDIV : Fld := ⟨R.TIM_SQCTL, 0, 4⟩
/-- TIM_SQCTL.SBTX. -/
def TIM_SQCTL_SBTX : Fld := ⟨R.TIM_SQCTL, 4, 1⟩
/-- TIM_SQCTL.SBRX. -/
def TIM_SQCTL_SBRX : Fld := ⟨R.TIM_SQCTL, 5, 1⟩
/-- TIM_SQCTL.TXLANES. -/
def TIM_SQCTL_TXLANES : Fld := ⟨R.TIM_SQCTL, 6, 4⟩
/-- TIM_SQCTL.RXLANES. -/
def TIM_SQCTL_RXLANES : Fld := ⟨R.TIM_SQCTL, 10, 4⟩
/-- TIM_SQCTL.PPS. -/
def TIM_SQCTL_PPS : Fld := ⟨R.TIM_SQCTL, 14, 1⟩
/-- TIM_SQSTAT.TXOVF. -/
def TIM_SQSTAT_TXOVF : Fld := ⟨R.TIM_SQSTAT, 8, 1⟩
/-- TIM_SQSTAT.RXOVF. -/
def TIM_SQSTAT_RXOVF : Fld := ⟨R.TIM_SQSTAT, 9, 1⟩
/-- TIM_SQDROP.TX. -/
def TIM_SQDROP_TX : Fld := ⟨R.TIM_SQDROP, 0, 16⟩
/-- TIM_SQDROP.RX. -/
def TIM_SQDROP_RX : Fld := ⟨R.TIM_SQDROP, 16, 16⟩
/-- SAP_p_CTRL.EN. -/
def SAP_P_CTRL_EN (i : Nat) : Fld := ⟨R.SAP_P_CTRL i, 0, 1⟩
/-- SAP_p_CTRL.STATE. -/
def SAP_P_CTRL_STATE (i : Nat) : Fld := ⟨R.SAP_P_CTRL i, 1, 2⟩
/-- SAP_p_CTRL.FMT. -/
def SAP_P_CTRL_FMT (i : Nat) : Fld := ⟨R.SAP_P_CTRL i, 3, 2⟩
/-- SAP_p_CTRL.SLOTS. -/
def SAP_P_CTRL_SLOTS (i : Nat) : Fld := ⟨R.SAP_P_CTRL i, 5, 4⟩
/-- SAP_p_CTRL.SW. -/
def SAP_P_CTRL_SW (i : Nat) : Fld := ⟨R.SAP_P_CTRL i, 9, 2⟩
/-- SAP_p_CTRL.DW. -/
def SAP_P_CTRL_DW (i : Nat) : Fld := ⟨R.SAP_P_CTRL i, 11, 2⟩
/-- SAP_p_STAT.ALIEN. -/
def SAP_P_STAT_ALIEN (i : Nat) : Fld := ⟨R.SAP_P_STAT i, 0, 1⟩
/-- SAP_p_STAT.SLIP. -/
def SAP_P_STAT_SLIP (i : Nat) : Fld := ⟨R.SAP_P_STAT i, 1, 1⟩
/-- SAP_p_STAT.NOCLK. -/
def SAP_P_STAT_NOCLK (i : Nat) : Fld := ⟨R.SAP_P_STAT i, 2, 1⟩
/-- SAP_p_STAT.EXTRA. -/
def SAP_P_STAT_EXTRA (i : Nat) : Fld := ⟨R.SAP_P_STAT i, 3, 1⟩
/-- SAP_p_STAT.EDGE. -/
def SAP_P_STAT_EDGE (i : Nat) : Fld := ⟨R.SAP_P_STAT i, 4, 1⟩
/-- SAP_p_STAT.FMTERR. -/
def SAP_P_STAT_FMTERR (i : Nat) : Fld := ⟨R.SAP_P_STAT i, 5, 1⟩
/-- SAP_p_MASK.IN. -/
def SAP_P_MASK_IN (i : Nat) : Fld := ⟨R.SAP_P_MASK i, 0, 16⟩
/-- SAP_p_MASK.OUT. -/
def SAP_P_MASK_OUT (i : Nat) : Fld := ⟨R.SAP_P_MASK i, 16, 16⟩
/-- SAP_p_AMASK.IN. -/
def SAP_P_AMASK_IN (i : Nat) : Fld := ⟨R.SAP_P_AMASK i, 0, 16⟩
/-- SAP_p_AMASK.OUT. -/
def SAP_P_AMASK_OUT (i : Nat) : Fld := ⟨R.SAP_P_AMASK i, 16, 16⟩
/-- SAP_p_PHASE.CYCLE. -/
def SAP_P_PHASE_CYCLE (i : Nat) : Fld := ⟨R.SAP_P_PHASE i, 0, 15⟩
/-- SAP_p_PHASE.VALID. -/
def SAP_P_PHASE_VALID (i : Nat) : Fld := ⟨R.SAP_P_PHASE i, 15, 1⟩
/-- SAP_p_SAT.COUNT. -/
def SAP_P_SAT_COUNT (i : Nat) : Fld := ⟨R.SAP_P_SAT i, 0, 32⟩
/-- SAP_Gg_CTRL.MODE. -/
def SAP_G_CTRL_MODE (i : Nat) : Fld := ⟨R.SAP_G_CTRL i, 0, 1⟩
/-- SAP_Gg_CTRL.MCKO_EN. -/
def SAP_G_CTRL_MCKO_EN (i : Nat) : Fld := ⟨R.SAP_G_CTRL i, 1, 1⟩
/-- SAP_Gg_CTRL.MCKODIV. -/
def SAP_G_CTRL_MCKODIV (i : Nat) : Fld := ⟨R.SAP_G_CTRL i, 2, 2⟩
/-- SAP_Gg_CTRL.SIDE. -/
def SAP_G_CTRL_SIDE (i : Nat) : Fld := ⟨R.SAP_G_CTRL i, 4, 1⟩
/-- SAP_Gg_IRQ.ALIEN. -/
def SAP_G_IRQ_ALIEN (i : Nat) : Fld := ⟨R.SAP_G_IRQ i, 0, 8⟩
/-- SAP_Gg_IRQ.SLIP. -/
def SAP_G_IRQ_SLIP (i : Nat) : Fld := ⟨R.SAP_G_IRQ i, 8, 8⟩
/-- SAP_Gg_IRQ.SAT. -/
def SAP_G_IRQ_SAT (i : Nat) : Fld := ⟨R.SAP_G_IRQ i, 16, 8⟩
/-- SAP_Gg_IRQ.CLKLOSS. -/
def SAP_G_IRQ_CLKLOSS (i : Nat) : Fld := ⟨R.SAP_G_IRQ i, 24, 1⟩
/-- CVD_CTRL.EN. -/
def CVD_CTRL_EN : Fld := ⟨R.CVD_CTRL, 0, 1⟩
/-- CVD_CTRL.STATE. -/
def CVD_CTRL_STATE : Fld := ⟨R.CVD_CTRL, 1, 2⟩
/-- CVD_STAT.CLRIN. -/
def CVD_STAT_CLRIN : Fld := ⟨R.CVD_STAT, 0, 1⟩
/-- CVD_STAT.VCVOK. -/
def CVD_STAT_VCVOK : Fld := ⟨R.CVD_STAT, 2, 1⟩
/-- CVD_IRQ.RBFAIL. -/
def CVD_IRQ_RBFAIL : Fld := ⟨R.CVD_IRQ, 0, 8⟩
/-- CVD_IRQ.SHORT. -/
def CVD_IRQ_SHORT : Fld := ⟨R.CVD_IRQ, 8, 8⟩
/-- CVD_IRQ.MIDFAIL. -/
def CVD_IRQ_MIDFAIL : Fld := ⟨R.CVD_IRQ, 16, 1⟩
/-- CVD_IRQ.SAT. -/
def CVD_IRQ_SAT : Fld := ⟨R.CVD_IRQ, 17, 1⟩
/-- CVD_IRQ.CLR. -/
def CVD_IRQ_CLR : Fld := ⟨R.CVD_IRQ, 18, 1⟩
/-- CVD_n_CFG.SPAN. -/
def CVD_N_CFG_SPAN (i : Nat) : Fld := ⟨R.CVD_N_CFG i, 0, 2⟩
/-- CVD_n_CFG.SRC. -/
def CVD_N_CFG_SRC (i : Nat) : Fld := ⟨R.CVD_N_CFG i, 2, 2⟩
/-- CVD_n_CFG.RBEN. -/
def CVD_N_CFG_RBEN (i : Nat) : Fld := ⟨R.CVD_N_CFG i, 4, 1⟩
/-- CVD_n_CFG.FLTCLR. -/
def CVD_N_CFG_FLTCLR (i : Nat) : Fld := ⟨R.CVD_N_CFG i, 5, 1⟩
/-- CVD_n_STAT.CLRHOLD. -/
def CVD_N_STAT_CLRHOLD (i : Nat) : Fld := ⟨R.CVD_N_STAT i, 0, 1⟩
/-- CVD_n_STAT.ASPAN. -/
def CVD_N_STAT_ASPAN (i : Nat) : Fld := ⟨R.CVD_N_STAT i, 1, 2⟩
/-- CVD_n_STAT.RBFAIL. -/
def CVD_N_STAT_RBFAIL (i : Nat) : Fld := ⟨R.CVD_N_STAT i, 3, 1⟩
/-- CVD_n_STAT.SHORT. -/
def CVD_N_STAT_SHORT (i : Nat) : Fld := ⟨R.CVD_N_STAT i, 4, 1⟩
/-- CVD_n_STAT.LIMIT. -/
def CVD_N_STAT_LIMIT (i : Nat) : Fld := ⟨R.CVD_N_STAT i, 5, 1⟩
/-- CVD_n_STAT.SRCERR. -/
def CVD_N_STAT_SRCERR (i : Nat) : Fld := ⟨R.CVD_N_STAT i, 7, 1⟩
/-- CVD_n_SAT.COUNT. -/
def CVD_N_SAT_COUNT (i : Nat) : Fld := ⟨R.CVD_N_SAT i, 0, 32⟩
/-- XBR_IRQ.ERR. -/
def XBR_IRQ_ERR : Fld := ⟨R.XBR_IRQ, 0, 1⟩
/-- XBR_IRQ.ECC1. -/
def XBR_IRQ_ECC1 : Fld := ⟨R.XBR_IRQ, 1, 1⟩
/-- XBR_IRQ.ECC2. -/
def XBR_IRQ_ECC2 : Fld := ⟨R.XBR_IRQ, 2, 1⟩
/-- XBR_ECC.SBE. -/
def XBR_ECC_SBE : Fld := ⟨R.XBR_ECC, 0, 16⟩
/-- XBR_ECC.DBE. -/
def XBR_ECC_DBE : Fld := ⟨R.XBR_ECC, 16, 16⟩
/-- XBR_CORECTL.RUN. -/
def XBR_CORECTL_RUN : Fld := ⟨R.XBR_CORECTL, 0, 4⟩
/-- XBR_SEMs.HELD. -/
def XBR_SEM_HELD (i : Nat) : Fld := ⟨R.XBR_SEM i, 0, 1⟩
/-- XBR_SEMs.HOLDER. -/
def XBR_SEM_HOLDER (i : Nat) : Fld := ⟨R.XBR_SEM i, 4, 3⟩
/-- XBR_n_LATCH.FT. -/
def XBR_N_LATCH_FT (i : Nat) : Fld := ⟨R.XBR_N_LATCH i, 0, 1⟩
/-- XBR_n_LATCH.DB. -/
def XBR_N_LATCH_DB (i : Nat) : Fld := ⟨R.XBR_N_LATCH i, 26, 6⟩
/-- MISC_GPIO_DIR.OE. -/
def MISC_GPIO_DIR_OE : Fld := ⟨R.MISC_GPIO_DIR, 0, 16⟩
/-- MISC_GPIO_DIR.OD. -/
def MISC_GPIO_DIR_OD : Fld := ⟨R.MISC_GPIO_DIR, 16, 16⟩
/-- MISC_GPIO_OUT.PIN. -/
def MISC_GPIO_OUT_PIN : Fld := ⟨R.MISC_GPIO_OUT, 0, 16⟩
/-- MISC_GPIO_EDGE.RISE. -/
def MISC_GPIO_EDGE_RISE : Fld := ⟨R.MISC_GPIO_EDGE, 0, 16⟩
/-- MISC_GPIO_EDGE.FALL. -/
def MISC_GPIO_EDGE_FALL : Fld := ⟨R.MISC_GPIO_EDGE, 16, 16⟩
/-- MISC_GPIO_IRQ.PIN. -/
def MISC_GPIO_IRQ_PIN : Fld := ⟨R.MISC_GPIO_IRQ, 0, 16⟩
/-- MISC_GPIO_IRQ.LATE. -/
def MISC_GPIO_IRQ_LATE : Fld := ⟨R.MISC_GPIO_IRQ, 16, 1⟩
/-- MISC_GPIO_TOUT.VALUE. -/
def MISC_GPIO_TOUT_VALUE : Fld := ⟨R.MISC_GPIO_TOUT, 0, 16⟩
/-- MISC_GPIO_TOUT.MASK. -/
def MISC_GPIO_TOUT_MASK : Fld := ⟨R.MISC_GPIO_TOUT, 16, 16⟩
/-- MISC_GPIO_TCTL.ARMED. -/
def MISC_GPIO_TCTL_ARMED : Fld := ⟨R.MISC_GPIO_TCTL, 1, 1⟩
/-- MISC_I2Cn_CTRL.EN. -/
def MISC_I2C_CTRL_EN (i : Nat) : Fld := ⟨R.MISC_I2C_CTRL i, 0, 1⟩
/-- MISC_I2Cn_CTRL.STATE. -/
def MISC_I2C_CTRL_STATE (i : Nat) : Fld := ⟨R.MISC_I2C_CTRL i, 1, 2⟩
/-- MISC_I2Cn_CTRL.IEN. -/
def MISC_I2C_CTRL_IEN (i : Nat) : Fld := ⟨R.MISC_I2C_CTRL i, 4, 1⟩
/-- MISC_I2Cn_XFER.ADDR. -/
def MISC_I2C_XFER_ADDR (i : Nat) : Fld := ⟨R.MISC_I2C_XFER i, 0, 7⟩
/-- MISC_I2Cn_XFER.WLEN. -/
def MISC_I2C_XFER_WLEN (i : Nat) : Fld := ⟨R.MISC_I2C_XFER i, 8, 5⟩
/-- MISC_I2Cn_XFER.RLEN. -/
def MISC_I2C_XFER_RLEN (i : Nat) : Fld := ⟨R.MISC_I2C_XFER i, 16, 5⟩
/-- MISC_I2Cn_STAT.BUSY. -/
def MISC_I2C_STAT_BUSY (i : Nat) : Fld := ⟨R.MISC_I2C_STAT i, 0, 1⟩
/-- MISC_I2Cn_STAT.DONE. -/
def MISC_I2C_STAT_DONE (i : Nat) : Fld := ⟨R.MISC_I2C_STAT i, 1, 1⟩
/-- MISC_I2Cn_STAT.NACK. -/
def MISC_I2C_STAT_NACK (i : Nat) : Fld := ⟨R.MISC_I2C_STAT i, 2, 1⟩
/-- MISC_I2Cn_STAT.TIMEOUT. -/
def MISC_I2C_STAT_TIMEOUT (i : Nat) : Fld := ⟨R.MISC_I2C_STAT i, 3, 1⟩
/-- MISC_I2Cn_STAT.NACKBYTE. -/
def MISC_I2C_STAT_NACKBYTE (i : Nat) : Fld := ⟨R.MISC_I2C_STAT i, 4, 5⟩
/-- MISC_I2Cn_STAT.SCL. -/
def MISC_I2C_STAT_SCL (i : Nat) : Fld := ⟨R.MISC_I2C_STAT i, 9, 1⟩
/-- MISC_I2Cn_STAT.SDA. -/
def MISC_I2C_STAT_SDA (i : Nat) : Fld := ⟨R.MISC_I2C_STAT i, 10, 1⟩
/-- MISC_MIDI_CTRL.EN. -/
def MISC_MIDI_CTRL_EN : Fld := ⟨R.MISC_MIDI_CTRL, 0, 1⟩
/-- MISC_MIDI_CTRL.STATE. -/
def MISC_MIDI_CTRL_STATE : Fld := ⟨R.MISC_MIDI_CTRL, 1, 2⟩
/-- MISC_MIDI_CTRL.LOWMARK. -/
def MISC_MIDI_CTRL_LOWMARK : Fld := ⟨R.MISC_MIDI_CTRL, 8, 7⟩
/-- MISC_MIDI_CTRL.TXIEN. -/
def MISC_MIDI_CTRL_TXIEN : Fld := ⟨R.MISC_MIDI_CTRL, 15, 1⟩
/-- MISC_MIDI_STAT.TXOVF. -/
def MISC_MIDI_STAT_TXOVF : Fld := ⟨R.MISC_MIDI_STAT, 9, 1⟩
/-- MISC_MIDI_STAT.RX0. -/
def MISC_MIDI_STAT_RX0 : Fld := ⟨R.MISC_MIDI_STAT, 10, 1⟩
/-- MISC_MIDI_STAT.RX1. -/
def MISC_MIDI_STAT_RX1 : Fld := ⟨R.MISC_MIDI_STAT, 11, 1⟩
/-- BTL_STAT.STEP. -/
def BTL_STAT_STEP : Fld := ⟨R.BTL_STAT, 0, 4⟩
/-- BTL_STAT.SLOT. -/
def BTL_STAT_SLOT : Fld := ⟨R.BTL_STAT, 4, 1⟩
/-- BTL_STAT.FALLBACK. -/
def BTL_STAT_FALLBACK : Fld := ⟨R.BTL_STAT, 5, 1⟩
/-- BTL_STAT.TRIAL. -/
def BTL_STAT_TRIAL : Fld := ⟨R.BTL_STAT, 6, 1⟩
/-- BTL_STAT.UNKSEC. -/
def BTL_STAT_UNKSEC : Fld := ⟨R.BTL_STAT, 7, 1⟩
/-- BTL_STAT.ROLE. -/
def BTL_STAT_ROLE : Fld := ⟨R.BTL_STAT, 8, 2⟩
/-- BTL_STAT.MODE. -/
def BTL_STAT_MODE : Fld := ⟨R.BTL_STAT, 10, 1⟩
/-- BTL_STAT.IDOK. -/
def BTL_STAT_IDOK : Fld := ⟨R.BTL_STAT, 11, 1⟩
/-- BTL_STAT.IDMIS. -/
def BTL_STAT_IDMIS : Fld := ⟨R.BTL_STAT, 12, 1⟩
/-- BTL_STAT.MODEMIS. -/
def BTL_STAT_MODEMIS : Fld := ⟨R.BTL_STAT, 13, 1⟩
/-- BTL_STRAP.BOOTW. -/
def BTL_STRAP_BOOTW : Fld := ⟨R.BTL_STRAP, 0, 1⟩
/-- BTL_STRAP.ROLE. -/
def BTL_STRAP_ROLE : Fld := ⟨R.BTL_STRAP, 2, 2⟩
/-- BTL_PINFO.MODE. -/
def BTL_PINFO_MODE : Fld := ⟨R.BTL_PINFO, 2, 1⟩
/-- BTL_PINFO.VALID. -/
def BTL_PINFO_VALID : Fld := ⟨R.BTL_PINFO, 3, 1⟩
/-- BTL_SLOTSTAT.A. -/
def BTL_SLOTSTAT_A : Fld := ⟨R.BTL_SLOTSTAT, 0, 4⟩
/-- BTL_SLOTSTAT.B. -/
def BTL_SLOTSTAT_B : Fld := ⟨R.BTL_SLOTSTAT, 4, 4⟩
/-- BTL_IRQ.PLUG. -/
def BTL_IRQ_PLUG : Fld := ⟨R.BTL_IRQ, 0, 1⟩
/-- BTL_IRQ.IDMIS. -/
def BTL_IRQ_IDMIS : Fld := ⟨R.BTL_IRQ, 1, 1⟩
/-- BTL_IRQ.MODEMIS. -/
def BTL_IRQ_MODEMIS : Fld := ⟨R.BTL_IRQ, 2, 1⟩
/-- BTL_IRQ.FDONE. -/
def BTL_IRQ_FDONE : Fld := ⟨R.BTL_IRQ, 3, 1⟩
/-- BTL_IRQ.FALLBACK. -/
def BTL_IRQ_FALLBACK : Fld := ⟨R.BTL_IRQ, 4, 1⟩
/-- BTL_PLUG.STATE. -/
def BTL_PLUG_STATE : Fld := ⟨R.BTL_PLUG, 0, 3⟩
/-- BTL_PLUG.SEATED. -/
def BTL_PLUG_SEATED : Fld := ⟨R.BTL_PLUG, 3, 1⟩
/-- BTL_PLUG.SUPOK. -/
def BTL_PLUG_SUPOK : Fld := ⟨R.BTL_PLUG, 4, 1⟩
/-- BTL_SUPPLY.OK. -/
def BTL_SUPPLY_OK : Fld := ⟨R.BTL_SUPPLY, 0, 6⟩
/-- BTL_SUPPLY.WARN. -/
def BTL_SUPPLY_WARN : Fld := ⟨R.BTL_SUPPLY, 8, 6⟩
/-- BTL_SUPIEN.WARN. -/
def BTL_SUPIEN_WARN : Fld := ⟨R.BTL_SUPIEN, 8, 6⟩
/-- BTL_FSTAT.BUSY. -/
def BTL_FSTAT_BUSY : Fld := ⟨R.BTL_FSTAT, 0, 1⟩
/-- BTL_FSTAT.DONE. -/
def BTL_FSTAT_DONE : Fld := ⟨R.BTL_FSTAT, 1, 1⟩
/-- BTL_FSTAT.REFUSED. -/
def BTL_FSTAT_REFUSED : Fld := ⟨R.BTL_FSTAT, 2, 1⟩
/-- BTL_FSTAT.MODE. -/
def BTL_FSTAT_MODE : Fld := ⟨R.BTL_FSTAT, 4, 2⟩
/-- BTL_FSTAT.ADDR4. -/
def BTL_FSTAT_ADDR4 : Fld := ⟨R.BTL_FSTAT, 6, 1⟩
/-- LOG_CTRL.FREEZE. -/
def LOG_CTRL_FREEZE : Fld := ⟨R.LOG_CTRL, 0, 1⟩
/-- LOG_CTRL.AUTO. -/
def LOG_CTRL_AUTO : Fld := ⟨R.LOG_CTRL, 1, 1⟩
/-- LOG_STAT.LOGFAIL. -/
def LOG_STAT_LOGFAIL : Fld := ⟨R.LOG_STAT, 0, 1⟩
/-- LOG_STAT.CLEARING. -/
def LOG_STAT_CLEARING : Fld := ⟨R.LOG_STAT, 1, 1⟩
/-- LOG_STAT.FOUNDFULL. -/
def LOG_STAT_FOUNDFULL : Fld := ⟨R.LOG_STAT, 2, 1⟩
/-- LOG_STAT.BAD. -/
def LOG_STAT_BAD : Fld := ⟨R.LOG_STAT, 16, 14⟩
/-- LOG_IRQ.REC. -/
def LOG_IRQ_REC : Fld := ⟨R.LOG_IRQ, 0, 1⟩
/-- LOG_IRQ.FOUNDFULL. -/
def LOG_IRQ_FOUNDFULL : Fld := ⟨R.LOG_IRQ, 1, 1⟩
/-- LOG_IRQ.MEMFAULT. -/
def LOG_IRQ_MEMFAULT : Fld := ⟨R.LOG_IRQ, 2, 1⟩
/-- LOG_IRQ.LOGFAIL. -/
def LOG_IRQ_LOGFAIL : Fld := ⟨R.LOG_IRQ, 3, 1⟩
/-- LOG_IRQ.GAP. -/
def LOG_IRQ_GAP : Fld := ⟨R.LOG_IRQ, 4, 1⟩
/-- LOG_IRQCLS.VALUE. -/
def LOG_IRQCLS_VALUE : Fld := ⟨R.LOG_IRQCLS, 0, 8⟩
/-- LOG_CURSOR.VALUE. -/
def LOG_CURSOR_VALUE : Fld := ⟨R.LOG_CURSOR, 0, 13⟩
/-- LOG_FNEXT.SLOT. -/
def LOG_FNEXT_SLOT : Fld := ⟨R.LOG_FNEXT, 0, 16⟩
/-- LOG_HEAD.SLOT. -/
def LOG_HEAD_SLOT : Fld := ⟨R.LOG_HEAD, 0, 16⟩
/-- LOG_HEAD.LAPS. -/
def LOG_HEAD_LAPS : Fld := ⟨R.LOG_HEAD, 16, 16⟩
/-- LOG_MISSEDc.COUNT. -/
def LOG_MISSED_COUNT (i : Nat) : Fld := ⟨R.LOG_MISSED i, 0, 16⟩
/-- LOG_ECC.SBE. -/
def LOG_ECC_SBE : Fld := ⟨R.LOG_ECC, 0, 16⟩
/-- LOG_ECC.DBE. -/
def LOG_ECC_DBE : Fld := ⟨R.LOG_ECC, 16, 16⟩
/-- LOG_BADIDX.IDX. -/
def LOG_BADIDX_IDX : Fld := ⟨R.LOG_BADIDX, 0, 8⟩
/-- PCT_CTRL.EN. -/
def PCT_CTRL_EN : Fld := ⟨R.PCT_CTRL, 0, 8⟩
/-- PCT_OVF.OVF. -/
def PCT_OVF_OVF : Fld := ⟨R.PCT_OVF, 0, 8⟩
/-- PCT_OVF.SIRQ. -/
def PCT_OVF_SIRQ : Fld := ⟨R.PCT_OVF, 8, 8⟩
/-- PCT_SELn.EVENT. -/
def PCT_SEL_EVENT (i : Nat) : Fld := ⟨R.PCT_SEL i, 0, 10⟩
/-- PCT_SELn.CORE. -/
def PCT_SEL_CORE (i : Nat) : Fld := ⟨R.PCT_SEL i, 10, 2⟩
/-- PCT_SELn.SAMPEN. -/
def PCT_SEL_SAMPEN (i : Nat) : Fld := ⟨R.PCT_SEL i, 12, 1⟩
/-- PCT_SELn.SELERR. -/
def PCT_SEL_SELERR (i : Nat) : Fld := ⟨R.PCT_SEL i, 13, 1⟩
/-- FRZ_CTRL.PINEN. -/
def FRZ_CTRL_PINEN : Fld := ⟨R.FRZ_CTRL, 1, 1⟩
/-- FRZ_CTRL.RESUMEOK. -/
def FRZ_CTRL_RESUMEOK : Fld := ⟨R.FRZ_CTRL, 2, 1⟩
/-- FRZ_STAT.STATE. -/
def FRZ_STAT_STATE : Fld := ⟨R.FRZ_STAT, 0, 3⟩
/-- FRZ_STAT.CAUSE. -/
def FRZ_STAT_CAUSE : Fld := ⟨R.FRZ_STAT, 3, 2⟩
/-- FRZ_STAT.NOFENCE. -/
def FRZ_STAT_NOFENCE : Fld := ⟨R.FRZ_STAT, 5, 1⟩
/-- FRZ_STAT.CLOSED. -/
def FRZ_STAT_CLOSED : Fld := ⟨R.FRZ_STAT, 8, 8⟩
/-- FRZ_STAT.FORCED. -/
def FRZ_STAT_FORCED : Fld := ⟨R.FRZ_STAT, 16, 8⟩

end F

/-- Register rows of BTL. -/
def rowsBtl : List RegRow :=
  [⟨0x10000000, 1, 0x4, 1, 0x4, .ctl, 0x0, [⟨0, 1, .wk⟩]⟩,
   ⟨0x10000004, 1, 0x4, 1, 0x4, .ctl, 0x0, [⟨0, 32, .wo⟩]⟩,
   ⟨0x10000008, 1, 0x4, 1, 0x4, .ctl, 0x0, [⟨0, 4, .ro⟩, ⟨4, 1, .ro⟩, ⟨5, 1, .ro⟩, ⟨6, 1, .ro⟩, ⟨7, 1, .ro⟩, ⟨8, 2, .ro⟩, ⟨10, 1, .ro⟩, ⟨11, 1, .ro⟩, ⟨12, 1, .ro⟩, ⟨13, 1, .ro⟩, ⟨14, 1, .ro⟩]⟩,
   ⟨0x1000000c, 1, 0x4, 1, 0x4, .keep, 0x0, [⟨0, 1, .ro⟩, ⟨1, 1, .ro⟩, ⟨2, 2, .ro⟩, ⟨4, 1, .ro⟩]⟩,
   ⟨0x10000010, 1, 0x4, 1, 0x4, .ctl, 0x0, [⟨0, 32, .ro⟩]⟩,
   ⟨0x10000014, 1, 0x4, 1, 0x4, .ctl, 0x0, [⟨0, 32, .ro⟩]⟩,
   ⟨0x10000018, 1, 0x4, 1, 0x4, .ctl, 0x0, [⟨0, 32, .ro⟩]⟩,
   ⟨0x1000001c, 1, 0x4, 1, 0x4, .ctl, 0x0, [⟨0, 32, .ro⟩]⟩,
   ⟨0x10000020, 1, 0x4, 1, 0x4, .ctl, 0x0, [⟨0, 2, .ro⟩, ⟨2, 1, .ro⟩, ⟨3, 1, .ro⟩]⟩,
   ⟨0x10000024, 1, 0x4, 1, 0x4, .ctl, 0x0, [⟨0, 4, .ro⟩, ⟨4, 4, .ro⟩]⟩,
   ⟨0x10000028, 1, 0x4, 1, 0x4, .ctl, 0x0, [⟨0, 32, .ro⟩]⟩,
   ⟨0x1000002c, 1, 0x4, 1, 0x4, .keep, 0x0, [⟨0, 32, .ro⟩]⟩,
   ⟨0x10000030, 1, 0x4, 1, 0x4, .keep, 0x0, [⟨0, 32, .ro⟩]⟩,
   ⟨0x10000040, 1, 0x4, 1, 0x4, .ctl, 0x0, [⟨0, 1, .w1c⟩, ⟨1, 1, .w1c⟩, ⟨2, 1, .w1c⟩, ⟨3, 1, .w1c⟩, ⟨4, 1, .w1c⟩]⟩,
   ⟨0x10000044, 1, 0x4, 1, 0x4, .ctl, 0x0, [⟨0, 1, .rw⟩, ⟨1, 1, .rw⟩, ⟨2, 1, .rw⟩, ⟨3, 1, .rw⟩, ⟨4, 1, .rw⟩]⟩,
   ⟨0x10000048, 1, 0x4, 1, 0x4, .keep, 0x0, [⟨0, 3, .ro⟩, ⟨3, 1, .ro⟩, ⟨4, 1, .ro⟩]⟩,
   ⟨0x10000050, 1, 0x4, 1, 0x4, .keep, 0x0, [⟨0, 6, .ro⟩, ⟨8, 6, .w1c⟩]⟩,
   ⟨0x10000054, 1, 0x4, 1, 0x4, .keep, 0x0, [⟨8, 6, .rw⟩]⟩,
   ⟨0x10000060, 1, 0x4, 1, 0x4, .ctl, 0x0, [⟨0, 8, .rw⟩, ⟨8, 3, .rw⟩, ⟨11, 5, .rw⟩, ⟨16, 9, .rw⟩, ⟨25, 1, .rw⟩, ⟨31, 1, .wo⟩]⟩,
   ⟨0x10000064, 1, 0x4, 1, 0x4, .ctl, 0x0, [⟨0, 32, .rw⟩]⟩,
   ⟨0x10000068, 1, 0x4, 1, 0x4, .ctl, 0x0, [⟨0, 1, .ro⟩, ⟨1, 1, .w1c⟩, ⟨2, 1, .w1c⟩, ⟨4, 2, .ro⟩, ⟨6, 1, .ro⟩]⟩,
   ⟨0x10000100, 64, 0x4, 1, 0x4, .ctl, 0x0, [⟨0, 32, .rw⟩]⟩]

/-- Register rows of REF. -/
def rowsRef : List RegRow :=
  [⟨0x10001000, 1, 0x4, 1, 0x4, .keep, 0x3, [⟨0, 1, .rw⟩, ⟨1, 1, .rw⟩, ⟨2, 1, .rw⟩, ⟨3, 3, .rw⟩]⟩,
   ⟨0x10001004, 1, 0x4, 1, 0x4, .keep, 0x38, [⟨0, 3, .ro⟩, ⟨3, 3, .ro⟩, ⟨6, 1, .ro⟩, ⟨7, 1, .ro⟩, ⟨8, 1, .ro⟩, ⟨9, 1, .ro⟩, ⟨10, 1, .ro⟩]⟩,
   ⟨0x10001008, 1, 0x4, 1, 0x4, .keep, 0x0, [⟨0, 1, .w1c⟩, ⟨1, 1, .w1c⟩, ⟨2, 1, .w1c⟩, ⟨3, 1, .w1c⟩, ⟨4, 1, .w1c⟩, ⟨5, 1, .w1c⟩]⟩,
   ⟨0x1000100c, 1, 0x4, 1, 0x4, .keep, 0x0, [⟨0, 1, .rw⟩, ⟨1, 1, .rw⟩, ⟨2, 1, .rw⟩, ⟨3, 1, .rw⟩, ⟨4, 1, .rw⟩, ⟨5, 1, .rw⟩]⟩,
   ⟨0x10001010, 1, 0x4, 1, 0x4, .keep, 0x7fff, [⟨0, 15, .rw⟩]⟩,
   ⟨0x10001020, 5, 0x4, 1, 0x4, .keep, 0x0, [⟨0, 16, .ro⟩, ⟨16, 1, .ro⟩, ⟨17, 1, .ro⟩, ⟨18, 2, .ro⟩, ⟨20, 1, .ro⟩, ⟨21, 3, .ro⟩]⟩,
   ⟨0x10001040, 1, 0x4, 1, 0x4, .keep, 0x0, [⟨0, 32, .ro⟩]⟩,
   ⟨0x10001044, 1, 0x4, 1, 0x4, .keep, 0x0, [⟨0, 32, .ro⟩]⟩,
   ⟨0x10001048, 1, 0x4, 1, 0x4, .keep, 0x15180, [⟨0, 32, .rw⟩]⟩,
   ⟨0x1000104c, 1, 0x4, 1, 0x4, .keep, 0x0, [⟨0, 32, .ro⟩]⟩,
   ⟨0x10001050, 1, 0x4, 1, 0x4, .keep, 0x0, [⟨0, 1, .wo⟩, ⟨1, 1, .wo⟩, ⟨2, 1, .wo⟩]⟩,
   ⟨0x10001054, 1, 0x4, 1, 0x4, .keep, 0x0, [⟨0, 32, .rw⟩]⟩,
   ⟨0x10001060, 1, 0x4, 1, 0x4, .keep, 0x2ee00000, [⟨0, 1, .rw⟩, ⟨1, 1, .ro⟩, ⟨2, 1, .ro⟩, ⟨14, 18, .rw⟩]⟩,
   ⟨0x10001064, 1, 0x4, 1, 0x4, .keep, 0x0, [⟨0, 32, .ro⟩]⟩,
   ⟨0x10001068, 1, 0x4, 1, 0x4, .keep, 0x0, [⟨0, 32, .rc⟩]⟩]

/-- Register rows of TIM. -/
def rowsTim : List RegRow :=
  [⟨0x10002000, 1, 0x4, 1, 0x4, .keep, 0x11, [⟨0, 1, .rw⟩, ⟨1, 2, .rw⟩, ⟨3, 1, .wo⟩, ⟨4, 1, .rw⟩]⟩,
   ⟨0x10002004, 1, 0x4, 1, 0x4, .keep, 0x0, [⟨0, 1, .ro⟩, ⟨1, 2, .ro⟩, ⟨3, 1, .ro⟩, ⟨4, 1, .ro⟩, ⟨5, 1, .ro⟩]⟩,
   ⟨0x10002008, 1, 0x4, 1, 0x4, .keep, 0x0, [⟨0, 1, .ro⟩, ⟨1, 1, .ro⟩, ⟨2, 1, .w1c⟩, ⟨3, 1, .w1c⟩, ⟨4, 1, .w1c⟩, ⟨5, 1, .w1c⟩, ⟨6, 1, .w1c⟩]⟩,
   ⟨0x1000200c, 1, 0x4, 1, 0x4, .keep, 0x0, [⟨0, 1, .rw⟩, ⟨1, 1, .rw⟩, ⟨2, 1, .rw⟩, ⟨3, 1, .rw⟩, ⟨4, 1, .rw⟩, ⟨5, 1, .rw⟩, ⟨6, 1, .rw⟩]⟩,
   ⟨0x10002010, 1, 0x4, 1, 0x4, .keep, 0x0, [⟨0, 32, .ro⟩]⟩,
   ⟨0x10002014, 1, 0x4, 1, 0x4, .keep, 0x0, [⟨0, 32, .ro⟩]⟩,
   ⟨0x10002018, 1, 0x4, 1, 0x4, .keep, 0x0, [⟨0, 16, .ro⟩]⟩,
   ⟨0x1000201c, 1, 0x4, 1, 0x4, .keep, 0x0, [⟨0, 32, .ro⟩]⟩,
   ⟨0x10002020, 1, 0x4, 1, 0x4, .keep, 0x0, [⟨0, 32, .rw⟩]⟩,
   ⟨0x10002024, 1, 0x4, 1, 0x4, .keep, 0x0, [⟨0, 32, .rw⟩]⟩,
   ⟨0x10002028, 1, 0x4, 1, 0x4, .keep, 0x0, [⟨0, 16, .rw⟩]⟩,
   ⟨0x1000202c, 1, 0x4, 1, 0x4, .keep, 0x0, [⟨0, 32, .rw⟩]⟩,
   ⟨0x10002030, 1, 0x4, 1, 0x4, .keep, 0x0, [⟨0, 32, .ro⟩]⟩,
   ⟨0x10002034, 1, 0x4, 1, 0x4, .keep, 0x0, [⟨0, 32, .ro⟩]⟩,
   ⟨0x10002038, 1, 0x4, 1, 0x4, .keep, 0x186a0, [⟨0, 32, .rw⟩]⟩,
   ⟨0x1000203c, 1, 0x4, 1, 0x4, .keep, 0x0, [⟨0, 16, .ro⟩, ⟨16, 4, .ro⟩]⟩,
   ⟨0x10002040, 1, 0x4, 1, 0x4, .keep, 0x0, [⟨0, 4, .rw⟩, ⟨4, 1, .rw⟩, ⟨5, 1, .rw⟩, ⟨6, 4, .rw⟩, ⟨10, 4, .rw⟩, ⟨14, 1, .rw⟩]⟩,
   ⟨0x10002050, 1, 0x4, 1, 0x4, .ctl, 0xffffffff, [⟨0, 32, .rc⟩]⟩,
   ⟨0x10002058, 1, 0x4, 1, 0x4, .ctl, 0xffffffff, [⟨0, 32, .rc⟩]⟩,
   ⟨0x10002054, 1, 0x4, 1, 0x4, .ctl, 0x0, [⟨0, 32, .ro⟩]⟩,
   ⟨0x1000205c, 1, 0x4, 1, 0x4, .ctl, 0x0, [⟨0, 32, .ro⟩]⟩,
   ⟨0x10002068, 1, 0x4, 1, 0x4, .ctl, 0x0, [⟨0, 32, .ro⟩]⟩,
   ⟨0x1000206c, 1, 0x4, 1, 0x4, .ctl, 0x0, [⟨0, 32, .ro⟩]⟩,
   ⟨0x10002070, 1, 0x4, 1, 0x4, .ctl, 0x0, [⟨0, 32, .ro⟩]⟩,
   ⟨0x10002060, 1, 0x4, 1, 0x4, .ctl, 0x0, [⟨0, 4, .ro⟩, ⟨4, 4, .ro⟩, ⟨8, 1, .w1c⟩, ⟨9, 1, .w1c⟩]⟩,
   ⟨0x10002064, 1, 0x4, 1, 0x4, .ctl, 0x0, [⟨0, 16, .rc⟩, ⟨16, 16, .rc⟩]⟩,
   ⟨0x10002080, 4, 0x8, 1, 0x8, .ctl, 0x0, [⟨0, 32, .ro⟩]⟩,
   ⟨0x10002084, 4, 0x8, 1, 0x8, .ctl, 0x0, [⟨0, 32, .ro⟩]⟩,
   ⟨0x100020a0, 1, 0x4, 1, 0x4, .keep, 0x0, [⟨0, 32, .ro⟩]⟩,
   ⟨0x100020a4, 1, 0x4, 1, 0x4, .keep, 0x0, [⟨0, 32, .ro⟩]⟩]

/-- Register rows of CHN_N and CHN_S. -/
def rowsChnx : List RegRow :=
  [⟨0x10003000, 2, 0x1000, 1, 0x1000, .ltx, 0x0, [⟨0, 1, .rw⟩, ⟨1, 2, .ro⟩, ⟨3, 1, .rw⟩, ⟨4, 1, .rw⟩, ⟨5, 1, .wo⟩]⟩,
   ⟨0x10003004, 2, 0x1000, 1, 0x1000, .ltx, 0x0, [⟨0, 1, .ro⟩, ⟨1, 1, .ro⟩, ⟨2, 1, .ro⟩, ⟨3, 1, .ro⟩, ⟨4, 1, .ro⟩, ⟨5, 1, .ro⟩, ⟨6, 2, .ro⟩, ⟨8, 2, .ro⟩, ⟨10, 1, .ro⟩, ⟨11, 1, .w1c⟩]⟩,
   ⟨0x10003008, 2, 0x1000, 1, 0x1000, .ltx, 0x0, [⟨0, 1, .w1c⟩, ⟨1, 1, .w1c⟩, ⟨2, 1, .w1c⟩, ⟨3, 1, .w1c⟩, ⟨4, 1, .w1c⟩, ⟨5, 1, .w1c⟩, ⟨6, 1, .w1c⟩, ⟨7, 1, .w1c⟩, ⟨8, 1, .w1c⟩, ⟨9, 1, .w1c⟩]⟩,
   ⟨0x1000300c, 2, 0x1000, 1, 0x1000, .ltx, 0x0, [⟨0, 1, .rw⟩, ⟨1, 1, .rw⟩, ⟨2, 1, .rw⟩, ⟨3, 1, .rw⟩, ⟨4, 1, .rw⟩, ⟨5, 1, .rw⟩, ⟨6, 1, .rw⟩, ⟨7, 1, .rw⟩, ⟨8, 1, .rw⟩, ⟨9, 1, .rw⟩]⟩,
   ⟨0x10003010, 2, 0x1000, 1, 0x1000, .ltx, 0xffff0000, [⟨0, 16, .ro⟩, ⟨16, 16, .ro⟩]⟩,
   ⟨0x10003014, 2, 0x1000, 1, 0x1000, .ltx, 0x0, [⟨0, 24, .ro⟩, ⟨31, 1, .ro⟩]⟩,
   ⟨0x10003018, 2, 0x1000, 1, 0x1000, .ltx, 0x0, [⟨0, 24, .rw⟩]⟩,
   ⟨0x1000301c, 2, 0x1000, 1, 0x1000, .ltx, 0x0, [⟨0, 8, .rc⟩, ⟨8, 8, .rc⟩, ⟨16, 8, .rc⟩, ⟨24, 8, .rc⟩]⟩,
   ⟨0x10003020, 2, 0x1000, 1, 0x1000, .ltx, 0x0, [⟨0, 8, .rc⟩, ⟨8, 8, .rc⟩, ⟨16, 16, .rc⟩]⟩,
   ⟨0x10003024, 2, 0x1000, 1, 0x1000, .ltx, 0x0, [⟨0, 16, .rc⟩]⟩,
   ⟨0x10003030, 2, 0x1000, 1, 0x1000, .eng, 0x0, [⟨0, 14, .rw⟩]⟩,
   ⟨0x10003034, 2, 0x1000, 1, 0x1000, .eng, 0x0, [⟨0, 1, .rw⟩, ⟨1, 1, .rw⟩]⟩,
   ⟨0x10003040, 2, 0x1000, 4, 0x4, .ltx, 0x0, [⟨0, 16, .ro⟩, ⟨16, 16, .ro⟩]⟩]

/-- Register rows of CHN. -/
def rowsChn : List RegRow :=
  [⟨0x10005000, 1, 0x4, 1, 0x4, .eng, 0x0, [⟨0, 9, .rw⟩, ⟨9, 1, .rw⟩, ⟨10, 8, .rw⟩, ⟨18, 1, .rw⟩, ⟨19, 1, .wo⟩, ⟨20, 1, .rw⟩]⟩,
   ⟨0x10005004, 1, 0x4, 1, 0x4, .eng, 0x0, [⟨0, 2, .ro⟩, ⟨2, 2, .ro⟩, ⟨4, 1, .ro⟩, ⟨5, 1, .ro⟩, ⟨6, 9, .ro⟩, ⟨15, 8, .ro⟩]⟩,
   ⟨0x10005008, 1, 0x4, 1, 0x4, .eng, 0x0, [⟨0, 16, .ro⟩, ⟨16, 16, .ro⟩]⟩,
   ⟨0x1000500c, 1, 0x4, 1, 0x4, .eng, 0x0, [⟨0, 1, .w1c⟩, ⟨1, 1, .w1c⟩, ⟨2, 1, .w1c⟩, ⟨3, 1, .w1c⟩, ⟨4, 1, .w1c⟩, ⟨5, 1, .w1c⟩, ⟨6, 1, .w1c⟩, ⟨7, 1, .w1c⟩]⟩,
   ⟨0x10005010, 1, 0x4, 1, 0x4, .eng, 0x0, [⟨0, 1, .rw⟩, ⟨1, 1, .rw⟩, ⟨2, 1, .rw⟩, ⟨3, 1, .rw⟩, ⟨4, 1, .rw⟩, ⟨5, 1, .rw⟩, ⟨6, 1, .rw⟩, ⟨7, 1, .rw⟩]⟩,
   ⟨0x10005014, 1, 0x4, 1, 0x4, .eng, 0x300030, [⟨0, 10, .ro⟩, ⟨16, 10, .rw⟩, ⟨26, 1, .wo⟩, ⟨27, 1, .ro⟩]⟩,
   ⟨0x10005018, 1, 0x4, 1, 0x4, .eng, 0x0, [⟨0, 32, .rw⟩]⟩,
   ⟨0x1000501c, 1, 0x4, 1, 0x4, .eng, 0x0, [⟨0, 14, .ro⟩]⟩,
   ⟨0x10005020, 1, 0x4, 1, 0x4, .eng, 0x0, [⟨0, 32, .rc⟩]⟩,
   ⟨0x10005024, 1, 0x4, 1, 0x4, .eng, 0x0, [⟨0, 32, .rc⟩]⟩,
   ⟨0x10005028, 1, 0x4, 1, 0x4, .eng, 0x0, [⟨0, 32, .rc⟩]⟩,
   ⟨0x1000502c, 1, 0x4, 1, 0x4, .eng, 0x0, [⟨0, 32, .rc⟩]⟩,
   ⟨0x10005040, 1, 0x4, 1, 0x4, .ctl, 0x0, [⟨0, 32, .rw⟩]⟩,
   ⟨0x10005080, 4, 0x10, 1, 0x10, .ctl, 0x0, [⟨0, 32, .rw⟩]⟩,
   ⟨0x10005044, 1, 0x4, 1, 0x4, .ctl, 0x0, [⟨0, 12, .rw⟩]⟩,
   ⟨0x10005084, 4, 0x10, 1, 0x10, .ctl, 0x0, [⟨0, 12, .rw⟩]⟩,
   ⟨0x10005048, 1, 0x4, 1, 0x4, .ctl, 0x0, [⟨0, 12, .ro⟩]⟩,
   ⟨0x1000508c, 4, 0x10, 1, 0x10, .ctl, 0x0, [⟨0, 12, .ro⟩]⟩,
   ⟨0x1000504c, 1, 0x4, 1, 0x4, .ctl, 0x0, [⟨0, 12, .rw⟩]⟩,
   ⟨0x10005088, 4, 0x10, 1, 0x10, .ctl, 0x0, [⟨0, 12, .rw⟩]⟩,
   ⟨0x100050c0, 4, 0x4, 1, 0x4, .eng, 0x0, [⟨0, 16, .ro⟩]⟩]

/-- Register rows of PAIR. -/
def rowsPair : List RegRow :=
  [⟨0x10006000, 1, 0x4, 1, 0x4, .eng, 0x0, [⟨0, 1, .wo⟩, ⟨1, 1, .wo⟩, ⟨2, 1, .wo⟩, ⟨3, 1, .wo⟩]⟩,
   ⟨0x10006004, 1, 0x4, 1, 0x4, .eng, 0x0, [⟨0, 3, .ro⟩, ⟨3, 1, .ro⟩, ⟨4, 2, .ro⟩, ⟨6, 1, .ro⟩, ⟨7, 3, .ro⟩, ⟨10, 1, .ro⟩, ⟨16, 6, .ro⟩]⟩,
   ⟨0x10006008, 1, 0x4, 1, 0x4, .eng, 0x0, [⟨0, 1, .w1c⟩, ⟨1, 1, .w1c⟩, ⟨2, 1, .w1c⟩, ⟨3, 1, .w1c⟩, ⟨4, 1, .w1c⟩, ⟨5, 1, .w1c⟩, ⟨6, 1, .w1c⟩, ⟨7, 1, .w1c⟩, ⟨8, 1, .w1c⟩, ⟨9, 1, .w1c⟩, ⟨10, 1, .w1c⟩, ⟨11, 1, .w1c⟩, ⟨12, 1, .w1c⟩]⟩,
   ⟨0x1000600c, 1, 0x4, 1, 0x4, .eng, 0x0, [⟨0, 1, .rw⟩, ⟨1, 1, .rw⟩, ⟨2, 1, .rw⟩, ⟨3, 1, .rw⟩, ⟨4, 1, .rw⟩, ⟨5, 1, .rw⟩, ⟨6, 1, .rw⟩, ⟨7, 1, .rw⟩, ⟨8, 1, .rw⟩, ⟨9, 1, .rw⟩, ⟨10, 1, .rw⟩, ⟨11, 1, .rw⟩, ⟨12, 1, .rw⟩]⟩,
   ⟨0x10006010, 1, 0x4, 1, 0x4, .keep, 0x0, [⟨0, 1, .ro⟩, ⟨1, 1, .ro⟩, ⟨2, 1, .ro⟩, ⟨3, 1, .ro⟩, ⟨4, 1, .wo⟩, ⟨8, 1, .w1c⟩, ⟨9, 1, .rw⟩]⟩,
   ⟨0x10006014, 1, 0x4, 1, 0x4, .eng, 0x0, [⟨0, 2, .ro⟩, ⟨16, 16, .rc⟩]⟩,
   ⟨0x10006018, 1, 0x4, 1, 0x4, .eng, 0x0, [⟨0, 32, .ro⟩]⟩,
   ⟨0x10006020, 1, 0x4, 1, 0x4, .eng, 0x0, [⟨0, 32, .rw⟩]⟩,
   ⟨0x1000601c, 1, 0x4, 1, 0x4, .eng, 0x0, [⟨0, 16, .ro⟩]⟩,
   ⟨0x10006024, 1, 0x4, 1, 0x4, .eng, 0x0, [⟨0, 3, .ro⟩, ⟨4, 2, .ro⟩, ⟨8, 24, .ro⟩]⟩,
   ⟨0x10006030, 3, 0x4, 1, 0x4, .eng, 0x0, [⟨0, 32, .ro⟩]⟩,
   ⟨0x10006040, 3, 0x4, 1, 0x4, .eng, 0x0, [⟨0, 32, .ro⟩]⟩,
   ⟨0x10006050, 1, 0x4, 1, 0x4, .eng, 0x0, [⟨0, 5, .rw⟩]⟩,
   ⟨0x10006054, 1, 0x4, 1, 0x4, .eng, 0x0, [⟨0, 32, .ro⟩]⟩,
   ⟨0x10006058, 1, 0x4, 1, 0x4, .ltx, 0x0, [⟨0, 32, .rc⟩]⟩,
   ⟨0x1000605c, 1, 0x4, 1, 0x4, .eng, 0x0, [⟨0, 32, .rc⟩]⟩]

/-- Register rows of SAP. -/
def rowsSap : List RegRow :=
  [⟨0x10007000, 8, 0x100, 1, 0x100, .eng, 0x0, [⟨0, 1, .rw⟩, ⟨1, 2, .ro⟩, ⟨3, 2, .rw⟩, ⟨5, 4, .rw⟩, ⟨9, 2, .rw⟩, ⟨11, 2, .rw⟩, ⟨13, 1, .rw⟩, ⟨14, 1, .rw⟩, ⟨15, 1, .rw⟩, ⟨16, 1, .rw⟩]⟩,
   ⟨0x10007004, 8, 0x100, 1, 0x100, .eng, 0x0, [⟨0, 1, .ro⟩, ⟨1, 1, .w1c⟩, ⟨2, 1, .ro⟩, ⟨3, 1, .ro⟩, ⟨4, 1, .ro⟩, ⟨5, 1, .w1c⟩]⟩,
   ⟨0x10007008, 8, 0x100, 1, 0x100, .sapm, 0xffffffff, [⟨0, 16, .rw⟩, ⟨16, 16, .rw⟩]⟩,
   ⟨0x1000700c, 8, 0x100, 1, 0x100, .sapm, 0x0, [⟨0, 16, .ro⟩, ⟨16, 16, .ro⟩]⟩,
   ⟨0x10007010, 8, 0x100, 1, 0x100, .eng, 0x0, [⟨0, 15, .ro⟩, ⟨15, 1, .ro⟩]⟩,
   ⟨0x10007014, 8, 0x100, 1, 0x100, .sapm, 0x0, [⟨0, 32, .rc⟩]⟩,
   ⟨0x10007800, 2, 0x80, 1, 0x80, .eng, 0x0, [⟨0, 1, .rw⟩, ⟨1, 1, .rw⟩, ⟨2, 2, .rw⟩, ⟨4, 1, .rw⟩]⟩,
   ⟨0x10007804, 2, 0x80, 1, 0x80, .eng, 0x0, [⟨0, 1, .ro⟩, ⟨1, 2, .ro⟩]⟩,
   ⟨0x10007808, 2, 0x80, 1, 0x80, .eng, 0x0, [⟨0, 8, .w1c⟩, ⟨8, 8, .w1c⟩, ⟨16, 8, .w1c⟩, ⟨24, 1, .w1c⟩]⟩,
   ⟨0x1000780c, 2, 0x80, 1, 0x80, .eng, 0x0, [⟨0, 8, .rw⟩, ⟨8, 8, .rw⟩, ⟨16, 8, .rw⟩, ⟨24, 1, .rw⟩]⟩]

/-- Register rows of CVD. -/
def rowsCvd : List RegRow :=
  [⟨0x10008000, 1, 0x4, 1, 0x4, .eng, 0x0, [⟨0, 1, .rw⟩, ⟨1, 2, .ro⟩]⟩,
   ⟨0x10008004, 1, 0x4, 1, 0x4, .keep, 0x0, [⟨0, 1, .ro⟩, ⟨1, 1, .ro⟩, ⟨2, 1, .ro⟩]⟩,
   ⟨0x10008008, 1, 0x4, 1, 0x4, .eng, 0x0, [⟨0, 8, .w1c⟩, ⟨8, 8, .w1c⟩, ⟨16, 1, .w1c⟩, ⟨17, 1, .w1c⟩, ⟨18, 1, .w1c⟩]⟩,
   ⟨0x1000800c, 1, 0x4, 1, 0x4, .eng, 0x0, [⟨0, 8, .rw⟩, ⟨8, 8, .rw⟩, ⟨16, 1, .rw⟩, ⟨17, 1, .rw⟩, ⟨18, 1, .rw⟩]⟩,
   ⟨0x10008010, 1, 0x4, 1, 0x4, .eng, 0x0, [⟨0, 12, .ro⟩, ⟨31, 1, .ro⟩]⟩,
   ⟨0x10008100, 16, 0x40, 1, 0x40, .eng, 0x0, [⟨0, 2, .rw⟩, ⟨2, 2, .rw⟩, ⟨4, 1, .rw⟩, ⟨5, 1, .rw⟩]⟩,
   ⟨0x10008104, 16, 0x40, 1, 0x40, .eng, 0x0, [⟨0, 18, .rw⟩]⟩,
   ⟨0x10008108, 16, 0x40, 1, 0x40, .eng, 0x0, [⟨0, 18, .ro⟩]⟩,
   ⟨0x1000810c, 16, 0x40, 1, 0x40, .eng, 0x1, [⟨0, 1, .ro⟩, ⟨1, 2, .ro⟩, ⟨3, 1, .w1c⟩, ⟨4, 1, .w1c⟩, ⟨5, 1, .ro⟩, ⟨6, 1, .ro⟩, ⟨7, 1, .w1c⟩]⟩,
   ⟨0x10008110, 16, 0x40, 1, 0x40, .eng, 0x0, [⟨0, 12, .ro⟩, ⟨31, 1, .ro⟩]⟩,
   ⟨0x10008114, 16, 0x40, 1, 0x40, .eng, 0x0, [⟨0, 32, .rc⟩]⟩,
   ⟨0x10008118, 16, 0x40, 1, 0x40, .eng, 0x0, [⟨0, 32, .rw⟩]⟩,
   ⟨0x1000811c, 16, 0x40, 1, 0x40, .eng, 0x0, [⟨0, 32, .rw⟩]⟩,
   ⟨0x10008120, 16, 0x40, 1, 0x40, .eng, 0x0, [⟨0, 28, .rw⟩]⟩,
   ⟨0x10008124, 16, 0x40, 1, 0x40, .eng, 0x0, [⟨0, 28, .rw⟩]⟩]

/-- Register rows of VOX. -/
def rowsVox : List RegRow :=
  [⟨0x10009000, 1, 0x4, 1, 0x4, .eng, 0x0, [⟨0, 1, .rw⟩, ⟨1, 2, .ro⟩]⟩,
   ⟨0x10009004, 1, 0x4, 1, 0x4, .eng, 0x0, [⟨0, 11, .ro⟩, ⟨11, 1, .ro⟩]⟩,
   ⟨0x10009008, 1, 0x4, 1, 0x4, .eng, 0x0, [⟨0, 1, .w1c⟩, ⟨1, 1, .w1c⟩, ⟨2, 1, .w1c⟩, ⟨3, 1, .w1c⟩, ⟨4, 1, .w1c⟩, ⟨5, 1, .w1c⟩, ⟨6, 1, .ro⟩]⟩,
   ⟨0x1000900c, 1, 0x4, 1, 0x4, .eng, 0x0, [⟨0, 1, .rw⟩, ⟨1, 1, .rw⟩, ⟨2, 1, .rw⟩, ⟨3, 1, .rw⟩, ⟨4, 1, .rw⟩, ⟨5, 1, .rw⟩, ⟨6, 1, .rw⟩]⟩,
   ⟨0x10009010, 1, 0x4, 1, 0x4, .eng, 0x0, [⟨0, 32, .wo⟩]⟩,
   ⟨0x10009014, 1, 0x4, 1, 0x4, .eng, 0x0, [⟨0, 32, .wo⟩]⟩,
   ⟨0x10009018, 1, 0x4, 1, 0x4, .eng, 0x0, [⟨0, 10, .ro⟩, ⟨16, 10, .ro⟩]⟩,
   ⟨0x1000901c, 1, 0x4, 1, 0x4, .eng, 0x0, [⟨0, 32, .rc⟩]⟩,
   ⟨0x10009020, 1, 0x4, 1, 0x4, .eng, 0x0, [⟨0, 32, .rc⟩]⟩,
   ⟨0x10009028, 1, 0x4, 1, 0x4, .eng, 0x0, [⟨0, 32, .rc⟩]⟩,
   ⟨0x10009024, 1, 0x4, 1, 0x4, .eng, 0x0, [⟨0, 7, .ro⟩, ⟨7, 1, .ro⟩, ⟨16, 10, .ro⟩]⟩,
   ⟨0x1000902c, 1, 0x4, 1, 0x4, .eng, 0x0, [⟨0, 32, .ro⟩]⟩,
   ⟨0x10009030, 1, 0x4, 1, 0x4, .eng, 0x0, [⟨0, 16, .rw⟩]⟩,
   ⟨0x10009034, 1, 0x4, 1, 0x4, .eng, 0x0, [⟨0, 1, .rw⟩]⟩,
   ⟨0x10009038, 1, 0x4, 1, 0x4, .eng, 0x108e80, [⟨0, 2, .rw⟩, ⟨2, 7, .rw⟩, ⟨9, 7, .rw⟩, ⟨16, 7, .rw⟩]⟩,
   ⟨0x1000903c, 1, 0x4, 1, 0x4, .eng, 0x0, [⟨0, 16, .rc⟩, ⟨16, 16, .rc⟩]⟩,
   ⟨0x10009040, 1, 0x4, 1, 0x4, .eng, 0x0, [⟨0, 24, .rc⟩, ⟨24, 2, .rc⟩, ⟨26, 1, .rc⟩, ⟨27, 1, .rc⟩, ⟨31, 1, .rc⟩]⟩,
   ⟨0x10009050, 2, 0x8, 1, 0x8, .eng, 0x0, [⟨0, 32, .rw⟩]⟩,
   ⟨0x10009054, 2, 0x8, 1, 0x8, .eng, 0x0, [⟨0, 32, .rw⟩]⟩,
   ⟨0x10009060, 2, 0x4, 1, 0x4, .eng, 0x0, [⟨0, 16, .rw⟩]⟩,
   ⟨0x10009070, 1, 0x4, 1, 0x4, .eng, 0x0, [⟨0, 9, .ro⟩, ⟨16, 9, .ro⟩]⟩,
   ⟨0x10009100, 16, 0x4, 1, 0x4, .eng, 0x0, [⟨0, 11, .rw⟩, ⟨11, 11, .rw⟩, ⟨22, 2, .rw⟩, ⟨24, 1, .rw⟩, ⟨25, 1, .rw⟩]⟩,
   ⟨0x10009140, 16, 0x4, 1, 0x4, .eng, 0x0, [⟨0, 11, .ro⟩, ⟨11, 11, .ro⟩]⟩,
   ⟨0x10009180, 16, 0x4, 1, 0x4, .eng, 0x0, [⟨0, 16, .rc⟩]⟩,
   ⟨0x100091c0, 1, 0x4, 1, 0x4, .eng, 0x0, [⟨0, 10, .rw⟩]⟩,
   ⟨0x100091c4, 1, 0x4, 1, 0x4, .eng, 0x0, [⟨0, 3, .ro⟩, ⟨3, 4, .ro⟩, ⟨7, 7, .ro⟩, ⟨14, 9, .ro⟩]⟩]

/-- Register rows of MOR. -/
def rowsMor : List RegRow :=
  [⟨0x1000a000, 1, 0x4, 1, 0x4, .eng, 0x0, [⟨0, 1, .rw⟩]⟩,
   ⟨0x1000a004, 1, 0x4, 1, 0x4, .eng, 0x0, [⟨0, 1, .ro⟩, ⟨1, 1, .ro⟩]⟩,
   ⟨0x1000a008, 1, 0x4, 1, 0x4, .eng, 0x0, [⟨0, 1, .w1c⟩, ⟨1, 1, .w1c⟩, ⟨2, 1, .w1c⟩, ⟨3, 1, .w1c⟩, ⟨4, 1, .w1c⟩]⟩,
   ⟨0x1000a00c, 1, 0x4, 1, 0x4, .eng, 0x0, [⟨0, 1, .rw⟩, ⟨1, 1, .rw⟩, ⟨2, 1, .rw⟩, ⟨3, 1, .rw⟩, ⟨4, 1, .rw⟩]⟩,
   ⟨0x1000a010, 1, 0x4, 1, 0x4, .eng, 0x0, [⟨0, 15, .ro⟩, ⟨16, 15, .ro⟩]⟩,
   ⟨0x1000a014, 1, 0x4, 1, 0x4, .eng, 0x0, [⟨0, 32, .rc⟩]⟩,
   ⟨0x1000a018, 1, 0x4, 1, 0x4, .eng, 0x0, [⟨0, 15, .ro⟩, ⟨16, 15, .ro⟩]⟩,
   ⟨0x1000a01c, 1, 0x4, 1, 0x4, .eng, 0x0, [⟨0, 32, .ro⟩]⟩,
   ⟨0x1000a020, 1, 0x4, 1, 0x4, .eng, 0x0, [⟨0, 32, .rc⟩]⟩,
   ⟨0x1000a030, 1, 0x4, 1, 0x4, .eng, 0x0, [⟨0, 15, .rw⟩]⟩,
   ⟨0x1000a034, 1, 0x4, 1, 0x4, .eng, 0x0, [⟨0, 32, .ro⟩]⟩,
   ⟨0x1000a038, 1, 0x4, 1, 0x4, .eng, 0x0, [⟨0, 11, .ro⟩, ⟨11, 1, .ro⟩, ⟨12, 1, .ro⟩, ⟨14, 15, .ro⟩, ⟨29, 1, .ro⟩, ⟨30, 1, .ro⟩]⟩,
   ⟨0x1000a100, 4, 0x10, 1, 0x10, .eng, 0x0, [⟨0, 32, .rw⟩]⟩,
   ⟨0x1000a104, 4, 0x10, 1, 0x10, .eng, 0x0, [⟨0, 32, .rw⟩]⟩,
   ⟨0x1000a108, 4, 0x10, 1, 0x10, .eng, 0x0, [⟨0, 28, .rw⟩]⟩,
   ⟨0x1000a140, 2, 0x4, 1, 0x4, .eng, 0x0, [⟨0, 28, .rw⟩]⟩,
   ⟨0x1000a148, 2, 0x4, 1, 0x4, .eng, 0x0, [⟨0, 28, .rw⟩]⟩,
   ⟨0x1000a158, 1, 0x4, 1, 0x4, .eng, 0x0, [⟨0, 28, .rw⟩]⟩,
   ⟨0x1000a150, 1, 0x4, 1, 0x4, .eng, 0x0, [⟨0, 32, .rw⟩]⟩,
   ⟨0x1000a154, 1, 0x4, 1, 0x4, .eng, 0x0, [⟨0, 16, .rw⟩]⟩,
   ⟨0x1000a200, 1, 0x4, 1, 0x4, .eng, 0x0, [⟨0, 1, .rw⟩, ⟨1, 1, .rw⟩, ⟨2, 2, .ro⟩, ⟨4, 2, .ro⟩, ⟨6, 1, .ro⟩]⟩,
   ⟨0x1000a204, 1, 0x4, 1, 0x4, .eng, 0x0, [⟨0, 32, .ro⟩]⟩,
   ⟨0x1000a208, 1, 0x4, 1, 0x4, .eng, 0x0, [⟨0, 24, .ro⟩]⟩,
   ⟨0x1000a20c, 1, 0x4, 1, 0x4, .eng, 0x0, [⟨0, 24, .ro⟩]⟩,
   ⟨0x1000a210, 1, 0x4, 1, 0x4, .eng, 0x0, [⟨0, 32, .rc⟩]⟩,
   ⟨0x1000a214, 1, 0x4, 1, 0x4, .eng, 0x0, [⟨0, 8, .rw⟩, ⟨8, 1, .rw⟩]⟩,
   ⟨0x1000a218, 1, 0x4, 1, 0x4, .eng, 0x0, [⟨0, 4, .rw⟩, ⟨4, 1, .rw⟩, ⟨31, 1, .rw⟩]⟩]

/-- Register rows of ENG, part 1. -/
def rowsEng0 : List RegRow :=
  [⟨0x1000b000, 28, 0x40, 1, 0x40, .eng, 0x1, [⟨0, 1, .rw⟩, ⟨1, 2, .ro⟩, ⟨8, 5, .ro⟩]⟩,
   ⟨0x1000b004, 28, 0x40, 1, 0x40, .eng, 0x0, [⟨0, 13, .rw⟩]⟩,
   ⟨0x1000b008, 28, 0x40, 1, 0x40, .eng, 0x7fff, [⟨0, 15, .ro⟩, ⟨16, 1, .w1c⟩, ⟨17, 1, .w1c⟩, ⟨18, 1, .w1c⟩, ⟨19, 1, .w1c⟩, ⟨20, 1, .w1c⟩]⟩,
   ⟨0x1000b00c, 28, 0x40, 1, 0x40, .eng, 0x0, [⟨0, 3, .ro⟩, ⟨3, 1, .ro⟩, ⟨16, 16, .rc⟩]⟩,
   ⟨0x1000b010, 28, 0x40, 1, 0x40, .eng, 0x0, [⟨0, 16, .ro⟩, ⟨16, 16, .ro⟩]⟩,
   ⟨0x1000b014, 28, 0x40, 1, 0x40, .eng, 0x0, [⟨0, 1, .wo⟩, ⟨1, 1, .ro⟩, ⟨2, 1, .w1c⟩]⟩,
   ⟨0x1000b018, 28, 0x40, 1, 0x40, .eng, 0x0, [⟨0, 12, .ro⟩, ⟨16, 12, .ro⟩, ⟨31, 1, .ro⟩]⟩,
   ⟨0x1000b800, 1, 0x4, 1, 0x4, .eng, 0x0, [⟨0, 32, .ro⟩]⟩,
   ⟨0x1000b804, 1, 0x4, 1, 0x4, .eng, 0x0, [⟨0, 2, .ro⟩, ⟨2, 1, .ro⟩, ⟨16, 15, .ro⟩]⟩,
   ⟨0x1000b808, 1, 0x4, 1, 0x4, .keep, 0xf0000, [⟨0, 4, .rw⟩, ⟨4, 8, .ro⟩, ⟨16, 4, .rw⟩]⟩,
   ⟨0x1000b810, 4, 0x4, 1, 0x4, .eng, 0x62c688, [⟨0, 18, .rw⟩, ⟨20, 3, .rw⟩, ⟨24, 7, .rw⟩]⟩,
   ⟨0x1000b820, 4, 0x4, 1, 0x4, .eng, 0x0, [⟨0, 3, .rw⟩, ⟨4, 3, .ro⟩, ⟨8, 1, .wo⟩, ⟨9, 1, .wo⟩, ⟨10, 1, .wo⟩, ⟨11, 1, .w1c⟩, ⟨12, 1, .rw⟩, ⟨13, 1, .wo⟩, ⟨16, 8, .ro⟩, ⟨24, 1, .ro⟩]⟩,
   ⟨0x1000b830, 4, 0x4, 1, 0x4, .eng, 0x0, [⟨0, 32, .rw⟩]⟩,
   ⟨0x1000b840, 1, 0x4, 1, 0x4, .eng, 0x0, [⟨0, 28, .w1c⟩]⟩,
   ⟨0x1000b844, 1, 0x4, 1, 0x4, .eng, 0x0, [⟨0, 28, .rw⟩]⟩,
   ⟨0x1000b848, 1, 0x4, 1, 0x4, .eng, 0x0, [⟨0, 28, .w1c⟩]⟩,
   ⟨0x1000b84c, 1, 0x4, 1, 0x4, .eng, 0x0, [⟨0, 28, .rw⟩]⟩,
   ⟨0x1000b850, 4, 0x4, 1, 0x4, .eng, 0x0, [⟨0, 32, .ro⟩]⟩,
   ⟨0x1000b860, 1, 0x4, 1, 0x4, .eng, 0x0, [⟨0, 32, .rc⟩]⟩,
   ⟨0x1000b870, 1, 0x4, 1, 0x4, .eng, 0x0, [⟨0, 12, .rw⟩, ⟨15, 1, .rw⟩]⟩,
   ⟨0x1000b874, 1, 0x4, 1, 0x4, .eng, 0x0, [⟨0, 9, .ro⟩, ⟨16, 5, .ro⟩, ⟨31, 1, .ro⟩]⟩,
   ⟨0x1000b878, 1, 0x4, 1, 0x4, .eng, 0x0, [⟨0, 1, .w1c⟩]⟩,
   ⟨0x1000b880, 4, 0x10, 1, 0x10, .eng, 0x0, [⟨0, 24, .rw⟩, ⟨24, 1, .rw⟩, ⟨25, 1, .rw⟩, ⟨26, 1, .rw⟩]⟩,
   ⟨0x1000b884, 4, 0x10, 1, 0x10, .eng, 0x0, [⟨0, 32, .rw⟩]⟩,
   ⟨0x1000b888, 4, 0x10, 1, 0x10, .eng, 0x0, [⟨0, 1, .wo⟩, ⟨1, 1, .wo⟩, ⟨2, 1, .ro⟩, ⟨3, 1, .ro⟩]⟩,
   ⟨0x1000b8c0, 1, 0x4, 1, 0x4, .eng, 0x0, [⟨0, 1, .rw⟩]⟩,
   ⟨0x1000b8c4, 1, 0x4, 1, 0x4, .eng, 0x0, [⟨0, 4, .w1c⟩, ⟨4, 4, .w1c⟩, ⟨8, 4, .w1c⟩, ⟨12, 1, .w1c⟩, ⟨13, 1, .w1c⟩]⟩,
   ⟨0x1000b8c8, 1, 0x4, 1, 0x4, .eng, 0x0, [⟨0, 4, .rw⟩, ⟨4, 4, .rw⟩, ⟨8, 4, .rw⟩, ⟨12, 1, .rw⟩, ⟨13, 1, .rw⟩]⟩,
   ⟨0x1000b8cc, 1, 0x4, 1, 0x4, .eng, 0x0, [⟨0, 32, .ro⟩]⟩,
   ⟨0x1000b8d0, 1, 0x4, 1, 0x4, .eng, 0x0, [⟨0, 27, .ro⟩]⟩]

/-- Register rows of ENG, part 2. -/
def rowsEng1 : List RegRow :=
  [⟨0x1000b8d4, 1, 0x4, 1, 0x4, .eng, 0x0, [⟨0, 24, .ro⟩]⟩]

/-- Register rows of ENG. -/
def rowsEng : List RegRow := rowsEng0 ++ rowsEng1

/-- Register rows of YRD. -/
def rowsYrd : List RegRow :=
  [⟨0x1000c000, 1, 0x4, 1, 0x4, .eng, 0x0, [⟨0, 1, .w1c⟩, ⟨1, 1, .w1c⟩, ⟨2, 1, .w1c⟩, ⟨3, 1, .w1c⟩, ⟨4, 1, .w1c⟩, ⟨5, 1, .w1c⟩]⟩,
   ⟨0x1000c004, 1, 0x4, 1, 0x4, .eng, 0x0, [⟨0, 1, .rw⟩, ⟨1, 1, .rw⟩, ⟨2, 1, .rw⟩, ⟨3, 1, .rw⟩, ⟨4, 1, .rw⟩, ⟨5, 1, .rw⟩]⟩,
   ⟨0x1000c008, 1, 0x4, 1, 0x4, .eng, 0x0, [⟨0, 1, .w1c⟩, ⟨1, 4, .ro⟩]⟩,
   ⟨0x1000c00c, 1, 0x4, 1, 0x4, .eng, 0x0, [⟨0, 13, .ro⟩, ⟨13, 3, .ro⟩, ⟨16, 5, .ro⟩]⟩,
   ⟨0x1000c010, 4, 0x4, 1, 0x4, .eng, 0x0, [⟨0, 32, .rc⟩]⟩,
   ⟨0x1000c020, 4, 0x4, 1, 0x4, .eng, 0x0, [⟨0, 32, .rc⟩]⟩,
   ⟨0x1000c030, 1, 0x4, 1, 0x4, .eng, 0x0, [⟨0, 22, .ro⟩, ⟨22, 2, .ro⟩, ⟨24, 1, .ro⟩, ⟨25, 3, .ro⟩]⟩,
   ⟨0x1000c040, 1, 0x4, 1, 0x4, .eng, 0x0, [⟨0, 5, .rw⟩]⟩,
   ⟨0x1000c044, 1, 0x4, 1, 0x4, .eng, 0x0, [⟨0, 16, .rc⟩, ⟨16, 8, .rc⟩]⟩,
   ⟨0x1000c060, 4, 0x4, 1, 0x4, .eng, 0x8000, [⟨0, 8, .rw⟩, ⟨8, 1, .wo⟩, ⟨9, 2, .ro⟩, ⟨12, 4, .ro⟩, ⟨16, 8, .ro⟩, ⟨24, 1, .w1c⟩]⟩,
   ⟨0x1000c070, 1, 0x4, 1, 0x4, .eng, 0x0, [⟨0, 8, .rw⟩, ⟨8, 2, .rw⟩]⟩,
   ⟨0x1000c074, 1, 0x4, 1, 0x4, .eng, 0x0, [⟨0, 9, .ro⟩, ⟨12, 1, .ro⟩, ⟨13, 2, .ro⟩]⟩,
   ⟨0x1000c080, 1, 0x4, 1, 0x4, .eng, 0x10f, [⟨0, 4, .rw⟩, ⟨8, 8, .rw⟩]⟩,
   ⟨0x1000c084, 1, 0x4, 1, 0x4, .eng, 0x0, [⟨0, 4, .ro⟩, ⟨4, 4, .ro⟩, ⟨8, 24, .ro⟩]⟩,
   ⟨0x1000c088, 1, 0x4, 1, 0x4, .eng, 0x0, [⟨0, 32, .rc⟩]⟩,
   ⟨0x1000c090, 4, 0x4, 1, 0x4, .eng, 0x0, [⟨0, 22, .ro⟩, ⟨31, 1, .ro⟩]⟩,
   ⟨0x1000c0a0, 1, 0x4, 1, 0x4, .eng, 0x0, [⟨0, 10, .rw⟩]⟩,
   ⟨0x1000c0a4, 1, 0x4, 1, 0x4, .eng, 0x0, [⟨0, 22, .ro⟩, ⟨31, 1, .ro⟩]⟩,
   ⟨0x1000c0a8, 1, 0x4, 1, 0x4, .eng, 0x0, [⟨0, 22, .ro⟩, ⟨31, 1, .ro⟩]⟩,
   ⟨0x1000c0ac, 1, 0x4, 1, 0x4, .eng, 0x0, [⟨0, 20, .ro⟩, ⟨20, 1, .ro⟩]⟩,
   ⟨0x1000c0b0, 1, 0x4, 1, 0x4, .eng, 0x0, [⟨0, 20, .rw⟩, ⟨20, 1, .rw⟩]⟩,
   ⟨0x1000c0b4, 1, 0x4, 1, 0x4, .eng, 0x0, [⟨0, 20, .ro⟩, ⟨20, 9, .ro⟩, ⟨29, 1, .w1c⟩, ⟨30, 1, .w1c⟩]⟩,
   ⟨0x1000c0b8, 1, 0x4, 1, 0x4, .eng, 0x0, [⟨0, 10, .ro⟩, ⟨31, 1, .ro⟩]⟩,
   ⟨0x1000c100, 16, 0x20, 1, 0x20, .eng, 0x0, [⟨0, 32, .wo⟩]⟩,
   ⟨0x1000c104, 16, 0x20, 1, 0x20, .eng, 0x0, [⟨0, 32, .wo⟩]⟩,
   ⟨0x1000c108, 16, 0x20, 1, 0x20, .eng, 0x0, [⟨0, 32, .wo⟩]⟩,
   ⟨0x1000c10c, 16, 0x20, 1, 0x20, .eng, 0x0, [⟨0, 32, .wo⟩]⟩,
   ⟨0x1000c110, 16, 0x20, 1, 0x20, .eng, 0x0, [⟨0, 4, .ro⟩, ⟨4, 1, .ro⟩, ⟨5, 1, .w1c⟩, ⟨6, 1, .w1c⟩, ⟨16, 16, .rc⟩]⟩,
   ⟨0x1000c300, 1, 0x4, 1, 0x4, .eng, 0x0, [⟨0, 16, .w1c⟩]⟩,
   ⟨0x1000c304, 1, 0x4, 1, 0x4, .eng, 0x0, [⟨0, 16, .rw⟩]⟩]

/-- Register rows of XBR. -/
def rowsXbr : List RegRow :=
  [⟨0x1000d000, 1, 0x4, 1, 0x4, .ctl, 0x0, [⟨0, 1, .w1c⟩, ⟨1, 1, .w1c⟩, ⟨2, 1, .w1c⟩]⟩,
   ⟨0x1000d004, 1, 0x4, 1, 0x4, .ctl, 0x0, [⟨0, 1, .rw⟩, ⟨1, 1, .rw⟩, ⟨2, 1, .rw⟩]⟩,
   ⟨0x1000d008, 1, 0x4, 1, 0x4, .ctl, 0x0, [⟨0, 32, .ro⟩]⟩,
   ⟨0x1000d00c, 1, 0x4, 1, 0x4, .ctl, 0x0, [⟨0, 3, .ro⟩, ⟨3, 1, .ro⟩, ⟨4, 3, .ro⟩, ⟨31, 1, .ro⟩]⟩,
   ⟨0x1000d010, 1, 0x4, 1, 0x4, .ctl, 0x0, [⟨0, 16, .rc⟩, ⟨16, 16, .rc⟩]⟩,
   ⟨0x1000d020, 1, 0x4, 1, 0x4, .ctl, 0x0, [⟨0, 4, .rw⟩]⟩,
   ⟨0x1000d100, 16, 0x4, 1, 0x4, .ctl, 0x0, [⟨0, 1, .rw⟩, ⟨4, 3, .ro⟩]⟩,
   ⟨0x1000d200, 4, 0x20, 1, 0x20, .ctl, 0x0, [⟨0, 32, .rw⟩]⟩,
   ⟨0x1000d204, 4, 0x20, 1, 0x20, .ctl, 0x0, [⟨0, 32, .ro⟩]⟩,
   ⟨0x1000d208, 4, 0x20, 1, 0x20, .ctl, 0x0, [⟨0, 1, .w1c⟩, ⟨26, 6, .w1c⟩]⟩,
   ⟨0x1000d20c, 4, 0x20, 1, 0x20, .ctl, 0x0, [⟨26, 6, .wo⟩]⟩,
   ⟨0x1000d210, 4, 0x20, 1, 0x20, .ctl, 0x3f, [⟨0, 6, .ro⟩]⟩]

/-- Register rows of LOG. -/
def rowsLog : List RegRow :=
  [⟨0x1000e000, 1, 0x4, 1, 0x4, .keep, 0x2, [⟨0, 1, .rw⟩, ⟨1, 1, .rw⟩]⟩,
   ⟨0x1000e004, 1, 0x4, 1, 0x4, .keep, 0x0, [⟨0, 1, .ro⟩, ⟨1, 1, .ro⟩, ⟨2, 1, .ro⟩, ⟨16, 14, .ro⟩]⟩,
   ⟨0x1000e008, 1, 0x4, 1, 0x4, .keep, 0x0, [⟨0, 1, .w1c⟩, ⟨1, 1, .w1c⟩, ⟨2, 1, .w1c⟩, ⟨3, 1, .w1c⟩, ⟨4, 1, .w1c⟩]⟩,
   ⟨0x1000e00c, 1, 0x4, 1, 0x4, .keep, 0x0, [⟨0, 1, .rw⟩, ⟨1, 1, .rw⟩, ⟨2, 1, .rw⟩, ⟨3, 1, .rw⟩, ⟨4, 1, .rw⟩]⟩,
   ⟨0x1000e010, 1, 0x4, 1, 0x4, .keep, 0x0, [⟨0, 8, .rw⟩]⟩,
   ⟨0x1000e014, 1, 0x4, 1, 0x4, .keep, 0x0, [⟨0, 13, .rw⟩]⟩,
   ⟨0x1000e018, 1, 0x4, 1, 0x4, .keep, 0x0, [⟨0, 16, .ro⟩, ⟨16, 16, .ro⟩]⟩,
   ⟨0x1000e01c, 1, 0x4, 1, 0x4, .keep, 0x400, [⟨0, 16, .ro⟩, ⟨16, 16, .ro⟩]⟩,
   ⟨0x1000e020, 1, 0x4, 1, 0x4, .keep, 0x0, [⟨0, 16, .ro⟩, ⟨16, 16, .ro⟩]⟩,
   ⟨0x1000e024, 1, 0x4, 1, 0x4, .keep, 0x0, [⟨0, 13, .ro⟩, ⟨16, 1, .ro⟩, ⟨17, 1, .ro⟩, ⟨18, 1, .ro⟩, ⟨19, 1, .ro⟩]⟩,
   ⟨0x1000e040, 8, 0x4, 1, 0x4, .keep, 0x0, [⟨0, 32, .ro⟩]⟩,
   ⟨0x1000e090, 4, 0x4, 1, 0x4, .keep, 0x0, [⟨0, 32, .ro⟩]⟩,
   ⟨0x1000e060, 8, 0x4, 1, 0x4, .keep, 0x0, [⟨0, 16, .ro⟩]⟩,
   ⟨0x1000e080, 1, 0x4, 1, 0x4, .keep, 0x0, [⟨0, 32, .wo⟩]⟩,
   ⟨0x1000e084, 1, 0x4, 1, 0x4, .keep, 0x0, [⟨0, 1, .wk⟩, ⟨1, 1, .wk⟩]⟩,
   ⟨0x1000e088, 1, 0x4, 1, 0x4, .keep, 0x0, [⟨0, 16, .rc⟩, ⟨16, 16, .rc⟩]⟩,
   ⟨0x1000e0a0, 1, 0x4, 1, 0x4, .keep, 0x0, [⟨0, 16, .rc⟩, ⟨16, 16, .rc⟩]⟩,
   ⟨0x1000e0b0, 1, 0x4, 1, 0x4, .keep, 0x0, [⟨0, 16, .wo⟩]⟩,
   ⟨0x1000e0b4, 3, 0x4, 1, 0x4, .keep, 0x0, [⟨0, 32, .rw⟩]⟩,
   ⟨0x1000e0c0, 1, 0x4, 1, 0x4, .keep, 0x0, [⟨0, 8, .rw⟩]⟩,
   ⟨0x1000e0c4, 1, 0x4, 1, 0x4, .keep, 0x0, [⟨0, 32, .ro⟩]⟩]

/-- Register rows of PCT. -/
def rowsPct : List RegRow :=
  [⟨0x1000f000, 1, 0x4, 1, 0x4, .eng, 0x0, [⟨0, 8, .rw⟩, ⟨8, 1, .rw⟩]⟩,
   ⟨0x1000f008, 1, 0x4, 1, 0x4, .eng, 0x0, [⟨0, 32, .ro⟩]⟩,
   ⟨0x1000f00c, 1, 0x4, 1, 0x4, .eng, 0x0, [⟨0, 32, .ro⟩]⟩,
   ⟨0x1000f010, 1, 0x4, 1, 0x4, .eng, 0x0, [⟨0, 8, .w1c⟩, ⟨8, 8, .w1c⟩]⟩,
   ⟨0x1000f014, 1, 0x4, 1, 0x4, .eng, 0x0, [⟨0, 8, .rw⟩, ⟨8, 1, .rw⟩]⟩,
   ⟨0x1000f020, 8, 0x4, 1, 0x4, .eng, 0x0, [⟨0, 10, .rw⟩, ⟨10, 2, .rw⟩, ⟨12, 1, .rw⟩, ⟨13, 1, .w1c⟩]⟩,
   ⟨0x1000f040, 8, 0x4, 1, 0x4, .eng, 0x0, [⟨0, 32, .rw⟩]⟩,
   ⟨0x1000f060, 8, 0x4, 1, 0x4, .eng, 0x0, [⟨0, 32, .ro⟩]⟩,
   ⟨0x1000f080, 8, 0x4, 1, 0x4, .eng, 0x0, [⟨0, 22, .ro⟩, ⟨31, 1, .ro⟩]⟩]

/-- Register rows of FRZ. -/
def rowsFrz : List RegRow :=
  [⟨0x10010000, 1, 0x4, 1, 0x4, .keep, 0x2, [⟨0, 1, .wk⟩, ⟨1, 1, .rw⟩, ⟨2, 1, .rw⟩]⟩,
   ⟨0x10010004, 1, 0x4, 1, 0x4, .keep, 0x0, [⟨0, 32, .wo⟩]⟩,
   ⟨0x10010008, 1, 0x4, 1, 0x4, .keep, 0x0, [⟨0, 3, .ro⟩, ⟨3, 2, .ro⟩, ⟨5, 1, .ro⟩, ⟨8, 8, .ro⟩, ⟨16, 8, .ro⟩]⟩]

/-- Register rows of MISC. -/
def rowsMisc : List RegRow :=
  [⟨0x10011000, 1, 0x4, 1, 0x4, .ctl, 0x0, [⟨0, 16, .rw⟩, ⟨16, 16, .rw⟩]⟩,
   ⟨0x10011004, 1, 0x4, 1, 0x4, .ctl, 0x0, [⟨0, 16, .rw⟩]⟩,
   ⟨0x10011008, 1, 0x4, 1, 0x4, .ctl, 0x0, [⟨0, 16, .ro⟩]⟩,
   ⟨0x1001100c, 1, 0x4, 1, 0x4, .ctl, 0x0, [⟨0, 16, .rw⟩, ⟨16, 16, .rw⟩]⟩,
   ⟨0x10011010, 1, 0x4, 1, 0x4, .ctl, 0x0, [⟨0, 16, .w1c⟩, ⟨16, 1, .w1c⟩]⟩,
   ⟨0x10011014, 1, 0x4, 1, 0x4, .eng, 0x0, [⟨0, 16, .rw⟩, ⟨16, 16, .rw⟩]⟩,
   ⟨0x10011018, 1, 0x4, 1, 0x4, .eng, 0x0, [⟨0, 32, .rw⟩]⟩,
   ⟨0x1001101c, 1, 0x4, 1, 0x4, .eng, 0x0, [⟨0, 1, .wo⟩, ⟨1, 1, .ro⟩]⟩,
   ⟨0x10011100, 2, 0x80, 1, 0x80, .ctl, 0x0, [⟨0, 1, .rw⟩, ⟨1, 2, .ro⟩, ⟨3, 1, .rw⟩, ⟨4, 1, .rw⟩, ⟨5, 1, .wo⟩]⟩,
   ⟨0x10011104, 2, 0x80, 1, 0x80, .ctl, 0x0, [⟨0, 7, .rw⟩, ⟨8, 5, .rw⟩, ⟨16, 5, .rw⟩, ⟨31, 1, .wo⟩]⟩,
   ⟨0x10011108, 2, 0x80, 1, 0x80, .ctl, 0x600, [⟨0, 1, .ro⟩, ⟨1, 1, .w1c⟩, ⟨2, 1, .w1c⟩, ⟨3, 1, .w1c⟩, ⟨4, 5, .ro⟩, ⟨9, 1, .ro⟩, ⟨10, 1, .ro⟩]⟩,
   ⟨0x10011110, 2, 0x80, 4, 0x4, .ctl, 0x0, [⟨0, 32, .rw⟩]⟩,
   ⟨0x10011200, 1, 0x4, 1, 0x4, .ctl, 0x1000, [⟨0, 1, .rw⟩, ⟨1, 2, .ro⟩, ⟨8, 7, .rw⟩, ⟨15, 1, .rw⟩]⟩,
   ⟨0x10011204, 1, 0x4, 1, 0x4, .ctl, 0x0, [⟨0, 8, .wo⟩]⟩,
   ⟨0x10011208, 1, 0x4, 1, 0x4, .ctl, 0x100, [⟨0, 7, .ro⟩, ⟨8, 1, .ro⟩, ⟨9, 1, .w1c⟩, ⟨10, 1, .ro⟩, ⟨11, 1, .ro⟩]⟩]

/-- The rows of the 4 KiB block an address lies in (R35). -/
def rowsOf (a : Nat) : List RegRow :=
  match a / 0x1000 with
  | 0x10000 => rowsBtl
  | 0x10001 => rowsRef
  | 0x10002 => rowsTim
  | 0x10003 => rowsChnx
  | 0x10004 => rowsChnx
  | 0x10005 => rowsChn
  | 0x10006 => rowsPair
  | 0x10007 => rowsSap
  | 0x10008 => rowsCvd
  | 0x10009 => rowsVox
  | 0x1000a => rowsMor
  | 0x1000b => rowsEng
  | 0x1000c => rowsYrd
  | 0x1000d => rowsXbr
  | 0x1000e => rowsLog
  | 0x1000f => rowsPct
  | 0x10010 => rowsFrz
  | 0x10011 => rowsMisc
  | _ => []

/-- The row of the register at an address, if a register stands there. -/
def regRow (a : Nat) : Option RegRow := (rowsOf a).find? (·.has a)

/-- ROLE and SEAT of a course before an image's seat map applies: course `i` of wall `w` holds seat 6w + i, and course 6 is
the spare, with seat 31 (R114). -/
def modeSeat (c : Nat) : Nat := if c % 7 = 6 then 0x1F02 else 0x100 * (6 * (c / 7) + c % 7)

/-- What a register reads at reset, before anything is written to it; 0 where no register stands (R13). -/
def regReset (a : Nat) : Word :=
  match regRow a with
  | some r => BitVec.ofNat 32 (r.reset + if r.base = 0x1000b000 then modeSeat ((a - 0x1000b000) / 64) else 0)
  | none => 0

/-- The clock domain that holds a register; CTL where none stands. -/
def regDom (a : Nat) : Dom :=
  match regRow a with
  | some r => r.dom
  | none => .ctl

end Sys2Proof.Machine
end

