-- ==== Sys2Proof/Machine/StBoot.lean ====
section
/-! DEFINITION. The state of the loader and of the plug and supply monitors (14_image_boot_and_plug.md) beside their
registers. -/

namespace Sys2Proof.Machine

/-- An entry of the section table (R411). -/
structure SecRow where
  type : Nat
  flags : Nat
  offset : Nat
  size : Nat
  crc : Nat
  deriving DecidableEq, Repr

/-- The image that pass 1 chose (R415): its slot, section table, ROLE word, GENERATION, IDENT, and whether it is on trial. -/
structure Chosen where
  slotB : Bool
  table : List SecRow
  role : Word
  gen : Word
  ident : Word
  trial : Bool
  deriving DecidableEq, Repr

/-- A flash command in progress (R409). -/
structure FlashCmd where
  word : Word
  addr : Word
  write : Bool
  bytes : List Byte
  len : Nat
  deriving DecidableEq, Repr

/-- The loader, and the balls it drives. -/
structure Boot where
  /-- The last write of the BTL block was the key (R421). -/
  key : Bool
  /-- ROLE straps as sampled by the last discovery, and that discovery is done. -/
  sampled : Bool
  chosen : Option Chosen
  /-- BTL_TRIAL and BTL_TRIALGEN as this start found them (R414). -/
  tried : Word × Word
  /-- Pass 2 has placed the last section. -/
  placed : Bool
  /-- Cores whose FW section is present (R412). -/
  fw : List (Fin 4)
  /-- The scene library's region of SHARED, and the other regions the image declares, as first address and length (R412). -/
  library : Option (Nat × Nat)
  shared : List (Nat × Nat)
  flash : Option FlashCmd
  /-- `ALERT_N` is asserted for NOIMAGE or HOLD (R420). -/
  alert : Bool
  /-- Rails below their reset threshold hold the die in reset (R429). -/
  low : List ResetRail
  deriving DecidableEq, Repr

/-- The loader after die reset. -/
def Boot.reset : Boot where
  key := false
  sampled := false
  chosen := none
  tried := (0, 0)
  placed := false
  fw := []
  library := none
  shared := []
  flash := none
  alert := false
  low := []

end Sys2Proof.Machine
end

