-- ==== Sys2Proof/Machine/StChain.lean ====
section
/-! DEFINITION. The state of the chain ports and the frame engine (08_chain_ports_and_frames.md) beside their registers. -/

namespace Sys2Proof.Machine

/-- A header H0 to H14 as blocks 1 to 15 of a container (R242), and a pallet's 15 blocks (R245). -/
abbrev Blocks := Vector Block 15

/-- A load in a lane's queue (R261, R262, R267). -/
structure QLoad where
  /-- The port whose queue holds it. -/
  port : PortId
  /-- This die originated it. -/
  own : Bool
  ld : Load
  deriving DecidableEq, Repr

/-- A chain port (R234 to R244, R270 to R276). -/
structure Port where
  framesLeft : Nat
  /-- The port has lost its start blocks (R270). -/
  silent : Bool
  /-- The last header received on the port, whether its HCRC was good, and the lowest of its start block's last three bytes:
  ring, Gen-1, RETURN (R239). -/
  hdr : Option Blocks
  hdrGood : Bool
  startIn : Byte
  /-- LTX cycle count of its arrival, and of the last STAMP's arrival; that STAMP. -/
  arrival : Word
  stampAt : Word
  stamp : Word
  /-- Consecutive good containers without RETURN that carry the ring's MPOS, and with RETURN (R272, R276). -/
  good : Nat
  goodReturn : Nat
  /-- The header of the container last sent on the port, and that byte of its start block (R239). -/
  out : Option Blocks
  startOut : Byte
  /-- Blocks freed per lane from the queues this port fills (R263). -/
  freed : Vector (BitVec 16) 4
  /-- Slots extracted, pallets owned: `2 * own + ext` by slot (R251). -/
  map : SMap (BitVec 2)
  deriving DecidableEq, Repr

/-- A pallet copy in the store (R254, R256): index, frame sequence, origin, the slots kept and their quarters. -/
structure Copy where
  idx : Nat
  seq : BitVec 16
  origin : BitVec 9
  mask : BitVec 32
  slots : Vector Quarter 32
  deriving DecidableEq, Repr

/-- Duplicate removal of loads (R265): highest SEQ delivered and the 64 below it. -/
structure Seen where
  top : BitVec 16
  below : BitVec 64
  deriving DecidableEq, Repr

/-- What a port has received for the frame engine while ENG stands still, and holds for it (R26): a start block whose
header is good, with whether it came on the forward input, a pallet, or the payload of a note load. -/
inductive ChainRx
  | start (p : PortId) (fwd : Bool) (hdr : Blocks) (toFt : Nat)
  | pallet (path : PalletPath) (blocks : Blocks) (cycle : Nat)
  | note (payload : List Block)
  deriving DecidableEq, Repr

/-- The frame engine. -/
structure Chain where
  n : Port
  s : Port
  /-- Map changes that take effect at the next FT: port, slot, value (R251). -/
  mapNext : List (PortId × Nat × BitVec 2)
  /-- What waits for ENG to run again (R26). -/
  waiting : List ChainRx
  /-- The last good header of the forward input (R250). -/
  fwdGood : Option Blocks
  /-- TIME at the last FT: seconds and nanoseconds (R335). -/
  ftSec : BitVec 48
  ftNs : Word
  /-- The chain sequence computed for the coming FT, consecutive mismatches, and an adoption asked for (R250). -/
  computed : Option Word
  mismatch : Nat
  adopt : Bool
  /-- Pallets of the coming insertions: their sequence and the sinks gathered for it (R252). -/
  ready : Option (BitVec 16 × SMap Quarter)
  /-- Returned copies the master holds to resend (R253). -/
  held : SMap Blocks
  /-- Pallets the die itself puts into the container being sent, by index; the others pass as they came, or leave EMPTY. -/
  pallets : SMap Blocks
  /-- The container being sent is one the die originates; the LTX cycle of its launch (R247, R269). -/
  originating : Bool
  launched : Word
  /-- Blocks of the container being forwarded that leave as the error idle block (R241). -/
  errors : List (BitVec 13)
  store : List Copy
  /-- What each extracted slot last presented, and the consecutive frames that brought it no quarter, to 3 (R257). -/
  shown : SMap Quarter
  missing : SMap Nat
  /-- A pallet was counted late or missing since the last window closed (R257). -/
  lateNow : Bool
  plate : Bool
  dupPos : Bool
  /-- The container in progress when the fence took effect still takes insertions and loads (R298, R302). -/
  grace : Bool
  /-- Frames for which the ELECT alarm is still raised, and ALARM_ACC of the last returned container (R247, R269). -/
  electLeft : Nat
  returned : BitVec 16
  /-- The near wrap point sends on both ports; a stream on reverse in is repeated (R270, R272). -/
  healing : Bool
  /-- The healed port has reported TAKEN, or its Gen-1 equal: the near wrap point stops at its next container (R272, R276). -/
  stopNext : Bool
  repeating : Bool
  queue : List QLoad
  /-- The load being sent and the blocks of it already sent; the last block sent (R262). -/
  sending : Option (QLoad × Nat)
  lastBlock : Option Block
  /-- Load blocks started across a Gen-1 wrap in the present container (R276). -/
  wrapBlocks : Nat
  seen : SMap Seen
  /-- Frames since the last start block on the forward input (R269). -/
  quiet : Nat
  /-- Header DELAY of the last forward header, and whether one has been seen (R337). -/
  lastDelay : Option (BitVec 48)
  deriving DecidableEq, Repr

/-- A port after die reset. -/
def Port.reset : Port where
  framesLeft := 0
  silent := false
  hdr := none
  hdrGood := false
  startIn := 0
  arrival := 0
  stampAt := 0
  stamp := 0
  good := 0
  goodReturn := 0
  out := none
  startOut := 0
  freed := Vector.replicate 4 0
  map := []

/-- The frame engine after die reset, before the image. -/
def Chain.reset : Chain where
  n := Port.reset
  s := Port.reset
  mapNext := []
  waiting := []
  fwdGood := none
  ftSec := 0
  ftNs := 0
  computed := none
  mismatch := 0
  adopt := false
  ready := none
  held := []
  pallets := []
  originating := false
  launched := 0
  errors := []
  store := []
  shown := []
  missing := []
  lateNow := false
  plate := false
  dupPos := false
  grace := false
  electLeft := 0
  returned := 0
  healing := false
  stopNext := false
  repeating := false
  queue := []
  sending := none
  lastBlock := none
  wrapBlocks := 0
  seen := []
  quiet := 0
  lastDelay := none

end Sys2Proof.Machine
end

