-- ==== Sys2Proof/Machine/StMortar.lean ====
section
/-! DEFINITION. The state of the Mortar, its generators and rate bridges (05_mortar_and_rate_bridges.md) and of the swap
slots (06_mix_kernels_and_scenes.md), beside their registers. -/

namespace Sys2Proof.Machine

/-- A fade of a sink (R162, R163): outgoing and incoming entry, and the fade frames done. -/
structure Fade where
  old : Word
  new : Word
  pos : Nat
  deriving DecidableEq, Repr

/-- What a bridge direction does with its output (R177, R178). -/
inductive BrRamp
  /-- Zero, waiting for lock or idle. -/
  | zero
  /-- Fading in over 256 output samples. -/
  | fadeIn
  | full
  /-- Ramping to zero over `len` output samples, from the factor `num / den`. -/
  | down (len num den : Nat)
  deriving DecidableEq, Repr

/-- One direction of the rate bridge (R174 to R179). -/
structure Bridge where
  ramp : BrRamp
  /-- Output frames of the ramp that have been taken. -/
  pos : Nat
  /-- Output samples of the present input period, and the part of an output period left over after it and before it, in units of
  2^-24 of an input period or of the ratio. -/
  n : Nat
  acc : Nat
  acc0 : Nat
  /-- The first input period since the lock has set the phase. -/
  phased : Bool
  /-- Channel of the latest sample: a sample of no higher channel opens the next input period. -/
  lastCh : Nat
  /-- The phase fraction of the latest output sample. -/
  phi : BitVec 24
  /-- Latest input samples per channel, newest first. -/
  hist : SMap (List Quarter)
  /-- Output samples per channel before the ramp: the one presented, and those of later output frames. -/
  cur : SMap Quarter
  out : SMap (List Quarter)
  /-- MODEL'S OWN: the count of free values at the latest output frame. -/
  mark : Nat
  deriving DecidableEq, Repr

/-- The Mortar (R147 to R180). -/
structure Mortar where
  /-- Route table by sink: front, back, and the entries in force (R162). -/
  front : SMap Word
  back : SMap Word
  inForce : SMap Word
  fades : SMap Fade
  /-- What the last window gathered, by sink. -/
  sinks : SMap Quarter
  /-- Party-wall outbound channels gathered in the last two windows, with their frame sequence, newest first. -/
  pwOut : List (Nat × SMap Quarter)
  /-- MORW writes that wait for the mirror reload (R151). -/
  waiting : List (Nat × Word)
  /-- Generator registers in force since the last FT, by address (R170). -/
  gens : SMap Word
  /-- State of the pink filters (R168), whose form the manual leaves open. -/
  pink : Vector (BitVec 128) 2
  /-- Bridge map by `256 * direction + channel` (R174). -/
  brMap : SMap Word
  /-- MAIN-to-SIDE and SIDE-to-MAIN. -/
  m2s : Bridge
  s2m : Bridge
  /-- The ratio f_SIDE / f_MAIN that the bridges track, as unsigned 8.24 (R175, R177). -/
  ratio : Word
  /-- Sinks with a fade running or a change waiting at the end of the last window (R165). -/
  total : Nat
  deriving DecidableEq, Repr

/-- A swap slot as the lead sends it (R197). -/
structure LeadSlot where
  mask : BitVec 27
  frame : Word
  armed : Bool
  deriving DecidableEq, Repr

/-- A group of a recall that waits for its slot's DONE (R201). -/
structure SceneWait where
  slot : Fin 4
  group : SceneGroup
  target : Nat
  flag : Bool
  deriving DecidableEq, Repr

/-- Swap state beside the die's own slot registers (R197 to R201). -/
structure Swap where
  /-- The adopted lead slots, which a follow executes. -/
  lead : Vector LeadSlot 4
  /-- Slot states received from the lead, with the frame at whose end they stood. -/
  inbox : List (Nat × Vector LeadSlot 4)
  /-- The image's scene library and the show's CRC-32. -/
  scenes : List Scene
  show_ : Word
  /-- Slots that a recall has armed. -/
  armedBy : List (Fin 4)
  /-- Slots of an older recall that could not be disarmed and are not DONE yet (R201). -/
  stuck : List (Fin 4)
  waits : List SceneWait
  deriving DecidableEq, Repr

/-- A bridge direction after die reset. -/
def Bridge.reset : Bridge := ⟨.zero, 0, 0, 0, 0, false, 0, 0, [], [], [], 0⟩

/-- The Mortar after die reset, before the image. -/
def Mortar.reset : Mortar where
  front := []
  back := []
  inForce := []
  fades := []
  sinks := []
  pwOut := []
  waiting := []
  gens := []
  pink := Vector.replicate 2 0
  brMap := []
  m2s := Bridge.reset
  s2m := Bridge.reset
  ratio := 0
  total := 0

/-- Swap state after die reset. -/
def Swap.reset : Swap := ⟨Vector.replicate 4 ⟨0, 0, false⟩, [], [], 0, [], [], []⟩

end Sys2Proof.Machine
end

