-- ==== Sys2Proof/Machine/StObserve.lean ====
section
/-! DEFINITION. The state of the event recorder, the performance counters, the freeze unit and the read-out port
(15_recorder_counters_freeze.md), beside their registers. -/

namespace Sys2Proof.Machine

/-- Words 0 to 6 of a record and, in a slot, its CRC in word 7 (R431). -/
abbrev LogRec := Vector Word 8

/-- A clear that runs (R436): which areas, and the slot it zeroes next. -/
structure LogClr where
  found : Bool
  circ : Bool
  next : Nat
  deriving DecidableEq, Repr

/-- The recorder (R431 to R441). -/
structure LogUnit where
  /-- Slots by number; an unlisted slot is all zero. -/
  mem : SMap LogRec
  /-- The bad-map (R440). -/
  bad : List Nat
  /-- The queue of 16 records, oldest first (R434); a GAP may stand in a seventeenth entry (R435). -/
  queue : List LogRec
  /-- The records of the KEEP cycle that goes on, while a command gathers them; none between commands (R434). -/
  gathered : Option (List LogRec)
  /-- The last frame sequence ENG reached before the die reset that it has not left yet (R431). -/
  seq : Word
  /-- Events were missed and no GAP has been queued for them (R435). -/
  owed : Bool
  /-- Words of the clear key received so far, 0 to 2 (R436). -/
  key : Nat
  clear : Option LogClr
  /-- The slot the recorder reads back next, and its record (R440). -/
  back : Option (Nat × LogRec)
  deriving DecidableEq, Repr

/-- The counters (R442 to R446) beside their registers. -/
structure Pct where
  /-- ENG cycles counted up to the present frame's FT (R442). -/
  cycles : BitVec 64
  /-- ENG cycles are counted: STEP 3 has begun. -/
  counting : Bool
  /-- The enables in force; they differ from PCT_CTRL.EN only while FTSYNC holds a change back (R443). -/
  en : BitVec 8
  deriving DecidableEq, Repr

/-- Status bits of a read-out transaction (R452). -/
structure ReadOut where
  ok : Bool
  notFrozen : Bool
  badArg : Bool
  /-- The words returned, in order: 32-bit words, records of 256 bits, or stored words with their check bits below their
  data bits. -/
  data : List Nat
  deriving DecidableEq, Repr

/-- The freeze unit and the read-out port (R447 to R455) beside FRZ_STAT. -/
structure Freeze where
  /-- The key word 0x0000_F2EE immediately precedes (R447). -/
  key : Bool
  /-- RESUMEOK as it stood when the freeze was requested (R455). -/
  resumeOk : Bool
  /-- The gate of the die's own I/O ring holds the joined balls at high impedance (R448). -/
  gate : Bool
  /-- The transmitters of both ports are off for the freeze (R448). -/
  txdis : Bool
  /-- A trigger has come, with its CAUSE, and the request follows (R447). -/
  asked : Option (BitVec 2)
  /-- Domains that stood still before the freeze (R26). -/
  prior : List Dom
  rdo : ReadOut
  deriving DecidableEq, Repr

/-- An empty record. -/
def LogRec.zero : LogRec := Vector.replicate 8 0

/-- The recorder when VIO18 becomes good (R436). -/
def LogUnit.reset : LogUnit := ⟨[], [], [], none, 0, false, 0, none, none⟩

/-- The counters after die reset (R442). -/
def Pct.reset : Pct := ⟨0, false, 0⟩

/-- The freeze unit when VIO18 becomes good. -/
def Freeze.reset : Freeze := ⟨false, false, false, false, none, [], ⟨false, false, false, []⟩⟩

end Sys2Proof.Machine
end

