-- ==== Sys2Proof/Machine/StPair.lean ====
section
/-! DEFINITION. The state of the pair manager (09_pairs_and_party_wall.md) beside its registers. -/

namespace Sys2Proof.Machine

/-- A heartbeat (R291). `hoFrame` is the hand-over frame in full, of which HB3 carries the low 16 bits. -/
structure Heartbeat where
  kind : Byte
  role : BitVec 3
  die : DieId
  hoReq : Bool
  seq : Word
  mdig : Word
  pdig : Word
  ftStamp : BitVec 48
  txTail : Vector (BitVec 12) 4
  hoFrame : Word
  slots : Vector LeadSlot 4
  hcrc : Word
  deriving DecidableEq, Repr

/-- A health report (R295): its three words. -/
abbrev Health := Vector Word 3

/-- What has come over the party wall for the pair manager while ENG stands still, and is held for it (R26): a heartbeat, a
health report, or a change of the link's state. -/
inductive PairRx
  | beat (h : Heartbeat)
  | health (h : Health)
  | link (v : Nat)
  deriving DecidableEq, Repr

/-- What a health report counts in its period (R295). -/
structure HealthCounts where
  dbe : Nat
  spfail : Nat
  ovr : Nat
  pll : Nat
  chlost : Nat
  supply : Nat
  deriving DecidableEq, Repr

/-- What the state copy has done (R305 to R310). -/
structure CopyState where
  /-- Phase-1 items copied, whose later changes the lead repeats (R306). -/
  items : List CopyItem
  /-- Yard rows copied in phase 3: ranges. -/
  rows : List (Nat × Nat)
  /-- The last item of phase 1 has come: phase 2 begins at the next FT. -/
  ended : Bool
  /-- Phase 4: dirty blocks of the running sweep still to copy, whether it found any, the block checked next, and the
  sweeps made. -/
  dirty : List CopyItem
  found : Bool
  next : Nat
  sweeps : Nat
  /-- Rows of dirty yard blocks that have been copied, while the rest of their block waits for grants. -/
  part : List Nat
  /-- Frames run since phase 1 ended. -/
  frames : Nat
  deriving DecidableEq, Repr

/-- The ENG clock at an entry into JOIN: it stops at the end of the frame and runs on from an FT of the lead's (R327). -/
inductive Restart
  | running | asked | stopped
  deriving DecidableEq, Repr

/-- The pair manager. -/
structure Pair where
  /-- The link as LTX has it: 0 down, 1 training, 2 up. PAIR_STAT.LINK shows it in ENG (R26, R286). -/
  link : Nat
  /-- What waits for ENG to run again (R26). -/
  waiting : List PairRx
  /-- Heartbeats received, and the die's own digests by frame: MOR_DIGEST and the pallet digest (R291, R293). -/
  inbox : List Heartbeat
  digests : List (Nat × Word × Word)
  /-- The die's own swap slots at the end of the last frame, and its LTX count at FT in 40 ps units (R291). -/
  endSlots : Vector LeadSlot 4
  ftStamp : BitVec 48
  /-- The die's own stamps by the frame whose FT they are, newest first (R284). -/
  fts : List (Nat × BitVec 48)
  /-- SEQ and FTSTAMP of the last heartbeat that arrived (R283, R327). -/
  beat : Option (Word × BitVec 48)
  restart : Restart
  /-- Classes of party-wall traffic to this die of which a block has been dropped (R285). -/
  lossy : List PwClass
  /-- Frames in START, and frames for which the partner's DWN has been asserted (R282). -/
  startFrames : Nat
  dwnFrames : Nat
  /-- A heartbeat has been received (R292). -/
  heard : Bool
  /-- A LEAD heartbeat has been seen; JOIN is allowed. -/
  leadSeen : Bool
  /-- The frame from which the die leads after it followed. -/
  leadFrom : Option Word
  /-- Die B leaves LEAD for START at the next FT (R282). -/
  bothLead : Bool
  /-- Consecutive matching heartbeats (R304, R308). -/
  matching : Nat
  /-- Frames the skew has been out of limit (R284). -/
  skewFrames : Nat
  /-- Divergence acts at the next FT; the frame judged (R294). -/
  diverged : Option Nat
  /-- LEAD follows at the next FT, with its cause in row order of R301. -/
  leadNext : Option Nat
  /-- SOLO takes LEAD at the next FT (R309). -/
  solo : Bool
  /-- Hand-over: the frame armed here or requested by the lead, and the frame from which loads are fetched (R304). -/
  hoTarget : Option Word
  hoFetch : Option Word
  /-- The old lead releases the balls 128 cycles after FT (R304). -/
  hoRelease : Bool
  /-- The die drives the joined balls (R280); a stopping die that holds them (R299). -/
  driving : Bool
  holding : Bool
  counts : HealthCounts
  /-- Closed reports by frame, own and partner's, newest first (R296). -/
  own : List (Nat × Health)
  partner : List (Nat × Health)
  /-- The report sent last (R296). -/
  sent : Option Health
  copy : CopyState
  /-- Incomplete rings at the last takeover (R310). -/
  ringInc : List Nat
  /-- SEQ of the last load relayed in each lane (R290), and loads received to relay (R289). -/
  relayed : Vector (Option (BitVec 16)) 4
  relay : List Load
  /-- Pallets on their way over the party wall to this die (R288). -/
  passed : List Blocks
  deriving DecidableEq, Repr

/-- Nothing counted. -/
def HealthCounts.zero : HealthCounts := ⟨0, 0, 0, 0, 0, 0⟩

/-- No copy. -/
def CopyState.none : CopyState := ⟨[], [], false, [], false, 0, 0, [], 0⟩

/-- The pair manager after die reset. -/
def Pair.reset : Pair where
  link := 0
  waiting := []
  inbox := []
  digests := []
  endSlots := Vector.replicate 4 ⟨0, 0, false⟩
  ftStamp := 0
  fts := []
  beat := none
  restart := .running
  lossy := []
  startFrames := 0
  dwnFrames := 0
  heard := false
  leadSeen := false
  leadFrom := none
  bothLead := false
  matching := 0
  skewFrames := 0
  diverged := none
  leadNext := none
  solo := false
  hoTarget := none
  hoFetch := none
  hoRelease := false
  driving := false
  holding := false
  counts := HealthCounts.zero
  own := []
  partner := []
  sent := none
  copy := CopyState.none
  ringInc := []
  relayed := Vector.replicate 4 none
  relay := []
  passed := []

end Sys2Proof.Machine
end

