-- ==== Sys2Proof/Machine/StRef.lean ====
section
/-! DEFINITION. The state of the reference unit and of the time unit (10_reference_and_time.md) beside their registers. -/

namespace Sys2Proof.Machine

/-- The reference unit (R313 to R331). -/
structure Ref where
  /-- Consecutive gates within ±50 ppm per input (R317). -/
  gates : Vector Nat 5
  /-- TICK_NS of the glitches of the last second per input (R317). -/
  glitches : Vector (List Word) 5
  /-- Instant of the last event per input, in units of 40 ps; none once the input has stopped (R313, R317). -/
  last : Vector (Option (BitVec 48)) 5
  /-- The die has reached LOCK since reset (R320). -/
  reached : Bool
  /-- Nanoseconds since the last gate at which two equal ranks differed by more than 20 ppm, up to 2 s (R325). -/
  calmNs : Nat
  /-- The ENG frequency moves toward the new input's; the switch began in FREE; and what is carried below one step of REF_FOFS
  and of REF_PHASE, in 10^-9 and 10^-8 of a step (R322, R323). -/
  slewing : Bool
  fromFree : Bool
  slewAcc : Nat
  phaseAcc : Int
  /-- The part of REF_FOFS that a WCK alignment adds, in its steps (R330). -/
  alignOff : Int
  /-- The loop's frequency over the last second of following, newest first: nanoseconds and REF_FOFS; its mean at the last
  event passed to the loop (R321). -/
  trail : List (Nat × Int)
  held : Option Int
  /-- Nanoseconds of the running second of HOLD or LOST. -/
  holdNs : Nat
  deriving DecidableEq, Repr

/-- The time-of-day input (R339). -/
structure Tod where
  /-- SEC of the message since the last `PPS_IN` edge. -/
  got : Option (BitVec 48)
  /-- Consecutive good messages in sequence before acceptance, and the last SEC. -/
  run : Nat
  last : BitVec 48
  accepted : Bool
  /-- Seconds at the last qualified edge. -/
  count : BitVec 48
  missing : Nat
  strange : Nat
  deriving DecidableEq, Repr

/-- An entry of a stamp queue (R341): its ID and its preloaded AGE. -/
structure Stamp where
  id : Word
  age : Word
  deriving DecidableEq, Repr

/-- The time unit (R332 to R343). -/
structure Tim where
  /-- TIME: seconds and nanoseconds. -/
  sec : BitVec 48
  ns : Word
  /-- TICK_NS. -/
  tick : Word
  /-- Slew carried below one nanosecond, in 10^-9 ns. -/
  slew : Int
  /-- Differences of a source from TIME since the last average, newest first, in units of 40 ps, and that source (R336). -/
  diffs : List Int
  diffSrc : Nat
  /-- Seconds captured by the last read of TIM_NS (R332). -/
  cap : BitVec 48
  tx : List Stamp
  rx : List Stamp
  /-- `PPS_IN` edges stamped, modulo 2^28 (R341). -/
  edges : BitVec 28
  tod : Tod
  /-- The next PPS_OUT pulse goes to the next second of TIME (R330). -/
  ppsAlign : Bool
  /-- Nanoseconds left of a PPS_OUT pulse, and the level of WCK_OUT (R329). -/
  ppsOut : Nat
  wckOut : Bool
  deriving DecidableEq, Repr

/-- The reference unit after die reset. -/
def Ref.reset : Ref where
  gates := Vector.replicate 5 0
  glitches := Vector.replicate 5 []
  last := Vector.replicate 5 none
  reached := false
  calmNs := 0
  slewing := false
  fromFree := false
  slewAcc := 0
  phaseAcc := 0
  alignOff := 0
  trail := []
  held := none
  holdNs := 0

/-- The time unit after die reset. -/
def Tim.reset : Tim where
  sec := 0
  ns := 0
  tick := 0
  slew := 0
  diffs := []
  diffSrc := 0
  cap := 0
  tx := []
  rx := []
  edges := 0
  tod := ⟨none, 0, 0, false, 0, 0, 0⟩
  ppsAlign := false
  ppsOut := 0
  wckOut := false

end Sys2Proof.Machine
end

