-- ==== Sys2Proof/Machine/StSap.lean ====
section
/-! DEFINITION. The state of the serial audio ports (11_serial_audio_ports.md) and of the CV outputs (12_cv_outputs.md),
beside their registers. -/

namespace Sys2Proof.Machine

/-- A serial audio port (R346 to R361). -/
structure SapPort where
  /-- Words on their way into ENG and out of it (R360), oldest first. -/
  inQ : List Quarter
  outQ : List Quarter
  /-- Data flows: a port-frame boundary has passed since the port was ready (R358). -/
  flow : Bool
  /-- The reader of the queue has begun. -/
  inRun : Bool
  outRun : Bool
  /-- Frame syncs counted, at most 16; FTs since the latest one, at most 2^18; and its phase. -/
  seen : Nat
  fts : Nat
  last : BitVec 15
  /-- The pending masks were written too late for the coming boundary (R357). -/
  maskLate : Bool
  /-- The input mask in force in the port frame that last ended. -/
  maskWas : BitVec 16
  /-- A frame that waits because PHASE lies outside the on-time range (R353), per direction. -/
  heldIn : List Quarter
  heldOut : List Quarter
  /-- Input slots as the sources, or the bridge, see them. -/
  slots : List Quarter
  /-- The output slot whose word is next, and what the data output carries: nothing, or a word (R356, R358). -/
  slot : Nat
  dout : Option Word
  /-- Frames left of a transition. -/
  framesLeft : Nat
  deriving DecidableEq, Repr

/-- The ports, and for each group whether its clock has stopped (R361). -/
structure Sap where
  ports : Vector SapPort 8
  lost : Vector Bool 2
  deriving DecidableEq, Repr

/-- The CV outputs (R364 to R377). -/
structure Cvd where
  /-- The code each DAC holds. -/
  dac : Vector (BitVec 18) 16
  /-- Before the image runs, the KEEP-domain output logic drives the balls (R370). -/
  keepDrive : Bool
  /-- Channels whose hold a fault sets at the next FT (R368). -/
  faults : List (Fin 16)
  /-- Channels whose hold clears at the first FT of ON (R372). -/
  armed : List (Fin 16)
  /-- Channels whose span changed at the last FT (R369). -/
  skip : List (Fin 16)
  /-- `CVCLR_N` is low. -/
  clrLow : Bool
  /-- Sine generator registers in force since the last FT, by address (R373). -/
  gens : SMap Word
  /-- The next slot of the monitor converter: 0 for `CVMID`, 1 + n for channel n (R374). -/
  mon : Fin 9
  /-- Consecutive frames in which LIMIT has read 1, for channel 8 + n (R376). -/
  run : Vector Nat 8
  /-- Frames left of a transition. -/
  framesLeft : Nat
  deriving DecidableEq, Repr

/-- A port after die reset. -/
def SapPort.reset : SapPort where
  inQ := []
  outQ := []
  flow := false
  inRun := false
  outRun := false
  seen := 0
  fts := 0
  last := 0
  maskLate := false
  maskWas := 0
  heldIn := []
  heldOut := []
  slots := []
  slot := 0
  dout := none
  framesLeft := 0

/-- The ports after die reset. -/
def Sap.reset : Sap := ⟨Vector.replicate 8 SapPort.reset, Vector.replicate 2 false⟩

/-- The clear code of a die (R367). -/
def clearCodeOf (i : DieId) : BitVec 18 := if Config.strapClrsel i then 0x20000 else 0

/-- The CV outputs after die reset: every channel holds the clear code (R368). -/
def Cvd.reset (i : DieId) : Cvd where
  dac := Vector.replicate 16 (clearCodeOf i)
  keepDrive := false
  faults := []
  armed := []
  skip := []
  clrLow := false
  gens := []
  mon := 0
  run := Vector.replicate 8 0
  framesLeft := 0

end Sys2Proof.Machine
end

