-- ==== Sys2Proof/Machine/StVox.lean ====
section
/-! DEFINITION. The state of the voice allocator (07_voice_engine.md) beside its registers. -/

namespace Sys2Proof.Machine

/-- The states of a voice (R214). -/
inductive VState
  | idle | on | held | release | fade
  deriving DecidableEq, Repr

/-- A voice (R214). -/
structure Voice where
  state : VState
  group : BitVec 4
  note : BitVec 7
  start : BitVec 64
  /-- The release velocity kept while HELD (R208). -/
  relVel : BitVec 16
  /-- FTs of the steal-fade still to come, the one at which it begins included (R216). -/
  fadeFts : Nat
  deriving DecidableEq, Repr

/-- A queued note event: the event, its source (0 firmware, 1 chain, 2 MIDI0, 3 MIDI1) and the frame it is due for (R207,
R209, R212). The queue's order is the order of the arrival stamps. -/
structure NoteEv where
  ev : Block
  src : Fin 4
  due : Word
  deriving DecidableEq, Repr

/-- A batch as the lead sends it: its frame, its events, whether a VOX-scope swap is due, and whether a conflict ended it
(R223). -/
structure Batch where
  frame : Word
  events : List NoteEv
  swap : Bool
  cut : Bool
  deriving DecidableEq, Repr

/-- The MIDI parser of one UART (R228, R231). -/
structure MidiParser where
  /-- The status byte in force, 0 for none: running status, or the system message being received. -/
  status : Byte
  data : List Byte
  /-- Active sensing is armed by a received 0xFE. -/
  sensing : Bool
  deriving DecidableEq, Repr

/-- The voice allocator. -/
structure Vox where
  queue : List NoteEv
  /-- Voices by number; an unlisted one is IDLE. -/
  voices : SMap Voice
  /-- The next start number (R214). -/
  next : BitVec 64
  /-- Voice configuration copies by register address (R215). -/
  front : SMap Word
  back : SMap Word
  /-- Back-copy writes of the present window, which land in the back copy of the coming FT, after its exchange (R215). -/
  late : List (Nat × Word)
  /-- Group controller slots by `8 * group + slot`, and the sustain of every group (R208). -/
  slots : SMap (BitVec 16)
  sustain : BitVec 16
  /-- Level table rows of the last completed frame, by `64 * seat + octet` (R220, R221). -/
  levels : SMap Row
  /-- The batch closed in this window and not yet resolved, which a follow holds until FOLLOW_RESOLVE (R223). -/
  own : Option Batch
  /-- The batch last sent to the partner, and the one received from it. -/
  sent : Option Batch
  received : Option Batch
  /-- Voice seats whose event pending bit FT sets (R222). -/
  bells : List (Fin 24)
  midi : Vector MidiParser 2
  /-- Received bytes that wait while ENG stands still, oldest first: input, byte, framing error (R26). -/
  rxHeld : List (Fin 2 × Byte × Bool)
  /-- The firmware MIDI queue, as VOX_MFIFO words (R230). -/
  fifo : List Word
  /-- Frames left of a transition, and whether FALLING has yet to write its FADE commands (R232). -/
  framesLeft : Nat
  fadeAll : Bool
  deriving DecidableEq, Repr

/-- An idle voice. -/
def Voice.none : Voice := ⟨.idle, 0, 0, 0, 0, 0⟩

/-- The allocator after die reset. DESIGN CHOICE: the group controllers and the sustain of every group are 0 (log 247). -/
def Vox.reset : Vox where
  queue := []
  voices := []
  next := 0
  front := []
  back := []
  late := []
  slots := []
  sustain := 0
  levels := []
  own := none
  sent := none
  received := none
  bells := []
  midi := Vector.replicate 2 ⟨0, [], false⟩
  rxHeld := []
  fifo := []
  framesLeft := 0
  fadeAll := false

end Sys2Proof.Machine
end

