-- ==== Sys2Proof/Machine/StXbar.lean ====
section
/-! DEFINITION. The state of the control cores, the banks, SHARED, the crossbar and the peripherals in MISC
(13_control_cores_and_crossbar.md), beside their registers. -/

namespace Sys2Proof.Machine

/-- BANK0 to BANK3 and SHARED by byte address (R390), and the errors their check bits hold, by 64-bit word (R392): 1
correctable, 2 uncorrectable. -/
structure Mem where
  bytes : SMap Byte
  bad : SMap (BitVec 2)
  deriving DecidableEq, Repr

/-- What an unlisted byte reads as. -/
def byteDflt (_ : Nat) : Byte := 0

/-- A control core (R380 to R389). -/
structure Cpu where
  /-- x0 to x31; x0 reads zero. -/
  x : Vector Word 32
  pc : Word
  /-- User mode; otherwise machine mode. -/
  user : Bool
  /-- mstatus.MIE, MPIE, MPRV, and MPP as user or machine. -/
  mie : Bool
  mpie : Bool
  mprv : Bool
  mppUser : Bool
  /-- mstatus.TW. -/
  tw : Bool
  mtvec : Word
  mepc : Word
  mcause : Word
  mtval : Word
  mscratch : Word
  /-- mie.MEIE. -/
  meie : Bool
  mcycle : BitVec 64
  minstret : BitVec 64
  mcounteren : Word
  pmpcfg : Vector (BitVec 8) 8
  pmpaddr : Vector Word 8
  /-- WFI holds issue (R389). -/
  waiting : Bool
  /-- The register a multiply, or a load from a bank or SHARED, has just given, which the second instruction after it may
  use (R382). -/
  late : XReg
  deriving DecidableEq, Repr

/-- A master's outstanding request (R395, R396): its address, direction, cycles waited, and its place among the urgent. -/
structure XReq where
  addr : Word
  write : Bool
  waited : Nat
  urgent : Option Nat
  deriving DecidableEq, Repr

/-- A burst that holds a path (R397, R398): its start, length and kind, and the beats moved. -/
structure XBurst where
  addr : Nat
  beats : Nat
  wrap : Bool
  write : Bool
  moved : Nat
  deriving DecidableEq, Repr

/-- The crossbar (R393 to R399). -/
structure Xbar where
  reqs : Vector (Option XReq) 7
  bursts : Vector (Option XBurst) 7
  /-- The master each target last granted: BANK0 to 3, SHARED, PERI, ENGW, YARDW, MORW, DEFAULT. -/
  granted : Vector (BitVec 3) 10
  /-- Requests that have become urgent so far. -/
  urgents : Nat
  /-- 64-bit data last returned to a burst of each master. -/
  data : Vector (List (BitVec 64)) 7
  deriving DecidableEq, Repr

/-- An I2C controller's transfer in progress (R402). -/
structure I2cXfer where
  addr : BitVec 7
  wbytes : List Byte
  rlen : Nat
  deriving DecidableEq, Repr

/-- The peripherals in MISC (R400 to R403). -/
structure Misc where
  /-- Levels of the balls as other drivers leave them, and the value the timed output places. -/
  balls : BitVec 16
  /-- While CTL stands still: the levels of the balls that it sampled last, once they have moved (R26). -/
  stood : Option (BitVec 16)
  i2c : Vector (Option I2cXfer) 2
  /-- MIDI output queue, and the byte in progress. -/
  tx : List Byte
  sending : Option Byte
  deriving DecidableEq, Repr

/-- Memory after power-on: nothing listed. -/
def Mem.reset : Mem := ⟨[], []⟩

/-- A core as it leaves reset (R383). -/
def Cpu.reset (n : Nat) : Cpu where
  x := Vector.replicate 32 0
  pc := BitVec.ofNat 32 (0x100000 * n)
  user := false
  mie := false
  mpie := false
  mprv := false
  mppUser := true
  tw := false
  mtvec := 0
  mepc := 0
  mcause := 0
  mtval := 0
  mscratch := 0
  meie := false
  mcycle := 0
  minstret := 0
  mcounteren := 0
  pmpcfg := Vector.replicate 8 0
  pmpaddr := Vector.replicate 8 0
  waiting := false
  late := 0

/-- The crossbar after die reset: every target parked (R394). -/
def Xbar.reset : Xbar where
  reqs := Vector.replicate 7 none
  bursts := Vector.replicate 7 none
  granted := #v[0, 1, 2, 3, 4, 0, 0, 0, 0, 0]
  urgents := 0
  data := Vector.replicate 7 []

/-- MISC after die reset. -/
def Misc.reset : Misc := ⟨0, none, Vector.replicate 2 none, [], none⟩

end Sys2Proof.Machine
end

