-- ==== Sys2Proof/Machine/State.lean ====
section
/-! DEFINITION. The state of the package: two dies (R4) and the commands that wait. -/

namespace Sys2Proof.Machine

/-- A posted write that waits for its domain (R30). -/
structure Posted where
  blk : Nat
  dom : Dom
  /-- The master that wrote it. -/
  m : BitVec 3
  addr : Nat
  v : Word
  /-- The key sequence of the register stood right before the write (R10). -/
  keyed : Bool
  deriving DecidableEq, Repr

/-- The clocks of a die (R23, R26, R500). -/
structure Clk where
  /-- Domains that do not run. -/
  stopped : List Dom
  /-- KEEP has fallen over to the internal oscillator. -/
  fallen : Bool
  /-- KEEP runs at 10 MHz (R500); otherwise at 20 MHz. -/
  keep10 : Bool
  deriving DecidableEq, Repr

/-- What the crossbar last returned to a master: the read data, or an error response (R399). -/
structure Resp where
  data : Word
  error : Bool
  deriving DecidableEq, Repr

/-- A die: its registers and shadows, and the state of its blocks that no register shows. -/
structure Die where
  /-- Which die of the package it is (strap `DIE_ID`). -/
  id : DieId
  /-- Registers by address, in their own domain; an unlisted address reads its reset value. -/
  regs : SMap Word
  /-- CTL shadows of the registers of the other domains (R30). -/
  shadow : SMap Word
  /-- The write buffers: one posted write per block and domain (R30). -/
  posted : List Posted
  /-- Writes that stall their master on the crossbar until the buffer is free, oldest first (R30). -/
  stalled : List Posted
  clk : Clk
  /-- Courses, seats, migration and the interface of the walls (R50 to R115). -/
  eng : Engine
  /-- Yard tiles, rings, hods, test and remap (R116 to R146). -/
  yard : Yard
  /-- Routes, front and back, generators and rate bridges (R147 to R181). -/
  mor : Mortar
  /-- Swap slots, their store, and scenes (R182 to R203). -/
  swp : Swap
  /-- Voices, events and MIDI reception (R204 to R233). -/
  vox : Vox
  /-- Reference inputs and the disciplined loop (R313 to R331). -/
  ref : Ref
  /-- TIME and its stamps (R332 to R345). -/
  tim : Tim
  /-- Ports, pallets and loads (R234 to R278). -/
  chn : Chain
  /-- The pair's link, health and state copy (R279 to R312). -/
  pair : Pair
  /-- Serial ports and their queues (R346 to R365). -/
  sap : Sap
  /-- CV outputs and their monitors (R366 to R379). -/
  cvd : Cvd
  /-- Image, flash, plug and supplies (R405 to R430). -/
  boot : Boot
  /-- BANK0 to BANK3 and SHARED. -/
  mem : Mem
  /-- The control cores (R380 to R389). -/
  cpus : Vector Cpu 4
  xbar : Xbar
  /-- Peripherals in MISC (R400 to R403). -/
  misc : Misc
  /-- The event recorder (R431 to R441). -/
  log : LogUnit
  /-- Performance counters (R442 to R446). -/
  pct : Pct
  /-- Freeze and its read-out (R447 to R457). -/
  frz : Freeze
  /-- Last response to each master of R393. -/
  resp : Vector Resp 8
  /-- MODEL'S OWN: counts the free values drawn so far. -/
  free : Nat
  deriving DecidableEq, Repr

/-- The package and the commands that wait, first in, first out. -/
structure State where
  dieA : Die
  dieB : Die
  pending : List Instr
  deriving DecidableEq, Repr

/-- Reasons for a fault. There is none: the manual gives every command of the table an effect. -/
inductive Fault
  deriving DecidableEq, Repr

/-- Reasons for a refusal. -/
inductive Refusal
  /-- A command that has no meaning yet, raised by its arm of `exec`; safe. No arm raises it. -/
  | notModelled (mnemonic : String)
  deriving DecidableEq, Repr

/-- A die right after power-on: every register at its reset value (R9) but PAIR_FENCE, whose inputs read as the wires idle, the
domains of the die's own clocks stopped until ENG_START, and every block empty. -/
def Die.reset (i : DieId) : Die where
  id := i
  regs := [(R.PAIR_FENCE, 0xC)]
  shadow := [(R.PAIR_FENCE, 0xC)]
  posted := []
  stalled := []
  clk := ⟨[.eng, .ctl, .nrx, .srx, .ltx, .sapm, .saps], false, !Config.strapKeepsrc i && Config.hoxAtTen i⟩
  eng := Engine.reset
  yard := Yard.reset
  mor := Mortar.reset
  swp := Swap.reset
  vox := Vox.reset
  ref := Ref.reset
  tim := Tim.reset
  chn := Chain.reset
  pair := Pair.reset
  sap := Sap.reset
  cvd := Cvd.reset i
  boot := Boot.reset
  mem := Mem.reset
  cpus := Vector.ofFn fun (n : Fin 4) => Cpu.reset n.val
  xbar := Xbar.reset
  misc := Misc.reset
  log := LogUnit.reset
  pct := Pct.reset
  frz := Freeze.reset
  resp := Vector.replicate 8 ⟨0, false⟩
  free := 0

/-- The package right after power-on reset, with no command waiting. -/
def State.reset : State := ⟨Die.reset .a, Die.reset .b, []⟩

end Sys2Proof.Machine
end

