-- ==== Sys2Proof/Machine/Ops.lean ====
section
/-! DEFINITION. The named operations over a die's state that the meanings share: registers and their fields, free
values, check sums, and an event's record (R434). -/

namespace Sys2Proof.Machine

/-- The outcome of a step of this machine. -/
abbrev Out := Host.Outcome State Fault Refusal

/-- A die of the package. -/
def State.die (s : State) : DieId → Die
  | .a => s.dieA
  | .b => s.dieB

/-- Put a die's new state. -/
def State.setDie (s : State) (d : DieId) (e : Die) : State :=
  match d with
  | .a => { s with dieA := e }
  | .b => { s with dieB := e }

/-- The effect of a command that touches one die only. -/
def State.upd (s : State) (d : DieId) (f : Die → Die) : State := s.setDie d (f (s.die d))

/-- `n` with its bits `lo` to `lo + w - 1` replaced by `v`. -/
def insBits (n lo w v : Nat) : Nat := n - bitsOf n lo w * 2 ^ lo + v % 2 ^ w * 2 ^ lo

/-- Bit `i` of a number. -/
def natBit (n i : Nat) : Bool := bitsOf n i 1 == 1

/-- The number of a Boolean. -/
def b2n (b : Bool) : Nat := if b then 1 else 0

/-- A register's value in its own domain. -/
def Die.reg (e : Die) (a : Nat) : Word := SMap.get regReset e.regs a

/-- Set a register's value in its own domain. -/
def Die.setReg (e : Die) (a : Nat) (v : Word) : Die := { e with regs := SMap.set regReset e.regs a v }

/-- A register's value as a number. -/
def Die.regN (e : Die) (a : Nat) : Nat := (e.reg a).toNat

/-- Set a register from a number. -/
def Die.setRegN (e : Die) (a : Nat) (v : Nat) : Die := e.setReg a (BitVec.ofNat 32 v)

/-- A field's value. -/
def Die.fld (e : Die) (f : Fld) : Nat := bitsOf (e.reg f.addr).toNat f.lo f.w

/-- Set a field. -/
def Die.setFld (e : Die) (f : Fld) (v : Nat) : Die := e.setRegN f.addr (insBits (e.regN f.addr) f.lo f.w v)

/-- A one-bit field. -/
def Die.bit (e : Die) (f : Fld) : Bool := e.fld f == 1

/-- Set a one-bit field from a Boolean. -/
def Die.setBit (e : Die) (f : Fld) (b : Bool) : Die := e.setFld f (b2n b)

/-- Bit `i` of a field. -/
def Die.bitAt (e : Die) (f : Fld) (i : Nat) : Bool := natBit (e.fld f) i

/-- Set bit `i` of a field. -/
def Die.setBitAt (e : Die) (f : Fld) (i : Nat) (b : Bool) : Die := e.setFld f (insBits (e.fld f) i 1 (b2n b))

/-- Hardware sets a status bit (W1C or RC), if the condition holds. -/
def Die.raise (e : Die) (f : Fld) (b : Bool) : Die := if b then e.setFld f 1 else e

/-- A saturating count. -/
def Die.count (e : Die) (f : Fld) (n : Nat) : Die := if n = 0 then e else e.setFld f (satAdd f.w (e.fld f) n)

/-- The die's frame sequence (R16). -/
def Die.seq (e : Die) : Nat := e.regN R.ENG_SEQ

/-- Does frame `f` lie after frame `now` in sequence arithmetic? -/
def seqAfter (f now : Nat) : Bool :=
  let k := (f + 2 ^ 32 - now % 2 ^ 32) % 2 ^ 32
  0 < k && k < 2 ^ 31

/-- ENG cycles per frame at a rate code: N of R88. -/
def cyclesOf (rate : Nat) : Nat :=
  match rate with
  | 0 => 20480
  | 1 => 10240
  | _ => 5120

/-- N of the die's main rate. -/
def Die.cyc (e : Die) : Nat := cyclesOf (e.fld F.ENG_RATE_RATE)

/-- Does a domain run (R26)? -/
def Die.runs (e : Die) (m : Dom) : Bool := !e.clk.stopped.contains m

/-- The role codes of R279. -/
def Role.start : Nat := 0
def Role.lead : Nat := 1
def Role.follow : Nat := 2
def Role.join : Nat := 3
def Role.fenced : Nat := 4
def Role.svclost : Nat := 5
def Role.split : Nat := 6

/-- The die's role (R279). -/
def Die.role (e : Die) : Nat := e.fld F.PAIR_STAT_ROLE

/-- The die is LEAD. -/
def Die.isLead (e : Die) : Bool := e.role == Role.lead

/-- The die is neither FENCED nor SVCLOST, in which it only forwards (R280). -/
def Die.inService (e : Die) : Bool := e.role != Role.fenced && e.role != Role.svclost

/-- The die runs its kernels, Mortar and VOX: in service, and past phase 1 of a state copy (R280, R305). -/
def Die.works (e : Die) : Bool := e.inService && !(e.role == Role.join && e.fld F.PAIR_COPY_PHASE == 1)

/-- The image runs on the die: STEP 6 of R418. -/
def Die.imageRuns (e : Die) : Bool := e.fld F.BTL_STAT_STEP == 6

/-- The die loads nothing: NOIMAGE or HOLD, in which ENG does not start (R420). -/
def Die.idles (e : Die) : Bool := e.fld F.BTL_STAT_STEP == 7 || e.fld F.BTL_STAT_STEP == 8

/-- The effect of a command in a domain of a die: none while the domain stands still (R26, R451). -/
def State.updIn (s : State) (m : Dom) (d : DieId) (f : Die → Die) : State := if (s.die d).runs m then s.upd d f else s

/-- The same of a command that reaches the other die too. -/
def State.goIn (s : State) (m : Dom) (d : DieId) (f : State → State) : State := if (s.die d).runs m then f s else s

/-- The buffer of a block and domain holds a write (R30). -/
def Die.buffered (e : Die) (blk : Nat) (dom : Dom) : Bool := e.posted.any fun p => p.blk == blk && p.dom == dom

/-- A write enters the buffer of its block and domain, or stalls on the crossbar while that holds another (R30). -/
def Die.holdWrite (e : Die) (p : Posted) : Die :=
  if e.buffered p.blk p.dom then { e with stalled := e.stalled ++ [p] } else { e with posted := e.posted ++ [p] }

/-- The write of a register by a command of its own, in the register's domain. While that stands still the write is posted and
waits (R26, R30). The command names no master: it is that of no master of R393 (DESIGN CHOICE, log 252). -/
def State.writeIn (s : State) (m : Dom) (d : DieId) (a : Nat) (v : Word) (f : Die → Die) : State :=
  if (s.die d).runs m then s.upd d f
  else s.updIn .ctl d (·.holdWrite ⟨a / 0x1000 % 0x20, m, 7, a, v, false⟩)

/-- The value of a register that sets a bit and leaves its RW fields as they stand. -/
def Die.strobe (e : Die) (a bit : Nat) : Word :=
  match regRow a with
  | none => BitVec.ofNat 32 (2 ^ bit)
  | some r => BitVec.ofNat 32 (r.fields.foldl (fun n f =>
      if f.ty = .rw then insBits n f.lo f.w (bitsOf (e.regN a) f.lo f.w) else n) (2 ^ bit))

/-- Bit of a domain in CLOSED and FORCED (R458). -/
def domBit : Dom → Nat
  | .eng => 0
  | .sapm => 1
  | .saps => 2
  | .nrx => 3
  | .srx => 4
  | .ltx => 5
  | .ctl => 6
  | .keep => 7

/-- A freeze has closed the domain's gate (R449). -/
def Die.shut (e : Die) (m : Dom) : Bool := 2 ≤ e.fld F.FRZ_STAT_STATE && e.bitAt F.FRZ_STAT_CLOSED (domBit m)

/-- A list of domains with or without one. -/
def domSet (l : List Dom) (m : Dom) (b : Bool) : List Dom :=
  let rest := l.filter (· != m)
  if b then m :: rest else rest

/-- The clock of a domain comes or goes: the domain runs or stops (R26), and from the request of a freeze on it is also so once the
gates open; a gate that the freeze holds closed stays so (R449, R455). -/
def Die.clock (e : Die) (m : Dom) (run : Bool) : Die :=
  let e : Die := if 1 ≤ e.fld F.FRZ_STAT_STATE then { e with frz := { e.frz with prior := domSet e.frz.prior m !run } } else e
  if run && e.shut m then e else { e with clk := { e.clk with stopped := domSet e.clk.stopped m !run } }

/-- The clock domain of a port's receiver. -/
def rxDom : PortId → Dom
  | .n => .nrx
  | .s => .srx

/-- The _STATE codes of R31. -/
def St.off : Nat := 0
def St.rising : Nat := 1
def St.on : Nat := 2
def St.falling : Nat := 3

/-- A count of free values drawn moves on. -/
def Die.drawn (e : Die) : Die := { e with free := e.free + 1 }

/-- One bit of the reflected CRC-32 of IEEE 802.3 (R160). -/
def crc32Bit (c : Nat) (b : Nat) : Nat :=
  if (c + b) % 2 = 1 then (c / 2) ^^^ 0xEDB88320 else c / 2

/-- `n` bits of a number, least significant first. -/
def crc32Bits : Nat → Nat → Nat → Nat
  | 0, c, _ => c
  | n + 1, c, v => crc32Bits n (crc32Bit c (v % 2)) (v / 2)

/-- CRC-32 of a list of 32-bit words, each least significant bit first, with initial value 0xFFFF_FFFF and final
inversion (R160). -/
def crc32Words (ws : List Nat) : Nat :=
  0xFFFFFFFF - ws.foldl (fun c w => crc32Bits 32 c w) 0xFFFFFFFF

/-- CRC-32 of a list of bytes. -/
def crc32Bytes (bs : List Byte) : Nat :=
  0xFFFFFFFF - bs.foldl (fun c b => crc32Bits 8 c b.toNat) 0xFFFFFFFF

/-- `n` bits of a number, most significant first, into a CRC-16 with polynomial 0x1021. -/
def crc16Bits : Nat → Nat → Nat → Nat
  | 0, c, _ => c
  | n + 1, c, v =>
    crc16Bits n (if (c / 0x8000 + natBit' v n) % 2 = 1 then (c % 0x8000 * 2) ^^^ 0x1021 else c % 0x8000 * 2) v
where
  /-- Bit `i` of a number. -/
  natBit' (v i : Nat) : Nat := v / 2 ^ i % 2

/-- The last frame sequence that ENG reached (R431). -/
def Die.lastSeq (e : Die) : Word := if e.pct.counting then e.reg R.ENG_SEQ else e.log.seq

/-- Words 0 to 6 of a record from its class, code, flags and data (R431). -/
def Die.record (e : Die) (cls code w4 w5 w6 : Nat) : LogRec :=
  let flags := 2 * b2n (!e.runs .eng) + 4 * b2n (!e.bit F.TIM_STAT_VALID) + 8 * b2n (e.id == .b) + 16 * b2n e.isLead
  #v[BitVec.ofNat 32 (cls * 2 ^ 24 + code % 2 ^ 16 * 2 ^ 8 + flags), e.lastSeq,
     BitVec.ofNat 32 e.tim.sec.toNat, e.tim.tick, BitVec.ofNat 32 w4, BitVec.ofNat 32 w5, BitVec.ofNat 32 w6, 0]

/-- Class of a record. -/
def LogRec.cls (r : LogRec) : Nat := r[0].toNat / 2 ^ 24

/-- The record is a GAP (R432). -/
def LogRec.isGap (r : LogRec) : Bool := r[0].toNat / 2 ^ 8 == 9

/-- Events that the queue holds, beside the entry kept for GAP (R434, R435). -/
def LogUnit.events (u : LogUnit) : Nat := (u.queue.filter fun r => !r.isGap).length

/-- A record enters the queue of 16, or its event is missed (R434). -/
def Die.logQueue (e : Die) (r : LogRec) : Die :=
  if 16 ≤ e.log.events then
    let e := e.count (F.LOG_MISSED_COUNT r.cls) 1
    { e with log := { e.log with owed := true } }
  else { e with log := { e.log with queue := e.log.queue ++ [r] } }

/-- An event reaches the recorder (R434, R435, R441): it is queued, or gathered with the others of its KEEP cycle, or counted as
missed while FREEZE or LOGFAIL is set or the queue is full. While KEEP does not run, the recorder stands still. -/
def Die.logEv (e : Die) (cls code : Nat) (w4 : Nat := 0) (w5 : Nat := 0) (w6 : Nat := 0) : Die :=
  let r := e.record cls code w4 w5 w6
  if !e.runs .keep then e
  else if e.bit F.LOG_CTRL_FREEZE || e.bit F.LOG_STAT_LOGFAIL then e.count (F.LOG_MISSED_COUNT cls) 1
  else match e.log.gathered with
    | some t => { e with log := { e.log with gathered := some (t ++ [r]) } }
    | none => e.logQueue r

/-- The record of an event, if it happens. -/
def Die.logIf (e : Die) (b : Bool) (cls code : Nat) (w4 : Nat := 0) (w5 : Nat := 0) (w6 : Nat := 0) : Die :=
  if b then e.logEv cls code w4 w5 w6 else e

/-- A master's request is served: it waits no longer, and is urgent no longer (R396). -/
def Die.served (e : Die) (m : BitVec 3) : Die :=
  { e with xbar := { e.xbar with reqs := e.xbar.reqs.setIfInBounds m.toNat none } }

/-- The crossbar returns data to a master. -/
def Die.answer (e : Die) (m : BitVec 3) (v : Word) : Die :=
  let e := e.served m
  { e with resp := e.resp.set m.toNat ⟨v, false⟩ m.isLt }

/-- An error response (R399): the first latches XBR_ERRADDR and XBR_ERRID and sets XBR_IRQ.ERR. -/
def Die.busError (e : Die) (m : BitVec 3) (write : Bool) (cause : Nat) (addr : Word) : Die :=
  let e := e.served m
  let e := { e with resp := e.resp.set m.toNat ⟨0, true⟩ m.isLt }
  if e.bit F.XBR_IRQ_ERR then e
  else
    ((e.setFld F.XBR_IRQ_ERR 1).setReg R.XBR_ERRADDR addr).setRegN R.XBR_ERRID
      (m.toNat + 8 * b2n write + 16 * cause + 2 ^ 31)

/-- What the running health report counts (R295). -/
def Die.healthNote (e : Die) (f : HealthCounts → HealthCounts) : Die :=
  { e with pair := { e.pair with counts := f e.pair.counts } }

/-- The main rate in Hz. -/
def Die.rateHz (e : Die) : Nat :=
  (if e.bit F.ENG_RATE_FAM then 44100 else 48000) * (20480 / e.cyc)

/-- Place of a rail in BTL_SUPPLY (R430). -/
def railBit : Rail → Nat
  | .vcore => 0
  | .vio18 => 1
  | .vio33 => 2
  | .vana => 3
  | .vser => 4
  | .vcv => 5

/-- A rail of the die is within its window (R429). -/
def Die.railOk (e : Die) (r : Rail) : Bool := e.bitAt F.BTL_SUPPLY_OK (railBit r)

/-- Sign-extension of a quarter into a 32-bit container (R124, R185). -/
def quarterWord (q : Quarter) : Word := BitVec.ofInt 32 q.toInt

/-! ### The party wall -/

/-- The party wall carries traffic: its lanes lie in LTX (R285, R286). -/
def Die.linkUp (e : Die) : Bool := e.pair.link == 2 && e.runs .ltx

/-- The party wall carries traffic in both directions (R286). -/
def State.linked (s : State) : Bool := s.dieA.linkUp && s.dieB.linkUp

/-- What waits for a block of a class is lost no longer. -/
def Die.lossTaken (e : Die) (c : PwClass) : Die := { e with pair := { e.pair with lossy := e.pair.lossy.erase c } }

/-- Traffic of a class reaches a die: nothing while the link is down, and nothing of what lost a block (R285, R286). -/
def State.wall (s : State) (d : DieId) (c : PwClass) (f : Die → Die) : State :=
  if !s.linked then s
  else if (s.die d).pair.lossy.contains c then s.upd d (·.lossTaken c)
  else s.upd d f

end Sys2Proof.Machine
end

