-- ==== Sys2Proof/Machine/Mortar.lean ====
section
/-! DEFINITION. The Mortar's route table, fades, gather and generators (R147 to R170, R503). -/

namespace Sys2Proof.Machine

/-- Change the Mortar. -/
def Die.updMor (e : Die) (f : Mortar → Mortar) : Die := { e with mor := f e.mor }

/-- What an unlisted route entry reads as. -/
def wordDflt (_ : Nat) : Word := 0

/-- What an unlisted sink carries. -/
def quarterDflt (_ : Nat) : Quarter := 0

/-- SRC, INV, MUTE, FADE and SHAPE of a route entry (R147). -/
def entSrc (w : Word) : Nat := bitsOf w.toNat 0 15
/-- INV. -/
def entInv (w : Word) : Bool := natBit w.toNat 15
/-- MUTE. -/
def entMute (w : Word) : Bool := natBit w.toNat 16
/-- The fade length L in frames. -/
def entFade (w : Word) : Nat := if bitsOf w.toNat 17 3 = 0 then 0 else 16 * 2 ^ bitsOf w.toNat 17 3
/-- SHAPE: equal-power. -/
def entShape (w : Word) : Bool := natBit w.toNat 20

/-- Two entries differ in SRC, INV or MUTE (R162). -/
def entDiffers (a b : Word) : Bool := a.toNat % 2 ^ 17 != b.toNat % 2 ^ 17

/-- A sink of R155 that is not reserved. -/
def sinkValid (s : Nat) : Bool :=
  s < 0x4080 || (0x4100 ≤ s && s < 0x4110) || (0x4200 ≤ s && s < 0x4400)

/-- A source ID that R154 assigns. -/
def srcAssigned (i : Nat) : Bool :=
  i < 0x000A || (0x0100 ≤ i && i < 0x0180) || (0x1000 ≤ i && i < 0x5420) || (0x5500 ≤ i && i < 0x5600)
    || (0x5800 ≤ i && i < 0x5900)

/-- A back entry is written; reserved sinks ignore it (R149). -/
def Mortar.setBack (m : Mortar) (sink : Nat) (v : Word) : Mortar :=
  if sinkValid sink then { m with back := SMap.set wordDflt m.back sink (v &&& 0x1FFFFF) } else m

/-- MORW_WRITE: the back entry takes the value; during a mirror reload the write waits (R149, R151). -/
def Die.morwWrite (e : Die) (sink : Nat) (v : Word) : Die :=
  if e.bit F.MOR_STAT_MIRBUSY then e.updMor fun m => { m with waiting := m.waiting ++ [(sink, v)] }
  else e.updMor (·.setBack sink v)

/-- MORW_WRITE (R149). -/
def execMorwWrite (d : DieId) (sink : BitVec 15) (v : Word) (s : State) : Out :=
  .next (s.updIn .eng d (·.morwWrite sink.toNat v))

/-- MIRROR_RELOAD_DONE: the back copy equals the front, and waiting accesses proceed (R151). -/
def execMirrorReloadDone (d : DieId) (s : State) : Out :=
  .next (s.updIn .eng d fun e =>
    if e.bit F.MOR_STAT_MIRBUSY then
      (e.updMor fun m =>
        m.waiting.foldl (fun m w => m.setBack w.1 w.2) { m with back := m.front, waiting := [] }).setFld
        F.MOR_STAT_MIRBUSY 0
    else e)

/-! ### Changes under signal (R162 to R165) -/

/-- The sinks that may differ: those a table or a fade lists. -/
def Mortar.listed (m : Mortar) : List Nat :=
  let a := m.front.map (·.1)
  a ++ (m.inForce.map (·.1)).filter (fun s => !a.contains s)

/-- MORTAR_FADE_START for one sink with no fade running: a step, or a fade of L frames (R162, R164). -/
def Mortar.startChange (m : Mortar) (s : Nat) : Mortar :=
  let new := SMap.get wordDflt m.front s
  let old := SMap.get wordDflt m.inForce s
  if m.fades.any (·.1 == s) || !entDiffers new old then m
  else if entFade new = 0 then { m with inForce := SMap.set wordDflt m.inForce s new }
  else { m with fades := SMap.insert m.fades s ⟨old, new, 0⟩ }

/-- Sinks with a change waiting behind a running fade (R164). -/
def Mortar.waits (m : Mortar) : Nat :=
  (m.fades.filter (fun f => entDiffers (SMap.get wordDflt m.front f.1) f.2.new)).length

/-- MOR_FADECNT follows the fades (R165). -/
def Die.fadeCount (e : Die) : Die := e.setRegN R.MOR_FADECNT (e.mor.fades.length + e.mor.waits * 2 ^ 16)

/-- At FT: changes of the front entries start, the deferred ones among them (R162, R164). -/
def Die.fadeStart (e : Die) : Die :=
  (e.updMor fun m => m.listed.foldl Mortar.startChange m).fadeCount

/-- ROUTE_TABLE_EXCHANGE, BADSRC_COUNT and the start of a mirror reload (R150, R151, R153). -/
def Die.routeExchange (e : Die) : Die :=
  let e := e.updMor fun m => { m with front := m.back, back := m.front }
  let bad := e.mor.front.filter (fun r => !srcAssigned (entSrc r.2))
  let e := match bad with
    | [] => e.setRegN R.MOR_BADSRC 0
    | b :: _ => (e.setRegN R.MOR_BADSRC (bad.length + b.1 * 2 ^ 16)).setFld F.MOR_IRQ_BADSRC 1
  if e.bit F.MOR_CTRL_MIRROR then e.setFld F.MOR_STAT_MIRBUSY 1 else e

/-! ### Trigonometry in units of 2^-60 -/

/-- 2π in units of 2^-60. -/
def twoPi60 : Nat := 7244019458077122842

/-- `sin x` by its series for x in units of 2^-60 in the first quadrant, `k` further terms from the term `t` of degree
`n`. -/
def sinSeries : Nat → Nat → Int → Int → Int → Int
  | 0, _, _, _, acc => acc
  | k + 1, n, x2, t, acc =>
    let t' := -(t * x2 / 2 ^ 60) / (((n + 1) * (n + 2) : Nat) : Int)
    sinSeries k (n + 2) x2 t' (acc + t')

/-- `sin` of an angle of at most a quarter turn, in 1/2^32 turns. -/
def sinQuad (p : Nat) : Int :=
  let x : Int := ((p * twoPi60 / 2 ^ 32 : Nat) : Int)
  sinSeries 14 1 (x * x / 2 ^ 60) x x

/-- `sin(2π φ / 2^32)` in units of 2^-60. -/
def sin60 (phi : Nat) : Int :=
  let p := phi % 2 ^ 32
  let r := p % 2 ^ 30
  match p / 2 ^ 30 with
  | 0 => sinQuad r
  | 1 => sinQuad (2 ^ 30 - r)
  | 2 => -sinQuad r
  | _ => -sinQuad (2 ^ 30 - r)

/-- A gain in units of 2^-27, rounded to the nearest (R163). -/
def gain27 (x : Int) : Int := (x + 2 ^ 32) / 2 ^ 33

/-! ### The gather (R148, R158, R163, R166) -/

/-- A term of a fade: negated exactly under INV, zero under MUTE (R163). -/
def fadeTerm (w : Word) (q : Quarter) : Int :=
  if entMute w then 0 else if entInv w then -q.toInt else q.toInt

/-- The gains of fade frame `f` of `L`: new and old (R163). -/
def fadeGains (shape : Bool) (f L : Nat) : Int × Int :=
  if shape then
    let phi := (2 * f + 1) * 2 ^ 32 / (8 * L)
    (gain27 (sin60 phi), gain27 (sin60 (phi + 2 ^ 30)))
  else
    let g : Nat := (2 * f + 1) * 2 ^ 27 / (2 * L)
    ((g : Int), ((2 ^ 27 - g : Nat) : Int))

/-- A value brought into the quarter range, and whether that changed it. -/
def satMark (x : Int) : Quarter × Bool := (satQ x, decide ((satQ x).toInt ≠ x))

/-- What a fading sink carries (R163). -/
def fadeValue (fd : Fade) (src : Nat → Quarter) : Quarter × Bool :=
  let (gn, go) := fadeGains (entShape fd.new) fd.pos (entFade fd.new)
  satMark (roundMode (fadeTerm fd.old (src (entSrc fd.old)) * go + fadeTerm fd.new (src (entSrc fd.new)) * gn) 27 0)

/-- What a sink with no fade carries (R148, R166). -/
def plainValue (w : Word) (src : Nat → Quarter) : Quarter × Bool :=
  let q := src (entSrc w)
  if entMute w then (0, false) else if entInv w then satMark (-q.toInt) else (q, false)

/-- MORTAR_GATHER: every sink from one snapshot of the sources (R158); saturations are counted (R163, R166). -/
def Die.gather (e : Die) (src : Nat → Quarter) : Die :=
  let m := e.mor
  let ids := (m.inForce.map (·.1) ++ (m.fades.map (·.1)).filter (fun s => !m.inForce.any (·.1 == s))).filter sinkValid
  let vals := ids.map fun s =>
    match m.fades.find? (·.1 == s) with
    | some f => (s, fadeValue f.2 src)
    | none => (s, plainValue (SMap.get wordDflt m.inForce s) src)
  let sinks := vals.foldl (fun (t : SMap Quarter) v => SMap.set quarterDflt t v.1 v.2.1) []
  let sats := (vals.filter (fun v => v.2.2)).length
  let pw := sinks.filter (fun v => 0x4300 ≤ v.1 && v.1 < 0x4400)
  ((e.updMor fun m => { m with sinks := sinks, pwOut := (e.seq, pw) :: m.pwOut.take 1 }).count F.MOR_SATCNT_COUNT
    sats).raise F.MOR_IRQ_SAT (sats != 0)

/-- The quarter a sink carried in the last window. -/
def Die.sink (e : Die) (s : Nat) : Quarter := SMap.get quarterDflt e.mor.sinks s

/-- The CRC-32 of the sink set 0x0000 to 0x43FF (R160). -/
def Mortar.digest (m : Mortar) : Nat :=
  crc32Words ((List.range 0x4400).map fun s => (BitVec.ofInt 32 (SMap.get quarterDflt m.sinks s).toInt).toNat)

/-- The Mortar's part of WINDOW_CLOSE: the digest latches (R160), the fades advance, those that have run L frames end and
their incoming entries come into force (R162), and FADEDONE sets when the sinks with a fade running or a change waiting fall to
none (R165). -/
def Die.mortarClose (e : Die) : Die :=
  let busy := !e.mor.fades.isEmpty || e.mor.total != 0
  let e := e.setRegN R.MOR_DIGEST e.mor.digest
  let e := e.updMor fun m =>
    let fs := m.fades.map fun f => (f.1, { f.2 with pos := f.2.pos + 1 })
    let ended := fs.filter fun f => entFade f.2.new ≤ f.2.pos
    { m with
      fades := fs.filter fun f => f.2.pos < entFade f.2.new
      inForce := ended.foldl (fun t f => SMap.set wordDflt t f.1 f.2.new) m.inForce }
  -- a change whose fade has just ended waits until FT starts it (R164)
  let w := (e.mor.listed.filter fun s =>
    entDiffers (SMap.get wordDflt e.mor.front s) (SMap.get wordDflt e.mor.inForce s)
      && !e.mor.fades.any (·.1 == s)).length
  let n := e.mor.fades.length + e.mor.waits + w
  let e := e.setRegN R.MOR_FADECNT (e.mor.fades.length + (e.mor.waits + w) * 2 ^ 16)
  (e.updMor fun m => { m with total := n }).raise F.MOR_IRQ_FADEDONE (busy && n == 0)

/-! ### Generators (R167 to R170, R503) -/

/-- The generator registers. -/
def genRegs : List Nat :=
  (List.range 4).flatMap (fun n => [R.MOR_SINE_INC n, R.MOR_SINE_OFS n, R.MOR_SINE_LEVEL n])
    ++ [R.MOR_PINK_LEVEL 0, R.MOR_PINK_LEVEL 1, R.MOR_WHITE_LEVEL 0, R.MOR_WHITE_LEVEL 1, R.MOR_IMPLEVEL,
        R.MOR_IMPFRAME, R.MOR_IMPCTL]

/-- GENERATOR_APPLY: at FT the written settings take effect (R170). -/
def Die.genLatch (e : Die) : Die :=
  e.updMor fun m => { m with gens := genRegs.foldl (fun t a => SMap.set wordDflt t a (e.reg a)) m.gens }

/-- A generator setting in force. -/
def Die.gen (e : Die) (a : Nat) : Nat := (SMap.get wordDflt e.mor.gens a).toNat

/-- A level in force, as a quarter. -/
def Die.genLevel (e : Die) (a : Nat) : Int := (BitVec.ofNat 28 (e.gen a)).toInt

/-- A sine value: LEVEL times the sine, off by a free amount within 2^-26 (R167), saturated (R503). The product stands in
units of 2^-87; one unit of the quarter is 2^60 of them, and the bound is two units. -/
def sineValue (level : Int) (phi : Nat) (err : Int) : Quarter × Bool :=
  let t := level * sin60 phi
  let x := roundMode (t + err) 60 0
  satMark (clampI (-((-(t - 2 ^ 61)) / 2 ^ 60)) ((t + 2 ^ 61) / 2 ^ 60) x)

/-- White noise before its level (R168). -/
def whiteRaw (seq n : Nat) : Quarter :=
  let v := BitVec.ofNat 32 seq ^^^ BitVec.ofNat 32 (0x3C3C0000 + n)
  BitVec.ofNat 28 (lfsrSteps 32 (if v = 0 then 1 else v)).toNat

/-- A value times a level, rounded to the nearest with ties toward +∞ and saturated (R168, R503). -/
def scaled (q : Quarter) (level : Int) : Quarter × Bool := satMark (roundMode (q.toInt * level) 27 0)

/-- The impulse generator presents its level in frame `k` (R169). -/
def impulseNow (k frame period : Nat) : Bool :=
  let d := (k + 2 ^ 32 - frame) % 2 ^ 32
  d < 2 ^ 31 && (d == 0 || (period != 0 && d % period == 0))

/-- The generators' values of this frame by source ID, with their saturations counted and the pink filters and the free
values moved on (R167 to R169, R503). -/
def Die.genFrame (e : Die) : SMap Quarter × Die :=
  let k := e.seq
  let sines := (List.range 4).map fun n =>
    (1 + n, sineValue (e.genLevel (R.MOR_SINE_LEVEL n))
      ((e.gen (R.MOR_SINE_INC n) * k + e.gen (R.MOR_SINE_OFS n)) % 2 ^ 32) (Config.sineError (e.free + n)))
  let whites := (List.range 2).map fun n => (7 + n, scaled (whiteRaw k n) (e.genLevel (R.MOR_WHITE_LEVEL n)))
  let filt := (List.finRange 2).map fun (n : Fin 2) => satMark (Config.pinkOut e.mor.pink[n] (whiteRaw k n.val))
  -- a value whose filter output and product both saturate is one saturated value
  let pinks := (List.range 2).map fun n =>
    let f := filt.getD n (0, false)
    let v := scaled f.1 (e.genLevel (R.MOR_PINK_LEVEL n))
    (5 + n, (v.1, v.2 || f.2))
  let imp := if impulseNow k (e.gen R.MOR_IMPFRAME) (e.gen R.MOR_IMPCTL) then
    BitVec.ofInt 28 (e.genLevel R.MOR_IMPLEVEL) else 0
  let vals := sines ++ whites ++ pinks
  let sats := (vals.filter (fun v => v.2.2)).length
  let out := vals.foldl (fun (t : SMap Quarter) v => SMap.set quarterDflt t v.1 v.2.1) []
  let e := e.updMor fun m => { m with
    pink := Vector.ofFn fun (n : Fin 2) => Config.pinkStep m.pink[n] (whiteRaw k n.val) }
  let e := { e with free := e.free + 4 }
  (SMap.set quarterDflt out 9 imp, (e.count F.MOR_SATCNT_COUNT sats).raise F.MOR_IRQ_SAT (sats != 0))

/-- GENERATOR_WRITE: a generator register takes the value in ENG; it is in force from the next FT (R170). -/
def Die.genWrite (e : Die) (a : Nat) (v : Word) : Die :=
  if genRegs.contains a then
    match regRow a with
    | some r => e.setRegN a (r.fields.foldl (fun n f => n + bitsOf v.toNat f.lo f.w * 2 ^ f.lo) 0)
    | none => e
  else e

/-- GENERATOR_WRITE (R170). -/
def execGeneratorWrite (d : DieId) (addr : Word) (v : Word) (s : State) : Out :=
  .next (s.writeIn .eng d addr.toNat v (·.genWrite addr.toNat v))

end Sys2Proof.Machine
end

