-- ==== Sys2Proof/Machine/Bridge.lean ====
section
/-! DEFINITION. The rate bridges (R173 to R179). -/

namespace Sys2Proof.Machine

/-- A bridge direction: `s2m` SIDE to MAIN. -/
def Die.bridge (e : Die) (s2m : Bool) : Bridge := if s2m then e.mor.s2m else e.mor.m2s

/-- Change a bridge direction. -/
def Die.updBridge (e : Die) (s2m : Bool) (f : Bridge → Bridge) : Die :=
  e.updMor fun m => if s2m then { m with s2m := f m.s2m } else { m with m2s := f m.m2s }

/-- The _EN field of a direction. -/
def brEn (s2m : Bool) : Fld := if s2m then F.MOR_BRCTL_S2M_EN else F.MOR_BRCTL_M2S_EN

/-- The _STATE field of a direction. -/
def brState (s2m : Bool) : Fld := if s2m then F.MOR_BRCTL_S2M_STATE else F.MOR_BRCTL_M2S_STATE

/-- The ramp's factor as a fraction, for its `p`th output sample (R177, R178). -/
def BrRamp.factor (r : BrRamp) (p : Nat) : Nat × Nat :=
  match r with
  | .zero => (0, 1)
  | .fadeIn => (min p 256, 256)
  | .full => (1, 1)
  | .down len num den => ((len - min p len) * num, len * den)

/-- The factor that the direction's outputs stand at. -/
def Bridge.level (b : Bridge) : Nat × Nat := b.ramp.factor b.pos

/-- A ramp begins with the next output sample. -/
def Bridge.start (b : Bridge) (r : BrRamp) : Bridge := { b with ramp := r, pos := 0 }

/-- A ramp to zero over `len` output samples, from where the outputs stand. -/
def Bridge.startDown (b : Bridge) (len : Nat) : Bridge := b.start (.down len b.level.1 b.level.2)

/-- What is left over of an output period at an input period's begin, from the phase fraction of its first output sample. -/
def leftOver (s2m : Bool) (ratio : Nat) (phi : BitVec 24) : Nat :=
  if ratio = 0 then 0
  else if s2m then (ratio - phi.toNat % ratio) % ratio
  else (2 ^ 24 - phi.toNat * ratio / 2 ^ 24 % 2 ^ 24) % 2 ^ 24

/-- An input period opens: the ratio gives its output samples (R175). The first one after a lock takes its phase from where the two
clocks stand, which is `phi`; from then on the tracked ratio sets it. -/
def Bridge.period (b : Bridge) (s2m : Bool) (ratio : Nat) (phi : BitVec 24) : Bridge :=
  if ratio = 0 then { b with n := 1 }
  else
    let a := if b.phased then b.acc else leftOver s2m ratio phi
    let b := { b with acc0 := a, phased := true }
    if s2m then { b with n := (a + 2 ^ 24) / ratio, acc := (a + 2 ^ 24) % ratio }
    else { b with n := (a + ratio) / 2 ^ 24, acc := (a + ratio) % 2 ^ 24 }

/-- The phase fraction of the period's output sample `j`: how far after the input boundary its frame opens, in input periods
(R175). -/
def Bridge.phiAt (b : Bridge) (s2m : Bool) (ratio j : Nat) : BitVec 24 :=
  if ratio = 0 then b.phi
  else BitVec.ofNat 24 (if s2m then ratio * (j + 1) - b.acc0 else ((j + 1) * 2 ^ 24 - b.acc0) * 2 ^ 24 / ratio)

/-- A quarter times a factor: exact, or one of the two quarters about the exact value. -/
def rampQ (q : Quarter) (f : Nat × Nat) (up : Bool) : Quarter :=
  let x := q.toInt * (f.1 : Int)
  BitVec.ofInt 28 (x / (f.2 : Int) + if x % (f.2 : Int) ≠ 0 ∧ up then 1 else 0)

/-- What an unlisted channel has taken in, and gives out. -/
def histDflt (_ : Nat) : List Quarter := []

/-- The output samples of an input period for one channel before the ramp, and which of them saturated: none is converted while the
ramp stands at zero (R175, R177, R179). -/
def Bridge.outputs (b : Bridge) (s2m : Bool) (hist : List Quarter) (ratio : Word) : List (Quarter × Bool) :=
  (List.range b.n).map fun (j : Nat) =>
    if (b.ramp.factor (b.pos + 1)).1 = 0 then (0, false)
    else satMark (Config.bridgeFilter hist (b.phiAt s2m ratio.toNat j) j ratio)

/-- Output samples that wait for their frames: no more than a period's and one, the latest ones. -/
def Bridge.wait (b : Bridge) (old ys : List Quarter) : List Quarter := (old ++ ys).drop ((old ++ ys).length - (b.n + 1))

/-- BRIDGE_SAMPLE: a channel takes an input sample and gives the output samples of its period, which saturate and are counted (R175,
R179). -/
def Die.bridgeStep (e : Die) (s2m : Bool) (ch : Nat) (x : Quarter) (phi : BitVec 24) : Die :=
  let b := e.bridge s2m
  let r := e.mor.ratio
  let b := if ch ≤ b.lastCh then b.period s2m r.toNat phi else b
  let hist := x :: (SMap.get histDflt b.hist ch).take 95
  let ys := b.outputs s2m hist r
  let e := e.updBridge s2m fun _ => { b with
    lastCh := ch
    phi := if b.n = 0 then b.phi else b.phiAt s2m r.toNat (b.n - 1)
    hist := SMap.set histDflt b.hist ch hist
    out := SMap.set histDflt b.out ch (b.wait (SMap.get histDflt b.out ch) (ys.map (·.1))) }
  e.count F.MOR_BRSAT_COUNT (ys.filter (·.2)).length

/-- An output frame of a direction takes the oldest waiting sample of some channels; a channel with none gives its last again. Where
`counts`, the direction's ramp moves on by the frame: it counts output samples, of MAIN frames for SIDE-to-MAIN and of SIDE frames
for MAIN-to-SIDE, whether or not input samples come (R177, R178). -/
def Die.bridgeFrame (e : Die) (s2m : Bool) (of : Nat → Bool) (counts : Bool) : Die :=
  let e := e.updBridge s2m fun b => { b with
    cur := b.out.foldl (fun t o => match o.2 with
      | y :: _ => if of o.1 then SMap.set quarterDflt t o.1 y else t
      | [] => t) b.cur
    out := b.out.map fun o => (o.1, if of o.1 then o.2.tail else o.2)
    pos := if counts then b.pos + 1 else b.pos
    mark := e.free }
  { e with free := e.free + 256 }

/-- What a channel of a direction presents: the ramp of its output sample. -/
def Bridge.present (b : Bridge) (c : Nat) : Quarter :=
  rampQ (SMap.get quarterDflt b.cur c) b.level (Config.rampUp (b.mark + c))

/-- BRIDGE_LOCK: the ratio is tracked. As LOCK sets, a direction that waits begins its fade-in, and one that is ON fades in
again (R177, R178). -/
def Die.bridgeLock (e : Die) (ratio : Word) : Die :=
  let was := e.bit F.MOR_BRCTL_LOCK
  let e := (e.setFld F.MOR_BRCTL_LOCK 1).updMor fun m => { m with ratio := ratio }
  if was then e
  else [false, true].foldl (fun e s2m =>
    let st := e.fld (brState s2m)
    e.updBridge s2m fun b =>
      let b := { b with phased := false }
      if st = St.rising ∧ b.ramp = .zero ∨ st = St.on then b.start .fadeIn else b) e

/-- BRIDGE_LOCK (R177). -/
def execBridgeLock (d : DieId) (ratio : Word) (s : State) : Out := .next (s.updIn .eng d (·.bridgeLock ratio))

/-- BRIDGE_LOCK_LOSS: a lock is lost: LOCK clears, BRLOCK sets, and each direction that is ON ramps to zero over 64 output
samples from where it stands (R177). DESIGN CHOICE: a fade-in of RISING runs on to its end, and the direction is then ON at full
gain (log 244). -/
def Die.bridgeLoss (e : Die) : Die :=
  if !e.bit F.MOR_BRCTL_LOCK then e
  else
    let e := (e.setFld F.MOR_BRCTL_LOCK 0).setFld F.MOR_IRQ_BRLOCK 1
    [false, true].foldl (fun e s2m =>
      if e.fld (brState s2m) = St.on then e.updBridge s2m (·.startDown 64) else e) e

/-- BRIDGE_LOCK_LOSS (R177). -/
def execBridgeLockLoss (d : DieId) (s : State) : Out := .next (s.updIn .eng d (·.bridgeLoss))

/-- BRIDGE_WAIT_ABORT: a direction that waits for lock goes to OFF when its _EN reads 0 (R178). -/
def Die.bridgeAbort (e : Die) (s2m : Bool) : Die :=
  if e.fld (brState s2m) = St.rising ∧ (e.bridge s2m).ramp = .zero ∧ !e.bit (brEn s2m) then
    e.setFld (brState s2m) St.off
  else e

/-- BRIDGE_WAIT_ABORT (R178). -/
def execBridgeWaitAbort (d : DieId) (s2m : Bool) (s : State) : Out := .next (s.updIn .eng d (·.bridgeAbort s2m))

/-- A direction begins RISING: the fade-in at once where the bridge is locked (R178). -/
def Die.bridgeRise (e : Die) (s2m : Bool) : Die :=
  (e.setFld (brState s2m) St.rising).updBridge s2m fun b =>
    b.start (if e.bit F.MOR_BRCTL_LOCK then .fadeIn else .zero)

/-- A direction begins FALLING: its outputs ramp to zero over 256 output samples, from where they stand (R178). -/
def Die.bridgeFall (e : Die) (s2m : Bool) : Die :=
  (e.setFld (brState s2m) St.falling).updBridge s2m (·.startDown 256)

/-- A written _EN starts the transition of a direction that rests (R31, R178). -/
def Die.bridgeEnable (e : Die) (s2m : Bool) : Die :=
  let st := e.fld (brState s2m)
  if st = St.off ∧ e.bit (brEn s2m) then e.bridgeRise s2m
  else if st = St.on ∧ !e.bit (brEn s2m) then e.bridgeFall s2m
  else e.bridgeAbort s2m

/-- The end of a direction's transition, once its ramp has run (R32, R178). -/
def Die.bridgeEnd (e : Die) (s2m : Bool) : Die :=
  let st := e.fld (brState s2m)
  let b := e.bridge s2m
  if st = St.rising ∧ b.ramp = .fadeIn ∧ 256 ≤ b.pos then
    let e := (e.setFld (brState s2m) St.on).updBridge s2m (·.start .full)
    if e.bit (brEn s2m) then e else e.bridgeFall s2m
  else if st = St.falling ∧ 256 ≤ b.pos then
    let e := (e.setFld (brState s2m) St.off).updBridge s2m fun b => { b.start .zero with cur := [], out := [] }
    if e.bit (brEn s2m) then e.bridgeRise s2m else e
  else e

/-- BRIDGE_MAP_WRITE: the entry MOR_BRIDX names, only while its direction is OFF (R174). -/
def Die.bridgeMap (e : Die) (v : Word) : Die :=
  let s2m := e.bit F.MOR_BRIDX_DIR
  if e.fld (brState s2m) = St.off then
    e.updMor fun m => { m with brMap := SMap.set wordDflt m.brMap (e.fld F.MOR_BRIDX_CH + 256 * b2n s2m) (v &&& 0x8000001F) }
  else e

/-- BRIDGE_MAP_WRITE (R174). -/
def execBridgeMapWrite (d : DieId) (v : Word) (s : State) : Out := .next (s.writeIn .eng d R.MOR_BRMAP v (·.bridgeMap v))

/-- BRIDGE_REPORT at each CTLRATE tick: the phase fractions, and the ratio, which locked bridges go on tracking (R175, R177). -/
def Die.bridgeReport (e : Die) : Die :=
  let r := if e.bit F.MOR_BRCTL_LOCK then Config.trackedRatio e.free e.mor.ratio else e.mor.ratio
  ((((e.updMor fun m => { m with ratio := r }).drawn).setReg R.MOR_BRRATIO r).setFld F.MOR_BRPHM2S_PHI
    e.mor.m2s.phi.toNat).setFld F.MOR_BRPHS2M_PHI e.mor.s2m.phi.toNat

/-- What SIDE-to-MAIN channel `c` presents: zero unless its direction carries it and the channel has a slot (R156, R178). -/
def Die.bridgeSource (e : Die) (c : Nat) : Quarter :=
  if natBit (SMap.get wordDflt e.mor.brMap (256 + c)).toNat 31 && e.fld (brState true) != St.off then
    e.mor.s2m.present c
  else 0

/-- MAIN-to-SIDE channel `c` has a slot of port 6 or 7. -/
def Die.bridgeOn (e : Die) (port7 : Bool) (c : Nat) : Bool :=
  let m := (SMap.get wordDflt e.mor.brMap c).toNat
  natBit m 31 && natBit m 4 == port7

/-- What SIDE output slot `slot` of port 6 or 7 carries: its lowest-numbered channel (R174). -/
def Die.bridgeSlot (e : Die) (port7 : Bool) (slot : Nat) : Quarter :=
  match (List.range 256).find? (fun c => e.bridgeOn port7 c && (SMap.get wordDflt e.mor.brMap c).toNat % 16 == slot) with
  | some c => if e.fld (brState false) != St.off then e.mor.m2s.present c else 0
  | none => 0

end Sys2Proof.Machine
end

