-- ==== Sys2Proof/Machine/Cvd.lean ====
section
/-! DEFINITION. The control-voltage outputs: codes, clear holds, sine generators, read-back and faults (R364 to R379). -/

namespace Sys2Proof.Machine

/-- Change the CV state. -/
def Die.updCvd (e : Die) (f : Cvd → Cvd) : Die := { e with cvd := f e.cvd }

/-- The clear code of the die (R367). -/
def Die.clearCode (e : Die) : BitVec 18 := clearCodeOf e.id

/-- The block's state (R31). -/
def Die.cvState (e : Die) : Nat := e.fld F.CVD_CTRL_STATE

/-- A channel's clear hold is set: its DAC holds the clear code (R368). -/
def Die.cvHold (e : Die) (n : Fin 16) : Die :=
  (e.setFld (F.CVD_N_STAT_CLRHOLD n.val) 1).updCvd fun c => { c with
    dac := c.dac.set n.val e.clearCode
    armed := c.armed.filter (· != n) }

/-- Every channel's hold is set. -/
def Die.cvHoldAll (e : Die) : Die := (List.finRange 16).foldl (fun e (n : Fin 16) => e.cvHold n) e

/-- What the block takes of the level on `CVCLR_N`: low sets every hold, high ends that (R368). -/
def Die.cvClearIn (e : Die) (low : Bool) : Die :=
  if low then ((e.setFld F.CVD_STAT_CLRIN 1).setFld F.CVD_IRQ_CLR 1).cvHoldAll else e.setFld F.CVD_STAT_CLRIN 0

/-- CV_CLEAR_INPUT: `CVCLR_N` falls or returns high (R368). The input of a block that is OFF is disabled (R465): DEDUCED, it
reads high, and the level that stands on the ball counts from RISING on (log 255). -/
def Die.cvClear (e : Die) (low : Bool) : Die :=
  let e := e.updCvd fun c => { c with clrLow := low }
  if e.cvState = St.off then e else e.cvClearIn low

/-- CV_CLEAR_INPUT (R368). -/
def execCvClearInput (d : DieId) (low : Bool) (s : State) : Out := .next (s.updIn .keep d (·.cvClear low))

/-- CV_DATA_WRITE: the code is stored; the hold clears while `CVCLR_N` is high and the block is ON, unless the write meets a
setting event. A write in RISING clears the hold at the first FT of ON (R368, R372). -/
def Die.cvData (e : Die) (n : Fin 16) (v : Word) (setting : Bool) : Die :=
  let e := e.setFld ⟨R.CVD_N_DATA n.val, 0, 18⟩ v.toNat
  if setting || e.bit F.CVD_STAT_CLRIN then e
  else if e.cvState = St.on then e.setFld (F.CVD_N_STAT_CLRHOLD n.val) 0
  else if e.cvState = St.rising then e.updCvd fun c => { c with armed := n :: c.armed.filter (· != n) }
  else e

/-- CV_DATA_WRITE (R368). -/
def execCvDataWrite (d : DieId) (n : Fin 16) (v : Word) (setting : Bool) (s : State) : Out :=
  .next (s.writeIn .eng d (R.CVD_N_DATA n.val) v (·.cvData n v setting))

/-- CV_CFG_WRITE: the register takes the value; SPAN and SRC come into effect at the next FT. RBEN exists on precision
channels only (R369, R379). -/
def Die.cvCfg (e : Die) (n : Fin 16) (v : Word) : Die :=
  e.setRegN (R.CVD_N_CFG n.val) (insBits (v.toNat % 64) 4 1 (if n.val < 8 then bitsOf v.toNat 4 1 else 0))

/-- CV_CFG_WRITE (R369). -/
def execCvCfgWrite (d : DieId) (n : Fin 16) (v : Word) (s : State) : Out :=
  .next (s.writeIn .eng d (R.CVD_N_CFG n.val) v (·.cvCfg n v))

/-- VCV_GOOD: until the image runs, every channel is driven at the clear code of U5V, while the fence input is not asserted
(R370). -/
def Die.cvGood (e : Die) : Die :=
  let e := e.setFld F.CVD_STAT_VCVOK 1
  if e.imageRuns then e
  else (List.finRange 16).foldl (fun e (n : Fin 16) => (e.cvHold n).setFld (F.CVD_N_STAT_ASPAN n.val) 0)
    (e.updCvd fun c => { c with keepDrive := true })

/-- VCV_GOOD (R370). -/
def execVcvGood (d : DieId) (s : State) : Out := .next (s.updIn .keep d (·.cvGood))

/-! ### The sine generator (R373) -/

/-- T(j) of R373: `sin(π j / 2048)` in units of 2^-60 brings the rounded table value. -/
def cvTable (j : Nat) : Int :=
  if 1024 ≤ j then 1048575 else (sinQuad (j * 2 ^ 20) * 1048575 + 2 ^ 59) / 2 ^ 60

/-- The signed magnitude of the sine at a phase, in units of 2^-20 of a table step. -/
def cvSine (phi : Nat) : Int :=
  let pos := bitsOf phi 0 30
  let x := if natBit phi 30 then 2 ^ 30 - pos else pos
  let j := x / 2 ^ 20
  let m := cvTable j * 2 ^ 20 + (cvTable (j + 1) - cvTable j) * ((x % 2 ^ 20 : Nat) : Int)
  if natBit phi 31 then -m else m

/-- LEVEL × S, rounded once to a quarter, to the nearest with ties toward +∞. -/
def cvLevel (level : Int) (phi : Nat) : Int :=
  let den : Int := 1048575 * 2 ^ 20
  (2 * level * cvSine phi + den) / (2 * den)

/-- A generator setting in force. -/
def Die.cvGen (e : Die) (a : Nat) : Nat := (SMap.get wordDflt e.cvd.gens a).toNat

/-- The generator's value for frame sequence `k`. -/
def Die.cvSineValue (e : Die) (n : Fin 16) (k : Nat) : Quarter :=
  let phi := (e.cvGen (R.CVD_N_SINC n.val) * k + e.cvGen (R.CVD_N_SPH n.val)) % 2 ^ 32
  let level := (BitVec.ofNat 28 (e.cvGen (R.CVD_N_SLEV n.val))).toInt
  let ofs := (BitVec.ofNat 28 (e.cvGen (R.CVD_N_SOFS n.val))).toInt
  satQ (cvLevel level phi + ofs)

/-- The generator registers. -/
def cvGenRegs : List Nat :=
  (List.range 16).flatMap fun n => [R.CVD_N_SINC n, R.CVD_N_SPH n, R.CVD_N_SLEV n, R.CVD_N_SOFS n]

/-! ### Codes (R366, R371) -/

/-- A quarter becomes a code in a span, and whether it saturated (R366). -/
def cvCode (span : Nat) (q : Quarter) : BitVec 18 × Bool :=
  let uni := span < 2
  let x := roundMode q.toInt (if uni then 9 else 10) 0
  let y := if uni then clampI 0 262143 x else clampI (-131072) 131071 x
  (BitVec.ofInt 18 (if uni then y else y + 131072), decide (y ≠ x))

/-- The code of a channel's source at FT of frame `k` + 1, with its saturation (R366, R371). -/
def Die.cvSource (e : Die) (n : Fin 16) (k : Nat) : BitVec 18 × Die :=
  let span := e.fld (F.CVD_N_STAT_ASPAN n.val)
  let src := e.fld (F.CVD_N_CFG_SRC n.val)
  if src = 0 then (BitVec.ofNat 18 (e.regN (R.CVD_N_DATA n.val)), e)
  else
    let q := if src = 2 then e.cvSineValue n k else e.sink (0x4100 + n.val)
    let (c, sat) := cvCode span q
    (c, (e.count (F.CVD_N_SAT_COUNT n.val) (b2n sat)).raise F.CVD_IRQ_SAT sat)

/-- FT for one channel: a reserved source shows, faults and span changes set the hold, an armed write clears it, and the code is
latched (R368, R369, R371, R372). -/
def Die.cvFt1 (e : Die) (k : Nat) (n : Fin 16) : Die :=
  let fault := e.cvd.faults.contains n
  let span := e.fld (F.CVD_N_CFG_SPAN n.val)
  let change := span != e.fld (F.CVD_N_STAT_ASPAN n.val)
  let armed := e.cvd.armed.contains n && e.cvState == St.on
  let e := (e.setFld (F.CVD_N_STAT_ASPAN n.val) span).raise (F.CVD_N_STAT_SRCERR n.val) (e.fld (F.CVD_N_CFG_SRC n.val) == 3)
  let e := if change then e.updCvd fun c => { c with skip := n :: c.skip } else e
  let e := if fault || change then e.cvHold n
    else if armed && !e.bit F.CVD_STAT_CLRIN then (e.setFld (F.CVD_N_STAT_CLRHOLD n.val) 0).updCvd fun c =>
      { c with armed := c.armed.filter (· != n) }
    else e
  if e.bit (F.CVD_N_STAT_CLRHOLD n.val) || e.cvState != St.on then
    (e.setRegN (R.CVD_N_OUT n.val) e.clearCode.toNat).updCvd fun c => { c with dac := c.dac.set n.val e.clearCode }
  else
    let (code, e) := e.cvSource n k
    (e.setRegN (R.CVD_N_OUT n.val) code.toNat).updCvd fun c => { c with dac := c.dac.set n.val code }

/-- The block starts a transition at FT (R31, R372). -/
def Die.cvStart (e : Die) : Die :=
  if e.cvState = St.off ∧ e.bit F.CVD_CTRL_EN then
    ((e.setFld F.CVD_CTRL_STATE St.rising).updCvd fun c => { c with framesLeft := 4 }).cvClearIn e.cvd.clrLow
  else if e.cvState = St.on ∧ !e.bit F.CVD_CTRL_EN then
    ((e.setFld F.CVD_CTRL_STATE St.falling).updCvd fun c => { c with framesLeft := 4 }).cvHoldAll
  else e

/-- CV_LATCH at FT of frame `k` + 1, after which the generator settings in force are those written (R371, R373). -/
def Die.cvFt (e : Die) (k : Nat) : Die :=
  let e := (List.finRange 16).foldl (fun e (n : Fin 16) => e.cvFt1 k n) (e.updCvd fun c => { c with skip := [] })
  e.updCvd fun c => { c with
    faults := []
    gens := cvGenRegs.foldl (fun t a => SMap.set wordDflt t a (e.reg a)) c.gens }

/-- The end of the block's transition (R32, R372). -/
def Die.cvEnd (e : Die) : Die :=
  if e.cvd.framesLeft ≠ 0 then e
  else if e.cvState = St.rising then
    let e := e.setFld F.CVD_CTRL_STATE St.on
    if e.bit F.CVD_CTRL_EN then e else e.cvStart
  else if e.cvState = St.falling then
    let e := (e.setFld F.CVD_CTRL_STATE St.off).setFld F.CVD_STAT_CLRIN 0
    if e.bit F.CVD_CTRL_EN then e.cvStart else e
  else e

/-! ### Read-back and faults (R374 to R376) -/

/-- The voltage of a code in a span, with the `CVMID` reading given, in units of 2^-20 mV (R365). -/
def cvVolts (span : Nat) (code mid : Nat) : Int :=
  let c : Int := ((code : Nat) : Int)
  let m : Int := ((mid * 5 * 2 ^ 18 : Nat) : Int)
  match span with
  | 0 => 20000 * c
  | 1 => 10000 * c
  | 2 => m + 20000 * (c - 131072)
  | _ => m + 10000 * (c - 131072)

/-- A reading, of 1.25 mV, lies more than 16 mV from a voltage (R374, R375). -/
def cvFar (reading : Nat) (volts : Int) : Bool :=
  let x : Int := ((reading * 5 * 2 ^ 18 : Nat) : Int) - volts
  decide (16 * 2 ^ 20 < x) || decide (x < -(16 * 2 ^ 20))

/-- The expected voltage of a channel in 1.25 mV units, for the record (R375, R432). -/
def cvExpected (volts : Int) : Nat := ((volts + 5 * 2 ^ 17) / (5 * 2 ^ 18)).toNat

/-- A conversion of channel `n` (R374, R375). -/
def Die.cvRead (e : Die) (n : Fin 8) (reading : Nat) : Die :=
  let ch : Fin 16 := ⟨n.val, by omega⟩
  let e := e.setRegN (R.CVD_N_RB n.val) (reading + 2 ^ 31)
  let volts := cvVolts (e.fld (F.CVD_N_STAT_ASPAN n.val)) (e.regN (R.CVD_N_OUT n.val)) (e.fld ⟨R.CVD_MIDRB, 0, 12⟩)
  if e.cvd.skip.contains ch || !cvFar reading volts then e
  else
    let e := ((e.setFld (F.CVD_N_STAT_RBFAIL n.val) 1).setBitAt F.CVD_IRQ_RBFAIL n.val true).logEv 6 2 n.val reading
      (cvExpected volts)
    if e.bit (F.CVD_N_CFG_FLTCLR n.val) then e.updCvd fun c => { c with faults := ch :: c.faults } else e

/-- One conversion per frame, in a cycle of `CVMID` and CV0 to CV7; a channel without RBEN leaves its slot idle (R374). -/
def Die.cvConvert (e : Die) (reading : Nat) : Die :=
  let m := e.cvd.mon
  let e := e.updCvd fun c => { c with mon := c.mon + 1 }
  if h : m.val = 0 then
    (e.setRegN R.CVD_MIDRB (reading + 2 ^ 31)).raise F.CVD_IRQ_MIDFAIL (cvFar reading (2500 * 2 ^ 20))
  else
    let n : Fin 8 := ⟨m.val - 1, by omega⟩
    if e.bit (F.CVD_N_CFG_RBEN n.val) then e.cvRead n reading else e

/-- LIMIT of drive-class channel 8 + `n`, and SHORT at 16 consecutive frames (R376). -/
def Die.cvLimit (e : Die) (limits : BitVec 8) (n : Fin 8) : Die :=
  let ch : Fin 16 := ⟨8 + n.val, by omega⟩
  let lim := natBit limits.toNat n.val
  let run := if lim then min 17 (e.cvd.run[n] + 1) else 0
  let e := (e.setBit (F.CVD_N_STAT_LIMIT ch.val) lim).updCvd fun c => { c with run := c.run.set n.val run }
  if run = 16 then
    let e := ((e.setFld (F.CVD_N_STAT_SHORT ch.val) 1).setBitAt F.CVD_IRQ_SHORT n.val true).logEv 6 3 ch.val
    if e.bit (F.CVD_N_CFG_FLTCLR ch.val) then e.updCvd fun c => { c with faults := ch :: c.faults } else e
  else e

/-- What the monitor and the limiters give at cycle N − 512: a conversion in a die that computes codes, while the block is ON,
and the limiters in every frame (R374 to R377). -/
def Die.cvWindow (e : Die) (reading : BitVec 12) (limits : BitVec 8) : Die :=
  let e := if e.cvState = St.on ∧ e.inService then e.cvConvert reading.toNat else e
  (List.finRange 8).foldl (fun e (n : Fin 8) => e.cvLimit limits n) e

/-- The analogue balls have what drives them: VANA in its window (R365, R470), and VCV, which supplies them (R463, R471). -/
def Die.analogueOn (e : Die) : Bool := e.railOk .vana && e.bit F.CVD_STAT_VCVOK

/-- This die drives the CV balls (R280, R298, R370). -/
def Die.cvDrives (e : Die) : Bool :=
  e.analogueOn && !e.bit F.PAIR_FENCE_FIN && !e.frz.gate && (e.cvd.keepDrive || e.pair.driving)

/-- The die drives `CVMID` at 2.5 V: in every role, and whether fenced or not (R365). DEDUCED: with VCV off it does not, by R471
(log 256). -/
def Die.cvmidDrives (e : Die) : Bool := e.analogueOn

/-- What CVD registers compute at a read: DRIVE of CVD_n_STAT, and CLRSEL (R367, R379). -/
def Die.cvdRead (e : Die) (a : Nat) : Option Nat :=
  if a = R.CVD_STAT then some (insBits (e.regN a) 1 1 (b2n (Config.strapClrsel e.id)))
  else if R.CVD_N_STAT 0 ≤ a ∧ a ≤ R.CVD_N_STAT 15 ∧ (a - R.CVD_N_STAT 0) % 0x40 = 0 then
    some (insBits (e.regN a) 6 1 (b2n e.cvDrives))
  else none

end Sys2Proof.Machine
end

