-- ==== Sys2Proof/Machine/Mem.lean ====
section
/-! DEFINITION. The targets of the crossbar, and BANK0 to BANK3 and SHARED: bytes, check bits, and reads and writes of them
(R390 to R394). -/

namespace Sys2Proof.Machine

/-- The targets of R390. -/
inductive Target
  | bank (n : Fin 4)
  | shared | peri | engw | yardw | morw | dflt
  deriving DecidableEq, Repr

/-- Place of a target among those of R394. -/
def Target.idx : Target → Nat
  | .bank n => n.val
  | .shared => 4
  | .peri => 5
  | .engw => 6
  | .yardw => 7
  | .morw => 8
  | .dflt => 9

/-- The target an address decodes to (R390). -/
def decodeAddr (a : Nat) : Target :=
  if a < 0x100000 then .bank 0
  else if a < 0x200000 then .bank 1
  else if a < 0x300000 then .bank 2
  else if a < 0x400000 then .bank 3
  else if a < 0x600000 then .shared
  else if a < 0x10000000 then .dflt
  else if a < 0x10012000 then .peri
  else if a < 0x20000000 then .dflt
  else if a < 0x201C0000 then .engw
  else if a < 0x30000000 then .dflt
  else if a < 0x38000000 then .yardw
  else if a < 0x40000000 then .dflt
  else if a < 0x40014000 then .morw
  else .dflt

/-- The targets a master reaches (R393). -/
def reaches (m : Nat) (t : Target) : Bool :=
  if m < 4 || m = 5 then true
  else if m = 4 then t == .shared
  else if m = 6 then t == .shared || t == .peri || t == .engw || t == .morw
  else false

/-- Every other address decodes to DEFAULT for that master (R393). -/
def targetOf (m a : Nat) : Target := if reaches m (decodeAddr a) then decodeAddr a else .dflt

/-- The master a target parks on when it is idle (R394). -/
def parkOf (t : Nat) : BitVec 3 := if t < 4 then BitVec.ofNat 3 t else if t = 4 then 4 else 0

/-- A burst of master `j` holds the path to a target (R395). -/
def Xbar.holds (x : Xbar) (j : Nat) (t : Nat) : Bool :=
  match x.bursts[j]? with
  | some (some b) => (targetOf j b.addr).idx == t
  | _ => false

/-- Every target that no burst holds is parked (R394, R395). -/
def Xbar.parked (x : Xbar) : Xbar :=
  { x with granted := Vector.ofFn fun (t : Fin 10) =>
      (((List.range 7).find? fun j => x.holds j t.val).map (BitVec.ofNat 3)).getD (parkOf t.val) }

/-- First byte of SHARED (R390). -/
def sharedBase : Nat := 0x400000

/-- The address lies in a bank or in SHARED (R390). -/
def inMem (a : Nat) : Bool := a < 0x600000

/-- A number of `n` bytes, the lowest address least significant. -/
def Mem.load (m : Mem) (a : Nat) : Nat → Nat
  | 0 => 0
  | n + 1 => (SMap.get byteDflt m.bytes a).toNat + 256 * m.load (a + 1) n

/-- Write the `n` low bytes of a number. -/
def Mem.store (m : Mem) (a v : Nat) : Nat → Mem
  | 0 => m
  | n + 1 => { m with bytes := SMap.set byteDflt m.bytes a (BitVec.ofNat 8 v) }.store (a + 1) (v / 256) n

/-- The mark of a 64-bit word. -/
def Mem.mark (m : Mem) (a : Nat) : BitVec 2 := SMap.get (fun _ => 0) m.bad (a / 8)

/-- Set the mark of a 64-bit word. -/
def Mem.setMark (m : Mem) (a : Nat) (v : BitVec 2) : Mem := { m with bad := SMap.set (fun _ => 0) m.bad (a / 8) v }

/-- Write a number of at most 8 bytes inside one 64-bit word; a whole word gets fresh check bits (R392). -/
def Mem.write (m : Mem) (a v n : Nat) : Mem :=
  let m := m.store a v n
  if n = 8 then m.setMark a 0 else m

/-- BANK_ECC: a read of bytes inside one 64-bit word by a master, with the error it finds. A correctable word is corrected,
written back and counted; an uncorrectable one is counted and recorded, and gives no data (R392). -/
def Die.memRead (e : Die) (master a n : Nat) (err : Option EccKind) : Option Nat × Die :=
  let k := max (e.mem.mark a).toNat (match err with
    | none => 0
    | some .sbe => 1
    | some .dbe => 2)
  match k with
  | 0 => (some (e.mem.load a n), e)
  | 1 =>
    let e := { e with mem := e.mem.setMark a 0 }
    (some (e.mem.load a n), (e.count F.XBR_ECC_SBE 1).setFld F.XBR_IRQ_ECC1 1)
  | _ =>
    let e := { e with mem := e.mem.setMark a 2 }
    (none, ((e.count F.XBR_ECC_DBE 1).setFld F.XBR_IRQ_ECC2 1).logEv 5 5 a master)

/-- Write bytes into the memory. -/
def Die.memWrite (e : Die) (a v n : Nat) : Die := { e with mem := e.mem.write a v n }

/-- A write by a master: 64 bits with fresh check bits, or fewer as a read-modify-write, whose read is corrected, counted and
reported as any other (R392). Where that read is uncorrectable nothing is written, and the answer is an error response: the
manual gives the read that response and no result of the write. DEDUCED (log 224). -/
def Die.memStore (e : Die) (master a v n : Nat) : Bool × Die :=
  if n = 8 then (true, e.memWrite a v 8)
  else match e.memRead master (a / 8 * 8) 8 none with
    | (some _, e) => (true, e.memWrite a v n)
    | (none, e) => (false, e)

end Sys2Proof.Machine
end

