-- ==== Sys2Proof/Machine/Log.lean ====
section
/-! DEFINITION. The event recorder (R431 to R441, R456). -/

namespace Sys2Proof.Machine

/-- Change the recorder. -/
def Die.updLog (e : Die) (f : LogUnit → LogUnit) : Die := { e with log := f e.log }

/-- The next good slot from `n` on, within `k` tries. -/
def LogUnit.goodFrom (u : LogUnit) : Nat → Nat → Nat
  | 0, n => n
  | k + 1, n => if u.bad.contains n then u.goodFrom k (n + 1) else n

/-- Where the next record goes (R433): the foundation while it has a good slot, else the circulating area; `none` when no
slot is good. -/
def Die.logSlot (e : Die) : Option Nat :=
  let u := e.log
  let k := u.bad.length
  let f := u.goodFrom k (e.fld F.LOG_FNEXT_SLOT)
  if f < 1024 then some f
  else
    let h := u.goodFrom k (e.fld F.LOG_HEAD_SLOT)
    if h < 8192 then some h
    else
      let h := u.goodFrom k 1024
      if h < e.fld F.LOG_HEAD_SLOT then some h else none

/-- The missed counts of a GAP record: class c in bits 12c+11 to 12c of a 96-bit field (R435). -/
def Die.gapField (e : Die) : Nat :=
  (List.range 8).foldl (fun n c => n + min (e.fld (F.LOG_MISSED_COUNT c)) 4095 * 2 ^ (12 * c)) 0

/-- The recorder queues one GAP record and clears every missed count in the same cycle (R435). -/
def Die.queueGap (e : Die) : Die :=
  let n := e.gapField
  let r := e.record 0 9 (n % 2 ^ 32) (n / 2 ^ 32 % 2 ^ 32) (n / 2 ^ 64)
  let e := (List.range 8).foldl (fun e c => e.setFld (F.LOG_MISSED_COUNT c) 0) e
  e.updLog fun u => { u with queue := u.queue ++ [r], owed := false }

/-- A record as it is written: FOUND by its slot, and the CRC of words 0 to 6 in word 7 (R431). -/
def LogRec.seal (r : LogRec) (found : Bool) : LogRec :=
  let r : LogRec := r.set 0 (BitVec.ofNat 32 (insBits r[0].toNat 0 1 (b2n found)))
  r.set 7 (BitVec.ofNat 32 (crc32Words ((r.toList.take 7).map (·.toNat))))

/-- The count of records lost after the epitaph, saturating at 32 bits (R441, R456). -/
def Die.epiCount (e : Die) : Die := e.setRegN R.LOG_EPICNT (satAdd 32 (e.regN R.LOG_EPICNT) 1)

/-- LOGFAIL begins with a record that cannot be written: words 0, 1, 3 and 4 of the first one become the epitaph, which then
holds until VIO18 is lost (R441). -/
def Die.logFail (e : Die) (r : LogRec) : Die :=
  let e := if e.reg (R.LOG_EPITAPH 0) ≠ 0 then e.epiCount
    else (((e.setReg (R.LOG_EPITAPH 0) r[0]).setReg (R.LOG_EPITAPH 1) r[1]).setReg (R.LOG_EPITAPH 2) r[3]).setReg
      (R.LOG_EPITAPH 3) r[4]
  (e.setFld F.LOG_STAT_LOGFAIL 1).setFld F.LOG_IRQ_LOGFAIL 1

/-- A record is written into a slot, and the pointers, counts and interrupts follow (R433). -/
def Die.writeSlot (e : Die) (slot : Nat) (r : LogRec) : Die :=
  let e := e.updLog fun u => { u with
    mem := SMap.set (fun _ => LogRec.zero) u.mem slot (r.seal (decide (slot < 1024)))
    back := some (slot, r) }
  let e := e.setRegN R.LOG_WRITTEN (e.regN R.LOG_WRITTEN + 1)
  let e := if slot < 1024 then
      let n := e.log.goodFrom e.log.bad.length (slot + 1)
      let e := e.setFld F.LOG_FNEXT_SLOT (min n 1024)
      if 1024 ≤ n then (e.setFld F.LOG_STAT_FOUNDFULL 1).setFld F.LOG_IRQ_FOUNDFULL 1 else e
    else
      let wrapped := slot + 1 = 8192 ∨ slot < e.fld F.LOG_HEAD_SLOT
      let e := e.setFld F.LOG_HEAD_SLOT (if slot + 1 = 8192 then 1024 else slot + 1)
      if wrapped then e.setFld F.LOG_HEAD_LAPS (e.fld F.LOG_HEAD_LAPS + 1) else e
  let e := e.raise F.LOG_IRQ_REC (natBit (e.fld F.LOG_IRQCLS_VALUE) r.cls)
  e.raise F.LOG_IRQ_GAP (r.cls == 0 && bitsOf r[0].toNat 8 16 == 9)

/-- LOG_RECORD_WRITE: the oldest queued record goes into the next good slot, unless a clear runs. With no good slot, or
on a bad-map parity failure, the recorder enters LOGFAIL; while it stays there, records are lost and counted (R433, R434,
R441). A GAP follows as soon as the queue has room after a miss (R435). -/
def Die.logWrite (e : Die) (parityFail : Bool) : Die :=
  if !e.runs .keep || e.log.clear.isSome then e
  else match e.log.queue with
    | [] => if parityFail && !e.bit F.LOG_STAT_LOGFAIL then
        (e.setFld F.LOG_STAT_LOGFAIL 1).setFld F.LOG_IRQ_LOGFAIL 1 else e
    | r :: rs =>
      let e := e.updLog fun u => { u with queue := rs }
      if e.bit F.LOG_STAT_LOGFAIL then e.epiCount
      else
        let e := match e.logSlot, parityFail with
          | some slot, false => e.writeSlot slot r
          | _, _ => e.logFail r
        if e.log.owed && e.log.events < 16 && !e.bit F.LOG_STAT_LOGFAIL && !e.bit F.LOG_CTRL_FREEZE then e.queueGap else e

/-- LOG_RECORD_WRITE (R434). -/
def execLogRecordWrite (d : DieId) (parityFail : Bool) (s : State) : Out := .next (s.updIn .keep d (·.logWrite parityFail))

/-- A slot is marked bad: the bad-map, its count, and MEMFAULT (R440). -/
def Die.markBad (e : Die) (slot : Nat) : Die :=
  let e := (e.count F.LOG_ECC_DBE 1).setFld F.LOG_IRQ_MEMFAULT 1
  if e.log.bad.contains slot then e
  else (e.updLog fun u => { u with bad := slot :: u.bad }).count F.LOG_STAT_BAD 1

/-- LOG_READBACK: the record just written is read back. A correctable error is corrected and counted; an uncorrectable
one marks the slot bad, and the same record is written again, followed by a record 0x0006 that names the slot (R440). -/
def Die.logReadback (e : Die) (err : Option EccKind) : Die :=
  match e.log.back with
  | none => e
  | some (slot, r) =>
    let e := e.updLog fun u => { u with back := none }
    match err with
    | none => e
    | some .sbe => e.count F.LOG_ECC_SBE 1
    | some .dbe =>
      let e := e.markBad slot
      let note := e.record 5 6 slot 0 0
      e.updLog fun u => { u with queue := r :: note :: u.queue }

/-- LOG_READBACK (R440). -/
def execLogReadback (d : DieId) (err : Option EccKind) (s : State) : Out := .next (s.updIn .keep d (·.logReadback err))

/-- An access to the LOG block that is not the next step of the clear key cancels the key sequence (R436). The sequence is that
of the accesses the block accepts; an access that ends in an error response reaches no register and leaves it. DESIGN
CHOICE. -/
def Die.logTouch (e : Die) : Die := e.updLog fun u => { u with key := 0 }

/-- A write of LOG_KEY: 0x0000_5AFE, then 0x0000_C1EA (R436). -/
def Die.logKey (e : Die) (v : Word) : Die :=
  e.updLog fun u => { u with
    key := if v = 0x5AFE then 1 else if v = 0xC1EA ∧ u.key = 1 then 2 else 0 }

/-- LOG_FREEZE_WRITE: while FREEZE is set nothing is queued; when it is cleared one GAP is queued (R435). -/
def Die.logFreeze (e : Die) (v : Bool) : Die :=
  let was := e.bit F.LOG_CTRL_FREEZE
  let e := e.setBit F.LOG_CTRL_FREEZE v
  if was && !v && !e.bit F.LOG_STAT_LOGFAIL then e.queueGap else e

/-- LOG_FREEZE_WRITE (R435). -/
def execLogFreezeWrite (d : DieId) (v : Bool) (s : State) : Out := .next (s.updIn .keep d (·.logTouch.logFreeze v))

/-- A write of LOG_CLEAR, with the key just given or not: the areas named by FOUND and CIRC begin to clear; areas that a clear
in progress names are cleared with them (R436). -/
def Die.logClearWith (e : Die) (keyed : Bool) (v : Word) : Die :=
  let found := natBit v.toNat 0 || (e.log.clear.any fun c => c.found)
  let circ := natBit v.toNat 1 || (e.log.clear.any fun c => c.circ)
  if keyed ∧ (natBit v.toNat 0 ∨ natBit v.toNat 1) then
    let e := if found then (e.setFld F.LOG_FNEXT_SLOT 0).setFld F.LOG_STAT_FOUNDFULL 0 else e
    let e := if circ then e.setFld F.LOG_HEAD_SLOT 1024 else e
    (e.updLog fun u => { u with clear := some ⟨found, circ, if found then 0 else 1024⟩, back := none }).setFld
      F.LOG_STAT_CLEARING 1
  else e

/-- LOG_CLEAR: the write takes effect only right after its key (R436). -/
def Die.logClear (e : Die) (v : Word) : Die := e.logTouch.logClearWith (e.log.key == 2) v

/-- LOG_CLEAR (R436). -/
def execLogClear (d : DieId) (v : Word) (s : State) : Out := .next (s.updIn .keep d (·.logClear v))

/-- One KEEP cycle of a clear zeroes one slot (R436). -/
def Die.logClearTick (e : Die) : Die :=
  match e.log.clear with
  | none => e
  | some c =>
    let last := if c.circ then 8192 else 1024
    if c.next < last then
      e.updLog fun u => { u with mem := SMap.erase u.mem c.next, clear := some { c with next := c.next + 1 } }
    else e

/-- LOG_CLEAR_DONE: every slot of the areas is zero, and a record 0x000A follows (R436). A clear of both areas ends
LOGFAIL and rebuilds the bad-map from what every slot read back (R441). -/
def Die.logClearDone (e : Die) : Die :=
  match e.log.clear with
  | none => e
  | some c =>
    let inArea (s : Nat) : Bool := (c.found && s < 1024) || (c.circ && 1024 ≤ s)
    let e := (e.updLog fun u => { u with mem := u.mem.filter (fun m => !inArea m.1), clear := none }).setFld
      F.LOG_STAT_CLEARING 0
    let e := if c.found && c.circ && e.bit F.LOG_STAT_LOGFAIL then
        let bad := (List.range 8192).filter (Config.slotFails e.free)
        ((e.drawn.updLog fun u => { u with bad := bad }).setFld F.LOG_STAT_BAD bad.length).setFld F.LOG_STAT_LOGFAIL 0
      else e
    e.logEv 0 10 (b2n c.found + 2 * b2n c.circ)

/-- LOG_CLEAR_DONE (R436). -/
def execLogClearDone (d : DieId) (s : State) : Out := .next (s.updIn .keep d (·.logClearDone))

/-- LOG_FWCODE: a class 7 record from LOG_FWDATA0 to 2; a CODE of 0 is ignored (R437). -/
def Die.logFwcode (e : Die) (v : Word) : Die :=
  let code := v.toNat % 65536
  if code = 0 then e
  else e.logEv 7 code (e.regN (R.LOG_FWDATA 0)) (e.regN (R.LOG_FWDATA 1)) (e.regN (R.LOG_FWDATA 2))

/-- LOG_FWCODE (R437). -/
def execLogFwcode (d : DieId) (v : Word) (s : State) : Out := .next (s.updIn .keep d (·.logTouch.logFwcode v))

/-- The window takes the words of a slot and LOG_WINSTAT its number and status, in one KEEP cycle (R439). An error found
on the load acts under R440. -/
def Die.loadWindow (e : Die) (slot : Nat) (err : Option EccKind) : Die :=
  let e := match err with
    | some .sbe => e.count F.LOG_ECC_SBE 1
    | some .dbe => e.markBad slot
    | none => e
  let bad := e.log.bad.contains slot
  let r : LogRec := if bad then LogRec.zero else SMap.get (fun _ => LogRec.zero) e.log.mem slot
  let empty := !bad && r[0] == 0
  let crcBad := !bad && !empty && r[7].toNat != crc32Words ((r.toList.take 7).map (·.toNat))
  let e := (List.finRange 8).foldl (fun e (i : Fin 8) => e.setReg (R.LOG_WIN i) r[i]) e
  e.setRegN R.LOG_WINSTAT (slot + 2 ^ 16 * b2n empty + 2 ^ 17 * b2n bad + 2 ^ 18 * b2n crcBad
    + 2 ^ 19 * b2n (err == some .sbe))

/-- LOG_CURSOR_WRITE: the cursor takes a slot and the window loads it (R439). -/
def Die.logCursor (e : Die) (v : Word) (err : Option EccKind) : Die :=
  let slot := v.toNat % 8192
  (e.setFld F.LOG_CURSOR_VALUE slot).loadWindow slot err

/-- LOG_CURSOR_WRITE (R439). -/
def execLogCursorWrite (d : DieId) (v : Word) (err : Option EccKind) (s : State) : Out := .next (s.updIn .keep d (·.logTouch.logCursor v err))

/-- LOG_WIN7_READ: while AUTO is set the cursor advances modulo 8,192 and the next slot is loaded (R439). -/
def Die.logWin7 (e : Die) (err : Option EccKind) : Die :=
  if e.bit F.LOG_CTRL_AUTO then
    let slot := (e.fld F.LOG_CURSOR_VALUE + 1) % 8192
    (e.setFld F.LOG_CURSOR_VALUE slot).loadWindow slot err
  else e

/-- LOG_WIN7_READ (R439). -/
def execLogWin7Read (d : DieId) (m : BitVec 3) (err : Option EccKind) (s : State) : Out :=
  .next (s.updIn .keep d fun e => (e.logTouch.answer m (SMap.get regReset e.shadow (R.LOG_WIN 7))).logWin7 err)

/-- LOG_EVENT: an event that the effect of no other command queues reaches the recorder (R432, R434); code 0 is none (R431), and
GAP is no event (R435). -/
def execLogEvent (d : DieId) (cls : BitVec 3) (code : BitVec 16) (w4 w5 w6 : Word) (s : State) : Out :=
  .next (s.updIn .keep d fun e => if code = 0 ∨ (cls = 0 ∧ code = 9) then e else e.logEv cls.toNat code.toNat w4.toNat w5.toNat w6.toNat)

end Sys2Proof.Machine
end

