-- ==== Sys2Proof/Machine/Operands.lean ====
section
/-! DEFINITION. Operand forms of the engine: seats and courses, address generators, tile and yard rows with their check
bits, delay rings, and the lane and register operands of the bricks. -/

namespace Sys2Proof.Machine

/-- A course of a die. -/
def Die.course (e : Die) (c : Fin 28) : Course := e.eng.courses[c]

/-- Put a course's new state. -/
def Die.setCourse (e : Die) (c : Fin 28) (x : Course) : Die :=
  { e with eng := { e.eng with courses := e.eng.courses.set c.val x c.isLt } }

/-- Change one course. -/
def Die.updCourse (e : Die) (c : Fin 28) (f : Course → Course) : Die := e.setCourse c (f (e.course c))

/-- Change the yard. -/
def Die.updYard (e : Die) (f : Yard → Yard) : Die := { e with yard := f e.yard }

/-- The wall of a course (R36). -/
def wallOf (c : Fin 28) : Fin 4 := ⟨c.val / 7, by omega⟩

/-- Course `i` of wall `w`. -/
def courseAt (w : Fin 4) (i : Fin 7) : Fin 28 := ⟨7 * w.val + i.val, by omega⟩

/-- The wall a seat belongs to (R92). -/
def seatWall (s : Fin 24) : Fin 4 := ⟨s.val / 6, by omega⟩

/-- Field SEATi of a seat-map word (R115). -/
def seatField (m i : Nat) : Nat := bitsOf m (3 * i) 3

/-- The lowest seat of a wall that a seat map gives to course `i`, if any (R502). -/
def mapSeat (m i : Nat) : Option Nat := (List.range 6).find? (fun j => seatField m j == i)

/-- The course that holds seat `j` of a wall under a seat map: none for the code 7, and none where a lower seat names
the same course (R502). -/
def mapCourse (m j : Nat) : Option Nat :=
  let i := seatField m j
  if i = 7 then none else if mapSeat m i = some j then some i else none

/-- The seat map of a wall in force. -/
def Die.seatMap (e : Die) (w : Nat) : Nat := e.regN (R.ENG_SEATMAP w)

/-- The seat a course holds (R92, R502). -/
def Die.courseSeat (e : Die) (c : Fin 28) : Option (Fin 24) :=
  match mapSeat (e.seatMap (c.val / 7)) (c.val % 7) with
  | some j => if h : 6 * (c.val / 7) + j < 24 then some ⟨6 * (c.val / 7) + j, h⟩ else none
  | none => none

/-- The course that holds a seat (R92, R502). -/
def Die.seatCourse (e : Die) (s : Fin 24) : Option (Fin 28) :=
  match mapCourse (e.seatMap (s.val / 6)) (s.val % 6) with
  | some i => if h : 7 * (s.val / 6) + i < 28 then some ⟨7 * (s.val / 6) + i, h⟩ else none
  | none => none

/-- Migration phases (R115). -/
def Mig.idle : Nat := 0
def Mig.load : Nat := 1
def Mig.shadow : Nat := 2
def Mig.verify : Nat := 3
def Mig.ready : Nat := 4
def Mig.moved : Nat := 5
def Mig.failed : Nat := 6

/-- The phase of a wall's migration. -/
def Die.migPhase (e : Die) (w : Nat) : Nat := e.fld (F.ENG_MIG_PHASE w)

/-- The source course of a wall's migration. -/
def Die.migSrc (e : Die) (w : Fin 4) : Fin 28 := courseAt w e.eng.migs[w].src

/-- The spare that serves a wall's migration. -/
def Die.migSpare (e : Die) (w : Fin 4) : Fin 28 := courseAt w e.eng.migs[w].spare

/-- A wall's migration holds the spare in shadow (R108). -/
def Die.shadowing (e : Die) (w : Fin 4) : Bool :=
  let p := e.migPhase w
  p == Mig.shadow || p == Mig.verify || p == Mig.ready || e.eng.migs[w].ending

/-- The course runs in shadow (R109). -/
def Die.isShadow (e : Die) (c : Fin 28) : Bool := e.shadowing (wallOf c) && e.migSpare (wallOf c) == c

/-- The role of a course as ENG_Cn.MODE.ROLE shows it: 0 SEAT, 1 SPARE, 2 SHADOW, 3 RETIRED (R114, R502). DESIGN CHOICE: a
course that SPARE names and RETIRED marks shows as RETIRED, and its wall has no spare (log 193). -/
def Die.courseRole (e : Die) (c : Fin 28) : Nat :=
  let m := e.seatMap (c.val / 7)
  let i := c.val % 7
  if e.isShadow c then 2
  else if (mapSeat m i).isSome then 0
  else if natBit m (24 + i) then 3
  else if bitsOf m 20 3 = i then 1
  else 0

/-- The seat a course works for: its own, or the source's while it runs in shadow (R109). -/
def Die.workSeat (e : Die) (c : Fin 28) : Option (Fin 24) :=
  if e.isShadow c then e.courseSeat (e.migSrc (wallOf c)) else e.courseSeat c

/-- A wall's state (R102). -/
def Die.wallState (e : Die) (w : Nat) : Nat := bitsOf (e.fld F.ENG_WCTL_WALL_STATE) (2 * w) 2

/-- Set a wall's state. -/
def Die.setWallState (e : Die) (w v : Nat) : Die :=
  e.setFld F.ENG_WCTL_WALL_STATE (insBits (e.fld F.ENG_WCTL_WALL_STATE) (2 * w) 2 v)

/-- The wall is ON. -/
def Die.wallOn (e : Die) (w : Nat) : Bool := e.wallState w == St.on

/-- The wall's courses run kernels: ON, FALLING, and the last 16 frames of RISING (R102). -/
def Die.wallRuns (e : Die) (w : Fin 4) : Bool :=
  let st := e.wallState w
  st == St.on || st == St.falling || (st == St.rising && e.eng.walls[w].framesLeft ≤ 16)

/-- The course works for a seat in a wall that runs: an unseated, spare or retired course issues nothing of a kernel, and no
course of an OFF wall issues (R102, R105, R112, R502). -/
def Die.serves (e : Die) (c : Fin 28) : Bool := (e.workSeat c).isSome && e.wallRuns (wallOf c)

/-- The course has its clock and its power: it is not RETIRED, and its wall is not OFF (R102, R112). -/
def Die.clocked (e : Die) (c : Fin 28) : Bool := e.courseRole c != 3 && e.wallState (wallOf c) != St.off

/-- The course whose START and HOLD a course follows: its own, or the source's while it runs in shadow (R109). -/
def Die.workCourse (e : Die) (c : Fin 28) : Fin 28 := if e.isShadow c then e.migSrc (wallOf c) else c

/-! ### Address generators (R61 to R64) -/

/-- Number of bits `k` with `2^k` at least the length: ⌈log2 L⌉ (R63). -/
def log2Up (n : Nat) : Nat := ((List.range 13).find? (fun k => n ≤ 2 ^ k)).getD 12

/-- Reverse the low `k` bits of a number. -/
def revBits (k n : Nat) : Nat := (List.range k).foldl (fun a i => a * 2 + n / 2 ^ i % 2) 0

/-- The new address bits 11:0 of a generator after step `d` (R63): mode, length register, address, step. -/
def nextAddr (mode len a : Nat) (d : Int) : Nat :=
  let n := if len = 0 then 4096 else len
  let k := log2Up n
  let p := 2 ^ k
  match mode with
  | 1 =>
    let b := a - a % p
    ((b : Int) + (((a - b : Nat) : Int) + d) % (n : Int)).toNat % 4096
  | 2 =>
    let r := ((revBits k (a % p) : Int) + ((revBits k ((d % (p : Int)).toNat) : Nat) : Int)) % (p : Int)
    a - a % p + revBits k r.toNat
  | _ => (((a : Int) + d) % 4096).toNat

/-- The two AGM bits of generator index 0 to 15 (R51). -/
def Course.agMode (x : Course) (i : Nat) : Nat := bitsOf x.agm.toNat (2 * i) 2

/-- A bus generator's value: space in bits 14:12, address in bits 11:0 (R51). -/
def Course.ag (x : Course) (b : BusId) (g : Fin 4) : BitVec 15 :=
  match b with
  | .x => x.xa[g]
  | .y => x.ya[g]
  | .z => x.za[g]

/-- Index of a bus's generator 0 among the AGM fields. -/
def busFirst : BusId → Nat
  | .x => 0
  | .y => 4
  | .z => 8

/-- Number of a bus in `Wb.post`. -/
def busNum : BusId → Fin 4
  | .x => 0
  | .y => 1
  | .z => 2

/-- The step of a post-update code: none, +1, -1, the modifier (R53). -/
def upStep (up : BitVec 2) (m : Int) : Int :=
  match up.toNat with
  | 0 => 0
  | 1 => 1
  | 2 => -1
  | _ => m

/-- A bus generator after its post-update; the space bits never change (R63). -/
def Course.agNext (x : Course) (b : BusId) (g : Fin 4) (up : BitVec 2) : BitVec 15 :=
  let v := (x.ag b g).toNat
  let (m, len) := match b with
    | .x => (x.xm.toInt, x.xl.toNat)
    | .y => (x.ym.toInt, x.yl.toNat)
    | .z => (x.zm.toInt, x.zl.toNat)
  if up = 0 then x.ag b g
  else BitVec.ofNat 15 (v / 4096 * 4096 + nextAddr (x.agMode (busFirst b + g.val)) len (v % 4096) (upStep up m))

/-- A yard pointer after its post-update: row arithmetic modulo 2^22, or on bits 19:0 modulo 2^20 where the pointer is
bound to a delay ring (R64, R128). DESIGN CHOICE: a linear pointer's step carries into the bank bits 21:20 (log 194). -/
def Course.dpNext (x : Course) (g : Fin 4) (up : BitVec 2) : BitVec 22 :=
  let v := x.dp[g].toNat
  let d := upStep up x.dm.toInt
  if x.agMode (12 + g.val) = 1 then
    BitVec.ofNat 22 (v / 2 ^ 20 * 2 ^ 20 + ((((v % 2 ^ 20 : Nat) : Int) + d) % 1048576).toNat)
  else BitVec.ofInt 22 ((v : Int) + d)

/-! ### Lanes and registers -/

/-- Quarter register `i` of a brick. -/
def Brick.qr (b : Brick) (i : BitVec 4) : Quarter := b.q[i.toNat]'(i.isLt)

/-- Register Q`i` across the eight lanes. -/
def Course.qrow (x : Course) (i : BitVec 4) : Row := x.bricks.map (·.qr i)

/-- Write register Q`i` across the eight lanes. -/
def Course.setQ (x : Course) (i : BitVec 4) (v : Row) : Course :=
  { x with bricks := Vector.ofFn fun (l : Fin 8) =>
      let b := x.bricks[l]
      { b with q := b.q.set i.toNat v[l] i.isLt } }

/-- An operation goes into flight and writes at the end of the `k`th issue cycle from its own (R65). -/
def Course.issue (x : Course) (k : Nat) (w : Wb) : Course := { x with flight := x.flight ++ [(k, w)] }

/-- An accumulator of a brick as it stands. -/
def Brick.acc (b : Brick) (n : Bool) : AccVal :=
  if n then ⟨b.ac1, b.awc1, false⟩ else ⟨b.ac0, b.awc0, false⟩

/-- The accumulator of every lane as it stands at the start of the cycle. -/
def Course.accs (x : Course) (n : Bool) : Vector AccVal 8 := x.bricks.map (·.acc n)

/-- The latest value that an earlier bundle issued to an accumulator, which accumulating operations use (R54, R55, R58):
a result of the present bundle still has its three cycles to run. -/
def Course.latest (x : Course) (n : Bool) : Vector AccVal 8 :=
  x.flight.foldl (fun v w => match w.2 with
    | .acc m ac awc _ => if m == n && w.1 < 3 then Vector.ofFn fun l => ⟨ac[l], awc[l], false⟩ else v
    | _ => v) (x.accs n)

/-- A result for an accumulator goes into flight for three issue cycles (R55). -/
def Course.issueAcc (x : Course) (n : Bool) (v : Vector AccVal 8) : Course :=
  x.issue 3 (.acc n (v.map (·.ac)) (v.map (·.awc)) (v.map (·.aov)))

/-- An ALU result, written at the end of its issue cycle (R56). -/
def Course.issueQ (x : Course) (qd : BitVec 4) (v : Row) : Course := x.issue 1 (.q .alu qd v)

/-! ### Check bits (R121 to R123) -/

/-- The code of one lane pair in a mark: 0 good, 1 correctable, 2 uncorrectable. -/
def pairMark (m : BitVec 8) (p : Nat) : Nat := bitsOf m.toNat (2 * p) 2

/-- The marks of a row with the errors a read finds added; an uncorrectable word stays so until the row is written. -/
def addMarks (m : BitVec 8) (err : RowErr) : BitVec 8 :=
  err.foldl (fun m e =>
    let v := match e.2 with | .sbe => 1 | .dbe => 2
    if pairMark m e.1.val < v then BitVec.ofNat 8 (insBits m.toNat (2 * e.1.val) 2 v) else m) m

/-- A row as a read delivers it: zero for both quarters of every uncorrectable pair (R123). -/
def eccRow (m : BitVec 8) (r : Row) : Row :=
  Vector.ofFn fun (l : Fin 8) => if pairMark m (l.val / 2) = 2 then 0 else r[l]

/-- Some pair is marked with this code. -/
def hasMark (m : BitVec 8) (v : Nat) : Bool := (List.range 4).any (fun p => pairMark m p == v)

/-- The lowest pair marked uncorrectable. -/
def dbePair (m : BitVec 8) : Nat := ((List.range 4).find? (fun p => pairMark m p == 2)).getD 0

/-- Requester codes of YRD_ERRADDR.REQ. -/
def Req.course : Nat := 0
def Req.hod : Nat := 1
def Req.copy : Nat := 2
def Req.xbar : Nat := 3
def Req.wb : Nat := 4
def Req.test : Nat := 5
def Req.remap : Nat := 6

/-- An uncorrectable read is reported (R123): YRD_ERRADDR latches if DBE was clear, DBE sets, and a MEMORY record is
written. -/
def Die.reportDbe (e : Die) (addr pair src req : Nat) : Die :=
  let w := addr % 2 ^ 22 + pair * 2 ^ 22 + src * 2 ^ 24 + req * 2 ^ 25
  let e := e.healthNote fun h => { h with dbe := h.dbe + 1 }
  let e := if e.bit F.YRD_IRQ_DBE then e else e.setRegN R.YRD_ERRADDR w
  (e.setFld F.YRD_IRQ_DBE 1).logEv 5 1 (e.regN R.YRD_ERRADDR)

/-! ### Course tiles -/

/-- Tile codes of R135, with 6 entry and 7 exit (R453). -/
def Tl.prog : Nat := 0
def Tl.x : Nat := 1
def Tl.y : Nat := 2
def Tl.zf : Nat := 3
def Tl.zb : Nat := 4
def Tl.ring : Nat := 5
def Tl.entry : Nat := 6
def Tl.exit : Nat := 7
/-- The presented copy of the exit tile, among the course's marks. -/
def Tl.pres : Nat := 8

/-- Key of a tile row in the course's marks. -/
def tileKey (t row : Nat) : Nat := t * 8192 + row

/-- What an unlisted row of a tile reads as. -/
def rowDflt (_ : Nat) : Row := Row.zero

/-- What an unlisted row's marks read as. -/
def markDflt (_ : Nat) : BitVec 8 := 0

/-- The bundle an unlisted address of a program tile holds: END alone (R103). -/
def endBundle : BitVec 128 := BitVec.ofNat 128 (2 ^ 123)

/-- What an unlisted bundle reads as. -/
def progDflt (_ : Nat) : BitVec 128 := endBundle

/-- A row of a course tile by its code. -/
def Course.tileRow (x : Course) (t row : Nat) : Row :=
  match t with
  | 1 => SMap.get rowDflt x.x row
  | 2 => SMap.get rowDflt x.y row
  | 3 => SMap.get rowDflt x.zFront row
  | 4 => SMap.get rowDflt x.zBack row
  | 5 => SMap.get rowDflt x.ringIn row
  | 6 => SMap.get rowDflt x.entryEng row
  | 7 => SMap.get rowDflt x.exitWork row
  | _ => Row.zero

/-- A write to a row of a course tile: fresh check bits, and a pending write-back of the row is dropped (R122). -/
def Course.setTileRow (x : Course) (t row : Nat) (v : Row) : Course :=
  let x := { x with bad := SMap.set markDflt x.bad (tileKey t row) 0,
                    fixes := x.fixes.filter (· ≠ tileKey t row) }
  match t with
  | 1 => { x with x := SMap.set rowDflt x.x row v }
  | 2 => { x with y := SMap.set rowDflt x.y row v }
  | 3 => { x with zFront := SMap.set rowDflt x.zFront row v }
  | 4 => { x with zBack := SMap.set rowDflt x.zBack row v }
  | 5 => { x with ringIn := SMap.set rowDflt x.ringIn row v }
  | 6 => { x with entryEng := SMap.set rowDflt x.entryEng row v }
  | 7 => { x with exitWork := SMap.set rowDflt x.exitWork row v }
  | _ => x

/-- A read of a tile row finds marks: they stand, the error is counted, reported and its write-back pending, except in the
entry and exit tiles, which have no hod-side port (R122, R123, R125). -/
def Die.tileMarked (e : Die) (c : Fin 28) (t row req : Nat) (m : BitVec 8) : Die :=
  if m = 0 then e
  else
    let e := e.updCourse c fun x => { x with
      bad := SMap.set markDflt x.bad (tileKey t row) m
      sbe := if hasMark m 1 then BitVec.ofNat 16 (satAdd 16 x.sbe.toNat 1) else x.sbe
      dbe := if hasMark m 2 then BitVec.ofNat 8 (satAdd 8 x.dbe.toNat 1) else x.dbe
      fixes := if hasMark m 1 && t ≤ Tl.ring && !x.fixes.contains (tileKey t row) then x.fixes ++ [tileKey t row]
        else x.fixes }
    if hasMark m 2 then e.reportDbe (c.val * 2 ^ 16 + min t Tl.exit * 2 ^ 13 + row) (dbePair m) 1 req else e

/-- A read of a tile row with the errors it finds: the row as delivered, and the die after it (R122, R123). -/
def Die.readTile (e : Die) (c : Fin 28) (t row req : Nat) (err : RowErr) : Row × Die :=
  let x := e.course c
  let m := addMarks (SMap.get markDflt x.bad (tileKey t row)) err
  (eccRow m (x.tileRow t row), e.tileMarked c t row req m)

/-- The rows of some tiles of a course are read: those that are marked count and are reported (R122, R123). -/
def Die.readMarked (e : Die) (c : Fin 28) (req : Nat) (ts : Nat → Bool) : Die :=
  (e.course c).bad.foldl (fun e m => if ts m.1 then e.tileMarked c (m.1 / 8192) (m.1 % 8192) req m.2 else e) e

/-! ### Program tiles (R121 to R123): a bundle is one code word, whose mark stands in pair 0 -/

/-- The mark of a bundle's code word. -/
def Course.bundleMark (x : Course) (row : Nat) : Nat := pairMark (SMap.get markDflt x.bad (tileKey Tl.prog row)) 0

/-- A bundle is written with fresh check bits. -/
def Course.setBundle (x : Course) (row : Nat) (b : BitVec 128) : Course :=
  { x with prog := SMap.set progDflt x.prog row b,
           bad := SMap.set markDflt x.bad (tileKey Tl.prog row) 0,
           fixes := x.fixes.filter (· ≠ tileKey Tl.prog row) }

/-- A read of a bundle with the errors it finds: an uncorrectable bundle is delivered as all zeros (R123). -/
def Die.readBundle (e : Die) (c : Fin 28) (row req : Nat) (err : RowErr) : BitVec 128 × Die :=
  let x := e.course c
  let m := addMarks (SMap.get markDflt x.bad (tileKey Tl.prog row)) (err.map fun k => (0, k.2))
  (if hasMark m 2 then 0 else SMap.get progDflt x.prog row, e.tileMarked c Tl.prog row req m)

/-- The bundle of the present cycle comes from the loop cache. -/
def Course.fromCache (x : Course) : Option (BitVec 128) := (x.cached.find? (·.1 == x.pc.toNat)).map (·.2)

/-- The bundle of the present cycle (R50, R73, R123). -/
def Course.bundle (x : Course) : BitVec 128 :=
  match x.fromCache with
  | some b => b
  | none => if x.bundleMark x.pc.toNat = 2 then 0 else SMap.get progDflt x.prog x.pc.toNat

/-- The bundle of the present cycle is uncorrectable: it issues as the all-zero bundle (R123). -/
def Course.voided (x : Course) : Bool := x.running && x.fromCache.isNone && x.bundleMark x.pc.toNat == 2

/-- A course issues the operations of its bundle in this cycle: ENG runs, the issue stop has not come, the course works for a
seat and has not reached END, the cycle is no overhead cycle, and the bundle is not uncorrectable (R26, R67, R73, R90, R102,
R123, R502). -/
def Die.issues (e : Die) (c : Fin 28) : Bool :=
  e.runs .eng && !e.eng.stopped && e.serves c && (e.course c).running && !(e.course c).overhead && !(e.course c).voided

/-- The effect of an operation of a course's bundle: none in a cycle in which the course issues none. -/
def Die.operate (e : Die) (c : Fin 28) (f : Die → Die) : Die := if e.issues c then f e else e

/-! ### Yard rows -/

/-- Physical tile of a logical tile of a bank (R116). -/
def Yard.phys (y : Yard) (bank tile : Nat) : Nat := SMap.get (fun k => k % 256) y.tileMap (256 * bank + tile)

/-- Physical key of a yard row address (R116). -/
def Yard.key (y : Yard) (row : BitVec 22) : Nat :=
  let r := row.toNat
  (r / 2 ^ 20 * 264 + y.phys (r / 2 ^ 20) (r / 4096 % 256)) * 4096 + r % 4096

/-- Bank of a yard row address. -/
def bankOf (row : BitVec 22) : Fin 4 := ⟨row.toNat / 2 ^ 20, by have := row.isLt; omega⟩

/-- Key of the first row of a bank's test row (R138). -/
def testKey (bank n : Nat) : Nat := (bank * 264 + n / 512) * 4096 + n % 512 * 8

/-- The lane of the shadow that serves a physical row, while its bank has it borrowed (R139). -/
def Yard.borrowed (y : Yard) (key : Nat) : Option (Fin 4 × Fin 8) :=
  (List.finRange 4).findSome? fun (b : Fin 4) =>
    let t := y.tests[b]
    if t.borrowed ∧ testKey b.val t.next ≤ key ∧ key < testKey b.val t.next + 8 then
      some (b, ⟨(key - testKey b.val t.next) % 8, Nat.mod_lt _ (by decide)⟩)
    else none

/-- The stored row at a physical key, from the shadow while it is borrowed (R139). -/
def Yard.rowAt (y : Yard) (key : Nat) : Row :=
  match y.borrowed key with
  | some (b, l) => y.tests[b].shadow[l]
  | none => SMap.get rowDflt y.rows key

/-- Row address of a YARDW address (R124). -/
def yardwRow (addr : Word) : BitVec 22 := BitVec.ofNat 22 ((addr.toNat - 0x30000000) / 32)

/-- The YARDW writes between their two grants, once the row at a physical key is written: the read of that row is repeated
(R124). -/
def Yard.spoil (y : Yard) (key : Nat) : List YardRmw :=
  y.rmws.map fun r => if y.key (yardwRow r.addr) = key then { r with spoilt := true } else r

/-- Store a row and its marks at a physical key, into the shadow while it is borrowed; a pending write-back is dropped, and the
read of a YARDW write is repeated (R122, R124, R139). -/
def Yard.putRowAt (y : Yard) (key : Nat) (v : Row) (marks : BitVec 8) : Yard :=
  let y := { y with
    bad := SMap.set markDflt y.bad key marks
    fixes := y.fixes.filter (· ≠ key)
    rmws := y.spoil key }
  match y.borrowed key with
  | some (b, l) => { y with tests := vupd y.tests b fun t => { t with shadow := t.shadow.set l.val v l.isLt } }
  | none => { y with rows := SMap.set rowDflt y.rows key v }

/-- Store a row with fresh check bits. -/
def Yard.setRowAt (y : Yard) (key : Nat) (v : Row) : Yard := y.putRowAt key v 0

/-- An access to a borrowed row abandons its test step: the restore follows, and YRD_TESTABN counts it (R139). A row
held after a march failure has no step left to abandon. -/
def Die.touchTest (e : Die) (key : Nat) : Die :=
  match e.yard.borrowed key with
  | some (b, _) =>
    let abandon : Die := (e.updYard fun y => { y with tests := vupd y.tests b fun t => { t with phase := .restore false } }).count
      F.YRD_TESTABN_COUNT 1
    match e.yard.tests[b].phase with
    | .march _ => abandon
    | .restore true => abandon
    | _ => e
  | none => e

/-- A yard row is marked unwritten (R307). -/
def Yard.isUnwritten (y : Yard) (row : Nat) : Bool :=
  y.unwritten && y.live.any (fun r => r.1 ≤ row && row < r.1 + r.2) && !y.rewritten.contains row

/-- A tile becomes a remap candidate (R140): cause 0 uncorrectable read, 1 march failure, 2 repeated correction. The bit
stays set until the tile is remapped. -/
def Yard.candidate (y : Yard) (physTile cause : Nat) : Yard :=
  if SMap.get (fun _ => 0) y.cand physTile = 0 then
    { y with cand := SMap.set (fun _ => 0) y.cand physTile (cause + 1) }
  else y

/-- A granted read of a yard row (R117, R122, R123, R139, R307): the row as delivered, and the die after it. -/
def Die.readYard (e : Die) (row : BitVec 22) (req : Nat) (err : RowErr) : Row × Die :=
  let y := e.yard
  let key := y.key row
  if y.isUnwritten row.toNat then (Row.zero, e.touchTest key)
  else
    let m := addMarks (SMap.get markDflt y.bad key) err
    let v := eccRow m (y.rowAt key)
    let e := e.touchTest key
    if m = 0 then (v, e)
    else
      let b := (bankOf row).val
      let e := e.updYard fun y => { y with
        bad := SMap.set markDflt y.bad key m
        fixes := if hasMark m 1 && !y.fixes.contains key then y.fixes ++ [key] else y.fixes }
      let e := if hasMark m 1 then e.count (F.YRD_SBE_COUNT b) 1 else e
      if hasMark m 2 then
        let e := (e.count (F.YRD_DBE_COUNT b) 1).reportDbe row.toNat (dbePair m) 0 req
        (v, e.updYard (·.candidate (key / 4096) 0))
      else (v, e)

/-- A write granted to a source row of a remap is also made to the spare's row, and marks the row dirty in the five cycles
after its copy read (R142). A pair that is lost goes over as zero (R143). A test step that holds the spare's row is abandoned
(R139). -/
def Die.mirror (e : Die) (b : Fin 4) (key : Nat) : Die :=
  let rm := e.yard.remaps[b]
  if e.fld (F.YRD_REMAP_PHASE b) != 0 && rm.srcPhys == key / 4096 then
    let r := key % 4096
    (e.touchTest (rm.spare * 4096 + r)).updYard fun y => { (y.setRowAt (rm.spare * 4096 + r) (eccRow (SMap.get markDflt y.bad key) (y.rowAt key))) with
      remaps := vupd y.remaps b fun m => { m with
        dirty := if m.reads.any (fun q => q.2.1 == r) && !m.dirty.contains r then r :: m.dirty else m.dirty } }
  else e

/-- A granted write of a yard row that leaves the given marks (R117, R139, R142, R307). -/
def Die.putYard (e : Die) (row : BitVec 22) (v : Row) (marks : BitVec 8) : Die :=
  let key := e.yard.key row
  let e := (e.touchTest key).updYard fun y =>
    let y := y.putRowAt key v marks
    { y with
      rewritten := if y.unwritten && !y.rewritten.contains row.toNat then row.toNat :: y.rewritten else y.rewritten }
  e.mirror (bankOf row) key

/-- A granted write of a whole yard row, with fresh check bits. -/
def Die.writeYard (e : Die) (row : BitVec 22) (v : Row) : Die := e.putYard row v 0

/-- May this requester use the bank's grant of the present cycle? Where no arbitration stands in the frame, the access is
its bank's only requester (R117, R118; DESIGN CHOICE, log 195). -/
def Die.granted (e : Die) (bank : Fin 4) (r : Option Requester) : Bool :=
  match e.yard.grants[bank] with
  | none => true
  | some w => w.isSome && w == r

/-- A bank makes at most one grant in a cycle: the grant is used (R117). -/
def Die.useGrant (e : Die) (bank : Fin 4) : Die :=
  e.updYard fun y => { y with grants := y.grants.set bank.val (y.grants[bank].map fun _ => none) }

/-! ### Delay rings (R127 to R133) -/

/-- A ring descriptor by its number. -/
def Yard.ring (y : Yard) (n : Nat) : RingDesc := SMap.get (fun _ => RingDesc.none) y.rings n

/-- Put a ring descriptor. -/
def Yard.setRing (y : Yard) (n : Nat) (r : RingDesc) : Yard :=
  { y with rings := SMap.set (fun _ => RingDesc.none) y.rings n r }

/-- The ring bound to a pointer of a seat (R128). -/
def Yard.binding (y : Yard) (seat : Fin 24) (g : Fin 4) : Option Nat :=
  match SMap.get (fun _ => 0) y.binds (4 * seat.val + g.val) with
  | 0 => none
  | n + 1 => some n

/-- The row a ring-mode access addresses: BASE + ((WP - e) mod LEN) with e = min(d, LEN - 1) (R129). -/
def ringRow (base wp len d : Nat) : BitVec 22 :=
  BitVec.ofNat 22 (base + (((wp : Int) - ((min d (len - 1) : Nat) : Int)) % (len : Int)).toNat)

/-- The blend of a fading ring in one lane: `f` frames done of 256 (R133). -/
def ringBlend (o n : Quarter) (f : Nat) : Quarter :=
  BitVec.ofInt 28 (roundMode (o.toInt * ((256 - f : Nat) : Int) + n.toInt * (f : Int)) 8 0)

/-- Where an access of a yard pointer goes. -/
inductive YardTarget
  /-- A row address (R64). -/
  | row (r : BitVec 22)
  /-- A delay ring and the tap offset (R128). -/
  | ring (n d : Nat)
  /-- A ring-mode pointer whose binding is none (R128). -/
  | unbound
  deriving DecidableEq, Repr

/-- Where a pointer of a course leads (R64, R128). DESIGN CHOICE: a binding to a ring that the image does not define is
taken as none (log 196). -/
def Die.yardTarget (e : Die) (c : Fin 28) (g : Fin 4) : YardTarget :=
  let x := e.course c
  let v := x.dp[g].toNat
  if x.agMode (12 + g.val) = 1 then
    match (e.workSeat c).bind (fun s => e.yard.binding s g) with
    | some n => if (e.yard.ring n).valid then .ring n (v % 2 ^ 20) else .unbound
    | none => .unbound
  else .row x.dp[g]

end Sys2Proof.Machine
end

