-- ==== Sys2Proof/Machine/Bundle.lean ====
section
/-! DEFINITION. The 128-bit bundle (R53): where each field stands, the operations its slots hold as commands (R53, R55, R56,
R67), and its reserved codes (R54). -/

namespace Sys2Proof.Machine

/-- A field of a bundle by its lowest bit and its width. -/
def bunFld (b : BitVec 128) (lo n : Nat) : Nat := bitsOf b.toNat lo n

/-- The sequencer's fields. -/
def bunSeq (b : BitVec 128) : Nat := bunFld b 123 5
def bunSimm (b : BitVec 128) : Nat := bunFld b 105 18
/-- The multiply-accumulate slot's fields. -/
def bunMop (b : BitVec 128) : Nat := bunFld b 100 5
def bunMa (b : BitVec 128) : BitVec 4 := BitVec.ofNat 4 (bunFld b 96 4)
def bunMb (b : BitVec 128) : BitVec 4 := BitVec.ofNat 4 (bunFld b 92 4)
def bunMacc (b : BitVec 128) : Bool := natBit b.toNat 91
def bunMsh (b : BitVec 128) : BitVec 2 := BitVec.ofNat 2 (bunFld b 89 2)
/-- The ALU slot's fields. -/
def bunAop (b : BitVec 128) : Nat := bunFld b 83 6
def bunAd (b : BitVec 128) : BitVec 4 := BitVec.ofNat 4 (bunFld b 79 4)
def bunAs (b : BitVec 128) : BitVec 4 := BitVec.ofNat 4 (bunFld b 75 4)
def bunAt (b : BitVec 128) : BitVec 5 := BitVec.ofNat 5 (bunFld b 70 5)
/-- The immediate of the ALU and the sequencer. -/
def bunImm (b : BitVec 128) : Quarter := BitVec.ofNat 28 (bunFld b 0 28)

/-- A bus slot: operation, generator, post-update, Q register. -/
structure BusSlot where
  op : Nat
  ag : Fin 4
  up : BitVec 2
  q : BitVec 4
  deriving DecidableEq, Repr

/-- The ten bits of a bus or yard slot whose operation stands at bit `hi + 8`. -/
def bunSlot (b : BitVec 128) (lo : Nat) : BusSlot :=
  ⟨bunFld b (lo + 8) 2, ⟨bunFld b (lo + 6) 2 % 4, Nat.mod_lt _ (by decide)⟩, BitVec.ofNat 2 (bunFld b (lo + 4) 2),
   BitVec.ofNat 4 (bunFld b lo 4)⟩

/-- The slot of a bus. -/
def bunBus (b : BitVec 128) : BusId → BusSlot
  | .x => bunSlot b 60
  | .y => bunSlot b 50
  | .z => bunSlot b 40

/-- The slot of the yard. -/
def bunYard (b : BitVec 128) : BusSlot := bunSlot b 30

/-- The multiply-accumulate operation of a bundle as a command (R55). -/
def bunMopCmd (d : DieId) (c : Fin 28) (b : BitVec 128) : List Instr :=
  let n := bunMacc b
  let p := bunMa b
  let q := bunMb b
  match bunMop b with
  | 0x01 => [.mpy d c n p q (bunMsh b)]
  | 0x02 => [.mac d c n p q (bunMsh b)]
  | 0x03 => [.msu d c n p q (bunMsh b)]
  | 0x05 => [.alod d c n p]
  | 0x06 => [.aclr d c n]
  | 0x07 => [.acpy d c n]
  | 0x08 => [.aadd d c n]
  | 0x09 => [.dmpy d c p q (bunMsh b)]
  | 0x0A => [.dmac d c p q (bunMsh b)]
  | 0x0B => [.dmsu d c p q (bunMsh b)]
  | _ => []

/-- Bits `lo` and up of AT as a number. -/
def bunAtLow (b : BitVec 128) (n : Nat) : Nat := (bunAt b).toNat % 2 ^ n

/-- The ALU operation of a bundle as a command (R56). The width and the mode of a store stand in IMM bits 1:0 and 3:2 (R83,
R84); AS bit 0 selects the part of AGM that MFS reads, and AD holds the bits 31:28 that MTS and MTSI write (R501). -/
def bunAopCmd (d : DieId) (c : Fin 28) (b : BitVec 128) : List Instr :=
  let wd := BitVec.ofNat 2 (bunFld b 0 2)
  let md := BitVec.ofNat 2 (bunFld b 2 2)
  let qd := bunAd b
  let qs := bunAs b
  let at5 := bunAt b
  let qt : BitVec 4 := BitVec.ofNat 4 (bunAtLow b 4)
  let n := natBit (bunAs b).toNat 0
  let lane : Fin 8 := ⟨bunAtLow b 3 % 8, Nat.mod_lt _ (by decide)⟩
  match bunAop b with
  | 0x01 => [.mov d c qd qs]
  | 0x02 => [.ldi d c qd (bunImm b)]
  | 0x03 => [.addOp d c qd qs qt]
  | 0x04 => [.subOp d c qd qs qt]
  | 0x05 => [.addw d c qd qs qt]
  | 0x06 => [.subw d c qd qs qt]
  | 0x07 => [.negOp d c qd qs]
  | 0x08 => [.absOp d c qd qs]
  | 0x09 => [.minOp d c qd qs qt]
  | 0x0A => [.maxOp d c qd qs qt]
  | 0x0B => [.andOp d c qd qs qt]
  | 0x0C => [.orOp d c qd qs qt]
  | 0x0D => [.xorOp d c qd qs qt]
  | 0x0E => [.shl d c qd qs at5]
  | 0x0F => [.shra d c qd qs at5]
  | 0x10 => [.shrl d c qd qs at5]
  | 0x11 => [.cmplt d c qs qt]
  | 0x12 => [.cmpeq d c qs qt]
  | 0x13 => [.sel d c qd qs qt]
  | 0x14 => [.sta d c n qd at5 wd md]
  | 0x15 => [.dsta d c qd at5 md]
  | 0x16 => [.dadd d c qd qs qt]
  | 0x17 => [.dsub d c qd qs qt]
  | 0x18 => [.minx d c qs at5]
  | 0x19 => [.maxx d c qs at5]
  | 0x1A => [.sres d c qd qt]
  | 0x1B => [.lane d c qd qs lane]
  | 0x1C => [.rot d c qd qs lane]
  | 0x1D => [.mfs d c qd at5 n]
  | 0x1E => [.mts d c at5 qs qd]
  | 0x1F => [.mtsi d c at5 (bunImm b) qd]
  | 0x20 => [.asv d c n qd (BitVec.ofNat 2 (bunAtLow b 2))]
  | 0x21 => [.ars d c (natBit (bunAd b).toNat 0) qs (BitVec.ofNat 2 (bunAtLow b 2))]
  | 0x22 => [.clro d c]
  | _ => []

/-- The operation of a bus slot as a command (R53). -/
def bunBusCmd (d : DieId) (c : Fin 28) (b : BitVec 128) (bus : BusId) : List Instr :=
  let k := bunBus b bus
  match k.op, bus with
  | 1, _ => [.laneLoad d c bus k.ag k.up k.q []]
  | 2, _ => [.broadcastLoad d c bus k.ag k.up k.q []]
  | 3, .x => [.tileStore d c .x k.ag k.up k.q]
  | 3, .y => [.tileStore d c .y k.ag k.up k.q]
  | _, _ => []

/-- The operation of the yard slot as a command (R53). -/
def bunYardCmd (d : DieId) (c : Fin 28) (b : BitVec 128) : List Instr :=
  let k := bunYard b
  match k.op with
  | 1 => [.yardRowLoad d c k.ag k.up k.q []]
  | 2 => [.yardRowStore d c k.ag k.up k.q]
  | _ => []

/-- The sequencer operation of a bundle as a command (R67); END carries the cycle on which it issues. -/
def bunSeqCmd (d : DieId) (c : Fin 28) (b : BitVec 128) (cycle : BitVec 15) : List Instr :=
  let s := bunSimm b
  let low := BitVec.ofNat 13 (bitsOf s 0 13)
  match bunSeq b with
  | 0x01 => [.endKernel d c cycle]
  | 0x02 => [.br d c low]
  | 0x03 => [.brc d c (BitVec.ofNat 4 (bitsOf s 14 4)) low]
  | 0x06 => [.rpt d c low]
  | 0x07 => [.loop d c (BitVec.ofNat 5 (bitsOf s 13 5)) low]
  | 0x08 => [.loopx d c low (BitVec.ofNat 13 (bunFld b 0 13))]
  | 0x09 => [.rti d c]
  | 0x0A => [.brk d c]
  | _ => []

/-- The operations of a bundle, as the commands that issue them in its cycle (R53, R54). -/
def bundleOps (d : DieId) (c : Fin 28) (b : BitVec 128) (cycle : BitVec 15) : List Instr :=
  bunMopCmd d c b ++ bunAopCmd d c b ++ bunBusCmd d c b .x ++ bunBusCmd d c b .y ++ bunBusCmd d c b .z ++ bunYardCmd d c b ++
    bunSeqCmd d c b cycle

/-- A slot of the bundle holds a reserved operation code (R54): MOP 0x04 and from 0x0C, AOP from 0x23, SEQ 0x04, 0x05 and from
0x0B, and code 0b11 of ZOP and DOP. -/
def bunReserved (b : BitVec 128) : Bool :=
  bunMop b == 4 || 0x0C ≤ bunMop b || 0x23 ≤ bunAop b || bunSeq b == 4 || bunSeq b == 5 || 0x0B ≤ bunSeq b ||
    (bunBus b .z).op == 3 || (bunYard b).op == 3

end Sys2Proof.Machine
end

