-- ==== Sys2Proof/Machine/Course.lean ====
section
/-! DEFINITION. The multiply-accumulate and ALU operations of a course (R55 to R60, R81 to R87, R501). Every operation
reads its sources as they stand at the start of its cycle and puts its result in flight; OPERATION_WRITEBACK ends the
cycle. -/

namespace Sys2Proof.Machine

/-- An operation of a course's bundle issues (R54): it has no effect in a cycle in which the course issues none. -/
def issueOn (d : DieId) (c : Fin 28) (f : Die → Die) (s : State) : Out := .next (s.upd d (·.operate c f))

/-- An operation whose effect lies in its course. -/
def onCourse (d : DieId) (c : Fin 28) (f : Course → Course) : State → Out := issueOn d c fun e => e.updCourse c f

/-! ### Multiply-accumulate -/

/-- An accumulator takes a new value in every lane, computed from the lane's two quarters. -/
def Course.mopLoad (x : Course) (n : Bool) (ma mb : BitVec 4) (f : Quarter → Quarter → Int) : Course :=
  x.issueAcc n (Vector.ofFn fun (l : Fin 8) => accLoad (f (x.qrow ma)[l] (x.qrow mb)[l]))

/-- An accumulator adds a term in every lane to the latest value issued to it (R55, R81). -/
def Course.mopAdd (x : Course) (n : Bool) (ma mb : BitVec 4) (f : Quarter → Quarter → Int) : Course :=
  x.issueAcc n (Vector.ofFn fun (l : Fin 8) => accAdd (x.latest n)[l] (f (x.qrow ma)[l] (x.qrow mb)[l]) 0)

/-- The scaled product of the high stones. -/
def prodHi (m : BitVec 2) (a b : Quarter) : Int := prodS (stoneHi a) (stoneHi b) m

/-- The scaled product of the low stones. -/
def prodLo (m : BitVec 2) (a b : Quarter) : Int := prodS (stoneLo a) (stoneLo b) m

/-- MPY: ACn takes the scaled product, AWC 0 (R55). -/
def execMpy (d : DieId) (c : Fin 28) (acc : Bool) (ma mb : BitVec 4) (msh : BitVec 2) : State → Out :=
  onCourse d c fun x => x.mopLoad acc ma mb fun a b => prodQ a b msh

/-- MAC (R55, R81, R82). -/
def execMac (d : DieId) (c : Fin 28) (acc : Bool) (ma mb : BitVec 4) (msh : BitVec 2) : State → Out :=
  onCourse d c fun x => x.mopAdd acc ma mb fun a b => prodQ a b msh

/-- MSU (R55, R81, R82). -/
def execMsu (d : DieId) (c : Fin 28) (acc : Bool) (ma mb : BitVec 4) (msh : BitVec 2) : State → Out :=
  onCourse d c fun x => x.mopAdd acc ma mb fun a b => -prodQ a b msh

/-- ALOD: the quarter, value-aligned from 1.27 into 16.54 (R55). -/
def execAlod (d : DieId) (c : Fin 28) (acc : Bool) (ma : BitVec 4) : State → Out :=
  onCourse d c fun x => x.mopLoad acc ma ma fun a _ => a.toInt * 134217728

/-- ACLR (R55). -/
def execAclr (d : DieId) (c : Fin 28) (acc : Bool) : State → Out :=
  onCourse d c fun x => x.mopLoad acc 0 0 fun _ _ => 0

/-- ACPY: ACn takes ACm with its AWC (R55). -/
def execAcpy (d : DieId) (c : Fin 28) (acc : Bool) : State → Out :=
  onCourse d c fun x => x.issueAcc acc (x.accs !acc)

/-- AADD: ACn adds ACm; the wrap counts add together with the wrap of the addition itself (R55, R81). -/
def execAadd (d : DieId) (c : Fin 28) (acc : Bool) : State → Out :=
  onCourse d c fun x => x.issueAcc acc (Vector.ofFn fun (l : Fin 8) =>
    let m := (x.accs !acc)[l]
    accAdd (x.latest acc)[l] m.ac.toInt m.awc.toInt)

/-- DMPY: AC0 takes the product of the high stones, AC1 that of the low stones (R55, R86). -/
def execDmpy (d : DieId) (c : Fin 28) (ma mb : BitVec 4) (msh : BitVec 2) : State → Out :=
  onCourse d c fun x => (x.mopLoad false ma mb (prodHi msh)).mopLoad true ma mb (prodLo msh)

/-- DMAC (R55, R81, R86). -/
def execDmac (d : DieId) (c : Fin 28) (ma mb : BitVec 4) (msh : BitVec 2) : State → Out :=
  onCourse d c fun x => (x.mopAdd false ma mb (prodHi msh)).mopAdd true ma mb (prodLo msh)

/-- DMSU (R55, R81, R86). -/
def execDmsu (d : DieId) (c : Fin 28) (ma mb : BitVec 4) (msh : BitVec 2) : State → Out :=
  onCourse d c fun x =>
    (x.mopAdd false ma mb fun a b => -prodHi msh a b).mopAdd true ma mb fun a b => -prodLo msh a b

/-! ### ALU -/

/-- An ALU operation of one source. -/
def Course.alu1 (x : Course) (qd qs : BitVec 4) (f : Quarter → Quarter) : Course := x.issueQ qd ((x.qrow qs).map f)

/-- An ALU operation of two sources. -/
def Course.alu2 (x : Course) (qd qs qt : BitVec 4) (f : Quarter → Quarter → Quarter) : Course :=
  x.issueQ qd (Vector.ofFn fun (l : Fin 8) => f (x.qrow qs)[l] (x.qrow qt)[l])

/-- MOV (R56). -/
def execMov (d : DieId) (c : Fin 28) (qd qs : BitVec 4) : State → Out := onCourse d c (·.alu1 qd qs id)

/-- LDI (R56). -/
def execLdi (d : DieId) (c : Fin 28) (qd : BitVec 4) (imm : Quarter) : State → Out :=
  onCourse d c (·.issueQ qd (Vector.replicate 8 imm))

/-- ADD, saturating (R56). -/
def execAddOp (d : DieId) (c : Fin 28) (qd qs qt : BitVec 4) : State → Out :=
  onCourse d c (·.alu2 qd qs qt fun a b => satQ (a.toInt + b.toInt))

/-- SUB, saturating (R56). -/
def execSubOp (d : DieId) (c : Fin 28) (qd qs qt : BitVec 4) : State → Out :=
  onCourse d c (·.alu2 qd qs qt fun a b => satQ (a.toInt - b.toInt))

/-- ADDW, modulo 2^28 (R56). -/
def execAddw (d : DieId) (c : Fin 28) (qd qs qt : BitVec 4) : State → Out :=
  onCourse d c (·.alu2 qd qs qt fun a b => a + b)

/-- SUBW, modulo 2^28 (R56). -/
def execSubw (d : DieId) (c : Fin 28) (qd qs qt : BitVec 4) : State → Out :=
  onCourse d c (·.alu2 qd qs qt fun a b => a - b)

/-- NEG, saturating (R56). -/
def execNegOp (d : DieId) (c : Fin 28) (qd qs : BitVec 4) : State → Out :=
  onCourse d c (·.alu1 qd qs fun a => satQ (-a.toInt))

/-- ABS, saturating (R56). -/
def execAbsOp (d : DieId) (c : Fin 28) (qd qs : BitVec 4) : State → Out :=
  onCourse d c (·.alu1 qd qs fun a => satQ (if a.toInt < 0 then -a.toInt else a.toInt))

/-- MIN, signed (R56). -/
def execMinOp (d : DieId) (c : Fin 28) (qd qs qt : BitVec 4) : State → Out :=
  onCourse d c (·.alu2 qd qs qt fun a b => if b.toInt < a.toInt then b else a)

/-- MAX, signed (R56). -/
def execMaxOp (d : DieId) (c : Fin 28) (qd qs qt : BitVec 4) : State → Out :=
  onCourse d c (·.alu2 qd qs qt fun a b => if a.toInt < b.toInt then b else a)

/-- AND (R56). -/
def execAndOp (d : DieId) (c : Fin 28) (qd qs qt : BitVec 4) : State → Out :=
  onCourse d c (·.alu2 qd qs qt fun a b => a &&& b)

/-- OR (R56). -/
def execOrOp (d : DieId) (c : Fin 28) (qd qs qt : BitVec 4) : State → Out :=
  onCourse d c (·.alu2 qd qs qt fun a b => a ||| b)

/-- XOR (R56). -/
def execXorOp (d : DieId) (c : Fin 28) (qd qs qt : BitVec 4) : State → Out :=
  onCourse d c (·.alu2 qd qs qt fun a b => a ^^^ b)

/-- SHL, saturating; counts of 28 and more act as 28 (R56, R57). -/
def execShl (d : DieId) (c : Fin 28) (qd qs : BitVec 4) (sh : BitVec 5) : State → Out :=
  onCourse d c (·.alu1 qd qs fun a => satQ (a.toInt * 2 ^ shiftCount sh))

/-- SHRA (R56, R57). -/
def execShra (d : DieId) (c : Fin 28) (qd qs : BitVec 4) (sh : BitVec 5) : State → Out :=
  onCourse d c (·.alu1 qd qs fun a => BitVec.ofInt 28 (a.toInt / 2 ^ shiftCount sh))

/-- SHRL (R56, R57). -/
def execShrl (d : DieId) (c : Fin 28) (qd qs : BitVec 4) (sh : BitVec 5) : State → Out :=
  onCourse d c (·.alu1 qd qs fun a => BitVec.ofNat 28 (a.toNat / 2 ^ shiftCount sh))

/-- CMPLT: F and N from Qs < Qt, Z from equality, by the exact difference (R56). -/
def execCmplt (d : DieId) (c : Fin 28) (qs qt : BitVec 4) : State → Out :=
  onCourse d c fun x =>
    let lt := Vector.ofFn fun (l : Fin 8) => decide ((x.qrow qs)[l].toInt < (x.qrow qt)[l].toInt)
    let eq := Vector.ofFn fun (l : Fin 8) => decide ((x.qrow qs)[l] = (x.qrow qt)[l])
    x.issue 1 (.cmp lt (some (lt, eq)))

/-- CMPEQ: F from equality (R56). -/
def execCmpeq (d : DieId) (c : Fin 28) (qs qt : BitVec 4) : State → Out :=
  onCourse d c fun x =>
    x.issue 1 (.cmp (Vector.ofFn fun (l : Fin 8) => decide ((x.qrow qs)[l] = (x.qrow qt)[l])) none)

/-- SEL, per lane by F (R56). -/
def execSel (d : DieId) (c : Fin 28) (qd qs qt : BitVec 4) : State → Out :=
  onCourse d c fun x => x.issueQ qd (Vector.ofFn fun (l : Fin 8) =>
    if x.bricks[l].f then (x.qrow qs)[l] else (x.qrow qt)[l])

/-! ### Stores from the accumulators -/

/-- The dither of one store: the register after 32 steps (R85). -/
def ditherNext (l : BitVec 32) : BitVec 32 := lfsrSteps 32 l

/-- STA (R83 to R85): the value and QSAT are written at the end of the next issue cycle. -/
def execSta (d : DieId) (c : Fin 28) (acc : Bool) (qd : BitVec 4) (sh : BitVec 5) (width mode : BitVec 2) : State → Out :=
  onCourse d c fun x =>
    let x := if mode = 3 then { x with bricks := x.bricks.map fun b => { b with lfsr := ditherNext b.lfsr } } else x
    let w := staWidth width
    let r := Vector.ofFn fun (l : Fin 8) =>
      let b := x.bricks[l]
      let a := b.acc acc
      storeAcc a.ac a.awc sh.toInt w mode (if mode = 3 then ditherOf b.lfsr else 0)
    (x.issue 2 (.q .store qd (r.map fun v => BitVec.ofInt 28 (v.1 * 2 ^ (28 - w))))).issue 2 (.qsat (r.map (·.2)))

/-- DSTA: AC0 into the high stone, AC1 into the low stone; AC0 is dithered first (R83, R85, R86). -/
def execDsta (d : DieId) (c : Fin 28) (qd : BitVec 4) (sh : BitVec 5) (mode : BitVec 2) : State → Out :=
  onCourse d c fun x =>
    let r := Vector.ofFn fun (l : Fin 8) =>
      let b := x.bricks[l]
      let l0 := if mode = 3 then ditherNext b.lfsr else b.lfsr
      let l1 := if mode = 3 then ditherNext l0 else l0
      let h := storeAcc b.ac0 b.awc0 sh.toInt 14 mode (if mode = 3 then ditherOf l0 else 0)
      let g := storeAcc b.ac1 b.awc1 sh.toInt 14 mode (if mode = 3 then ditherOf l1 else 0)
      (ofStones h.1 g.1, h.2 || g.2, l1)
    let x := { x with bricks := Vector.ofFn fun (l : Fin 8) => { x.bricks[l] with lfsr := r[l].2.2 } }
    (x.issue 2 (.q .store qd (r.map (·.1)))).issue 2 (.qsat (r.map (·.2.1)))

/-- DADD, stone-wise saturating (R86). -/
def execDadd (d : DieId) (c : Fin 28) (qd qs qt : BitVec 4) : State → Out :=
  onCourse d c (·.alu2 qd qs qt fun a b =>
    ofStones (satStone (stoneHi a + stoneHi b)) (satStone (stoneLo a + stoneLo b)))

/-- DSUB, stone-wise saturating (R86). -/
def execDsub (d : DieId) (c : Fin 28) (qd qs qt : BitVec 4) : State → Out :=
  onCourse d c (·.alu2 qd qs qt fun a b =>
    ofStones (satStone (stoneHi a - stoneHi b)) (satStone (stoneLo a - stoneLo b)))

/-! ### Search -/

/-- A search step goes into flight; SRES sees it from the fourth cycle after it (R87). -/
def Course.searchIssue (x : Course) (max : Bool) (qs : BitVec 4) (sel : BitVec 5) : Course :=
  x.issue 4 (.search max (natBit sel.toNat 0) (bitsOf sel.toNat 1 3 + 1) (x.qrow qs))

/-- MINX (R87). -/
def execMinx (d : DieId) (c : Fin 28) (qs : BitVec 4) (sel : BitVec 5) : State → Out :=
  onCourse d c (·.searchIssue false qs sel)

/-- MAXX (R87). -/
def execMaxx (d : DieId) (c : Fin 28) (qs : BitVec 4) (sel : BitVec 5) : State → Out :=
  onCourse d c (·.searchIssue true qs sel)

/-- SRES: value and index; where both name one register, the index stays (R60, R501). -/
def execSres (d : DieId) (c : Fin 28) (qd qi : BitVec 4) : State → Out :=
  onCourse d c fun x =>
    (x.issueQ qd (Vector.replicate 8 x.search.sv)).issueQ qi
      (Vector.replicate 8 (BitVec.ofNat 28 x.search.si.toNat))

/-- LANE (R56). -/
def execLane (d : DieId) (c : Fin 28) (qd qs : BitVec 4) (lane : Fin 8) : State → Out :=
  onCourse d c fun x => x.issueQ qd (Vector.replicate 8 (x.qrow qs)[lane])

/-- ROT (R56). -/
def execRot (d : DieId) (c : Fin 28) (qd qs : BitVec 4) (rot : Fin 8) : State → Out :=
  onCourse d c fun x => x.issueQ qd (Vector.ofFn fun (l : Fin 8) => (x.qrow qs)[l + rot])

/-! ### Course registers (R51, R59, R501) -/

/-- The loop level LD selects; none while LD is 0. -/
def Course.level (x : Course) : Option (Fin 3) :=
  match x.ld.toNat with
  | 1 => some 0
  | 2 => some 1
  | 3 => some 2
  | _ => none

/-- A course register as MFS packs it (R501). `part` selects AGM's bits 31:28. -/
def Course.creg (x : Course) (idx : BitVec 5) (part : Bool) : Quarter :=
  match idx.toNat with
  | 0 => BitVec.ofNat 28 x.xa[0].toNat
  | 1 => BitVec.ofNat 28 x.xa[1].toNat
  | 2 => BitVec.ofNat 28 x.xa[2].toNat
  | 3 => BitVec.ofNat 28 x.xa[3].toNat
  | 4 => BitVec.ofNat 28 x.ya[0].toNat
  | 5 => BitVec.ofNat 28 x.ya[1].toNat
  | 6 => BitVec.ofNat 28 x.ya[2].toNat
  | 7 => BitVec.ofNat 28 x.ya[3].toNat
  | 8 => BitVec.ofNat 28 x.za[0].toNat
  | 9 => BitVec.ofNat 28 x.za[1].toNat
  | 10 => BitVec.ofNat 28 x.za[2].toNat
  | 11 => BitVec.ofNat 28 x.za[3].toNat
  | 12 => BitVec.ofNat 28 x.dp[0].toNat
  | 13 => BitVec.ofNat 28 x.dp[1].toNat
  | 14 => BitVec.ofNat 28 x.dp[2].toNat
  | 15 => BitVec.ofNat 28 x.dp[3].toNat
  | 16 => BitVec.ofInt 28 x.xm.toInt
  | 17 => BitVec.ofInt 28 x.ym.toInt
  | 18 => BitVec.ofInt 28 x.zm.toInt
  | 19 => BitVec.ofInt 28 x.dm.toInt
  | 20 => BitVec.ofNat 28 x.xl.toNat
  | 21 => BitVec.ofNat 28 x.yl.toNat
  | 22 => BitVec.ofNat 28 x.zl.toNat
  | 23 => BitVec.ofNat 28 (if part then x.agm.toNat / 2 ^ 28 else x.agm.toNat % 2 ^ 28)
  | 24 => match x.level with | some i => BitVec.ofNat 28 x.levels[i].lc.toNat | none => 0
  | 25 => match x.level with | some i => BitVec.ofNat 28 x.levels[i].ls.toNat | none => 0
  | 26 => match x.level with | some i => BitVec.ofNat 28 x.levels[i].le.toNat | none => 0
  | 27 => BitVec.ofNat 28 x.ld.toNat
  | 28 => BitVec.ofNat 28 x.rc.toNat
  | 29 => BitVec.ofNat 28 x.ipc.toNat
  | 30 => BitVec.ofNat 28 x.ibr.toNat
  | _ => BitVec.ofNat 28 x.ics.toNat

/-- A course register written from a quarter (R501); `hi` gives AGM's bits 31:28. The pending bits of ICS are not
written (R74), and LC, LS and LE not while LD is 0 (R51). -/
def Course.setCreg (x : Course) (idx : BitVec 5) (v : Quarter) (hi : BitVec 4) : Course :=
  let n := v.toNat
  let lvl (f : LoopLevel → LoopLevel) : Course := match x.level with
    | some i => { x with levels := vupd x.levels i f }
    | none => x
  match idx.toNat with
  | 0 => { x with xa := x.xa.set 0 (BitVec.ofNat 15 n) }
  | 1 => { x with xa := x.xa.set 1 (BitVec.ofNat 15 n) }
  | 2 => { x with xa := x.xa.set 2 (BitVec.ofNat 15 n) }
  | 3 => { x with xa := x.xa.set 3 (BitVec.ofNat 15 n) }
  | 4 => { x with ya := x.ya.set 0 (BitVec.ofNat 15 n) }
  | 5 => { x with ya := x.ya.set 1 (BitVec.ofNat 15 n) }
  | 6 => { x with ya := x.ya.set 2 (BitVec.ofNat 15 n) }
  | 7 => { x with ya := x.ya.set 3 (BitVec.ofNat 15 n) }
  | 8 => { x with za := x.za.set 0 (BitVec.ofNat 15 n) }
  | 9 => { x with za := x.za.set 1 (BitVec.ofNat 15 n) }
  | 10 => { x with za := x.za.set 2 (BitVec.ofNat 15 n) }
  | 11 => { x with za := x.za.set 3 (BitVec.ofNat 15 n) }
  | 12 => { x with dp := x.dp.set 0 (BitVec.ofNat 22 n) }
  | 13 => { x with dp := x.dp.set 1 (BitVec.ofNat 22 n) }
  | 14 => { x with dp := x.dp.set 2 (BitVec.ofNat 22 n) }
  | 15 => { x with dp := x.dp.set 3 (BitVec.ofNat 22 n) }
  | 16 => { x with xm := BitVec.ofNat 13 n }
  | 17 => { x with ym := BitVec.ofNat 13 n }
  | 18 => { x with zm := BitVec.ofNat 13 n }
  | 19 => { x with dm := BitVec.ofNat 22 n }
  | 20 => { x with xl := BitVec.ofNat 12 n }
  | 21 => { x with yl := BitVec.ofNat 12 n }
  | 22 => { x with zl := BitVec.ofNat 12 n }
  | 23 => { x with agm := BitVec.ofNat 32 (hi.toNat * 2 ^ 28 + n) }
  | 24 => lvl fun l => { l with lc := BitVec.ofNat 13 n }
  | 25 => lvl fun l => { l with ls := BitVec.ofNat 13 n }
  | 26 => lvl fun l => { l with le := BitVec.ofNat 13 n }
  | 27 => { x with ld := BitVec.ofNat 2 n }
  | 28 => { x with rc := BitVec.ofNat 13 n }
  | 29 => { x with ipc := BitVec.ofNat 13 n }
  | 30 => { x with ibr := BitVec.ofNat 17 n }
  | _ => { x with ics := BitVec.ofNat 9 (insBits (n % 512) 4 4 (bitsOf x.ics.toNat 4 4)) }

/-- MFS (R501). -/
def execMfs (d : DieId) (c : Fin 28) (qd : BitVec 4) (idx : BitVec 5) (part : Bool) : State → Out :=
  onCourse d c fun x => x.issueQ qd (Vector.replicate 8 (x.creg idx part))

/-- MTS, from lane 0 (R501). -/
def execMts (d : DieId) (c : Fin 28) (idx : BitVec 5) (qs : BitVec 4) (hi : BitVec 4) : State → Out :=
  onCourse d c fun x => x.issue 1 (.creg idx (x.qrow qs)[0] hi)

/-- MTSI, from the immediate (R501). -/
def execMtsi (d : DieId) (c : Fin 28) (idx : BitVec 5) (imm : Quarter) (hi : BitVec 4) : State → Out :=
  onCourse d c fun x => x.issue 1 (.creg idx imm hi)

/-- The highest-priority request that is pending and enabled while IE is set (R74). -/
def Course.eligible (x : Course) : Option (Fin 4) :=
  if natBit x.ics.toNat 8 then
    (List.finRange 4).find? fun i => natBit x.ics.toNat (4 + i.val) && natBit x.ics.toNat i.val
  else none

/-- A handler of the source runs, or waits for one that interrupted it (R78). -/
def Course.inHandler (x : Course) (i : Fin 4) : Bool := x.handler == some i || x.outer.any (·.1 == i)

/-- The requests raised in the cycle that ends read as pending from here on (R74). -/
def Course.latched (x : Course) : Course :=
  { x with ics := x.ics ||| BitVec.ofNat 9 (16 * x.raised.toNat), raised := 0 }

/-! ### Accumulator parts (R58) -/

/-- Brick status in the layout of R49. -/
def Brick.bs (b : Brick) : Nat :=
  b2n b.n + 2 * b2n b.z + 4 * b2n b.f + 8 * b2n b.aov0 + 16 * b2n b.aov1 + 32 * b2n b.qsat

/-- A part of an accumulator as ASV reads it. -/
def Brick.part (b : Brick) (n : Bool) (part : BitVec 2) : Quarter :=
  let a := b.acc n
  match part.toNat with
  | 0 => BitVec.ofNat 28 (bitsOf a.ac.toNat 42 28)
  | 1 => BitVec.ofNat 28 (bitsOf a.ac.toNat 14 28)
  | 2 => BitVec.ofNat 28 (b2n (if n then b.aov1 else b.aov0) * 2 ^ 27 + a.awc.toNat * 2 ^ 24 + bitsOf a.ac.toNat 0 14)
  | _ => BitVec.ofNat 28 b.bs

/-- ASV (R58). -/
def execAsv (d : DieId) (c : Fin 28) (acc : Bool) (qd : BitVec 4) (part : BitVec 2) : State → Out :=
  onCourse d c fun x => x.issueQ qd (x.bricks.map (·.part acc part))

/-- An accumulator with one part replaced; the wrap code -4 is taken as -3 (R58). -/
def AccVal.withPart (a : AccVal) (part : BitVec 2) (q : Quarter) : AccVal :=
  match part.toNat with
  | 0 => { a with ac := BitVec.ofNat 70 (insBits a.ac.toNat 42 28 q.toNat) }
  | 1 => { a with ac := BitVec.ofNat 70 (insBits a.ac.toNat 14 28 q.toNat) }
  | _ => { a with ac := BitVec.ofNat 70 (insBits a.ac.toNat 0 14 q.toNat),
                  awc := if bitsOf q.toNat 24 3 = 4 then 5 else BitVec.ofNat 3 (bitsOf q.toNat 24 3) }

/-- ARS (R58): visible from the third cycle after it; an accumulating operation of the next two bundles operates on the
restored value. DESIGN CHOICE: of an ARS and a multiply-accumulate operation of one bundle on one accumulator, the one
whose command comes later stands (log 197); part 0b11 writes all of BS, AOV0 and AOV1 with it (DEDUCED, log 198). -/
def execArs (d : DieId) (c : Fin 28) (acc : Bool) (qs : BitVec 4) (part : BitVec 2) : State → Out :=
  onCourse d c fun x =>
    let q := x.qrow qs
    if part = 3 then x.issue 3 (.bs (q.map fun v => BitVec.ofNat 6 v.toNat))
    else
      let x' := x.issueAcc acc (Vector.ofFn fun (l : Fin 8) => (x.latest acc)[l].withPart part q[l])
      if part = 2 then x'.issue 3 (.aovSet acc (q.map fun v => natBit v.toNat 27)) else x'

/-- CLRO (R56). -/
def execClro (d : DieId) (c : Fin 28) : State → Out := onCourse d c (·.issue 1 .clro)

end Sys2Proof.Machine
end

