-- ==== Sys2Proof/Machine/CourseBus.lean ====
section
/-! DEFINITION. The X, Y and Z buses, the course ring and the yard accesses of a course (R61 to R66, R97, R104, R109 to
R111, R117 to R133), and the end of a cycle's writes (R60, R65). -/

namespace Sys2Proof.Machine

/-- SEQERR sets (R54, R69, R72). -/
def Die.seqErr (e : Die) (c : Fin 28) : Die := e.setFld (F.ENG_C_STAT_SEQERR c) 1

/-- BUSERR sets (R61, R104). -/
def Die.busErr (e : Die) (c : Fin 28) : Die := e.setFld (F.ENG_C_STAT_BUSERR c) 1

/-- The tile and row count a bus load's space names (R61, R62). -/
def loadSpace (b : BusId) (space : Nat) : Option (Nat × Nat) :=
  match b, space with
  | .x, 0 => some (Tl.x, 512)
  | .x, 1 => some (Tl.entry, 64)
  | .x, 2 => some (Tl.ring, 64)
  | .y, 0 => some (Tl.y, 512)
  | .y, 1 => some (Tl.exit, 64)
  | .z, 0 => some (Tl.zf, 512)
  | _, _ => none

/-- Where a bus load's result ranks in R60. -/
def loadSrc (b : BusId) : QSrc :=
  match b with
  | .x => .x
  | .y => .y
  | .z => .z

/-- The post-update of a bus generator, written at the end of the cycle (R59, R63). -/
def Course.postBus (x : Course) (b : BusId) (g : Fin 4) (up : BitVec 2) : Course :=
  if up = 0 then x else x.issue 1 (.post (busNum b) g (BitVec.ofNat 22 (x.agNext b g up).toNat))

/-- The post-update of a yard pointer. -/
def Course.postYard (x : Course) (g : Fin 4) (up : BitVec 2) : Course :=
  if up = 0 then x else x.issue 1 (.post 3 g (x.dpNext g up))

/-- A bus load (R61, R62): a lane load delivers the row, a broadcast load one quarter of it in every lane; a load from a
forbidden space delivers zero and sets BUSERR. -/
def Die.busLoad (e : Die) (c : Fin 28) (b : BusId) (g : Fin 4) (up : BitVec 2) (q : BitVec 4) (cast : Bool)
    (err : RowErr) : Die :=
  let v := ((e.course c).ag b g).toNat
  let a := v % 4096
  match loadSpace b (v / 4096) with
  | none =>
    (e.busErr c).updCourse c fun x => (x.issue 3 (.q (loadSrc b) q Row.zero)).postBus b g up
  | some (t, rows) =>
    let row := if cast then a / 8 % rows else a % rows
    let (r, e) := e.readTile c t row Req.course err
    let r := if cast then Vector.replicate 8 (r[a % 8]'(Nat.mod_lt _ (by decide))) else r
    e.updCourse c fun x => (x.issue 3 (.q (loadSrc b) q r)).postBus b g up

/-- LANE_LOAD (R62). -/
def execLaneLoad (d : DieId) (c : Fin 28) (b : BusId) (g : Fin 4) (up : BitVec 2) (q : BitVec 4) (err : RowErr)
    (s : State) : Out :=
  issueOn d c (·.busLoad c b g up q false err) s

/-- BROADCAST_LOAD (R62). -/
def execBroadcastLoad (d : DieId) (c : Fin 28) (b : BusId) (g : Fin 4) (up : BitVec 2) (q : BitVec 4) (err : RowErr)
    (s : State) : Out :=
  issueOn d c (·.busLoad c b g up q true err) s

/-! ### Stores and their comparison in shadow (R109 to R111) -/

/-- A differing store ends the migration: PHASE FAILED, a record, and the wall's count in ENG_SPFAIL (R111). -/
def Die.migFail (e : Die) (w : Fin 4) : Die :=
  let n := bitsOf (e.regN R.ENG_SPFAIL) (8 * w.val) 8
  let e := { e with eng := { e.eng with migs := vupd e.eng.migs w fun m => { m with ending := true } } }
  ((e.setFld (F.ENG_MIG_PHASE w) Mig.failed).setRegN R.ENG_SPFAIL
    (insBits (e.regN R.ENG_SPFAIL) (8 * w.val) 8 (satAdd 8 n 1))).logEv 4 3 w.val (e.migSrc w).val

/-- Two courses made the same stores in the same issue cycles, which are the same cycles, for a shadow stalls with its source
(R108, R109, R111). -/
def sameStores (a b : List (Nat × StoreRec)) : Bool := a.all b.contains && b.all a.contains

/-- In VERIFY, the stores of the source and the spare so far differ, and the source has reached END in this frame: a frame in
which it has not is not compared (R111). -/
def Die.storesDiffer (e : Die) (w : Fin 4) : Bool :=
  e.migPhase w == Mig.verify && (e.course (e.migSrc w)).reachedEnd &&
    !sameStores (e.course (e.migSrc w)).compared (e.course (e.migSpare w)).compared

/-- A course makes a store: it is noted for this cycle, and for the comparison of R111 where a migration verifies. -/
def Die.noteStore (e : Die) (c : Fin 28) (r : StoreRec) : Die :=
  let w := wallOf c
  let v := e.migPhase w == Mig.verify && (e.migSpare w == c || e.migSrc w == c)
  e.updCourse c fun x => { x with
    stores := x.stores ++ [r]
    compared := if v then x.compared ++ [(x.ticks, r)] else x.compared }

/-- The seat that follows on the course ring (R97). -/
def nextSeat (s : Fin 24) : Fin 24 := ⟨6 * (s.val / 6) + (s.val % 6 + 1) % 6, by omega⟩

/-- A ring store: the successor seat's inbound tile is written at the end of the next cycle. A course in shadow delivers
nothing (R97, R109). -/
def Die.ringStoreAt (e : Die) (c : Fin 28) (row : Nat) (data : Row) : Die :=
  let e := e.noteStore c (.ring row data)
  if e.isShadow c then e
  else match e.courseSeat c with
    | some s => e.updCourse c (·.issue 2 (.ring (nextSeat s) row data))
    | none => e

/-- A bus store (R61, R62): X tile, Y tile, exit tile or the course ring; any other space drops the store and sets
BUSERR. The Z bus has no store: its code is reserved and acts as none (R54). -/
def Die.busStore (e : Die) (c : Fin 28) (b : BusId) (g : Fin 4) (up : BitVec 2) (q : BitVec 4) : Die :=
  let x := e.course c
  let v := (x.ag b g).toNat
  let a := v % 4096
  let data := x.qrow q
  match b with
  | .z => e.seqErr c
  | _ =>
    let e := match b, v / 4096 with
      | .x, 0 => (e.noteStore c (.tile .x (a % 512) data)).updCourse c (·.issue 1 (.tile .x (a % 512) data))
      | .y, 0 => (e.noteStore c (.tile .y (a % 512) data)).updCourse c (·.issue 1 (.tile .y (a % 512) data))
      | .y, 1 => (e.noteStore c (.tile .exit (a % 64) data)).updCourse c (·.issue 1 (.tile .exit (a % 64) data))
      | .y, 2 => e.ringStoreAt c (a % 64) data
      | _, _ => e.busErr c
    e.updCourse c (·.postBus b g up)

/-- TILE_STORE (R62). -/
def execTileStore (d : DieId) (c : Fin 28) (b : BusId) (g : Fin 4) (up : BitVec 2) (q : BitVec 4) (s : State) : Out :=
  issueOn d c (·.busStore c b g up q) s

/-- RING_STORE: a Y-bus store in space 0b010 (R97). -/
def execRingStore (d : DieId) (c : Fin 28) (g : Fin 4) (up : BitVec 2) (q : BitVec 4) (s : State) : Out :=
  issueOn d c (·.busStore c .y g up q) s

/-! ### Yard accesses -/

/-- A course in shadow of this one, which stalls with it and takes what its loads are delivered (R109). -/
def Die.shadowOf (e : Die) (c : Fin 28) : Option (Fin 28) :=
  let w := wallOf c
  if e.shadowing w && e.migSrc w == c && e.migSpare w != c then some (e.migSpare w) else none

/-- A lost access: the course stalls for one cycle and retries (R66), and its shadow stalls with it (R109). -/
def Die.stall (e : Die) (c : Fin 28) (a : YardAcc) : Die :=
  let e := e.updCourse c fun x => { x with stalled := some a, stalls := x.stalls + 1 }
  match e.shadowOf c with
  | some p => e.updCourse p fun x => { x with stalls := x.stalls + 1 }
  | none => e

/-- A yard load's row goes into flight: the register is written at the end of the sixth cycle (R65). -/
def Course.yardResult (x : Course) (a : YardAcc) (r : Row) : Course :=
  ({ x with stalled := none, lastYard := some (x.ticks, r) }.issue 6 (.q .yard a.q r)).postYard a.ag a.up

/-- A course's load is delivered its row, and so is the load of its shadow that waits for it (R109). -/
def Die.yardDeliver (e : Die) (c : Fin 28) (a : YardAcc) (r : Row) : Die :=
  let e := e.updCourse c (·.yardResult a r)
  match e.shadowOf c with
  | some p => e.updCourse p fun y => match y.stalled with
      | some b => if y.ticks = (e.course c).ticks then y.yardResult b r else y
      | none => y
  | none => e

/-- A store is made or dropped: the course goes on. -/
def Course.yardStored (x : Course) (a : YardAcc) : Course := { x with stalled := none }.postYard a.ag a.up

/-- A failed access: zero for a load, nothing for a store, and BUSERR (R104, R128). -/
def Die.yardFail (e : Die) (c : Fin 28) (a : YardAcc) : Die :=
  (e.busErr c).updCourse c fun x => if a.store then x.yardStored a else x.yardResult a Row.zero

/-- The row a course's access addresses, with the ring it goes through; `none` where the binding is missing (R129). -/
def Die.yardRow (e : Die) (c : Fin 28) (g : Fin 4) : Option (BitVec 22 × Option Nat) :=
  match e.yardTarget c g with
  | .row r => some (r, none)
  | .ring n k =>
    let r := e.yard.ring n
    some (ringRow r.base r.wp r.frontLen k, some n)
  | .unbound => none

/-- A tap offset at or beyond the length clamps and sets RING_CLAMP (R129). -/
def Die.ringClamp (e : Die) (c : Fin 28) (g : Fin 4) : Die :=
  match e.yardTarget c g with
  | .ring n k =>
    let r := e.yard.ring n
    if r.frontLen ≤ k then e.updYard (·.setRing n { r with clamp := true }) else e
  | _ => e

/-- A seat as the requester of its bank. -/
def Die.asks (e : Die) (c : Fin 28) : Option Requester := (e.workSeat c).map .seat

/-- A course's first access to the yard, in its issue cycle or in a retry of it (R104, R117, R128, R132). -/
def Die.yardAccess (e : Die) (c : Fin 28) (a : YardAcc) : Die :=
  match e.yardRow c a.ag with
  | none => e.yardFail c a
  | some (row, ring) =>
    let bank := bankOf row
    if !e.wallOn bank.val then e.yardFail c a
    else if !e.granted bank (e.asks c) then e.stall c a
    else
      let e := (e.useGrant bank).ringClamp c a.ag
      if a.store then (e.writeYard row a.data).updCourse c (·.yardStored a)
      else
        let (r, e) := e.readYard row Req.course a.err
        -- the cycle of the second access of a SMOOTH ring is a stall cycle (R132)
        if ring.any fun n => (e.yard.ring n).frontSmooth then e.stall c { a with second := some r, err := [] }
        else e.yardDeliver c a r

/-- The second access of a load from a SMOOTH ring: the old geometry while a fade runs, blended by R133 (R132). -/
def Die.yardSecond (e : Die) (c : Fin 28) (a : YardAcc) (first : Row) : Die :=
  match e.yardTarget c a.ag with
  | .ring n k =>
    let r := e.yard.ring n
    let row := if r.fade = 0 then ringRow r.base r.wp r.frontLen k else ringRow r.base r.oldWp r.oldLen k
    let bank := bankOf row
    if !e.granted bank (e.asks c) then e.stall c a
    else
      let (o, e) := (e.useGrant bank).readYard row Req.course a.err
      let v := if r.fade = 0 then first
        else Vector.ofFn fun (l : Fin 8) => ringBlend o[l] first[l] (256 - r.fade)
      e.yardDeliver c a v
  | _ => e.yardDeliver c a first

/-- A spare in shadow makes no request of its own: its load receives the row delivered to the source's load of the same
issue cycle, for which it waits, and its store is discarded (R109). -/
def Die.yardShadow (e : Die) (c : Fin 28) (a : YardAcc) : Die :=
  let on := match e.yardRow c a.ag with
    | some (row, _) => e.wallOn (bankOf row).val
    | none => false
  if !on then e.yardFail c a
  else if a.store then e.updCourse c (·.yardStored a)
  else
    e.updCourse c fun x => match (e.course (e.migSrc (wallOf c))).lastYard with
      | some (k, r) => if k = x.ticks then x.yardResult a r else { x with stalled := some a }
      | none => { x with stalled := some a }

/-- A yard operation issues. -/
def Die.yardIssue (e : Die) (c : Fin 28) (a : YardAcc) : Die :=
  if e.isShadow c then e.yardShadow c a else e.yardAccess c a

/-- YARD_ROW_LOAD (R117). -/
def execYardRowLoad (d : DieId) (c : Fin 28) (g : Fin 4) (up : BitVec 2) (q : BitVec 4) (err : RowErr) (s : State) : Out :=
  issueOn d c (·.yardIssue c ⟨false, g, up, q, none, Row.zero, err⟩) s

/-- A yard store is noted in its issue cycle, in the source and in its shadow alike, unless it fails (R104, R111). -/
def Die.noteYard (e : Die) (c : Fin 28) (a : YardAcc) : Die :=
  match e.yardRow c a.ag with
  | some (row, _) => if e.wallOn (bankOf row).val then e.noteStore c (.yard row a.data) else e
  | none => e

/-- YARD_ROW_STORE (R117). -/
def execYardRowStore (d : DieId) (c : Fin 28) (g : Fin 4) (up : BitVec 2) (q : BitVec 4) (s : State) : Out :=
  issueOn d c (fun e =>
    let a : YardAcc := ⟨true, g, up, q, none, (e.course c).qrow q, []⟩
    (e.noteYard c a).yardIssue c a) s

/-- A stalled access is tried again in the next cycle (R66), whose eligible request is judged at its start (R75); without one
there is nothing to retry. -/
def Die.yardRetry (e : Die) (c : Fin 28) (err : RowErr) : Die :=
  match (e.course c).stalled with
  | none => e
  | some a =>
    let e := e.updCourse c fun x => { x.latched with now := x.latched.eligible }
    let a := { a with err := err }
    match a.second with
    | some first => e.yardSecond c a first
    | none => e.yardIssue c a

/-- YARD_STALL_RETRY (R66). -/
def execYardStallRetry (d : DieId) (c : Fin 28) (err : RowErr) (s : State) : Out := .next (s.updIn .eng d (·.yardRetry c err))

/-- RING_SECOND_ACCESS: the second access of a load that made its first (R132). -/
def execRingSecondAccess (d : DieId) (c : Fin 28) (err : RowErr) (s : State) : Out :=
  .next (s.updIn .eng d fun e =>
    match (e.course c).stalled with
    | some a => if a.second.isSome then e.yardRetry c err else e
    | none => e)

/-- A mark with its correctable pairs made good. -/
def goodMarks (m : BitVec 8) : BitVec 8 :=
  (List.range 4).foldl (fun m p => if pairMark m p = 1 then BitVec.ofNat 8 (insBits m.toNat (2 * p) 2 0) else m) m

/-- A yard row's corrected pairs are written back with good check bits, in a grant of its bank at rank 8 (R122, R142). -/
def Die.correctYard (e : Die) (k : Nat) : Die :=
  let b : Fin 4 := ⟨k / (264 * 4096) % 4, Nat.mod_lt _ (by decide)⟩
  let e := ((e.useGrant b).touchTest k).updYard fun y => { y with
    fixes := y.fixes.filter (· ≠ k)
    bad := SMap.set markDflt y.bad k (goodMarks (SMap.get markDflt y.bad k))
    rmws := y.spoil k }
  e.mirror b k

/-- CORRECTION_WRITEBACK: the oldest corrected row that its bank grants is written back, first of the yard, then of the
courses in order (R118, R122). -/
def Die.correctNext (e : Die) : Die :=
  match e.yard.fixes.find? fun k =>
      e.granted ⟨k / (264 * 4096) % 4, Nat.mod_lt _ (by decide)⟩ (some .writeBack) with
  | some k => e.correctYard k
  | none =>
    match (List.finRange 28).find? (fun c => !(e.course c).fixes.isEmpty) with
    | some c => e.updCourse c fun x =>
        match x.fixes with
        | k :: ks => { x with
            fixes := ks
            bad := SMap.set markDflt x.bad k (goodMarks (SMap.get markDflt x.bad k)) }
        | [] => x
    | none => e

/-- CORRECTION_WRITEBACK (R122). -/
def execCorrectionWriteback (d : DieId) (s : State) : Out := .next (s.updIn .eng d (·.correctNext))

/-! ### The end of a cycle -/

/-- The stage in which a write is made: post-updates first, so that a register write of the same bundle replaces them
(R59); then the Q registers in rising order of R60, so that the highest stays; `tie` puts a store before or after an ALU
result. -/
def Wb.stage (tie : Bool) : Wb → Nat
  | .post _ _ _ => 0
  | .q .z _ _ => 1
  | .q .y _ _ => 2
  | .q .x _ _ => 3
  | .q .yard _ _ => 4
  | .q .store _ _ => if tie then 7 else 5
  | .q .alu _ _ => 6
  | _ => 8

/-- One write of an operation (R65). Ring stores leave the course and are made by the die. -/
def Course.commit1 (x : Course) (w : Wb) : Course :=
  match w with
  | .q _ qd row => x.setQ qd row
  | .qsat v => { x with bricks := Vector.ofFn fun (l : Fin 8) => { x.bricks[l] with qsat := x.bricks[l].qsat || v[l] } }
  | .acc n ac awc aov => { x with bricks := Vector.ofFn fun (l : Fin 8) =>
      if n then { x.bricks[l] with ac1 := ac[l], awc1 := awc[l], aov1 := x.bricks[l].aov1 || aov[l] }
      else { x.bricks[l] with ac0 := ac[l], awc0 := awc[l], aov0 := x.bricks[l].aov0 || aov[l] } }
  | .aovSet n v => { x with bricks := Vector.ofFn fun (l : Fin 8) =>
      if n then { x.bricks[l] with aov1 := v[l] } else { x.bricks[l] with aov0 := v[l] } }
  | .bs v => { x with bricks := Vector.ofFn fun (l : Fin 8) =>
      let m := v[l].toNat
      { x.bricks[l] with n := natBit m 0, z := natBit m 1, f := natBit m 2, aov0 := natBit m 3, aov1 := natBit m 4,
                         qsat := natBit m 5 } }
  | .cmp f nz => { x with bricks := Vector.ofFn fun (l : Fin 8) =>
      let b := { x.bricks[l] with f := f[l] }
      match nz with
      | some (n, z) => { b with n := n[l], z := z[l] }
      | none => b }
  | .creg i v hi => x.setCreg i v hi
  | .post b g v =>
    match b.val with
    | 0 => { x with xa := x.xa.set g.val (BitVec.ofNat 15 v.toNat) g.isLt }
    | 1 => { x with ya := x.ya.set g.val (BitVec.ofNat 15 v.toNat) g.isLt }
    | 2 => { x with za := x.za.set g.val (BitVec.ofNat 15 v.toNat) g.isLt }
    | _ => { x with dp := x.dp.set g.val v g.isLt }
  | .tile t row data =>
    match t with
    | .x => x.setTileRow Tl.x row data
    | .y => x.setTileRow Tl.y row data
    | .exit => x.setTileRow Tl.exit row data
  | .ring _ _ _ => x
  | .clro => { x with bricks := x.bricks.map fun b => { b with aov0 := false, aov1 := false, qsat := false } }
  | .search mx st n v => { x with search := searchStep mx st n v x.search }
  | .brk => { x with ics := x.ics ||| 0x20 }

/-- The writes that fall due, in their stages, and those of one stage in order of issue. DESIGN CHOICE: of CLRO, a compare,
ARS parts 0b10 and 0b11 and a wrap or a saturating store that write status bits in one cycle, the one issued last stands
(log 199). -/
def Course.commit (x : Course) (tie : Bool) (due : List Wb) : Course :=
  (List.range 9).foldl (fun x k => (due.filter (fun w => Wb.stage tie w == k)).foldl Course.commit1 x) x

/-- The writes of the flight that fall due at the end of this cycle. -/
def Course.due (x : Course) : List Wb := (x.flight.filter (fun w => w.1 ≤ 1)).map (·.2)

/-- One cycle passes for every operation in flight: those that fall due write their destinations (R60, R65). -/
def Course.settle (x : Course) (tie : Bool) : Course :=
  let due := x.due
  ({ x with flight := (x.flight.filter (fun (w : Nat × Wb) => 1 < w.1)).map (fun (w : Nat × Wb) => (w.1 - 1, w.2)) }).commit tie due

/-- Row of the spare's tiles in the order hod 3 copies them: X, Y, Z front, Z back, inbound ring (R108). -/
def migRow (t row : Nat) : Nat := (t - 1) * 512 + row

/-- An engine-port store to the spare during SHADOW sets the written bit of its row (R110). -/
def Die.markWritten (e : Die) (c : Fin 28) (t row : Nat) : Die :=
  let w := wallOf c
  if e.migPhase w == Mig.shadow && e.migSpare w == c then
    { e with eng := { e.eng with migs := vupd e.eng.migs w fun m => { m with written := migRow t row :: m.written } } }
  else e

/-- What a due write does outside its own course: a ring store writes the seat's inbound tile, and the spare's while the
seat's course is a source in shadow (R97, R109); a tile store marks the spare's row written (R110). -/
def Die.commitOut (e : Die) (c : Fin 28) (w : Wb) : Die :=
  match w with
  | .ring s row data =>
    match e.seatCourse s with
    | some t =>
      let e := e.updCourse t (·.setTileRow Tl.ring row data)
      if e.shadowing (wallOf t) && e.migSrc (wallOf t) == t then
        let sp := e.migSpare (wallOf t)
        (e.updCourse sp (·.setTileRow Tl.ring row data)).markWritten sp Tl.ring row
      else e
    | none => e
  | .tile .x row _ => e.markWritten c Tl.x row
  | .tile .y row _ => e.markWritten c Tl.y row
  | _ => e

/-- AOV and QSAT of the bricks are ORed into the course's sticky status (R49). -/
def Die.courseStatus (e : Die) (c : Fin 28) : Die :=
  let x := e.course c
  let e := e.raise (F.ENG_C_STAT_AOV c) ((List.finRange 8).any fun l => x.bricks[l].aov0 || x.bricks[l].aov1)
  e.raise (F.ENG_C_STAT_QSAT c) ((List.finRange 8).any fun l => x.bricks[l].qsat)

/-- A result of a store and one of the ALU meet in one register in this cycle. -/
def tieIn (due : List Wb) : Bool :=
  due.any fun w => match w with
    | .q .store q _ => due.any fun v => match v with | .q .alu q' _ => q == q' | _ => false
    | _ => false

/-- One cycle passes for the operations a course has in flight. -/
def Die.settleCourse (e : Die) (c : Fin 28) : Die :=
  let x := e.course c
  let due := x.due
  let e' := if tieIn due then e.drawn else e
  let e' := e'.setCourse c (x.settle (Config.storeWins e.free))
  (due.foldl (fun e w => e.commitOut c w) e').courseStatus c

end Sys2Proof.Machine
end

