-- ==== Sys2Proof/Machine/Sequencer.lean ====
section
/-! DEFINITION. The sequencer of a course: its operations, loops, repeats, branches, the end of a cycle, interrupts and
the doorbell (R67 to R78, R89 to R91, R114). -/

namespace Sys2Proof.Machine

/-- Pop the innermost loop level; the loop cache lets go of a body it held (R71, R73). -/
def Course.popLoop (x : Course) : Course :=
  match x.level with
  | some i =>
    let held := x.cache = some x.levels[i].ls
    { x with ld := x.ld - 1, cache := if held then none else x.cache, cached := if held then [] else x.cached }
  | none => x

/-- The body of the innermost loop exceeds 32 bundles (R73). -/
def LoopLevel.long (l : LoopLevel) : Bool := 32 < ((l.le - l.ls).toNat + 1)

/-- The loop test after the bundle at the present address (R71): LC of every level that ends here is decremented until
one goes round or the run of pops ends. Answers the course, the back-edge's target if one is taken, and whether an
overhead cycle is spent (R73, R78). -/
def Course.loopTest : Nat → Course → Bool → Course × Option (BitVec 13) × Bool
  | 0, x, cost => (x, none, cost)
  | n + 1, x, cost =>
    match x.level with
    | none => (x, none, cost)
    | some i =>
      let l := x.levels[i]
      if l.le ≠ x.pc then (x, none, cost)
      else
        let cost := cost || l.long
        let x := { x with levels := vupd x.levels i fun l => { l with lc := l.lc - 1 } }
        if l.lc - 1 ≠ 0 then ({ x with refill := false }, some l.ls, cost || x.refill)
        else Course.loopTest n x.popLoop cost

/-- Go to the next bundle of the stream, by a back-edge or in order (R71, R73). -/
def Course.goOn (x : Course) : Course :=
  let (y, back, cost) := x.loopTest 3 false
  { y with pc := back.getD (x.pc + 1), overhead := cost }

/-- A loop level is pushed: LD counts up, and the new level takes count, start and end (R71). The loop cache takes the
body if it holds none and the body fits (R73). -/
def Course.pushLoop (x : Course) (count last : BitVec 13) : Course :=
  let x := { x with ld := x.ld + 1 }
  match x.level with
  | some i =>
    let l : LoopLevel := ⟨count, x.pc + 1, last⟩
    { x with levels := x.levels.set i.val l i.isLt,
             cache := if x.cache.isNone && !l.long then some l.ls else x.cache }
  | none => x

/-- RTI's last delay slot has issued (R78). -/
def Course.returning (x : Course) : Bool := x.slotRti && x.slots == 0

/-- The stream resumes after RTI's delay slots, with IPC, IBR and IE as the writes of the second slot left them (R65, R78): at IPC
with what IBR recorded, or idle if the interrupt was taken there. A handler that another interrupted goes on. The loop cache
refills. -/
def Course.resume (x : Course) : Course :=
  let idle := x.idleTaken
  let x := { x with
    slots := 0
    slotRti := false
    ics := x.ics ||| 0x100
    handler := x.outer.head?.map fun (h : Fin 4 × Bool) => h.1
    idleTaken := x.outer.head?.any fun (h : Fin 4 × Bool) => h.2
    outer := x.outer.tail
    overhead := false }
  if idle then { x with running := false }
  else
    let r := x.ibr.toNat
    { x with
      pc := x.ipc
      slots := if natBit r 0 then bitsOf r 1 2 else 0
      tgt := BitVec.ofNat 13 (bitsOf r 3 13)
      rpt := natBit r 16
      resumed := true
      refill := true
      cached := [] }

/-- The loop cache takes the present bundle while it fills: the body of the loop it holds (R73). -/
def Course.fill (x : Course) : Course :=
  let body := x.levels.any fun l => x.cache == some l.ls && l.ls.toNat ≤ x.pc.toNat && x.pc.toNat ≤ l.le.toNat
  if body && !x.voided && x.fromCache.isNone then { x with cached := (x.pc.toNat, x.bundle) :: x.cached } else x

/-- The sequencer at the end of an issue cycle (R67 to R73). -/
def Course.advance (x : Course) : Course :=
  let act := x.act
  let x := { x with act := .none, resumed := false }
  match act with
  | .end_ _ => { x with running := false, endPc := x.pc, slots := 0, slotRti := false, rpt := false, overhead := false }
  | _ =>
    if x.rpt then
      -- R70, R71: the loop test is made once, after the last issue of the repeat
      let x := { x with rc := x.rc - 1 }
      if x.rc ≠ 0 then x else ({ x with rpt := false }).goOn
    else if x.slots = 1 then
      -- R72: a loop that ends at the last delay slot counts, and the branch target wins
      let y := (x.loopTest 3 false).1
      let y := { y with refill := x.refill, overhead := false }
      if y.slotRti then { y with slots := 0 } else { y with pc := y.tgt, slots := 0 }
    else
      let x := { x with slots := x.slots - 1 }
      match act with
      | .br t => { x with slots := 2, tgt := t, slotRti := false }.goOn
      | .rti => { x with slots := 2, slotRti := true }.goOn
      | .rpt n =>
        match x.level with
        | some i => if x.levels[i].le = x.pc then x.goOn else { x with rpt := true, rc := n, pc := x.pc + 1 }
        | none => { x with rpt := true, rc := n, pc := x.pc + 1 }
      | .loop n last => (x.pushLoop n last).goOn
      | _ => x.goOn

/-- The bundle of the present cycle issues (R54, R122, R123): one read from the program tile is read with its errors, and a
reserved code or an uncorrectable bundle sets SEQERR. -/
def Die.issueBundle (e : Die) (c : Fin 28) : Die :=
  let x := e.course c
  let e := if x.fromCache.isNone then (e.readBundle c x.pc.toNat Req.course []).2 else e
  if x.voided || bunReserved x.bundle then e.seqErr c else e

/-- A cycle that is no stall has passed for a course: what was eligible at its start may be taken at the boundary, the requests
raised in it pend, and the request eligible at the start of the next is noted (R74, R75). -/
def Course.nextCycle (x : Course) : Course :=
  let y := x.latched
  { y with ticks := x.ticks + 1, stores := [], taken := x.now, now := y.eligible }

/-- The course is in a stall cycle: its own, or while it runs in shadow its source's (R66, R109). -/
def Die.stallsNow (e : Die) (c : Fin 28) : Bool :=
  (e.course c).stalled.isSome || (e.isShadow c && (e.course (e.migSrc (wallOf c))).stalled.isSome)

/-- OPERATION_WRITEBACK: one ENG cycle that is no stall ends for a course. What falls due is written (R60, R65), then the
sequencer moves on. The overhead cycle of a back-edge issues nothing, and is no issue cycle of R65. A stalled course holds
everything (R66), and so does one without clock or power (R102, R112). From the issue stop on, no bundle issues: what is in
flight completes (R90). The stream that RTI resumes goes on once the writes of its second delay slot are made (R78). -/
def Die.endCycle (e : Die) (c : Fin 28) : Die :=
  let x := e.course c
  if e.stallsNow c || !e.clocked c then e
  else if x.overhead && !e.eng.stopped then e.updCourse c fun x => { x.nextCycle with overhead := false, taken := none }
  else
    let e := if x.running && !e.eng.stopped then (e.issueBundle c).updCourse c (·.fill.advance)
      else e.updCourse c fun x => { x with act := .none }
    (e.settleCourse c).updCourse c fun x => (if x.returning then x.resume else x).nextCycle

/-- OPERATION_WRITEBACK (R65). -/
def execOperationWriteback (d : DieId) (c : Fin 28) (s : State) : Out := .next (s.updIn .eng d (·.endCycle c))

/-- A sequencer operation other than END issues: in a delay slot or in a repeated bundle it is ignored and sets SEQERR
(R69). DEDUCED: the delay slots of RTI count as a branch's (log 200). -/
def Die.seqOp (e : Die) (c : Fin 28) (a : SeqAct) : Die :=
  let x := e.course c
  if 0 < x.slots ∨ x.rpt then e.seqErr c else e.updCourse c fun x => { x with act := a }

/-- END: the bundle's own operations issue, and fetch stops with the cycle (R67, R69, R89). -/
def execEndKernel (d : DieId) (c : Fin 28) (cycle : BitVec 15) (s : State) : Out :=
  issueOn d c (fun e => e.updCourse c fun x =>
    { x with act := .end_ cycle, endCyc := cycle, reachedEnd := decide (cycle.toNat + 513 ≤ e.cyc) }) s

/-- BR (R67). -/
def execBr (d : DieId) (c : Fin 28) (target : BitVec 13) (s : State) : Out := issueOn d c (·.seqOp c (.br target)) s

/-- The condition of BRC, by the flags at the start of its cycle (R68). -/
def Course.cond (x : Course) (k : BitVec 4) : Bool :=
  let b := x.bricks[0]
  match k.toNat with
  | 0 => b.f
  | 1 => !b.f
  | 2 => (List.finRange 8).any fun l => x.bricks[l].f
  | 3 => (List.finRange 8).all fun l => x.bricks[l].f
  | 4 => b.n
  | 5 => b.z
  | _ => false

/-- BRC (R68). -/
def execBrc (d : DieId) (c : Fin 28) (k : BitVec 4) (target : BitVec 13) (s : State) : Out :=
  issueOn d c (fun e => e.seqOp c (if (e.course c).cond k then .br target else .none)) s

/-- RPT; at a loop's end address the repeat is discarded and SEQERR sets (R70, R72). -/
def execRpt (d : DieId) (c : Fin 28) (count : BitVec 13) (s : State) : Out :=
  issueOn d c (fun e =>
    let x := e.course c
    let atEnd := match x.level with | some i => x.levels[i].le == x.pc | none => false
    let e := if atEnd && x.slots == 0 && !x.rpt then e.seqErr c else e
    e.seqOp c (.rpt count)) s

/-- A loop push; at LD = 3 it pushes nothing and sets SEQERR (R71, R72). -/
def Die.loopOp (e : Die) (c : Fin 28) (count last : BitVec 13) : Die :=
  let x := e.course c
  if x.slots = 0 ∧ !x.rpt ∧ x.ld = 3 then e.seqErr c else e.seqOp c (.loop count last)

/-- LOOP over the next `len + 1` bundles (R67, R71). -/
def execLoop (d : DieId) (c : Fin 28) (len : BitVec 5) (count : BitVec 13) (s : State) : Out :=
  issueOn d c (fun e => e.loopOp c count ((e.course c).pc + 1 + BitVec.ofNat 13 len.toNat)) s

/-- LOOPX to an end address (R67, R71). -/
def execLoopx (d : DieId) (c : Fin 28) (last : BitVec 13) (count : BitVec 13) (s : State) : Out :=
  issueOn d c (·.loopOp c count last) s

/-- RTI: two delay slots, then the interrupted stream (R78). From a doorbell handler it sets DONE and the course's bit of
ENG_BELLIRQ (R91, R114), except in shadow (R109). -/
def execRti (d : DieId) (c : Fin 28) (s : State) : Out :=
  issueOn d c (fun e =>
    let x := e.course c
    let e := e.seqOp c .rti
    if x.slots = 0 ∧ !x.rpt ∧ x.handler = some 2 ∧ !e.isShadow c then
      (e.setFld (F.ENG_C_BELL_DONE c) 1).setBitAt F.ENG_BELLIRQ_COURSE c true
    else e) s

/-- BRK: the break request is pending from the start of the next cycle (R74). -/
def execBrk (d : DieId) (c : Fin 28) (s : State) : Out :=
  issueOn d c (fun e =>
    let x := e.course c
    if 0 < x.slots ∨ x.rpt then e.seqErr c else e.updCourse c (·.issue 1 .brk)) s

/-- A boundary at which hold mode takes interrupts: no delay slots, no repeat, nothing in flight (R75). -/
def Course.clean (x : Course) : Bool := x.slots == 0 && !x.rpt && x.flight.isEmpty

/-- IBR's record of the pending sequencer state (R77). The target after the slots of an RTI is IPC (R78). -/
def Course.pendingState (x : Course) : BitVec 17 :=
  let tgt := if x.slotRti then x.ipc else x.tgt
  BitVec.ofNat 17 ((if x.slots = 0 then 0 else 1 + x.slots % 4 * 2 + tgt.toNat * 8) + b2n x.rpt * 2 ^ 16)

/-- COURSE_INTERRUPT_ENTRY (R75, R76): at the boundary after a cycle the request of the highest priority that was eligible at
the start of that cycle is taken. IPC, IBR and IE change, its pending bit clears, the operations in flight run on through the four entry cycles, and
the stub bundle is next. Nothing is taken in a stall cycle, in the last eight cycles of a frame (R90), before the first
resumed bundle after RTI (R78), or by a course that issues nothing (R102, R112, R502). -/
def Die.courseEntry (e : Die) (c : Fin 28) : Die :=
  let x := e.course c
  let hold := e.bit (F.ENG_C_MODE_HOLD (e.workCourse c))
  match x.taken with
  | none => e
  | some i =>
    if e.stallsNow c ∨ e.eng.stopped ∨ !e.serves c ∨ x.resumed ∨ (hold ∧ !x.clean) then e
    else
      let e := e.updCourse c fun x => { x with
        ipc := if x.running then x.pc else x.endPc
        ibr := if hold then 0 else x.pendingState
        ics := BitVec.ofNat 9 (insBits (insBits x.ics.toNat (4 + i.val) 1 0) 8 1 0)
        outer := (x.handler.map fun h => (h, x.idleTaken)).toList ++ x.outer
        idleTaken := !x.running
        running := true
        slots := 0
        slotRti := false
        rpt := false
        overhead := false
        handler := some i
        taken := none
        now := none
        ticks := x.ticks + 4
        pc := BitVec.ofNat 13 (0x1FE0 + 8 * i.val) }
      ((((e.settleCourse c).settleCourse c).settleCourse c).settleCourse c).updCourse c (·.latched)

/-- COURSE_INTERRUPT_ENTRY (R76). -/
def execCourseInterruptEntry (d : DieId) (c : Fin 28) (s : State) : Out := .next (s.updIn .eng d (·.courseEntry c))

/-- A source raises its request: the pending bit reads 1 from the start of the next cycle (R74). -/
def Course.pend (x : Course) (i : Fin 4) : Course := { x with raised := x.raised ||| BitVec.ofNat 4 (2 ^ i.val) }

/-- A request of a course pends, and of the spare that shadows it, which takes the same interrupts (R74, R109). A course without
clock or power takes none (R102, R112). -/
def Die.pendCourse (e : Die) (c : Fin 28) (i : Fin 4) : Die :=
  let w := wallOf c
  if !e.clocked c then e
  else
    let e := e.updCourse c (·.pend i)
    if e.shadowing w && e.migSrc w == c then e.updCourse (e.migSpare w) (·.pend i) else e

/-- DOORBELL_RING: a write of 1 to ENG_Cn.BELL.RING sets ICS bit 6 (R114). -/
def execDoorbellRing (d : DieId) (c : Fin 28) (s : State) : Out :=
  .next (s.writeIn .eng d (R.ENG_C_BELL c.val) 1 (·.pendCourse c 2))

/-- ISSUE_STOP: from cycle N - 8 no course issues and none takes interrupts; stalled yard accesses are abandoned (R90). -/
def Die.issueStop (e : Die) : Die :=
  { e with eng := { e.eng with stopped := true, courses := e.eng.courses.map fun x => { x with stalled := none } } }

/-- ISSUE_STOP (R90). -/
def execIssueStop (d : DieId) (s : State) : Out := .next (s.updIn .eng d (·.issueStop))

end Sys2Proof.Machine
end

