-- ==== Sys2Proof/Machine/Yard.lean ====
section
/-! DEFINITION. The yard beside the courses' accesses: arbitration, the YARDW and ENGW windows, hods, background test and
spare-tile remap (R118 to R146, R185 to R188), and what FT does there. -/

namespace Sys2Proof.Machine

/-! ### Arbitration -/

/-- Place of a requester of a bank in the order of R118; the lower wins. -/
def reqScore (bank : Nat) : Requester → Nat
  | .seat s => (s.val / 6 + 4 - bank) % 4 * 100 + s.val
  | .hod h => 1000 + (h.val / 4 + 4 - bank) % 4 * 10 + h.val % 4
  | .stateCopy => 2000
  | .crossbar => 3000
  | .writeBack => 4000
  | .test => 5000

/-- Hods and the state copy are the requesters of ranks 5 and 6 (R118). -/
def lateReq : Requester → Bool
  | .hod _ => true
  | .stateCopy => true
  | _ => false

/-- A seat held by no course, and a course that only shadows, make no request (R109, R502). -/
def Die.mayAsk (e : Die) : Requester → Bool
  | .seat s => (e.seatCourse s).isSome
  | _ => true

/-- The highest-ranked requester of a bank. -/
def bestReq (bank : Nat) (rs : List Requester) : Option Requester :=
  rs.foldl (fun b r => match b with
    | none => some r
    | some q => if reqScore bank r < reqScore bank q then some r else some q) none

/-- A row of the remap's copy is written into the spare, through its own port; a test step that holds the row is abandoned (R139,
R142). -/
def Die.spareWrite (e : Die) (m : Remap) (r : Nat × Nat × Row) : Die :=
  let key := m.spare * 4096 + r.2.1
  (e.touchTest key).updYard (·.setRowAt key r.2.2)

/-- Copy reads of a remap whose fifth cycle has passed write the spare: a write granted in the fifth still finds the read
pending (R142). -/
def Die.landReads (e : Die) (b : Fin 4) (now : Nat) : Die :=
  let m := e.yard.remaps[b]
  let e := (m.reads.filter (fun r => r.1 + 5 < now)).foldl (fun e r => e.spareWrite m r) e
  e.updYard fun y =>
    { y with remaps := vupd y.remaps b fun m => { m with reads := m.reads.filter (fun r => now ≤ r.1 + 5) } }

/-- YARD_ARBITRATION: the bank grants its cycle to the highest-ranked requester (R118); in cycles N - 4 to N - 1 ranks 5
and 6 get no grant (R119). -/
def Die.arbitrate (e : Die) (bank : Fin 4) (cycle : Nat) (reqs : List Requester) : Die :=
  let rs := reqs.filter fun r => e.mayAsk r && !(lateReq r && e.cyc ≤ cycle + 4)
  let now := e.seq * e.cyc + cycle
  (e.landReads bank now).updYard fun y =>
    { y with
      grants := y.grants.set bank.val (some (bestReq bank.val rs))
      cycles := y.cycles.set bank.val now }

/-- YARD_ARBITRATION (R118). -/
def execYardArbitration (d : DieId) (bank : Fin 4) (cycle : BitVec 15) (reqs : List Requester) (s : State) : Out :=
  .next (s.updIn .eng d (·.arbitrate bank cycle.toNat reqs))

/-! ### The YARDW and ENGW windows -/

/-- Lane of a YARDW or ENGW address. -/
def windowLane (addr : Word) : Fin 8 := ⟨addr.toNat / 4 % 8, Nat.mod_lt _ (by decide)⟩

/-- A YARDW access that its bank does not grant in this cycle asks again in the next (R118). -/
def Die.yardwWaits (e : Die) (addr : Word) : Bool :=
  let b := bankOf (yardwRow addr)
  e.wallOn b.val && !e.granted b (some .crossbar)

/-- A crossbar read of one yard quarter (R118, R120, R124). -/
def Die.yardwRead (e : Die) (m : BitVec 3) (addr : Word) (err : RowErr) : Die :=
  let row := yardwRow addr
  if !e.wallOn (bankOf row).val then e.busError m false 2 addr
  else if e.yardwWaits addr then e
  else
    let (r, e) := (e.useGrant (bankOf row)).readYard row Req.xbar err
    e.answer m (quarterWord r[windowLane addr])

/-- YARDW_READ (R120). -/
def execYardwRead (d : DieId) (m : BitVec 3) (addr : Word) (err : RowErr) (s : State) : Out :=
  .next (s.updIn .eng d (·.yardwRead m addr err))

/-- A row with one quarter replaced: its pair is read with its check bits, so that an uncorrectable pair's other quarter
becomes zero (R123, R124). -/
def pairWrite (m : BitVec 8) (r : Row) (lane : Fin 8) (q : Quarter) : Row :=
  Vector.ofFn fun (l : Fin 8) =>
    if l = lane then q
    else if l.val / 2 = lane.val / 2 ∧ pairMark m (l.val / 2) = 2 then 0 else r[l]

/-- Marks of a row after the pair of a lane has been written. -/
def pairMarks (m : BitVec 8) (lane : Fin 8) : BitVec 8 := BitVec.ofNat 8 (insBits m.toNat (2 * (lane.val / 2)) 2 0)

/-- The bank arbitrates in this frame: an access takes one grant, which serves one row (R117). -/
def Die.arbitrated (e : Die) (b : Fin 4) : Bool := e.yard.grants[b].isSome

/-- A YARDW write has still to take the first of its two grants, or to repeat its read, for another requester has written the row
since (R124). Where its bank arbitrates nothing the two grants follow each other at once. -/
def Die.yardwReads (e : Die) (m : BitVec 3) (addr : Word) : Bool :=
  e.arbitrated (bankOf (yardwRow addr)) && !e.yard.rmws.contains ⟨m, addr, false⟩

/-- A master's YARDW write is over, or given up. -/
def Yard.rmwDone (y : Yard) (m : BitVec 3) : Yard := { y with rmws := y.rmws.filter (·.m != m) }

/-- The first grant of a YARDW write: the pair is read (R124). -/
def Die.yardwFetch (e : Die) (m : BitVec 3) (addr : Word) (err : RowErr) : Die :=
  let row := yardwRow addr
  let e := ((e.useGrant (bankOf row)).readYard row Req.xbar err).2
  e.updYard fun y => { y.rmwDone m with rmws := ⟨m, addr, false⟩ :: (y.rmwDone m).rmws }

/-- A crossbar write of one yard quarter, as a read-modify-write of its pair with two grants at rank 7 (R118, R124). The access is
answered with the second; until then its master asks again. -/
def Die.yardwWrite (e : Die) (m : BitVec 3) (addr v : Word) (err : RowErr) : Die :=
  let row := yardwRow addr
  if !e.wallOn (bankOf row).val then e.busError m true 2 addr
  else if e.yardwWaits addr then e
  else if e.yardwReads m addr then e.yardwFetch m addr err
  else
    let lane := windowLane addr
    let e := if e.arbitrated (bankOf row) then e.useGrant (bankOf row) else (e.readYard row Req.xbar err).2
    let e := e.updYard (·.rmwDone m)
    let key := e.yard.key row
    let marks := if e.yard.isUnwritten row.toNat then 0 else SMap.get markDflt e.yard.bad key
    let old := if e.yard.isUnwritten row.toNat then Row.zero else e.yard.rowAt key
    (e.putYard row (pairWrite marks old lane (BitVec.ofNat 28 v.toNat)) (pairMarks marks lane)).answer m 0

/-- YARDW_WRITE (R124). -/
def execYardwWrite (d : DieId) (m : BitVec 3) (addr : Word) (v : Word) (err : RowErr) (s : State) : Out :=
  .next (s.updIn .eng d (·.yardwWrite m addr v err))

/-- The course an ENGW address names, for offsets below 0x4000 (R185). -/
def engwCourse (addr : Word) : Option (Fin 28) :=
  let a := addr.toNat - 0x20000000
  if h : a / 65536 < 28 ∧ a % 65536 < 0x4000 then some ⟨a / 65536, h.1⟩ else none

/-- Row of the back Z bank an ENGW address names. -/
def engwRow (addr : Word) : Nat := addr.toNat % 0x4000 / 32

/-- One quarter of a back Z bank is written as a read-modify-write of its pair (R124, R185). -/
def Die.zBackWrite (e : Die) (c : Fin 28) (row : Nat) (lane : Fin 8) (q : Quarter) (err : RowErr) : Die :=
  let e := (e.readTile c Tl.zb row Req.xbar err).2
  e.updCourse c fun x =>
    let marks := SMap.get markDflt x.bad (tileKey Tl.zb row)
    let x := x.setTileRow Tl.zb row (pairWrite marks (x.tileRow Tl.zb row) lane q)
    { x with bad := SMap.set markDflt x.bad (tileKey Tl.zb row) (pairMarks marks lane) }

/-- An ENGW write (R185); while the course is a source in shadow it also writes the spare's bank (R109). Offsets from
0x4000 ignore it. DEDUCED: a course of an OFF wall takes no write, for its bank, if it is held, is found unchanged (R103,
log 201). -/
def Die.engwWrite (e : Die) (m : BitVec 3) (addr v : Word) (err : RowErr) : Die :=
  match engwCourse addr with
  | none => e.answer m 0
  | some c =>
    if e.wallState (wallOf c) = St.off then e.answer m 0
    else
    let q := BitVec.ofNat 28 v.toNat
    let e := e.zBackWrite c (engwRow addr) (windowLane addr) q err
    let w := wallOf c
    let e := if e.shadowing w && e.migSrc w == c then
      e.zBackWrite (e.migSpare w) (engwRow addr) (windowLane addr) q [] else e
    e.answer m 0

/-- ENGW_WRITE (R185). -/
def execEngwWrite (d : DieId) (m : BitVec 3) (addr : Word) (v : Word) (err : RowErr) (s : State) : Out :=
  .next (s.updIn .eng d (·.engwWrite m addr v err))

/-- An ENGW read: the back bank's quarter, sign-extended; offsets from 0x4000 read zero (R122, R123, R185). What a course of
an OFF wall reads as is a free value (log 201). -/
def Die.engwRead (e : Die) (m : BitVec 3) (addr : Word) : Die :=
  match engwCourse addr with
  | none => e.answer m 0
  | some c =>
    if e.wallState (wallOf c) = St.off then e.drawn.answer m (quarterWord (Config.offTile e.free))
    else
      let (r, e) := e.readTile c Tl.zb (engwRow addr) Req.xbar []
      e.answer m (quarterWord r[windowLane addr])

/-! ### Hods (R134 to R137) -/

/-- A hod. -/
def Die.hod (e : Die) (h : Fin 16) : Hod := e.yard.hods[h]

/-- Change a hod; its LEVEL and BUSY follow. -/
def Die.updHod (e : Die) (h : Fin 16) (f : Hod → Hod) : Die :=
  let e := e.updYard fun y => { y with hods := vupd y.hods h f }
  let x := e.hod h
  (e.setFld (F.YRD_HOD_STAT_LEVEL h) x.queue.length).setBit (F.YRD_HOD_STAT_BUSY h) x.running.isSome

/-- HOD_PUSH: the D3 write pushes the descriptor of D0 to D3; a push to a full queue is dropped (R134). -/
def Die.hodPush (e : Die) (h : Fin 16) (d3 : Word) : Die :=
  if 8 ≤ (e.hod h).queue.length then e.setFld (F.YRD_HOD_STAT_DROP h) 1
  else e.updHod h fun x => { x with
    queue := x.queue ++ [⟨e.reg (R.YRD_HOD_D0 h), e.reg (R.YRD_HOD_D1 h), e.reg (R.YRD_HOD_D2 h), d3, false⟩] }

/-- HOD_PUSH (R134). -/
def execHodPush (d : DieId) (h : Fin 16) (d3 : Word) (s : State) : Out :=
  .next (s.writeIn .eng d (R.YRD_HOD_D3 h.val) d3 (·.hodPush h d3))

/-- Rows of a tile by its code (R136). -/
def tileRows (t : Nat) : Nat :=
  match t with
  | 0 => 8192
  | 5 => 64
  | _ => 512

/-- One end of a descriptor (R135): a yard row, or course, tile and row. -/
inductive HodEnd
  | yard (row : BitVec 22)
  | tile (c : Fin 28) (t row : Nat)
  | bad
  deriving DecidableEq, Repr

/-- The end a D1 or D2 word names for the `i`th row of a hod of wall `w` (R135, R136). DESIGN CHOICE: a start row at or above the
tile's size counts modulo that size, as every later row does (log 243). -/
def hodEnd (w : Fin 4) (d : Word) (i : Nat) : HodEnd :=
  let n := d.toNat
  match n / 2 ^ 30 with
  | 0 => .yard (BitVec.ofNat 22 (bitsOf n 20 2 * 2 ^ 20 + (n % 2 ^ 20 + i) % 2 ^ 20))
  | 1 =>
    let t := bitsOf n 16 3
    if h : bitsOf n 19 3 < 7 then
      if t ≤ 5 then .tile (courseAt w ⟨_, h⟩) t ((n % 8192 + i) % tileRows t) else .bad
    else .bad
  | _ => .bad

/-- Does the end name a program tile? -/
def HodEnd.prog : HodEnd → Bool
  | .tile _ 0 _ => true
  | _ => false

/-- A descriptor the hod discards as a whole (R137): a reserved code, course 7, or a program tile paired with anything
else. -/
def HodDesc.wrong (w : Fin 4) (x : HodDesc) : Bool :=
  let op := x.d0.toNat % 4
  let src := hodEnd w x.d1 0
  let dst := hodEnd w x.d2 0
  2 ≤ op || dst == .bad || (if op = 0 then src == .bad || src.prog != dst.prog else dst.prog)

/-- A descriptor with ATFT moves no row before the FT that follows its push (R135). -/
def HodDesc.waits (x : HodDesc) : Bool := natBit x.d0.toNat 3 && !x.ft

/-- The hod gives its descriptor up: ERR and YRD_IRQ.HODERR set (R137). -/
def Die.hodDiscard (e : Die) (h : Fin 16) : Die :=
  ((e.updHod h fun x => { x with running := none, moved := 0, inHand := none }).setFld (F.YRD_HOD_STAT_ERR h) 1).setFld
    F.YRD_IRQ_HODERR 1

/-- An end of a move lies in a bank whose wall is not ON (R137). -/
def Die.endOff (e : Die) : HodEnd → Bool
  | .yard row => !e.wallOn (bankOf row).val
  | _ => false

/-- A write of a tile row through the hod-side port. A row whose written bit is set takes nothing (R110); where the
engine-side port writes the same row in the same cycle, the engine's data stays and the collision is latched (R126). -/
def Die.hodTileWrite (e : Die) (h : Fin 16) (c : Fin 28) (t row : Nat) (v : Row) (engine : Bool) : Die :=
  let w := wallOf c
  if e.migPhase w == Mig.shadow && e.migSpare w == c && e.eng.migs[w].written.contains (migRow t row) then e
  else if engine then
    let w0 := row + t * 2 ^ 13 + c.val * 2 ^ 16
    let e := if e.bit F.YRD_HODSTAT_COLL then e
      else ((e.setFld F.YRD_HODSTAT_COLL 1).setFld F.YRD_HODSTAT_HOD h.val).setRegN R.YRD_COLLADDR w0
    (e.setFld F.YRD_IRQ_COLL 1).logEv 5 2 (e.regN R.YRD_COLLADDR) h.val
  else e.updCourse c (·.setTileRow t row v)

/-- The hod as a requester. -/
def hodAsks (h : Fin 16) : Option Requester := some (.hod h)

/-- The bank of an end has no grant for the hod in this cycle: the hod asks again in the next (R118, R119). -/
def Die.endWaits (e : Die) (h : Fin 16) : HodEnd → Bool
  | .yard row => !e.granted (bankOf row) (hodAsks h)
  | _ => false

/-- The read half of a move: fill value, yard row in a grant, or tile row (R136). -/
def Die.hodRead (e : Die) (fill : Option Quarter) (src : HodEnd) (err : RowErr) : Row × Die :=
  match fill with
  | some q => (Vector.replicate 8 q, e)
  | none => match src with
    | .yard row => (e.useGrant (bankOf row)).readYard row Req.hod err
    | .tile c t row => e.readTile c t row Req.hod err
    | .bad => (Row.zero, e)

/-- The write half of a move. -/
def Die.hodWrite (e : Die) (h : Fin 16) (dst : HodEnd) (v : Row) (engine : Bool) : Die :=
  match dst with
  | .yard row => (e.useGrant (bankOf row)).writeYard row v
  | .tile c t row => e.hodTileWrite h c t row v engine
  | .bad => e

/-- A row of a descriptor has been written: the next row, or the descriptor's end (R136). -/
def Die.hodMoved (e : Die) (h : Fin 16) (x : HodDesc) (i : Nat) : Die :=
  let count := let n := x.d0.toNat / 2 ^ 16; if n = 0 then 65536 else n
  if i + 1 = count then
    let e := (e.updHod h fun y => { y with running := none, moved := 0, inHand := none }).count (F.YRD_HOD_STAT_DONE h) 1
    if natBit x.d0.toNat 2 then e.setBitAt F.YRD_HODIRQ_HOD h true else e
  else e.updHod h fun y => { y with moved := i + 1, inHand := none }

/-- One row of a running descriptor moves (R136). A move whose yard read or yard write has no grant waits for it; a row that
was read and not yet written stays in hand. -/
def Die.hodMove (e : Die) (h : Fin 16) (x : HodDesc) (i : Nat) (err : RowErr) (engine : Bool) : Die :=
  let w : Fin 4 := ⟨h.val / 4, by omega⟩
  let fill := if x.d0.toNat % 4 = 1 then some (BitVec.ofNat 28 x.d3.toNat) else none
  let src := hodEnd w x.d1 i
  let dst := hodEnd w x.d2 i
  if (fill.isNone && e.endOff src) || e.endOff dst then e.hodDiscard h
  else match src, dst with
    | .tile a 0 ra, .tile b 0 rb =>
      if fill.isSome then e.hodMoved h x i
      else
        let (v, e) := e.readBundle a ra Req.hod err
        (e.updCourse b (·.setBundle rb v)).hodMoved h x i
    | _, _ =>
      match (e.hod h).inHand with
      | some v => if e.endWaits h dst then e else (e.hodWrite h dst v engine).hodMoved h x i
      | none =>
        if fill.isNone && e.endWaits h src then e
        else
          let (v, e) := e.hodRead fill src err
          if e.endWaits h dst then (if fill.isSome then e else e.updHod h fun y => { y with inHand := some v })
          else (e.hodWrite h dst v engine).hodMoved h x i

/-- A row of the migration copy on hod 3: program bundles in LOAD; in SHADOW the 2,112 rows of the other tiles, where a
row whose written bit is set is left alone (R108, R110). -/
def Die.migMove (e : Die) (w : Fin 4) : Die :=
  let src := e.migSrc w
  let m := e.eng.migs[w]
  let sp := e.migSpare w
  let step (e : Die) : Die :=
    { e with eng := { e.eng with migs := vupd e.eng.migs w fun m => { m with copied := m.copied + 1 } } }
  if m.waiting then e
  else if e.migPhase w == Mig.load then
    if m.copied < 8192 then
      let (v, e) := e.readBundle src m.copied Req.hod []
      step (e.updCourse sp (·.setBundle m.copied v))
    else e
  else if e.migPhase w == Mig.shadow then
    if m.copied < 2112 then
      let t := 1 + m.copied / 512
      let row := m.copied % 512
      step (if m.written.contains m.copied then e
        else
          let (v, e) := e.readTile src t row Req.hod []
          e.updCourse sp (·.setTileRow t row v))
    else e
  else e

/-- Hod `h` serves only a migration or a remap now (R108, R134). -/
def Die.hodTaken (e : Die) (h : Fin 16) : Bool :=
  let w := h.val / 4
  let p := e.migPhase w
  let r := e.fld (F.YRD_REMAP_PHASE w)
  (h.val % 4 == 3 && 1 ≤ p && p ≤ 4) || (h.val % 4 == 2 && r != 0)

/-- HOD_ROW_MOVE: the hod takes up its next descriptor if it has none, and moves one row; hod 3 of a migrating wall
moves a row of the migration (R108, R134 to R137). A hod runs only while its wall is ON. DESIGN CHOICE: a descriptor that
hod 3 runs when LOAD begins waits too, and goes on where it stood when the migration ends (log 202). -/
def Die.hodRowMove (e : Die) (h : Fin 16) (err : RowErr) (engine : Bool) : Die :=
  let w : Fin 4 := ⟨h.val / 4, by omega⟩
  if !e.wallOn w.val then e
  else if e.hodTaken h then (if h.val % 4 = 3 then e.migMove w else e)
  else
    let x := e.hod h
    match x.running with
    | some k => if k.waits then e else e.hodMove h k x.moved err engine
    | none =>
      match x.queue with
      | [] => e
      | k :: ks =>
        let e := e.updHod h fun y => { y with queue := ks, running := some k, moved := 0 }
        if k.wrong w then e.hodDiscard h
        else if k.waits then e else e.hodMove h k 0 err engine

/-- HOD_ROW_MOVE (R136). -/
def execHodRowMove (d : DieId) (h : Fin 16) (err : RowErr) (engineRow : Bool) (s : State) : Out :=
  .next (s.updIn .eng d (·.hodRowMove h err engineRow))

/-- A wall's hods discard what they run and their queues (R137). -/
def Die.hodFlush (e : Die) (w : Fin 4) : Die :=
  ((List.finRange 16).filter (fun h => h.val / 4 == w.val)).foldl
    (fun e h => e.updHod h fun _ => ⟨[], none, 0, none⟩) e

/-- An FT passes for every descriptor a hod holds (R135). -/
def Die.hodFt (e : Die) : Die :=
  e.updYard fun y => { y with hods := y.hods.map fun x => { x with
    queue := x.queue.map fun k => { k with ft := true }
    running := x.running.map fun k => { k with ft := true } } }

end Sys2Proof.Machine
end

