-- ==== Sys2Proof/Machine/YardTest.lean ====
section
/-! DEFINITION. The background test of the yard and the remap of a failing tile (R138 to R144), and what FT does to
them and to the delay rings (R130 to R133). -/

namespace Sys2Proof.Machine

/-- A bank's test engine. -/
def Die.test (e : Die) (b : Fin 4) : TestEngine := e.yard.tests[b]

/-- Change a bank's test engine. -/
def Die.updTest (e : Die) (b : Fin 4) (f : TestEngine → TestEngine) : Die :=
  e.updYard fun y => { y with tests := vupd y.tests b f }

/-- A test row of a bank lies in a retired tile. -/
def Yard.retiredRow (y : Yard) (b : Fin 4) (n : Nat) : Bool := y.retired.contains (b.val * 264 + n / 512)

/-- The next tile's first test row that is not retired, from tile `t` on, within the 264 tiles (R138). -/
def Yard.skipRetired (y : Yard) (b : Fin 4) : Nat → Nat → Nat
  | 0, n => n
  | k + 1, n => if n / 512 < 264 ∧ y.retiredRow b n then y.skipRetired b k ((n / 512 + 1) * 512) else n

/-- The test engine goes to the first test row from `n` on that no retired tile holds; past the last it begins a new pass and
LAPS counts (R138, R145). -/
def Die.testSeek (e : Die) (b : Fin 4) (n : Nat) : Die :=
  let n := e.yard.skipRetired b 264 n
  if n < 135168 then e.updTest b fun t => { t with next := n }
  else
    let l := bitsOf (e.fld F.YRD_TESTSTAT_LAPS) (6 * b.val) 6
    let e := e.setFld F.YRD_TESTSTAT_LAPS (insBits (e.fld F.YRD_TESTSTAT_LAPS) (6 * b.val) 6 (l + 1))
    e.updTest b fun t => { t with next := e.yard.skipRetired b 264 0, seen := t.found, found := [] }

/-- The test engine moves to its next test row. -/
def Die.nextTestRow (e : Die) (b : Fin 4) : Die := e.testSeek b ((e.test b).next + 1)

/-- TEST_STEP_START: after PACE frames an enabled bank begins its next step (R141); a held row stops it (R140). -/
def Die.testStart (e : Die) (b : Fin 4) : Die :=
  let t := e.test b
  if e.bitAt F.YRD_TESTCTL_EN b ∧ e.wallOn b ∧ t.phase = .idle ∧ !t.borrowed ∧ e.fld F.YRD_TESTCTL_PACE ≤ t.frames then
    (e.testSeek b t.next).updTest b fun t => { t with phase := .capture, frames := 0 }
  else e

/-- TEST_STEP_START (R141). -/
def execTestStepStart (d : DieId) (bank : Fin 4) (s : State) : Out := .next (s.updIn .eng d (·.testStart bank))

/-- The row address of a physical row of a bank: its logical tile's, or a free value where none maps to it (R116). -/
def Die.rowAddr (e : Die) (b : Fin 4) (tile row : Nat) : Nat :=
  match (List.range 256).find? (fun t => e.yard.phys b.val t == tile) with
  | some t => b.val * 2 ^ 20 + t * 4096 + row
  | none => Config.heldSpareRow e.free % 2 ^ 22

/-- The capture of one row of a test row into the shadow: it is read with its check bits, errors counted (R122, R123,
R138). -/
def Die.captureRow (e : Die) (b : Fin 4) (l : Fin 8) (err : RowErr) : Die :=
  let n := (e.test b).next
  let key := testKey b.val n + l.val
  let m := addMarks (SMap.get markDflt e.yard.bad key) err
  let v := eccRow m (SMap.get rowDflt e.yard.rows key)
  let e := e.updTest b fun t => { t with shadow := t.shadow.set l.val v l.isLt }
  let e := e.updYard fun y => { y with bad := SMap.set markDflt y.bad key m }
  let e := if hasMark m 1 then e.count (F.YRD_SBE_COUNT b) 1 else e
  if hasMark m 2 then
    ((((e.count (F.YRD_DBE_COUNT b) 1).reportDbe (e.rowAddr b (n / 512) (n % 512 * 8 + l.val)) (dbePair m) 0
      Req.test)).updYard (·.candidate (key / 4096) 0)).drawn
  else e

/-- The code words of a test row that stand marked correctable, by their number in the bank. -/
def Yard.correctables (y : Yard) (b n : Nat) : List Nat :=
  (List.range 32).filterMap fun i =>
    if pairMark (SMap.get markDflt y.bad (testKey b n + i / 4)) (i % 4) = 1 then some (n * 32 + i) else none

/-- TEST_CAPTURE, in a grant of the bank: the test row goes into the shadow and is borrowed. A code word found correctable
on two successive passes makes its tile a candidate; a retry of an abandoned step belongs to the same pass (R138, R139). -/
def Die.testCapture (e : Die) (b : Fin 4) (sbe : List (Fin 32)) : Die :=
  let t := e.test b
  if t.phase = .capture ∧ e.granted b (some .test) then
    let e := (List.finRange 8).foldl (fun e l =>
      e.captureRow b l ((sbe.filter (fun w => w.val / 4 == l.val)).map
        (fun w => (⟨w.val % 4, Nat.mod_lt _ (by decide)⟩, EccKind.sbe)))) (e.useGrant b)
    let ids := e.yard.correctables b.val t.next
    let e := if ids.any t.seen.contains then e.updYard (·.candidate (b.val * 264 + t.next / 512) 2) else e
    (e.updTest b fun t => { t with
      phase := .march 0
      borrowed := true
      found := t.found ++ ids.filter fun i => !t.found.contains i }).setBitAt F.YRD_TESTSTAT_ACTIVE b true
  else e

/-- TEST_CAPTURE (R138). -/
def execTestCapture (d : DieId) (bank : Fin 4) (sbe : List (Fin 32)) (s : State) : Out :=
  .next (s.updIn .eng d (·.testCapture bank sbe))

/-- TEST_MARCH_CYCLE: one of the ten march cycles, in a grant of the bank (R138). A wrong value holds the row, stops the engine and makes the
tile a candidate (R140). -/
def Die.testMarch (e : Die) (b : Fin 4) (ok : Bool) : Die :=
  let t := e.test b
  match t.phase with
  | .march k =>
    if !e.granted b (some .test) then e
    else
    let e := e.useGrant b
    if ok then e.updTest b fun t => { t with phase := if k < 9 then .march (k + 1) else .restore true }
    else
      let row := e.rowAddr b (t.next / 512) (t.next % 512 * 8)
      let e := (e.drawn.updTest b fun t => { t with phase := .idle }).setBitAt F.YRD_TESTSTAT_HELD b true
      let e := (e.setRegN (R.YRD_TESTHOLD b) (row + 2 ^ 31)).setFld F.YRD_IRQ_TESTFAIL 1
      (e.logEv 5 3 b.val row).updYard (·.candidate (b.val * 264 + t.next / 512) 1)
  | _ => e

/-- TEST_MARCH_CYCLE (R138). -/
def execTestMarchCycle (d : DieId) (bank : Fin 4) (ok : Bool) (s : State) : Out := .next (s.updIn .eng d (·.testMarch bank ok))

/-- TEST_RESTORE, in a grant of the bank: the shadow goes back with fresh check bits and the row is released; an abandoned
step leaves the engine at the same test row (R138, R139). The spare of a remap takes the rows too (R142). -/
def Die.testRestore (e : Die) (b : Fin 4) : Die :=
  let t := e.test b
  match t.phase with
  | .restore done =>
    if !e.granted b (some .test) then e
    else
    let base := testKey b.val t.next
    let e := (e.useGrant b).updTest b fun t => { t with phase := .idle, borrowed := false }
    let e := (List.finRange 8).foldl (fun e (l : Fin 8) =>
      (e.updYard (·.setRowAt (base + l.val) t.shadow[l])).mirror b (base + l.val)) e
    let e := e.setBitAt F.YRD_TESTSTAT_ACTIVE b false
    if done then e.nextTestRow b else e
  | _ => e

/-- TEST_RESTORE (R138). -/
def execTestRestore (d : DieId) (bank : Fin 4) (s : State) : Out := .next (s.updIn .eng d (·.testRestore bank))

/-! ### Remap -/

/-- A physical tile of a bank serves some logical tile. -/
def Yard.mapped (y : Yard) (b p : Nat) : Bool :=
  (p < 256 && y.phys b p == p) || y.tileMap.any (fun m => m.1 / 256 == b && m.2 == p)

/-- The free spares of a bank, lowest first (R142). DESIGN CHOICE: with an image's yard map too, every physical tile that no
logical tile maps to and that is not retired is one (log 203). -/
def Yard.spares (y : Yard) (b : Nat) : List Nat :=
  (List.range 264).filter fun p => !y.mapped b p && !y.retired.contains (b * 264 + p)

/-- REMAP_GO: ignored unless IDLE and the wall ON; without a free spare it sets NOSPARE (R142). -/
def Die.remapGo (e : Die) (b : Fin 4) : Die :=
  if e.fld (F.YRD_REMAP_PHASE b) ≠ 0 ∨ !e.wallOn b then e
  else match e.yard.spares b with
    | [] => e.setFld (F.YRD_REMAP_NOSPARE b) 1
    | p :: _ =>
      let src := b.val * 264 + e.yard.phys b (e.fld (F.YRD_REMAP_SRC b))
      let e := e.updYard fun y => { y with remaps := y.remaps.set b.val ⟨src, e.fld (F.YRD_REMAP_SRC b), b.val * 264 + p, 0, [], [], []⟩ b.isLt }
      (e.setFld (F.YRD_REMAP_PHASE b) 1).setFld (F.YRD_REMAP_LOST b) 0

/-- REMAP_GO (R142). -/
def execRemapGo (d : DieId) (bank : Fin 4) (s : State) : Out :=
  .next (s.writeIn .eng d (R.YRD_REMAP bank.val) ((s.die d).strobe (R.YRD_REMAP bank.val) 8) (·.remapGo bank))

/-- Number of uncorrectable pairs of a mark. -/
def lostPairs (m : BitVec 8) : Nat := ((List.range 4).filter (fun p => pairMark m p == 2)).length

/-- Change a bank's remap. -/
def Die.updRemap (e : Die) (b : Fin 4) (f : Remap → Remap) : Die :=
  e.updYard fun y => { y with remaps := vupd y.remaps b f }

/-- A copy read of one source row: its write into the spare follows five cycles later; an uncorrectable pair goes over as
zero and counts in LOST (R142, R143). -/
def Die.remapRead (e : Die) (b : Fin 4) (row : Nat) (err : RowErr) : Die :=
  let rm := e.yard.remaps[b]
  let key := rm.srcPhys * 4096 + row
  let m := addMarks (SMap.get markDflt e.yard.bad key) err
  let v := eccRow m (e.yard.rowAt key)
  let e := (e.useGrant b).touchTest key
  let e := e.updYard fun y => { y with
    bad := SMap.set markDflt y.bad key m
    fixes := if hasMark m 1 && !y.fixes.contains key then y.fixes ++ [key] else y.fixes }
  let e := if hasMark m 1 then e.count (F.YRD_SBE_COUNT b) 1 else e
  let e := if hasMark m 2 then
    ((((e.count (F.YRD_DBE_COUNT b) 1).reportDbe (b.val * 2 ^ 20 + rm.tile * 4096 + row) (dbePair m) 0
      Req.remap)).updYard (·.candidate rm.srcPhys 0)).count (F.YRD_REMAP_LOST b) (lostPairs m) else e
  e.updRemap b fun r => { r with reads := r.reads ++ [(e.yard.cycles[b], row, v)] }

/-- Hod 2 of the bank's wall, which copies (R142). -/
def copyHod (b : Fin 4) : Option Requester := some (.hod ⟨4 * b.val + 2, by omega⟩)

/-- REMAP_COPY, in a grant of the bank at rank 5: the next row of the COPY pass, or of a CLEAN pass (R119, R142). -/
def Die.remapCopy (e : Die) (b : Fin 4) (err : RowErr) : Die :=
  let rm := e.yard.remaps[b]
  if !e.granted b (copyHod b) then e
  else
  match e.fld (F.YRD_REMAP_PHASE b) with
  | 1 =>
    let e := (e.remapRead b rm.nextRow err).updRemap b fun r => { r with nextRow := r.nextRow + 1 }
    if rm.nextRow + 1 < 4096 then e
    else (e.setFld (F.YRD_REMAP_PHASE b) 2).updRemap b fun r =>
      { r with todo := (List.range 4096).filter r.dirty.contains, dirty := [] }
  | 2 =>
    match rm.todo with
    | row :: rest => (e.updRemap b fun r => { r with todo := rest }).remapRead b row err
    | [] => e
  | _ => e

/-- REMAP_COPY (R142). -/
def execRemapCopy (d : DieId) (bank : Fin 4) (err : RowErr) (s : State) : Out := .next (s.updIn .eng d (·.remapCopy bank err))

/-- REMAP_CLEAN_PASS: a pass ends once its rows are copied and written; with no row dirty SWITCH is next, else the dirty
rows make another pass (R142). -/
def Die.remapCleanPass (e : Die) (b : Fin 4) : Die :=
  let rm := e.yard.remaps[b]
  if e.fld (F.YRD_REMAP_PHASE b) = 2 ∧ rm.todo = [] then
    let e := rm.reads.foldl (fun e r => e.spareWrite rm r) e
    let e := e.updRemap b fun r => { r with reads := [] }
    if rm.dirty = [] then e.setFld (F.YRD_REMAP_PHASE b) 3
    else e.updRemap b fun r => { r with todo := (List.range 4096).filter r.dirty.contains, dirty := [] }
  else e

/-- REMAP_CLEAN_PASS (R142). -/
def execRemapCleanPass (d : DieId) (bank : Fin 4) (s : State) : Out := .next (s.updIn .eng d (·.remapCleanPass bank))

/-- REMAP_SWITCH at FT: the tile map sends the logical tile to the spare, the old tile is retired, and a test row held in
it is released without a restore (R142), and a step that waits to capture a row of it goes on to the next tile (R138). -/
def Die.remapSwitch (e : Die) (b : Fin 4) : Die :=
  if e.fld (F.YRD_REMAP_PHASE b) = 3 then
    let rm := e.yard.remaps[b]
    let tile := rm.tile
    let t := e.test b
    let held := t.borrowed && b.val * 264 + t.next / 512 == rm.srcPhys
    let e := e.updYard fun y => { y with
      tileMap := SMap.set (fun k => k % 256) y.tileMap (256 * b.val + tile) (rm.spare - b.val * 264)
      retired := rm.srcPhys :: y.retired
      cand := SMap.set (fun _ => 0) y.cand rm.srcPhys 0 }
    let e := if held then
      ((((e.updTest b fun t => { t with borrowed := false, phase := .idle }).setBitAt F.YRD_TESTSTAT_HELD b false).setBitAt
        F.YRD_TESTSTAT_ACTIVE b false).setFld (F.YRD_TESTHOLD_VALID b) 0).nextTestRow b
      else if t.phase = .capture then e.testSeek b t.next else e
    let e := ((e.setFld (F.YRD_REMAP_PHASE b) 0).setFld (F.YRD_REMAP_SPARES b) (e.yard.spares b.val).length).setFld
      F.YRD_IRQ_REMAP 1
    e.logEv 5 4 b.val tile (e.fld (F.YRD_REMAP_LOST b))
  else e

/-- A wall leaves ON before SWITCH: the remap ends and the spare stays free (R144). -/
def Die.remapEnd (e : Die) (b : Fin 4) : Die :=
  if e.fld (F.YRD_REMAP_PHASE b) = 0 then e
  else (e.setFld (F.YRD_REMAP_PHASE b) 0).updRemap b fun _ => ⟨0, 0, 0, 0, [], [], []⟩

/-! ### Rings at FT (R130 to R133) -/

/-- RING_DESCRIPTOR_EXCHANGE for one descriptor: refused where the back length is 0 or above MAXLEN (R131); a length
change into a SMOOTH front starts a fade, and a front that is not SMOOTH ends one (R133). -/
def RingDesc.exchange (r : RingDesc) : RingDesc :=
  if !r.valid then r
  else if r.backLen = 0 ∨ r.maxLen < r.backLen then { r with ringErr := true }
  else
    let s := { r with frontLen := r.backLen, frontSmooth := r.backSmooth, backLen := r.frontLen,
                      backSmooth := r.frontSmooth }
    if !r.backSmooth then { s with fade := 0 }
    else if r.backLen ≠ r.frontLen then { s with fade := 257, oldLen := r.frontLen, oldWp := r.wp }
    else s

/-- A ring at FT: the write pointer advances modulo the length in force, the old pointer of a fade modulo the old length,
and a fade counts one frame down (R130, R133). -/
def RingDesc.tick (r : RingDesc) : RingDesc :=
  if !r.valid || r.frontLen == 0 then r
  else { r with wp := (r.wp + 1) % r.frontLen,
                oldWp := if r.fade = 0 ∨ r.oldLen = 0 then r.oldWp else (r.oldWp + 1) % r.oldLen,
                fade := r.fade - 1 }

/-- The exchange of every defined descriptor at a swap (R130, R131). -/
def Die.ringExchange (e : Die) : Die :=
  let bad := e.yard.rings.any (fun r => r.2.valid && (r.2.backLen == 0 || r.2.maxLen < r.2.backLen))
  (e.updYard fun y => { y with rings := y.rings.map fun r => (r.1, r.2.exchange) }).raise F.YRD_IRQ_RINGERR bad

/-- RING_POINTER_ADVANCE and the frame count of every fade. -/
def Die.ringTick (e : Die) : Die := e.updYard fun y => { y with rings := y.rings.map fun r => (r.1, r.2.tick) }

/-- The test engines count a frame (R141). -/
def Die.testTick (e : Die) : Die :=
  e.updYard fun y => { y with tests := y.tests.map fun t => { t with frames := t.frames + 1 } }

end Sys2Proof.Machine
end

