-- ==== Sys2Proof/Machine/Walls.lean ====
section
/-! DEFINITION. Walls, seats, wear, live migration, and what FT and the exchange window do to the courses (R52, R85, R90,
R92 to R113). -/

namespace Sys2Proof.Machine

/-! ### Walls -/

/-- A key of the course's marks lies in a tile that retention holds: the program tile and the Z tiles (R103). -/
def heldTile (k : Nat) : Bool := k / 8192 == Tl.prog || k / 8192 == Tl.zf || k / 8192 == Tl.zb

/-- A course of a wall that loses power: everything reads zero when the wall rises but, under retention, the program and
Z tiles with their check bits (R103). -/
def Course.lose (x : Course) (keep : Bool) : Course :=
  if keep then { Course.reset with
    ics := 0
    prog := x.prog
    zFront := x.zFront
    zBack := x.zBack
    bad := x.bad.filter fun m => heldTile m.1
    fixes := x.fixes.filter heldTile
    sbe := x.sbe
    dbe := x.dbe }
  else { Course.reset with ics := 0, sbe := x.sbe, dbe := x.dbe }

/-- The bank's rows are lost (R103). -/
def Yard.loseBank (y : Yard) (b : Nat) : Yard :=
  { y with rows := y.rows.filter (fun r => r.1 / (264 * 4096) != b),
           bad := y.bad.filter (fun r => r.1 / (264 * 4096) != b),
           fixes := y.fixes.filter (fun k => k / (264 * 4096) != b) }

/-- A wall loses its volatile contents, and without retention all of them (R103). -/
def Die.loseWall (e : Die) (w : Fin 4) (keep : Bool) : Die :=
  let e := (List.finRange 7).foldl (fun e i => e.updCourse (courseAt w i) (·.lose keep)) e
  let e := if keep then e else e.updYard (·.loseBank w.val)
  { e with eng := { e.eng with walls := vupd e.eng.walls w fun p => { p with held := keep } } }

/-- WALL_RETENTION_LOSS: RET is cleared; while the wall is OFF its contents are lost at that moment (R103). -/
def Die.retLoss (e : Die) (w : Fin 4) : Die :=
  let e := e.setBitAt F.ENG_WCTL_RET w false
  if e.wallState w = St.off ∧ e.eng.walls[w].held then e.loseWall w false else e

/-- WALL_RETENTION_LOSS (R103). -/
def execWallRetentionLoss (d : DieId) (w : Fin 4) (s : State) : Out := .next (s.updIn .keep d (·.retLoss w))

/-- SEATMAP_WRITE: only while the wall is OFF (R92, R115). -/
def Die.seatmapWrite (e : Die) (w : Fin 4) (v : Word) : Die :=
  if e.wallState w = St.off then e.setReg (R.ENG_SEATMAP w) (v &&& 0x7F73FFFF) else e

/-- SEATMAP_WRITE (R92). -/
def execSeatmapWrite (d : DieId) (w : Fin 4) (v : Word) (s : State) : Out :=
  .next (s.writeIn .eng d (R.ENG_SEATMAP w.val) v (·.seatmapWrite w v))

/-- WEAR_MEASURE: MARGIN takes the measurement; BASE is the factory baseline of a -L part, else the first measurement after
the first die reset, which later resets do not lose (R106). -/
def Die.wear (e : Die) (c : Fin 28) (margin : BitVec 12) : Die :=
  let base := e.eng.wearBase[c].getD (if Config.lifeRated then Config.factoryMargin c.val else margin)
  { ((e.setFld (F.ENG_C_WEAR_MARGIN c) margin.toNat).setFld (F.ENG_C_WEAR_VALID c) 1).setFld (F.ENG_C_WEAR_BASE c) base.toNat
      with eng := { e.eng with wearBase := e.eng.wearBase.set c.val (some base) c.isLt } }

/-- WEAR_MEASURE (R106). -/
def execWearMeasure (d : DieId) (c : Fin 28) (margin : BitVec 12) (s : State) : Out := .next (s.updIn .eng d (·.wear c margin))

/-! ### Migration -/

/-- Change a wall's migration. -/
def Die.updMig (e : Die) (w : Fin 4) (f : Migration → Migration) : Die :=
  { e with eng := { e.eng with migs := vupd e.eng.migs w f } }

/-- The wall's course in the SPARE role, if it has one (R502). One whose migration was aborted in LOAD has the role again from
the next FT on (R113). -/
def Die.spareOf (e : Die) (w : Fin 4) : Option (Fin 7) :=
  if e.eng.migs[w].rest then none else (List.finRange 7).find? fun i => e.courseRole (courseAt w i) == 1

/-- MIGRATION_GO: ignored unless IDLE, with a source that holds a seat and a spare (R108). LOAD begins at the next FT. -/
def Die.migGo (e : Die) (w : Fin 4) : Die :=
  match e.spareOf w with
  | some i =>
    if h : e.fld (F.ENG_MIG_SRC w) < 7 then
      let src : Fin 7 := ⟨_, h⟩
      if e.migPhase w = Mig.idle ∧ (e.courseSeat (courseAt w src)).isSome then
        e.updMig w fun m => ⟨0, [], i, src, true, 0, false, m.rest, false⟩
      else e
    else e
  | none => e

/-- MIGRATION_GO (R108). -/
def execMigrationGo (d : DieId) (w : Fin 4) (s : State) : Out :=
  .next (s.writeIn .eng d (R.ENG_MIG w.val) ((s.die d).strobe (R.ENG_MIG w.val) 8) (·.migGo w))

/-- MIGRATION_ARM: accepted in SHADOW, VERIFY or READY; a frame that has already begun sets LATE (R112). -/
def Die.migArm (e : Die) (w : Fin 4) : Die :=
  let p := e.migPhase w
  if p = Mig.shadow ∨ p = Mig.verify ∨ p = Mig.ready then
    if seqAfter (e.regN (R.ENG_MIGF w)) e.seq then e.setFld (F.ENG_MIG_ARMED w) 1
    else (e.setFld (F.ENG_MIG_LATE w) 1).setFld (F.ENG_MIG_ARMED w) 0
  else e

/-- MIGRATION_ARM (R112). -/
def execMigrationArm (d : DieId) (w : Fin 4) (s : State) : Out :=
  .next (s.writeIn .eng d (R.ENG_MIG w.val) ((s.die d).strobe (R.ENG_MIG w.val) 10) (·.migArm w))

/-- A migration ends: from LOAD to READY PHASE reads IDLE, and the spare returns to its role at the next FT; one that was
asked for and has not begun is dropped (R113). -/
def Die.migEnd (e : Die) (w : Fin 4) : Die :=
  let p := e.migPhase w
  if 1 ≤ p ∧ p ≤ 4 then
    (e.updMig w fun m => { m with ending := p ≠ Mig.load, rest := p = Mig.load, waiting := false }).setFld
      (F.ENG_MIG_PHASE w) Mig.idle
  else e.updMig w fun m => { m with waiting := false }

/-- MIGRATION_ABORT: from LOAD to READY the migration ends; FAILED is cleared (R113). -/
def Die.migAbort (e : Die) (w : Fin 4) : Die :=
  let p := e.migPhase w
  if 1 ≤ p ∧ p ≤ 4 then e.migEnd w
  else if p = Mig.failed then e.setFld (F.ENG_MIG_PHASE w) Mig.idle
  else e

/-- MIGRATION_ABORT (R113). -/
def execMigrationAbort (d : DieId) (w : Fin 4) (s : State) : Out :=
  .next (s.writeIn .eng d (R.ENG_MIG w.val) ((s.die d).strobe (R.ENG_MIG w.val) 9) (·.migAbort w))

/-- MIGRATION_REARM: in MOVED, the retired course becomes the spare at the next FT (R113). -/
def Die.migRearm (e : Die) (w : Fin 4) : Die :=
  if e.migPhase w = Mig.moved then e.updMig w fun m => { m with rearm := true } else e

/-- MIGRATION_REARM (R113). -/
def execMigrationRearm (d : DieId) (w : Fin 4) (s : State) : Out :=
  .next (s.writeIn .eng d (R.ENG_MIG w.val) ((s.die d).strobe (R.ENG_MIG w.val) 13) (·.migRearm w))

/-- MIGRATION_SHADOW_START: the spare takes the source's brick and course registers, interrupt mode and start address, and
the sinks of the window before (R108). Its tiles are hod 3's to copy. -/
def Die.shadowStart (e : Die) (w : Fin 4) (src : Fin 28) : Die :=
  let sp := e.migSpare w
  let x := e.course src
  let e := e.updCourse sp fun y => { x with
    prog := y.prog, x := y.x, y := y.y, zFront := y.zFront, zBack := y.zBack, entryEng := y.entryEng,
    exitWork := y.exitWork, exitPres := y.exitPres, ringIn := y.ringIn, bad := y.bad, sbe := y.sbe, dbe := y.dbe,
    fixes := y.fixes, stores := [], compared := [] }
  -- the spare works for the source's seat, whose planned stalls are PLAN
  let e := e.setFld (F.ENG_C_STALL_PLAN sp) (e.fld (F.ENG_C_STALL_PLAN src))
  let e := (e.setFld (F.ENG_C_START_ADDR sp) (e.fld (F.ENG_C_START_ADDR src))).setFld (F.ENG_C_MODE_HOLD sp)
    (e.fld (F.ENG_C_MODE_HOLD src))
  ((e.updMig w fun m => { m with copied := 0, written := [] }).setFld (F.ENG_MIG_PHASE w) Mig.shadow).setFld
    (F.ENG_MIG_MATCH w) 0

/-- A course in shadow takes over what its source's registers hold for the seat: start address, interrupt mode, and the count
of overruns and the zeroing of the exit, which go with the seat (R99, R109, R112; log 37, 239). -/
def Die.seatRegs (e : Die) (sp src : Fin 28) : Die :=
  let e := (e.setFld (F.ENG_C_START_ADDR sp) (e.fld (F.ENG_C_START_ADDR src))).setFld (F.ENG_C_MODE_HOLD sp)
    (e.fld (F.ENG_C_MODE_HOLD src))
  (e.setFld (F.ENG_C_OVR_CONSEC sp) (e.fld (F.ENG_C_OVR_CONSEC src))).setFld (F.ENG_C_OVR_ZEROED sp)
    (e.fld (F.ENG_C_OVR_ZEROED src))

/-- MIGRATION_MOVE: the seat passes to the former spare, and the source is retired and clock-gated (R112). DESIGN CHOICE: the
source's PLAN, which is its seat's, reads 0 from then on (log 204). -/
def Die.migMoveSeat (e : Die) (w : Fin 4) (src : Fin 28) : Die :=
  match mapSeat (e.seatMap w) (src.val % 7) with
  | none => e
  | some j =>
    let sp := e.migSpare w
    let m := e.seatMap w
    let m := insBits m (3 * j) 3 (sp.val % 7)
    let m := insBits (insBits m 20 3 7) (24 + src.val % 7) 1 1
    let x := e.course src
    let e := e.updCourse sp fun y => { y with exitPres := x.exitPres, exitWork := x.exitWork }
    let e := ((e.seatRegs sp src).setRegN (R.ENG_SEATMAP w) m).setFld (F.ENG_C_STALL_PLAN src) 0
    let e := e.updCourse src fun y => { y with running := false }
    let e := (e.setFld (F.ENG_MIG_PHASE w) Mig.moved).setFld (F.ENG_MIG_ARMED w) 0
    e.logEv 4 2 w.val src.val sp.val

/-- Hod 3 copies until `n` rows are done: it moves one in every cycle, and nothing takes a cycle from it (R108). -/
def Die.migCatch (e : Die) (w : Fin 4) (n : Nat) : Die :=
  (List.range (n - e.eng.migs[w].copied)).foldl (fun e _ => e.migMove w) e

/-- A frame of LOAD ends: after as many frames as 8,192 cycles take, SHADOW starts (R108). -/
def Die.migLoaded (e : Die) (w : Fin 4) (src : Fin 28) : Die :=
  let k := e.eng.migs[w].frames
  let e := e.migCatch w (min 8192 (k * e.cyc))
  if k * e.cyc < 8192 then e.updMig w fun m => { m with frames := m.frames + 1 } else e.shadowStart w src

/-- The SHADOW frame ends: VERIFY starts with nothing compared, or READY under NOVERIFY (R108, R111). -/
def Die.migShadowed (e : Die) (w : Fin 4) (src : Fin 28) : Die :=
  let e := e.migCatch w 2112
  let e := (e.updCourse (e.migSpare w) fun y => { y with compared := [] }).updCourse src fun y => { y with compared := [] }
  e.setFld (F.ENG_MIG_PHASE w) (if e.bit (F.ENG_MIG_NOVERIFY w) then Mig.ready else Mig.verify)

/-- A migration that has ended gives the spare back to its role, and its PLAN reads 0 again (R113; log 204). -/
def Die.migBack (e : Die) (w : Fin 4) : Die :=
  if e.eng.migs[w].ending then e.setFld (F.ENG_C_STALL_PLAN (e.migSpare w)) 0 else e

/-- The end of a frame for a wall's migration, and its next phase (R108, R111 to R113). The frame sequence has already
advanced. DEDUCED: a migration whose wall is not ON ends, and one asked for while it is not does not begin (log 240). -/
def Die.migTick (e : Die) (w : Fin 4) : Die :=
  let e := if e.wallOn w then e else e.migEnd w
  let m := e.eng.migs[w]
  let e := (e.migBack w).updMig w fun m => { m with ending := false, rest := false, rearm := false, waiting := false }
  let e := if m.rearm then
      let k := insBits (insBits (e.seatMap w) (24 + m.src.val) 1 0) 20 3 m.src.val
      (e.setRegN (R.ENG_SEATMAP w) k).setFld (F.ENG_MIG_PHASE w) Mig.idle
    else e
  let src := e.migSrc w
  let p := e.migPhase w
  let e :=
    if p = Mig.idle ∧ m.waiting then
      ((e.updMig w fun m => { m with frames := 1 }).setFld (F.ENG_MIG_PHASE w) Mig.load).setFld (F.ENG_MIG_MATCH w) 0
    else if p = Mig.load then e.migLoaded w src
    else if p = Mig.shadow then e.migShadowed w src
    else if p = Mig.verify ∧ (e.course src).reachedEnd then
      -- a migration that fails here ends with its frame: the spare has its role again at this FT
      if e.storesDiffer w then ((e.migFail w).migBack w).updMig w fun m => { m with ending := false }
      else
        let e := e.count (F.ENG_MIG_MATCH w) 1
        -- DESIGN CHOICE: MATCH stands still in READY (log 242)
        if 16 ≤ e.fld (F.ENG_MIG_MATCH w) then e.setFld (F.ENG_MIG_PHASE w) Mig.ready else e
    else e
  if e.bit (F.ENG_MIG_ARMED w) ∧ e.regN (R.ENG_MIGF w) = e.seq then
    if e.migPhase w = Mig.ready then e.migMoveSeat w src
    else (e.setFld (F.ENG_MIG_LATE w) 1).setFld (F.ENG_MIG_ARMED w) 0
  else e

/-- A swap exchanged a source's Z banks during SHADOW: hod 3 restarts the copy of the Z banks (R110). -/
def Die.migZRestart (e : Die) (c : Fin 28) : Die :=
  let w := wallOf c
  if e.migPhase w = Mig.shadow ∧ e.migSrc w = c then
    e.updMig w fun m => { m with copied := if 1024 < m.copied then 1024 else m.copied }
  else e

/-! ### FT -/

/-- The seed of a lane's dither register (R85). -/
def lfsrSeed (seq seat lane : Nat) : BitVec 32 :=
  let v := BitVec.ofNat 32 seq ^^^ BitVec.ofNat 32 (0x5A5A0000 + 8 * seat + lane)
  if v = 0 then 1 else v

/-- What a course reports of the frame that ends is latched, whatever its role (R101, R114), and the request that is
eligible at the start of the first cycle is noted before FT sets any pending bit; a handler that FT abandons leaves IE set (R74,
R90). -/
def Die.closeCourse (e : Die) (c : Fin 28) : Die :=
  let x := e.course c
  let e := (e.setFld (F.ENG_C_STAT_ENDCYC c) x.endCyc.toNat).setFld (F.ENG_C_STALL_LAST c) (min x.stalls 65535)
  let e := e.raise (F.ENG_C_STAT_STALLDEV c) (e.fld (F.ENG_C_STALL_LAST c) != e.fld (F.ENG_C_STALL_PLAN c))
  e.updCourse c fun x =>
    let y := x.latched
    { y with now := { y with ics := if x.handler.isSome then y.ics ||| 0x100 else y.ics }.eligible, taken := none }

/-- The grants of the cycle that has passed are over, and no arbitration stands (R117). -/
def Die.lapse (e : Die) : Die := e.updYard fun y => { y with grants := Vector.replicate 4 none }

/-- The frame ends for every course and every bank of the yard. -/
def Die.closeCourses (e : Die) : Die := ((List.finRange 28).foldl (fun e c => e.closeCourse c) e).lapse

/-- A course that issues nothing in the frame that begins. -/
def Course.standStill (x : Course) : Course :=
  { x with
    running := false, stalled := none, stores := [], act := .none, endCyc := 0x7FFF, stalls := 0, ticks := 0
    reachedEnd := false, compared := [], lastYard := none }

/-- A course starts its kernel at FT (R52, R85, R90, R94): its entry copies are exchanged, its lanes reseeded, its sequencer
state dropped; a handler that was running is abandoned. -/
def Course.restart (x : Course) (start : BitVec 13) (seed : Fin 8 → BitVec 32) : Course :=
  let x := if x.handler.isSome then { x with ics := x.ics ||| 0x100, ibr := 0, ipc := 0 } else x
  { x.standStill with
    bricks := Vector.ofFn fun (l : Fin 8) => { x.bricks[l] with lfsr := seed l }
    ld := 0, rc := 0, slots := 0, slotRti := false, rpt := false, handler := none, idleTaken := false, outer := []
    resumed := false, refill := false, overhead := false, cache := none, cached := [], running := true, pc := start
    entryEng := x.entryMor, entryMor := x.entryEng, bad := x.bad.filter (fun m => m.1 / 8192 != Tl.entry) }

/-- A course at FT (R52, R85, R90, R94): one with a seat in a wall that runs, or in shadow, starts its kernel, a shadow at its
source's start address (R109); any other issues nothing. DESIGN CHOICE: the dither registers of a course that works for no seat
keep their values (log 238). -/
def Die.ftCourse (e : Die) (c : Fin 28) : Die :=
  match e.workSeat c with
  | none => e.updCourse c (·.standStill)
  | some s =>
    if !e.wallRuns (wallOf c) then e.updCourse c (·.standStill)
    else
      e.updCourse c (·.restart (BitVec.ofNat 13 (e.fld (F.ENG_C_START_ADDR (e.workCourse c))))
        fun l => lfsrSeed e.seq s.val l.val)

/-- KERNEL_START and ENTRY_COPY_EXCHANGE for every course. -/
def Die.ftCourses (e : Die) : Die :=
  let e := (List.finRange 28).foldl (fun e c => e.ftCourse c) e
  { e with eng := { e.eng with stopped := false, window := false } }

/-! ### The exchange window -/

/-- Key of a mark with the work and presented exit copies exchanged. -/
def exitSwapKey (k : Nat) : Nat :=
  if k / 8192 = Tl.exit then k + 8192 else if k / 8192 = Tl.pres then k - 8192 else k

/-- The exit copies are exchanged, their check bits with them (R95). -/
def Course.exitExchange (x : Course) : Course :=
  { x with
    exitWork := x.exitPres
    exitPres := x.exitWork
    bad := x.bad.foldl (fun t m => SMap.set markDflt t (exitSwapKey m.1) m.2) [] }

/-- The overrun watchdog and the exit exchange of a course at cycle N - 512 (R95, R98, R99). A course in shadow counts
nothing (R109). -/
def Die.winCourse (e : Die) (c : Fin 28) : Die :=
  if (e.workSeat c).isNone || !e.wallRuns (wallOf c) then e
  else if (e.course c).reachedEnd then
    let e := e.updCourse c (·.exitExchange)
    if e.isShadow c then e else (e.setFld (F.ENG_C_OVR_CONSEC c) 0).setFld (F.ENG_C_OVR_ZEROED c) 0
  else
    let e := e.updCourse c (·.pend 0)
    if e.isShadow c then e
    else
      let e := (e.setBitAt F.ENG_OVRIRQ_COURSE c true).count (F.ENG_C_OVR_TOTAL c) 1
      let e := e.count (F.ENG_C_OVR_CONSEC c) 1
      if e.fld (F.ENG_C_OVR_CONSEC c) = 4 ∧ e.fld (F.ENG_C_OVR_ZEROED c) = 0 then
        (e.setFld (F.ENG_C_OVR_ZEROED c) 1).logEv 4 1 c.val
      else e

/-- A tile whose `n` rows hold what the spare's test left there. -/
def scratchTile (free t n : Nat) : SMap Row :=
  (List.range n).filterMap fun k => if Config.scratchRow free t k = Row.zero then none else some (k, Config.scratchRow free t k)

/-- The spare's test has used the X, Y and Z tiles as scratch and has written the exit work copy (R105). DESIGN CHOICE: it leaves
the brick and course registers, and so STAT.AOV and STAT.QSAT, as they were (log 241). -/
def Course.marched (x : Course) (free : Nat) : Course :=
  { x with
    x := scratchTile free Tl.x 512
    y := scratchTile free Tl.y 512
    zFront := scratchTile free Tl.zf 512
    zBack := scratchTile free Tl.zb 512
    exitWork := scratchTile free Tl.exit 64
    bad := x.bad.filter fun m => [Tl.prog, Tl.ring, Tl.entry, Tl.pres].contains (m.1 / 8192)
    fixes := x.fixes.filter fun k => [Tl.prog, Tl.ring].contains (k / 8192) }

/-- The CRC-32 of a course's exit work copy (R105). DESIGN CHOICE: the quarters in rising flat index, each sign-extended to 32
bits as in R160 (log 36). -/
def Course.exitCrc (x : Course) : BitVec 32 :=
  BitVec.ofNat 32 (crc32Words ((List.range 512).map fun f =>
    (quarterWord ((SMap.get rowDflt x.exitWork (f / 8))[f % 8]'(Nat.mod_lt _ (by decide)))).toNat))

/-- SPARE_SIGNATURE: a spare's test ends, and its signature is held against the value fixed at manufacture (R105). The test
stands still in LOAD, and after an ABORT in LOAD until the next FT (R108, R113). -/
def Die.winSpare (e : Die) (w : Fin 4) : Die :=
  if !e.wallRuns w || e.migPhase w == Mig.load then e
  else match e.spareOf w with
    | none => e
    | some i =>
      let c := courseAt w i
      let e := (e.updCourse c (·.marched e.free)).drawn
      let sig := (e.course c).exitCrc
      let e := e.setReg (R.ENG_SPSIG w) sig
      if sig = Config.spareExpected then e
      else
        let e := e.healthNote fun h => { h with spfail := h.spfail + 1 }
        let n := bitsOf (e.regN R.ENG_SPFAIL) (8 * w.val) 8
        e.setRegN R.ENG_SPFAIL (insBits (e.regN R.ENG_SPFAIL) (8 * w.val) 8 (satAdd 8 n 1))

/-- The comparison of a wall's stores, once the source has reached END within its budget (R111). -/
def Die.winVerify (e : Die) (w : Fin 4) : Die := if e.storesDiffer w then e.migFail w else e

/-- The Mortar reads the presented exit copies of the walls that are ON: rows that are marked count and are reported (R95, R122,
R123). -/
def Die.winExits (e : Die) : Die :=
  (List.finRange 28).foldl (fun e c =>
    if (e.courseSeat c).isSome && e.wallOn (wallOf c) && !e.bit (F.ENG_C_OVR_ZEROED c) then
      e.readMarked c Req.course fun k => k / 8192 == Tl.pres
    else e) e

/-- The courses' part of EXCHANGE_WINDOW. -/
def Die.winCourses (e : Die) : Die :=
  let e := { e with eng := { e.eng with window := true } }
  let overran := (List.finRange 28).any fun c =>
    (e.workSeat c).isSome && e.wallRuns (wallOf c) && !e.isShadow c && !(e.course c).reachedEnd
  let e := if overran then e.healthNote fun h => { h with ovr := h.ovr + 1 } else e
  let e := (List.finRange 28).foldl (fun e c => e.winCourse c) e
  ((List.finRange 4).foldl (fun e w => (e.winVerify w).winSpare w) e).winExits

/-- The quarter an exit slot presents: zero unless its wall is ON, its seat is held and its exit is not zeroed (R95, R99,
R102, R502). -/
def Die.exitSlot (e : Die) (s : Fin 24) (f : Nat) : Quarter :=
  match e.seatCourse s with
  | none => 0
  | some c =>
    if !e.wallOn (wallOf c) || e.bit (F.ENG_C_OVR_ZEROED c) then 0
    else
      let x := e.course c
      (eccRow (SMap.get markDflt x.bad (tileKey Tl.pres (f % 512 / 8))) (SMap.get rowDflt x.exitPres (f % 512 / 8)))[f % 8]'(Nat.mod_lt _ (by decide))

end Sys2Proof.Machine
end

