-- ==== Sys2Proof/Machine/Swap.lean ====
section
/-! DEFINITION. The swap slots: arming, disarming, and which slots a frame executes (R189 to R199). -/

namespace Sys2Proof.Machine

/-- Frames from the present one to a target, modulo 2^32. -/
def Die.framesTo (e : Die) (f : Nat) : Nat := (f + 2 ^ 32 - e.seq) % 2 ^ 32

/-- SWAP_ARM: ARMED sets if the target lies 2 to 2^31 - 1 frames ahead, otherwise LATE sets; an armed slot ignores it
(R190). -/
def Die.slotArm (e : Die) (n : Fin 4) : Die :=
  if e.bit (F.ENG_SWAP_CTL_ARMED n) then e
  else
    let k := e.framesTo (e.regN (R.ENG_SWAP_FRAME n))
    if 2 ≤ k ∧ k < 2 ^ 31 then e.setFld (F.ENG_SWAP_CTL_ARMED n) 1 else e.setBitAt F.ENG_SWAPIRQ_LATE n true

/-- SWAP_ARM (R190). -/
def execSwapArm (d : DieId) (n : Fin 4) (s : State) : Out := .next (s.writeIn .eng d (R.ENG_SWAP_CTL n.val) 1 (·.slotArm n))

/-- SWAP_DISARM: an armed slot disarms while its target lies at least 2 frames ahead, otherwise DISLATE sets; a slot that
is not armed ignores it (R191). -/
def Die.slotDisarm (e : Die) (n : Fin 4) : Die :=
  if !e.bit (F.ENG_SWAP_CTL_ARMED n) then e
  else if 2 ≤ e.framesTo (e.regN (R.ENG_SWAP_FRAME n)) then e.setFld (F.ENG_SWAP_CTL_ARMED n) 0
  else e.setBitAt F.ENG_SWAPIRQ_DISLATE n true

/-- SWAP_DISARM (R191). -/
def execSwapDisarm (d : DieId) (n : Fin 4) (s : State) : Out :=
  .next (s.writeIn .eng d (R.ENG_SWAP_CTL n.val) 2 (·.slotDisarm n))

/-- A write of ENG_SWAPn_CTL: one that sets both ARM and DISARM is ignored as a whole (R190). -/
def Die.slotCtl (e : Die) (n : Fin 4) (v : Word) : Die :=
  match natBit v.toNat 0, natBit v.toNat 1 with
  | true, false => e.slotArm n
  | false, true => e.slotDisarm n
  | _, _ => e

/-- The die's own slots. -/
def Die.ownSlots (e : Die) : Vector LeadSlot 4 :=
  Vector.ofFn fun (n : Fin 4) =>
    ⟨BitVec.ofNat 27 (e.regN (R.ENG_SWAP_MASK n)), e.reg (R.ENG_SWAP_FRAME n), e.bit (F.ENG_SWAP_CTL_ARMED n)⟩

/-- The die executes the lead's slots (R197): it is a follow, or a joiner that has them. -/
def Die.followsSlots (e : Die) : Bool := e.role == Role.follow || e.role == Role.join

/-- A lead slot as it stands in frame `f`: one whose target has passed was executed, and so disarmed. -/
def LeadSlot.at (s : LeadSlot) (f : Nat) : LeadSlot :=
  if s.armed && 2 ^ 31 ≤ (s.frame.toNat + 2 ^ 32 - f) % 2 ^ 32 then { s with armed := false } else s

/-- The lead slots a follow uses from FT of frame `f`: those of the end of frame f - 2 where they have come (R197). -/
def Die.leadSlotsAt (e : Die) (f : Nat) : Vector LeadSlot 4 :=
  match e.swp.inbox.find? (fun x => (x.1 + 2) % 2 ^ 32 == f) with
  | some x => x.2.map (·.at f)
  | none => e.swp.lead.map (·.at f)

/-- LEAD_SLOT_ADOPT at FT of the present frame; LEADARMED shows it (R197, R198). -/
def Die.slotAdopt (e : Die) : Die :=
  let e := if e.followsSlots then
      { e with swp := { e.swp with lead := e.leadSlotsAt e.seq, inbox := e.swp.inbox.filter (fun x => seqAfter x.1 (e.seq + 2 ^ 32 - 2)) } }
    else e
  (List.finRange 4).foldl (fun e (n : Fin 4) =>
    e.setBit (F.ENG_SWAP_CTL_LEADARMED n) (e.followsSlots && e.swp.lead[n].armed)) e

/-- The slots the die executes in frame `f`: none in FENCED and SVCLOST (R192, R197, R280). -/
def Die.slotsAt (e : Die) (f : Nat) : Vector LeadSlot 4 :=
  if !e.inService then Vector.replicate 4 ⟨0, 0, false⟩
  else if e.followsSlots then e.leadSlotsAt f else e.ownSlots

/-- The slots due in frame `f`. -/
def Die.dueAt (e : Die) (f : Nat) : List (Fin 4) :=
  (List.finRange 4).filter fun (n : Fin 4) => (e.slotsAt f)[n].armed && (e.slotsAt f)[n].frame.toNat == f

/-- The union of the masks of the slots due in frame `f` (R192). -/
def Die.unionAt (e : Die) (f : Nat) : BitVec 27 :=
  (e.dueAt f).foldl (fun m (n : Fin 4) => m ||| (e.slotsAt f)[n].mask) 0

/-- SLOT_TAKEOVER: on taking lead a slot takes the last adopted lead state if that is armed; any other keeps the die's
own, which disarms with LATE if its target has passed (R199). -/
def Die.slotTakeover (e : Die) : Die :=
  (List.finRange 4).foldl (fun e (n : Fin 4) =>
    let l := e.swp.lead[n]
    let e := if l.armed then
        ((e.setRegN (R.ENG_SWAP_MASK n) l.mask.toNat).setReg (R.ENG_SWAP_FRAME n) l.frame).setFld (F.ENG_SWAP_CTL_ARMED n) 1
      else e
    let e := if e.bit (F.ENG_SWAP_CTL_ARMED n) ∧ 2 ^ 31 ≤ e.framesTo (e.regN (R.ENG_SWAP_FRAME n)) then
        (e.setFld (F.ENG_SWAP_CTL_ARMED n) 0).setBitAt F.ENG_SWAPIRQ_LATE n true
      else e
    e.setFld (F.ENG_SWAP_CTL_LEADARMED n) 0) e

/-! ### Executing a swap (R187, R192, R193, R198) -/

/-- A row key of a Z bank with front and back exchanged. -/
def zSwapKey (k : Nat) : Nat :=
  if k / 8192 = Tl.zf then k + 8192 else if k / 8192 = Tl.zb then k - 8192 else k

/-- The front and back Z banks of a course are exchanged, their check bits with them (R189). -/
def Course.zExchange (x : Course) : Course :=
  { x with
    zFront := x.zBack
    zBack := x.zFront
    bad := x.bad.foldl (fun t m => SMap.set markDflt t (zSwapKey m.1) m.2) []
    fixes := x.fixes.map zSwapKey }

/-- ZMIRROR_COPY: a course copies its new front into its back bank, with fresh check bits (R187). A front row with errors
is read as any row is (R122, R123). -/
def Die.zMirror (e : Die) (c : Fin 28) : Die :=
  let rows := ((e.course c).bad.filter (fun m => m.1 / 8192 == Tl.zf)).map (fun m => m.1 % 8192)
  let (reads, e) := rows.foldl (fun (t : List (Nat × Row) × Die) row =>
    let (v, e) := t.2.readTile c Tl.zf row Req.hod []
    (t.1 ++ [(row, v)], e)) ([], e)
  e.updCourse c fun x =>
    let x := { x with
      zBack := x.zFront
      bad := x.bad.filter (fun m => m.1 / 8192 != Tl.zb)
      fixes := x.fixes.filter (fun k => k / 8192 != Tl.zb) }
    { x with zBack := reads.foldl (fun z r => SMap.set rowDflt z r.1 r.2) x.zBack }

/-- The Z banks of one course, with the mirror copy where ZMIRROR is set. -/
def Die.zSwapCourse (e : Die) (c : Fin 28) : Die :=
  let e := e.updCourse c (·.zExchange)
  if e.bit F.ENG_SWAPCTL_ZMIRROR then e.zMirror c else e

/-- A seat scope: the course that holds the seat, and the spare that shadows it; a seat whose wall is not ON is skipped
(R110, R189, R193). -/
def Die.zSwapSeat (e : Die) (s : Fin 24) : Die :=
  if !e.wallOn (seatWall s).val then
    (e.setBitAt F.ENG_SWAPSKIP_SEAT s true).setFld F.ENG_SWAPIRQ_SKIP 1
  else match e.seatCourse s with
    | none => e
    | some c =>
      let w := wallOf c
      let e := e.zSwapCourse c
      let e := if e.shadowing w && e.migSrc w == c then e.zSwapCourse (e.migSpare w) else e
      e.migZRestart c

/-- A follow compares an executed lead slot with its own of the same number (R198). -/
def Die.slotCompare (e : Die) (n : Fin 4) : Die :=
  let l := e.swp.lead[n]
  if e.bit (F.ENG_SWAP_CTL_ARMED n) ∧ e.regN (R.ENG_SWAP_MASK n) = l.mask.toNat ∧ e.reg (R.ENG_SWAP_FRAME n) = l.frame then
    e.setFld (F.ENG_SWAP_CTL_ARMED n) 0
  else (e.setFld F.ENG_SWAPIRQ_PAIRMIS 1).logEv 3 2 n.val

/-- An executed slot disarms and its DONE sets (R192). -/
def Die.slotServed (e : Die) (n : Fin 4) : Die :=
  let e := e.setBitAt F.ENG_SWAPIRQ_DONE n true
  if e.followsSlots then
    let e := e.slotCompare n
    ({ e with swp := { e.swp with lead := vupd e.swp.lead n fun l => { l with armed := false } } }).setFld
      (F.ENG_SWAP_CTL_LEADARMED n) 0
  else e.setFld (F.ENG_SWAP_CTL_ARMED n) 0

end Sys2Proof.Machine
end

