-- ==== Sys2Proof/Machine/Vox.lean ====
section
/-! DEFINITION. The voice allocator: note events and their queue, the batch, its resolution, and the commands written to
the voice seats (R205 to R223, R232). -/

namespace Sys2Proof.Machine

/-- Change the allocator. -/
def Die.updVox (e : Die) (f : Vox → Vox) : Die := { e with vox := f e.vox }

/-- Voices at the running rate (R205). -/
def Die.voiceCount (e : Die) : Nat := if e.fld F.ENG_RATE_RATE < 2 then 1024 else 512

/-- Octets per full voice seat: P of R205. -/
def Die.octetsPerSeat (e : Die) : Nat :=
  match e.fld F.ENG_RATE_RATE with
  | 0 => 33
  | 1 => 16
  | _ => 7

/-- Voice seats in use (R205). -/
def Die.voiceSeats (e : Die) : List (Fin 24) :=
  match e.fld F.ENG_RATE_RATE with
  | 0 => (List.finRange 24).filter fun s => 12 ≤ s.val ∧ s.val < 16
  | 1 => (List.finRange 24).filter fun s => 12 ≤ s.val ∧ s.val < 20
  | _ => (List.finRange 24).filter fun s => 12 ≤ s.val ∧ s.val < 22

/-- The GSUM seat (R205). -/
def Die.gsumSeat (e : Die) : Fin 24 :=
  match e.fld F.ENG_RATE_RATE with
  | 0 => 16
  | 1 => 20
  | _ => 22

/-- Frames of a steal-fade: S of R216. -/
def Die.stealFrames (e : Die) : Nat :=
  match e.fld F.ENG_RATE_RATE with
  | 0 => 96
  | 1 => 192
  | _ => 384

/-- The seat that plays a voice, and its local octet (R205). -/
def Die.voicePlace (e : Die) (v : Nat) : Fin 24 × Nat :=
  let o := v / 8
  (⟨(12 + o / e.octetsPerSeat) % 24, Nat.mod_lt _ (by decide)⟩, o % e.octetsPerSeat)

/-! ### Note events (R207 to R212) -/

/-- TYPE bits 62:60 of an event. -/
def evType (e : Block) : Nat := bitsOf e.toNat 60 3
/-- GROUP. -/
def evGroup (e : Block) : BitVec 4 := BitVec.ofNat 4 (bitsOf e.toNat 56 4)
/-- NOTE. -/
def evNote (e : Block) : BitVec 7 := BitVec.ofNat 7 (bitsOf e.toNat 49 7)
/-- FRAC. -/
def evFrac (e : Block) : Nat := bitsOf e.toNat 40 9
/-- VALUE. -/
def evValue (e : Block) : BitVec 16 := BitVec.ofNat 16 (bitsOf e.toNat 24 16)
/-- CTL. -/
def evCtl (e : Block) : Nat := bitsOf e.toNat 16 8

/-- An event discarded at entry: TYPE 0b000, or a GROUP_CTL above 8 (R208). -/
def evDiscarded (e : Block) : Bool := evType e == 0 || (evType e == 5 && 8 < evCtl e)

/-- The event addresses a note. -/
def evOnNote (e : Block) : Bool := 1 ≤ evType e && evType e ≤ 4

/-- ALL_OFF, KILL or a sustain GROUP_CTL. -/
def evWide (e : Block) : Bool := evType e == 6 || evType e == 7 || (evType e == 5 && evCtl e == 8)

/-- An event from its fields: type, group, note, value, controller. -/
def mkEvent (type group note value ctl : Nat) : Block :=
  BitVec.ofNat 64 (type * 2 ^ 60 + group * 2 ^ 56 + note * 2 ^ 49 + value * 2 ^ 24 + ctl * 2 ^ 16)

/-- The _STATE of the allocator. -/
def Die.voxState (e : Die) : Nat := e.fld F.VOX_CTRL_STATE

/-- An event of a source is dropped and counted (R211, R232). -/
def Die.qdrop (e : Die) (src : Fin 4) : Die :=
  let n := bitsOf (e.fld F.VOX_QDROP_COUNT) (8 * src.val) 8
  e.setFld F.VOX_QDROP_COUNT (insBits (e.fld F.VOX_QDROP_COUNT) (8 * src.val) 8 (satAdd 8 n 1))

/-- EVENT_ENQUEUE: the event enters the queue with the frame it is due for, or is dropped (R208, R211, R212, R232). -/
def Die.enqueue (e : Die) (src : Fin 4) (ev : Block) : Die :=
  if evDiscarded ev then e
  else if e.voxState ≠ St.on then e.qdrop src
  else if 512 ≤ e.vox.queue.length then (e.qdrop src).setFld F.VOX_IRQ_QFULL 1
  else
    let next := (e.seq + (if e.eng.window then 2 else 1)) % 2 ^ 32
    let d := (ev.toNat % 2 ^ 16 + 2 ^ 32 - next) % 2 ^ 16
    let timed := natBit ev.toNat 63
    let late := timed && 2 ^ 15 ≤ d
    let due := if timed && !late then (next + d) % 2 ^ 32 else next
    let e := e.updVox fun x => { x with queue := x.queue ++ [⟨ev, src, BitVec.ofNat 32 due⟩] }
    (e.count F.VOX_LATECNT_COUNT (b2n late)).raise F.VOX_IRQ_LATE late

/-- FIRMWARE_EVENT_PUSH: a write of VOX_FWEV_HI pushes LO and HI as one event (R209). -/
def Die.fwPush (e : Die) (hi : Word) : Die := (e.setReg R.VOX_FWEV_HI hi).enqueue 0 (hi ++ e.reg R.VOX_FWEV_LO)

/-- FIRMWARE_EVENT_PUSH (R209). -/
def execFirmwareEventPush (d : DieId) (hi : Word) (s : State) : Out := .next (s.writeIn .eng d R.VOX_FWEV_HI hi (·.fwPush hi))

/-- A note load's payload: accepted while KIND, VER and COUNT are known and the layer is listened to; its events enter in
block order (R210). -/
def Die.noteLoad (e : Die) (payload : List Block) : Die :=
  match payload with
  | [] => e
  | h :: evs =>
    let n := bitsOf h.toNat 32 6
    if bitsOf h.toNat 56 8 = 0x20 ∧ bitsOf h.toNat 48 8 = 1 ∧ 1 ≤ n ∧ n ≤ evs.length
        ∧ e.bitAt F.VOX_CHLISTEN_LAYERS (bitsOf h.toNat 44 4) then
      (evs.take n).foldl (fun e ev => e.enqueue 1 ev) e
    else e

/-- A note load at the crossing from LTX into ENG: while ENG stands still it is held (R26); a die in NOIMAGE or HOLD only
forwards (R420). -/
def Die.noteCross (e : Die) (payload : List Block) : Die :=
  if e.runs .eng then e.noteLoad payload
  else if e.idles || !e.runs .ltx then e
  else { e with chn := { e.chn with waiting := e.chn.waiting ++ [.note payload] } }

/-- NOTE_LOAD (R210). -/
def execNoteLoad (d : DieId) (payload : List Block) (s : State) : Out := .next (s.upd d (·.noteCross payload))

/-! ### Voice configuration (R215) -/

/-- The voice configuration registers. -/
def voiceCfgRegs : List Nat :=
  [R.VOX_MMAP_LO 0, R.VOX_MMAP_HI 0, R.VOX_MMAP_LO 1, R.VOX_MMAP_HI 1, R.VOX_MEN 0, R.VOX_MEN 1]
    ++ (List.range 16).map R.VOX_GCFG

/-- A register of a configuration copy. -/
def cfgReg (c : SMap Word) (a : Nat) : Nat := (SMap.get wordDflt c a).toNat

/-- QUOTA, RESERVE, POLICY, FALLBACK and PREFREL of a group. -/
def cfgQuota (c : SMap Word) (g : Nat) : Nat := bitsOf (cfgReg c (R.VOX_GCFG g)) 0 11
/-- RESERVE. -/
def cfgReserve (c : SMap Word) (g : Nat) : Nat := bitsOf (cfgReg c (R.VOX_GCFG g)) 11 11
/-- POLICY. -/
def cfgPolicy (c : SMap Word) (g : Nat) : Nat := bitsOf (cfgReg c (R.VOX_GCFG g)) 22 2
/-- FALLBACK is oldest. -/
def cfgFallback (c : SMap Word) (g : Nat) : Bool := natBit (cfgReg c (R.VOX_GCFG g)) 24
/-- PREFREL. -/
def cfgPrefRel (c : SMap Word) (g : Nat) : Bool := natBit (cfgReg c (R.VOX_GCFG g)) 25

/-- A back configuration a swap refuses: it over-commits the voices or names POLICY 3 (R215). -/
def Die.cfgRefused (e : Die) : Bool :=
  let c := e.vox.back
  e.voiceCount < (List.range 16).foldl (fun n g => n + cfgQuota c g + cfgReserve c g) 0
    || (List.range 16).any (fun g => cfgPolicy c g == 3)

/-- A swap that includes the VOX scope is due at the coming FT (R217). -/
def Die.voxDue (e : Die) : Bool := natBit (e.unionAt ((e.seq + 1) % 2 ^ 32)).toNat 25

/-- The back copy with the writes of the window, as a read shows it (R30, R215). -/
def Vox.backNow (x : Vox) : SMap Word := x.late.foldl (fun b w => SMap.set wordDflt b w.1 w.2) x.back

/-- A write of a voice configuration register goes to the back copy; one made in a window carries into no exchange at the coming
FT, whatever brings it about, and lands in the copy that is then the back one (R215). -/
def Die.voiceCfgWrite (e : Die) (a : Nat) (v : Word) : Die :=
  match regRow a with
  | none => e
  | some r =>
    let w := BitVec.ofNat 32 (r.fields.foldl (fun n f => n + bitsOf v.toNat f.lo f.w * 2 ^ f.lo) 0)
    if e.eng.window then e.updVox fun x => { x with late := x.late ++ [(a, w)] }
    else e.updVox fun x => { x with back := SMap.set wordDflt x.back a w }

/-- VOX_CONFIG_EXCHANGE, or CFGERR where the back configuration is refused (R215). -/
def Die.voxExchange (e : Die) : Die :=
  if e.cfgRefused then e.setFld F.VOX_IRQ_CFGERR 1
  else e.updVox fun x => { x with front := x.back, back := x.front }

/-- Back-copy writes of the window land after the exchange (R215). -/
def Die.voxLate (e : Die) : Die :=
  e.updVox fun x => { x with
    back := x.backNow
    late := [] }

/-! ### Voices -/

/-- A voice by its number. -/
def Die.voice (e : Die) (v : Nat) : Voice := SMap.get (fun _ => Voice.none) e.vox.voices v

/-- Put a voice. -/
def Die.setVoice (e : Die) (v : Nat) (x : Voice) : Die :=
  e.updVox fun y => { y with voices := SMap.set (fun _ => Voice.none) y.voices v x }

/-- The voice counts against QUOTA: ON, HELD or RELEASE (R214). -/
def Voice.busy (x : Voice) : Bool := x.state == .on || x.state == .held || x.state == .release

/-- Voices of a group that satisfy a condition, in voice order. -/
def Die.voicesOf (e : Die) (g : Nat) (p : Voice → Bool) : List (Nat × Voice) :=
  e.vox.voices.filter fun v => v.2.group.toNat == g && v.2.state != .idle && p v.2

/-- The voice of a list with the lowest start number (R214). -/
def oldestOf : List (Nat × Voice) → Option (Nat × Voice)
  | [] => none
  | v :: vs => match oldestOf vs with
    | none => some v
    | some w => if v.2.start.toNat ≤ w.2.start.toNat then some v else some w

/-- The voice's seat reached END in the present frame (R220). -/
def Die.seatEnded (e : Die) (s : Fin 24) : Bool :=
  match e.seatCourse s with
  | none => false
  | some c => e.wallRuns (wallOf c) && (e.course c).reachedEnd

/-- A row of a seat's level table is read from the Y tile of its course, with the errors it finds (R122, R123, R221). -/
def Die.takeLevel (e : Die) (c : Fin 28) (s j : Nat) : Die :=
  let (r, e) := e.readTile c Tl.y ((e.fld F.VOX_AREA_LVLROW + j) % 512) Req.course []
  e.updVox fun x => { x with levels := SMap.set rowDflt x.levels (64 * s + j) r }

/-- The level table of a voice seat that reached END replaces the levels held of that seat (R220, R221). -/
def Die.takeLevels (e : Die) : Die :=
  e.voiceSeats.foldl (fun e (s : Fin 24) =>
    match e.seatCourse s with
    | some c => if e.seatEnded s then (List.range e.octetsPerSeat).foldl (fun e j => e.takeLevel c s.val j) e else e
    | none => e) e

/-- A voice's level (R220). DESIGN CHOICE: it is zero while its seat has completed no frame (log 246). -/
def Die.level (e : Die) (v : Nat) : Quarter :=
  let (s, j) := e.voicePlace v
  (SMap.get rowDflt e.vox.levels (64 * s.val + j))[v % 8]'(Nat.mod_lt _ (by decide))

/-- The quietest voice of a list: the least level, ties to the lowest voice number (R218). -/
def Die.quietestOf (e : Die) : List (Nat × Voice) → Option (Nat × Voice)
  | [] => none
  | v :: vs => match e.quietestOf vs with
    | none => some v
    | some w => if (e.level v.1).toInt ≤ (e.level w.1).toInt then some v else some w

/-! ### Commands (R221, R222) -/

/-- A command for a voice: CMD, and where the event gives them the CTL, the pitch quarter, VALUE and SEED. -/
structure VCmd where
  cmd : Nat
  ctl : Option Nat
  pitch : Option Quarter
  value : Option (BitVec 16)
  seed : Option Nat
  deriving DecidableEq, Repr

/-- What the resolution of a batch carries: the die, the command of each voice, and the groups whose slots changed. -/
structure VoxRun where
  die : Die
  cmds : List (Nat × VCmd)
  groups : List Nat

/-- A voice has a command in this batch. -/
def VoxRun.has (r : VoxRun) (v : Nat) : Bool := r.cmds.any (·.1 == v)

/-- Give a voice a command and its new state. -/
def VoxRun.give (r : VoxRun) (v : Nat) (x : Voice) (c : VCmd) : VoxRun :=
  { r with die := r.die.setVoice v x, cmds := (r.cmds.filter (fun k => k.1 != v)) ++ [(v, c)] }

/-- A voice enters FADE at the next FT (R216). -/
def VoxRun.fade (r : VoxRun) (v : Nat × Voice) : VoxRun :=
  r.give v.1 { v.2 with state := .fade, fadeFts := r.die.stealFrames + 1 } ⟨3, none, none, none, none⟩

/-- A voice enters RELEASE with a release velocity (R208). -/
def VoxRun.release (r : VoxRun) (v : Nat × Voice) (vel : BitVec 16) : VoxRun :=
  r.give v.1 { v.2 with state := .release, relVel := 0 } ⟨2, none, none, some vel, none⟩

/-- VICTIM_SELECT (R218). -/
def VoxRun.victim (r : VoxRun) (cfg : SMap Word) (g : Nat) (note : BitVec 7) : Option (Nat × Voice) :=
  let c := (r.die.voicesOf g Voice.busy).filter fun v => !r.has v.1
  let rel := c.filter fun v => v.2.state == .release
  let c := if cfgPrefRel cfg g && !rel.isEmpty then rel else c
  let same := c.filter fun v => v.2.note == note
  let p := cfgPolicy cfg g
  if p = 2 ∧ !same.isEmpty then oldestOf same
  else if p = 1 ∨ p = 2 ∧ cfgFallback cfg g then oldestOf c
  else r.die.quietestOf c

/-- How a note-on of a batch is marked (R217). -/
inductive Mark
  | free | steal | drop
  deriving DecidableEq, Repr

/-- The marks of the note-ons of a batch by position: of each group the first `room`, then the next `spare`, ordered by
source and then arrival (R217). -/
def markOns (cfg : SMap Word) (busy fading : Nat → Nat) (batch : List NoteEv) (i : Nat) : Mark :=
  match batch[i]? with
  | none => .drop
  | some q =>
    let g := (evGroup q.ev).toNat
    let before (j : Nat) : Bool := match batch[j]? with
      | none => false
      | some p => evType p.ev == 1 && (evGroup p.ev).toNat == g
          && (p.src.val < q.src.val || (p.src == q.src && j < i))
    let k := ((List.range batch.length).filter before).length
    let room := cfgQuota cfg g - busy g
    if k < room then .free else if k < room + (cfgReserve cfg g - fading g) then .steal else .drop

/-- The lowest-numbered idle voice. -/
def Die.idleVoice (e : Die) : Option Nat :=
  (List.range e.voiceCount).find? fun v => (e.voice v).state == .idle

/-- A note-on is dropped (R217). -/
def VoxRun.dropOn (r : VoxRun) (g : Nat) : VoxRun :=
  { r with die := (r.die.count (F.VOX_GDROP_COUNT g) 1).setFld F.VOX_IRQ_NOTEDROP 1 }

/-- NOTE_ON: the lowest idle voice starts, after a victim enters FADE where the mark says so (R217). -/
def VoxRun.noteOn (r : VoxRun) (cfg : SMap Word) (m : Mark) (ev : Block) : VoxRun :=
  let g := (evGroup ev).toNat
  match r.die.idleVoice with
  | none => r.dropOn g
  | some w =>
    let start (r : VoxRun) : VoxRun :=
      let n := r.die.vox.next
      let r := r.give w ⟨.on, evGroup ev, evNote ev, n, 0, 0⟩
        ⟨1, none, some (BitVec.ofNat 28 ((evNote ev).toNat * 512 + evFrac ev)), some (evValue ev), some (n.toNat % 4096)⟩
      { r with die := r.die.updVox fun x => { x with next := n + 1 } }
    match m with
    | .drop => r.dropOn g
    | .free => start r
    | .steal => match r.victim cfg g (evNote ev) with
      | none => r.dropOn g
      | some v => start (r.fade v)

/-- NOTE_OFF: the oldest ON voice with the note enters RELEASE, or HELD under sustain; with none, the oldest HELD one
enters RELEASE (R208). -/
def VoxRun.noteOff (r : VoxRun) (ev : Block) : VoxRun :=
  let g := (evGroup ev).toNat
  let at_ (s : VState) := oldestOf (r.die.voicesOf g fun v => v.state == s && v.note == evNote ev)
  match at_ .on with
  | some v =>
    if natBit r.die.vox.sustain.toNat g then
      { r with die := r.die.setVoice v.1 { v.2 with state := .held, relVel := evValue ev } }
    else r.release v (evValue ev)
  | none => match at_ .held with
    | some v => r.release v (evValue ev)
    | none => r

/-- The offset of a NOTE_PITCH, as a signed 18-bit value sign-extended to a quarter (R208, R221). -/
def pitchOffset (ev : Block) : Quarter := BitVec.ofInt 28 ((evFrac ev : Nat) + (evValue ev).toInt)

/-- NOTE_CTL and NOTE_PITCH: a command to every voice of the group in ON, HELD or RELEASE with the note (R208). -/
def VoxRun.noteCmd (r : VoxRun) (ev : Block) (c : VCmd) : VoxRun :=
  (r.die.voicesOf (evGroup ev).toNat fun v => v.busy && v.note == evNote ev).foldl (fun r v => r.give v.1 v.2 c) r

/-- GROUP_CTL: a controller slot takes VALUE, or the sustain goes down or up; up releases the HELD voices (R208). -/
def VoxRun.groupCtl (r : VoxRun) (ev : Block) : VoxRun :=
  let g := (evGroup ev).toNat
  let v := evValue ev
  if evCtl ev < 8 then
    { r with
      die := r.die.updVox fun x => { x with slots := SMap.set (fun _ => 0) x.slots (8 * g + evCtl ev) v }
      groups := if r.groups.contains g then r.groups else r.groups ++ [g] }
  else
    let down := decide (0x8000 ≤ v.toNat)
    let r := { r with die := r.die.updVox fun x => { x with sustain := BitVec.ofNat 16 (insBits x.sustain.toNat g 1 (b2n down)) } }
    if down then r
    else (r.die.voicesOf g fun v => v.state == .held).foldl (fun r v => r.release v v.2.relVel) r

/-- One event of the batch (R208, R217). -/
def VoxRun.event (r : VoxRun) (cfg : SMap Word) (m : Mark) (ev : Block) : VoxRun :=
  let g := (evGroup ev).toNat
  match evType ev with
  | 1 => r.noteOn cfg m ev
  | 2 => r.noteOff ev
  | 3 => r.noteCmd ev ⟨4, some (evCtl ev), none, some (evValue ev), none⟩
  | 4 => r.noteCmd ev ⟨5, none, some (pitchOffset ev), some (evValue ev), none⟩
  | 5 => r.groupCtl ev
  | 6 => (r.die.voicesOf g fun v => v.state == .on || v.state == .held).foldl (fun r v => r.release v (evValue ev)) r
  | 7 => (r.die.voicesOf g Voice.busy).foldl (fun r v => r.fade v) r
  | _ => r

/-! ### The batch (R213, R217) -/

/-- An event is due for frame `k` or earlier. -/
def NoteEv.dueBy (q : NoteEv) (k : Nat) : Bool := !seqAfter q.due.toNat k

/-- An event ends the batch behind the events taken before it (R213). -/
def batchEnds (taken : List NoteEv) (q : NoteEv) : Bool :=
  taken.any fun p =>
    evGroup p.ev == evGroup q.ev &&
      ((evOnNote q.ev && evOnNote p.ev && evNote p.ev == evNote q.ev)
        || (evWide q.ev && (evOnNote p.ev || evWide p.ev))
        || (evWide p.ev && (evOnNote q.ev || evWide q.ev)))

/-- The batch for frame `k` out of the queue: the events taken, those left in order, and whether a conflict ended it. -/
def takeBatch (k : Nat) : List NoteEv → List NoteEv → Bool → Bool → List NoteEv × List NoteEv × Bool
  | [], taken, _, cut => (taken, [], cut)
  | q :: qs, taken, done, cut =>
    if done || !q.dueBy k then
      let (t, rest, c) := takeBatch k qs taken done cut
      (t, q :: rest, c)
    else if 64 ≤ taken.length then
      let (t, rest, c) := takeBatch k qs taken true cut
      (t, q :: rest, c)
    else if batchEnds taken q then
      let (t, rest, c) := takeBatch k qs taken true true
      (t, q :: rest, c)
    else takeBatch k qs (taken ++ [q]) done cut

/-- BATCH_CLOSE at cycle N - 512 (R213). -/
def Die.closeBatch (e : Die) : Batch × Die :=
  let k := (e.seq + 1) % 2 ^ 32
  let (taken, rest, cut) := takeBatch k e.vox.queue [] false false
  (⟨BitVec.ofNat 32 k, taken, e.voxDue, cut⟩, e.updVox fun x => { x with queue := rest })

/-- What happens before a batch: voices whose fade ends become IDLE, RELEASE voices of level zero become IDLE, and every
group over quota fades its oldest voices (R216, R217, R220). -/
def VoxRun.prepare (r : VoxRun) (cfg : SMap Word) : VoxRun :=
  let e := r.die.updVox fun x => { x with
    voices := x.voices.filter fun v => !(v.2.state == .fade && v.2.fadeFts ≤ 1) }
  let e := e.updVox fun x => { x with
    voices := x.voices.filter fun v =>
      !(v.2.state == .release && e.level v.1 == 0 && e.seatEnded (e.voicePlace v.1).1) }
  (List.range 16).foldl (fun r g =>
    let excess := (r.die.voicesOf g Voice.busy).length - cfgQuota cfg g
    (List.range excess).foldl (fun r _ => match oldestOf (r.die.voicesOf g Voice.busy) with
      | none => r
      | some v => r.fade v) r) { r with die := e }

/-- BATCH_RESOLVE under a configuration (R217). -/
def VoxRun.resolve (r : VoxRun) (cfg : SMap Word) (batch : List NoteEv) : VoxRun :=
  let r := r.prepare cfg
  let e := r.die
  let mark := markOns cfg (fun g => (e.voicesOf g Voice.busy).length)
    (fun g => (e.voicesOf g fun v => v.state == .fade).length) batch
  (batch.zipIdx).foldl (fun r q => r.event cfg (mark q.2) q.1.ev) r

/-- A command row write through the hod-side port of a voice seat's X tile; an engine store to the same row in the same
cycle wins, and CMDCOLL sets (R222). A course in shadow takes it too, for its tiles become the seat's (R112). -/
def Die.commandRow (e : Die) (s : Fin 24) (row : Nat) (data : Row) : Die :=
  match e.seatCourse s with
  | none => e
  | some c =>
    let row := row % 512
    if (e.course c).stores.any (fun r => match r with | .tile .x k _ => k == row | _ => false) then
      e.setFld F.VOX_IRQ_CMDCOLL 1
    else
      let e := e.updCourse c (·.setTileRow Tl.x row data)
      match e.shadowOf c with
      | some p => e.updCourse p (·.setTileRow Tl.x row data)
      | none => e

/-- The three rows of an octet (R221). Lanes without a command hold CMD 0; what the layout gives them no contents is
free. -/
def Die.octetRows (e : Die) (cmds : List (Nat × VCmd)) (o : Nat) : Row × Row × Row :=
  let at_ (l : Nat) : Option VCmd := (cmds.find? (·.1 == 8 * o + l)).map (·.2)
  let pad (r l : Nat) : Nat := (Config.commandPad e.free (3 * o + r) l).toNat
  let word (l : Nat) : Quarter := match at_ l with
    | none => BitVec.ofNat 28 (pad 0 l % 2 ^ 24)
    | some c => BitVec.ofNat 28 (c.cmd * 2 ^ 24 + (e.voice (8 * o + l)).group.toNat * 2 ^ 20
        + c.ctl.getD (bitsOf (pad 0 l) 12 8) * 2 ^ 12 + c.seed.getD (pad 0 l % 2 ^ 12))
  let pitch (l : Nat) : Quarter := ((at_ l).bind (·.pitch)).getD (BitVec.ofNat 28 (pad 1 l))
  let value (l : Nat) : Quarter := match (at_ l).bind (·.value) with
    | none => BitVec.ofNat 28 (pad 2 l)
    | some v => BitVec.ofNat 28 (v.toNat + pad 2 l / 2 ^ 16 * 2 ^ 16)
  (Vector.ofFn fun (l : Fin 8) => word l.val, Vector.ofFn fun (l : Fin 8) => pitch l.val,
   Vector.ofFn fun (l : Fin 8) => value l.val)

/-- COMMAND_WRITE into one voice seat: row C, the rows of the octets that hold a command, and the rows of the groups whose
slots changed; a seat with commands will be interrupted at FT (R221, R222). -/
def Die.commandSeat (e : Die) (r : VoxRun) (s : Fin 24) : Die :=
  let p := e.octetsPerSeat
  let c := e.fld F.VOX_AREA_CMDROW
  let base := (s.val - 12) * p
  let octs := (List.range p).filter fun j => r.cmds.any (fun k => k.1 / 8 == base + j)
  let mask := octs.foldl (fun m j => m + 2 ^ j) 0
  let k := (e.seq + 1) % 2 ^ 32
  let head : Row := Vector.ofFn fun (l : Fin 8) => match l.val with
    | 0 => BitVec.ofNat 28 mask
    | 1 => BitVec.ofNat 28 (mask / 2 ^ 28)
    | 2 => BitVec.ofNat 28 k
    | n => Config.commandPad e.free (1000 + s.val) n
  let e := e.commandRow s c head
  let e := octs.foldl (fun e j =>
    let (w, q, v) := e.octetRows r.cmds (base + j)
    ((e.commandRow s (c + 17 + 3 * j) w).commandRow s (c + 18 + 3 * j) q).commandRow s (c + 19 + 3 * j) v) e
  let e := r.groups.foldl (fun e g => e.commandRow s (c + 1 + g)
    (Vector.ofFn fun (l : Fin 8) => BitVec.ofNat 28 (SMap.get (fun _ => (0 : BitVec 16)) e.vox.slots (8 * g + l.val)).toNat)) e
  if mask = 0 then e else e.updVox fun x => { x with bells := x.bells ++ [s] }

/-- COMMAND_WRITE into every voice seat (R222). -/
def VoxRun.write (r : VoxRun) : Die :=
  ((r.die.voiceSeats).foldl (fun e s => e.commandSeat r s) r.die).drawn

/-- A batch is resolved and its commands are written; VOX_BATCH describes it (R217, R222, R223). -/
def Die.resolveBatch (e : Die) (b : Batch) : Die :=
  let cfg := if b.swap && !e.cfgRefused then e.vox.back else e.vox.front
  let e := ((⟨e.takeLevels, [], []⟩ : VoxRun).resolve cfg b.events).write
  let left := (e.vox.queue.filter (·.dueBy b.frame.toNat)).length
  e.setRegN R.VOX_BATCH (b.events.length + b2n b.cut * 2 ^ 7 + left * 2 ^ 16)

/-- The die resolves as follow (R223). -/
def Die.voxFollows (e : Die) : Bool := e.role == Role.follow || e.role == Role.join

/-- The allocator's part of EXCHANGE_WINDOW (R213, R223, R232). -/
def Die.voxWindow (e : Die) : Die :=
  let e := e.updVox fun x => { x with bells := [], own := none }
  let st := e.voxState
  if st = St.on then
    let (b, e) := e.closeBatch
    if e.voxFollows then e.updVox fun x => { x with own := some b }
    else (e.updVox fun x => { x with sent := some b }).resolveBatch b
  else if st = St.falling ∧ e.vox.fadeAll then
    let r : VoxRun := ⟨e.updVox fun x => { x with fadeAll := false }, [], []⟩
    (e.vox.voices.foldl (fun r v => r.fade v) r).write
  else if st = St.off then e
  else (⟨e, [], []⟩ : VoxRun).write

/-- FOLLOW_RESOLVE: the lead's batch for the next frame if it has arrived, otherwise the follow's own (R223). -/
def Die.followResolve (e : Die) : Die :=
  match e.vox.own with
  | none => e
  | some own =>
    let got := e.vox.received.filter fun b => b.frame == own.frame
    let e := e.updVox fun x => { x with own := none, received := none }
    match got with
    | some b => e.resolveBatch b
    | none => (e.count F.VOX_PAIROWN_COUNT 1).resolveBatch own

/-- FOLLOW_RESOLVE (R223). -/
def execFollowResolve (d : DieId) (s : State) : Out := .next (s.updIn .eng d (·.followResolve))

/-- LEAD_BATCH_RECEIVE: the batch the partner sent last arrives (R223). -/
def execLeadBatchReceive (d : DieId) (s : State) : Out :=
  .next (if (s.die d).voxFollows then
    s.wall d .batch fun e => e.updVox fun x => { x with received := (s.die d.other).vox.sent } else s)

/-! ### FT and the enable rule (R216, R222, R232) -/

/-- At FT the running steal-fades count down and the voice seats with commands are interrupted (R216, R222). -/
def Die.voxFt (e : Die) : Die :=
  let e := e.vox.bells.foldl (fun e s => match e.seatCourse s with
    | none => e
    | some c => e.pendCourse c 3) e
  e.updVox fun x => { x with
    bells := []
    voices := x.voices.map fun v => (v.1, if v.2.state = .fade then { v.2 with fadeFts := v.2.fadeFts - 1 } else v.2) }

/-- RISING begins: every voice goes IDLE and the queue empties, for 2 frames (R232). -/
def Die.voxRise (e : Die) : Die :=
  (e.setFld F.VOX_CTRL_STATE St.rising).updVox fun x => { x with
    voices := []
    queue := []
    own := none
    framesLeft := 2 }

/-- FALLING begins: for S + 1 frames, with every voice faded in its first window (R232). -/
def Die.voxFall (e : Die) : Die :=
  (e.setFld F.VOX_CTRL_STATE St.falling).updVox fun x => { x with framesLeft := e.stealFrames + 1, fadeAll := true }

/-- The end of a transition of the allocator (R32, R232). -/
def Die.voxEnd (e : Die) : Die :=
  if e.vox.framesLeft ≠ 0 then e
  else if e.voxState = St.rising then
    if e.bit F.VOX_CTRL_EN then e.setFld F.VOX_CTRL_STATE St.on else (e.setFld F.VOX_CTRL_STATE St.on).voxFall
  else if e.voxState = St.falling then
    let e := (e.setFld F.VOX_CTRL_STATE St.off).updVox fun x => { x with voices := [] }
    if e.bit F.VOX_CTRL_EN then e.voxRise else e
  else e

/-- At FT a resting allocator whose EN differs from its state begins its transition (R31, R232). -/
def Die.voxStart (e : Die) : Die :=
  if e.voxState = St.off ∧ e.bit F.VOX_CTRL_EN then e.voxRise
  else if e.voxState = St.on ∧ !e.bit F.VOX_CTRL_EN then e.voxFall
  else e

/-- What VOX registers compute at a read: the queue, the voices and the view of the voice configuration (R215, R233). -/
def Die.voxRead (e : Die) (a : Nat) : Option Nat :=
  if a = R.VOX_STAT then some (e.voiceCount + b2n e.voxFollows * 2 ^ 11)
  else if a = R.VOX_QSTAT then
    some (e.vox.queue.length + (e.vox.queue.filter (fun q => natBit q.ev.toNat 63)).length * 2 ^ 16)
  else if a = R.VOX_STARTS then some (e.vox.next.toNat % 2 ^ 32)
  else if a = R.VOX_IRQ then some (insBits (e.regN a) 6 1 (b2n (!e.vox.fifo.isEmpty)))
  else if a = R.VOX_VSTAT then
    let v := e.voice (e.fld F.VOX_VIDX_VOICE)
    let st := match v.state with
      | .idle => 0
      | .on => 1
      | .held => 2
      | .release => 3
      | .fade => 4
    some (st + v.group.toNat * 2 ^ 3 + v.note.toNat * 2 ^ 7 + min v.fadeFts e.stealFrames * 2 ^ 14)
  else if voiceCfgRegs.contains a then
    some (cfgReg (if e.bit F.VOX_CFGVIEW_FRONT then e.vox.front else e.vox.backNow) a)
  else
    match (List.range 16).find? (fun g => R.VOX_GSTAT g == a) with
    | some g => some ((e.voicesOf g Voice.busy).length + (e.voicesOf g fun v => v.state == .fade).length * 2 ^ 11)
    | none => none

/-- What a voice-engine source presents: voice outputs 0x5000 + v, group sums 0x5400 + k; zero while the allocator is OFF
(R154, R206, R232). DESIGN CHOICE: the group sums count among the voice sources that are zero in OFF (log 248). -/
def Die.voiceSource (e : Die) (id : Nat) : Quarter :=
  if e.voxState = St.off then 0
  else if id < 0x5400 then
    let (s, j) := e.voicePlace (id - 0x5000)
    if id - 0x5000 < e.voiceCount then e.exitSlot s (8 * j + id % 8) else 0
  else e.exitSlot e.gsumSeat (id - 0x5400)

end Sys2Proof.Machine
end

