-- ==== Sys2Proof/Machine/ChainBase.lean ====
section
/-! DEFINITION. Chain ports, header fields, check sums and alarms, which the frame engine, REF and TIM share (R234 to
R246). -/

namespace Sys2Proof.Machine

/-- Change the frame engine. -/
def Die.updChn (e : Die) (f : Chain → Chain) : Die := { e with chn := f e.chn }

/-- The port that is forward in (R235). -/
def Die.fwdIn (e : Die) : PortId :=
  match e.id with
  | .a => .n
  | .b => .s

/-- The port that is forward out (R235). -/
def Die.fwdOut (e : Die) : PortId := e.fwdIn.other

/-- A port. -/
def Die.port (e : Die) (p : PortId) : Port :=
  match p with
  | .n => e.chn.n
  | .s => e.chn.s

/-- Change a port. -/
def Die.updPort (e : Die) (p : PortId) (f : Port → Port) : Die :=
  e.updChn fun c => match p with
    | .n => { c with n := f c.n }
    | .s => { c with s := f c.s }

/-- The _STATE of a port. -/
def Die.portState (e : Die) (p : PortId) : Nat := e.fld (F.CHNX_CTRL_STATE p.idx)

/-- A port runs in Gen-1 mode (R274). -/
def Die.gen1 (e : Die) (p : PortId) : Bool := e.bit (F.CHNX_CTRL_GEN1 p.idx)

/-- `TXDIS` of a port is high: in OFF, and from the request of a freeze on (R237, R238, R448). -/
def Die.txdis (e : Die) (p : PortId) : Bool := e.portState p == St.off || e.frz.txdis

/-- The port transmits containers: in RISING the return stream, in ON what its place in the ring gives it (R238). -/
def Die.sends (e : Die) (p : PortId) : Bool := e.portState p == St.rising || e.portState p == St.on

/-- The port carries the forward stream with its pallets and loads: not in RISING, FALLING or OFF (R238). -/
def Die.carries (e : Die) (p : PortId) : Bool := e.portState p == St.on

/-- Both ports are OFF (R268). -/
def Die.portsOff (e : Die) : Bool := e.portState .n == St.off && e.portState .s == St.off

/-- The die is master of its ring (R269). -/
def Die.isMaster (e : Die) : Bool := e.fld F.CHN_STAT_ELECT == 2

/-- The die is a near, a far wrap point (R270). -/
def Die.wrapNear (e : Die) : Bool := e.bit F.CHN_STAT_WRAPNEAR
/-- See `wrapNear`. -/
def Die.wrapFar (e : Die) : Bool := e.bit F.CHN_STAT_WRAPFAR

/-- The port on which the forward input arrives (R270). -/
def Die.fwdFrom (e : Die) : PortId := if e.wrapFar then e.fwdOut else e.fwdIn

/-- The port through which the forward stream leaves (R270). -/
def Die.fwdTo (e : Die) : PortId := if e.wrapNear then e.fwdIn else e.fwdOut

/-- A header block's field: H`b`, bits from `lo`, `w` of them (R242). -/
def hdrFld (h : Blocks) (b : Fin 15) (lo w : Nat) : Nat := bitsOf h[b].toNat lo w

/-- Set a header field. -/
def hdrSet (h : Blocks) (b : Fin 15) (lo w v : Nat) : Blocks :=
  h.set b.val (BitVec.ofNat 64 (insBits h[b].toNat lo w v)) b.isLt

/-- CRC-32 of a list of blocks, each least significant bit first (R160, R242, R260). -/
def crc32Blocks (bs : List Block) : Nat := 0xFFFFFFFF - bs.foldl (fun c b => crc32Bits 64 c b.toNat) 0xFFFFFFFF

/-- HCRC over H0 to H13. -/
def hdrCrc (h : Blocks) : Nat := crc32Blocks (h.toList.take 14)

/-- The header's HCRC is good. -/
def hdrGood (h : Blocks) : Bool := hdrFld h 14 0 32 == hdrCrc h

/-- The header with HCRC formed anew. -/
def hdrSeal (h : Blocks) : Blocks := hdrSet h 14 0 32 (hdrCrc h)

/-- RATE and FAM of a header agree with the image's (R250). -/
def Die.rateAgrees (e : Die) (h : Blocks) : Bool :=
  hdrFld h 0 53 2 == e.fld F.ENG_RATE_RATE && hdrFld h 0 52 1 == e.fld F.ENG_RATE_FAM

/-- The last good header of the forward input (R250). -/
def Die.fwdHeader (e : Die) : Option Blocks := e.chn.fwdGood

/-- The ring's rate differs from the image's (R250, R317). -/
def Die.rateMis (e : Die) : Bool :=
  match e.fwdHeader with
  | some h => !e.rateAgrees h
  | none => false

/-! ### Blocks (R239, R240) -/

/-- RETURN in a start block's last bytes (R239). -/
def startReturn (b : Byte) : Bool := natBit b.toNat 2

/-- The lowest of the last three bytes of a start block the die sends on a port (R239). -/
def Die.startByte (e : Die) (p : PortId) (ret : Bool) : Byte :=
  BitVec.ofNat 8 (b2n (e.id == .b) + 2 * b2n (e.gen1 p) + 4 * b2n ret)

/-- A block on the line: its sync header and its 64 bits. -/
abbrev WireBlock := BitVec 2 × Block

/-- A start block, whose last three bytes hold `b` lowest (R239). -/
def wireStart (b : Byte) : WireBlock := (2, BitVec.ofNat 64 (0xA44_4C_4F_4B + b.toNat * 2 ^ 40))

/-- A data block (R239). -/
def wireData (b : Block) : WireBlock := (1, b)

/-- An idle block: type 0x1E with all characters idle (R239). -/
def wireIdle : WireBlock := (2, 0x1E)

/-- The error form of the idle block. The code of the character /E/ is clause 49's (PRESUMED, log 217). -/
def wireError : WireBlock := (2, BitVec.ofNat 64 ((List.range 8).foldl (fun n i => n + 0x1E * 2 ^ (8 + 7 * i)) 0x1E))

/-- A tail: seven zero data blocks and a block of type 0x87 (R239). -/
def wireTail (i : Nat) : WireBlock := if i < 7 then (1, 0) else (2, 0x87)

/-- The scrambler's state with one more bit of the line: the last 58, the latest at bit 0 (R236). -/
def scrState (s : BitVec 58) (y : Bool) : BitVec 58 := s <<< 1 ||| (BitVec.ofBool y).zeroExtend 58

/-- What the scrambler x^58 + x^39 + 1 adds to the next bit (R236). -/
def scrTap (s : BitVec 58) : Bool := xor (s.getLsbD 38) (s.getLsbD 57)

/-- Bits through the self-synchronising scrambler of a port, and its state behind them (R236). -/
def scramble (s : BitVec 58) : List Bool → List Bool × BitVec 58
  | [] => ([], s)
  | b :: bs =>
    let y := xor b (scrTap s)
    let (ys, s) := scramble (scrState s y) bs
    (y :: ys, s)

/-- The receiver's side: its state is that of the line bits it has seen (R236). -/
def descramble (s : BitVec 58) : List Bool → List Bool × BitVec 58
  | [] => ([], s)
  | y :: ys =>
    let (bs, s') := descramble (scrState s y) ys
    (xor y (scrTap s) :: bs, s')

/-- A block on the line: its two header bits as they are written, 01 for data, the 0 first (clause 49), then its 64 bits
scrambled, the least significant first (R236, R239). -/
def WireBlock.line (s : BitVec 58) (w : WireBlock) : List Bool × BitVec 58 :=
  let (ys, s) := scramble s ((List.range 64).map fun i => w.2.getLsbD i)
  ([w.1.getLsbD 1, w.1.getLsbD 0] ++ ys, s)

/-- Blocks of a pallet (R240, R274). -/
def Die.palletLen (e : Die) (p : PortId) : Nat := if e.gen1 p then 13 else 15

/-- The alarms this die contributes, by the bits of R242. FILLLOW stands with CHN_x_STAT.FILLLOW of either port, GEN1 with
GEN1 of a port that is not OFF. -/
def Die.alarms (e : Die) : Nat :=
  let g (p : PortId) := e.gen1 p && e.portState p != St.off
  b2n (e.wrapNear || e.wrapFar)
    + 2 * b2n (e.bit (F.CHNX_STAT_FILLLOW 0) || e.bit (F.CHNX_STAT_FILLLOW 1))
    + 4 * b2n (e.chn.electLeft != 0)
    + 8 * b2n e.chn.dupPos
    + 16 * b2n e.chn.plate
    + 32 * b2n (g .n || g .s)
    + 64 * b2n e.wrapFar

/-- Pallets per container (R240, R274). -/
def Die.palletCount (e : Die) (p : PortId) : Nat := (if e.gen1 p then 96 else 384) / (20480 / e.cyc)

/-- Control blocks per container (R240, R274). -/
def Die.controlBlocks (e : Die) (p : PortId) : Nat := (if e.gen1 p then 1440 else 1920) / (20480 / e.cyc)

/-- The block of its container at which a pallet begins on a port (R240). -/
def Die.palletBlock (e : Die) (p : PortId) (i : Nat) : Nat := 16 + e.palletLen p * i

/-- Blocks of a container up to the end of its tail (R240, R274). -/
def Die.fixedBlocks (e : Die) (p : PortId) : Nat := e.palletBlock p (e.palletCount p) + e.controlBlocks p + 8

/-- LTX cycles from the launch of a container to a pallet's first block: a Gen-1 block takes 2.5 (R248, R274). -/
def Die.palletCycle (e : Die) (p : PortId) (i : Nat) : Nat :=
  if e.gen1 p then e.palletBlock p i * 5 / 2 else e.palletBlock p i

/-- The stream on a port is the die's forward stream, with its pallets: not a return stream, nor one that it repeats on
reverse out (R243, R270). -/
def Die.sendsForward (e : Die) (p : PortId) : Bool :=
  (p == e.fwdTo || (p == e.fwdOut && e.chn.healing)) && !startReturn (e.port p).startOut

/-- The pallet the die itself puts at an index of its forward stream. -/
def Chain.palletAt (c : Chain) (k : Nat) : Option Blocks := (c.pallets.find? fun q => q.1 == k).map (·.2)

/-- Block `i` of the container a port sends, as far as the die itself forms it: not a pallet that passes as it came, nor a
block of the control region, which CONTROL_BLOCK_SEND gives. A port that sends no container, as in FALLING, sends idle blocks;
a forwarded block with an invalid sync header leaves as the error idle block, unless a pallet of the die's own stands there
(R238 to R243, R252, R270). -/
def Die.wireBlock (e : Die) (p : PortId) (i : Nat) : Option WireBlock :=
  let x := e.port p
  match if e.sends p then x.out else none with
  | none => some wireIdle
  | some h =>
    let own := e.sendsForward p
    let ctl := e.palletBlock p (e.palletCount p)
    let tail := ctl + e.controlBlocks p
    let k := (i - 16) / e.palletLen p
    match if own && decide (16 ≤ i) && decide (i < ctl) then e.chn.palletAt k else none with
    | some b => some (wireData (b.toArray.getD ((i - 16) % e.palletLen p) 0))
    | none =>
      if i = 0 then some (wireStart x.startOut)
      else if own && e.chn.errors.contains (BitVec.ofNat 13 i) then some wireError
      else if i < 16 then some (wireData (h.toArray.getD (i - 1) 0))
      else if tail + 8 ≤ i then some wireIdle
      else if tail ≤ i then some (wireTail (i - tail))
      else if startReturn x.startOut then some wireIdle
      else none

end Sys2Proof.Machine
end

