-- ==== Sys2Proof/Machine/Ref.lean ====
section
/-! DEFINITION. The reference unit: monitors, qualification, selection, switching and alignment (R313 to R331). -/

namespace Sys2Proof.Machine

/-- Change the reference unit. -/
def Die.updRef (e : Die) (f : Ref → Ref) : Die := { e with ref := f e.ref }

/-- The states of R320. -/
def RefSt.free : Nat := 0
def RefSt.acq : Nat := 1
def RefSt.lock : Nat := 2
def RefSt.hold : Nat := 3
def RefSt.lost : Nat := 4

/-- REF_STAT.STATE. -/
def Die.refState (e : Die) : Nat := e.fld F.REF_STAT_STATE

/-- REF enters a state: a change sets REF_IRQ.STATE and writes a record; HOLD and LOST keep HOLDTIME from entry into HOLD
(R320). -/
def Die.refGo (e : Die) (st : Nat) : Die :=
  let old := e.refState
  if old = st then e
  else
    let e := (e.setFld F.REF_STAT_STATE st).setFld F.REF_IRQ_STATE 1
    let e := if st = RefSt.hold then (e.setRegN R.REF_HOLDTIME 0).updRef fun r => { r with holdNs := 0 } else e
    let e := if st = RefSt.lock then e.updRef fun r => { r with reached := true } else e
    e.logEv 1 1 old st (e.fld F.REF_STAT_SEL)

/-- The rank of an input as selection sees it: REF_RANK, and 7 for a ring that the die is master of (R314, R315). -/
def Die.rank (e : Die) (i : Nat) : Nat :=
  if e.isMaster && (i == 3 || (i == 4 && e.id == .a)) then 7 else bitsOf (e.regN R.REF_RANK) (3 * i) 3

/-- The input is qualified. -/
def Die.qual (e : Die) (i : Nat) : Bool := i < 5 && e.bit (F.REF_IN_QUAL i)

/-- The input may be selected: qualified, with a rank below 7. -/
def Die.selectable (e : Die) (i : Nat) : Bool := e.qual i && e.rank i < 7

/-- The best input: the lowest rank; among equal ranks the selected one, then the lower number (R314, R325). -/
def Die.bestInput (e : Die) : Option Nat :=
  let sel := e.fld F.REF_STAT_SEL
  if e.bit F.REF_CTRL_FORCE && e.selectable (e.fld F.REF_CTRL_FSEL) then some (e.fld F.REF_CTRL_FSEL)
  else ((List.range 5).filter e.selectable).foldl (fun b i => match b with
    | none => some i
    | some j => if e.rank i < e.rank j ∨ (e.rank i = e.rank j ∧ i = sel) then some i else some j) none

/-- The ENG frequency against nominal in 0.0001 ppm (R344). -/
def Die.fofs (e : Die) : Int := (e.reg R.REF_FOFS).toInt

/-- Set REF_FOFS. -/
def Die.setFofs (e : Die) (f : Int) : Die := e.setReg R.REF_FOFS (BitVec.ofInt 32 f)

/-- The offset of the frequency for an alignment becomes `f` (R330). -/
def Die.alignShift (e : Die) (f : Int) : Die :=
  (e.setFofs (e.fofs - e.ref.alignOff + f)).updRef fun r => { r with alignOff := f }

/-- A WCK alignment ends: its frequency offset is gone, and REF_IRQ.ALIGN sets (R330). -/
def Die.alignEnd (e : Die) : Die :=
  if e.bit F.REF_STAT_ALIGNING then ((e.alignShift 0).setFld F.REF_STAT_ALIGNING 0).setFld F.REF_IRQ_ALIGN 1 else e

/-- REF_SWITCH: the switch starts, on holdover at the present frequency; a running alignment ends (R322, R330). -/
def Die.refSwitch (e : Die) (i : Nat) : Die :=
  let free := e.refState == RefSt.free
  let e := ((e.setFld F.REF_STAT_SEL i).refGo RefSt.acq).updRef fun r => { r with
    slewing := false
    fromFree := free }
  (((e.setFld F.REF_STAT_SWITCHING 1).setFld F.REF_IRQ_SWITCH 1).setRegN R.REF_SWCNT (satAdd 32 (e.regN R.REF_SWCNT) 1)).alignEnd

/-- The die begins to follow input 5: nothing of the input it followed before is left, no switch, no slew, no alignment and no
frequency averaged (R321, R326, R330). -/
def Die.refFollow (e : Die) : Die :=
  let e := ((e.setFld F.REF_STAT_SEL 5).setFld F.REF_STAT_SWITCHING 0).updRef fun r => { r with
    slewing := false
    trail := []
    held := none }
  e.alignEnd.refGo RefSt.lock

/-- The loop follows its input: a switch has ended, and nothing holds over (R320, R322). -/
def Die.loopFollows (e : Die) : Bool :=
  (e.refState == RefSt.acq || e.refState == RefSt.lock) && !e.bit F.REF_STAT_SWITCHING

/-- The newest part of a trail, of `n` ns in all. -/
def trailTrim (n : Nat) : List (Nat × Int) → List (Nat × Int)
  | [] => []
  | (d, f) :: t => if n ≤ d then (if n = 0 then [] else [(n, f)]) else (d, f) :: trailTrim (n - d) t

/-- A trail with `d` ns more at a frequency, of 1 s at most. -/
def trailPush (t : List (Nat × Int)) (d : Nat) (f : Int) : List (Nat × Int) :=
  trailTrim 1000000000 (match t with
    | [] => [(d, f)]
    | (n, g) :: t => if f = g then (n + d, g) :: t else (d, f) :: (n, g) :: t)

/-- The mean of a trail; none of an empty one (R321). -/
def trailMean (t : List (Nat × Int)) : Option Int :=
  let n : Nat := t.foldl (fun (n : Nat) x => n + x.1) 0
  if n = 0 then none else some (t.foldl (fun s x => s + (x.1 : Int) * x.2) (0 : Int) / (n : Int))

/-- An event is passed to the loop: the mean of its frequency up to now would be the held frequency (R321). -/
def Die.loopEvent (e : Die) : Die :=
  if e.loopFollows then e.updRef fun r => { r with held := trailMean r.trail } else e

/-- The ENG PLL goes to the held frequency; a loop that has followed for no time keeps the frequency it has (R321). -/
def Die.holdFreq (e : Die) : Die :=
  match e.ref.held with
  | some f => e.setFofs f
  | none => e

/-- REF_HOLD: no input is left; the PLL runs at the held frequency, or at nominal in FREE (R320, R321). -/
def Die.refHold (e : Die) : Die :=
  let e := (e.updRef fun r => { r with slewing := false }).alignShift 0
  if e.ref.reached then (e.refGo RefSt.hold).holdFreq
  else (e.refGo RefSt.free).setReg R.REF_FOFS 0

/-- The die follows input 5 and selects nothing (R326). -/
def Die.refFollows (e : Die) : Bool := e.role == Role.follow || e.role == Role.join

/-- REF evaluates its selection (R314, R320, R324, R326). -/
def Die.refSelect (e : Die) : Die :=
  if e.refFollows || e.bit F.REF_STAT_SWITCHING then e
  else
    let st := e.refState
    let sel := e.fld F.REF_STAT_SEL
    match e.bestInput with
    | none => if (st = RefSt.acq ∨ st = RefSt.lock) ∧ !e.selectable sel then e.refHold else e
    | some i =>
      if st = RefSt.acq ∨ st = RefSt.lock then
        if i = sel then e
        else if !e.selectable sel then e.refSwitch i
        else if e.bit F.REF_CTRL_FORCE ∧ i = e.fld F.REF_CTRL_FSEL then e.refSwitch i
        else if e.bit F.REF_CTRL_REVERT ∧ e.rank i < e.rank sel then e.refSwitch i
        else e
      else e.refSwitch i

/-- INPUT_DISQUALIFY: the acceptance starts again, and REF selects anew (R317). -/
def Die.refDisqualify (e : Die) (i cause : Nat) : Die :=
  let e := e.updRef fun r => { r with gates := r.gates.setIfInBounds i 0 }
  if e.qual i then
    (((e.setFld (F.REF_IN_QUAL i) 0).setFld (F.REF_IN_CAUSE i) cause).setFld F.REF_IRQ_QUAL 1).refSelect
  else e

/-- Input 3 cannot qualify: its ring is DETACHED or runs at another rate (R317); the cause it shows, 0 for none. -/
def Die.ringBar (e : Die) (i : Nat) : Nat :=
  if i ≠ 3 then 0
  else if e.fld F.CHN_STAT_JOIN = 0 then 1
  else if e.rateMis then 2
  else 0

/-- An input's frequency against the monitor clock in 0.01 ppm (R344). -/
def Die.inOffs (e : Die) (i : Nat) : Int := (BitVec.ofNat 16 (e.fld (F.REF_IN_OFFS i))).toInt

/-- DISPUTE between two equal ranks, until the difference has stayed at or below 20 ppm for 2 s (R325). -/
def Die.dispute (e : Die) : Die :=
  let best := ((List.range 5).filter e.selectable).foldl (fun b i => min b (e.rank i)) 7
  let same := (List.range 5).filter fun i => e.selectable i && e.rank i == best
  let pairs := same.flatMap fun i => (same.filter (i < ·)).map fun j => (i, j)
  let gap (e : Die) (p : Nat × Nat) : Nat := (e.inOffs p.1 - e.inOffs p.2).natAbs
  let e := pairs.foldl (fun e p =>
    if 5000 < gap e p ∧ e.qual p.1 ∧ e.qual p.2 then
      let e := if 5000 < (e.inOffs p.1).natAbs then e.refDisqualify p.1 2 else e
      if 5000 < (e.inOffs p.2).natAbs then e.refDisqualify p.2 2 else e
    else e) e
  if pairs.any (fun p => e.qual p.1 && e.qual p.2 && 2000 < gap e p) then
    let e := e.updRef fun r => { r with calmNs := 0 }
    if e.bit F.REF_STAT_DISPUTE then e else (e.setFld F.REF_STAT_DISPUTE 1).setFld F.REF_IRQ_DISPUTE 1
  else if 2000000000 ≤ e.ref.calmNs then e.setFld F.REF_STAT_DISPUTE 0
  else e

/-- The frequency of an input in the steps of REF_FOFS. -/
def Die.inFreq (e : Die) (i : Nat) : Int := 100 * e.inOffs i

/-- A loop that has reached its input's frequency follows it, as the gates measure it (DESIGN CHOICE, log 218; R313, R322). -/
def Die.loopGate (e : Die) (i : Nat) : Die :=
  if e.loopFollows && !e.ref.slewing && e.fld F.REF_STAT_SEL == i then e.setFofs (e.inFreq i + e.ref.alignOff) else e

/-- FREQUENCY_GATE: a gate's measurement; 2 s of gates within ±50 ppm qualify an input, and one beyond ±100 ppm
disqualifies it (R317, R319). -/
def Die.frequencyGate (e : Die) (i : Fin 5) (offs : BitVec 16) (nearOther : Bool) : Die :=
  let e := (e.setFld (F.REF_IN_OFFS i) offs.toNat).loopGate i
  let a := offs.toInt.natAbs
  let e := e.setBit (F.REF_IN_RATEMIS i) (nearOther && 10000 < a)
  let bar := e.ringBar i
  let e :=
    if bar ≠ 0 then e.refDisqualify i bar
    else if 10000 < a then e.refDisqualify i 2
    else if 5000 < a then (if e.qual i then e else e.updRef fun r => { r with gates := r.gates.set i.val 0 i.isLt })
    else
      let e := e.updRef fun r => { r with gates := vupd r.gates i (· + 1) }
      if !e.qual i && (if i.val = 2 then 2 else 20) ≤ e.ref.gates[i] then
        ((e.setFld (F.REF_IN_QUAL i) 1).setFld F.REF_IRQ_QUAL 1).refSelect
      else e
  e.dispute

/-- FREQUENCY_GATE (R317). -/
def execFrequencyGate (d : DieId) (i : Fin 5) (offs : BitVec 16) (nearOther : Bool) (s : State) : Out :=
  .next (s.updIn .keep d (·.frequencyGate i offs nearOther))

/-- INPUT_STOPPED: no event for 4 expected periods (R317). -/
def execInputStopped (d : DieId) (i : Fin 5) (s : State) : Out :=
  .next (s.updIn .keep d fun e => ((e.setFld (F.REF_IN_ACT i) 0).updRef fun r => { r with
    last := r.last.set i.val none i.isLt }).refDisqualify i 1)

/-- Glitches of an input within the last second (R317, R344). -/
def Die.recentGlitches (e : Die) (i : Fin 5) : List Word :=
  e.ref.glitches[i].filter fun t => (e.tim.tick - t).toNat < 1000000000

/-- Events per second that an input is expected to bring (R313). -/
def Die.inputHz (e : Die) (i : Nat) : Nat :=
  match i with
  | 1 => 10000000
  | 2 => 1
  | _ => e.rateHz

/-- The instant of an event as the loop takes it, in units of 40 ps: that of the own ring less DELAY, CABLE and 32 × HOPS of the
start block that brought it, that of the partner ring less its fixed offset (R313). -/
def Die.eventInstant (e : Die) (i : Nat) (at_ offset : BitVec 48) : BitVec 48 :=
  match i, e.chn.fwdGood with
  | 3, some h =>
    at_ - BitVec.ofNat 48 (hdrFld h 3 0 48 + e.fld (F.CHNX_CABLE_DELAY e.fwdFrom.idx) + 32 * hdrFld h 4 17 9)
  | 4, _ => at_ - offset
  | _, _ => at_

/-- An interval of `n` units of 40 ps lies outside ±5 % of the period of `hz` (R317). -/
def glitchIv (hz n : Nat) : Bool := n * hz * 100 < 95 * 25000000000 || 105 * 25000000000 < n * hz * 100

/-- It ends more than 1 µs from every time at which the period lets an event be expected, one period or more after the last
(R317). -/
def displacedIv (hz n : Nat) : Bool :=
  let r := n * hz % 25000000000
  n * hz + 25000 * hz < 25000000000 || 25000 * hz < min r (25000000000 - r)

/-- An event on one of the five inputs. One that ends a glitched interval is not passed to the loop, and the third within a
second disqualifies; so does a displaced event of a ring, at once: one more than 1 µs off the times that follow from the last event,
or off the time the loop's own phase expects, as the operand says (R317, R318). -/
def Die.inputEvent (e : Die) (i : Fin 5) (at_ offset : BitVec 48) (displaced : Bool) : Die :=
  let now := e.eventInstant i at_ offset
  let before := e.ref.last[i]
  let e := (e.setFld (F.REF_IN_ACT i) 1).updRef fun r => { r with last := r.last.set i.val (some now) i.isLt }
  let n := match before with
    | some t => (now - t).toNat
    | none => 0
  let glitch := before.isSome && glitchIv (e.inputHz i) n
  let e := if glitch then
      let g := e.tim.tick :: e.recentGlitches i
      e.updRef fun r => { r with glitches := r.glitches.set i.val g i.isLt }
    else e
  if (i == 3 || i == 4) && (displaced || (before.isSome && displacedIv (e.inputHz i) n)) then e.refDisqualify i 3
  else if glitch then (if 3 ≤ (e.recentGlitches i).length then e.refDisqualify i 3 else e)
  else if e.fld F.REF_STAT_SEL == i.val then e.loopEvent
  else e

/-- The phase error of input 5: the lead's FT, from FTSTAMP of the last heartbeat, less the die's own FT of that frame, in units
of 40 ps; none without a stamp of its own (R284, R291, R313). -/
def Die.pairPhase (e : Die) : Option Int :=
  match e.pair.beat with
  | none => none
  | some (j, st) => (e.pair.fts.find? fun x => x.1 == (j.toNat + 1) % 2 ^ 32).map fun x => (st - x.2).toInt

/-- An event on input 5, the lead's FT as a heartbeat's FTSTAMP gives it: a die in JOIN or FOLLOW tracks it in frequency and
phase, with a bandwidth of 20 Hz and no slew limit (R313, R326). The loop's law is open (log 253). -/
def Die.pairEvent (e : Die) : Die :=
  if e.refFollows && e.pair.beat.isSome then
    let e := (e.setFld F.REF_STAT_SEL 5).refGo RefSt.lock
    (match e.pairPhase with
      | some err => e.setFofs (e.fofs + Config.loopStep 20000 err)
      | none => e).loopEvent
  else e

/-- REF_INPUT_EVENT at an instant in units of 40 ps (R313). -/
def execRefInputEvent (d : DieId) (i : RefInput) (at_ offset : BitVec 48) (displaced : Bool) (s : State) : Out :=
  .next (s.updIn .keep d fun e =>
    if h : i.val < 5 then e.inputEvent ⟨i.val, h⟩ at_ offset displaced else e.pairEvent)

/-- RANK_WRITE: REF evaluates its selection at the next KEEP edge (R314). -/
def Die.rankWrite (e : Die) (v : Word) : Die := (e.setFld F.REF_RANK_RANK v.toNat).refSelect

/-- RANK_WRITE (R314). -/
def execRankWrite (d : DieId) (v : Word) (s : State) : Out := .next (s.updIn .keep d (·.rankWrite v))

/-- ABSORPTION_END: the averaged phase becomes the build-out, the loop follows the new input, and its frequency begins to move
toward it; REF may select again (R322, R324). -/
def Die.absorptionEnd (e : Die) (phase : Word) : Die :=
  if e.bit F.REF_STAT_SWITCHING then
    (((e.setReg R.REF_PHASE phase).setFld F.REF_STAT_SWITCHING 0).updRef fun r => { r with
      slewing := true
      slewAcc := 0
      phaseAcc := 0
      trail := []
      held := none }).refSelect
  else e

/-- ABSORPTION_END (R322). -/
def execAbsorptionEnd (d : DieId) (phase : Word) (s : State) : Out := .next (s.updIn .keep d (·.absorptionEnd phase))

/-- FASTACQ counts: the switch began in FREE, and the die is not LEAD with a partner in FOLLOW or JOIN (R323). -/
def Die.fastAcq (e : Die) : Bool :=
  e.ref.fromFree && e.bit F.REF_CTRL_FASTACQ
    && !(e.isLead && (e.fld F.PAIR_STAT_PARTNER == Role.follow || e.fld F.PAIR_STAT_PARTNER == Role.join))

/-- Steps of REF_FOFS that the slew makes in a second: 0.1 ppm/s, or 100 ppm/s (R322, R323). -/
def Die.slewRate (e : Die) : Nat := if e.fastAcq then 1000000 else 1000

/-- Phase gathers between output and input, in 10^-10 ns: the build-out moves, in steps of 10 ps. -/
def Die.phaseAdd (e : Die) (x : Int) : Die :=
  let ph := e.ref.phaseAcc + x
  (e.setReg R.REF_PHASE (e.reg R.REF_PHASE + BitVec.ofInt 32 (ph / 100000000))).updRef fun r => { r with
    phaseAcc := ph % 100000000 }

/-- The slew over `t` ns: the frequency moves toward the input's at the limit, and the phase that gathers between output and
input is added to the build-out (R322). -/
def Die.slewTick (e : Die) (t : Nat) : Die :=
  let acc := e.ref.slewAcc + t * e.slewRate
  let n : Int := acc / 1000000000
  let aim := e.inFreq (e.fld F.REF_STAT_SEL)
  let now := e.fofs - e.ref.alignOff
  let f := now + clampI (-n) n (aim - now)
  ((e.setFofs (f + e.ref.alignOff)).phaseAdd ((f - aim) * t)).updRef fun r => { r with slewAcc := acc % 1000000000 }

/-- A WCK alignment over `t` ns: with the frequency 1 ppm off, the build-out moves toward REF_ALIGNOFS by 1 µs/s, and stands once
it is there (R330). DESIGN CHOICE: it moves at the limit (log 254). -/
def Die.alignTick (e : Die) (t : Nat) : Die :=
  let gap := (e.reg R.REF_ALIGNOFS - e.reg R.REF_PHASE).toInt
  let f : Int := if gap = 0 then 0 else if 0 < gap then 10000 else -10000
  let e := e.alignShift f
  if gap.natAbs * 100000000 ≤ (e.ref.phaseAcc + f * t).natAbs then
    ((e.setReg R.REF_PHASE (e.reg R.REF_ALIGNOFS)).updRef fun r => { r with phaseAcc := 0 }).alignShift 0
  else e.phaseAdd (f * t)

/-- A KEEP period of the loop: the slew, an alignment, the trail of its frequency, and what ages (R317, R321, R322, R325, R330). -/
def Die.loopTick (e : Die) (t : Nat) : Die :=
  let e := e.updRef fun r => { r with
    glitches := r.glitches.map fun g => g.filter fun x => (e.tim.tick - x).toNat < 1000000000
    calmNs := min 2000000000 (r.calmNs + t) }
  if !e.loopFollows then e
  else
    let e := if e.ref.slewing then e.slewTick t else e
    let e := if e.bit F.REF_STAT_ALIGNING then e.alignTick t else e
    e.updRef fun r => { r with trail := trailPush r.trail t e.fofs }

/-- SLEW_COMPLETE: the frequency has reached the new input's, as the gates measure it in 0.01 ppm. The loop holds phase with the
build-out then in force, and nothing steps (R322). -/
def Die.slewComplete (e : Die) : Die :=
  if e.ref.slewing && e.fofs - e.ref.alignOff == e.inFreq (e.fld F.REF_STAT_SEL) then e.updRef fun r => { r with slewing := false }
  else e

/-- SLEW_COMPLETE. Its operands, the input's frequency below the resolution of the gates and the phase as the loop then measures
them, move nothing (R322). -/
def execSlewComplete (d : DieId) (_fine : BitVec 7) (_phase : Word) (s : State) : Out := .next (s.updIn .keep d (·.slewComplete))

/-- The loop can lock: absorption is complete, and the frequency is within 0.01 ppm of the input's (R320). -/
def Die.mayLock (e : Die) : Bool :=
  e.refState == RefSt.acq && !e.bit F.REF_STAT_SWITCHING
    && decide ((e.fofs - e.ref.alignOff - e.inFreq (e.fld F.REF_STAT_SEL)).natAbs ≤ 100)

/-- REF_LOCK: the lock criteria have held for 1 s, the phase error of 10 ns among them (R320). -/
def execRefLock (d : DieId) (s : State) : Out := .next (s.updIn .keep d fun e => if e.mayLock then e.refGo RefSt.lock else e)

/-- HOLD_LIMIT: HOLDTIME exceeds HOLDLIM (R320). -/
def execHoldLimit (d : DieId) (s : State) : Out :=
  .next (s.updIn .keep d fun e =>
    if e.refState = RefSt.hold ∧ e.regN R.REF_HOLDLIM < e.regN R.REF_HOLDTIME then e.refGo RefSt.lost else e)

/-- PAIR_INPUT_LOSS: input 5 is missing for 4 frames, and STATE reads HOLD (R326). -/
def execPairInputLoss (d : DieId) (s : State) : Out :=
  .next (s.updIn .keep d fun e => if e.refFollows then (e.refGo RefSt.hold).holdFreq else e)

/-- REF_TAKEOVER_SWITCH: a die that takes lead switches from input 5 to its best input, or enters HOLD, at the frequency it has
at that moment (R328). -/
def Die.refTakeover (e : Die) : Die :=
  match e.bestInput with
  | some i => e.refSwitch i
  | none => e.refGo RefSt.hold

/-- WCK_ALIGN: ignored in FREE, HOLD or LOST, and in JOIN or FOLLOW (R330). -/
def Die.wckAlign (e : Die) : Die :=
  let st := e.refState
  if st = RefSt.free ∨ st = RefSt.hold ∨ st = RefSt.lost ∨ e.refFollows then e else e.setFld F.REF_STAT_ALIGNING 1

/-- WCK_ALIGN (R330). -/
def execWckAlign (d : DieId) (s : State) : Out := .next (s.updIn .keep d (·.wckAlign))

/-- PPS_ALIGN: the next PPS_OUT pulse is placed on the next second of TIME (R330). -/
def Die.ppsPlace (e : Die) : Die := { e with tim := { e.tim with ppsAlign := true } }

/-- PPS_ALIGN (R330). -/
def execPpsAlign (d : DieId) (s : State) : Out := .next (s.updIn .keep d (·.ppsPlace))

/-- ALIGN_ABORT: a running alignment stops where it stands (R330, R344). -/
def Die.alignAbort (e : Die) : Die := e.alignEnd

/-- ALIGN_ABORT (R330). -/
def execAlignAbort (d : DieId) (s : State) : Out := .next (s.updIn .keep d (·.alignAbort))

/-- ALIGN_DONE: the alignment ends, once the build-out has reached the target (R330). -/
def execAlignDone (d : DieId) (s : State) : Out :=
  .next (s.updIn .keep d fun e => if e.reg R.REF_PHASE = e.reg R.REF_ALIGNOFS then e.alignEnd else e)

/-- A write of REF_ALIGN (R330, R344). -/
def Die.refAlign (e : Die) (v : Word) : Die :=
  let e := if natBit v.toNat 0 then e.wckAlign else e
  let e := if natBit v.toNat 1 then e.ppsPlace else e
  if natBit v.toNat 2 then e.alignAbort else e

/-- `SIDE_WCK` is qualified or not; each change sets REF_IRQ.SIDE (R331). -/
def Die.sideQual (e : Die) (q : Bool) : Die :=
  let e := if e.bit F.REF_SIDE_QUAL = q then e else e.setFld F.REF_IRQ_SIDE 1
  e.setBit F.REF_SIDE_QUAL q

/-- SIDE_WCK_QUALIFY: after 64 good periods, with the measured frequency in mHz; none outside 32 to 192 kHz qualifies (R331). -/
def execSideWckQualify (d : DieId) (freq : Word) (s : State) : Out :=
  .next (s.updIn .keep d fun e =>
    if 32000000 ≤ freq.toNat ∧ freq.toNat ≤ 192000000 then (e.setReg R.REF_SIDEFREQ freq).sideQual true else e)

/-- SIDE_WCK_LOSS: the SIDE PLL runs on at the last qualified frequency (R331). -/
def execSideWckLoss (d : DieId) (s : State) : Out := .next (s.updIn .keep d (·.sideQual false))

/-- What REF registers compute at a read: MONSRC and HOXF, HOLD of REF_SIDE, and the glitches of the last second (R316, R331,
R344). -/
def Die.refRead (e : Die) (a : Nat) : Option Nat :=
  if a = R.REF_STAT then some (insBits (insBits (e.regN a) 9 1 (b2n (e.clk.fallen || Config.strapKeepsrc e.id))) 10 1 (b2n (!Config.hoxAtTen e.id)))
  else if a = R.REF_SIDE then
    some (insBits (e.regN a) 2 1 (b2n (!e.bit F.REF_SIDE_SRC && !e.bit F.REF_SIDE_QUAL)))
  else match (List.finRange 5).find? (fun (i : Fin 5) => R.REF_IN i == a) with
    | some i => some (insBits (e.regN a) 21 3 (min (e.recentGlitches i).length 7))
    | none => none

end Sys2Proof.Machine
end

