-- ==== Sys2Proof/Machine/Tim.lean ====
section
/-! DEFINITION. The time unit: TIME and TICK_NS, chain time, time of day, stamps and pulse outputs (R329, R332 to R345), and
the advance of a KEEP edge. -/

namespace Sys2Proof.Machine

/-- Change the time unit. -/
def Die.updTim (e : Die) (f : Tim → Tim) : Die := { e with tim := f e.tim }

/-- The nominal period of KEEP in ns (R500). -/
def Die.keepNs (e : Die) : Nat := if e.clk.keep10 then 100 else 50

/-- TIME moved on by a number of nanoseconds. -/
def addNs (sec : BitVec 48) (ns : Word) (k : Nat) : BitVec 48 × Word :=
  let n := ns.toNat + k
  (sec + BitVec.ofNat 48 (n / 1000000000), BitVec.ofNat 32 (n % 1000000000))

/-- The CTL copies of TIME and TICK_NS, which run on from the last KEEP edge (R332). -/
def Die.ctlTime (e : Die) : BitVec 48 × Word × Word :=
  let k := Config.ctlCycles e.free * 5 / 2 % e.keepNs
  let t := addNs e.tim.sec e.tim.ns k
  (t.1, t.2, e.tim.tick + BitVec.ofNat 32 k)

/-- The source of time in use: 0 FREE, 1 PPS, 2 CHAIN (R334). -/
def Die.timUsed (e : Die) : Nat :=
  if e.bit F.TIM_CTRL_AUTO then
    if e.isMaster then (if e.qual 2 && e.tim.tod.accepted then 1 else 0) else 2
  else if e.fld F.TIM_CTRL_SRC = 3 then 0 else e.fld F.TIM_CTRL_SRC

/-- TIME in units of 40 ps since the epoch. -/
def Tim.own (t : Tim) : Nat := (t.sec.toNat * 1000000000 + t.ns.toNat) * 25

/-- The differences an average takes: of 64 containers, or of 4 PPS edges (R336). -/
def diffCount (src : Nat) : Nat := if src = 2 then 64 else 4

/-- A time of a source, in units of 40 ps, beside TIME at the same instant (R336). -/
def Tim.sample (t : Tim) (src there : Nat) : Tim :=
  let d : Int := (there : Int) - t.own
  { t with
    diffs := (d :: (if t.diffSrc = src then t.diffs else [])).take (diffCount src)
    diffSrc := src }

/-- The master's time at the arrival of a good start block on a port, in units of 40 ps (R335). -/
def Die.chainTime (e : Die) (p : PortId) (h : Blocks) : Nat :=
  (hdrFld h 1 0 48 * 1000000000 + hdrFld h 2 0 32) * 25
    + hdrFld h 3 0 48 + e.fld (F.CHNX_CABLE_DELAY p.idx) + 32 * hdrFld h 4 17 9

/-- A good start block on the forward input of a die under CHAIN (R335, R336). -/
def Die.chainSample (e : Die) (p : PortId) (h : Blocks) : Die :=
  if e.timUsed = 2 then e.updTim (·.sample 2 (e.chainTime p h)) else e

/-- TIME_OFFSET_UPDATE for PPS or CHAIN. The first difference of the source in use sets TIME; later the average of enough of
them sets TIM_OFFS and the slew, of which the manual gives only the bound (R336). `frac` is where the compared instants lie
after the KEEP edges, in units of 40 ps (R332). Under FREE, TIME is never steered (R334). -/
def Die.timeOffset (e : Die) (pps : Bool) (frac : BitVec 12) (corr : Word) : Die :=
  let t := e.tim
  let late : Int := frac.toNat % (25 * e.keepNs)
  if e.timUsed ≠ (if pps then 1 else 2) ∨ t.diffSrc ≠ e.timUsed then e
  else match t.diffs with
    | [] => e
    | d :: _ =>
      if !e.bit F.TIM_STAT_VALID then
        let n := (((t.own : Int) + d - late) / 25).toNat
        ((e.updTim fun t => { t with
          sec := BitVec.ofNat 48 (n / 1000000000)
          ns := BitVec.ofNat 32 (n % 1000000000)
          diffs := [] }).setFld F.TIM_STAT_VALID 1).setFld F.TIM_IRQ_VALID 1
      else if t.diffs.length < diffCount t.diffSrc then e
      else
        let offs := BitVec.ofInt 32 (clampI (-2 ^ 31) (2 ^ 31 - 1) ((t.diffs.foldl (· + ·) 0 / t.diffs.length - late) / 25))
        let o := offs.toInt
        let c := corr.toInt
        let corr := if o < 0 then clampI (-1000) 0 c else if 0 < o then clampI 0 1000 c else 0
        let e := ((e.updTim fun t => { t with diffs := [] }).setReg R.TIM_OFFS offs).setReg R.TIM_CORR (BitVec.ofInt 32 corr)
        let far := decide (e.regN R.TIM_STEPLIM < o.natAbs)
        (e.raise F.TIM_IRQ_FAR (far && !e.bit F.TIM_STAT_FAR)).setBit F.TIM_STAT_FAR far

/-- TIME_OFFSET_UPDATE (R336). -/
def execTimeOffsetUpdate (d : DieId) (pps : Bool) (frac : BitVec 12) (corr : Word) (s : State) : Out :=
  .next (s.updIn .keep d (·.timeOffset pps frac corr))

/-- The timing rule of R190 for an arm: its frame lies 2 to 2^31 - 1 frames ahead. -/
def Die.armOk (e : Die) (f : Nat) : Bool :=
  let k := e.framesTo f
  2 ≤ k && k < 2 ^ 31

/-- TIME_STEP_ARM under the timing rule of R190 (R336). -/
def Die.timeStepArm (e : Die) : Die :=
  if e.armOk (e.regN R.TIM_STEPFRAME) then e.setFld F.TIM_STAT_STEPARMED 1 else e

/-- TIME_STEP_ARM (R336). -/
def execTimeStepArm (d : DieId) (s : State) : Out := .next (s.updIn .keep d (·.timeStepArm))

/-- TIME_STEP at FT of TIM_STEPFRAME (R336). -/
def Die.timeStepFt (e : Die) : Die :=
  if e.bit F.TIM_STAT_STEPARMED ∧ e.regN R.TIM_STEPFRAME = e.seq then
    ((e.updTim fun t => { t with
      sec := BitVec.ofNat 48 (e.regN R.TIM_SETSECHI % 2 ^ 16 * 2 ^ 32 + e.regN R.TIM_SETSEC)
      ns := e.reg R.TIM_SETNS
      diffs := [] }).setFld F.TIM_STAT_STEPARMED 0).setFld F.TIM_IRQ_STEPDONE 1
  else e

/-! ### Time of day (R338, R339) -/

/-- Change the time-of-day input. -/
def Die.updTod (e : Die) (f : Tod → Tod) : Die := e.updTim fun t => { t with tod := f t.tod }

/-- CRC-16 over bytes, most significant bit first. -/
def crc16Bytes (bs : List Byte) : Nat := bs.foldl (fun c b => crc16Bits 8 c b.toNat) 0xFFFF

/-- A number from bytes, most significant first. -/
def beBytes (bs : List Byte) : Nat := bs.foldl (fun n b => n * 256 + b.toNat) 0

/-- A good message: SYNC and VER, the valid flag, the CRC, inside its window (R338, R339). -/
def todGood (b : Vector Byte 16) (inWindow : Bool) : Bool :=
  inWindow && b[0] == 0x53 && b[1] == 0x54 && b[2] == 0x01 && natBit b[3].toNat 0
    && beBytes (b.toList.drop 14) == crc16Bytes (b.toList.take 14)

/-- TOD_MESSAGE: a bad one is discarded with TODERR; a good one gives the SEC of the coming edge (R339). -/
def Die.todMessage (e : Die) (b : Vector Byte 16) (inWindow : Bool) : Die :=
  if !todGood b inWindow then e.setFld F.TIM_IRQ_TODERR 1
  else
    let sec := BitVec.ofNat 48 (beBytes ((b.toList.drop 4).take 6))
    let e := (e.setFld F.TIM_UTC_UTCOFS (beBytes ((b.toList.drop 10).take 2))).setFld F.TIM_UTC_FLAGS (b[3].toNat % 16)
    e.updTod fun t => { t with
      got := some sec
      run := if t.run ≠ 0 && sec == t.last + 1 then t.run + 1 else 1
      last := sec }

/-- TOD_MESSAGE (R339). -/
def execTodMessage (d : DieId) (bytes : Vector Byte 16) (inWindow : Bool) (s : State) : Out :=
  .next (s.updIn .keep d (·.todMessage bytes inWindow))

/-- PPS_EDGE at a qualified `PPS_IN`: the time is the SEC of the message before it, or the previous SEC plus one; 16 missing
messages set TODLOST, and three out of sequence become the count. Under PPS that time is compared with TIME (R336, R339). -/
def Die.ppsEdge (e : Die) : Die :=
  if !e.qual 2 then e
  else
    let t := e.tim.tod
    let t := if t.accepted then t else
      match t.got with
      | some v => { t with accepted := 3 ≤ t.run, count := v - 1 }
      | none => { t with run := 0 }
    let t := if !t.accepted then { t with got := none } else
      match t.got with
      | none => { t with count := t.count + 1, missing := t.missing + 1 }
      | some v =>
        if v = t.count + 1 then { t with count := v, missing := 0, strange := 0, got := none }
        else if 3 ≤ t.strange + 1 then { t with count := v, missing := 0, strange := 0, got := none }
        else { t with count := t.count + 1, missing := 0, strange := t.strange + 1, got := none }
    let e := (e.updTod fun _ => t).setBit F.TIM_STAT_TODLOST (16 ≤ t.missing)
    if t.accepted && e.timUsed == 1 then e.updTim (·.sample 1 (t.count.toNat * 25000000000)) else e

/-- PPS_EDGE (R339). -/
def execPpsEdge (d : DieId) (s : State) : Out := .next (s.updIn .keep d (·.ppsEdge))

/-! ### Stamps (R340 to R343) -/

/-- The queue an event enters and its ID, if TIM_SQCTL selects it (R340, R341). -/
def Die.stampId (e : Die) : StampEvent → Option (Bool × Nat)
  | .startTx seq =>
    if e.bit F.TIM_SQCTL_SBTX && seq.toNat % 2 ^ e.fld F.TIM_SQCTL_SBDIV == 0 then some (false, seq.toNat % 2 ^ 28) else none
  | .startRx seq =>
    if e.bit F.TIM_SQCTL_SBRX && seq.toNat % 2 ^ e.fld F.TIM_SQCTL_SBDIV == 0 then some (true, seq.toNat % 2 ^ 28) else none
  | .loadTx lane opos odie seq =>
    if e.bitAt F.TIM_SQCTL_TXLANES lane.toNat then some (false, loadId lane opos odie seq) else none
  | .loadRx lane opos odie seq =>
    if e.bitAt F.TIM_SQCTL_RXLANES lane.toNat then some (true, loadId lane opos odie seq) else none
  | .ppsRx => if e.bit F.TIM_SQCTL_PPS then some (true, 2 ^ 29 + e.tim.edges.toNat) else none
where
  /-- The ID of a load. -/
  loadId (lane : BitVec 2) (opos : BitVec 9) (odie : Bool) (seq : BitVec 16) : Nat :=
    2 ^ 28 + lane.toNat * 2 ^ 26 + opos.toNat * 2 ^ 17 + b2n odie * 2 ^ 16 + seq.toNat

/-- STAMP_CAPTURE: an event enters its queue with its AGE preloaded, or is dropped at a full one (R340 to R342). Every
`PPS_IN` edge counts. -/
def Die.stampCapture (e : Die) (ev : StampEvent) (preload : Word) : Die :=
  let e0 := e
  let e := match ev with
    | .ppsRx => e.updTim fun t => { t with edges := t.edges + 1 }
    | _ => e
  match e0.stampId ev with
  | none => e
  | some (rx, id) =>
    if 8 ≤ (if rx then e.tim.rx else e.tim.tx).length then
      let e := e.count (if rx then F.TIM_SQDROP_RX else F.TIM_SQDROP_TX) 1
      (e.setFld (if rx then F.TIM_SQSTAT_RXOVF else F.TIM_SQSTAT_TXOVF) 1).setFld F.TIM_IRQ_OVF 1
    else
      let x : Stamp := ⟨BitVec.ofNat 32 id, preload⟩
      e.updTim fun t => if rx then { t with rx := t.rx ++ [x] } else { t with tx := t.tx ++ [x] }

/-- STAMP_CAPTURE (R340). -/
def execStampCapture (d : DieId) (ev : StampEvent) (preload : Word) (s : State) : Out :=
  .next (s.updIn .keep d (·.stampCapture ev preload))

/-- STAMP_READ: the head entry is removed and returned, with its AGE and the time latched; an empty queue returns all ones
and latches nothing (R341). -/
def Die.stampRead (e : Die) (m : BitVec 3) (rx : Bool) (age : Word) : Die :=
  match (if rx then e.tim.rx else e.tim.tx) with
  | [] => e.answer m 0xFFFFFFFF
  | x :: xs =>
    let (sec, ns, tick) := e.ctlTime
    let e := e.updTim fun t => if rx then { t with rx := xs } else { t with tx := xs }
    let e := e.setRegN (if rx then R.TIM_SQRXAGE else R.TIM_SQTXAGE) (satAdd 32 x.age.toNat age.toNat)
    let e := ((e.setReg R.TIM_CAPNS ns).setRegN R.TIM_CAPSEC (sec.toNat % 2 ^ 32)).setReg R.TIM_CAPTICK tick
    e.drawn.answer m x.id

/-- STAMP_READ (R341). -/
def execStampRead (d : DieId) (m : BitVec 3) (rx : Bool) (age : Word) (s : State) : Out := .next (s.updIn .ctl d (·.stampRead m rx age))

/-- TIME_NS_READ: nanoseconds of the CTL copy; the seconds of the same cycle are captured (R332). -/
def Die.timeNsRead (e : Die) (m : BitVec 3) : Die :=
  let (sec, ns, _) := e.ctlTime
  (e.updTim fun t => { t with cap := sec }).drawn.answer m ns

/-- TIME_NS_READ (R332). -/
def execTimeNsRead (d : DieId) (m : BitVec 3) (s : State) : Out := .next (s.updIn .ctl d (·.timeNsRead m))

/-- ENTRY_STAMP: TIME as core `n` begins an interrupt entry (R343). -/
def Die.entryStamp (e : Die) (n : Fin 4) : Die :=
  let (sec, ns, _) := e.ctlTime
  ((e.setReg (R.TIM_ENTNS n) ns).setRegN (R.TIM_ENTSEC n) (sec.toNat % 2 ^ 32)).drawn

/-- What TIM registers compute at a read (R332, R342, R345). -/
def Die.timRead (e : Die) (a : Nat) : Option Nat :=
  if a = R.TIM_SEC then some (e.tim.cap.toNat % 2 ^ 32)
  else if a = R.TIM_SECHI then some (e.tim.cap.toNat / 2 ^ 32)
  else if a = R.TIM_CORR ∧ e.timUsed = 0 then some 0
  else if a = R.TIM_TICK then some e.tim.tick.toNat
  else if a = R.TIM_STAT then some (insBits (e.regN a) 1 2 e.timUsed)
  else if a = R.TIM_IRQ then
    some (insBits (e.regN a) 0 2 (b2n (!e.tim.tx.isEmpty) + 2 * b2n (!e.tim.rx.isEmpty)))
  else if a = R.TIM_SQSTAT then some (insBits (e.regN a) 0 8 (e.tim.tx.length + 16 * e.tim.rx.length))
  else none

/-! ### Pulse outputs (R329) -/

/-- `PPS_OUT` gives pulses: PPSOUT_EN is set, and the image runs (R329, R419). -/
def Die.ppsOn (e : Die) : Bool := e.bit F.TIM_CTRL_PPSOUT_EN && e.imageRuns

/-- PPS_OUT_PULSE: the divider gives a pulse of 1 µs, while PPSOUT_EN is set (R329). One that waits to be placed gives none until
then (R330). -/
def Die.ppsPulse (e : Die) : Die :=
  if e.ppsOn && !e.tim.ppsAlign then e.updTim fun t => { t with ppsOut := 1000 } else e

/-- PPS_OUT_PULSE (R329). -/
def execPpsOutPulse (d : DieId) (s : State) : Out := .next (s.updIn .eng d (·.ppsPulse))

/-- WCK_OUT_FALL at ENG cycle N / 2 (R329). -/
def execWckOutFall (d : DieId) (s : State) : Out := .next (s.updIn .eng d (·.updTim fun t => { t with wckOut := false }))

/-! ### A KEEP edge -/

/-- TIME advances by a KEEP period and by the slew in force; TICK_NS by the period. On a second boundary a PPS_OUT pulse that
is to be placed starts (R330, R332, R333, R336). -/
def Tim.edge (t : Tim) (period : Nat) (corr : Int) (ppsEn : Bool) : Tim :=
  let acc := t.slew + corr * (period : Int)
  let carry := acc / 1000000000
  let (sec, ns) := addNs t.sec t.ns ((period : Int) + carry).toNat
  { t with
    sec := sec
    ns := ns
    tick := t.tick + BitVec.ofNat 32 period
    slew := acc % 1000000000
    ppsAlign := t.ppsAlign && sec == t.sec
    ppsOut := if t.ppsAlign && ppsEn && sec != t.sec then 1000 else t.ppsOut - period }

/-- HOLDTIME counts the seconds of HOLD and LOST (R320, R344). -/
def Die.holdTick (e : Die) : Die :=
  if e.refState = RefSt.hold ∨ e.refState = RefSt.lost then
    let n := e.ref.holdNs + e.keepNs
    if n < 1000000000 then e.updRef fun r => { r with holdNs := n }
    else (e.updRef fun r => { r with holdNs := n - 1000000000 }).setRegN R.REF_HOLDTIME (satAdd 32 (e.regN R.REF_HOLDTIME) 1)
  else e

/-- One KEEP edge of a die, while its KEEP runs: TIME, TICK_NS, HOLDTIME, the slew of the reference loop (R322), a clear of the
log area (R436), and the parking of the idle targets of the crossbar (R394). -/
def Die.keepEdge (e : Die) : Die :=
  if !e.runs .keep then e
  else
    let corr := if e.timUsed = 0 then 0 else (e.reg R.TIM_CORR).toInt
    let k := e.keepNs
    let e : Die := { e with xbar := e.xbar.parked }
    (((e.updTim (·.edge k corr e.ppsOn)).holdTick).loopTick k).logClearTick

/-- No command waits: one edge of KEEP on each die (R332, R321, R436). DESIGN CHOICE (log 1): the table has no row for an edge. -/
def State.idle (s : State) : State := { s with dieA := s.dieA.keepEdge, dieB := s.dieB.keepEdge }

end Sys2Proof.Machine
end

