-- ==== Sys2Proof/Machine/Load.lean ====
section
/-! DEFINITION. Loads: their format, queues and credits, delivery, the transmit and receive rings in SHARED, and the relay
of the lead's loads by the follow (R260 to R267, R271, R276, R289, R290). -/

namespace Sys2Proof.Machine

/-! ### The format of a load (R260) -/

/-- A header field of a load. -/
def ldFld (ld : Load) (lo w : Nat) : Nat := bitsOf ld.header.toNat lo w

/-- LANE. -/
def ldLane (ld : Load) : Nat := ldFld ld 62 2

/-- The check over the header with HOPS taken as zero and the payload. -/
def ldCrc (ld : Load) : Nat := crc32Blocks (BitVec.ofNat 64 (insBits ld.header.toNat 10 9 0) :: ld.payload)

/-- The load's check is good, and its length is the one LEN gives. -/
def ldGood (ld : Load) : Bool := ldFld ld 19 6 + 1 == ld.payload.length && ld.check.toNat / 2 ^ 32 == ldCrc ld

/-- The load with another HOPS. -/
def ldHops (ld : Load) (h : Nat) : Load := { ld with header := BitVec.ofNat 64 (insBits ld.header.toNat 10 9 h) }

/-- The blocks of a load in order. -/
def ldBlocks (ld : Load) : List Block := ld.header :: (ld.payload ++ [ld.check])

/-- A load with its check block formed. -/
def ldSeal (ld : Load) : Load := { ld with check := BitVec.ofNat 64 (ldCrc ld * 2 ^ 32) }

/-- The lane whose counters a load uses on a port: Gen-1 carries sync and note loads in the bulk lane (R274). -/
def Die.ctrLane (e : Die) (p : PortId) (lane : Nat) : Nat := if e.gen1 p && lane != 0 then 3 else lane

/-! ### Queues and credit (R261 to R263, R271, R276) -/

/-- Blocks a port's queue holds of a lane, the load being sent included. -/
def Die.queued (e : Die) (p : PortId) (lane : Nat) : Nat :=
  let all := e.chn.queue ++ (match e.chn.sending with
    | some x => [x.1]
    | none => [])
  (all.filter fun q => q.port == p && e.ctrLane p (ldLane q.ld) == e.ctrLane p lane).foldl (fun n q => n + (ldBlocks q.ld).length) 0

/-- A load's blocks count as freed when it leaves its queue (R261). -/
def Die.freeLoad (e : Die) (p : PortId) (ld : Load) : Die :=
  let l := e.ctrLane p (ldLane ld)
  e.updPort p fun x => { x with
    freed := x.freed.setIfInBounds l (x.freed.getD l 0 + BitVec.ofNat 16 (ldBlocks ld).length) }

/-- The credit test of R263, and on a near wrap of a Gen-1 ring the limit of R276. -/
def Die.hasCredit (e : Die) (ld : Load) : Bool :=
  let p := e.fwdTo
  let b := (ldBlocks ld).length
  if e.wrapNear && e.gen1 p then e.chn.wrapBlocks + b ≤ e.controlBlocks p / 2
  else
    let l := e.ctrLane p (ldLane ld)
    (e.fld (F.CHNX_LANE_SENT p.idx l) + 2 ^ 16 - e.fld (F.CHNX_LANE_FREED p.idx l)) % 2 ^ 16 + b ≤ 8192

/-- The die starts no load of its own: it is fenced, and its next container has begun (R298). -/
def Die.ownHeld (e : Die) : Bool := e.bit F.PAIR_FENCE_FIN && !e.chn.grace

/-- The load a control block starts: the oldest of the highest lane that fits the region and has credit (R262). -/
def Die.pickLoad (e : Die) (room : Nat) : Option QLoad :=
  (List.range 4).findSome? fun lane =>
    match e.chn.queue.find? (fun q => ldLane q.ld == lane && !(q.own && e.ownHeld)) with
    | some q => if (ldBlocks q.ld).length ≤ room ∧ e.hasCredit q.ld then some q else none
    | none => none

/-- A block of a load is sent. The count of its lane follows, and after the check block the load has left its queue. -/
def Die.sendBlock (e : Die) (q : QLoad) (n : Nat) : Die :=
  let p := e.fwdTo
  let bs := ldBlocks q.ld
  let f := F.CHNX_LANE_SENT p.idx (e.ctrLane p (ldLane q.ld))
  let e := e.setFld f (e.fld f + 1)
  let last := bs.length ≤ n + 1
  let e := e.updChn fun c => { c with
    lastBlock := bs[n]?
    sending := if last then none else some (q, n + 1) }
  if last && !q.own then e.freeLoad q.port q.ld else e

/-- What is left of a load in progress is dropped: its container is cut short, or its port has left ON (R238, R241). It has
left its queue. -/
def Die.dropSending (e : Die) : Die :=
  match e.chn.sending with
  | none => e
  | some (q, _) =>
    let e := e.updChn fun c => { c with sending := none }
    if q.own then e else e.freeLoad q.port q.ld

/-- CONTROL_BLOCK_SEND with `room` blocks of the region left, this one included: the load in progress goes on, or a load
starts, or an idle block is sent (R262). A port that is not ON sends idle blocks only (R238). -/
def Die.controlBlock (e : Die) (room : Nat) : Die :=
  if !e.carries e.fwdTo then e.dropSending.updChn fun c => { c with lastBlock := none }
  else match e.chn.sending with
  | some (q, n) => e.sendBlock q n
  | none =>
    match e.pickLoad room with
    | some q =>
      let e := e.updChn fun c => { c with
        queue := c.queue.erase q
        wrapBlocks := if e.wrapNear then c.wrapBlocks + (ldBlocks q.ld).length else c.wrapBlocks }
      e.sendBlock q 0
    | none => e.updChn fun c => { c with lastBlock := none }

/-- CONTROL_BLOCK_SEND (R262). -/
def execControlBlockSend (d : DieId) (room : BitVec 11) (s : State) : Out := .next (s.updIn .ltx d (·.controlBlock room.toNat))

/-- CREDIT_RECEIVE: a freed count becomes the one CHN_x_LANEl shows. A near wrap point takes WRAPCRED in place of CRED on
the cable it wraps onto; a Gen-1 header carries no WRAPCRED, and a port that is OFF receives nothing (R238, R263, R271,
R276). -/
def Die.creditReceive (e : Die) (p : PortId) (wrap : Bool) (cred : Block) : Die :=
  if e.portState p = St.off ∨ (e.gen1 p && (wrap || e.wrapNear)) then e
  else
    let set (e : Die) (p : PortId) : Die := (List.range 4).foldl (fun e l =>
      e.setFld (F.CHNX_LANE_FREED p.idx l) (bitsOf cred.toNat (16 * l) 16)) e
    if e.wrapNear && p == e.fwdIn then (if wrap then set e p else e)
    else if wrap then (if e.wrapNear then set e e.fwdIn else e)
    else set e p

/-- CREDIT_RECEIVE (R263). -/
def execCreditReceive (d : DieId) (p : PortId) (wrap : Bool) (cred : Block) (s : State) : Out :=
  .next (s.updIn (rxDom p) d (·.creditReceive p wrap cred))

/-! ### Delivery (R265, R266) -/

/-- The origin and lane of a load, as the key of duplicate removal. -/
def ldKey (ld : Load) : Nat := ldFld ld 52 10 * 4 + ldLane ld

/-- Duplicate removal: the record after a load, and whether the load is new (R265). -/
def Seen.take (r : Option Seen) (seq : BitVec 16) : Seen × Bool :=
  match r with
  | none => (⟨seq, 0⟩, true)
  | some r =>
    let up := (seq - r.top).toNat
    if up = 0 then (r, false)
    else if up < 2 ^ 15 then
      (⟨seq, BitVec.ofNat 64 (if up ≤ 64 then r.below.toNat * 2 ^ up + 2 ^ (up - 1) else 0)⟩, true)
    else
      let k := (r.top - seq).toNat
      if k ≤ 64 ∧ !natBit r.below.toNat (k - 1) then (⟨r.top, r.below ||| BitVec.ofNat 64 (2 ^ (k - 1))⟩, true)
      else (r, false)

/-- A list of blocks in memory from an address on, least significant byte lowest. -/
def Die.storeBlocks (e : Die) (a : Nat) : List Block → Die
  | [] => e
  | b :: bs => (e.memWrite a b.toNat 8).storeBlocks (a + 8) bs

/-- Entry `i` of a ring lies in SHARED. -/
def ringAt (base i : Nat) : Option Nat :=
  let a := base + 528 * i
  if sharedBase ≤ a ∧ a + 528 ≤ 0x600000 then some a else none

/-- CHN_RXHEAD after the next entry. -/
def Die.rxNext (e : Die) : Nat :=
  let h := e.fld F.CHN_RXHEAD_INDEX
  if e.fld F.CHN_RXCNT_COUNT ≤ h + 1 then 0 else h + 1

/-- The receive ring is full; so is one of no entries, or one that does not lie in SHARED (R266). -/
def Die.rxFull (e : Die) : Bool :=
  e.fld F.CHN_RXCNT_COUNT == 0 || e.rxNext == e.fld F.CHN_RXTAIL_INDEX
    || (ringAt (e.regN R.CHN_RXBASE) (e.fld F.CHN_RXHEAD_INDEX)).isNone

/-- RX_RING_WRITE: the entry at CHN_RXHEAD takes the load, unless the ring is full (R266). -/
def Die.rxRing (e : Die) (ld : Load) (viaPartner : Bool) : Die :=
  let next := e.rxNext
  match ringAt (e.regN R.CHN_RXBASE) (e.fld F.CHN_RXHEAD_INDEX) with
  | some a =>
    if e.rxFull then e.setFld F.CHN_IRQ_RXOVF 1
    else
      let pad := List.replicate (64 - ld.payload.length) (0 : Block)
      let e := e.storeBlocks a (ld.header :: (ld.payload.take 64 ++ pad ++ [BitVec.ofNat 64 (e.seq + 2 ^ 32 * b2n viaPartner)]))
      (e.setFld F.CHN_RXHEAD_INDEX next).setFld F.CHN_IRQ_RXLOAD 1
  | none => e.setFld F.CHN_IRQ_RXOVF 1

/-- What became of a load at delivery: delivered, discarded as a duplicate, or not delivered, the ring being full. -/
inductive Delivery
  | delivered | duplicate | full
  deriving DecidableEq, Repr

/-- LOAD_DELIVER: a load new to its origin and lane goes to VOX or to the receive ring; another is counted. One the ring has
no room for is not delivered, and so not marked (R265, R266). -/
def Die.deliver (e : Die) (ld : Load) (viaPartner : Bool) : Die × Delivery :=
  let k := ldKey ld
  let (r, new) := Seen.take (SMap.get (fun _ => none) (e.chn.seen.map fun x => (x.1, some x.2)) k) (BitVec.ofNat 16 (ldFld ld 25 16))
  let seen := e.updChn fun c => { c with seen := SMap.insert c.seen k r }
  if !new then (e.count F.CHN_DUP_COUNT 1, .duplicate)
  else if ldLane ld = 2 then (seen.noteCross ld.payload, .delivered)
  else if e.rxFull then (e.setFld F.CHN_IRQ_RXOVF 1, .full)
  else (seen.rxRing ld viaPartner, .delivered)

/-- The load is addressed to this die (R261). -/
def Die.addressed (e : Die) (ld : Load) : Bool :=
  natBit ld.header.toNat 41 ||
    (ldFld ld 43 9 == e.fld F.CHN_CTRL_POSID && (!e.bit F.PAIR_STAT_MODE || natBit ld.header.toNat 42 == (e.id == .b)))

/-- LOAD_RECEIVE on a port: the die's own part, and the load to pass to the partner (R261, R265, R276). -/
def Die.loadReceive (e : Die) (p : PortId) (ld : Load) : Die × Option Load :=
  if p ≠ e.fwdFrom ∨ e.portState p = St.off then (e, none)
  else if e.wrapFar && e.gen1 p && 8192 < e.queued p (ldLane ld) + (ldBlocks ld).length then
    (e.count (F.CHNX_WDROP_COUNT p.idx) 1, none)
  else if !ldGood ld then ((e.count (F.CHNX_ERR_LCRC p.idx) 1).freeLoad p ld, none)
  else
    let hops := ldFld ld 10 9 + 1
    let strip := ldFld ld 53 9 == e.fld F.CHN_CTRL_POSID || 511 < hops
    let ld := ldHops ld (min hops 511)
    let mine := e.addressed ld && e.inService
    let (e, got) := if mine then e.deliver ld false else (e, .full)
    let strip := strip || (got != .full && !natBit ld.header.toNat 41)
    let e := if strip then e.freeLoad p ld
      else e.updChn fun c => { c with queue := c.queue ++ [⟨p, false, ld⟩] }
    (e, if got = .delivered then some ld else none)

/-- A load passed over the party wall: the partner applies the rules of delivery (R265). -/
def Die.passedLoad (e : Die) (ld : Load) : Die := if e.inService then (e.deliver ld true).1 else e

/-- LOAD_RECEIVE (R261). -/
def execLoadReceive (d : DieId) (p : PortId) (ld : Load) (s : State) : Out :=
  .next (s.goIn (rxDom p) d fun s =>
    let (e, pass) := (s.die d).loadReceive p ld
    let s := s.setDie d e
    match pass with
    | some ld => s.wall d.other .load (·.passedLoad ld)
    | none => s)

/-! ### Sending (R267, R289) -/

/-- The die fetches from its transmit rings: LEAD or SPLIT, and not inside a hand-over (R280, R289, R304). -/
def Die.fetches (e : Die) : Bool :=
  (e.role == Role.split || e.isLead) && (match e.pair.hoFetch with
    | some f => !seqAfter f.toNat e.seq
    | none => true)

/-- CHD reads a 64-bit word of SHARED, with its check bits (R392). DESIGN CHOICE: an uncorrectable word, which gives no data,
counts as a free value (log 67). -/
def Die.chdRead (e : Die) (a : Nat) : Block × Die :=
  match e.memRead 4 a 8 none with
  | (some v, e) => (BitVec.ofNat 64 v, e)
  | (none, e) => (Config.lostWord e.free, (e.busError 4 false 3 (BitVec.ofNat 32 a)).drawn)

/-- Consecutive words of SHARED. -/
def Die.chdWords : Nat → Die → Nat → List Block × Die
  | 0, e, _ => ([], e)
  | n + 1, e, a =>
    let (b, e) := e.chdRead a
    let (bs, e) := Die.chdWords n e (a + 8)
    (b :: bs, e)

/-- The load of a ring entry: LEN + 1 payload blocks, with OPOS, ODIE, SEQ, LANE and HOPS filled in (R260, R267). -/
def Die.entryLoad (e : Die) (a lane : Nat) : Load × Die :=
  let (w, f) := e.chdRead a
  let h := w.toNat
  let h := insBits (insBits (insBits (insBits (insBits (insBits h 62 2 lane) 53 9 (e.fld F.CHN_CTRL_POSID)) 52 1
    (b2n (e.role == Role.split && e.id == .b))) 25 16 (e.fld (F.CHN_TXSEQ_SEQ lane))) 10 9 0) 0 10 0
  let (bs, f) := Die.chdWords (bitsOf h 19 6 + 1) f (a + 8)
  (ldSeal ⟨BitVec.ofNat 64 h, bs, 0⟩, f)

/-- LOAD_FETCH in a lane: with an entry waiting and 66 blocks free in the forward-out port's queue, the entry becomes a load
of the die, and the tail and SEQ advance (R267). -/
def Die.loadFetch (e : Die) (lane : Nat) : Die × Option Load :=
  let cnt := e.fld (F.CHN_TXCNT_COUNT lane)
  let t := e.fld (F.CHN_TXTAIL_INDEX lane)
  let p := e.fwdOut
  match ringAt (e.regN (R.CHN_TXBASE lane)) t with
  | none => (e, none)
  | some a =>
    if !e.fetches ∨ cnt = 0 ∨ t = e.fld (F.CHN_TXHEAD_INDEX lane) ∨ 8192 < e.queued p lane + 66 then (e, none)
    else
      let (ld, e) := e.entryLoad a lane
      let e := (e.setFld (F.CHN_TXTAIL_INDEX lane) (if cnt ≤ t + 1 then 0 else t + 1)).setFld (F.CHN_TXSEQ_SEQ lane)
        (e.fld (F.CHN_TXSEQ_SEQ lane) + 1)
      (e.updChn fun c => { c with queue := c.queue ++ [⟨p, true, ld⟩] }, some ld)

/-- LOAD_FETCH: in pair mode the lead also passes the load to the follow (R267, R289). -/
def execLoadFetch (d : DieId) (lane : Fin 4) (s : State) : Out :=
  .next (s.goIn .ltx d fun s =>
    let (e, sent) := (s.die d).loadFetch lane
    let s := s.setDie d e
    match sent with
    | some ld =>
      if e.isLead && (s.die d.other).role == Role.follow then
        s.wall d.other .load fun f => { f with pair := { f.pair with relay := f.pair.relay ++ [ld] } }
      else s
    | none => s)

/-- LOAD_RELAY: a FOLLOW sends the oldest load the lead has passed, and remembers its SEQ (R289, R290). -/
def Die.loadRelay (e : Die) : Die :=
  match e.pair.relay with
  | [] => e
  | ld :: rest =>
    let e := { e with pair := { e.pair with
      relay := rest
      relayed := e.pair.relayed.setIfInBounds (ldLane ld) (some (BitVec.ofNat 16 (ldFld ld 25 16))) } }
    if e.role = Role.follow then e.updChn fun c => { c with queue := c.queue ++ [⟨e.fwdOut, true, ld⟩] } else e

/-- LOAD_RELAY (R289). -/
def execLoadRelay (d : DieId) (s : State) : Out := .next (s.updIn .ltx d (·.loadRelay))

/-- Each lane goes on `n` past the last load relayed in it, and nothing counts as relayed any more. -/
def Die.loadSeqFrom (e : Die) (n : Nat) : Die :=
  let e' := (List.finRange 4).foldl (fun e (l : Fin 4) => match e.pair.relayed[l] with
    | some q => e.setFld (F.CHN_TXSEQ_SEQ l) (q.toNat + n)
    | none => e) e
  { e' with pair := { e'.pair with relayed := Vector.replicate 4 none } }

/-- LOAD_SEQ_JUMP: on taking lead otherwise than by hand-over (R290). -/
def Die.loadSeqJump (e : Die) : Die := e.loadSeqFrom 0x4000

/-- At a hand-over (R304). -/
def Die.loadSeqCont (e : Die) : Die := e.loadSeqFrom 1

end Sys2Proof.Machine
end

