-- ==== Sys2Proof/Machine/Pallet.lean ====
section
/-! DEFINITION. Pallets: the maps, insertion, the pallet store, presentation and the latency P (R245, R246, R251 to R259,
R275). -/

namespace Sys2Proof.Machine

/-! ### The format of a pallet -/

/-- A field of a pallet's header (R245). -/
def palFld (b : Blocks) (lo w : Nat) : Nat := bitsOf b[0].toNat lo w

/-- PCRC over header bits 63:51 and 34:0 and the payload blocks (R245); Gen-1 pallets have 12 payload blocks (R274). -/
def palCrc (gen1 : Bool) (b : Blocks) : Nat :=
  let c := crc16Bits 35 (crc16Bits 13 0xFFFF (palFld b 51 13)) (palFld b 0 35)
  ((b.toList.drop 1).take (if gen1 then 12 else 14)).foldl (fun c x => crc16Bits 64 c x.toNat) c

/-- The payload as one number, block 1 least significant (R246). -/
def palPayload (b : Blocks) : Nat := (b.toList.drop 1).foldr (fun x n => x.toNat + 2 ^ 64 * n) 0

/-- A slot's quarter (R246); a Gen-1 sample takes four zero bits (R274, R275). -/
def palSlot (gen1 : Bool) (b : Blocks) (j : Nat) : Quarter :=
  if gen1 then BitVec.ofNat 28 (bitsOf (palPayload b) (24 * j) 24 * 16)
  else BitVec.ofNat 28 (bitsOf (palPayload b) (28 * j) 28)

/-- A quarter as a Gen-1 sample: rounded to 24 bits with ties toward +∞ and saturated, and whether it saturated (R275). -/
def gen1Sample (q : Quarter) : Nat × Bool :=
  let x := (q.toInt + 8) / 16
  ((BitVec.ofInt 24 (clampI (-8388608) 8388607 x)).toNat, decide (8388607 < x))

/-- A pallet's blocks from its header fields and its 32 quarters (R245, R246, R274). -/
def palBuild (gen1 : Bool) (origin index seq : Nat) (ring empty follow : Bool) (qs : Nat → Quarter) : Blocks :=
  let n := (List.range 32).foldr (fun j n =>
    if gen1 then (gen1Sample (qs j)).1 + 2 ^ 24 * n else (qs j).toNat + 2 ^ 28 * n) 0
  let h := origin + b2n ring * 2 ^ 9 + index * 2 ^ 10 + seq % 2 ^ 16 * 2 ^ 19 + b2n empty * 2 ^ 51 + b2n follow * 2 ^ 52
  let b : Blocks := Vector.ofFn fun (i : Fin 15) => match i.val with
    | 0 => BitVec.ofNat 64 h
    | i + 1 => BitVec.ofNat 64 (n / 2 ^ (64 * i))
  b.set 0 (BitVec.ofNat 64 (h + palCrc gen1 b * 2 ^ 35))

/-! ### Maps and the store's capacity (R251, R254) -/

/-- EXT of a slot in a port's map. -/
def Die.extAt (e : Die) (p : PortId) (slot : Nat) : Bool := natBit (SMap.get (fun _ => (0 : BitVec 2)) (e.port p).map slot).toNat 0

/-- EXT of a slot in either map. -/
def Die.ext (e : Die) (slot : Nat) : Bool := e.extAt .n slot || e.extAt .s slot

/-- The pallet is owned in a port's map. -/
def Die.owns (e : Die) (p : PortId) (pallet : Nat) : Bool :=
  natBit (SMap.get (fun _ => (0 : BitVec 2)) (e.port p).map (32 * pallet)).toNat 1

/-- Slots of either map, each once. -/
def Die.mapSlots (e : Die) : List Nat :=
  let a := (e.chn.n.map).map (·.1)
  a ++ ((e.chn.s.map).map (·.1)).filter fun s => !a.contains s

/-- E of R254. -/
def Die.extCount (e : Die) : Nat := (e.mapSlots.filter e.ext).length

/-- The map changes that wait for FT take effect (R251). -/
def Die.mapApply (e : Die) : Die :=
  let e := e.chn.mapNext.foldl (fun e c =>
    e.updPort c.1 fun p => { p with map := SMap.set (fun _ => (0 : BitVec 2)) p.map c.2.1 c.2.2 }) e
  e.updChn fun c => { c with mapNext := [] }

/-- CHAIN_MAP_WRITE: the entry CHN_x_MAPIDX names, from the next FT on; refused where the store would be exceeded (R251,
R254). -/
def Die.mapWrite (e : Die) (p : PortId) (v : Word) : Die :=
  let slot := e.fld (F.CHNX_MAPIDX_SLOT p.idx)
  if 12288 ≤ slot then e
  else
    let w := BitVec.ofNat 2 (if slot % 32 = 0 then v.toNat % 4 else v.toNat % 2)
    let e' := e.updChn fun c => { c with mapNext := c.mapNext ++ [(p, slot, w)] }
    if 1048576 < e'.mapApply.extCount * (e.fld F.CHN_PCTL_P + 2) then e.setFld F.CHN_IRQ_CAP 1 else e'

/-- CHAIN_MAP_WRITE (R251). -/
def execChainMapWrite (d : DieId) (p : PortId) (v : Word) (s : State) : Out :=
  .next (s.writeIn .eng d (R.CHNX_MAPDATA p.idx) v (·.mapWrite p v))

/-! ### Insertion (R252, R253) -/

/-- PALLET_ELIGIBLE: the die's pallets carry the sinks gathered in the window of the frame before (R252). -/
def Die.palletEligible (e : Die) : Die :=
  e.updChn fun c => { c with ready := some (BitVec.ofNat 16 e.seq, e.mor.sinks.filter fun q => 0x1000 ≤ q.1 && q.1 < 0x4000) }

/-- PALLET_ELIGIBLE (R252). -/
def execPalletEligible (d : DieId) (s : State) : Out := .next (s.updIn .eng d (·.palletEligible))

/-- The die may insert: JOINED, INS_EN, no DUPPOS, and a role that inserts; no fenced die does, from its next container on
(R252, R280, R298). -/
def Die.inserts (e : Die) : Bool :=
  let r := e.role
  e.fld F.CHN_STAT_JOIN == 2 && e.bit F.CHN_CTRL_INS_EN && !e.chn.dupPos
    && (e.chn.grace || (!e.bit F.PAIR_FENCE_FIN && (r == Role.lead || r == Role.follow || r == Role.split)))

/-- A sink of the pallets ready for insertion. -/
def Chain.readyQ (c : Chain) (p j : Nat) : Quarter :=
  match c.ready with
  | some r => SMap.get quarterDflt r.2 (0x1000 + 32 * p + j)
  | none => 0

/-- PALLET_INSERT: the owned pallet replaces the one leaving forward out, with a fresh header; Gen-1 saturations count. A
port that is not ON carries no pallets (R238, R252, R275). -/
def Die.palletInsert (e : Die) (p : Nat) : Die :=
  let port := e.fwdTo
  match e.chn.ready with
  | none => e
  | some r =>
    if e.inserts ∧ e.carries port ∧ e.owns port p ∧ p < e.palletCount port then
      let g := e.gen1 port
      let b := palBuild g (e.fld F.CHN_CTRL_POSID) p r.1.toNat (e.id == .b) false (e.role == Role.follow) (e.chn.readyQ p)
      let sats := if g then ((List.range 32).filter fun j => (gen1Sample (e.chn.readyQ p j)).2).length else 0
      (e.updChn fun c => { c with pallets := SMap.insert c.pallets p b }).count (F.CHNX_SLIP_GSAT port.idx) sats
    else e

/-- PALLET_INSERT (R252). -/
def execPalletInsert (d : DieId) (p : Fin 384) (s : State) : Out := .next (s.updIn .eng d (·.palletInsert p.val))

/-- A copy that came back goes into the container being sent: its pallet begins 16 or more LTX cycles later, and the die
does not insert the pallet itself (R253). -/
def Die.intoPresent (e : Die) (i cycle : Nat) : Bool :=
  e.chn.originating && e.carries e.fwdTo && decide (cycle + 16 ≤ e.palletCycle e.fwdTo i)
    && decide (i < e.palletCount e.fwdTo) && !(e.inserts && e.owns e.fwdTo i)

/-- MASTER_PALLET_RETURN, `cycle` LTX cycles after the launch of the container being sent: a master holds the last good copy
of each returning pallet for the first container whose pallet begins 16 cycles after the check, the present one or the
next. A bad copy is counted where it is received, by PALLET_RECEIVE (R253, R256). -/
def Die.palletReturn (e : Die) (b : Blocks) (cycle : Nat) : Die :=
  let g := e.gen1 e.fwdFrom
  let i := palFld b 10 9
  if !e.isMaster ∨ e.portState e.fwdFrom = St.off ∨ palFld b 35 16 ≠ palCrc g b then e
  else if e.intoPresent i cycle then e.updChn fun c => { c with pallets := SMap.insert c.pallets i b }
  else e.updChn fun c => { c with held := SMap.insert c.held i b }

/-- MASTER_PALLET_RETURN (R253). -/
def execMasterPalletReturn (d : DieId) (x : PalletBack) (s : State) : Out :=
  .next (s.updIn .ltx d (·.palletReturn x.blocks x.cycle.toNat))

/-! ### The pallet store (R254 to R257) -/

/-- A late or missing pallet is counted and raises PLATE (R256, R257). -/
def Die.plateCount (e : Die) (cnt irq : Fld) : Die :=
  ((e.count cnt 1).setFld irq 1).updChn fun c => { c with
    lateNow := true
    plate := true }

/-- DUPPOS_ENTER: the die sees its own position elsewhere (R268). -/
def Die.dupEnter (e : Die) (p : PortId) : Die :=
  (e.updChn fun c => { c with dupPos := true }).setFld (F.CHNX_IRQ_DUPPOS p.idx) 1

/-- PALLET_RECEIVE at a cycle of the local frame: PCRC, DUPPOS, staleness and the deadline; the first good and timely copy
is kept (R255, R256, R268). A die in FENCED or SVCLOST extracts nothing (R280). -/
def Die.palletReceive (e : Die) (path : PalletPath) (b : Blocks) (cycle : Nat) : Die :=
  let port := e.fwdFrom
  let map := if path = .forwardIn then port else e.fwdIn
  let g := if path = .forwardIn then e.gen1 port else e.gen1 e.fwdIn
  if palFld b 35 16 ≠ palCrc g b then
    if path = .forwardIn then e.count (F.CHNX_ERR_PCRC port.idx) 1 else e
  else if palFld b 51 1 = 1 then e
  else
    let idx := palFld b 10 9
    let origin := palFld b 0 9
    let e := if path = .forwardIn ∧ origin = e.fld F.CHN_CTRL_POSID ∧ !e.owns e.fwdTo idx then e.dupEnter port else e
    let mask := (List.range 32).foldl (fun m j => m + b2n (e.extAt map (32 * idx + j)) * 2 ^ j) 0
    if !e.inService ∨ 384 ≤ idx then e
    else
      let seq := palFld b 19 16
      let d := (e.seq + 1 + 2 ^ 32 - seq) % 2 ^ 16
      let lim := e.fld F.CHN_PCTL_P + 1
      if lim < d then (e.count F.CHN_STALE_COUNT 1).setFld F.CHN_IRQ_STALE 1
      else
        let late := d = lim ∧ e.cyc < cycle + 544
        match e.chn.store.find? (fun c => c.idx == idx && c.seq.toNat == seq) with
        | some c =>
          let e := e.count F.CHN_DUP_COUNT 1
          if late then e else e.raise F.CHN_IRQ_ORIGCONF (c.origin.toNat != origin)
        | none =>
          if late then e.plateCount F.CHN_LATE_COUNT F.CHN_IRQ_LATE
          else e.updChn fun c => { c with
            store := c.store ++ [⟨idx, BitVec.ofNat 16 seq, BitVec.ofNat 9 origin, BitVec.ofNat 32 mask,
              Vector.ofFn fun (j : Fin 32) => palSlot g b j.val⟩] }

/-- A pallet at the crossing into ENG: while ENG stands still it is held (R26); a die in NOIMAGE or HOLD only forwards (R420). -/
def Die.palletCross (e : Die) (path : PalletPath) (b : Blocks) (cycle : Nat) : Die :=
  if e.runs .eng then e.palletReceive path b cycle
  else if e.idles then e
  else e.updChn fun c => { c with waiting := c.waiting ++ [.pallet path b cycle] }

/-- PALLET_RECEIVE: on forward in, with its port not OFF, or one that the partner has passed (R238, R255, R288). -/
def execPalletReceive (d : DieId) (path : PalletPath) (blocks : Blocks) (cycle : BitVec 15) (s : State) : Out :=
  .next (s.updIn (match path with
    | .forwardIn => rxDom (s.die d).fwdFrom
    | .partyWall => .ltx) d fun e =>
    match path with
    | .forwardIn => if e.portState e.fwdFrom = St.off then e else e.palletCross path blocks cycle.toNat
    | .partyWall =>
      if e.pair.passed.contains blocks then
        ({ e with pair := { e.pair with passed := e.pair.passed.erase blocks } }).palletCross path blocks cycle.toNat
      else e)

/-- The quarter a copy keeps for a slot: none where its port's map did not extract the slot (R255). -/
def Copy.quarter (c : Copy) (slot : Nat) : Option Quarter :=
  if natBit c.mask.toNat (slot % 32) then some (c.slots[slot % 32]'(Nat.mod_lt _ (by decide))) else none

/-- A slot presents its stored quarter. Without one it presents what it presented before, for at most two consecutive frames,
and then zero (R257); a kept copy that lacks the slot brings it none (DEDUCED, log 251). -/
def Chain.presentSlot (n : Chain) (c : Option Copy) (s : Nat) : Chain :=
  match c.bind (·.quarter s) with
  | some q => { n with
      shown := SMap.set quarterDflt n.shown s q
      missing := SMap.set (fun _ => 0) n.missing s 0 }
  | none =>
    let k := SMap.get (fun _ => 0) n.missing s + 1
    { n with
      shown := if k ≤ 2 then n.shown else SMap.set quarterDflt n.shown s 0
      missing := SMap.set (fun _ => 0) n.missing s (min k 3) }

/-- PALLET_PRESENT for one pallet in the window of the present frame: its extracted slots, and whether the store lacked the
copy (R257). -/
def Die.presentOne (e : Die) (idx : Nat) (slots : List Nat) : Die :=
  let seq := (e.seq + 2 ^ 32 - e.fld F.CHN_PCTL_P) % 2 ^ 16
  let c := e.chn.store.find? fun c => c.idx == idx && c.seq.toNat == seq
  let e := e.updChn fun n => slots.foldl (fun n s => n.presentSlot c s) n
  if c.isNone then e.plateCount F.CHN_MISS_COUNT F.CHN_IRQ_MISS else e

/-- The chain slots of the running rate and of the stream's generation (R156). -/
def Die.slotLimit (e : Die) : Nat := 32 * e.palletCount e.fwdFrom

/-- PALLET_PRESENT for every extracted slot; one whose EXT is clear reads zero, and so has presented zero (R257). -/
def Die.present (e : Die) : Die :=
  let slots := e.mapSlots.filter fun s => e.ext s && decide (s < e.slotLimit)
  let e := e.updChn fun c => { c with
    shown := c.shown.filter fun q => e.ext q.1 && decide (q.1 < e.slotLimit)
    missing := c.missing.filter fun q => e.ext q.1 && decide (q.1 < e.slotLimit) }
  let idxs := (slots.map (· / 32)).foldl (fun l i => if l.contains i then l else l ++ [i]) []
  idxs.foldl (fun e i => e.presentOne i (slots.filter fun s => s / 32 == i)) e

/-- What source 0x1000 + i presents (R156, R257). -/
def Die.chainSource (e : Die) (i : Nat) : Quarter :=
  if e.ext i && decide (i < e.slotLimit) then SMap.get quarterDflt e.chn.shown i else 0

/-- The store keeps P + 2 frame sequences (R254). -/
def Die.storePrune (e : Die) : Die :=
  e.updChn fun c => { c with
    store := c.store.filter fun x => (e.seq + 1 + 2 ^ 32 - x.seq.toNat) % 2 ^ 16 ≤ e.fld F.CHN_PCTL_P + 1 }

/-- PLATE_LOWER at the end of a window: PLATE falls where the frame counted nothing late or missing (R257). -/
def Die.plateClose (e : Die) : Die :=
  e.updChn fun c => { c with
    plate := c.plate && c.lateNow
    lateNow := false }

/-! ### The latency P (R258, R259) -/

/-- P_ARM: accepted under the timing rule of R190, with PNEW in range and within the store; refused with PERR (R254, R259). -/
def Die.pArm (e : Die) : Die :=
  if e.bit F.CHN_PCTL_ARMED then e
  else
    let pnew := e.fld F.CHN_PCTL_PNEW
    let k := e.framesTo (e.regN R.CHN_PFRAME)
    if 2 ≤ k ∧ k < 2 ^ 31 ∧ 16 ≤ pnew ∧ pnew ≤ 512 ∧ e.mapApply.extCount * (pnew + 2) ≤ 1048576 then
      e.setFld F.CHN_PCTL_ARMED 1
    else e.setFld F.CHN_IRQ_PERR 1

/-- P_ARM (R259). -/
def execPArm (d : DieId) (s : State) : Out := .next (s.writeIn .eng d R.CHN_PCTL ((s.die d).strobe R.CHN_PCTL 26) (·.pArm))

/-- P_APPLY at FT of the named frame (R259). Where map writes since the arm have raised E, so that the change would exceed
the store, it is refused with PERR (R254). -/
def Die.pApply (e : Die) : Die :=
  let pnew := e.fld F.CHN_PCTL_PNEW
  if e.bit F.CHN_PCTL_ARMED ∧ e.regN R.CHN_PFRAME = e.seq then
    let e := e.setFld F.CHN_PCTL_ARMED 0
    if e.extCount * (pnew + 2) ≤ 1048576 then e.setFld F.CHN_PCTL_P pnew else e.setFld F.CHN_IRQ_PERR 1
  else e

/-- P without a CHAIN section, by the rate (R258). -/
def pDefault (rate : Nat) : Nat :=
  match rate with
  | 0 => 24
  | 1 => 48
  | _ => 96

/-- P and PNEW at the start (R258, R278). -/
def Die.setP (e : Die) (p : Nat) : Die := (e.setFld F.CHN_PCTL_P p).setFld F.CHN_PCTL_PNEW p

/-- The pallet digest of the present frame's pallets: CRC-32 over the 896-bit payloads of the owned pallets in ascending
index (R291). -/
def Die.palletDigest (e : Die) : Nat :=
  let owned := (List.range 384).filter fun p => e.owns e.fwdTo p && decide (p < e.palletCount e.fwdTo)
  0xFFFFFFFF - owned.foldl (fun c p =>
    (List.range 32).foldl (fun c j =>
      crc32Bits 28 c (SMap.get quarterDflt e.mor.sinks (0x1000 + 32 * p + j)).toNat) c) 0xFFFFFFFF

end Sys2Proof.Machine
end

