-- ==== Sys2Proof/Machine/Ring.lean ====
section
/-! DEFINITION. Rings: start blocks received, containers forwarded and originated, joining, election, wraps and healing
(R238, R241 to R250, R268 to R276, R335, R337). -/

namespace Sys2Proof.Machine

/-! ### A start block arrives -/

/-- The elastic buffer, the filler and the invalid sync headers of the container before (R241, R248). -/
def Die.startCounts (e : Die) (p : PortId) (filler : Nat) (before : ContainerEnd) (fill : Nat) : Die :=
  let i := p.idx
  let e := (e.setFld (F.CHNX_FILL_LAST i) filler).setFld (F.CHNX_FILL_MIN i) (min filler (e.fld (F.CHNX_FILL_MIN i)))
  let e := ((e.raise (F.CHNX_STAT_FILLLOW i) (filler < 16)).raise (F.CHNX_IRQ_FILLLOW i) (filler < 16)).count
    (F.CHNX_ERR_BADBLK i) before.bad.toNat
  let e := (e.count (F.CHNX_SLIP_TRUNC i) (b2n !before.complete)).raise (F.CHNX_IRQ_TRUNC i) !before.complete
  let slip := fill < 16 || 240 < fill
  (e.count (F.CHNX_SLIP_ESLIP i) (b2n slip)).raise (F.CHNX_IRQ_ESLIP i) slip

/-- A new master is seen: MASTERCHG and a CHAIN-class record (R269). -/
def Die.masterIs (e : Die) (p : PortId) (pos rank : Nat) : Die :=
  if e.fld F.CHN_STAT_MPOS = pos ∧ e.fld F.CHN_STAT_MRANK = rank then e
  else
    let chg := e.fld F.CHN_STAT_MPOS ≠ pos
    let e := (e.setFld F.CHN_STAT_MPOS pos).setFld F.CHN_STAT_MRANK rank
    if chg then (e.setFld (F.CHNX_IRQ_MASTERCHG p.idx) 1).logEv 2 1 pos rank p.idx else e

/-- RTT_MEASURE: arrival less ECHO, less HOLD, in units of 1/64 LTX cycle (R244). -/
def Die.rttMeasure (e : Die) (p : PortId) (h : Blocks) (arrival : Word) : Die :=
  if (e.port p).out.isNone then e
  else
    let trip := (arrival - BitVec.ofNat 32 (hdrFld h 7 32 32)).toNat * 64
    let rtt := (trip + 2 ^ 38 - hdrFld h 8 0 24) % 2 ^ 24
    (e.setFld (F.CHNX_RTT_RTT p.idx) rtt).setFld (F.CHNX_RTT_VALID p.idx) 1

/-- What every good native header brings for its cable: STAMP, TAKEN and the round trip (R242, R244, R272). -/
def Die.hopLocal (e : Die) (p : PortId) (h : Blocks) (arrival : Word) : Die :=
  if e.gen1 p then e.setFld (F.CHNX_STAT_TAKEN p.idx) 0
  else
    let e := e.rttMeasure p h arrival
    let e := e.updPort p fun x => { x with
      stampAt := arrival
      stamp := BitVec.ofNat 32 (hdrFld h 7 0 32) }
    e.setFld (F.CHNX_STAT_TAKEN p.idx) (hdrFld h 8 24 1)

/-- CHAIN_TIME_SAMPLE: the header's DELAY and its step (R335, R337). -/
def Die.delaySeen (e : Die) (h : Blocks) : Die :=
  let n := hdrFld h 3 0 48
  let e := e.setRegN R.TIM_RXDELAY (n % 2 ^ 32)
  let e := match e.chn.lastDelay with
    | some o => e.setReg R.TIM_DSTEP (BitVec.ofNat 32 n - BitVec.ofNat 32 o.toNat)
    | none => e
  e.updChn fun c => { c with lastDelay := some (BitVec.ofNat 48 n) }

/-- The sequence of the FT that lies `toFt` units of 40 ps after the start block: s + round((DELAY + t) / T) (R250). -/
def Die.seqFrom (e : Die) (h : Blocks) (toFt : Nat) : Nat :=
  let t := 25000000000
  (hdrFld h 0 0 32 + (2 * (hdrFld h 3 0 48 + toFt) * e.rateHz + t) / (2 * t)) % 2 ^ 32

/-- SEQ_MISMATCH: a joined die that computes another sequence than its own for 16 containers in a row (R250). -/
def Die.seqCheck (e : Die) (p : PortId) (seq : Nat) : Die :=
  let e := e.updChn fun c => { c with computed := some (BitVec.ofNat 32 seq) }
  if e.fld F.CHN_STAT_JOIN ≠ 2 ∨ seq = (e.seq + 1) % 2 ^ 32 then e.updChn fun c => { c with mismatch := 0 }
  else
    let e := e.updChn fun c => { c with mismatch := c.mismatch + 1 }
    if e.chn.mismatch = 16 then e.setFld (F.CHNX_IRQ_SEQMIS p.idx) 1 else e

/-- A claim is better: a lower MRANK, then the lower position (R269). -/
def claimLess (r1 p1 r2 p2 : Nat) : Bool := decide (r1 < r2 ∨ (r1 = r2 ∧ p1 < p2))

/-- Master yield or consumption: what a master does with a start block on its forward input. One with a better claim ends
its mastership; the container it is sending goes on to its end (R269). -/
def Die.masterTakes (e : Die) (p : PortId) (h : Blocks) : Die :=
  let pos := hdrFld h 4 0 9
  let rank := hdrFld h 4 9 8
  let e := e.updChn fun c => { c with returned := BitVec.ofNat 16 (hdrFld h 5 0 16) }
  if claimLess rank pos (e.fld F.CHN_CTRL_MRANK) (e.fld F.CHN_CTRL_POSID) then
    ((e.setFld F.CHN_STAT_ELECT 0).masterIs p pos rank).refSelect
  else e

/-- A good header on the forward input of a die that is not master (R250, R268, R269, R317). -/
def Die.forwardTakes (e : Die) (p : PortId) (h : Blocks) (toFt : Nat) : Die :=
  let e := if e.fld F.CHN_STAT_JOIN = 0 then e.setFld F.CHN_STAT_JOIN 1 else e
  let e := e.masterIs p (hdrFld h 4 0 9) (hdrFld h 4 9 8)
  let e := if hdrFld h 4 0 9 = e.fld F.CHN_CTRL_POSID then e.dupEnter p else e
  let e := if e.rateAgrees h then e else (e.setFld (F.CHNX_IRQ_RATEMIS p.idx) 1).refDisqualify 3 2
  (e.delaySeen h).seqCheck p (e.seqFrom h toFt)

/-- What has made a port lost is over, unless another cause stands (R270). -/
def Die.settleLost (e : Die) (p : PortId) : Die :=
  let i := p.idx
  let stands := e.bit (F.CHNX_STAT_LOS i) || e.bit (F.CHNX_STAT_MODABS i) || e.bit (F.CHNX_STAT_TXFLT i)
    || e.bit (F.CHNX_STAT_HIBER i) || !e.bit (F.CHNX_STAT_LOCK i) || (e.port p).silent
  if stands then e else e.setFld (F.CHNX_STAT_LOST i) 0

/-- A wrap forms or heals at a port: WRAPCHG and a CHAIN-class record (R269, R277, R432). -/
def Die.wrapNote (e : Die) (p : PortId) (formed : Bool) : Die :=
  (e.setFld (F.CHNX_IRQ_WRAPCHG p.idx) 1).logEv 2 3 p.idx (b2n formed)

/-- FAR_SWITCH: a far wrap point whose lost port has received 256 good containers takes its forward input from it, from the
start block that comes now (R272). -/
def Die.farSwitch (e : Die) : Die :=
  let p := e.fwdIn
  if e.wrapFar && 256 ≤ (e.port p).good then ((e.setFld F.CHN_STAT_WRAPFAR 0).settleLost p).wrapNote p false
  else e

/-- The blocks sent on a port, and the freed count last received for them, start from zero. -/
def Die.zeroSent (e : Die) (p : PortId) : Die := (List.range 4).foldl (fun e l => e.setReg (R.CHNX_LANE p.idx l) 0) e

/-- The blocks freed of the loads that arrive on a port count from zero. -/
def Die.zeroFreed (e : Die) (p : PortId) : Die := e.updPort p fun x => { x with freed := Vector.replicate 4 0 }

/-- A lost port wraps, unless NOWRAP keeps it from that (R270). -/
def Die.mayWrap (e : Die) (p : PortId) : Bool := e.bit (F.CHNX_STAT_LOST p.idx) && !e.bit (F.CHNX_CTRL_NOWRAP p.idx)

/-- A die whose forward in is lost takes its forward input from reverse in, from the start block that comes there now; the
counts of the loads across the wrap start from zero (R270, R271). -/
def Die.farWrap (e : Die) : Die :=
  if e.mayWrap e.fwdIn && !e.wrapFar then ((e.setFld F.CHN_STAT_WRAPFAR 1).zeroFreed e.fwdOut).wrapNote e.fwdIn true else e

/-- The wraps as a start block on a port finds them (R270, R272). -/
def Die.wrapTake (e : Die) (p : PortId) : Die := if p = e.fwdIn then e.farSwitch else e.farWrap

/-- The near wrap point hears on its healed port that the far wrap point has switched (R272, R276). -/
def Die.nearHear (e : Die) (p : PortId) : Die :=
  let stop := if e.gen1 p then decide (512 ≤ (e.port p).goodReturn) else e.bit (F.CHNX_STAT_TAKEN p.idx)
  if p == e.fwdOut && e.wrapNear && e.chn.healing && stop then e.updChn fun c => { c with stopNext := true } else e

/-- The part of a start block with a good header that ENG has (R242, R250, R269). -/
def Die.startEng (e : Die) (p : PortId) (fwd : Bool) (h : Blocks) (toFt : Nat) : Die :=
  let e := e.setFld F.CHN_ALARM_RING (hdrFld h 5 16 16)
  if fwd then
    let e := e.updChn fun c => { c with fwdGood := some h }
    if e.isMaster then e.masterTakes p h else e.forwardTakes p h toFt
  else e

/-- The same at the crossing into ENG: while ENG stands still it is held (R26). A die in NOIMAGE or HOLD, whose ENG does not
start, is in SYNC while it forwards (R420). -/
def Die.startCross (e : Die) (p : PortId) (fwd : Bool) (h : Blocks) (toFt : Nat) : Die :=
  if e.runs .eng then e.startEng p fwd h toFt
  else if e.idles then (if fwd then e.setFld F.CHN_STAT_JOIN 1 else e)
  else e.updChn fun c => { c with waiting := c.waiting ++ [.start p fwd h toFt] }

/-- ENG runs again: what it has not yet taken comes in order (R26). -/
def Die.chainWaiting (e : Die) : Die :=
  e.chn.waiting.foldl (fun e r => match r with
    | .start p fwd h toFt => e.startEng p fwd h toFt
    | .pallet path b cycle => e.palletReceive path b cycle
    | .note payload => e.noteLoad payload) (e.updChn fun c => { c with waiting := [] })

/-- A start block has come on the forward input, whatever its header: nothing is silent, and a die that waits to originate
waits no longer (R269). -/
def Die.fwdHeard (e : Die) : Die :=
  let e := e.updChn fun c => { c with quiet := 0 }
  if e.fld F.CHN_STAT_ELECT = 1 then e.setFld F.CHN_STAT_ELECT 0 else e

/-! ### The header of a stream that leaves -/

/-- TAKEN in the stream sent back along the cable of a port (R272). -/
def Die.takenFor (e : Die) (p : PortId) : Bool :=
  p == e.fwdFrom && (e.isMaster || e.wrapNear || e.bit (F.CHNX_STAT_TAKEN e.fwdOut.idx))

/-- CRED of a stream that leaves on a port: the blocks freed of the loads that arrive there (R243, R263). -/
def Die.credOf (e : Die) (p : PortId) : Nat :=
  if p == e.fwdFrom then (List.range 4).foldl (fun n l => n + ((e.port p).freed.getD l 0).toNat * 2 ^ (16 * l)) 0 else 0

/-- The hop-local blocks of a header that leaves on a port at an LTX cycle (R242, R243, R271). H7 to H9 of a Gen-1 header are
zero (R274); that it keeps CRED in H6 is DEDUCED (log 73). -/
def Die.hopOut (e : Die) (p : PortId) (ltx : Word) (forward : Bool) (h : Blocks) : Blocks :=
  if e.gen1 p then
    hdrSeal (hdrSet (hdrSet (hdrSet (hdrSet h 7 0 64 0) 8 0 64 0) 9 0 64 0) 6 0 64 (e.credOf p))
  else
    let x := e.port p
    let h := hdrSet h 6 0 64 (e.credOf p)
    let h := hdrSet (hdrSet h 7 0 32 ltx.toNat) 7 32 32 x.stamp.toNat
    let h := hdrSet (hdrSet h 8 0 24 ((ltx - x.stampAt).toNat * 64)) 8 24 1 (b2n (e.takenFor p))
    let h := if forward && e.wrapFar then
        hdrSet h 9 0 64 ((List.range 4).foldl (fun n l => n + ((e.port e.fwdOut).freed.getD l 0).toNat * 2 ^ (16 * l)) 0)
      else h
    hdrSeal h

/-- LTX cycles from a start block's arrival to its launch (R248, R274). -/
def Die.hopCycles (e : Die) (p : PortId) : Nat := if e.gen1 p then 320 else 128

/-- The header with the changes of a hop from a port; HOPS only where the die forwards (R249). -/
def Die.hopHeader (e : Die) (p : PortId) (h : Blocks) (forward : Bool) : Blocks :=
  let h := hdrSet h 3 0 48 (hdrFld h 3 0 48 + 64 * e.hopCycles p + e.fld (F.CHNX_CABLE_DELAY p.idx))
  let h := if forward then hdrSet h 4 17 9 (hdrFld h 4 17 9 + 1) else h
  hdrSet h 5 0 16 (hdrFld h 5 0 16 ||| e.alarms)

/-- The container a port sends: its start block's byte and its header. -/
def Die.setOut (e : Die) (p : PortId) (b : Byte) (h : Blocks) : Die :=
  e.updPort p fun x => { x with
    out := if e.sends p then some h else none
    startOut := b }

/-- The return stream on a port: H0 to H5 of the forward header, and the die's own hop-local blocks (R243). -/
def Die.sendReturn (e : Die) (p : PortId) (fwd : Blocks) (ltx : Word) : Die :=
  let h : Blocks := Vector.ofFn fun (i : Fin 15) => if i.val < 6 then fwd[i] else 0
  e.setOut p (e.startByte p true) (e.hopOut p ltx false h)

/-- The forward stream on a port; one in RISING sends the return stream (R238, R249). -/
def Die.sendForward (e : Die) (p : PortId) (h : Blocks) (ltx : Word) (fresh : Bool) : Die :=
  if e.carries p then e.setOut p (e.startByte p false) (if fresh then e.hopOut p ltx true h else hdrSeal h)
  else e.sendReturn p h ltx

/-! ### START_BLOCK_RECEIVE -/

/-- A start block without RETURN on reverse in: the die repeats that stream on reverse out, from the launch of this container,
and puts nothing into it. A port that carries no forward stream goes on with its return stream (R238, R249, R270). -/
def Die.repeatOut (e : Die) : Die :=
  let e := e.updChn fun c => { c with repeating := true }
  let p := e.fwdIn
  let q := e.port e.fwdOut
  match q.hdr with
  | none => e
  | some h =>
    if !e.carries p then e
    else
      let at_ := q.arrival + BitVec.ofNat 32 (e.hopCycles e.fwdOut)
      e.setOut p (e.startByte p false)
        (if q.hdrGood then e.hopOut p at_ false (e.hopHeader e.fwdOut h false) else hdrSeal h)

/-- START_BLOCK_RECEIVE on a port: `arrival` in LTX cycles, `toFt` from the arrival to the coming FT in units of 40 ps, the
filler and the end of the container before, and the fill of the elastic buffer (R241 to R250, R268 to R272, R276, R335). -/
def Die.startBlock (e : Die) (p : PortId) (sb : Byte) (h : Blocks) (arrival : Word) (toFt filler : Nat) (before : ContainerEnd)
    (fill : Nat) : Die :=
  if e.portState p = St.off then e
  else
    let e := e.wrapTake p
    let ret := startReturn sb
    let fwd := p == e.fwdFrom && !ret
    let e := if (e.port p).silent then (e.updPort p fun x => { x with silent := false }).settleLost p else e
    let e := (e.startCounts p filler before fill).updPort p fun x => { x with
      hdr := some h
      hdrGood := hdrGood h
      startIn := sb
      arrival := arrival }
    let e := if fwd then e.fwdHeard else e
    let e := if !ret && p == e.fwdOut && !e.wrapFar && !e.wrapNear then e.repeatOut else e
    if !hdrGood h then
      (e.count (F.CHNX_ERR_HCRC p.idx) 1).updPort p fun x => { x with
        good := 0
        goodReturn := 0 }
    else
      let cur := hdrFld h 4 0 9 = e.fld F.CHN_STAT_MPOS
      let e := e.updPort p fun x => { x with
        good := if !ret && cur then x.good + 1 else 0
        goodReturn := if ret then x.goodReturn + 1 else 0 }
      let e := (e.hopLocal p h arrival).nearHear p
      let e := if fwd && !e.isMaster then e.chainSample p h else e
      e.startCross p fwd h toFt

/-- START_BLOCK_RECEIVE (R248). -/
def execStartBlockReceive (d : DieId) (p : PortId) (startByte : Byte) (hdr : Blocks) (arrival : Word) (toFt : BitVec 48)
    (filler : BitVec 16) (before : ContainerEnd) (fill : BitVec 9) (s : State) : Out :=
  .next (s.updIn (rxDom p) d (·.startBlock p startByte hdr arrival toFt.toNat filler.toNat before fill.toNat))

/-! ### A container leaves -/

/-- The stream on reverse out as a container leaves forward out: the return stream, unless the die repeats a stream there
(R243, R270). -/
def Die.reverseOut (e : Die) (fwd : Blocks) (ltx : Word) : Die :=
  if e.chn.repeating && e.carries e.fwdIn then e else e.sendReturn e.fwdIn fwd ltx

/-- NEAR_STOP and GEN1_NEAR_STOP: at its next container a near wrap point that has heard that the far one has switched stops
sending on reverse out (R272, R276). -/
def Die.nearStop (e : Die) : Die :=
  let p := e.fwdOut
  if e.wrapNear && e.chn.stopNext then
    (((e.setFld F.CHN_STAT_WRAPNEAR 0).settleLost p).updChn fun c => { c with
      healing := false
      stopNext := false }).wrapNote p false
  else e

/-- A die whose forward out is lost sends its forward stream on reverse out, from the start block that leaves now; the counts
of the loads across the wrap start from zero (R270, R271). -/
def Die.nearWrap (e : Die) : Die :=
  if e.mayWrap e.fwdOut && !e.wrapNear then
    (((e.setFld F.CHN_STAT_WRAPNEAR 1).zeroSent e.fwdIn).updChn fun c => { c with
      healing := false
      stopNext := false
      repeating := false }).wrapNote e.fwdOut true
  else e

/-- The wraps as a start block that leaves finds them (R270, R272). -/
def Die.wrapSend (e : Die) : Die := e.nearStop.nearWrap

/-- The die still sends a container it originated: its tail is not yet out at an LTX cycle (R240, R269). -/
def Die.ownGoesOn (e : Die) (ltx : Word) : Bool :=
  let blocks := e.fixedBlocks e.fwdTo
  e.chn.originating && decide ((ltx - e.chn.launched).toNat < if e.gen1 e.fwdTo then blocks * 5 / 2 else blocks)

/-- A container starts: its header on forward out, on both ports where a near wrap point heals, and the stream on reverse
out. What was left of the container before is dropped (R241, R243, R270, R272). -/
def Die.launch (e : Die) (h : Blocks) (ltx : Word) (fresh : Bool) : Die :=
  let e := e.dropSending.updChn fun c => { c with
    pallets := []
    errors := []
    launched := ltx
    wrapBlocks := 0
    grace := false
    lastBlock := none }
  if e.wrapNear then
    let e := e.sendForward e.fwdIn h ltx fresh
    if e.chn.healing then e.sendForward e.fwdOut h ltx fresh else e.updPort e.fwdOut fun x => { x with out := none }
  else (e.sendForward e.fwdOut h ltx fresh).reverseOut h ltx

/-- CONTAINER_FORWARD: the container of the last start block leaves with its header updated; a header whose check failed
leaves as it came, with a check of its own (R242, R248, R249). Each block of `bad` has an invalid sync header and leaves as
the error idle block (R241). A die that has yielded forwards from the end of its own last container on (R269). -/
def Die.containerForward (e : Die) (bad : List (BitVec 13)) : Die :=
  let p := e.fwdFrom
  let x := e.port p
  match x.hdr with
  | none => e
  | some h =>
    let ltx := x.arrival + BitVec.ofNat 32 (e.hopCycles p)
    if e.isMaster ∨ startReturn x.startIn ∨ e.ownGoesOn ltx then e
    else
      let e := e.wrapSend.updChn fun c => { c with originating := false }
      (if x.hdrGood then e.launch (e.hopHeader p h true) ltx true else e.launch h ltx false).updChn fun c => { c with
        errors := bad }

/-- CONTAINER_FORWARD (R248). -/
def execContainerForward (d : DieId) (bad : List (BitVec 13)) (s : State) : Out := .next (s.updIn .ltx d (·.containerForward bad))

/-- The header a master originates: TIME is that of the FT of its frame (R242, R247, R335). -/
def Die.originHeader (e : Die) (seed : Nat) : Blocks :=
  let g := e.gen1 e.fwdTo
  let h : Blocks := Vector.replicate 15 0
  let h := hdrSet (hdrSet (hdrSet h 0 56 8 (if g then 1 else 2)) 0 55 1 (b2n (e.id == .b))) 0 53 2 (e.fld F.ENG_RATE_RATE)
  let h := hdrSet (hdrSet h 0 52 1 (e.fld F.ENG_RATE_FAM)) 0 0 32 e.seq
  let h := hdrSet (hdrSet h 1 0 48 e.chn.ftSec.toNat) 2 0 32 e.chn.ftNs.toNat
  let h := hdrSet h 3 0 48 seed
  let h := hdrSet (hdrSet h 4 0 9 (e.fld F.CHN_CTRL_POSID)) 4 9 8 (e.fld F.CHN_CTRL_MRANK)
  hdrSet (hdrSet h 5 0 16 e.alarms) 5 16 16 e.chn.returned.toNat

/-- CONTAINER_ORIGINATE: the master launches the container of its frame, with the copies it holds, each once, and EMPTY
pallets for the rest; it is JOINED from its first (R247, R250, R253). -/
def Die.originate (e : Die) (seed : Nat) (ltx : Word) : Die :=
  if !e.isMaster then e
  else
    let e := e.wrapSend
    let g := e.gen1 e.fwdTo
    let e := (e.setFld F.CHN_STAT_JOIN 2).launch (e.originHeader seed) ltx true
    let n := e.palletCount e.fwdTo
    let empty (i : Nat) : Blocks := palBuild g (e.fld F.CHN_CTRL_POSID) i e.seq (e.id == .b) true false (fun _ => 0)
    let ps := (List.range n).map fun i => (i, SMap.get empty e.chn.held i)
    e.updChn fun c => { c with
      originating := true
      pallets := ps
      held := [] }

/-- CONTAINER_ORIGINATE (R247). -/
def execContainerOriginate (d : DieId) (seed : BitVec 48) (ltx : Word) (s : State) : Out :=
  .next (s.updIn .eng d (·.originate seed.toNat ltx))

/-! ### Joining and election -/

/-- DETACH: the forward input has had no good start block for 3 frame periods (R250); input 3 cannot stay qualified (R317). -/
def Die.detach (e : Die) : Die :=
  if e.isMaster then e
  else ((e.setFld F.CHN_STAT_JOIN 0).updChn fun c => { c with
    computed := none
    fwdGood := none
    mismatch := 0 }).refDisqualify 3 1

/-- DETACH (R250). -/
def execDetach (d : DieId) (s : State) : Out := .next (s.updIn .eng d (·.detach))

/-- RESEQ: the computed chain sequence is adopted at the next FT (R250). -/
def Die.reseq (e : Die) : Die := e.updChn fun c => { c with adopt := true }

/-- RESEQ_WRITE (R250). -/
def execReseqWrite (d : DieId) (s : State) : Out :=
  .next (s.writeIn .eng d R.CHN_CTRL ((s.die d).strobe R.CHN_CTRL 19) (·.reseq))

/-- A write of CHN_CTRL: POSID changes, and DUPPOS clears, only while both ports are OFF (R268, R278). -/
def Die.chnCtrl (e : Die) (v : Word) : Die :=
  let n := v.toNat
  let off := e.portsOff
  let e := (((e.setFld F.CHN_CTRL_MCAP (bitsOf n 9 1)).setFld F.CHN_CTRL_MRANK (bitsOf n 10 8)).setFld F.CHN_CTRL_INS_EN
    (bitsOf n 18 1)).setFld F.CHN_CTRL_MFORCE (bitsOf n 20 1)
  let e := if natBit n 19 then e.reseq else e
  if off then (e.setFld F.CHN_CTRL_POSID n).updChn fun c => { c with dupPos := false } else e

/-- CHN_CTRL_WRITE (R268). -/
def execChnCtrlWrite (d : DieId) (v : Word) (s : State) : Out := .next (s.writeIn .eng d R.CHN_CTRL v (·.chnCtrl v))

/-- An eligible die that is not master, and that has seen no start block on its forward input for 8 of its frames and
2 × MRANK more (R269); on a Gen-1 ring only with MFORCE (R274). -/
def Die.mayElect (e : Die) : Bool :=
  !e.isMaster && e.bit F.CHN_CTRL_MCAP && (!e.gen1 e.fwdTo || e.bit F.CHN_CTRL_MFORCE)
    && decide (8 + 2 * e.fld F.CHN_CTRL_MRANK ≤ e.chn.quiet)

/-- ELECTION_TIMEOUT: an eligible die that has waited in vain becomes master (R269). -/
def Die.electionTimeout (e : Die) : Die :=
  if !e.mayElect then e
  else
    let e := (e.setFld F.CHN_STAT_ELECT 2).updChn fun c => { c with electLeft := 64 }
    (e.masterIs e.fwdFrom (e.fld F.CHN_CTRL_POSID) (e.fld F.CHN_CTRL_MRANK)).refSelect

/-- ELECTION_TIMEOUT (R269). -/
def execElectionTimeout (d : DieId) (s : State) : Out := .next (s.updIn .eng d (·.electionTimeout))

/-- A frame without a start block on the forward input; after 8 of them an eligible die waits (R269). -/
def Die.quietFt (e : Die) : Die :=
  let e := e.updChn fun c => { c with
    quiet := c.quiet + 1
    electLeft := c.electLeft - 1 }
  if 8 ≤ e.chn.quiet ∧ e.bit F.CHN_CTRL_MCAP ∧ e.fld F.CHN_STAT_ELECT = 0 then e.setFld F.CHN_STAT_ELECT 1 else e

/-- SEQ_ADOPT at FT: from SYNC to JOINED when input 3 is qualified, REF locks and the rate agrees, or on RESEQ; the die
takes the sequence computed for this FT, but a die in JOIN or FOLLOW keeps the lead's (R250, R283). Until another good header
arrives, the sequence computed from the last one is one higher at each FT. -/
def Die.seqAdoptFt (e : Die) : Die :=
  let join := e.fld F.CHN_STAT_JOIN = 1 ∧ e.qual 3 ∧ e.refState = RefSt.lock ∧ e.fwdHeader.isSome ∧ !e.rateMis
  let e1 := if join then e.setFld F.CHN_STAT_JOIN 2 else e
  let take := join ∨ e.chn.adopt
  let e1 := e1.updChn fun c => { c with
    adopt := false
    computed := c.computed.map (· + 1) }
  match e.chn.computed with
  | some q => if take ∧ !e.refFollows then e1.setReg R.ENG_SEQ q else e1
  | none => e1

/-! ### Wraps -/

/-- The receiver's clock stops with the cable, and runs again once blocks are locked (R26). -/
def Die.rxClock (e : Die) (p : PortId) (run : Bool) : Die := e.clock (rxDom p) run

/-- What a module or receiver reports of a loss (R270, R277). -/
def Die.lossBits (e : Die) (p : PortId) : LossCause → Die
  | .los => (e.setFld (F.CHNX_STAT_LOS p.idx) 1).rxClock p false
  | .modabs => (e.setFld (F.CHNX_STAT_MODABS p.idx) 1).rxClock p false
  | .txflt => e.setFld (F.CHNX_STAT_TXFLT p.idx) 1
  | .hiber => e.setFld (F.CHNX_STAT_HIBER p.idx) 1
  | .noStart => e.updPort p fun x => { x with silent := true }
  | .blockLock =>
    if e.bit (F.CHNX_STAT_LOCK p.idx) then (e.setFld (F.CHNX_STAT_LOCK p.idx) 0).setFld (F.CHNX_IRQ_LOCKCHG p.idx) 1 else e

/-- CHN_x_STAT.TXF. -/
def Die.txf (e : Die) (p : PortId) : Nat :=
  let x := e.port p
  if x.out.isNone || !e.sends p then 0
  else if startReturn x.startOut then 2
  else if p == e.fwdIn && !e.wrapNear then 3
  else 1

/-- CHN_x_STAT.RXF. -/
def Die.rxf (e : Die) (p : PortId) : Nat :=
  let x := e.port p
  if x.hdr.isNone || e.bit (F.CHNX_STAT_LOST p.idx) then 0
  else if p == e.fwdFrom && !startReturn x.startIn then (if e.wrapFar then 3 else 1)
  else if startReturn x.startIn then 2 else 3

/-- CHN_x_STAT as it stands: TXF and RXF are computed (R432). -/
def Die.chnxStat (e : Die) (p : PortId) : Nat := insBits (insBits (e.regN (R.CHNX_STAT p.idx)) 6 2 (e.txf p)) 8 2 (e.rxf p)

/-- PORT_LOST: the loss is reported. A port that is OFF receives nothing and is not lost, but shows its module's inputs. The
die wraps from the next start block it sends or takes (R237, R238, R270). -/
def Die.portLost (e : Die) (p : PortId) (cause : LossCause) : Die :=
  if e.portState p = St.off then
    match cause with
    | .los | .modabs | .txflt => e.lossBits p cause
    | _ => e
  else
    let was := e.bit (F.CHNX_STAT_LOST p.idx)
    let e := (e.lossBits p cause).updPort p fun x => { x with
      good := 0
      goodReturn := 0 }
    let e := if was then e
      else
        let e := (e.setFld (F.CHNX_STAT_LOST p.idx) 1).setFld (F.CHNX_IRQ_LOST p.idx) 1
        let e := e.logEv 2 2 p.idx (e.chnxStat p)
        e.healthNote fun h => { h with chlost := h.chlost + 1 }
    if p = e.fwdOut ∧ e.wrapNear then e.updChn fun c => { c with
      healing := false
      stopNext := false } else e

/-- PORT_LOST (R270). -/
def execPortLost (d : DieId) (p : PortId) (cause : LossCause) (s : State) : Out := .next (s.updIn .ltx d (·.portLost p cause))

/-- REPEAT_END: the die resumes its return stream (R270). -/
def execRepeatEnd (d : DieId) (s : State) : Out :=
  .next (s.updIn .ltx d (·.updChn fun c => { c with repeating := false }))

/-- NEAR_HEAL: the lost port of a near wrap point has block lock again, and the stream leaves on both ports (R272). -/
def Die.nearHeal (e : Die) (p : PortId) : Die :=
  if e.wrapNear && p == e.fwdOut && e.bit (F.CHNX_STAT_LOCK p.idx) then e.updChn fun c => { c with healing := true } else e

/-- NEAR_HEAL (R272). -/
def execNearHeal (d : DieId) (p : PortId) (s : State) : Out := .next (s.updIn .ltx d (·.nearHeal p))

/-- The module's inputs as they stand: bit 0 LOS, bit 1 MODABS, bit 2 TXFLT (R237). -/
def Die.modulePins (e : Die) (p : PortId) (pins : Nat) : Die :=
  ((e.setFld (F.CHNX_STAT_LOS p.idx) (bitsOf pins 0 1)).setFld (F.CHNX_STAT_MODABS p.idx) (bitsOf pins 1 1)).setFld
    (F.CHNX_STAT_TXFLT p.idx) (bitsOf pins 2 1)

/-- BLOCK_LOCK_GAINED: the receiver has block lock, or hi-ber is over, with the module's inputs as they then stand; unless
one of them holds it, the port is lost no longer. A wrap it caused stands until it heals. Without a module or light there is
nothing to lock to: then only the inputs have moved (R236, R237, R270, R272, R277; log 77). -/
def Die.lockGained (e : Die) (p : PortId) (pins : Nat) : Die :=
  let i := p.idx
  let e := e.modulePins p pins
  if e.portState p = St.off then e
  else if natBit pins 0 || natBit pins 1 then
    e.portLost p (if natBit pins 0 then .los else .modabs)
  else
    let e := if e.bit (F.CHNX_STAT_LOCK i) then e else (e.setFld (F.CHNX_STAT_LOCK i) 1).setFld (F.CHNX_IRQ_LOCKCHG i) 1
    let e := (e.setFld (F.CHNX_STAT_HIBER i) 0).setFld (F.CHNX_STAT_LOST i) (b2n (pins % 8 != 0))
    (e.rxClock p true).updPort p fun x => { x with silent := false }

/-- BLOCK_LOCK_GAINED (R236). -/
def execBlockLockGained (d : DieId) (x : LockGain) (s : State) : Out := .next (s.updIn .ltx d (·.lockGained x.port x.pins.toNat))

/-- FILL_RESTART (R277). -/
def Die.fillRestart (e : Die) (p : PortId) : Die := e.setFld (F.CHNX_FILL_MIN p.idx) 0xFFFF

/-- FILL_RESTART (R277). -/
def execFillRestart (d : DieId) (p : PortId) (s : State) : Out :=
  .next (s.writeIn .ltx d (R.CHNX_CTRL p.idx) ((s.die d).strobe (R.CHNX_CTRL p.idx) 5) (·.fillRestart p))

/-! ### A port's states -/

/-- A port enters RISING: its send and freed counters are zero (R238). -/
def Die.portRise (e : Die) (p : PortId) : Die := (e.zeroSent p).zeroFreed p

/-- A port enters OFF: nothing is received, and what it received last is gone. LOCK clears, and its module's inputs are still
read (R237, R238, R277). -/
def Die.portOff (e : Die) (p : PortId) : Die :=
  let e := e.updPort p fun x => { x with
    hdr := none
    hdrGood := false
    out := none
    good := 0
    goodReturn := 0
    silent := false }
  let e := e.raise (F.CHNX_IRQ_LOCKCHG p.idx) (e.bit (F.CHNX_STAT_LOCK p.idx))
  let e := { e with chn := { e.chn with queue := e.chn.queue.filter fun q => q.port != p } }
  let e := e.setReg (R.CHNX_STAT p.idx) (e.reg (R.CHNX_STAT p.idx) &&& 0x81C)
  if p = e.fwdOut then e.updChn fun c => { c with
    healing := false
    stopNext := false
    repeating := false } else e

/-! ### What is computed at a read (R277, R278) -/

/-- What CHN registers compute at a read. -/
def Die.chainRead (e : Die) (a : Nat) : Option Nat :=
  let port (p : PortId) : Option Nat :=
    if a = R.CHNX_STAT p.idx then some (e.chnxStat p)
    else if a = R.CHNX_MAPDATA p.idx then
      some (SMap.get (fun _ => (0 : BitVec 2)) (e.port p).map (e.fld (F.CHNX_MAPIDX_SLOT p.idx))).toNat
    else none
  if a = R.CHN_ALARM then some (insBits (e.regN a) 16 16 e.alarms)
  else if a = R.CHN_STORE then some e.extCount
  else match port .n with
    | some v => some v
    | none => port .s

end Sys2Proof.Machine
end

