-- ==== Sys2Proof/Machine/Pair.lean ====
section
/-! DEFINITION. The pair manager: roles, the party wall, heartbeats and their judgement, health reports, the fence and DOWN,
taking lead and handing over (R279 to R304, R309 to R312, R326 to R328). -/

namespace Sys2Proof.Machine

/-- Change the pair manager. -/
def Die.updPair (e : Die) (f : Pair → Pair) : Die := { e with pair := f e.pair }

/-- Split mode, from the image (R281, R312). -/
def Die.split (e : Die) : Bool := e.bit F.PAIR_STAT_MODE

/-- Give the die a role. -/
def Die.setRole (e : Die) (r : Nat) : Die := e.setFld F.PAIR_STAT_ROLE r

/-- The die drives its joined balls: nothing drives through a fence, or through the gate of a freeze (R280, R298, R448). -/
def Die.balls (e : Die) : Bool := e.pair.driving && !e.bit F.PAIR_FENCE_FIN && !e.frz.gate

/-- Level of a GPIO ball: a driven push-pull output shows OUT, a driven open-drain output that pulls low shows 0, any other ball
shows what stands on it (R400). Joined outputs are driven only in the roles of R280, and none with VIO33 off (R471). -/
def Die.gpioLevel (e : Die) (i : Nat) : Bool :=
  let out := e.bitAt F.MISC_GPIO_OUT_PIN i
  if e.railOk .vio33 && e.balls && e.bitAt F.MISC_GPIO_DIR_OE i then
    if e.bitAt F.MISC_GPIO_DIR_OD i then out && e.misc.balls.getLsbD i else out
  else e.misc.balls.getLsbD i

/-- Bits of a list of Booleans, least significant first. -/
def ofBits : List Bool → Nat
  | [] => 0
  | b :: bs => b2n b + 2 * ofBits bs

/-- The levels of the 16 GPIO balls. -/
def Die.gpioPins (e : Die) : Nat := ofBits ((List.range 16).map e.gpioLevel)

/-- The pins that have an enabled edge between two readings of the balls (R400). -/
def Die.gpioEdges (e : Die) (old new : Nat) : Nat :=
  ofBits ((List.range 16).map fun i =>
    (!natBit old i && natBit new i && e.bitAt F.MISC_GPIO_EDGE_RISE i) ||
      (natBit old i && !natBit new i && e.bitAt F.MISC_GPIO_EDGE_FALL i))

/-- The enabled edges between two readings of the balls set their pins' bits (R400). -/
def Die.gpioNote (e : Die) (old new : Nat) : Die :=
  e.setFld F.MISC_GPIO_IRQ_PIN (e.fld F.MISC_GPIO_IRQ_PIN ||| e.gpioEdges old new)

/-- A change that may move GPIO balls: the enabled edges it makes set their pins' bits (R400). While CTL stands still nothing
samples the balls, and what CTL sampled last is held (R26). -/
def Die.gpioMove (e : Die) (f : Die → Die) : Die :=
  let t := f e
  if e.runs .ctl then t.gpioNote e.gpioPins t.gpioPins
  else { t with misc := { t.misc with stood := some (e.misc.stood.getD (BitVec.ofNat 16 e.gpioPins)) } }

/-- CTL runs again after a change, and samples the balls: they may have moved since it stopped (R26, R400). -/
def Die.gpioBack (e : Die) (f : Die → Die) : Die :=
  let old := (e.misc.stood.map (·.toNat)).getD e.gpioPins
  let t := f e
  ({ t with misc := { t.misc with stood := none } } : Die).gpioNote old t.gpioPins

/-- The joined balls are driven, or at high impedance (R280). -/
def Die.drive (e : Die) (b : Bool) : Die := e.gpioMove (·.updPair fun p => { p with driving := b })

/-! ### The party wall -/

/-- PW_BLOCK_DROP at the die that receives: a block of a class fails its check, and what it belongs to does not arrive
(R285). -/
def Die.blockDrop (e : Die) (c : PwClass) : Die :=
  (e.count F.PAIR_LOST_COUNT 1).updPair fun p => { p with lossy := c :: p.lossy }

/-- PW_BLOCK_DROP (R285). A link that is down carries no block. -/
def execPwBlockDrop (x : PwLoss) (s : State) : Out :=
  .next (if s.linked then s.upd x.die (·.blockDrop x.cls) else s)

/-- PALLET_PASS: a pallet of the forward input is on its way to the partner (R288). -/
def execPalletPass (d : DieId) (blocks : Blocks) (s : State) : Out :=
  .next (s.wall d.other .pallet (·.updPair fun p => { p with passed := p.passed ++ [blocks] }))

/-! ### Heartbeats (R291 to R293) -/

/-- At FT, what the heartbeat of the frame that ends will carry: digests, swap slots, and the FT stamp. The pallets are those
the die owns in the frame that begins (R251, R291). -/
def Die.beatClose (e : Die) (stamp : BitVec 48) : Die :=
  e.updPair fun p => { p with
    digests := (e.seq, e.reg R.MOR_DIGEST, BitVec.ofNat 32 e.mapApply.palletDigest) :: p.digests.take 2
    endSlots := e.ownSlots
    ftStamp := stamp
    fts := ((e.seq + 1) % 2 ^ 32, stamp) :: p.fts.take 2 }

/-- A slot as HB4 to HB7 carry it. -/
def slotBlock (l : LeadSlot) : Block :=
  BitVec.ofNat 64 (b2n l.armed * 2 ^ 63 + l.mask.toNat * 2 ^ 32 + l.frame.toNat)

/-- HB0 to HB7 of a heartbeat (R291). -/
def Heartbeat.blocks (h : Heartbeat) : List Block :=
  [BitVec.ofNat 64 (h.kind.toNat * 2 ^ 56 + h.role.toNat * 2 ^ 53 + b2n (h.die == .b) * 2 ^ 52 + b2n h.hoReq * 2 ^ 51
     + h.seq.toNat),
   BitVec.ofNat 64 (h.mdig.toNat * 2 ^ 32 + h.pdig.toNat),
   BitVec.ofNat 64 h.ftStamp.toNat,
   BitVec.ofNat 64 ((List.finRange 4).foldl (fun n (l : Fin 4) => n + h.txTail[l].toNat * 2 ^ (12 * l.val)) 0
     + h.hoFrame.toNat % 2 ^ 16 * 2 ^ 48)]
  ++ h.slots.toList.map slotBlock

/-- HCRC of a heartbeat's fields (R291). -/
def Heartbeat.crc (h : Heartbeat) : Word := BitVec.ofNat 32 (crc32Blocks h.blocks)

/-- The heartbeat's KIND is that of a heartbeat, and its HCRC is good (R292). -/
def Heartbeat.good (h : Heartbeat) : Bool := h.kind == 0x48 && h.hcrc == h.crc

/-- The heartbeat of the last frame (R291). -/
def Die.heartbeat (e : Die) : Option Heartbeat :=
  match e.pair.digests with
  | [] => none
  | (j, m, p) :: _ =>
    let h : Heartbeat := {
      kind := 0x48
      role := BitVec.ofNat 3 e.role
      die := e.id
      hoReq := e.bit F.PAIR_STAT_HOARMED
      seq := BitVec.ofNat 32 j
      mdig := m
      pdig := p
      ftStamp := e.pair.ftStamp
      txTail := Vector.ofFn fun (l : Fin 4) => BitVec.ofNat 12 (e.fld (F.CHN_TXTAIL_INDEX l))
      hoFrame := e.pair.hoTarget.getD (e.reg R.PAIR_HOFRAME)
      slots := e.pair.endSlots
      hcrc := 0 }
    some { h with hcrc := h.crc }

/-- BOTHLEAD: a LEAD die hears another LEAD; die B returns to START at its next FT (R282). DEDUCED (log 86, log 175): in the
frame from which the die leads, the heartbeat launched at its FT is still the old lead's, on its way, and no second one (R291, R294,
R304). -/
def Die.bothLead (e : Die) (h : Heartbeat) : Die :=
  let old := e.pair.leadFrom == some (h.seq + 1) && e.reg R.ENG_SEQ == h.seq + 1
  if e.isLead && h.role.toNat == Role.lead && !old then
    (e.setFld F.PAIR_IRQ_BOTHLEAD 1).updPair fun p => { p with bothLead := e.id == .b }
  else e

/-- A heartbeat arrives. With its HCRC good it shows the partner's role, and what a START die or a second lead acts on (R281,
R282, R283). -/
def Die.beatArrive (e : Die) (h : Heartbeat) : Die :=
  let e := e.updPair fun p => { p with inbox := p.inbox ++ [h] }
  if !h.good then e
  else ((e.setFld F.PAIR_STAT_PARTNER h.role.toNat).updPair fun p => { p with
    beat := some (h.seq, h.ftStamp)
    leadSeen := p.leadSeen || h.role.toNat == Role.lead }).bothLead h

/-- A partner's health report arrives (R296). -/
def Die.healthArrive (e : Die) (h : Health) : Die :=
  let e := (List.finRange 3).foldl (fun e (w : Fin 3) => e.setReg (R.PAIR_HPART w) h[w]) e
  (e.setFld F.PAIR_IRQ_HEALTH 1).updPair fun p => { p with partner := (h[0].toNat, h) :: p.partner.take 1 }

/-- PAIR_STAT.LINK follows the link (R286). -/
def Die.linkShow (e : Die) (v : Nat) : Die :=
  if e.fld F.PAIR_STAT_LINK = v then e else (e.setFld F.PAIR_STAT_LINK v).setFld F.PAIR_IRQ_LINK 1

/-- What comes over the party wall for the pair manager in ENG. -/
def Die.pairTake (e : Die) : PairRx → Die
  | .beat h => e.beatArrive h
  | .health h => e.healthArrive h
  | .link v => e.linkShow v

/-- The same at the crossing into ENG: while ENG stands still it is held (R26); a die in NOIMAGE or HOLD, whose ENG does not
start, shows it as it comes (R420). -/
def Die.pairCross (e : Die) (r : PairRx) : Die :=
  if e.runs .eng || e.idles then e.pairTake r else e.updPair fun p => { p with waiting := p.waiting ++ [r] }

/-- ENG runs again: what the frame engine and the pair manager have not yet taken comes in order (R26). -/
def Die.engWaiting (e : Die) : Die :=
  let e := e.chainWaiting
  e.pair.waiting.foldl Die.pairTake (e.updPair fun p => { p with waiting := [] })

/-- The link's state changes on a die (R286). -/
def Die.setLink (e : Die) (v : Nat) : Die :=
  if e.pair.link = v then e else (e.updPair fun p => { p with link := v }).pairCross (.link v)

/-- LINK_TRAINED: the one link is up at both dies (R286). -/
def execLinkTrained (_ : DieId) (s : State) : Out :=
  .next (if s.dieA.runs .ltx && s.dieB.runs .ltx then ⟨s.dieA.setLink 2, s.dieB.setLink 2, s.pending⟩ else s)

/-- The link goes down at a die, and training starts: what was on its way is lost (R286). A die whose LTX stands still, as
in a freeze, keeps its state (R26, R451). -/
def Die.linkDown (e : Die) : Die :=
  if e.runs .ltx then (e.setLink 1).updPair fun p => { p with
    passed := []
    lossy := [] } else e

/-- LINK_DOWN: the link is down at both dies (R286). -/
def execLinkDown (_ : DieId) (s : State) : Out := .next ⟨s.dieA.linkDown, s.dieB.linkDown, s.pending⟩

/-- HEARTBEAT_SEND: the heartbeat reaches the partner while the link is up; with a block dropped, its HCRC is not good (R285,
R287, R291, R292). -/
def execHeartbeatSend (d : DieId) (s : State) : Out :=
  .next (s.goIn .eng d fun s =>
    match (s.die d).heartbeat with
    | some h =>
      if !s.linked then s
      else if (s.die d.other).pair.lossy.contains .heartbeat then
        s.upd d.other fun e => (e.lossTaken .heartbeat).pairCross (.beat { h with hcrc := ~~~h.hcrc })
      else s.upd d.other (·.pairCross (.beat h))
    | none => s)

/-- What a die takes from a heartbeat: a joiner or follow the lead's slots, a follow the tails, and any but the lead a
hand-over request (R197, R289, R304). -/
def Die.beatTakes (e : Die) (h : Heartbeat) : Die :=
  let e := if e.followsSlots then
      { e with swp := { e.swp with inbox := e.swp.inbox ++ [(h.seq.toNat, h.slots)] } } else e
  let e := if e.role = Role.follow then
      (List.finRange 4).foldl (fun e (l : Fin 4) => e.setFld (F.CHN_TXTAIL_INDEX l) h.txTail[l].toNat) e else e
  if !e.isLead && h.hoReq then e.updPair fun p => { p with hoTarget := some h.hoFrame } else e

/-- PAIR_SKEW: the partner's FT minus this die's, from the stamps of one frame, within 16 bits (R284, R312). -/
def Die.skewSeen (e : Die) (h : Heartbeat) : Die :=
  match e.pair.fts.find? fun x => x.1 == (h.seq.toNat + 1) % 2 ^ 32 with
  | some x =>
    e.setFld F.PAIR_SKEW_SKEW (BitVec.ofInt 16 (clampI (-32768) 32767 (h.ftStamp - x.2).toInt)).toNat
  | none => e

/-- DIVERGENCE_CHECK of a received heartbeat (R293); at CONSEC 3 a follow raises DIVERGE, to act one frame later (R294).
A frame of which the die has no digests is neither matching nor divergent. -/
def Die.divergence (e : Die) (h : Heartbeat) : Die :=
  match e.pair.digests.find? fun x => x.1 == h.seq.toNat with
  | none => e
  | some x =>
  if x.2.1 = h.mdig ∧ x.2.2 = h.pdig then
    (e.setFld F.PAIR_DIV_CONSEC 0).updPair fun p => { p with matching := p.matching + 1 }
  else
    let c := e.fld F.PAIR_DIV_CONSEC
    let e := (((e.setFld F.PAIR_DIV_CONSEC (min (c + 1) 3)).count F.PAIR_DIV_TOTAL 1).setReg R.PAIR_DIVFRAME h.seq).updPair
      fun p => { p with matching := 0 }
    if e.role = Role.follow ∧ c = 2 then
      (e.setFld F.PAIR_IRQ_DIVERGE 1).updPair fun p => { p with diverged := some h.seq.toNat }
    else e

/-- The die asks for its partner's fence; a fenced die's own output is held deasserted (R297). -/
def Die.askFence (e : Die) : Die := if e.bit F.PAIR_FENCE_FIN then e else e.setFld F.PAIR_FENCE_FOUT 1

/-- A joiner has lost its lead: in phase 1 it leaves service, later it fences the lead and takes lead at the next FT (R301,
R309). -/
def Die.joinerAlone (e : Die) (cause : Nat) : Die :=
  if e.fld F.PAIR_COPY_PHASE = 1 then ((e.setRole Role.svclost).setFld F.PAIR_IRQ_SVCLOST 1).drive false
  else e.askFence.updPair fun p => { p with leadNext := some cause }

/-- A missed heartbeat: MISS, bridging, and the fence at 48 (R292, R300, R301). -/
def Die.missed (e : Die) : Die :=
  let m := e.fld F.PAIR_STAT_MISS
  let e := ((e.count F.PAIR_STAT_MISS 1).raise F.PAIR_IRQ_MISS (m == 0 && e.pair.heard)).count F.PAIR_MISSCNT_COUNT 1
  let e := (e.setFld F.PAIR_DIV_CONSEC 0).updPair fun p => { p with matching := 0 }
  if e.role = Role.follow then
    let e := if m = 0 then (e.setFld F.PAIR_STAT_BRIDGE 1).drive true else e
    if m = 47 then e.askFence.updPair fun p => { p with leadNext := some 1 } else e
  else if e.role = Role.join ∧ m = 47 then e.joinerAlone 1
  else e

/-- A received heartbeat (R284, R292, R293, R300). -/
def Die.received (e : Die) (h : Heartbeat) : Die :=
  let was := e.fld F.PAIR_STAT_MISS ≠ 0
  let e := (e.setFld F.PAIR_STAT_MISS 0).skewSeen h
  let e := if was ∧ e.bit F.PAIR_STAT_BRIDGE then (e.setFld F.PAIR_STAT_BRIDGE 0).drive false else e
  ((e.updPair fun p => { p with heard := true }).divergence h).beatTakes h

/-- HEARTBEAT_JUDGE at FT of frame j + 2: the heartbeat of frame j with its HCRC good (R292). In split mode nothing is judged
(R281). -/
def Die.judge (e : Die) : Die :=
  let j := (e.seq + 2 ^ 32 - 2) % 2 ^ 32
  let hb := e.pair.inbox.find? fun h => h.seq.toNat == j && h.good
  let e := e.updPair fun p => { p with inbox := p.inbox.filter fun h => seqAfter h.seq.toNat j }
  if e.split then e
  else match hb with
    | some h => e.received h
    | none => e.missed

/-! ### Health reports (R295, R296) -/

/-- Frames of 100 ms. -/
def Die.healthPeriod (e : Die) : Nat := (if e.bit F.ENG_RATE_FAM then 4410 else 4800) * (20480 / e.cyc)

/-- Courses that meet the timing-margin criterion (R107). -/
def Die.wornCourses (e : Die) : Nat :=
  ((List.range 28).filter fun c =>
    let m := (BitVec.ofNat 12 (e.fld (F.ENG_C_WEAR_MARGIN c))).toInt
    e.bit (F.ENG_C_WEAR_VALID c) && (decide (m < 40) || decide (2 * m < (BitVec.ofNat 12 (e.fld (F.ENG_C_WEAR_BASE c))).toInt))).length

/-- The report of a period that ends at frame `r`. -/
def Die.healthWords (e : Die) (r : Nat) : Health :=
  let c := e.pair.counts
  let held := ((List.range 4).filter fun b => e.bitAt F.YRD_TESTSTAT_HELD b).length
  let worn := e.wornCourses
  let dbe := min c.dbe 255
  let sp := min c.spfail 255
  let ovr := min c.ovr 127
  let pll := min c.pll 15
  let ch := min c.chlost 15
  let sup := min c.supply 15
  let score := min (16 * dbe + 64 * held + 8 * sp + 32 * worn + ovr + 128 * pll + 16 * ch + 64 * sup) 0xFFFF
  #v[BitVec.ofNat 32 r, BitVec.ofNat 32 (dbe + held * 2 ^ 8 + sp * 2 ^ 12 + worn * 2 ^ 20 + ovr * 2 ^ 25),
     BitVec.ofNat 32 (pll + ch * 2 ^ 4 + sup * 2 ^ 8 + score * 2 ^ 16)]

/-- HEALTH_REPORT_CLOSE at a multiple of the period, and HEALTH_REPORT_SEND one frame later (R295, R296). -/
def Die.healthFt (e : Die) : Die :=
  let e := if e.seq % e.healthPeriod = 1 then
      match e.pair.own with
      | x :: _ => if e.split then e else e.updPair fun p => { p with sent := some x.2 }
      | [] => e
    else e
  if e.seq % e.healthPeriod = 0 then
    let h := e.healthWords e.seq
    let e := e.updPair fun p => { p with
      own := (e.seq, h) :: p.own.take 1
      counts := HealthCounts.zero }
    (List.finRange 3).foldl (fun e (w : Fin 3) => e.setReg (R.PAIR_HLOCAL w) h[w]) e
  else e

/-- HEALTH_REPORT_RECEIVE: the report the partner has sent (R296). -/
def execHealthReportReceive (d : DieId) (s : State) : Out :=
  match (s.die d.other).pair.sent with
  | some h => .next (s.wall d .health (·.pairCross (.health h)))
  | none => .next s

/-- SCORE of the latest report at or before frame `j` (R296). -/
def scoreAt (rs : List (Nat × Health)) (j : Nat) : Option Nat :=
  (rs.find? fun r => !seqAfter r.1 j).map fun r => r.2[2].toNat / 2 ^ 16

/-- PLL_CHECK: the failures of the ENG, CTL and LTX PLLs count in the report (R295), but none of a clock that a freeze has
stopped (R449). -/
def execPllCheck (d : DieId) (fails : BitVec 3) (s : State) : Out :=
  .next (s.updIn .keep d fun e =>
    let n := ([Dom.eng, .ctl, .ltx].zipIdx.filter fun m => natBit fails.toNat m.2 && !e.shut m.1).length
    e.healthNote fun h => { h with pll := h.pll + n })

/-! ### Fence and DOWN (R297 to R299) -/

/-- FENCE_ASSERT on the die that is fenced: its partner asserts the fence, and the arbiter lets at most one die be fenced, die
A where both requests rise together (R297, R298). A freeze that waits for the fence goes on to close (R448). The latch needs
nothing of the fenced die: it takes one that is frozen, whose own registers stand (R298, R451). -/
def State.fence (s : State) (d : DieId) : State :=
  let e := s.die d
  let p := s.die d.other
  if !p.bit F.PAIR_FENCE_FOUT || e.bit F.PAIR_FENCE_FIN then s
  else if p.bit F.PAIR_FENCE_FIN || (e.bit F.PAIR_FENCE_FOUT && d == .b) then
    s.setDie d.other (p.setFld F.PAIR_FENCE_FOUT 0)
  else if !e.runs .keep then s.setDie d ((e.setFld F.PAIR_FENCE_FOUT 0).setFld F.PAIR_FENCE_FIN 1)
  else
    let e := (((e.drive false).setFld F.PAIR_FENCE_FOUT 0).setFld F.PAIR_FENCE_FIN 1).setFld F.PAIR_FENCE_FIRQ 1
    let e := if e.fld F.FRZ_STAT_STATE = 1 then e.setFld F.FRZ_STAT_STATE 2 else e
    let e := (e.setRole Role.fenced).updPair fun p => { p with holding := false }
    s.setDie d (e.updChn fun c => { c with grace := true })

/-- FENCE_ASSERT (R298). -/
def execFenceAssert (d : DieId) (s : State) : Out := .next (s.fence d)

/-- The fence that a die holds on its partner is released (R298). -/
def State.unfence (s : State) (d : DieId) : State :=
  let s := s.upd d (·.setFld F.PAIR_FENCE_FOUT 0)
  if (s.die d.other).bit F.PAIR_FENCE_FIN then
    s.upd d.other fun e => (e.setFld F.PAIR_FENCE_FIN 0).raise F.PAIR_FENCE_FIRQ (e.runs .keep)
  else s

/-- UNFENCE (R298). -/
def execUnfence (d : DieId) (s : State) : Out := .next (s.goIn .keep d (·.unfence d))

/-- `DWN` as the partner reads it (R297, R312). -/
def Die.setDin (e : Die) (b : Bool) : Die :=
  if e.bit F.PAIR_FENCE_DIN = b then e else (e.setBit F.PAIR_FENCE_DIN b).setFld F.PAIR_FENCE_FIRQ 1

/-- DWN asserts: a die that drives the joined balls with its partner in FOLLOW holds them until the fence, for at most 8 of
its KEEP cycles (R299). A partner whose KEEP stands in a freeze sees the wire when it runs again (R26, R451). -/
def State.down (s : State) (d : DieId) : State :=
  let follow := (s.die d.other).role == Role.follow
  let s := s.upd d fun e => (e.setFld F.PAIR_FENCE_DOUT 1).updPair fun p => { p with
    holding := p.holding || (p.driving && follow) }
  s.updIn .keep d.other (·.setDin true)

/-- The cause asserts DWN: a freeze request only in a LEAD with its partner in FOLLOW, and the ENG PLL's loss of lock only other
than in freeze (R299). -/
def State.asserts (s : State) (d : DieId) : DwnCause → Bool
  | .freeze => (s.die d).isLead && (s.die d.other).role == Role.follow
  | .engPll => (s.die d).fld F.FRZ_STAT_STATE < 2
  | _ => true

/-- DWN_ASSERT (R299). -/
def execDwnAssert (d : DieId) (cause : DwnCause) (s : State) : Out :=
  .next (if s.asserts d cause then s.goIn .keep d (·.down d) else s)

/-- STANDDOWN (R299). -/
def execStanddown (d : DieId) (s : State) : Out := .next (s.goIn .keep d (·.down d))

/-- DRIVER_HOLD_EXPIRE (R299). -/
def execDriverHoldExpire (d : DieId) (s : State) : Out :=
  .next (s.updIn .keep d fun e => if e.pair.holding then (e.drive false).updPair fun p => { p with holding := false }
    else e)

/-- PARTNER_DWN_RELEASE: the partner's wire is no longer asserted (R299, R312). -/
def execPartnerDwnRelease (d : DieId) (s : State) : Out :=
  .next (if (s.die d.other).bit F.PAIR_FENCE_DOUT then s else s.updIn .keep d (·.setDin false))

/-- LEAD_DWN_RECEIVE: the DWN of a lead reaches a follow, which fences it, drives the balls and leads from the next FT; or a
joiner (R301, R309). -/
def Die.leadDwn (e : Die) : Die :=
  if e.split || !e.bit F.PAIR_FENCE_DIN || e.fld F.PAIR_STAT_PARTNER != Role.lead then e
  else if e.role = Role.follow then
    (e.askFence.drive true).updPair fun p => { p with leadNext := some 2 }
  else if e.role = Role.join then
    let e := e.joinerAlone 2
    if e.role = Role.join then e.drive true else e
  else e

/-- LEAD_DWN_RECEIVE (R301). -/
def execLeadDwnReceive (d : DieId) (s : State) : Out := .next (s.updIn .eng d (·.leadDwn))

/-! ### Forming a pair (R282, R283, R307, R327) -/

/-- The live yard rows: those of every ring, and the regions the image declares (R305, R307). -/
def Yard.liveRows (y : Yard) : List (Nat × Nat) :=
  ((y.rings.filter fun r => r.2.valid).map fun r => (r.2.base, r.2.maxLen)) ++ y.liveMap

/-- Rows of a range that the copy has brought. -/
def CopyState.has (c : CopyState) (row : Nat) : Bool := c.rows.any fun r => r.1 ≤ row && row < r.1 + r.2

/-- Rows or blocks still to copy (R312). -/
def Die.copyLeft (e : Die) : Nat :=
  let c := e.pair.copy
  match e.fld F.PAIR_COPY_PHASE with
  | 1 => (Config.copyLeft e.free).toNat
  | 2 => 1088 * ((List.finRange 24).filter fun s => !c.items.contains (.tiles s)).length
  | 3 => e.yard.liveRows.foldl (fun n r => n + ((List.range r.2).filter fun i => !c.has (r.1 + i)).length) 0
  | 4 => c.dirty.length
  | _ => 0

/-- PAIR_COPY.LEFT follows. -/
def Die.leftFollows (e : Die) : Die :=
  (e.setFld F.PAIR_COPY_LEFT (min e.copyLeft (2 ^ 24 - 1))).drawn

/-- The die enters JOIN at phase 1: every live yard row is marked unwritten, the copy begins, and the ENG clock stops at the
end of the frame (R284, R294, R305, R307, R327). -/
def Die.enterJoin (e : Die) : Die :=
  let e := ((e.setRole Role.join).drive false).setFld F.PAIR_STAT_BRIDGE 0
  let e := e.updYard fun y => { y with
    live := y.liveRows
    unwritten := true
    rewritten := [] }
  ((e.setReg R.PAIR_COPY 1).updPair fun p => { p with
    copy := CopyState.none
    restart := .asked
    matching := 0
    diverged := none
    leadNext := none
    hoTarget := none }).leftFollows

/-- PAIR_JOIN: a START die that hears a LEAD and whose image is identical enters JOIN, and REF follows the lead (R282, R326,
R423). -/
def Die.join (e : Die) : Die :=
  if e.role = Role.start ∧ !e.split ∧ e.pair.leadSeen ∧ e.bit F.BTL_STAT_IDOK ∧ !e.bit F.BTL_STAT_MODEMIS then
    e.enterJoin.refFollow
  else e

/-- PAIR_JOIN (R282). -/
def execPairJoin (d : DieId) (s : State) : Out := .next (s.writeIn .eng d R.PAIR_CTRL 1 (·.join))

/-- The frame of the lead's that begins at an FT with this stamp, from the lead's last heartbeat: that of frame j was stamped at
FT of frame j + 1 (R283, R291, R327). -/
def Die.leadFrame (e : Die) (stamp : BitVec 48) : Word :=
  let t := 25000000000
  match e.pair.beat with
  | none => e.reg R.ENG_SEQ
  | some (j, st) => j + 1 + BitVec.ofNat 32 ((2 * (stamp - st).toNat * e.rateHz + t) / (2 * t))

/-- The frame in which the die entered JOIN ends: its ENG clock stops (R327). -/
def Die.engStop (e : Die) : Die :=
  { e with
    clk := { e.clk with stopped := .eng :: e.clk.stopped.filter (· != .eng) }
    pair := { e.pair with restart := .stopped } }

/-- The ENG clock runs on, so that the FT that comes now is the lead's and carries its frame sequence (R283, R327): ENG_SEQ
stands one below it until this FT advances it. -/
def Die.engResume (e : Die) (stamp : BitVec 48) : Die :=
  let q := e.leadFrame stamp - 1
  ({ e with
    clk := { e.clk with stopped := e.clk.stopped.filter (· != .eng) }
    pair := { e.pair with restart := .running } } : Die).setReg R.ENG_SEQ q

/-- The die may take lead from START (R282, R423). -/
def Die.mayLead (e : Die) : Bool := e.role == Role.start && !e.split && !e.bit F.BTL_STAT_MODEMIS

/-- LEAD_TIMEOUT: die A without a LEAD heartbeat takes LEAD at the next FT (R282). -/
def Die.leadTimeout (e : Die) : Die :=
  if e.mayLead && e.id == .a && !e.pair.leadSeen && 64 ≤ e.pair.startFrames then e.updPair fun p => { p with leadNext := some 0 } else e

/-- LEAD_TIMEOUT (R282). -/
def execLeadTimeout (d : DieId) (s : State) : Out := .next (s.updIn .eng d (·.leadTimeout))

/-- LEAD_ALONE_B: die B takes LEAD while DWN_A is asserted (R282). -/
def Die.leadAlone (e : Die) : Die :=
  if e.mayLead && e.id == .b && e.bit F.PAIR_FENCE_DIN && 64 ≤ e.pair.dwnFrames then e.updPair fun p => { p with leadNext := some 0 } else e

/-- LEAD_ALONE_B (R282). -/
def execLeadAloneB (d : DieId) (s : State) : Out := .next (s.updIn .eng d (·.leadAlone))

/-- SOLO: an SVCLOST die becomes LEAD at the next FT (R309). -/
def Die.askSolo (e : Die) : Die := if e.role = Role.svclost then e.updPair fun p => { p with solo := true } else e

/-- SOLO (R309). -/
def execSolo (d : DieId) (s : State) : Out := .next (s.writeIn .eng d R.PAIR_CTRL 8 (·.askSolo))

/-! ### Taking lead (R294, R301, R309, R310) -/

/-- The incomplete rings of a joiner (R310). -/
def Die.incomplete (e : Die) : List Nat :=
  let c := e.pair.copy
  (e.yard.rings.filter fun r => r.2.valid && decide (c.frames < r.2.frontLen)
    && decide (e.fld F.PAIR_COPY_PHASE ≠ 4) && !(List.range r.2.maxLen).all fun i => c.has (r.2.base + i)).map (·.1)

/-- RING_INCOMPLETE: a joiner that takes lead in phase 2 to 4 (R310). -/
def Die.ringsLost (e : Die) : Die :=
  let rs := e.incomplete
  let e := (e.setFld F.PAIR_IRQ_RINGINC 1).updPair fun p => { p with ringInc := rs }
  e.logEv 3 4 rs.length (rs.headD 0) e.pair.copy.frames

/-- TAKE_LEAD with its cause: the slots and load sequences, the balls, TAKEOVER and a record, and REF's switch (R199, R290,
R301, R328). -/
def Die.takeLead (e : Die) (cause : Nat) : Die :=
  let joiner := e.role == Role.join
  let e := if joiner then (e.ringsLost).setFld F.PAIR_COPY_PHASE 0 else e
  let e := if cause = 4 then e.loadSeqCont else (e.slotTakeover).loadSeqJump
  let e := ((e.setRole Role.lead).drive true).setFld F.PAIR_STAT_BRIDGE 0
  let e := (e.setFld F.PAIR_IRQ_TAKEOVER 1).logEv 3 1 cause
  (e.updPair fun p => { p with
    leadNext := none
    leadFrom := some (e.reg R.ENG_SEQ)
    diverged := none }).refTakeover

/-- A die begins to lead, from START or by SOLO: past what it has relayed (R282, R290, R309). One that has met a partner in
the other mode takes no lead (R423). -/
def Die.leadFirst (e : Die) : Die :=
  let e := e.updPair fun p => { p with
    leadNext := none
    leadFrom := none
    solo := false }
  if e.bit F.BTL_STAT_MODEMIS then e else (e.loadSeqJump.setRole Role.lead).drive true

/-- The follow's act on divergence at FT of frame j + 3 (R294). -/
def Die.divergeAct (e : Die) : Die :=
  match e.pair.diverged with
  | none => e
  | some j =>
    if e.seq ≠ (j + 3) % 2 ^ 32 then e
    else
      let e := e.updPair fun p => { p with diverged := none }
      if e.role ≠ Role.follow then e
      else
        let higher := match scoreAt e.pair.partner j, scoreAt e.pair.own j with
          | some l, some o => decide (o < l)
          | some l, none => decide (0 < l)
          | none, _ => false
        if higher then e.askFence.takeLead 3
        else e.enterJoin.setFld F.PAIR_IRQ_STOOD 1

/-- HANDOVER_TAKE at FT of the hand-over frame: the follow leads, or refuses; the lead stops fetching, to release the balls
128 cycles later (R304). -/
def Die.handover (e : Die) : Die :=
  match e.pair.hoTarget with
  | none => e
  | some t =>
    if t.toNat ≠ e.seq then e
    else
      let e := e.updPair fun p => { p with hoTarget := none }
      if e.isLead then (e.setFld F.PAIR_STAT_HOARMED 0).updPair fun p => { p with
        hoRelease := true
        hoFetch := some (t + 2) }
      else if e.role = Role.follow then
        if !e.bit F.PAIR_STAT_BRIDGE ∧ 16 ≤ e.pair.matching then
          (e.takeLead 4).updPair fun p => { p with hoFetch := some (t + 2) }
        else e.setFld F.PAIR_IRQ_HOLATE 1
      else e.setFld F.PAIR_IRQ_HOLATE 1

/-- HANDOVER_RELEASE: with the partner now LEAD, the old lead releases the balls and becomes FOLLOW; otherwise the hand-over
did not take place (R304). -/
def Die.handoverRelease (e : Die) (partnerRole : Nat) : Die :=
  if !e.pair.hoRelease then e
  else
    let e := e.updPair fun p => { p with
      hoRelease := false
      hoFetch := none }
    if partnerRole = Role.lead then
      (((e.setRole Role.follow).drive false).updPair fun p => { p with
        relayed := Vector.replicate 4 none
        matching := 0 }).refFollow
    else e.setFld F.PAIR_IRQ_HOLATE 1

/-- HANDOVER_RELEASE (R304). -/
def execHandoverRelease (d : DieId) (s : State) : Out := .next (s.updIn .eng d (·.handoverRelease (s.die d.other).role))

/-- HANDOVER_REQUEST: armed at least 4 frames ahead, or HOLATE (R304). -/
def Die.handoverRequest (e : Die) : Die :=
  let k := e.framesTo (e.regN R.PAIR_HOFRAME)
  if e.isLead ∧ 4 ≤ k ∧ k < 2 ^ 31 then
    (e.setFld F.PAIR_STAT_HOARMED 1).updPair fun p => { p with hoTarget := some (e.reg R.PAIR_HOFRAME) }
  else e.setFld F.PAIR_IRQ_HOLATE 1

/-- HANDOVER_REQUEST (R304). -/
def execHandoverRequest (d : DieId) (s : State) : Out := .next (s.writeIn .eng d R.PAIR_CTRL 2 (·.handoverRequest))

/-- SKEW_CHECK: the follow leaves service after 16 frames more than 16 ENG cycles away (R284). -/
def Die.skewCheck (e : Die) : Die :=
  let hz := e.rateHz * e.cyc
  let far := decide (400000000000 < (BitVec.ofNat 16 (e.fld F.PAIR_SKEW_SKEW)).toInt.natAbs * hz)
  if e.role = Role.follow ∧ far then
    let e := e.updPair fun p => { p with skewFrames := p.skewFrames + 1 }
    if 16 ≤ e.pair.skewFrames then
      (((e.setFld F.PAIR_IRQ_SKEW 1).setFld F.PAIR_IRQ_STOOD 1).enterJoin).updPair fun p => { p with skewFrames := 0 }
    else e
  else e.updPair fun p => { p with skewFrames := 0 }

/-- What FT does first for the roles: a lead that was decided in the frame before begins, a second lead steps back (R282,
R301, R309). -/
def Die.roleFt (e : Die) : Die :=
  let e := if e.pair.bothLead then
      ((e.setRole Role.start).drive false).updPair fun p => { p with
        bothLead := false
        startFrames := 0
        leadSeen := true }
    else e
  let e := if e.role = Role.start then e.updPair fun p => { p with startFrames := p.startFrames + 1 } else e
  let e := if e.bit F.PAIR_FENCE_DIN then e.updPair fun p => { p with dwnFrames := p.dwnFrames + 1 }
    else e.updPair fun p => { p with dwnFrames := 0 }
  let e := if e.pair.hoFetch = some (e.reg R.ENG_SEQ) ∧ !e.pair.hoRelease then e.updPair fun p => { p with hoFetch := none } else e
  if e.pair.solo && e.role == Role.svclost then e.leadFirst
  else match e.pair.leadNext with
    | some 0 => if e.role = Role.start then e.leadFirst else e
    | some c => if e.role = Role.follow ∨ e.role = Role.join then e.takeLead c else e
    | none => e

/-- The end of phase 1: from this FT the joiner runs its kernels, Mortar and VOX (R305). -/
def Die.copyFt (e : Die) : Die :=
  if e.role ≠ Role.join then e
  else if e.pair.copy.ended ∧ e.fld F.PAIR_COPY_PHASE = 1 then
    ((e.setFld F.PAIR_COPY_PHASE 2).updPair fun p => { p with copy := { p.copy with
      ended := false
      frames := 0 } }).leftFollows
  else e.updPair fun p => { p with copy := { p.copy with frames := p.copy.frames + 1 } }

/-- What PAIR_RINGINC shows for its group (R312). -/
def Die.pairRead (e : Die) (a : Nat) : Option Nat :=
  if a = R.PAIR_RINGINC then
    let g := e.fld F.PAIR_RINGIDX_GROUP
    some ((List.range 32).foldl (fun n i => n + b2n (e.pair.ringInc.contains (32 * g + i)) * 2 ^ i) 0)
  else none

end Sys2Proof.Machine
end

