-- ==== Sys2Proof/Machine/Misc.lean ====
section
/-! DEFINITION. The peripherals in MISC (R400 to R403), the interrupt lines (R386, R387), the semaphores and the doorbells
(R385, R386). -/

namespace Sys2Proof.Machine

/-- Change the peripherals. -/
def Die.updMisc (e : Die) (f : Misc → Misc) : Die := { e with misc := f e.misc }

/-! ### GPIO (R400, R401) -/

/-- The board puts a level on a ball. -/
def Die.ballTo (e : Die) (pin : Fin 16) (level : Bool) : Die :=
  e.updMisc fun m => { m with balls := BitVec.ofNat 16 (insBits m.balls.toNat pin.val 1 (b2n level)) }

/-- GPIO_EDGE: what stands on a ball changes (R400). -/
def execGpioEdge (d : DieId) (pin : Fin 16) (level : Bool) (s : State) : Out :=
  .next (s.upd d (·.gpioMove (·.ballTo pin level)))

/-- GPIO_ARM: the timing rule of R190; a refused arm sets LATE (R401). -/
def Die.gpioArm (e : Die) : Die :=
  if e.bit F.MISC_GPIO_TCTL_ARMED then e
  else if e.armOk (e.regN R.MISC_GPIO_TFRAME) then e.setFld F.MISC_GPIO_TCTL_ARMED 1
  else e.setFld F.MISC_GPIO_IRQ_LATE 1

/-- GPIO_ARM (R401). -/
def execGpioArm (d : DieId) (s : State) : Out := .next (s.writeIn .eng d R.MISC_GPIO_TCTL 1 (·.gpioArm))

/-- `n` with the bits of a mask taken from `v`. -/
def maskIn (n v mask : Nat) : Nat := ofBits ((List.range 16).map fun i => if natBit mask i then natBit v i else natBit n i)

/-- GPIO_TIMED_CHANGE: in the named frame the masked pins take the value, and ARMED clears (R401). -/
def Die.gpioTimed (e : Die) : Die :=
  if e.bit F.MISC_GPIO_TCTL_ARMED ∧ e.regN R.MISC_GPIO_TFRAME = e.seq then
    e.gpioMove fun e => (e.setFld F.MISC_GPIO_OUT_PIN
      (maskIn (e.fld F.MISC_GPIO_OUT_PIN) (e.fld F.MISC_GPIO_TOUT_VALUE) (e.fld F.MISC_GPIO_TOUT_MASK))).setFld
      F.MISC_GPIO_TCTL_ARMED 0
  else e

/-- GPIO_TIMED_CHANGE (R401). -/
def execGpioTimedChange (d : DieId) (s : State) : Out := .next (s.updIn .eng d (·.gpioTimed))

/-! ### I2C (R402) -/

/-- The bytes in DATA0 to DATA3. -/
def Die.i2cBytes (e : Die) (n : Fin 2) : List Byte :=
  (List.range 16).map fun k => BitVec.ofNat 8 (bitsOf (e.regN (R.MISC_I2C_DATA n.val (k / 4))) (8 * (k % 4)) 8)

/-- Bytes read from a target enter DATA. -/
def Die.i2cStore (e : Die) (n : Fin 2) (bs : List Byte) : Die :=
  (bs.take 16).zipIdx.foldl (fun e b =>
    let a := R.MISC_I2C_DATA n.val (b.2 / 4)
    e.setRegN a (insBits (e.regN a) (8 * (b.2 % 4)) 8 b.1.toNat)) e

/-- I2C_GO: a write of XFER; GO starts a transfer unless one is in progress or the controller is not ON. Bytes beyond the 16
of DATA are open. -/
def Die.i2cGo (e : Die) (n : Fin 2) (v : Word) : Die :=
  let e := ((e.setFld (F.MISC_I2C_XFER_ADDR n.val) v.toNat).setFld (F.MISC_I2C_XFER_WLEN n.val)
    (bitsOf v.toNat 8 5)).setFld (F.MISC_I2C_XFER_RLEN n.val) (bitsOf v.toNat 16 5)
  if natBit v.toNat 31 ∧ !e.bit (F.MISC_I2C_STAT_BUSY n.val) ∧ e.fld (F.MISC_I2C_CTRL_STATE n.val) = St.on then
    let pad := (List.range 16).map fun k => Config.i2cByte e.free k
    let x : I2cXfer := {
      addr := BitVec.ofNat 7 v.toNat
      wbytes := (e.i2cBytes n ++ pad).take (bitsOf v.toNat 8 5)
      rlen := bitsOf v.toNat 16 5 }
    ((e.setFld (F.MISC_I2C_STAT_BUSY n.val) 1).updMisc fun m => { m with i2c := m.i2c.set n.val (some x) }).drawn
  else e

/-- I2C_GO (R402). -/
def execI2cGo (d : DieId) (n : Fin 2) (v : Word) (s : State) : Out := .next (s.updIn .ctl d (·.i2cGo n v))

/-- The transfer in progress is over, and leaves the bus with these levels of SCL and SDA. -/
def Die.i2cEndXfer (e : Die) (n : Fin 2) (scl sda : Bool) : Die :=
  (((e.setFld (F.MISC_I2C_STAT_BUSY n.val) 0).setBit (F.MISC_I2C_STAT_SCL n.val) scl).setBit
    (F.MISC_I2C_STAT_SDA n.val) sda).updMisc fun m => { m with i2c := m.i2c.set n.val none }

/-- I2C_DONE: the transfer ends with STOP, both lines high, with the bytes read, or on a NACK (R402). -/
def Die.i2cDone (e : Die) (n : Fin 2) (r : I2cResult) : Die :=
  match e.misc.i2c[n] with
  | none => e
  | some x =>
    let e := (e.i2cEndXfer n true true).setFld (F.MISC_I2C_STAT_DONE n.val) 1
    match r with
    | .ok bs => e.i2cStore n (bs.take x.rlen)
    | .nack i => (e.setFld (F.MISC_I2C_STAT_NACK n.val) 1).setFld (F.MISC_I2C_STAT_NACKBYTE n.val) i.toNat

/-- I2C_DONE (R402). -/
def execI2cDone (d : DieId) (n : Fin 2) (r : I2cResult) (s : State) : Out := .next (s.updIn .ctl d (·.i2cDone n r))

/-- I2C_TIMEOUT: SCL held low for 25 ms abandons the transfer, with SDA as the bus then has it (R402). -/
def Die.i2cTimeout (e : Die) (n : Fin 2) : Die :=
  match e.misc.i2c[n] with
  | none => e
  | some _ => ((e.i2cEndXfer n false (natBit (Config.i2cLines e.free n.val).toNat 1)).setFld
      (F.MISC_I2C_STAT_TIMEOUT n.val) 1).drawn

/-- I2C_TIMEOUT (R402). -/
def execI2cTimeout (d : DieId) (n : Fin 2) (s : State) : Out := .next (s.updIn .ctl d (·.i2cTimeout n))

/-- I2C_RECOVER: nine clocks and STOP leave both lines high (R402). -/
def Die.i2cRecover (e : Die) (n : Fin 2) : Die :=
  (e.setFld (F.MISC_I2C_STAT_SCL n.val) 1).setFld (F.MISC_I2C_STAT_SDA n.val) 1

/-- I2C_RECOVER (R402). -/
def execI2cRecover (d : DieId) (n : Fin 2) (s : State) : Out := .next (s.updIn .ctl d (·.i2cRecover n))

/-- A controller at rest whose EN differs starts a transition (R31). -/
def Die.i2cStart (e : Die) (n : Fin 2) : Die :=
  let st := e.fld (F.MISC_I2C_CTRL_STATE n.val)
  let en := e.bit (F.MISC_I2C_CTRL_EN n.val)
  if st = St.off ∧ en then e.setFld (F.MISC_I2C_CTRL_STATE n.val) St.rising
  else if st = St.on ∧ !en then e.setFld (F.MISC_I2C_CTRL_STATE n.val) St.falling
  else e

/-- The end of a controller's transition; FALLING lasts until the transfer in progress ends (R32, R402). -/
def Die.i2cEnd (e : Die) (n : Fin 2) : Die :=
  let st := e.fld (F.MISC_I2C_CTRL_STATE n.val)
  if st = St.rising then (e.setFld (F.MISC_I2C_CTRL_STATE n.val) St.on).i2cStart n
  else if st = St.falling ∧ !e.bit (F.MISC_I2C_STAT_BUSY n.val) then
    (e.setFld (F.MISC_I2C_CTRL_STATE n.val) St.off).i2cStart n
  else e

/-! ### MIDI output (R403) -/

/-- The unit's state. -/
def Die.midiState (e : Die) : Nat := e.fld F.MISC_MIDI_CTRL_STATE

/-- While ON and idle, the output takes the next byte of its queue. -/
def Die.midiNext (e : Die) : Die :=
  if e.midiState = St.on ∧ e.misc.sending = none then
    e.updMisc fun m => { m with
      sending := m.tx.head?
      tx := m.tx.tail }
  else e

/-- MIDI_TX_PUSH: a byte enters the queue of 64, or is dropped with TXOVF (R403). -/
def Die.midiPush (e : Die) (b : Byte) : Die :=
  if 64 ≤ e.misc.tx.length then e.setFld F.MISC_MIDI_STAT_TXOVF 1
  else (e.updMisc fun m => { m with tx := m.tx ++ [b] }).midiNext

/-- MIDI_TX_PUSH (R403). -/
def execMidiTxPush (d : DieId) (byte : Byte) (s : State) : Out := .next (s.updIn .ctl d (·.midiPush byte))

/-- MIDI_TX_BYTE_SENT: the byte in progress is complete (R403). -/
def execMidiTxByteSent (d : DieId) (s : State) : Out :=
  .next (s.updIn .ctl d fun e => (e.updMisc fun m => { m with sending := none }).midiNext)

/-- The unit at rest whose EN differs starts a transition; a fall discards the queue (R31, R403). -/
def Die.midiStart (e : Die) : Die :=
  if e.midiState = St.off ∧ e.bit F.MISC_MIDI_CTRL_EN then e.setFld F.MISC_MIDI_CTRL_STATE St.rising
  else if e.midiState = St.on ∧ !e.bit F.MISC_MIDI_CTRL_EN then
    (e.setFld F.MISC_MIDI_CTRL_STATE St.falling).updMisc fun m => { m with tx := [] }
  else e

/-- The end of the unit's transition (R32, R403). -/
def Die.midiEnd (e : Die) : Die :=
  if e.midiState = St.rising then ((e.setFld F.MISC_MIDI_CTRL_STATE St.on).midiStart).midiNext
  else if e.midiState = St.falling then
    ((e.setFld F.MISC_MIDI_CTRL_STATE St.off).updMisc fun m => { m with
      tx := []
      sending := none }).midiStart
  else e

/-- The I2C controller whose status register an address is, with a transfer in progress: SCL and SDA move (R402). -/
def Die.i2cMoves (e : Die) (a : Nat) : Option (Fin 2) :=
  (List.finRange 2).find? fun (n : Fin 2) => a == R.MISC_I2C_STAT n.val && e.misc.i2c[n].isSome

/-- What MISC registers compute at a read: the balls, the level of the MIDI queue, and the lines of an I2C bus on which a
transfer runs (R400, R403, R405). -/
def Die.miscRead (e : Die) (a : Nat) : Option Nat :=
  if a = R.MISC_GPIO_IN then some e.gpioPins
  else if a = R.MISC_MIDI_STAT then
    let n := e.misc.tx.length
    some (insBits (insBits (e.regN a) 0 7 n) 8 1 (b2n (n < e.fld F.MISC_MIDI_CTRL_LOWMARK)))
  else (e.i2cMoves a).map fun n => insBits (e.regN a) 9 2 (Config.i2cLines e.free n.val).toNat

/-! ### Interrupt lines (R386, R387) -/

/-- Any bit of a register set together with its enable. -/
def Die.anyOf (e : Die) (irq ien : Nat) : Bool := (e.reg irq &&& e.reg ien) != 0

/-- The source of a line that is common to the cores asserts it (R386). -/
def Die.line (e : Die) (l : Nat) : Bool :=
  match l with
  | 1 => e.anyOf R.REF_IRQ R.REF_IEN
  | 2 => (BitVec.ofNat 32 ((e.timRead R.TIM_IRQ).getD 0) &&& e.reg R.TIM_IEN) != 0
  | 3 => e.anyOf (R.CHNX_IRQ 0) (R.CHNX_IEN 0)
  | 4 => e.anyOf (R.CHNX_IRQ 1) (R.CHNX_IEN 1)
  | 5 => e.anyOf R.CHN_IRQ R.CHN_IEN
  | 6 => e.anyOf R.PAIR_IRQ R.PAIR_IEN
  | 7 => e.anyOf R.ENG_SWAPIRQ R.ENG_SWAPIEN
  | 8 => e.anyOf R.ENG_OVRIRQ R.ENG_OVRIEN
  | 9 => e.anyOf R.ENG_BELLIRQ R.ENG_BELLIEN
  | 10 => e.anyOf R.YRD_IRQ R.YRD_IEN
  | 11 => e.anyOf R.YRD_HODIRQ R.YRD_HODIEN
  | 12 => e.anyOf R.MOR_IRQ R.MOR_IEN
  | 13 => (e.reg R.VOX_IRQ &&& e.reg R.VOX_IEN &&& 0x3F) != 0
  | 14 => e.anyOf (R.SAP_G_IRQ 0) (R.SAP_G_IEN 0)
  | 15 => e.anyOf (R.SAP_G_IRQ 1) (R.SAP_G_IEN 1)
  | 16 => e.anyOf R.CVD_IRQ R.CVD_IEN
  | 17 => (!e.vox.fifo.isEmpty && e.bit F.VOX_IEN_FWMIDI)
      || (e.bit F.MISC_MIDI_CTRL_TXIEN && (natBit ((e.miscRead R.MISC_MIDI_STAT).getD 0) 8 || e.bit F.MISC_MIDI_STAT_TXOVF))
  | 18 => (List.range 2).any fun n => e.bit (F.MISC_I2C_CTRL_IEN n) && (e.bit (F.MISC_I2C_STAT_DONE n)
      || e.bit (F.MISC_I2C_STAT_NACK n) || e.bit (F.MISC_I2C_STAT_TIMEOUT n))
  | 19 => e.reg R.MISC_GPIO_IRQ != 0
  | 20 => e.anyOf R.LOG_IRQ R.LOG_IEN
  | 22 => e.anyOf R.XBR_IRQ R.XBR_IEN
  | 23 => e.anyOf R.BTL_IRQ R.BTL_IEN
  | 24 => (e.fld F.BTL_SUPPLY_WARN &&& e.fld F.BTL_SUPIEN_WARN) != 0
  | 25 => e.bit F.PAIR_FENCE_FIRQ && e.bit F.PAIR_FENCE_FIEN
  | _ => false

/-- A line is pending at core `n`: the frame tick, the sample line of the core a counter names, and the doorbells are the
core's own (R386, R444). -/
def Die.pendingAt (e : Die) (n : Fin 4) (l : Nat) : Bool :=
  if l = 0 then e.bit (F.XBR_N_LATCH_FT n.val)
  else if l = 21 then (List.range 8).any fun k => e.bitAt F.PCT_OVF_SIRQ k && e.fld (F.PCT_SEL_CORE k) == n.val
  else if 26 ≤ l then e.bitAt (F.XBR_N_LATCH_DB n.val) (l - 26)
  else e.line l

/-- The pending lines of core `n`, as XBR_n_IPEND shows them. -/
def Die.ipend (e : Die) (n : Fin 4) : Nat := ofBits ((List.range 32).map (e.pendingAt n))

/-- The lowest pending line that is enabled at core `n` (R387). -/
def Die.claim (e : Die) (n : Fin 4) : Option Nat :=
  (List.range 32).find? fun l => natBit (e.regN (R.XBR_N_IEN n.val)) l && e.pendingAt n l

/-- The frame tick reaches the latch of every core (R386). -/
def Die.tickLine (e : Die) : Die := (List.range 4).foldl (fun e n => e.setFld (F.XBR_N_LATCH_FT n) 1) e

/-- DOORBELL_SET: bits of core `n`'s latch (R386). -/
def Die.doorbell (e : Die) (n : Fin 4) (v : Word) : Die :=
  e.setFld (F.XBR_N_LATCH_DB n.val) (e.fld (F.XBR_N_LATCH_DB n.val) ||| bitsOf v.toNat 26 6)

/-- DOORBELL_SET (R386). -/
def execDoorbellSet (d : DieId) (n : Fin 4) (v : Word) (s : State) : Out := .next (s.updIn .ctl d (·.doorbell n v))

/-! ### Semaphores (R385) -/

/-- SEMAPHORE_READ: a free semaphore answers 0 and the reader holds it; a held one shows its holder. -/
def Die.semRead (e : Die) (m : BitVec 3) (s : Fin 16) : Die :=
  if e.bit (F.XBR_SEM_HELD s.val) then e.answer m (e.reg (R.XBR_SEM s.val))
  else (e.answer m 0).setRegN (R.XBR_SEM s.val) (1 + 16 * m.toNat)

/-- SEMAPHORE_READ (R385). -/
def execSemaphoreRead (d : DieId) (m : BitVec 3) (s : Fin 16) (st : State) : Out := .next (st.updIn .ctl d (·.semRead m s))

/-- SEMAPHORE_WRITE: a 0 from the holder frees the semaphore; any other write is ignored. -/
def Die.semWrite (e : Die) (m : BitVec 3) (s : Fin 16) (v : Word) : Die :=
  if !natBit v.toNat 0 ∧ e.bit (F.XBR_SEM_HELD s.val) ∧ e.fld (F.XBR_SEM_HOLDER s.val) = m.toNat then
    e.setReg (R.XBR_SEM s.val) 0
  else e

/-- SEMAPHORE_WRITE (R385). -/
def execSemaphoreWrite (d : DieId) (m : BitVec 3) (s : Fin 16) (v : Word) (st : State) : Out :=
  .next (st.updIn .ctl d (·.semWrite m s v))

/-- The core a register of the XBR block's per-core windows belongs to. -/
def coreOf (a base : Nat) : Option (Fin 4) :=
  if h : base ≤ a ∧ (a - base) % 0x20 = 0 ∧ (a - base) / 0x20 < 4 then some ⟨(a - base) / 0x20, h.2.2⟩ else none

/-- What XBR registers compute at a read: IPEND and CLAIM (R387, R404). -/
def Die.xbrRead (e : Die) (a : Nat) : Option Nat :=
  match coreOf a (R.XBR_N_IPEND 0), coreOf a (R.XBR_N_CLAIM 0) with
  | some n, _ => some (e.ipend n)
  | _, some n => some ((e.claim n).getD 0x3F)
  | _, _ => none

end Sys2Proof.Machine
end

