-- ==== Sys2Proof/Machine/Sap.lean ====
section
/-! DEFINITION. The serial audio ports: groups, formats, frame numbering, masks, queues and alien clocks (R346 to R363). -/

namespace Sys2Proof.Machine

/-- Change a port. -/
def Die.updSap (e : Die) (p : Fin 8) (f : SapPort → SapPort) : Die :=
  { e with sap := { e.sap with ports := vupd e.sap.ports p f } }

/-- A port's queues and counters. -/
def Die.sapPort (e : Die) (p : Fin 8) : SapPort := e.sap.ports[p]

/-- The group of a port: 0 main, 1 side (R347). -/
def Die.group (e : Die) (p : Fin 8) : Fin 2 := if 6 ≤ p.val ∧ e.bit (F.SAP_G_CTRL_SIDE 1) then 1 else 0

/-- The port's group is in slave mode. -/
def Die.slave (e : Die) (p : Fin 8) : Bool := e.bit (F.SAP_G_CTRL_MODE (e.group p).val)

/-- The domain of a group (R347). -/
def groupDom (g : Fin 2) : Dom := if g.val = 0 then .sapm else .saps

/-- A port's state (R31). -/
def Die.sapState (e : Die) (p : Fin 8) : Nat := e.fld (F.SAP_P_CTRL_STATE p.val)

/-- Bits of the codes of SW and DW (R349). -/
def widthOf (code : Nat) : Nat := 16 + 8 * code

/-- S: the slot count (R349). -/
def Die.slotCount (e : Die) (p : Fin 8) : Nat :=
  if e.fld (F.SAP_P_CTRL_FMT p.val) = 2 then e.fld (F.SAP_P_CTRL_SLOTS p.val) + 1 else 2

/-- B: the bit periods of a port frame (R349). -/
def Die.bitPeriods (e : Die) (p : Fin 8) : Nat := e.slotCount p * widthOf (e.fld (F.SAP_P_CTRL_SW p.val))

/-- The SIDE rate in mHz (R331). -/
def Die.sideRate (e : Die) : Nat :=
  if !e.bit F.REF_SIDE_SRC && e.regN R.REF_SIDEFREQ != 0 then e.regN R.REF_SIDEFREQ else 1000 * e.fld F.REF_SIDE_RATE

/-- The divisor of the group clock on a group's master clock output, which is held low without it (R348). -/
def Die.mcko (e : Die) (g : Fin 2) : Option Nat :=
  if e.bit (F.SAP_G_CTRL_MCKO_EN g.val) then some (2 ^ e.fld (F.SAP_G_CTRL_MCKODIV g.val)) else none

/-- The code of K for a group (R348). -/
def Die.kCode (e : Die) (g : Fin 2) : Nat :=
  if g.val = 0 then e.fld F.ENG_RATE_RATE
  else if e.sideRate ≤ 48000000 then 0 else if e.sideRate ≤ 96000000 then 1 else 2

/-! ### Words and quarters (R352) -/

/-- An input word of `dw` bits becomes a quarter. -/
def sapIn (dw : Nat) (w : Word) : Quarter :=
  match dw with
  | 16 => BitVec.ofNat 28 (w.toNat % 2 ^ 16 * 2 ^ 12)
  | 24 => BitVec.ofNat 28 (w.toNat % 2 ^ 24 * 2 ^ 4)
  | _ => BitVec.ofNat 28 (w.toNat / 2 ^ 4)

/-- An output quarter becomes a word of `dw` bits, and whether it saturated. -/
def sapOut (dw : Nat) (q : Quarter) : Word × Bool :=
  if 28 ≤ dw then (BitVec.ofNat 32 (q.toNat * 2 ^ 4), false)
  else
    let x := roundMode q.toInt (28 - dw) 0
    let y := clampI (-(2 ^ (dw - 1))) (2 ^ (dw - 1) - 1) x
    (BitVec.ofNat 32 ((BitVec.ofInt dw y).toNat), decide (y ≠ x))

/-! ### PHASE (R353, R354) -/

/-- L = ⌈4 × N / B⌉. -/
def Die.onTimeLow (e : Die) (p : Fin 8) : Nat :=
  (4 * e.cyc + e.bitPeriods p - 1) / e.bitPeriods p

/-- The distance of two numbers. -/
def dist (a b : Nat) : Nat := if a ≤ b then b - a else a - b

/-- The port's PHASE is recorded, with EXTRA and EDGE; in the side group it stays zero (R353, R354, R362). -/
def Die.measure (e : Die) (p : Fin 8) : Die :=
  if e.group p = 1 then e
  else
    let lo := e.onTimeLow p
    let hi := e.cyc - 640
    let ph := if e.slave p then (e.sapPort p).last.toNat else hi
    (((e.setFld (F.SAP_P_PHASE_CYCLE p.val) ph).setFld (F.SAP_P_PHASE_VALID p.val) 1).setBit
      (F.SAP_P_STAT_EXTRA p.val) (ph < lo || hi < ph)).setBit (F.SAP_P_STAT_EDGE p.val)
      (e.slave p && (decide (dist ph lo ≤ 16) || decide (dist ph hi ≤ 16)))

/-! ### Alien clocks (R361) -/

/-- A port becomes alien: it keeps its state and is zero in both directions until it next rises. -/
def Die.alien (e : Die) (p : Fin 8) : Die :=
  if e.bit (F.SAP_P_STAT_ALIEN p.val) then e
  else (((e.setFld (F.SAP_P_STAT_ALIEN p.val) 1).setBitAt (F.SAP_G_IRQ_ALIEN (e.group p).val) p.val true).updSap p fun q =>
    { q with slots := [] }).logEv 6 1 p.val

/-- A queue of the port slipped (R360). -/
def Die.slip (e : Die) (p : Fin 8) : Die :=
  (e.setFld (F.SAP_P_STAT_SLIP p.val) 1).setBitAt (F.SAP_G_IRQ_SLIP (e.group p).val) p.val true

/-- The port carries data: ON, with its phase known, and not alien (R358, R361). -/
def Die.passing (e : Die) (p : Fin 8) : Bool :=
  e.sapState p == St.on && !e.bit (F.SAP_P_STAT_ALIEN p.val) && !e.bit (F.SAP_P_STAT_NOCLK p.val)

/-- Cycles between the phases of two frame syncs, either way round the frame. -/
def Die.drift (e : Die) (a b : Nat) : Nat := min (dist a b) (e.cyc - dist a b)

/-- ENG cycles from the last frame sync of a port to a cycle of this frame (R361). -/
def Die.syncInterval (e : Die) (p : Fin 8) (phase : Nat) : Nat :=
  (e.sapPort p).fts * e.cyc + phase - (e.sapPort p).last.toNat

/-- A slave port's frame sync departs from what R361 allows: bit periods, interval, drift from PHASE, or, as the operand
says, the interval of a side port or the bit clock's division. -/
def Die.breaks (e : Die) (p : Fin 8) (phase bits : Nat) (other : Bool) : Bool :=
  let b := e.bitPeriods p
  other || bits != b
    || (e.group p = 0 && 0 < (e.sapPort p).seen && e.cyc < dist (e.syncInterval p phase) e.cyc * b)
    || (e.bit (F.SAP_P_PHASE_VALID p.val) && 2 * e.cyc < e.drift phase (e.fld (F.SAP_P_PHASE_CYCLE p.val)) * b)

/-- The interval that runs at FT is longer than the port's frame period and one bit period: N cycles in the main group, the
SIDE period in the side group (R361). -/
def Die.syncLate (e : Die) (p : Fin 8) : Bool :=
  let b := e.bitPeriods p
  let i := e.syncInterval p 0
  if e.group p = 0 then (b + 1) * e.cyc < b * i
  else (b + 1) * (1000 * e.rateHz * e.cyc) < b * i * e.sideRate

/-- At FT a slave port whose frame syncs have stopped is alien (R361). -/
def Die.syncLost (e : Die) (p : Fin 8) : Die :=
  let e := e.updSap p fun q => { q with fts := min (2 ^ 18) (q.fts + 1) }
  if e.slave p ∧ e.sapState p = St.on ∧ 0 < (e.sapPort p).seen ∧ e.syncLate p then e.alien p else e

/-- GROUP_CLOCK_LOSS: the domain stops, CLKLOSS sets, and every ON port of the group becomes alien (R361). -/
def Die.clockLoss (e : Die) (g : Fin 2) : Die :=
  let e := e.setFld (F.SAP_G_IRQ_CLKLOSS g.val) 1
  let e := ({ e with sap := { e.sap with lost := e.sap.lost.set g.val true } } : Die).clock (groupDom g) false
  (List.finRange 8).foldl (fun e (p : Fin 8) => if e.group p = g ∧ e.sapState p = St.on then e.alien p else e) e

/-- GROUP_CLOCK_LOSS (R361). -/
def execGroupClockLoss (d : DieId) (side : Bool) (s : State) : Out :=
  .next (s.updIn .keep d (·.clockLoss (if side then 1 else 0)))

/-- A group clock that had stopped runs again: a port-frame boundary shows it, or the group has gone to master mode, in which
ENG or the SIDE PLL gives it (R348). -/
def Die.clockBack (e : Die) (g : Fin 2) : Die :=
  if e.sap.lost[g] then ({ e with sap := { e.sap with lost := e.sap.lost.set g.val false } } : Die).clock (groupDom g) true
  else e

/-! ### Masks and formats (R356, R357, R359) -/

/-- The pending masks become active; bits at or above S read zero (R356, R357). -/
def Die.applyMasks (e : Die) (p : Fin 8) : Die :=
  let m := 2 ^ e.slotCount p
  (e.setFld (F.SAP_P_AMASK_IN p.val) (e.fld (F.SAP_P_MASK_IN p.val) % m)).setFld (F.SAP_P_AMASK_OUT p.val)
    (e.fld (F.SAP_P_MASK_OUT p.val) % m)

/-- SAP_MASK_WRITE: the pending masks; a write in the last 2 bit periods waits for the frame after the next (R357). -/
def Die.sapMask (e : Die) (p : Fin 8) (v : Word) (lastTwo : Bool) : Die :=
  (e.setReg (R.SAP_P_MASK p.val) v).updSap p fun q => { q with maskLate := lastTwo && e.sapState p != St.off }

/-- SAP_MASK_WRITE (R357). -/
def execSapMaskWrite (d : DieId) (p : Fin 8) (v : Word) (lastTwo : Bool) (s : State) : Out :=
  .next (s.writeIn (groupDom ((s.die d).group p)) d (R.SAP_P_MASK p.val) v (·.sapMask p v lastTwo))

/-- What bits 16:3 read after a write: SLOTS and DELAY read fixed values in the formats without them (R362). -/
def sapNorm (v : Nat) : Nat :=
  let f := bitsOf v 3 14 * 8
  match bitsOf v 3 2 with
  | 0 => insBits (insBits f 5 4 1) 13 1 1
  | 1 => insBits (insBits f 5 4 1) 13 1 0
  | _ => f

/-- A format that R359 accepts: no reserved code, DW at most SW, at least two TDM slots, and R350 in a master group. -/
def sapFormatOk (v : Nat) (master : Bool) (k : Nat) : Bool :=
  let fmt := bitsOf v 3 2
  let sw := bitsOf v 9 2
  let b := (if fmt = 2 then bitsOf v 5 4 + 1 else 2) * widthOf sw
  fmt != 3 && sw != 3 && bitsOf v 11 2 ≤ sw && !(fmt == 2 && bitsOf v 5 4 == 0)
    && (!master || (sw != 1 && ((List.range 11).any fun i => b == 2 ^ i) && b ≤ k))

/-- SAP_CTRL_WRITE: EN takes effect always; bits 16:3 change only while the port is OFF, to an accepted format, and a write that
names a refused one, or would change them at any other time, sets FMTERR (R359). -/
def Die.sapCtrl (e : Die) (p : Fin 8) (v : Word) : Die :=
  let old := e.regN (R.SAP_P_CTRL p.val)
  let was := sapNorm old
  let new := sapNorm v.toNat
  let e := e.setFld (F.SAP_P_CTRL_EN p.val) (v.toNat % 2)
  let off := e.sapState p = St.off
  if off ∧ sapFormatOk v.toNat (!e.slave p) (1024 / 2 ^ e.kCode (e.group p)) then
    e.setRegN (R.SAP_P_CTRL p.val) (e.regN (R.SAP_P_CTRL p.val) % 8 + new)
  else if !off ∧ new = was then e
  else e.setFld (F.SAP_P_STAT_FMTERR p.val) 1

/-- SAP_CTRL_WRITE (R359). -/
def execSapCtrlWrite (d : DieId) (p : Fin 8) (v : Word) (s : State) : Out :=
  .next (s.writeIn .eng d (R.SAP_P_CTRL p.val) v (·.sapCtrl p v))

/-- Nothing is measured of a port's frame syncs. -/
def Die.unmeasured (e : Die) (p : Fin 8) : Die :=
  ((e.setRegN (R.SAP_P_PHASE p.val) 0).setFld (F.SAP_P_STAT_EXTRA p.val) 0).setFld (F.SAP_P_STAT_EDGE p.val) 0

/-- What the ports show of PHASE follows MODE and SIDE: nothing in the side group, and no EDGE in master mode (R354, R362). -/
def Die.groupPhases (e : Die) : Die :=
  (List.finRange 8).foldl (fun e (p : Fin 8) =>
    if e.group p = 1 then e.unmeasured p
    else if e.slave p then e
    else e.setFld (F.SAP_P_STAT_EDGE p.val) 0) e

/-- A write of a group's control register: MODE and SIDE are ignored while a port they affect is not OFF (R359). In master mode
ENG or the SIDE PLL runs the group's domain (R348). -/
def Die.groupCtrl (e : Die) (g : Fin 2) (v : Word) : Die :=
  let busy := (List.finRange 8).any fun (p : Fin 8) => e.group p == g && e.sapState p != St.off
  let sideBusy := (List.finRange 8).any fun (p : Fin 8) => 6 ≤ p.val && e.sapState p != St.off
  let e := (e.setFld (F.SAP_G_CTRL_MCKO_EN g.val) (bitsOf v.toNat 1 1)).setFld (F.SAP_G_CTRL_MCKODIV g.val)
    (bitsOf v.toNat 2 2)
  let e := if busy then e else e.setFld (F.SAP_G_CTRL_MODE g.val) (v.toNat % 2)
  let e := (if g.val = 0 || sideBusy then e else e.setFld (F.SAP_G_CTRL_SIDE 1) (bitsOf v.toNat 4 1)).groupPhases
  if !e.bit (F.SAP_G_CTRL_MODE g.val) && (g.val == 1 || e.runs .eng) then e.clockBack g else e

/-! ### Start and stop (R358) -/

/-- A port begins RISING: queues empty, ALIEN and NOCLK clear, PHASE is measured anew, masks active. -/
def Die.sapRise (e : Die) (p : Fin 8) : Die :=
  let e := (e.setFld (F.SAP_P_CTRL_STATE p.val) St.rising).unmeasured p
  let e := ((e.setFld (F.SAP_P_STAT_ALIEN p.val) 0).setFld (F.SAP_P_STAT_NOCLK p.val) 0).applyMasks p
  e.updSap p fun _ => { SapPort.reset with framesLeft := 64 }

/-- A port begins FALLING: zero data in both directions. -/
def Die.sapFall (e : Die) (p : Fin 8) : Die :=
  (e.setFld (F.SAP_P_CTRL_STATE p.val) St.falling).updSap p fun q =>
    { q with
      flow := false
      inQ := []
      outQ := []
      slots := []
      heldIn := []
      heldOut := []
      framesLeft := 32 }

/-- At FT a port whose EN differs from its resting state starts a transition (R31). -/
def Die.sapStart (e : Die) (p : Fin 8) : Die :=
  if e.sapState p = St.off ∧ e.bit (F.SAP_P_CTRL_EN p.val) then e.sapRise p
  else if e.sapState p = St.on ∧ !e.bit (F.SAP_P_CTRL_EN p.val) then e.sapFall p
  else e

/-- A frame of the main group's transitions has passed. -/
def Die.sapCount (e : Die) : Die :=
  (List.finRange 8).foldl (fun e (p : Fin 8) =>
    if e.group p = 0 then e.updSap p fun q => { q with framesLeft := q.framesLeft - 1 } else e) e

/-- The end of a port's transition (R32, R358): ON with PHASE measured, or without clocks; or OFF. -/
def Die.sapEnd (e : Die) (p : Fin 8) : Die :=
  if e.group p = 0 ∧ (e.sapPort p).framesLeft ≠ 0 then e
  else if e.sapState p = St.rising then
    let e := e.setFld (F.SAP_P_CTRL_STATE p.val) St.on
    let e := if !e.slave p || 16 ≤ (e.sapPort p).seen then e.measure p
      else (e.setFld (F.SAP_P_STAT_NOCLK p.val) 1).updSap p fun q => { q with seen := 0 }
    if e.bit (F.SAP_P_CTRL_EN p.val) then e else e.sapFall p
  else if e.sapState p = St.falling then
    let e := (e.setFld (F.SAP_P_CTRL_STATE p.val) St.off).updSap p fun q => { q with dout := none }
    if e.bit (F.SAP_P_CTRL_EN p.val) then e.sapRise p else e
  else e

/-! ### Port frames and words (R352, R353, R357, R360) -/

/-- A frame sync of a slave port is counted, and the 16th in ON gives PHASE (R358). -/
def Die.countSync (e : Die) (p : Fin 8) (phase : BitVec 15) : Die :=
  let e := e.updSap p fun q => { q with
    seen := min 16 (q.seen + 1)
    fts := 0
    last := phase }
  if e.sapState p = St.on ∧ e.bit (F.SAP_P_STAT_NOCLK p.val) ∧ (e.sapPort p).seen = 16 then
    (e.measure p).setFld (F.SAP_P_STAT_NOCLK p.val) 0
  else e

/-- Words that must stand in the output queue before its reader begins: two frames where the window lies before the
boundary in the frame (R353). -/
def Die.outLead (e : Die) (p : Fin 8) : Nat :=
  if e.group p = 0 ∧ e.cyc - 512 ≤ e.fld (F.SAP_P_PHASE_CYCLE p.val) then 2 * e.slotCount p else e.slotCount p

/-- `n` words from a queue; missing ones are zero. -/
def takeWords (n : Nat) (q : List Quarter) : List Quarter := q.take n ++ List.replicate (n - q.length) 0

/-- Words that find room in the output queue, and whether one was dropped. -/
def pushWords (cap : Nat) (q ws : List Quarter) : List Quarter × Bool :=
  ((q ++ ws).take cap, decide (cap < q.length + ws.length))

/-- The frames of SIDE are counted at this port: of ports 6 and 7, at the first that is not OFF (R177, R178). -/
def Die.countsSide (e : Die) (p : Fin 8) : Bool := p.val == 6 || (p.val == 7 && e.sapState 6 == St.off)

/-- A side port hands its input frame to the bridge and takes its output frame from it, each through its queue; an empty or a
full queue slips (R174, R355, R360). -/
def Die.sideFrame (e : Die) (p : Fin 8) : Die :=
  let n := e.slotCount p
  let q := e.sapPort p
  let run := q.inRun || decide (n ≤ q.inQ.length)
  let e := e.bridgeFrame false (e.bridgeOn (p.val == 7)) (e.countsSide p)
  let (out, full) := pushWords (2 * n) q.outQ ((List.range n).map fun s => e.bridgeSlot (p.val == 7) s)
  let e := e.updSap p fun q => { q with
    slots := if run then takeWords n q.inQ else []
    inQ := if run then q.inQ.drop n else q.inQ
    inRun := run
    outQ := out
    outRun := q.outRun || decide (n ≤ out.length) }
  if full || (run && q.inQ.length < n) then e.slip p else e

/-- The queues at a boundary: data flows from the first one on which the port is ready, and the output reader begins once
its words are there. -/
def Die.openFrame (e : Die) (p : Fin 8) (ready : Bool) : Die :=
  let e := e.updSap p fun q => { q with
    slot := 0
    flow := ready }
  if !ready then e.updSap p fun q => { q with slots := if e.group p = 1 then [] else q.slots }
  else if e.group p = 1 then e.sideFrame p
  else e.updSap p fun q => { q with outRun := q.outRun || decide (e.outLead p ≤ q.outQ.length) }

/-- PORT_FRAME: a boundary of the port's frames. In slave mode the operands give the cycle at which the frame sync came, the
bit periods since the last one, and the conditions of R361 that the die's state does not show. -/
def Die.portFrame (e : Die) (p : Fin 8) (phase : BitVec 15) (bits : Nat) (other lastTwo : Bool) : Die :=
  let g := e.group p
  if e.sapState p = St.off || e.shut (groupDom g) || !(e.runs (groupDom g) || e.sap.lost[g]) then e
  else
    let e := e.clockBack g
    let ready := e.passing p
    let e := e.updSap p fun q => { q with maskWas := BitVec.ofNat 16 (e.fld (F.SAP_P_AMASK_IN p.val)) }
    let e := if lastTwo || (e.sapPort p).maskLate then e else e.applyMasks p
    let e := e.updSap p fun q => { q with maskLate := false }
    let e := if e.slave p && e.breaks p phase.toNat bits other then e.alien p else e
    let e := if e.slave p then e.countSync p phase else e
    e.openFrame p (ready && e.passing p)

/-- PORT_FRAME (R353). -/
def execPortFrame (d : DieId) (p : Fin 8) (phase : BitVec 15) (bits : BitVec 16) (alien lastTwo : Bool) (s : State) :
    Out :=
  .next (s.upd d (·.portFrame p phase bits.toNat alien lastTwo))

/-- SAP_INPUT_WORD: the word enters the queue of two frames, or is dropped with a slip (R352, R360). -/
def Die.sapInput (e : Die) (p : Fin 8) (w : Word) : Die :=
  if !(e.sapPort p).flow || !e.passing p then e
  else if 2 * e.slotCount p ≤ (e.sapPort p).inQ.length then e.slip p
  else e.updSap p fun q => { q with inQ := q.inQ ++ [sapIn (widthOf (e.fld (F.SAP_P_CTRL_DW p.val))) w] }

/-- SAP_INPUT_WORD (R352). -/
def execSapInputWord (d : DieId) (p : Fin 8) (w : Word) (s : State) : Out := .next (s.updIn (groupDom ((s.die d).group p)) d (·.sapInput p w))

/-- The quarter of the next output slot: zero before the reader begins or when the port does not carry data; an empty queue
is a slip (R358, R360, R361). -/
def Die.takeOut (e : Die) (p : Fin 8) : Quarter × Die :=
  let q := e.sapPort p
  if !q.flow || !e.passing p || !q.outRun then (0, e)
  else match q.outQ with
    | [] => (0, e.slip p)
    | x :: rest => (x, e.updSap p fun q => { q with outQ := rest })

/-- SAP_OUTPUT_WORD: the next slot's word leaves the queue; in a masked slot the output is at high impedance and the word is
discarded. Saturated words are counted (R352, R356, R358). -/
def Die.sapOutput (e : Die) (p : Fin 8) : Die :=
  if e.sapState p = St.off then e
  else
    let (x, e) := e.takeOut p
    let s := (e.sapPort p).slot
    let (w, sat) := sapOut (widthOf (e.fld (F.SAP_P_CTRL_DW p.val))) x
    let on := natBit (e.fld (F.SAP_P_AMASK_OUT p.val)) s
    let e := e.updSap p fun q => { q with
      slot := s + 1
      dout := if on then some w else none }
    if on && sat then
      (e.count (F.SAP_P_SAT_COUNT p.val) 1).setBitAt (F.SAP_G_IRQ_SAT (e.group p).val) p.val true
    else e

/-- SAP_OUTPUT_WORD (R352). -/
def execSapOutputWord (d : DieId) (p : Fin 8) (s : State) : Out := .next (s.updIn (groupDom ((s.die d).group p)) d (·.sapOutput p))

/-! ### The exchange window (R353, R356, R360) -/

/-- Words under an input mask. -/
def maskWords (m : BitVec 16) (ws : List Quarter) : List Quarter :=
  ws.mapIdx fun s q => if natBit m.toNat s then q else 0

/-- The window takes a main port's input frame. A PHASE between the alignment point and the window holds it one frame
more (R353). -/
def Die.sapWindowIn (e : Die) (p : Fin 8) : Die :=
  let n := e.slotCount p
  let q := e.sapPort p
  let run := q.inRun || decide (n ≤ q.inQ.length)
  if e.group p = 1 then e
  else if !e.passing p || !run then e.updSap p fun q => { q with slots := [] }
  else
    let ph := e.fld (F.SAP_P_PHASE_CYCLE p.val)
    let ws := maskWords q.maskWas (takeWords n q.inQ)
    let late := e.cyc - 640 < ph && ph < e.cyc - 512
    let e := if q.inQ.length < n then e.slip p else e
    e.updSap p fun q => { q with
      inRun := true
      inQ := q.inQ.drop n
      heldIn := ws
      slots := if late then q.heldIn else ws }

/-- What source 0x0100 + 0x10 × p + s presents (R156, R356). -/
def Die.sapSource (e : Die) (p : Fin 8) (s : Nat) : Quarter := if e.group p = 1 then 0 else (e.sapPort p).slots.getD s 0

/-- After the gather, a main port's sinks enter its output queue. A PHASE below L holds them one frame more (R353). -/
def Die.sapWindowOut (e : Die) (p : Fin 8) : Die :=
  if e.group p = 1 || !e.passing p || !(e.sapPort p).flow then e
  else
    let n := e.slotCount p
    let ws := (List.range n).map fun s => e.sink (0x4000 + 0x10 * p.val + s)
    let early := e.bit (F.SAP_P_PHASE_VALID p.val) && e.fld (F.SAP_P_PHASE_CYCLE p.val) < e.onTimeLow p
    let (q', full) := pushWords (2 * n) (e.sapPort p).outQ (if early then (e.sapPort p).heldOut else ws)
    let e := e.updSap p fun q => { q with
      outQ := q'
      heldOut := ws }
    if full then e.slip p else e

/-- What the group status registers show (R363). -/
def Die.sapRead (e : Die) (a : Nat) : Option Nat :=
  if a = R.SAP_G_STAT 0 then some (b2n (e.runs .sapm) + 2 * e.kCode 0)
  else if a = R.SAP_G_STAT 1 then some (b2n (e.runs .saps) + 2 * e.kCode 1)
  else none

end Sys2Proof.Machine
end

