-- ==== Sys2Proof/Machine/Enable.lean ====
section
/-! DEFINITION. The four-state enable rule (R31 to R34) and its instances: where each block's transitions start and end. -/

namespace Sys2Proof.Machine

/-! ### Walls (R102, R103) -/

/-- Frames left of a wall's transition. -/
def Die.setWallFrames (e : Die) (w : Fin 4) (n : Nat) : Die :=
  { e with eng := { e.eng with walls := vupd e.eng.walls w fun p => { p with framesLeft := n } } }

/-- A wall begins RISING: 32 frames. What it has not held reads zero, whatever was written to it while it was OFF; one that
holds no retention has END bundles in every program tile (R102, R103). -/
def Die.wallRise (e : Die) (w : Fin 4) : Die :=
  ((e.loseWall w e.eng.walls[w].held).setWallState w St.rising).setWallFrames w 32

/-- A wall begins FALLING: 4 frames; a migration, a remap and the hods of the wall end (R102, R113, R137, R144). -/
def Die.wallFall (e : Die) (w : Fin 4) : Die :=
  ((((e.migEnd w).remapEnd w).hodFlush w).setWallState w St.falling).setWallFrames w 4

/-- At FT a wall at rest whose EN differs starts a transition. -/
def Die.wallStart (e : Die) (w : Fin 4) : Die :=
  if e.wallState w = St.off ∧ e.bitAt F.ENG_WCTL_WALL_EN w then e.wallRise w
  else if e.wallState w = St.on ∧ !e.bitAt F.ENG_WCTL_WALL_EN w then e.wallFall w
  else e

/-- The end of a wall's transition; power goes at the end of FALLING, with retention where RET is set (R32, R103). -/
def Die.wallEnd (e : Die) (w : Fin 4) : Die :=
  if e.eng.walls[w].framesLeft ≠ 0 then e
  else if e.wallState w = St.rising then
    let e := e.setWallState w St.on
    if e.bitAt F.ENG_WCTL_WALL_EN w then e else e.wallFall w
  else if e.wallState w = St.falling then
    let e := (e.setWallState w St.off).loseWall w (e.bitAt F.ENG_WCTL_RET w)
    if e.bitAt F.ENG_WCTL_WALL_EN w then e.wallRise w else e
  else e

/-! ### Chain ports (R238) -/

/-- What a module reports as it stands when its port leaves OFF: the port is then lost (R270). -/
def Die.moduleLoss (e : Die) (p : PortId) : Die :=
  if e.bit (F.CHNX_STAT_MODABS p.idx) then e.portLost p .modabs
  else if e.bit (F.CHNX_STAT_LOS p.idx) then e.portLost p .los
  else if e.bit (F.CHNX_STAT_TXFLT p.idx) then e.portLost p .txflt
  else e

/-- A port begins RISING: 64 frames; its counters are zero. -/
def Die.chnRise (e : Die) (p : PortId) : Die :=
  (((e.setFld (F.CHNX_CTRL_STATE p.idx) St.rising).portRise p).moduleLoss p).updPort p fun x => { x with framesLeft := 64 }

/-- EN of a port. Gen-1 runs one ring, chain X, and die B's ports stay OFF there (R274). -/
def Die.portWanted (e : Die) (p : PortId) : Bool := e.bit (F.CHNX_CTRL_EN p.idx) && !(e.gen1 p && e.id == .b)

/-- A port begins FALLING: 8 frames of idle blocks (R238). -/
def Die.chnFall (e : Die) (p : PortId) : Die :=
  (e.setFld (F.CHNX_CTRL_STATE p.idx) St.falling).updPort p fun x => { x with
    framesLeft := 8
    out := none }

/-- At FT a port at rest whose EN differs starts a transition. -/
def Die.chnStart (e : Die) (p : PortId) : Die :=
  if e.portState p = St.off ∧ e.portWanted p then e.chnRise p
  else if e.portState p = St.on ∧ !e.bit (F.CHNX_CTRL_EN p.idx) then e.chnFall p
  else e

/-- The end of a port's transition. Its frames are counted while ENG runs (R32, R238, R427). -/
def Die.chnEnd (e : Die) (p : PortId) : Die :=
  if (e.port p).framesLeft ≠ 0 ∧ e.runs .eng then e
  else if e.portState p = St.rising then
    let e := e.setFld (F.CHNX_CTRL_STATE p.idx) St.on
    if e.bit (F.CHNX_CTRL_EN p.idx) then e else e.chnFall p
  else if e.portState p = St.falling then
    let e := (e.setFld (F.CHNX_CTRL_STATE p.idx) St.off).portOff p
    if e.portWanted p then e.chnRise p else e
  else e

/-! ### All blocks -/

/-- TRANSITION_END for a block. -/
def Die.transitionEnd (e : Die) : EnBlock → Die
  | .wall w => e.wallEnd w
  | .vox => e.voxEnd
  | .port p => e.chnEnd p
  | .bridgeM2S => e.bridgeEnd false
  | .bridgeS2M => e.bridgeEnd true
  | .sap p => e.sapEnd p
  | .cvd => e.cvEnd
  | .i2c n => e.i2cEnd n
  | .midi => e.midiEnd

/-- The domain in which a block's transitions run. -/
def blockDom : EnBlock → Dom
  | .port _ => .ltx
  | .i2c _ => .ctl
  | .midi => .ctl
  | _ => .eng

/-- TRANSITION_END (R32). -/
def execTransitionEnd (d : DieId) (b : EnBlock) (s : State) : Out := .next (s.updIn (blockDom b) d (·.transitionEnd b))

/-- At FT every block whose transitions count frames, at rest and with its EN differing, starts one. -/
def Die.startAll (e : Die) : Die :=
  let e := (List.finRange 4).foldl (fun e (w : Fin 4) => e.wallStart w) e
  let e := (List.finRange 8).foldl (fun e (p : Fin 8) => e.sapStart p) e
  ((e.voxStart.chnStart .n).chnStart .s).cvStart

/-- A frame of every transition that counts frames has passed. -/
def Die.countFrames (e : Die) : Die :=
  let e := (List.finRange 4).foldl (fun e (w : Fin 4) => e.setWallFrames w (e.eng.walls[w].framesLeft - 1)) e
  let e := e.sapCount
  let e := e.updVox fun x => { x with framesLeft := x.framesLeft - 1 }
  let e := e.updCvd fun c => { c with framesLeft := c.framesLeft - 1 }
  [PortId.n, PortId.s].foldl (fun e p => e.updPort p fun x => { x with framesLeft := x.framesLeft - 1 }) e

end Sys2Proof.Machine
end

