-- ==== Sys2Proof/Machine/Freeze.lean ====
section
/-! DEFINITION. The freeze, the read-out port and THAW (R447 to R455). -/

namespace Sys2Proof.Machine

/-- What a read-out chain reaches (R453): the registers of its domain, and what stands beside them, the queues and their pointers
among it (R450). -/
structure ChainView where
  id : Nat
  regs : SMap Word
  courses : List Course := []
  engine : Option Engine := none
  yard : Option Yard := none
  mortar : Option Mortar := none
  swap : Option Swap := none
  vox : Option Vox := none
  cvd : Option Cvd := none
  pct : Option Pct := none
  ports : List SapPort := []
  chain : Option Chain := none
  pair : Option Pair := none
  cores : List Cpu := []
  xbar : Option Xbar := none
  misc : Option Misc := none
  posted : List Posted := []
  shadow : SMap Word := []
  boot : Option Boot := none
  ref : Option Ref := none
  tim : Option Tim := none
  log : Option LogUnit := none
  frz : Option Freeze := none
  clk : Option Clk := none

end Sys2Proof.Machine

namespace Sys2Proof

/-- FREE VALUE. The 32 bits that a read-out chain gives from a bit on, whose order the manual leaves open: by what the chain
reaches, and the bit (R452, R453). -/
opaque Config.chainWord : Machine.ChainView → Nat → Word

end Sys2Proof

namespace Sys2Proof.Machine

/-- Change the freeze unit. -/
def Die.updFrz (e : Die) (f : Freeze → Freeze) : Die := { e with frz := f e.frz }

/-- The die's gate opens, and its joined balls go to high impedance (R448). -/
def Die.gateShut (e : Die) : Die := e.gpioMove (·.updFrz fun f => { f with gate := true })

/-- FRZ_STAT.STATE. -/
def Die.frzState (e : Die) : Nat := e.fld F.FRZ_STAT_STATE

/-- A trigger comes: it is ignored while a freeze is under way (R447). -/
def Die.frzAsk (e : Die) (cause : BitVec 2) : Die :=
  if e.frzState = 0 ∧ e.frz.asked = none then e.updFrz fun f => { f with asked := some cause } else e

/-- FREEZE_PIN: `FRZ_N` held low, while PINEN is set (R447). -/
def execFreezePin (d : DieId) (s : State) : Out :=
  .next (s.updIn .keep d fun e => if e.bit F.FRZ_CTRL_PINEN then e.frzAsk 1 else e)

/-- A write of FRZ_KEY: only the key lets the next access set GO. -/
def Die.frzKey (e : Die) (v : Word) : Die := e.updFrz fun f => { f with key := v == 0xF2EE }

/-- FREEZE_GO from firmware or from the partner; it takes effect only right after the key (R447). -/
def Die.frzGo (e : Die) (partner : Bool) : Die :=
  let e' := e.updFrz fun f => { f with key := false }
  if e.frz.key then e'.frzAsk (if partner then 3 else 2) else e'

/-- FREEZE_GO (R447). -/
def execFreezeGo (d : DieId) (partner : Bool) (s : State) : Out := .next (s.updIn .keep d (·.frzGo partner))

/-- FREEZE_REQUEST: the request of the trigger that came; without one there is none (R447). The record is queued and both
transmitters go off. A lead with its partner in FOLLOW asserts DWN and waits for the fence; any other die opens its gate
and closes (R448). -/
def State.frzRequest (s : State) (d : DieId) : State :=
  let e := s.die d
  match e.frz.asked with
  | none => s
  | some c =>
    if e.frzState ≠ 0 then s
    else
      let wait := e.isLead && (s.die d.other).role == Role.follow
      let e := ((e.setFld F.FRZ_STAT_CAUSE c.toNat).setFld F.FRZ_STAT_STATE (if wait then 1 else 2)).setFld
        F.FRZ_STAT_NOFENCE 0
      let e := (e.setFld F.FRZ_STAT_CLOSED 0).setFld F.FRZ_STAT_FORCED 0
      let e := e.updFrz fun f => { f with
        asked := none
        resumeOk := e.bit F.FRZ_CTRL_RESUMEOK
        txdis := true
        prior := e.clk.stopped }
      let e := if wait then e else e.gateShut
      let s := s.setDie d (e.logEv 0 7 c.toNat (e.regN R.FRZ_STAT))
      if wait then s.down d else s

/-- FREEZE_REQUEST (R448). The CAUSE is that of the trigger. -/
def execFreezeRequest (d : DieId) (_cause : BitVec 2) (s : State) : Out := .next (s.goIn .keep d (·.frzRequest d))

/-- FENCE_WAIT_TIMEOUT: the fence has not come in 16 KEEP cycles, and the die opens its own gate (R448). -/
def execFenceWaitTimeout (d : DieId) (s : State) : Out :=
  .next (s.updIn .keep d fun e =>
    if e.frzState = 1 ∧ !e.bit F.PAIR_FENCE_FIN then
      ((e.setFld F.FRZ_STAT_NOFENCE 1).setFld F.FRZ_STAT_STATE 2).gateShut
    else e)

/-- The CLOSED bits that must stand before a domain's request (R449). -/
def domBefore : Dom → Nat
  | .eng => 0
  | .sapm => 0x01
  | .saps => 0x01
  | .nrx => 0x07
  | .srx => 0x07
  | .ltx => 0x1F
  | .ctl => 0x3F
  | .keep => 0x7F

/-- DOMAIN_CLOSE and DOMAIN_FORCE_CLOSE: a domain whose turn it is closes its gate; the freeze stands once all are closed
(R449), and its own gate then holds the joined balls, whatever the partner does (R451). -/
def Die.domainClose (e : Die) (m : Dom) (forced : Bool) : Die :=
  let closed := e.fld F.FRZ_STAT_CLOSED
  if e.frzState = 2 ∧ (closed &&& domBefore m) = domBefore m ∧ !natBit closed (domBit m) then
    let e := e.setBitAt F.FRZ_STAT_CLOSED (domBit m) true
    let e := if forced then e.setBitAt F.FRZ_STAT_FORCED (domBit m) true else e
    let e := if m = .keep then (e.setFld F.FRZ_STAT_STATE 3).updFrz fun f => { f with gate := true } else e
    { e with clk := { e.clk with stopped := m :: e.clk.stopped.filter (· != m) } }
  else e

/-- DOMAIN_CLOSE (R449). -/
def execDomainClose (d : DieId) (dom : Dom) (s : State) : Out := .next (s.updIn .keep d (·.domainClose dom false))

/-- DOMAIN_FORCE_CLOSE (R449). -/
def execDomainForceClose (d : DieId) (dom : Dom) (s : State) : Out := .next (s.updIn .keep d (·.domainClose dom true))

/-! ### The read-out port (R452, R453) -/

/-- The port answers a transaction. -/
def Die.rdo (e : Die) (r : ReadOut) : Die := e.updFrz fun f => { f with rdo := r }

/-- A good answer. -/
def rdoOk (ws : List Nat) : ReadOut := ⟨true, false, false, ws⟩

/-- A command that acts only on a frozen die: NOTFROZEN, BADARG, or its data. -/
def Die.rdoFrozen (e : Die) (ws : Option (List Nat)) : Die :=
  if e.frzState ≠ 3 then e.rdo ⟨false, true, false, []⟩
  else match ws with
    | none => e.rdo ⟨false, false, true, []⟩
    | some ws => e.rdo (rdoOk ws)

/-- READOUT_STATUS: FRZ_STAT, while the die runs too (R452). -/
def execReadoutStatus (d : DieId) (s : State) : Out := .next (s.upd d fun e => e.rdo (rdoOk [e.regN R.FRZ_STAT]))

/-- READOUT_CHAININFO: the length of one of the nine chains (R452, R453). -/
def execReadoutChaininfo (d : DieId) (id : Byte) (s : State) : Out :=
  .next (s.upd d fun e =>
    e.rdoFrozen (if id.toNat ≤ 8 then some [(Config.chainLength id.toNat).toNat] else none))

/-- Words of a transaction: a count of 0 means 65,536 (R452). -/
def rdoCount (count : BitVec 16) : Nat := if count = 0 then 65536 else count.toNat

/-- The domain of a chain's registers (R453). -/
def chainDom (id : Nat) : Dom :=
  match id with
  | 2 => .sapm
  | 3 => .saps
  | 4 => .nrx
  | 5 => .srx
  | 6 => .ltx
  | 7 => .ctl
  | 8 => .keep
  | _ => .eng

/-- What chain `id` reaches of the die (R453). -/
def Die.chainView (e : Die) (id : Nat) : ChainView :=
  let v : ChainView := {
    id := id
    regs := e.regs.filter fun r => regDom r.1 == chainDom id }
  match id with
  | 0 => { v with courses := e.eng.courses.toList }
  | 1 => { v with
      engine := some e.eng
      yard := some e.yard
      mortar := some e.mor
      swap := some e.swp
      vox := some e.vox
      cvd := some e.cvd
      pct := some e.pct
      chain := some e.chn }
  | 2 | 3 => { v with ports := e.sap.ports.toList }
  | 4 | 5 => { v with chain := some e.chn }
  | 6 => { v with
      chain := some e.chn
      pair := some e.pair }
  | 7 => { v with
      cores := e.cpus.toList
      xbar := some e.xbar
      misc := some e.misc
      posted := e.posted ++ e.stalled
      shadow := e.shadow
      boot := some e.boot }
  | _ => { v with
      ref := some e.ref
      tim := some e.tim
      log := some { e.log with mem := [] }
      boot := some e.boot
      frz := some { e.frz with rdo := ⟨false, false, false, []⟩ }
      clk := some e.clk }

/-- READOUT_CHAIN: words of 32 bits from a chain, as what it reaches stands (R452, R453). -/
def execReadoutChain (d : DieId) (id : Byte) (addr : Word) (count : BitVec 16) (s : State) : Out :=
  .next (s.upd d fun e =>
    e.rdoFrozen (if id.toNat ≤ 8 then
      some ((List.range (rdoCount count)).map fun i => (Config.chainWord (e.chainView id.toNat) (addr.toNat + 32 * i)).toNat)
    else none))

/-- A row as 224 data bits, lane 0 least significant. -/
def rowBits (r : Row) : Nat := r.toList.foldr (fun q n => q.toNat + 2 ^ 28 * n) 0

/-- A stored word: its data bits, then its check bits. -/
def stored (space a data width : Nat) : Nat := data * 2 ^ width + Config.checkBits space a data % 2 ^ width

/-- The words that the die's lane of a port's load queue holds. -/
def Die.laneBlocks (e : Die) (p : PortId) (lane : Nat) : List Block :=
  (e.chn.queue.filter fun q => q.port == p && ldLane q.ld == lane).flatMap fun q => ldBlocks q.ld

/-- A row of a course tile as address space 0x10 numbers it, entry and exit in both copies (R453). -/
def Course.spaceRow (x : Course) (t copy row : Nat) : Nat :=
  match t with
  | 0 => (SMap.get progDflt x.prog row).toNat
  | 6 => rowBits (SMap.get rowDflt (if copy = 1 then x.entryMor else x.entryEng) (row % 4096))
  | 7 => rowBits (SMap.get rowDflt (if copy = 1 then x.exitPres else x.exitWork) (row % 4096))
  | _ => rowBits (x.tileRow t row)

/-- The stored word at an address of a memory space (R453); none where nothing stands there. -/
def Die.spaceWord (e : Die) (space a : Nat) : Option Nat :=
  match space with
  | 0x10 =>
    let t := bitsOf a 13 3
    let row := bitsOf a 0 13
    let copy := if 6 ≤ t then bitsOf a 12 1 else 0
    let r := if 6 ≤ t then bitsOf a 0 12 else row
    if h : a / 2 ^ 16 < 28 then
      if r < (if t = 0 then 8192 else if t = 5 then 64 else if 6 ≤ t then 64 else 512) then
        some (stored space a ((e.eng.courses[a / 2 ^ 16]).spaceRow t copy row)
          (if t = 0 then 9 else 48))
      else none
    else none
  | 0x11 =>
    if a < 2 ^ 23 ∧ bitsOf a 12 9 < 264 then
      some (stored space a (rowBits (SMap.get rowDflt e.yard.rows ((a / 2 ^ 21 * 264 + bitsOf a 12 9) * 4096 + a % 4096))) 48)
    else none
  | 0x12 => if inMem a ∧ a % 8 = 0 then some (stored space a (e.mem.load a 8) 8) else none
  | 0x13 =>
    if a < 2 ^ 16 then
      some (stored space a (SMap.get wordDflt (if natBit a 15 then e.mor.front else e.mor.back) (a % 2 ^ 15)).toNat
        (Config.checkWidth space))
    else none
  | 0x14 =>
    let p := Config.palletPlace a
    let v := match e.chn.store[p.1]? with
      | some c => (c.slots.toList.getD p.2 0).toNat
      | none => 0
    some (stored space a v (Config.checkWidth space))
  | 0x15 =>
    if a < 2 ^ 17 ∧ bitsOf a 13 1 = 0 then
      let bs := e.laneBlocks (if natBit a 16 then .s else .n) (bitsOf a 14 2)
      some (stored space a (bs.getD (Config.loadPlace (a % 2 ^ 13)) 0).toNat (Config.checkWidth space))
    else none
  | _ => none

/-- All the values of a list of options, or none. -/
def allSome : List (Option Nat) → Option (List Nat)
  | [] => some []
  | none :: _ => none
  | some x :: xs => match allSome xs with
    | none => none
    | some ys => some (x :: ys)

/-- READOUT_MEM: stored words of a memory space (R452, R453). -/
def execReadoutMem (d : DieId) (id : Byte) (addr : Word) (count : BitVec 16) (s : State) : Out :=
  .next (s.upd d fun e =>
    let step := if id.toNat = 0x12 then 8 else 1
    e.rdoFrozen (allSome ((List.range (rdoCount count)).map fun i => e.spaceWord id.toNat (addr.toNat + step * i))))

/-- A record as 256 bits, word 7 most significant, as the port sends it. -/
def recBits (r : LogRec) : Nat := r.toList.foldr (fun w n => w.toNat + 2 ^ 32 * n) 0

/-- READOUT_LOG: records from a slot on, while the die runs too (R452). -/
def execReadoutLog (d : DieId) (addr : Word) (count : BitVec 16) (s : State) : Out :=
  .next (s.upd d fun e =>
    if addr.toNat + rdoCount count ≤ 8192 then
      e.rdo (rdoOk ((List.range (rdoCount count)).map fun i =>
        recBits (SMap.get (fun _ => LogRec.zero) e.log.mem (addr.toNat + i))))
    else e.rdo ⟨false, false, true, []⟩)

/-- THAW: with RESUMEOK set before the freeze and no fence, the gates reopen and the die goes on; otherwise BADARG (R455). What
its domains have not taken comes then, the partner's `DWN` among it (R26). -/
def Die.thaw (e : Die) (dwn : Bool) : Die :=
  if e.frzState ≠ 3 then e.rdo ⟨false, true, false, []⟩
  else if !e.frz.resumeOk || e.bit F.PAIR_FENCE_FIN then e.rdo ⟨false, false, true, []⟩
  else
    let e := (e.setFld F.FRZ_STAT_STATE 0).setFld F.FRZ_STAT_CLOSED 0
    let e := e.gpioBack fun e => ({ e with clk := { e.clk with stopped := e.frz.prior } } : Die).updFrz fun f => { f with
      gate := false
      txdis := false
      rdo := rdoOk [] }
    let e := if e.runs .eng then e.engWaiting else e
    (e.setDin dwn).logEv 0 8 (e.regN R.FRZ_STAT) 1

/-- THAW (R455). -/
def execThaw (d : DieId) (s : State) : Out := .next (s.upd d (·.thaw ((s.die d.other).bit F.PAIR_FENCE_DOUT)))

end Sys2Proof.Machine
end

