-- ==== Sys2Proof/Machine/Xbar.lean ====
section
/-! DEFINITION. The crossbar: its targets, ranks, urgent requests and bursts (R390 to R399). -/

namespace Sys2Proof.Machine

/-- The masters of a target in order of rank (R394). -/
def rankOrder : Target → List Nat
  | .bank n => n.val :: 5 :: 6 :: 4 :: (List.range 4).filter (· != n.val)
  | .shared => [4, 5, 6, 0, 1, 2, 3]
  | _ => [0, 5, 6, 4, 1, 2, 3]

/-- Change the crossbar. -/
def Die.updXbar (e : Die) (f : Xbar → Xbar) : Die := { e with xbar := f e.xbar }

/-- The request of master `j` at the target: its place among the urgent. -/
def Xbar.urgentAt (x : Xbar) (j : Nat) : Option Nat :=
  match x.reqs[j]? with
  | some (some r) => r.urgent
  | _ => none

/-- A burst of another master holds the path to the target; CCn is never held off at BANKn (R395). -/
def Xbar.held (x : Xbar) (m : Nat) (t : Target) : Bool :=
  !((rankOrder t).head? == some m && t.idx < 4) &&
    (List.range 7).any fun j => j != m && x.holds j t.idx

/-- The master a free target grants: CCn first at BANKn, then the urgent in the order in which they became so, then by rank
(R394 to R396). -/
def Xbar.winner (x : Xbar) (t : Target) (ms : List Nat) : Option Nat :=
  let byRank := (rankOrder t).filter ms.contains
  let top := if t.idx < 4 then byRank.find? (· == t.idx) else none
  let urgent := byRank.foldl (fun (best : Option (Nat × Nat)) j =>
    match x.urgentAt j, best with
    | some u, some (_, v) => if u < v then some (j, u) else best
    | some u, none => some (j, u)
    | none, _ => best) none
  match top, urgent with
  | some j, _ => some j
  | none, some (j, _) => some j
  | none, none => byRank.head?

/-- The masters whose requests wait for the target: each requests again in every cycle (R395). -/
def Xbar.waitingFor (x : Xbar) (t : Target) : List Nat :=
  (List.range 7).filter fun j => match x.reqs[j]? with
    | some (some r) => targetOf j r.addr.toNat == t
    | _ => false

/-- A request that loses waits a CTL cycle, which a core counts, and is made again (R381, R382, R395). -/
def Die.loses (e : Die) (m : BitVec 3) (addr : Word) (write : Bool) : Die :=
  let e := e.updXbar fun x => { x with reqs := (Vector.ofFn fun (j : Fin 7) =>
    if j.val = m.toNat then
      let r := x.reqs[j].getD ⟨addr, write, 0, none⟩
      some { r with waited := r.waited + 1 }
    else x.reqs[j]) }
  { e with cpus := Vector.ofFn fun (n : Fin 4) =>
      if n.val = m.toNat then { e.cpus[n] with mcycle := e.cpus[n].mcycle + 1 } else e.cpus[n] }

/-- CROSSBAR_REQUEST: a master's request meets those of other masters for the same target in the cycle, new ones and those
that wait. DEFAULT takes it with
an error response; a granted request goes ahead; one that loses waits a cycle and requests again (R395, R399). -/
def Die.xbarRequest (e : Die) (m : Fin 7) (addr : Word) (write : Bool) (contenders : List (Fin 7)) : Die :=
  let t := targetOf m.val addr.toNat
  let done : Die := e.updXbar fun x => { x with
    reqs := x.reqs.set m.val none
    granted := if h : t.idx < 10 then x.granted.set t.idx (BitVec.ofNat 3 m.val) h else x.granted }
  if t = .dflt then done.busError (BitVec.ofNat 3 m.val) write 0 addr
  else if !e.xbar.held m.val t && e.xbar.winner t (m.val :: contenders.map (·.val) ++ e.xbar.waitingFor t) == some m.val then done
  else e.loses (BitVec.ofNat 3 m.val) addr write

/-- CROSSBAR_REQUEST (R395). -/
def execCrossbarRequest (d : DieId) (m : Fin 7) (addr : Word) (write : Bool) (contenders : List (Fin 7)) (s : State) :
    Out :=
  .next (s.updIn .ctl d (·.xbarRequest m addr write contenders))

/-- REQUEST_URGENT: a request that has waited 64 CTL cycles becomes urgent, after those that are so (R396). -/
def Die.requestUrgent (e : Die) (m : Fin 7) : Die :=
  match e.xbar.reqs[m] with
  | some r =>
    if 64 ≤ r.waited ∧ r.urgent = none then
      e.updXbar fun x => { x with
        reqs := x.reqs.set m.val (some { r with urgent := some x.urgents })
        urgents := x.urgents + 1 }
    else e
  | none => e

/-- REQUEST_URGENT (R396). -/
def execRequestUrgent (d : DieId) (m : Fin 7) (s : State) : Out := .next (s.updIn .ctl d (·.requestUrgent m))

/-! ### Bursts (R397, R398) -/

/-- The address of beat `k`. -/
def XBurst.at (b : XBurst) (k : Nat) : Nat :=
  if b.wrap then
    let len := 8 * b.beats
    b.addr / len * len + (b.addr + 8 * k) % len
  else b.addr + 8 * k

/-- A burst that R397 gives: 1 to 16 beats, a WRAP burst of 2, 4, 8 or 16 from a beat-aligned address. -/
def XBurst.formed (b : XBurst) : Bool :=
  1 ≤ b.beats && b.beats ≤ 16 && (!b.wrap || ([2, 4, 8, 16].contains b.beats && b.addr % 8 == 0))

/-- The CAUSE of R399 with which every beat is refused. -/
def XBurst.refused (b : XBurst) (m : Nat) : Option Nat :=
  let t := targetOf m b.addr
  if t = .dflt then some 0
  else if 5 ≤ t.idx || m < 4 || b.addr % 8 != 0 then some 1
  else if !b.wrap && (b.addr / 1024 != (b.addr + 8 * b.beats - 1) / 1024 || targetOf m (b.addr + 8 * b.beats - 1) != t) then
    some 4
  else none

/-- A beat is read, with the error the read finds: data, or an error response (R392, R399). -/
def Die.beatRead (e : Die) (m : Fin 7) (a : Nat) (err : Option EccKind) : Option Nat × Die :=
  match e.memRead m.val a 8 err with
  | (some v, e) => (some v, e)
  | (none, e) => (none, e.busError (BitVec.ofNat 3 m.val) false 3 (BitVec.ofNat 32 a))

/-- One beat: 64 bits written, or read. -/
def Die.beat (e : Die) (m : Fin 7) (b : XBurst) (k : Nat) (data : BitVec 64) (err : Option EccKind) : Die :=
  if b.write then e.memWrite (b.at k) data.toNat 8
  else
    match e.beatRead m (b.at k) err with
    | (some v, e) => e.updXbar fun x => { x with data := vupd x.data m (· ++ [BitVec.ofNat 64 v]) }
    | (none, e) => e

/-- BURST: it is refused on every beat, or as many beats move as the operand carries data words; the rest stay in progress
and a further BURST of the master moves them (R395, R397). A burst that finds another's burst on its path loses (R395). -/
def Die.burst (e : Die) (m : Fin 7) (b : XBurst) (data : List (BitVec 64)) (err : List (Nat × EccKind)) : Die :=
  let cont := e.xbar.bursts[m]
  let b := cont.getD b
  if !b.formed then e
  else
    match b.refused m.val with
    | some cause =>
      (List.range b.beats).foldl (fun e k =>
        e.busError (BitVec.ofNat 3 m.val) b.write cause (BitVec.ofNat 32 (b.at k))) e
    | none =>
      let t := targetOf m.val b.addr
      if cont.isNone && e.xbar.held m.val t then e.loses (BitVec.ofNat 3 m.val) (BitVec.ofNat 32 b.addr) b.write
      else
      let e := if cont.isNone then e.updXbar fun x => { x with
        data := x.data.set m.val []
        reqs := x.reqs.set m.val none
        granted := if h : t.idx < 10 then x.granted.set t.idx (BitVec.ofNat 3 m.val) h else x.granted } else e
      let n := min data.length (b.beats - b.moved)
      let e := (List.range n).foldl (fun e i =>
        let k := b.moved + i
        e.beat m b k (data.getD i 0) ((err.find? (·.1 == k)).map (·.2))) e
      let left := if b.moved + n < b.beats then some { b with moved := b.moved + n } else none
      e.updXbar fun x => { x with bursts := x.bursts.set m.val left }

/-- BURST (R397). -/
def execBurst (d : DieId) (m : Fin 7) (addr : Word) (beats : BitVec 5) (wrap write : Bool) (data : List (BitVec 64))
    (err : List (Nat × EccKind)) (s : State) : Out :=
  .next (s.updIn .ctl d (·.burst m ⟨addr.toNat, beats.toNat, wrap, write, 0⟩ data err))

/-- The beats a burst still owes, read for their side effects, an error response among them, and discarded (R392, R398,
R399). -/
def Die.discardBeats (e : Die) (m : Fin 7) (b : XBurst) : Die :=
  if b.write then e
  else (List.range (b.beats - b.moved)).foldl (fun e i => (e.beatRead m (b.at (b.moved + i)) none).2) e

/-- MASTER_RESET_MID_BURST: the crossbar completes the burst with its strobes off or its data discarded, and releases the
path; a request that no target has accepted is withdrawn, and with it a YARDW write between its two grants (R124, R398). -/
def Die.masterReset (e : Die) (m : Fin 7) : Die :=
  let e := match e.xbar.bursts[m] with
    | some b => e.discardBeats m b
    | none => e
  let e : Die := { e with
    stalled := e.stalled.filter fun p => p.m.toNat != m.val
    yard := e.yard.rmwDone (BitVec.ofNat 3 m.val) }
  e.updXbar fun x => { x with
    bursts := x.bursts.set m.val none
    reqs := x.reqs.set m.val none }

/-- MASTER_RESET_MID_BURST (R398). -/
def execMasterResetMidBurst (d : DieId) (m : Fin 7) (s : State) : Out := .next (s.updIn .ctl d (·.masterReset m))

/-- CORE_RUN_WRITE: RUN takes the value; a core whose bit is 0 is held in reset (R383, R398). -/
def Die.coreRun (e : Die) (v : Word) : Die :=
  let e := e.setFld F.XBR_CORECTL_RUN v.toNat
  (List.finRange 4).foldl (fun e (n : Fin 4) =>
    if natBit v.toNat n.val then e
    else
      let e : Die := e.masterReset ⟨n.val, by omega⟩
      { e with cpus := e.cpus.set n.val (Cpu.reset n.val) }) e

/-- CORE_RUN_WRITE (R383). -/
def execCoreRunWrite (d : DieId) (v : Word) (s : State) : Out := .next (s.updIn .ctl d (·.coreRun v))

end Sys2Proof.Machine
end

