-- ==== Sys2Proof/Machine/Boot.lean ====
section
/-! DEFINITION. Die reset, the loader, the flash port, hot plug and the supply monitor (R406 to R430). -/

namespace Sys2Proof.Machine

/-- Change the loader. -/
def Die.updBoot (e : Die) (f : Boot → Boot) : Die := { e with boot := f e.boot }

/-- BTL_STAT.STEP (R418). -/
def Die.bootStep (e : Die) : Nat := e.fld F.BTL_STAT_STEP

/-- Set the step. -/
def Die.setStep (e : Die) (n : Nat) : Die := e.setFld F.BTL_STAT_STEP n

/-! ### Die reset (R418, R421, R454) -/

/-- Registers that outlive every die reset while VIO18 stays good: the recorder's, the trial record, the straps, the plug and
supply monitors, FRZ_STAT, and the levels CVD_STAT shows. -/
def survives (a : Nat) : Bool :=
  a / 0x1000 == R.LOG_CTRL / 0x1000 || [R.FRZ_STAT, R.BTL_TRIAL, R.BTL_TRIALGEN, R.BTL_STRAP, R.BTL_PLUG, R.BTL_SUPPLY,
    R.CVD_STAT].contains a

/-- The fence and `DWN` as the wires hold them through a reset: a fence is latched, and the die asserts `DWN` (R298, R299,
R419). -/
def Die.fenceWires (e : Die) : Nat :=
  b2n (e.bit F.PAIR_FENCE_FOUT) + 2 * b2n (e.bit F.PAIR_FENCE_FIN) + 4 + 8 * b2n (e.bit F.PAIR_FENCE_DIN)

/-- Die reset. Every block is OFF (R34). A REBOOT leaves the rest of the KEEP domain as it is; any reset leaves the recorder, and
ends a freeze, whose record the recorder then writes. Joined balls held for the partner's fence stay held (R299). -/
def Die.restart (e : Die) (reboot : Bool) : Die :=
  let keep (a : Nat) : Bool := survives a || (reboot && regDom a == .keep && a != R.PAIR_FENCE)
  let irq := if reboot then 256 * e.fld F.PAIR_FENCE_FIRQ + 512 * e.fld F.PAIR_FENCE_FIEN else 0
  let n := Die.reset e.id
  let froze := e.frzState != 0
  let n : Die := { n with
    regs := e.regs.filter fun r => keep r.1
    shadow := e.shadow.filter fun r => keep r.1
    ref := if reboot then e.ref else n.ref
    tim := if reboot then { e.tim with
        wckOut := false
        ppsOut := 0 }
      else { n.tim with tick := e.tim.tick }
    pair := { n.pair with
      driving := e.pair.holding
      holding := e.pair.holding }
    log := { e.log with seq := e.lastSeq }
    clk := { n.clk with
      stopped := if e.boot.low.contains .vio18 then .keep :: n.clk.stopped else n.clk.stopped
      fallen := reboot && e.clk.fallen
      keep10 := if reboot then e.clk.keep10 else n.clk.keep10 }
    boot := { n.boot with low := e.boot.low }
    cvd := { n.cvd with
      keepDrive := e.bit F.CVD_STAT_VCVOK
      clrLow := e.cvd.clrLow }
    eng := { n.eng with wearBase := e.eng.wearBase }
    misc := { n.misc with balls := e.misc.balls }
    free := e.free }
  let n := (n.setRegN R.PAIR_FENCE (e.fenceWires + irq)).cvHoldAll
  let n := ((n.setFld F.FRZ_STAT_STATE 0).setFld F.ENG_WCTL_WALL_STATE 0).setFld F.CVD_STAT_CLRIN 0
  if froze then n.logEv 0 8 (n.regN R.FRZ_STAT) 0 else n

/-- The die is reset: `DWN` asserts, and the die restarts (R298, R299). -/
def State.resetDie (s : State) (d : DieId) (reboot : Bool) : State := (s.down d).upd d (·.restart reboot)

/-- A die's reset ends: a fence on it whose holder's `DWN` reads asserted at that moment is released (R298). -/
def State.resetEnd (s : State) (d : DieId) : State :=
  if (s.die d).bit F.PAIR_FENCE_FIN && (s.die d.other).bit F.PAIR_FENCE_DOUT then s.unfence d.other else s

/-- DIE_RESET (R418). -/
def execDieReset (d : DieId) (rebootBit : Bool) (s : State) : Out := .next (s.resetDie d rebootBit)

/-- READOUT_RESET: it ends a freeze in die reset (R452, R454). -/
def execReadoutReset (d : DieId) (s : State) : Out :=
  .next (if (s.die d).frzState = 3 then (s.resetDie d false).upd d fun e => e.rdo (rdoOk [])
    else s.upd d fun e => e.rdo ⟨false, true, false, []⟩)

/-- A write of BTL_KEY. -/
def Die.btlKey (e : Die) (v : Word) : Die := e.updBoot fun b => { b with key := v == 0xB007 }

/-- The die resets and starts again from STEP 1 (R421). -/
def State.rebootDie (s : State) (d : DieId) : State := ((s.resetDie d true).resetEnd d).upd d (·.setStep 1)

/-- REBOOT: it takes effect only right after the key (R421). -/
def State.reboot (s : State) (d : DieId) : State := if (s.die d).boot.key then s.rebootDie d else s

/-- REBOOT (R421). -/
def execReboot (d : DieId) (s : State) : Out := .next (s.goIn .ctl d (·.reboot d))

/-- KEEP_FALLOVER: with `KEEPSRC` low, KEEP goes on from the internal oscillator, `XCK_IN` clocks the monitors, and REF
leaves HOLD for LOST (R23, R316, R320). -/
def execKeepFallover (d : DieId) (s : State) : Out :=
  .next (s.updIn .keep d fun e =>
    if e.clk.fallen || Config.strapKeepsrc e.id then e
    else
      let e : Die := { e with clk := { e.clk with
        fallen := true
        keep10 := false } }
      let e := e.logEv 1 2
      if e.refState = RefSt.hold then e.refGo RefSt.lost else e)

/-! ### Discovery and pass 1 (R407 to R416) -/

/-- A change of BTL_PLUG.STATE (R426). -/
def Die.setPlug (e : Die) (v : Nat) : Die :=
  if e.fld F.BTL_PLUG_STATE = v then e else (e.setFld F.BTL_PLUG_STATE v).setFld F.BTL_IRQ_PLUG 1

/-- The die may leave reset: the plug manager has seen it POWERED, it is not leaving, no rail holds it, and every rail is in
window (R426, R429, R470). -/
def Die.mayStart (e : Die) : Bool :=
  2 ≤ e.fld F.BTL_PLUG_STATE && e.fld F.BTL_PLUG_STATE ≤ 4 && e.boot.low.isEmpty && e.fld F.BTL_SUPPLY_OK == 0x3F

/-- FLASH_DISCOVERY: STEP 1. CTL and LTX run, the straps are sampled, and SFDP selects the read mode (R407, R408, R416). -/
def Die.discovery (e : Die) (bootw : Bool) (role : BitVec 2) (sfdp oct quadIo quadOut addr4 : Bool) : Die :=
  if !e.mayStart || 2 ≤ e.bootStep then e
  else
    let e := (e.setStep 1).setPlug 3
    let e := (e.setBit F.BTL_STRAP_BOOTW bootw).setFld F.BTL_STRAP_ROLE role.toNat
    let mode := if !sfdp then 0 else if bootw && oct then 3 else if quadIo then 2 else if quadOut then 1 else 0
    let e := (e.setFld F.BTL_FSTAT_MODE mode).setBit F.BTL_FSTAT_ADDR4 (addr4 || !sfdp)
    let e := e.updBoot fun b => { b with
      sampled := true
      tried := (e.reg R.BTL_TRIAL, e.reg R.BTL_TRIALGEN) }
    { e with
      clk := { e.clk with stopped := e.clk.stopped.filter fun m => m != .ctl && m != .ltx }
      misc := { e.misc with stood := none } }

/-- FLASH_DISCOVERY (R408). -/
def execFlashDiscovery (d : DieId) (bootw : Bool) (role : BitVec 2) (sfdp oct quadIo quadOut addr4 : Bool) (s : State) :
    Out :=
  let e := s.die d
  let s := if e.mayStart && e.bootStep == 0 then s.resetEnd d else s
  .next (s.upd d (·.discovery bootw role sfdp oct quadIo quadOut addr4))

/-- `n` bytes of a slot from an offset; an erased byte reads 0xFF. -/
def slice (b : List Byte) (o n : Nat) : List Byte :=
  let x := (b.drop o).take n
  x ++ List.replicate (n - x.length) 0xFF

/-- A little-endian number. -/
def leBytes : List Byte → Nat
  | [] => 0
  | x :: xs => x.toNat + 256 * leBytes xs

/-- A 32-bit field of a slot. -/
def le32 (b : List Byte) (o : Nat) : Nat := leBytes (slice b o 4)

/-- The section table. -/
def secTable (b : List Byte) : List SecRow :=
  (List.range (le32 b 0x10 % 256)).map fun i =>
    let o := 0x20 + 16 * i
    ⟨leBytes (slice b o 2), leBytes (slice b (o + 2) 2), le32 b (o + 4), le32 b (o + 8), le32 b (o + 12)⟩

/-- The slice of a section that a die takes: its half of a PERDIE section (R411). -/
def SecRow.part (r : SecRow) (b : List Byte) (d : DieId) : List Byte :=
  let half := if r.flags % 2 = 1 then r.size / 2 else r.size
  slice b (r.offset + (if r.flags % 2 = 1 ∧ d = .b then half else 0)) half

/-- IDENT: the CRC-32 of the entries of the sections that are not firmware (R411). -/
def identOf (b : List Byte) : Nat :=
  crc32Bytes ((secTable b).zipIdx.flatMap fun x =>
    if 0x10 ≤ x.1.type ∧ x.1.type ≤ 0x13 then [] else slice b (0x20 + 16 * x.2) 16)

/-- The layout that R410 and R411 ask for. -/
def layoutOk (b : List Byte) : Bool :=
  let t := secTable b
  let len := le32 b 0x08
  len ≤ 0x2000000 && 1 ≤ le32 b 0x10 && le32 b 0x10 ≤ 64
    && t.all (fun r => r.flags ≤ 1 && r.flags * r.size % 2 == 0 && 0x1000 ≤ r.offset && r.offset % 0x1000 == 0 && r.offset + r.size ≤ len)
    && t.zipIdx.all (fun x => t.zipIdx.all fun y =>
      x.2 == y.2 || x.1.offset + x.1.size ≤ y.1.offset || y.1.offset + y.1.size ≤ x.1.offset)

/-- What pass 1 finds of a slot, as SLOTSTAT codes it (R413, R430). -/
def judgeSlot (b : List Byte) : Nat :=
  let t := secTable b
  if le32 b 0 ≠ 0x384C5653 then 2
  else if crc32Bytes (slice b 0 0x18 ++ slice b 0x20 (16 * t.length)) ≠ le32 b 0x18 then 3
  else if le32 b 4 ≠ 1 then 4
  else if !layoutOk b then 5
  else if t.any fun r => crc32Bytes (slice b r.offset r.size) != r.crc then 6
  else if !t.any (fun r => r.type == 1) then 7
  else 1

/-- The slot is on trial (R414). -/
def slotTrial (b : List Byte) : Bool := slice b 0x1C 1 != [0]

/-- SLOTSTAT of a slot. -/
def slotFld (slotB : Bool) : Fld := if slotB then F.BTL_SLOTSTAT_B else F.BTL_SLOTSTAT_A

/-- The loader takes a slot: what it shows of it, and the record of a slot on trial (R414, R415). DEDUCED: IDENT is what the
table gives, whatever the header says (log 257). -/
def Die.choose (e : Die) (slotB fallback : Bool) (b : List Byte) : Die :=
  let role := match (secTable b).find? (fun r => r.type == 1) with
    | some r => le32 (r.part b e.id) 0
    | none => 0
  let gen := le32 b 0x0C
  let e := (e.setBit F.BTL_STAT_SLOT slotB).setBit F.BTL_STAT_TRIAL (slotTrial b)
  let e := if fallback then (e.setFld F.BTL_STAT_FALLBACK 1).setFld F.BTL_IRQ_FALLBACK 1 else e
  let e := if slotTrial b then (e.setRegN R.BTL_TRIAL (1 + 2 * b2n slotB)).setRegN R.BTL_TRIALGEN gen else e
  e.updBoot fun x => { x with chosen := some {
    slotB := slotB
    table := secTable b
    role := BitVec.ofNat 32 role
    gen := BitVec.ofNat 32 gen
    ident := BitVec.ofNat 32 (identOf b)
    trial := slotTrial b } }

/-- The slot is one that the record an earlier start left of a trial passes over (R414). -/
def Die.passedOver (e : Die) (slotB : Bool) (b : List Byte) : Bool :=
  slotTrial b && e.boot.tried.1.toNat == 1 + 2 * b2n slotB && e.boot.tried.2.toNat == le32 b 0x0C

/-- Pass 1 over the slots in their order: the first intact one that has not failed pass 2 is taken. -/
def Die.tryIn (e : Die) : List (Bool × List Byte) → Bool → Die
  | [], _ => e
  | (slotB, b) :: rest, first =>
    if e.fld (slotFld slotB) = 9 then e.tryIn rest false
    else
      let e := e.setFld (slotFld slotB) (judgeSlot b)
      if judgeSlot b = 1 then e.choose slotB (!first) b else e.tryIn rest false

/-- IMAGE_PASS1: STEP 2. Slots are ranked by GENERATION, A first where equal, without those passed over (R413 to R415). -/
def Die.pass1 (e : Die) (a b : List Byte) : Die :=
  if !e.boot.sampled || (e.bootStep != 1 && e.bootStep != 2) || e.fld F.BTL_STRAP_ROLE == 3 then e
  else
    let e := (e.setStep 2).updBoot fun x => { x with chosen := none }
    let both := if le32 a 0x0C < le32 b 0x0C then [(true, b), (false, a)] else [(false, a), (true, b)]
    let passed := both.filter fun x => e.passedOver x.1 x.2
    let left := both.filter fun x => !e.passedOver x.1 x.2
    (passed.foldl (fun e x => e.setFld (slotFld x.1) 8) e).tryIn left true

/-- IMAGE_PASS1 (R415). -/
def execImagePass1 (d : DieId) (a b : List Byte) (s : State) : Out := .next (s.updIn .ctl d (·.pass1 a b))

/-! ### ENG start and pass 2 (R412, R415, R418) -/

/-- The resolved role: the image's, or where it says so the straps' (R417). -/
def Die.resolvedRole (e : Die) (w : Word) : Nat :=
  if bitsOf w.toNat 0 2 = 3 then e.fld F.BTL_STRAP_ROLE else bitsOf w.toNat 0 2

/-- REF enters FREE, ENG at its nominal frequency, and no input has been followed since (R320, R418). -/
def Die.refFree (e : Die) : Die :=
  let e := e.alignEnd.updRef fun r => { r with
    reached := false
    slewing := false
    fromFree := false
    slewAcc := 0
    trail := []
    held := none }
  ((e.setFld F.REF_STAT_SWITCHING 0).setRegN R.REF_FOFS 0).refGo RefSt.free

/-- ENG_START: STEP 3. ENG runs at the image's rate and family in FREE, and the frame sequence counts from 0 (R418); an input
that is qualified already ends FREE (R320). -/
def Die.engStart (e : Die) : Die :=
  match e.boot.chosen with
  | none => e
  | some c =>
    if e.bootStep ≠ 2 then e
    else
      let w := c.role.toNat
      let e := ((e.setStep 3).setFld F.BTL_STAT_ROLE (e.resolvedRole c.role)).setFld F.BTL_STAT_MODE (bitsOf w 2 1)
      let e := (e.setFld F.PAIR_STAT_MODE (bitsOf w 2 1)).setReg R.ENG_SEQ 0
      let e := (((e.setFld F.ENG_RATE_RATE (bitsOf w 3 2)).setFld F.ENG_RATE_FAM (bitsOf w 5 1)).setFld F.ENG_RATE_NCYC
        (cyclesOf (bitsOf w 3 2))).setP (pDefault (bitsOf w 3 2))
      let e := e.refFree.refSelect
      { e with
        clk := { e.clk with stopped := e.clk.stopped.filter fun m => m != .eng && m != .sapm && m != .saps }
        pct := { e.pct with counting := true } }

/-- ENG_START (R418). -/
def execEngStart (d : DieId) (s : State) : Out := .next (s.updIn .ctl d (·.engStart))

/-- The walls of a role as WALL_EN bits (R418). -/
def roleWalls (role : Nat) : Nat :=
  match role with
  | 0 => 0xF
  | 1 => 1
  | _ => 0

/-- Every wall of the role is ON. -/
def Die.wallsUp (e : Die) : Bool :=
  (List.range 4).all fun w => !natBit (roleWalls (e.fld F.BTL_STAT_ROLE)) w || e.wallState w == St.on

/-- At FT the start moves on: from STEP 3 the walls of the role rise; once they are ON, STEP 5 (R418). -/
def Die.bootFt (e : Die) : Die :=
  let e := if e.bootStep = 3 then (e.setStep 4).setFld F.ENG_WCTL_WALL_EN (roleWalls (e.fld F.BTL_STAT_ROLE)) else e
  if e.bootStep = 4 ∧ e.wallsUp then e.setStep 5 else e

/-- Bytes written into a bank or SHARED. -/
def Mem.put (m : Mem) (a : Nat) (bs : List Byte) : Mem :=
  bs.zipIdx.foldl (fun m b => m.store (a + b.2) b.1.toNat 1) m

/-- A quarter of a row set. -/
def setLane (m : SMap Row) (i : Nat) (q : Quarter) : SMap Row :=
  let r := SMap.get rowDflt m (i / 8)
  SMap.set rowDflt m (i / 8) (r.set (i % 8) q (Nat.mod_lt _ (by decide)))

/-- The course that holds a seat takes what a section gives it. -/
def Die.atSeat (e : Die) (s : Fin 24) (f : Course → Course) : Die :=
  match e.seatCourse s with
  | none => e
  | some c => e.updCourse c f

/-- A run of a program tile, and the seat's START, HOLD and PLAN (R100, R114). -/
def Die.placeRun (e : Die) (r : ProgRun) : Die :=
  match e.seatCourse r.seat with
  | none => e
  | some c =>
    let e := ((e.setFld (F.ENG_C_START_ADDR c.val) r.start.toNat).setBit (F.ENG_C_MODE_HOLD c.val) r.hold).setFld
      (F.ENG_C_STALL_PLAN c.val) r.plan.toNat
    e.updCourse c fun x => { x with
      prog := r.bundles.zipIdx.foldl (fun t b => SMap.set progDflt t ((r.first.toNat + b.2) % 8192) b.1) x.prog }

/-- A section whose layout is the builder's is placed as decoded (R412, log 128). -/
def Die.placeSec (e : Die) : Section → Die
  | .program runs => runs.foldl Die.placeRun e
  | .zBank s front back => e.atSeat s fun x => { x with
      zFront := front.foldl (fun t q => setLane t q.1.toNat q.2) x.zFront
      zBack := back.foldl (fun t q => setLane t q.1.toNat q.2) x.zBack }
  | .seatMap a b =>
    let ws := if e.id = .a then a else b
    ws.zipIdx.foldl (fun e w => if w.2 < 4 then e.setReg (R.ENG_SEATMAP w.2) w.1 else e) e
  | .engMap entry exit =>
    let put (t : SMap Nat) (l : List (BitVec 12 × BitVec 5 × BitVec 9)) : SMap Nat :=
      l.foldl (fun t x => SMap.set (fun _ => 0) t x.1.toNat (512 * x.2.1.toNat + x.2.2.toNat + 1)) t
    let m := put e.eng.entryMap entry
    let dup := m.any fun p => m.any fun q => p.1 != q.1 && p.2 == q.2 && p.2 != 0
    ({ e with eng := { e.eng with
      entryMap := m
      exitMap := put e.eng.exitMap exit } } : Die).raise F.ENG_MAPERR_DUP dup
  | .yardMap a b =>
    let l := if e.id = .a then a else b
    e.updYard fun y => { y with tileMap := l.foldl (fun t x =>
      SMap.set (fun k => k % 256) t (256 * x.1.toNat + x.2.1.toNat) x.2.2.toNat) y.tileMap }
  | .rings descs binds => e.updYard fun y =>
      let y := descs.foldl (fun y d =>
        let (n, base, max, front, back, wp) := d
        y.setRing n.toNat { RingDesc.none with
          valid := true
          base := base.toNat
          maxLen := max.toNat
          frontLen := bitsOf front.toNat 0 20
          frontSmooth := natBit front.toNat 20
          backLen := bitsOf back.toNat 0 20
          backSmooth := natBit back.toNat 20
          wp := wp.toNat }) y
      { y with binds := binds.foldl (fun t x => SMap.set (fun _ => 0) t x.1.toNat (x.2.toNat + 1)) y.binds }
  | .yardData rows => rows.foldl (fun e r => e.updYard fun y => y.setRowAt (y.key r.1) r.2) e
  | .mortar front back bridge gens =>
    let tab (l : List (BitVec 15 × Word)) : SMap Word :=
      l.foldl (fun t x => if sinkValid x.1.toNat then SMap.set wordDflt t x.1.toNat (x.2 &&& 0x1FFFFF) else t) []
    let e := e.updMor fun m => { m with
      front := tab front
      back := tab back
      inForce := tab front
      brMap := bridge.foldl (fun t x => SMap.set wordDflt t x.1.toNat (x.2 &&& 0x8000001F)) [] }
    gens.foldl (fun e x => e.genWrite x.1.toNat x.2) e
  | .vox cfg area =>
    let put (t : SMap Word) : SMap Word := cfg.foldl (fun t x => SMap.set wordDflt t x.1.toNat x.2) t
    (e.updVox fun v => { v with
      front := put v.front
      back := put v.back }).setReg R.VOX_AREA area
  | .chain ctrl p ext own =>
    let e := (if 16 ≤ p.toNat ∧ p.toNat ≤ 512 then e.setP p.toNat else e).setReg R.CHN_CTRL (ctrl &&& 0x3FFFF)
    [PortId.n, PortId.s].foldl (fun e q => e.updPort q fun x =>
      let m := ext.foldl (fun t s => SMap.set (fun _ => (0 : BitVec 2)) t s.toNat 1) []
      let m := own.foldl (fun t i =>
        SMap.set (fun _ => (0 : BitVec 2)) t (32 * i.toNat) (SMap.get (fun _ => (0 : BitVec 2)) t (32 * i.toNat) ||| 2)) m
      { x with map := m }) e
  | .ref regs => (regs.foldl (fun e x =>
      if [R.REF_CTRL, R.REF_RANK, R.REF_SIDE, R.TIM_CTRL].contains x.1.toNat then e.setReg x.1.toNat x.2 else e) e).refSelect
  | .cvd cfg => cfg.foldl (fun e x => e.cvCfg x.1 x.2) e
  | .scene show_ lib => { e with swp := { e.swp with
      scenes := lib
      show_ := show_ } }

/-- The TYPE of a section (R412). -/
def sectionType : Section → Nat
  | .program _ => 2
  | .zBank _ _ _ => 3
  | .seatMap _ _ => 4
  | .engMap _ _ => 5
  | .yardMap _ _ => 6
  | .rings _ _ => 7
  | .yardData _ => 8
  | .mortar _ _ _ _ => 9
  | .vox _ _ => 10
  | .chain _ _ _ _ => 11
  | .ref _ => 12
  | .cvd _ => 13
  | .scene _ _ => 0x14

/-- LIVEMAP: a count, then pairs of first row and row count (R412). -/
def liveRegions (b : List Byte) : List (Nat × Nat) :=
  (List.range (min (le32 b 0) 4096)).map fun i => (le32 b (4 + 8 * i) % 2 ^ 22, le32 b (8 + 8 * i))

/-- Regions of SHARED: offset, length and contents, as many as `n` bytes hold (R412). DEDUCED: they follow each other without
padding (log 258). -/
def sharedRegions : Nat → List Byte → List (Nat × List Byte)
  | 0, _ => []
  | n + 1, b =>
    if b.length < 8 then []
    else (le32 b 0, (b.drop 8).take (le32 b 4)) :: sharedRegions n (b.drop (8 + le32 b 4))

/-- A section whose bytes R412 lays out is placed from the die's part of them; what an offset in the first word places follows
that word (log 258). A TYPE that R412 does not list shows. -/
def Die.placeRow (e : Die) (type : Nat) (b : List Byte) : Die :=
  let ofs := sharedBase + le32 b 0
  if type = 0x0E then e.updYard fun y => { y with liveMap := liveRegions b }
  else if type = 0x0F then { e with mem := e.mem.put ofs (b.drop 4) }
  else if 0x10 ≤ type ∧ type ≤ 0x13 then
    ({ e with mem := e.mem.put (0x100000 * (type - 0x10)) b } : Die).updBoot fun x => { x with
      fw := Fin.ofNat 4 (type - 0x10) :: x.fw.filter (· != Fin.ofNat 4 (type - 0x10)) }
  else if type = 0x14 then { e with
      mem := e.mem.put ofs (b.drop 4)
      boot := { e.boot with library := some (ofs, b.length - 4) } }
  else if type = 0x15 then
    let rs := sharedRegions b.length b
    { e with
      mem := rs.foldl (fun m r => m.put (sharedBase + r.1) r.2) e.mem
      boot := { e.boot with shared := e.boot.shared ++ rs.map fun r => (sharedBase + r.1, r.2.length) } }
  else if type = 0 ∨ 0x15 < type then e.setFld F.BTL_STAT_UNKSEC 1
  else e

/-- The walls a section is aimed at, which its role must not leave off (R418). -/
def sectionWalls : Section → List Nat
  | .program runs => runs.map fun r => (seatWall r.seat).val
  | .zBank s _ _ => [(seatWall s).val]
  | .rings descs _ => descs.map fun d => d.2.1.toNat / 2 ^ 20
  | .yardData rows => rows.map fun r => r.1.toNat / 2 ^ 20
  | _ => []

/-- The maps are placed before what they address. -/
def mapFirst (secs : List Section) : List Section :=
  let isMap (x : Section) : Bool := match x with
    | .seatMap _ _ => true
    | .yardMap _ _ => true
    | _ => false
  secs.filter isMap ++ secs.filter fun x => !isMap x

/-- A section failed in pass 2: every block returns to OFF, the slot is marked, and pass 1 begins again (R415). -/
def Die.pass2Fail (e : Die) (c : Chosen) : Die :=
  let n := e.restart true
  let n : Die := { n with
    regs := (e.regs.filter fun r => r.1 / 0x1000 == R.BTL_CTRL / 0x1000).foldl
      (fun t r => SMap.set regReset t r.1 r.2) n.regs
    clk := { n.clk with stopped := n.clk.stopped.filter fun m => m != .ctl && m != .ltx }
    boot := { e.boot with
      chosen := none
      placed := false
      fw := [] } }
  ((n.setReg R.PAIR_FENCE (e.reg R.PAIR_FENCE)).setStep 2).setFld (slotFld c.slotB) 9

/-- The sections of the table are placed from the slot's bytes, and those whose layout is the builder's as decoded, where the
table has their TYPE. -/
def Die.placeAll (e : Die) (t : List SecRow) (slot : List Byte) (secs : List Section) : Die :=
  let e := t.foldl (fun e r => e.placeRow r.type (r.part slot e.id)) e
  ((mapFirst secs).filter fun x => t.any fun r => r.type == sectionType x).foldl Die.placeSec e

/-- IMAGE_PASS2: STEP 5. The slot is read again; every section's CRC holds and every section is placed, or the slot fails (R412,
R415, R418). -/
def Die.pass2 (e : Die) (secs : List Section) (slot : List Byte) : Die :=
  match e.boot.chosen with
  | none => e
  | some c =>
    if (e.bootStep != 4 && e.bootStep != 5) || !e.wallsUp || e.boot.placed then e
    else
      let off := secs.any fun x =>
        (sectionWalls x).any fun w => !natBit (roleWalls (e.fld F.BTL_STAT_ROLE)) w
      let bad := c.table.any fun r => crc32Bytes (slice slot r.offset r.size) != r.crc
      if bad || off then e.pass2Fail c
      else ((e.setStep 5).placeAll c.table slot secs).updBoot fun b => { b with placed := true }

/-- IMAGE_PASS2 (R415). -/
def execImagePass2 (d : DieId) (secs : List Section) (slot : List Byte) (s : State) : Out :=
  .next (s.updIn .ctl d (·.pass2 secs slot))

/-- IMAGE_RELEASE: STEP 6, unless the card is leaving (R427, R428). Cores with firmware run, `DWN` is released, the die enters START, and a record names the image
(R418, R419). -/
def Die.release (e : Die) (micros : Word) : Die :=
  match e.boot.chosen with
  | none => e
  | some c =>
    if e.bootStep ≠ 5 ∨ !e.boot.placed ∨ e.fld F.BTL_PLUG_STATE = 5 then e
    else
      let e := (((e.setStep 6).setReg R.BTL_LOADTIME micros).setReg R.BTL_GEN c.gen).setReg R.BTL_IDENT c.ident
      let run := e.boot.fw.foldl (fun n (k : Fin 4) => n ||| 2 ^ k.val) 0
      let e := (e.setFld F.XBR_CORECTL_RUN run).setFld F.PAIR_FENCE_DOUT 0
      let e := ((e.setRole Role.start).drive false).updPair fun p => { p with
        startFrames := 0
        holding := false }
      let e := if e.pair.link = 0 then e.setLink 1 else e
      let e := (e.updCvd fun x => { x with keepDrive := false }).setPlug 4
      e.logEv 0 1 (b2n c.slotB) c.gen.toNat micros.toNat

/-- IMAGE_RELEASE (R418). -/
def execImageRelease (d : DieId) (micros : Word) (s : State) : Out := .next (s.updIn .ctl d (·.release micros))

/-- A die that loads nothing keeps the ring closed: both ports come to ON in the native format, MCAP is clear, and the party
wall trains. `ALERT_N` asserts (R420). A die that is LEAVING enters neither (R427, R428). -/
def Die.idleDie (e : Die) (step : Nat) : Die :=
  let e := ((e.setStep step).setPlug 4).updBoot fun b => { b with alert := true }
  let e := e.setFld F.CHN_CTRL_MCAP 0
  let e := [PortId.n, PortId.s].foldl (fun e p =>
    ((e.setFld (F.CHNX_CTRL_EN p.idx) 1).setFld (F.CHNX_CTRL_GEN1 p.idx) 0).chnRise p) e
  if e.pair.link = 0 then e.setLink 1 else e

/-- NOIMAGE: pass 1 found no slot to load (R415, R420). -/
def execNoimage (d : DieId) (s : State) : Out :=
  .next (s.updIn .ctl d fun e =>
    if e.bootStep = 2 ∧ e.boot.chosen = none ∧ e.fld F.BTL_PLUG_STATE ≠ 5 then (e.idleDie 7).logEv 0 2 (e.regN R.BTL_SLOTSTAT) else e)

/-- What BTL_STRAP shows: CLRSEL and KEEPSRC stand as the board straps them (R416). -/
def Die.strapWord (e : Die) : Nat :=
  insBits (insBits (e.regN R.BTL_STRAP) 1 1 (b2n (Config.strapClrsel e.id))) 4 1 (b2n (Config.strapKeepsrc e.id))

/-- STRAP_HOLD: the straps read Hold (R417, R420). -/
def execStrapHold (d : DieId) (s : State) : Out :=
  .next (s.updIn .ctl d fun e =>
    if e.bootStep = 1 ∧ e.boot.sampled ∧ e.fld F.BTL_STRAP_ROLE = 3 ∧ e.fld F.BTL_PLUG_STATE ≠ 5 then
      (e.idleDie 8).logEv 0 3 e.strapWord
    else e)

/-! ### Identity (R422, R423) -/

/-- IDENTITY_BLOCK: the partner's block reaches the die, which shows it and, in START, acts on it. A die that has found the
blocks to differ never joins: IDMIS stands until die reset. DEDUCED (log 228). -/
def State.identity (s : State) (d : DieId) : State :=
  let p := s.die d.other
  let e := s.die d
  if !s.linked || !p.imageRuns then s
  else
    let role := p.fld F.BTL_STAT_ROLE
    let mode := p.fld F.BTL_STAT_MODE
    let e := (e.setReg R.BTL_PIDENT (p.reg R.BTL_IDENT)).setReg R.BTL_PGEN (p.reg R.BTL_GEN)
    let e := e.setRegN R.BTL_PINFO (role + 4 * mode + 8)
    let note (e : Die) (f irq : Fld) : Die :=
      if e.bit f then e
      else ((e.setFld f 1).setFld irq 1).logEv 0 4 (p.regN R.BTL_IDENT) (p.regN R.BTL_GEN) (e.regN R.BTL_PINFO)
    let e := if e.role ≠ Role.start ∨ !e.imageRuns then e
      else if mode ≠ e.fld F.BTL_STAT_MODE then note e F.BTL_STAT_MODEMIS F.BTL_IRQ_MODEMIS
      else if mode = 1 then e
      else if p.reg R.BTL_IDENT = e.reg R.BTL_IDENT ∧ role = e.fld F.BTL_STAT_ROLE then
        if e.bit F.BTL_STAT_IDMIS then e else e.setFld F.BTL_STAT_IDOK 1
      else note (e.setFld F.BTL_STAT_IDOK 0) F.BTL_STAT_IDMIS F.BTL_IRQ_IDMIS
    s.setDie d e

/-- IDENTITY_BLOCK (R422, R423). -/
def execIdentityBlock (d : DieId) (s : State) : Out := .next (s.identity d)

/-- SPLIT_START: a split die whose partner is split, or has sent nothing in 64 frames of START, takes SPLIT (R281, R423). -/
def Die.splitStart (e : Die) : Die :=
  if e.imageRuns && e.role == Role.start && e.split && !e.bit F.BTL_STAT_MODEMIS
      && (if e.bit F.BTL_PINFO_VALID then e.bit F.BTL_PINFO_MODE else 64 ≤ e.pair.startFrames) then
    (e.setRole Role.split).drive true
  else e

/-- SPLIT_START (R423). -/
def execSplitStart (d : DieId) (s : State) : Out := .next (s.updIn .eng d (·.splitStart))

/-! ### The flash port (R409) -/

/-- The 256 bytes of BTL_FBUF. -/
def Die.fbuf (e : Die) : List Byte :=
  (List.range 256).map fun k => BitVec.ofNat 8 (bitsOf (e.regN (R.BTL_FBUF (k / 4))) (8 * (k % 4)) 8)

/-- FLASH_COMMAND: a write of BTL_FCMD, and so no key of REBOOT (R421). GO is refused while BUSY, from the release of `RESET_N` until the image runs or the
die idles in NOIMAGE or HOLD, and for a form the register does not give (R409, R420, R430). -/
def Die.flashCommand (e : Die) (v : Word) : Die :=
  let n := v.toNat
  let e := (e.btlKey 0).setRegN R.BTL_FCMD (n % 2 ^ 26)
  if !natBit n 31 then e
  else
    let ab := bitsOf n 8 3
    let ok := 6 ≤ e.bootStep && !e.bit F.BTL_FSTAT_BUSY && (ab == 0 || ab == 3 || ab == 4) && bitsOf n 16 9 ≤ 256
    if ok then
      (e.setFld F.BTL_FSTAT_BUSY 1).updBoot fun b => { b with flash := some {
        word := v &&& 0x3FFFFFF
        addr := e.reg R.BTL_FADDR
        write := natBit n 25
        bytes := if natBit n 25 then e.fbuf.take (bitsOf n 16 9) else []
        len := bitsOf n 16 9 } }
    else e.setFld F.BTL_FSTAT_REFUSED 1

/-- FLASH_COMMAND (R409). -/
def execFlashCommand (d : DieId) (v : Word) (s : State) : Out := .next (s.updIn .ctl d (·.flashCommand v))

/-- FLASH_COMMAND_DONE: the command ends; the bytes a read returned stand in BTL_FBUF (R409). -/
def Die.flashDone (e : Die) (data : List Byte) : Die :=
  match e.boot.flash with
  | none => e
  | some c =>
    let e := if c.write then e
      else (data.take c.len).zipIdx.foldl (fun e b =>
        let a := R.BTL_FBUF (b.2 / 4)
        e.setRegN a (insBits (e.regN a) (8 * (b.2 % 4)) 8 b.1.toNat)) e
    (((e.setFld F.BTL_FSTAT_BUSY 0).setFld F.BTL_FSTAT_DONE 1).setFld F.BTL_IRQ_FDONE 1).updBoot fun b => { b with
      flash := none }

/-- FLASH_COMMAND_DONE (R409). -/
def execFlashCommandDone (d : DieId) (data : List Byte) (s : State) : Out := .next (s.updIn .ctl d (·.flashDone data))

/-! ### Hot plug and supplies (R426 to R429) -/

/-- `PLUG_N` has read low for 10 ms: SEATED. A LEAVING that has not ended completes first, so that the die stays in reset
(R426, R428). -/
def State.seated (s : State) (d : DieId) : State :=
  let st := (s.die d).fld F.BTL_PLUG_STATE
  let s := if st = 5 ∧ (s.die d).bootStep ≠ 0 then s.resetDie d false else s
  s.upd d fun e => if st = 0 ∨ st = 5 then (e.setPlug 1).setFld F.BTL_PLUG_SEATED 1 else e

/-- PLUG_SEATED (R426, R428). -/
def execPlugSeated (d : DieId) (s : State) : Out := .next (s.goIn .keep d (·.seated d))

/-- PLUG_POWERED: SEATED, with all six rails in their windows (R426). -/
def execPlugPowered (d : DieId) (s : State) : Out :=
  .next (s.updIn .keep d fun e => if e.fld F.BTL_PLUG_STATE = 1 ∧ e.fld F.BTL_SUPPLY_OK = 0x3F then e.setPlug 2 else e)

/-- PLUG_LEAVING: `PLUG_N` is high. In the same cycle `DWN` asserts, every CV hold sets, both ports fall, and a record is
written (R427). DEDUCED: a port that is RISING falls at once too, though R32 excepts the bridges alone (log 208). -/
def State.leaving (s : State) (d : DieId) : State :=
  let st := (s.die d).fld F.BTL_PLUG_STATE
  if st = 0 ∨ 5 ≤ st then s.upd d (·.setFld F.BTL_PLUG_SEATED 0)
  else
    (s.down d).upd d fun e =>
      let e := ((e.setPlug 5).setFld F.BTL_PLUG_SEATED 0).cvHoldAll
      let e := [PortId.n, PortId.s].foldl (fun e p =>
        let e := e.setFld (F.CHNX_CTRL_EN p.idx) 0
        if e.portState p = St.on ∨ e.portState p = St.rising then e.chnFall p else e) e
      e.logEv 0 5 (e.regN R.BTL_PLUG)

/-- PLUG_LEAVING (R427). -/
def execPlugLeaving (d : DieId) (s : State) : Out := .next (s.goIn .keep d (·.leaving d))

/-- LEAVE_RESET: the wait of LEAVING ends, and the plug manager holds the die in reset (R427). -/
def execLeaveReset (d : DieId) (s : State) : Out :=
  .next (s.goIn .keep d fun s => if (s.die d).fld F.BTL_PLUG_STATE = 5 then s.resetDie d false else s)

/-- SUPOK of BTL_PLUG follows the rails. -/
def Die.supOk (e : Die) : Die := e.setBit F.BTL_PLUG_SUPOK (e.fld F.BTL_SUPPLY_OK == 0x3F)

/-- A rail leaves its window or is back in it; GPIO balls are driven only with VIO33 (R471). -/
def Die.railSet (e : Die) (r : Rail) (ok : Bool) : Die := e.gpioMove (·.setBitAt F.BTL_SUPPLY_OK (railBit r) ok)

/-- SUPPLY_WARN: a rail has been out of its window for 1 µs. VCORE asserts `DWN` as well (R299, R429). -/
def State.supplyWarn (s : State) (d : DieId) (r : Rail) : State :=
  let s := s.upd d fun e =>
    let e := e.railSet r false
    let e := (e.setBitAt F.BTL_SUPPLY_WARN (railBit r) true).supOk
    let e := if r = .vcv then e.setFld F.CVD_STAT_VCVOK 0 else e
    (e.healthNote fun h => { h with supply := h.supply + 1 }).logEv 0 6 (e.regN R.BTL_SUPPLY)
  if r = .vcore then s.down d else s

/-- SUPPLY_WARN (R429). -/
def execSupplyWarn (d : DieId) (r : Rail) (s : State) : Out := .next (s.goIn .keep d (·.supplyWarn d r))

/-- A rail below its reset threshold: die reset, held until the rail is back. The monitor of VCORE stops with KEEP, but the loss of
VCORE ends a freeze too (R454). The loss of VIO18 takes KEEP with it; a fence stays latched while the partner's VIO18 is good (R24, R298, R429, R451). -/
def State.supplyReset (s : State) (d : DieId) (r : ResetRail) : State :=
  match r with
  | .vcore => if !(s.die d).runs .keep && (s.die d).frzState != 3 then s else
    (s.resetDie d false).upd d fun e =>
      ((e.setBitAt F.BTL_SUPPLY_OK 0 false).supOk).updBoot fun b => { b with low := .vcore :: b.low.filter (· != .vcore) }
  | .vio18 =>
    let other := natBit ((s.die d.other).fld F.BTL_SUPPLY_OK) 1
    let s := s.down d
    let s := s.upd d fun e =>
      let n := Die.reset e.id
      let n : Die := { n with
        free := e.free
        boot := { n.boot with low := [.vio18] }
        clk := { n.clk with stopped := .keep :: n.clk.stopped } }
      n.setRegN R.PAIR_FENCE (if other then e.fenceWires else 4 + 8 * b2n (e.bit F.PAIR_FENCE_DIN))
    if other then s
    else s.upd d.other fun e => (e.setFld F.PAIR_FENCE_FIN 0).setFld F.PAIR_FENCE_FOUT 0

/-- SUPPLY_RESET (R429). -/
def execSupplyReset (d : DieId) (r : ResetRail) (s : State) : Out := .next (s.supplyReset d r)

/-- SUPPLY_RESTORE: a rail is back in its window; one that held the die in reset lets it go (R429). VIO18, once lost, starts
KEEP (R24, R418); the monitors of the other rails stop with it (R451). -/
def Die.supplyRestore (e : Die) (r : Rail) : Die :=
  let e : Die := if r = .vio18 ∧ e.boot.low.contains .vio18 then
    { e with clk := { e.clk with stopped := e.clk.stopped.filter (· != .keep) } } else e
  if !e.runs .keep then e
  else ((e.railSet r true).supOk).updBoot fun b => { b with
    low := match r with
      | .vcore => b.low.filter (· != .vcore)
      | .vio18 => b.low.filter (· != .vio18)
      | _ => b.low }

/-- SUPPLY_RESTORE (R429). -/
def execSupplyRestore (d : DieId) (r : Rail) (s : State) : Out := .next (s.upd d (·.supplyRestore r))

/-- `ALERT_N` is asserted (R420, R441). -/
def Die.alertN (e : Die) : Bool := e.boot.alert || e.bit F.LOG_STAT_LOGFAIL

/-- What BTL registers compute at a read: the straps and the die (R416, R430). -/
def Die.btlRead (e : Die) (a : Nat) : Option Nat :=
  if a = R.BTL_STRAP then some e.strapWord
  else if a = R.BTL_STAT then some (insBits (e.regN a) 14 1 (b2n (e.id == .b)))
  else none

end Sys2Proof.Machine
end

