-- ==== Sys2Proof/Machine/Midi.lean ====
section
/-! DEFINITION. MIDI 1.0 input: the parser, the mapping to note events, the firmware queue and active sensing (R228 to
R231). -/

namespace Sys2Proof.Machine

/-- Change a UART's parser. -/
def Die.updMidi (e : Die) (u : Fin 2) (f : MidiParser → MidiParser) : Die :=
  e.updVox fun x => { x with midi := vupd x.midi u f }

/-- A UART's source in R209. -/
def midiSrc (u : Fin 2) : Fin 4 := ⟨2 + u.val, by omega⟩

/-- An error count of a UART (R228, R230). -/
def Die.midiErr (e : Die) (u : Fin 2) : Die := e.count (if u = 0 then F.VOX_MERR_M0 else F.VOX_MERR_M1) 1

/-- MIDI_FW_QUEUE: an entry of 1 to 3 bytes, or a loss counted at a full queue (R230). -/
def Die.midiFw (e : Die) (u : Fin 2) (bytes : List Byte) (sysex : Bool) : Die :=
  if bytes = [] then e
  else if 32 ≤ e.vox.fifo.length then e.midiErr u
  else
    let n := bytes.foldr (fun b n => b.toNat + 256 * n) 0
    let w := BitVec.ofNat 32 (n + bytes.length * 2 ^ 24 + u.val * 2 ^ 26 + b2n sysex * 2 ^ 27 + 2 ^ 31)
    e.updVox fun x => { x with fifo := x.fifo ++ [w] }

/-- r(v) of R229. -/
def midiRep (v : Nat) : Nat := v * 2 ^ 9 + v * 2 ^ 2 + v / 2 ^ 5

/-- The group VOX_MMAPm gives a channel. -/
def Die.midiGroup (e : Die) (u : Fin 2) (ch : Nat) : Nat :=
  bitsOf (cfgReg e.vox.front (if ch < 8 then R.VOX_MMAP_LO u else R.VOX_MMAP_HI u)) (4 * (ch % 8)) 4

/-- The channel is mapped (R229). -/
def Die.midiMapped (e : Die) (u : Fin 2) (ch : Nat) : Bool := natBit (cfgReg e.vox.front (R.VOX_MEN u)) ch

/-- The event of a control change, if it has one (R229). DESIGN CHOICE: where VOX_MCFG gives a controller of another row, or one
twice, the row that stands first here takes it (log 245). -/
def Die.midiControl (e : Die) (g cc v : Nat) : Option Block :=
  let ctl (slot : Nat) := some (mkEvent 5 g 0 (midiRep v) slot)
  if cc = 1 then ctl 2
  else if cc = 2 then ctl 3
  else if cc = 11 then ctl 4
  else if cc = e.fld F.VOX_MCFG_CCA then ctl 5
  else if cc = e.fld F.VOX_MCFG_CCB then ctl 6
  else if cc = e.fld F.VOX_MCFG_CCC then ctl 7
  else if cc = 64 then ctl 8
  else if cc = 120 then some (mkEvent 7 g 0 0 0)
  else if 123 ≤ cc ∧ cc ≤ 127 then some (mkEvent 6 g 0 (Config.allOffValue e.free).toNat 0)
  else none

/-- The event of a channel message in the mapping of R229. -/
def Die.midiEvent (e : Die) (g status d0 d1 : Nat) : Option Block :=
  match status / 16 with
  | 8 => some (mkEvent 2 g d0 (midiRep d1) 0)
  | 9 => some (if d1 = 0 then mkEvent 2 g d0 (midiRep 64) 0 else mkEvent 1 g d0 (midiRep d1) 0)
  | 10 => some (mkEvent 3 g d0 (midiRep d1) 0x80)
  | 11 => e.midiControl g d0 d1
  | 13 => some (mkEvent 5 g 0 (midiRep d0) 1)
  | 14 => some (mkEvent 5 g 0 ((d0 + 128 * d1) * 4) 0)
  | _ => none

/-- MIDI_MESSAGE: a complete channel message becomes a note event, or goes to the firmware queue (R229). -/
def Die.midiMessage (e : Die) (u : Fin 2) (status : Byte) (data : List Byte) : Die :=
  let ch := status.toNat % 16
  let ev := if e.midiMapped u ch then
    e.midiEvent (e.midiGroup u ch) status.toNat (data.getD 0 0).toNat (data.getD 1 0).toNat else none
  match ev with
  | some v => (e.enqueue (midiSrc u) v).drawn
  | none => e.midiFw u (status :: data) false

/-- Data bytes a status byte takes. -/
def midiLength (status : Nat) : Nat :=
  match status / 16 with
  | 12 => 1
  | 13 => 1
  | 15 => if status = 0xF1 ∨ status = 0xF3 then 1 else if status = 0xF2 then 2 else 0
  | _ => 2

/-- What stands of a system exclusive message ends: the rest of its bytes form an entry. -/
def Die.sysexEnd (e : Die) (u : Fin 2) (last : List Byte) : Die :=
  let p := e.vox.midi[u]
  if p.status = 0xF0 then
    (e.midiFw u (p.data ++ last) true).updMidi u fun p => { p with
      status := 0
      data := [] }
  else e

/-- A data byte (R228). -/
def Die.midiData (e : Die) (u : Fin 2) (b : Byte) : Die :=
  let p := e.vox.midi[u]
  if p.status = 0 then e
  else if p.status = 0xF0 then
    let data := p.data ++ [b]
    if data.length < 3 then e.updMidi u fun p => { p with data := data }
    else (e.midiFw u data true).updMidi u fun p => { p with data := [] }
  else
    let data := p.data ++ [b]
    if data.length < midiLength p.status.toNat then e.updMidi u fun p => { p with data := data }
    else if p.status.toNat < 0xF0 then (e.midiMessage u p.status data).updMidi u fun p => { p with data := [] }
    else (e.midiFw u (p.status :: data) false).updMidi u fun p => { p with
      status := 0
      data := [] }

/-- A status byte below 0xF8 (R228). A system common message ends running status. -/
def Die.midiStatus (e : Die) (u : Fin 2) (b : Byte) : Die :=
  let e := e.sysexEnd u (if b = 0xF7 then [b] else [])
  if b = 0xF7 then e.updMidi u fun p => { p with
    status := 0
    data := [] }
  else if b = 0xF0 then e.updMidi u fun p => { p with
    status := b
    data := [b] }
  else if midiLength b.toNat = 0 then (e.midiFw u [b] false).updMidi u fun p => { p with
    status := 0
    data := [] }
  else e.updMidi u fun p => { p with
    status := b
    data := [] }

/-- A received byte: real-time bytes disturb nothing, 0xFE arms active sensing where it is enabled, and a byte with a
framing error is discarded and counted, after which the parser waits for a status byte (R228, R229, R231). -/
def Die.midiByte (e : Die) (u : Fin 2) (b : Byte) (framing : Bool) : Die :=
  if framing then
    (e.midiErr u).updMidi u fun p => { p with
      status := 0
      data := [] }
  else if b = 0xFE then
    if e.bitAt F.VOX_MCFG_ASEN u then e.updMidi u fun p => { p with sensing := true } else e
  else if 0xF8 ≤ b.toNat then e.midiFw u [b] false
  else if 0x80 ≤ b.toNat then e.midiStatus u b
  else e.midiData u b

/-- Bytes that waited for ENG reach the parser once it runs (R26). -/
def Die.midiFlush (e : Die) : Die :=
  if e.runs .eng then
    e.vox.rxHeld.foldl (fun e b => e.midiByte b.1 b.2.1 b.2.2) (e.updVox fun x => { x with rxHeld := [] })
  else e

/-- A byte passes to the parser, which lies in ENG: it waits while ENG stands still (R26, R228). -/
def Die.midiRx (e : Die) (u : Fin 2) (b : Byte) (framing : Bool) : Die :=
  if e.runs .eng then e.midiFlush.midiByte u b framing
  else e.updVox fun x => { x with rxHeld := x.rxHeld ++ [(u, b, framing)] }

/-- The level of an input as the stop bit is sampled: low there is a framing error (R228, R405). DEDUCED (log 229). -/
def Die.midiLevel (e : Die) (u : Fin 2) (framing : Bool) : Die :=
  e.setBit (if u = 0 then F.MISC_MIDI_STAT_RX0 else F.MISC_MIDI_STAT_RX1) !framing

/-- MIDI_RX_BYTE: while the unit is OFF, its inputs disabled, or CTL stands still, nothing passes (R403, R465). -/
def execMidiRxByte (d : DieId) (uart : Fin 2) (byte : Byte) (framing : Bool) (s : State) : Out :=
  .next (s.upd d fun e =>
    if !e.runs .ctl || e.fld F.MISC_MIDI_CTRL_STATE == St.off then e
    else (e.midiLevel uart framing).midiRx uart byte framing)

/-- MFIFO_READ: the head entry is returned and removed; an empty queue reads zero (R230, R233). -/
def Die.mfifoRead (e : Die) (m : BitVec 3) : Die :=
  match e.vox.fifo with
  | [] => e.answer m 0
  | w :: ws => (e.updVox fun x => { x with fifo := ws }).answer m w

/-- MFIFO_READ (R230). -/
def execMfifoRead (d : DieId) (m : BitVec 3) (s : State) : Out := .next (s.updIn .ctl d (·.mfifoRead m))

/-- ACTIVE_SENSE_TIMEOUT: ALL_OFF for every group mapped from an enabled channel, in ascending order, and MSENSE; sensing
then rests (R231). -/
def Die.senseTimeout (e : Die) (u : Fin 2) : Die :=
  if e.vox.midi[u].sensing then
    let groups := (List.range 16).filter fun g => (List.range 16).any fun ch => e.midiMapped u ch && e.midiGroup u ch == g
    let e := groups.foldl (fun e g =>
      (e.enqueue (midiSrc u) (mkEvent 6 g 0 (Config.allOffValue e.free).toNat 0)).drawn) e
    (e.updMidi u fun p => { p with sensing := false }).setFld F.VOX_IRQ_MSENSE 1
  else e

/-- ACTIVE_SENSE_TIMEOUT (R231). -/
def execActiveSenseTimeout (d : DieId) (uart : Fin 2) (s : State) : Out := .next (s.updIn .eng d (·.senseTimeout uart))

end Sys2Proof.Machine
end

