-- ==== Sys2Proof/Machine/PairCopy.lean ====
section
/-! DEFINITION. The state copy: its items, the changes repeated to the joiner, and the comparison of phase 4 (R305 to R308). A
joiner reads the lead's state directly; the traffic itself is not held. -/

namespace Sys2Proof.Machine

/-- The row of a seat's tile: X, Y, inbound ring by 0, 1, 2. -/
def copyTile (t : Fin 3) : Nat := if t = 0 then Tl.x else if t = 1 then Tl.y else Tl.ring

/-- A course's tiles as a read delivers them: an uncorrectable pair is zero (R123). -/
def Course.delivered (x : Course) : Course :=
  x.bad.foldl (fun y m =>
    if m.1 / 8192 == Tl.prog || Tl.ring < m.1 / 8192 then y
    else y.setTileRow (m.1 / 8192) (m.1 % 8192) (eccRow m.2 (x.tileRow (m.1 / 8192) (m.1 % 8192)))) x

/-- A course's Z banks, as the lead's course holds them. -/
def Course.takeZ (x p : Course) : Course :=
  { x with
    zFront := p.zFront
    zBack := p.zBack
    bad := x.bad.filter fun m => m.1 / 8192 != Tl.zf && m.1 / 8192 != Tl.zb
    fixes := x.fixes.filter fun k => k / 8192 != Tl.zf && k / 8192 != Tl.zb }

/-- The course registers of R51. -/
def Course.takeRegs (x p : Course) : Course :=
  { x with
    xa := p.xa
    ya := p.ya
    za := p.za
    dp := p.dp
    xm := p.xm
    ym := p.ym
    zm := p.zm
    dm := p.dm
    xl := p.xl
    yl := p.yl
    zl := p.zl
    agm := p.agm
    levels := p.levels
    ld := p.ld
    rc := p.rc
    ipc := p.ipc
    ibr := p.ibr
    ics := p.ics
    search := p.search }

/-- The X, Y and inbound ring tiles. -/
def Course.takeTiles (x p : Course) : Course :=
  { x with
    x := p.x
    y := p.y
    ringIn := p.ringIn
    bad := x.bad.filter fun m => m.1 / 8192 != Tl.x && m.1 / 8192 != Tl.y && m.1 / 8192 != Tl.ring
    fixes := x.fixes.filter fun k => k / 8192 != Tl.x && k / 8192 != Tl.y && k / 8192 != Tl.ring }

/-- A seat's course takes part of the lead's course of the same seat. -/
def Die.takeSeat (e lead : Die) (s : Fin 24) (f : Course → Course → Course) : Die :=
  match e.seatCourse s, lead.seatCourse s with
  | some c, some k => e.updCourse c fun x => f x (lead.course k).delivered
  | _, _ => e

/-- The registers of a list take the lead's values. -/
def Die.takeRegs (e lead : Die) (rs : List Nat) : Die := rs.foldl (fun e a => e.setReg a (lead.reg a)) e

/-- The bank of a run of rows has a grant for the state copy (R118, R119). -/
def Die.copyGranted (e : Die) (first : BitVec 22) : Bool := e.granted (bankOf first) (some .stateCopy)

/-- Rows of a run that one command copies: one where a bank of either die arbitrates, for a grant serves one row, and as many as
its bank still holds where neither does (R117). -/
def Die.copyServes (e lead : Die) (first : BitVec 22) (n : Nat) : Nat :=
  let b := bankOf first
  min (if e.arbitrated b || lead.arbitrated b then min n 1 else n) (2 ^ 20 - first.toNat % 2 ^ 20)

/-- One yard row is read at the lead and written at the joiner, each in a grant of its bank at rank 6 (R117, R118, R122, R123,
R139). -/
def Die.copyRow (p : Die × Die) (row : BitVec 22) : Die × Die :=
  let (r, lead) := (p.2.useGrant (bankOf row)).readYard row Req.copy []
  ((p.1.useGrant (bankOf row)).writeYard row r, lead)

/-- Bytes of one 64-bit word of SHARED as the lead's party-wall bridge reads them, with the word's check bits (R392). DESIGN
CHOICE: bytes of an uncorrectable word are free values (log 67). -/
def Die.bridgeRead (e : Die) (a n : Nat) : Nat × Die :=
  match e.memRead 6 a n none with
  | (some v, e) => (v, e)
  | (none, e) => ((Config.lostWord e.free).toNat % 256 ^ n, (e.busError 6 false 3 (BitVec.ofNat 32 a)).drawn)

/-- Bytes of one 64-bit word of SHARED that the joiner's bridge writes; fewer than eight are a read-modify-write (R392). -/
def Die.bridgeWrite (e : Die) (a v n : Nat) : Die :=
  match e.memStore 6 a v n with
  | (true, e) => e
  | (false, e) => e.busError 6 true 3 (BitVec.ofNat 32 a)

/-- Bytes of SHARED from the lead, word by word. -/
def Die.copyBytes : Nat → Die × Die → Nat → Nat → Die × Die
  | 0, p, _, _ => p
  | k + 1, p, a, n =>
    let m := min n (8 - a % 8)
    if m = 0 ∨ !inMem a then p
    else
      let (v, lead) := p.2.bridgeRead a m
      Die.copyBytes k (p.1.bridgeWrite a v m, lead) (a + m) (n - m)

/-- 64 rows of a seat's tile. -/
def Course.takeBlock (x p : Course) (t first : Nat) : Course :=
  (List.range 64).foldl (fun x i => x.setTileRow t (first + i) (p.tileRow t (first + i))) x

/-- A copied region holds a declared one. -/
def covers (r : Nat × Nat) : Option (Nat × Nat) → Bool
  | none => false
  | some d => r.1 ≤ d.1 && d.1 + d.2 ≤ r.1 + r.2

/-- What the reads of a seat's tiles do at the lead (R122, R123). -/
def Die.giveSeat (e : Die) (s : Fin 24) (ts : Nat → Bool) : Die :=
  match e.seatCourse s with
  | some c => e.readMarked c Req.copy ts
  | none => e

/-- An item can be copied now: rows of the yard with grants of their bank at both dies (R118, R119); tiles, the voice table and the
blocks of phase 4 in the lead's exchange window (R305, R308). -/
def Die.mayCopy (e lead : Die) : CopyItem → Bool
  | .yardRows first _ => e.copyGranted first && lead.copyGranted first
  | .dirtyYard first => lead.eng.window && e.copyGranted first && lead.copyGranted first
  | .tiles _ => lead.eng.window
  | .voices => lead.eng.window
  | .dirtyTile _ _ _ => lead.eng.window
  | _ => true

/-- The phase in which an item is copied (R305). -/
def itemPhase : CopyItem → Nat
  | .tiles _ => 2
  | .voices => 2
  | .yardRows _ _ => 3
  | .dirtyTile _ _ _ => 4
  | .dirtyYard _ => 4
  | _ => 1

/-- Rows of a dirty yard block that are still to copy. -/
def Die.blockRest (e : Die) (first : BitVec 22) : List (BitVec 22) :=
  ((List.range 8).map fun i => first + BitVec.ofNat 22 i).filter fun r => !e.pair.copy.part.contains r.toNat

/-- The rows that one command copies of an item. -/
def Die.itemRows (e lead : Die) : CopyItem → List (BitVec 22)
  | .yardRows first n => (List.range (e.copyServes lead first n)).map fun i => first + BitVec.ofNat 22 i
  | .dirtyYard first => (e.blockRest first).take (e.copyServes lead first 8)
  | _ => []

/-- What an item brings, of what a read of the lead needs no check bits for. -/
def Die.takeItem (e lead : Die) : CopyItem → Die
  | .zBanks s => e.takeSeat lead s Course.takeZ
  | .courseRegs s => e.takeSeat lead s Course.takeRegs
  | .routes => e.updMor fun m => { m with
      front := lead.mor.front
      back := lead.mor.back
      inForce := lead.mor.inForce
      fades := lead.mor.fades }
  | .voiceCfg => e.updVox fun v => { v with
      front := lead.vox.front
      back := lead.vox.back
      late := lead.vox.late }
  | .rings => e.updYard fun y => { y with rings := lead.yard.rings }
  | .swapSlots => e.takeRegs lead ((List.range 4).flatMap fun n => [R.ENG_SWAP_MASK n, R.ENG_SWAP_FRAME n, R.ENG_SWAP_CTL n])
  | .generators => (e.takeRegs lead genRegs).updMor fun m => { m with
      gens := lead.mor.gens
      pink := lead.mor.pink }
  | .chainMaps =>
    let e := (e.updPort .n fun p => { p with map := lead.chn.n.map }).updPort .s fun p => { p with map := lead.chn.s.map }
    e.setFld F.CHN_PCTL_P (lead.fld F.CHN_PCTL_P)
  | .sharedRegion a n =>
    if covers (a, n) lead.boot.library then { e with swp := { e.swp with
      scenes := lead.swp.scenes
      show_ := lead.swp.show_ } } else e
  | .tiles s => e.takeSeat lead s Course.takeTiles
  | .voices => e.updVox fun v => { v with
      voices := lead.vox.voices
      next := lead.vox.next }
  | .dirtyTile s t r => e.takeSeat lead s fun x p => x.takeBlock p (copyTile t) r.toNat
  | _ => e

/-- What the reads of an item do at the lead beside the rows of the yard and the bytes of SHARED (R122, R123). -/
def Die.giveItem (e : Die) : CopyItem → Die
  | .zBanks s => e.giveSeat s fun k => k / 8192 == Tl.zf || k / 8192 == Tl.zb
  | .tiles s => e.giveSeat s fun k => k / 8192 == Tl.x || k / 8192 == Tl.y || k / 8192 == Tl.ring
  | .dirtyTile s t r => e.giveSeat s fun k => k / 8192 == copyTile t && r.toNat ≤ k % 8192 && k % 8192 < r.toNat + 64
  | _ => e

/-- What an item brings to the joiner, and what its reads do at the lead (R305). -/
def Die.moveItem (e lead : Die) (item : CopyItem) : Die × Die :=
  let p := (e.takeItem lead item, lead.giveItem item)
  match item with
  | .sharedRegion a n => Die.copyBytes (n / 8 + 2) p a n
  | _ => (e.itemRows lead item).foldl Die.copyRow p

/-- The ring rows and live regions of phase 3 are all copied. -/
def Die.rowsCopied (e : Die) : Bool :=
  e.yard.liveRows.all fun r => (List.range r.2).all fun i => e.pair.copy.has (r.1 + i)

/-- A region of SHARED that the image declares, the scene library among them, has been copied. -/
def Die.regionCopied (e : Die) (d : Nat × Nat) : Bool :=
  e.pair.copy.items.any fun i => match i with
    | .sharedRegion a n => covers (a, n) (some d)
    | _ => false

/-- The items of phase 1 beside the SHARED regions the image declares. -/
def phase1Items : List CopyItem :=
  (List.finRange 24).flatMap (fun s => [.zBanks s, .courseRegs s])
    ++ [.routes, .voiceCfg, .rings, .swapSlots, .generators, .chainMaps]

/-- Everything a phase copies has arrived (R305). -/
def Die.phaseWhole (e : Die) : Bool :=
  let c := e.pair.copy
  match e.fld F.PAIR_COPY_PHASE with
  | 1 => phase1Items.all c.items.contains && (e.boot.library.toList ++ e.boot.shared).all e.regionCopied
  | 2 => (List.finRange 24).all (fun s => c.items.contains (.tiles s)) && c.items.contains .voices
  | 3 => e.rowsCopied
  | _ => false

/-- COPY_PHASE_END: phase 1 gives way at the next FT, the others at once (R305). -/
def Die.copyPhaseEnd (e : Die) : Die :=
  if !e.phaseWhole then e
  else if e.fld F.PAIR_COPY_PHASE = 1 then e.updPair fun p => { p with copy := { p.copy with ended := true } }
  else
    (e.setFld F.PAIR_COPY_PHASE (e.fld F.PAIR_COPY_PHASE + 1)).updPair fun p => { p with copy := { p.copy with
      dirty := []
      found := false
      next := 0
      sweeps := 0 } }

/-- The joiner takes an item in the phase that copies it (R305). -/
def Die.takesItem (e : Die) (item : CopyItem) : Bool :=
  e.role == Role.join && item != .phaseEnd && itemPhase item == e.fld F.PAIR_COPY_PHASE

/-- The joiner notes what has come. -/
def CopyState.took (c : CopyState) (item : CopyItem) (rows : List (BitVec 22)) : CopyState :=
  match item with
  | .yardRows first _ => { c with rows := (first.toNat, rows.length) :: c.rows }
  | .dirtyTile _ _ _ => { c with dirty := c.dirty.erase item }
  | .dirtyYard first =>
    let part := rows.map (·.toNat) ++ c.part
    if (List.range 8).all fun i => part.contains (first + BitVec.ofNat 22 i).toNat then
      { c with
        dirty := c.dirty.erase item
        part := part.filter fun r => r / 8 != first.toNat / 8 }
    else { c with part := part }
  | _ => { c with items := item :: c.items }

/-- STATE_COPY_BLOCK at the joiner and the lead (R305). -/
def Die.copyBlock (e lead : Die) (item : CopyItem) : Die × Die :=
  if e.role = Role.join ∧ item = .phaseEnd then (e.copyPhaseEnd.leftFollows, lead)
  else if !e.takesItem item || !e.mayCopy lead item then (e, lead)
  else
    let (j, l) := e.moveItem lead item
    ((j.updPair fun p => { p with copy := p.copy.took item (e.itemRows lead item) }).leftFollows, l)

/-- STATE_COPY_BLOCK over the pair: the joiner takes the item unless a block of it was dropped, and the lead's reads leave their
mark there (R285, R305). -/
def State.stateCopy (s : State) (d : DieId) (item : CopyItem) : State :=
  if !s.linked || !(s.die d.other).runs .eng || !(s.die d).runs .eng then s
  else
    let p := (s.die d).copyBlock (s.die d.other) item
    (s.wall d .copy fun _ => p.1).setDie d.other p.2

/-- STATE_COPY_BLOCK (R305). -/
def execStateCopyBlock (d : DieId) (item : CopyItem) (s : State) : Out := .next (s.stateCopy d item)

/-- A copied region of SHARED holds an address. -/
def CopyState.hasByte (c : CopyState) (a : Nat) : Bool :=
  c.items.any fun i => match i with
    | .sharedRegion b n => b ≤ a && a < b + n
    | _ => false

/-- COPY_CHANGE_REPEAT: a change that the lead made to an item already copied (R306). -/
def Die.copyChange (e : Die) (ch : CopyChange) : Die :=
  let c := e.pair.copy
  if e.role ≠ Role.join then e
  else match ch with
    | .engw k i q =>
      match e.workSeat k with
      | some s => if c.items.contains (.zBanks s) then e.zBackWrite k (i.toNat / 8) ⟨i.toNat % 8, Nat.mod_lt _ (by decide)⟩ q [] else e
      | none => e
    | .morw sink w => if c.items.contains .routes then e.morwWrite sink.toNat w else e
    | .voiceReg a w =>
      if c.items.contains .voiceCfg && voiceCfgRegs.contains a.toNat then e.voiceCfgWrite a.toNat w else e
    | .ringBack n w =>
      if c.items.contains .rings then e.updYard fun y => y.setRing n.toNat { y.ring n.toNat with
        backLen := bitsOf w.toNat 0 20
        backSmooth := natBit w.toNat 20 }
      else e
    | .shared a b => if c.hasByte a.toNat && inMem a.toNat then e.bridgeWrite a.toNat b.toNat 1 else e

/-- COPY_CHANGE_REPEAT (R306). -/
def execCopyChangeRepeat (d : DieId) (change : CopyChange) (s : State) : Out :=
  .next (s.wall d .copy (·.copyChange change))

/-! ### Phase 4 (R308) -/

/-- Block `i` of the live rows, each of 8 yard rows. -/
def liveBlock : List (Nat × Nat) → Nat → Option (BitVec 22)
  | [], _ => none
  | (b, n) :: rs, i =>
    let k := if n = 0 then 0 else (b + n - 1) / 8 - b / 8 + 1
    if i < k then some (BitVec.ofNat 22 (8 * (b / 8 + i))) else liveBlock rs (i - k)

/-- Block `i` of the fixed order: the tiles seat by seat, 17 blocks each, then the live yard rows. -/
def Die.copyBlockAt (e : Die) (i : Nat) : Option CopyItem :=
  if h : i / 17 < 24 then
    let s : Fin 24 := ⟨i / 17, h⟩
    let j := i % 17
    some (if j < 8 then .dirtyTile s 0 (BitVec.ofNat 9 (64 * j))
      else if j < 16 then .dirtyTile s 1 (BitVec.ofNat 9 (64 * (j - 8))) else .dirtyTile s 2 0)
  else (liveBlock e.yard.liveRows (i - 408)).map .dirtyYard

/-- A row of a voice seat's command area (R221), which the checksums leave out. -/
def Die.inCommands (e : Die) (s : Fin 24) (t row : Nat) : Bool :=
  t == Tl.x && e.voiceSeats.contains s
    && (row + 512 - e.fld F.VOX_AREA_CMDROW) % 512 < 17 + 3 * e.octetsPerSeat

/-- The rows a block's checksum covers, as the die's reads deliver them, and the die after those reads (R122, R123, R139, R308). -/
def Die.blockRows (e : Die) : CopyItem → List Row × Die
  | .dirtyTile s t first =>
    match e.seatCourse s with
    | some c => ((List.range 64).filter fun i => !e.inCommands s (copyTile t) (first.toNat + i)).foldl (fun p i =>
        let (r, f) := p.2.readTile c (copyTile t) (first.toNat + i) Req.copy []
        (p.1 ++ [r], f)) ([], e)
    | none => ([], e)
  | .dirtyYard first => (List.range 8).foldl (fun p i =>
      let (r, f) := p.2.readYard (first + BitVec.ofNat 22 i) Req.copy []
      (p.1 ++ [r], f)) ([], e)
  | _ => ([], e)

/-- A block's checksum (R308). -/
def blockCrc (rows : List Row) : Nat :=
  rows.foldl (fun c r => r.toList.foldl (fun c q => crc32Bits 28 c q.toNat) c) 0xFFFFFFFF

/-- A block can be checked in this window: a yard block while neither die's bank arbitrates, so that its eight reads are the bank's
only requests (R117, R118; log 195). -/
def Die.mayCheck (e lead : Die) : CopyItem → Bool
  | .dirtyYard first => !e.arbitrated (bankOf first) && !lead.arbitrated (bankOf first)
  | _ => true

/-- The joiner enters FOLLOW (R308). -/
def Die.copyDone (e : Die) : Die :=
  (((e.setRole Role.follow).setFld F.PAIR_COPY_PHASE 5).setFld F.PAIR_IRQ_COPYDONE 1).updPair fun p => { p with
    relayed := Vector.replicate 4 none }

/-- COPY_RESTART at phase 2, or at the third COPY_FAIL (R308). -/
def Die.copyRestart (e : Die) : Die :=
  let n := e.fld F.PAIR_COPY_RESTARTS + 1
  let e := e.setFld F.PAIR_COPY_RESTARTS n
  if 3 ≤ n then
    let e := ((e.setRole Role.fenced).setFld F.PAIR_COPY_PHASE 6).setFld F.PAIR_IRQ_COPYFAIL 1
    e.logEv 3 3 (e.regN R.PAIR_COPY)
  else
    (e.setFld F.PAIR_COPY_PHASE 2).updPair fun p => { p with copy := { p.copy with
      items := p.copy.items.filter fun i => itemPhase i == 1
      rows := []
      dirty := []
      part := []
      found := false
      next := 0
      sweeps := 0 } }

/-- The end of a sweep: clean with 16 matching frames completes the copy (R308). -/
def Die.sweepEnd (e : Die) : Die :=
  let c := e.pair.copy
  if !c.found && 16 ≤ e.pair.matching then e.copyDone
  else if 4 ≤ c.sweeps + 1 then e.copyRestart
  else e.updPair fun p => { p with copy := { p.copy with
    found := false
    next := 0
    sweeps := p.copy.sweeps + 1 } }

/-- COPY_CHECKSUM of up to `n` blocks in a window, at the joiner and the lead (R308). -/
def Die.sweep : Nat → Die × Die → Die × Die
  | 0, p => p
  | n + 1, (e, lead) =>
    match e.copyBlockAt e.pair.copy.next with
    | none => (e.sweepEnd, lead)
    | some b =>
      if !e.mayCheck lead b then (e, lead)
      else
        let (r, e) := e.blockRows b
        let (q, lead) := lead.blockRows b
        let bad := blockCrc r ≠ blockCrc q
        Die.sweep n (e.updPair fun p => { p with copy := { p.copy with
          next := p.copy.next + 1
          found := p.copy.found || bad
          dirty := if bad && !p.copy.dirty.contains b then p.copy.dirty ++ [b] else p.copy.dirty } }, lead)

/-- The die's window is open, and no course of it issues (R88, R90, R308). -/
def Die.quiet (e : Die) : Bool := e.eng.window && (e.eng.stopped || e.eng.courses.all fun x => !x.running)

/-- The checksums of phase 4 are made: both dies stand in their windows with no course issuing (R308). -/
def Die.checks (e lead : Die) : Bool := e.role == Role.join && e.fld F.PAIR_COPY_PHASE == 4 && e.quiet && lead.quiet

/-- A window of phase 4, at the joiner and the lead. -/
def Die.copyWindow (e lead : Die) : Die × Die :=
  if e.checks lead then
    let p := Die.sweep (1 + Config.sweepBlocks e.free) (e.drawn, lead)
    (p.1.leftFollows, p.2)
  else (e, lead)

/-- COPY_CHECKSUM of a joiner's window; on completion the lead releases its fence on it (R298, R308). -/
def State.copyWindow (s : State) (d : DieId) : State :=
  if !s.linked then s
  else
    let was := (s.die d).role
    let p := (s.die d).copyWindow (s.die d.other)
    let s := (s.setDie d p.1).setDie d.other p.2
    if was ≠ Role.follow ∧ (s.die d).role = Role.follow then s.unfence d.other else s

end Sys2Proof.Machine
end

