-- ==== Sys2Proof/Machine/Pct.lean ====
section
/-! DEFINITION. The performance counters (R442 to R446, R457). -/

namespace Sys2Proof.Machine

/-- The number of indices an event type has; `none` for a reserved type (R443). A type the table gives no index takes
index 0 only. -/
def pctRange (type : Nat) : Option Nat :=
  match type with
  | 0 => some 1
  | 1 => some 28
  | 2 => some 28
  | 3 => some 28
  | 4 => some 28
  | 5 => some 28
  | 6 => some 28
  | 7 => some 4
  | 8 => some 4
  | 9 => some 1
  | 10 => some 1
  | 11 => some 1
  | 12 => some 4
  | 13 => some 1
  | 14 => some 1
  | 16 => some 1
  | 17 => some 4
  | 18 => some 4
  | 19 => some 4
  | 20 => some 7
  | 21 => some 10
  | _ => none

/-- An event number names an event (R443). -/
def pctValid (event : Nat) : Bool :=
  match pctRange (event / 32) with
  | some n => event % 32 < n
  | none => false

/-- The domain of an event, in which its counters count (R443). -/
def pctDom (event : Nat) : Dom := if 16 ≤ event / 32 then .ctl else .eng

/-- The event is indexed by a course or by a core, so its sample is that course's or core's (R443, R444). -/
def pctOwn (type : Nat) : Bool := (1 ≤ type && type ≤ 6) || (17 ≤ type && type ≤ 19)

/-- The address a wrap of counter `n` captures: near what caused an event indexed by course or core, and for any other the pc of
the core that CORE names (R444). -/
def Die.samplePc (e : Die) (n : Fin 8) (pc : BitVec 22) : BitVec 22 :=
  if pctOwn (e.fld (F.PCT_SEL_EVENT n) / 32) then pc
  else e.cpus[Fin.ofNat 4 (e.fld (F.PCT_SEL_CORE n))].pc.setWidth 22

/-- PCT_WRAP: OVF, and with SAMPEN a sample request with a captured address (R444). -/
def Die.pctWrap (e : Die) (n : Fin 8) (pc : BitVec 22) : Die :=
  let e := e.setBitAt F.PCT_OVF_OVF n true
  if e.bit (F.PCT_SEL_SAMPEN n) then
    (e.setBitAt F.PCT_OVF_SIRQ n true).setRegN (R.PCT_SAMPPC n) ((e.samplePc n pc).toNat + 2 ^ 31)
  else e

/-- A counter counts one event. -/
def Die.pctCount (e : Die) (n : Fin 8) (pc : BitVec 22) : Die :=
  let v := e.regN (R.PCT_CNT n) + 1
  let e := e.setRegN (R.PCT_CNT n) v
  if v = 2 ^ 32 then e.pctWrap n pc else e

/-- PCT_EVENT: every enabled counter that names the event counts it, while the event's domain runs (R26, R443). -/
def execPctEvent (d : DieId) (event : BitVec 10) (pc : BitVec 22) (s : State) : Out :=
  .next (s.upd d fun e =>
    if pctValid event.toNat && e.runs (pctDom event.toNat) then
      ((List.finRange 8).filter (fun (n : Fin 8) => natBit e.pct.en.toNat n.val && e.fld (F.PCT_SEL_EVENT n) == event.toNat)).foldl
        (fun e (n : Fin 8) => e.pctCount n pc) e
    else e)

/-- A write of PCT_SELn: ignored while counter n is enabled; a reserved event sets SELERR (R443). -/
def Die.pctSelect (e : Die) (n : Fin 8) (v : Word) : Die :=
  if natBit e.pct.en.toNat n.val then e
  else
    let keep := e.fld (F.PCT_SEL_SELERR n) * b2n (!natBit v.toNat 13)
    let e := e.setRegN (R.PCT_SEL n) (v.toNat % 2 ^ 13 + keep * 2 ^ 13)
    e.raise (F.PCT_SEL_SELERR n) (!pctValid (v.toNat % 1024))

/-- A write of PCT_CTRL: without FTSYNC the enables change at once, with it at the next FT (R443). -/
def Die.pctCtrl (e : Die) (v : Word) : Die :=
  let e := e.setRegN R.PCT_CTRL (v.toNat % 512)
  if natBit v.toNat 8 then e else { e with pct := { e.pct with en := BitVec.ofNat 8 v.toNat } }

/-- PCT_FTSYNC: at FT the enables written take effect (R443). -/
def Die.pctFt (e : Die) : Die := { e with pct := { e.pct with en := BitVec.ofNat 8 (e.fld F.PCT_CTRL_EN) } }

/-- What a snapshot sets and CTL then reads: the cycle count and the copies of the counters (R442). -/
def snapRegs : List Nat := R.PCT_CYCLO :: R.PCT_CYCHI :: (List.range 8).map R.PCT_SNAP

/-- PCT_SNAPSHOT: a read of PCT_CYCLO at a cycle of the frame. The cycle count's high half and the eight counters go into
hold registers in one ENG cycle, and reach CTL together (R442). While ENG stands still CTL sees what it last delivered (R26). -/
def Die.pctSnapshot (e : Die) (m : BitVec 3) (cycle : BitVec 15) : Die :=
  if !e.runs .eng then e.answer m (SMap.get regReset e.shadow R.PCT_CYCLO)
  else
    let n := (e.pct.cycles.toNat + (if e.pct.counting then cycle.toNat else 0)) % 2 ^ 64
    let e := (e.setRegN R.PCT_CYCLO n).setRegN R.PCT_CYCHI (n / 2 ^ 32)
    let e := (List.finRange 8).foldl (fun e (n : Fin 8) => e.setReg (R.PCT_SNAP n) (e.reg (R.PCT_CNT n))) e
    ({ e with shadow := snapRegs.foldl (fun t a => SMap.set regReset t a (e.reg a)) e.shadow } : Die).answer m (BitVec.ofNat 32 n)

/-- PCT_SNAPSHOT (R442). -/
def execPctSnapshot (d : DieId) (m : BitVec 3) (cycle : BitVec 15) (s : State) : Out := .next (s.updIn .ctl d (·.pctSnapshot m cycle))

/-- PCT_COUNTER_WRITE: the written value is kept where an increment falls in the same cycle; an increment that would have
wrapped still sets OVF and samples (R445). -/
def Die.pctCounterWrite (e : Die) (n : Fin 8) (v : Word) (inc : Bool) : Die :=
  let wrap := inc && natBit e.pct.en.toNat n.val && e.regN (R.PCT_CNT n) == 2 ^ 32 - 1
  let e := if wrap then (e.pctWrap n (Config.samplePc e.free)).drawn else e
  e.setReg (R.PCT_CNT n) v

/-- PCT_COUNTER_WRITE (R445). -/
def execPctCounterWrite (d : DieId) (n : Fin 8) (v : Word) (inc : Bool) (s : State) : Out :=
  .next (s.updIn (pctDom ((s.die d).fld (F.PCT_SEL_EVENT n.val))) d (·.pctCounterWrite n v inc))

/-- A frame's ENG cycles pass (R442). -/
def Die.pctFrame (e : Die) : Die :=
  if e.pct.counting then
    { e with pct := { e.pct with cycles := BitVec.ofNat 64 (e.pct.cycles.toNat + e.cyc) } }
  else e

end Sys2Proof.Machine
end

