-- ==== Sys2Proof/Machine/Frame.lean ====
section
/-! DEFINITION. The steps of a frame: FT, the opening and the close of the exchange window (R88, R192), and the samples of
the rate bridges (R175). -/

namespace Sys2Proof.Machine

/-! ### FRAME_TICK (R52, R192) -/

/-- The die runs its kernels, its Mortar and its allocator: its image runs, and its role lets it (R280, R305, R418). -/
def Die.runsKernels (e : Die) : Bool := e.works && e.imageRuns

/-- Every course issues nothing. -/
def Die.stopCourses (e : Die) : Die :=
  { e with eng := { e.eng with
      courses := e.eng.courses.map (·.standStill)
      stopped := false
      window := false } }

/-- The frame sequence advances; a die that adopts the chain's sequence takes it instead (R250). -/
def Die.seqAdvance (e : Die) : Die := (e.setRegN R.ENG_SEQ ((e.seq + 1) % 2 ^ 32)).seqAdoptFt

/-- The pair manager at FT, once the image runs (R282, R292 to R305). -/
def Die.pairFt (e : Die) : Die :=
  if e.imageRuns then (((e.roleFt).judge.divergeAct).handover.copyFt).skewCheck.healthFt else e

/-- The seat scopes of a union are exchanged; ENG_SWAPSKIP names the seats skipped (R193). -/
def Die.swapSeats (e : Die) (u : BitVec 27) : Die :=
  (List.finRange 24).foldl (fun e (s : Fin 24) => if natBit u.toNat s.val then e.zSwapSeat s else e)
    (e.setRegN R.ENG_SWAPSKIP 0)

/-- SWAP_EXECUTE: the union of the due slots is exchanged once, and the slots disarm with DONE (R192). -/
def Die.swapExecute (e : Die) : Die :=
  match e.dueAt e.seq with
  | [] => e
  | due =>
    let u := e.unionAt e.seq
    let e := e.swapSeats u
    let e := if natBit u.toNat 24 then e.routeExchange else e
    let e := if natBit u.toNat 25 then e.voxExchange else e
    let e := if natBit u.toNat 26 then e.ringExchange else e
    let e := due.foldl (fun e n => e.slotServed n) e
    (e.setRegN R.ENG_SWAPLAST e.seq).setRegN R.ENG_SWAPLASTMASK u.toNat

/-- What FT does to the engine, the yard and the Mortar after the swap and before the courses start (R130, R142, R162, R170,
R175, R192). -/
def Die.frameScopes (e : Die) : Die :=
  let e := e.voxLate.fadeStart.ringTick
  let e := (List.finRange 4).foldl (fun e (b : Fin 4) => e.remapSwitch b) e
  let e := e.hodFt.testTick.voxFt
  if e.seq % 32 = 0 then e.genLatch.bridgeReport else e.genLatch

/-- A record among others in ascending class and code. -/
def recInsert (r : LogRec) : List LogRec → List LogRec
  | [] => [r]
  | q :: qs => if r[0].toNat / 2 ^ 8 < q[0].toNat / 2 ^ 8 then r :: q :: qs else q :: recInsert r qs

/-- The recorder gathers the records of one KEEP cycle. -/
def Die.logGather (e : Die) : Die := { e with log := { e.log with gathered := some [] } }

/-- The records gathered came in one KEEP cycle: they enter in ascending class and code (R434). -/
def Die.logInOrder (e : Die) : Die :=
  let t := (e.log.gathered.getD []).foldl (fun t r => recInsert r t) []
  t.foldl Die.logQueue { e with log := { e.log with gathered := none } }

/-- The frame that FT ends is closed. `stamp` is the LTX count of the FT (R291). -/
def Die.frameEnd (e : Die) (stamp : BitVec 48) : Die :=
  (e.logGather.midiFlush.engWaiting.closeCourses.beatClose stamp).pctFrame

/-- What FT settles under the new frame sequence before the swap: the roles, the transitions that start, the chain's maps, the
lead's slots and the migrations (R31, R197, R252, R282). -/
def Die.frameOpen (e : Die) : Die :=
  let e := (List.finRange 8).foldl (fun e (p : Fin 8) => e.syncLost p) e
  let e := (e.bootFt.pctFt).pairFt.startAll
  let e := ((e.mapApply.pApply).storePrune.quietFt).slotAdopt
  (List.finRange 4).foldl (fun e (w : Fin 4) => e.migTick w) e

/-- The courses start their kernels, on a die that runs them (R52, R192). -/
def Die.frameCourses (e : Die) : Die := if e.runsKernels then e.ftCourses else e.stopCourses

/-- The end of FT: TIME steps, WCK_OUT rises, and the control voltages of frame `k`, which has ended, take effect. -/
def Die.frameLast (e : Die) (k : Nat) : Die :=
  let e := (e.timeStepFt).updTim fun t => { t with wckOut := true }
  let e := e.updChn fun c => { c with
    ftSec := e.tim.sec
    ftNs := e.tim.ns }
  (if e.inService then e.cvFt k else e).logInOrder

/-- FT on a die whose ENG runs, in the order of R192. -/
def Die.frameRun (e : Die) (stamp : BitVec 48) : Die :=
  ((((e.frameEnd stamp).seqAdvance.frameOpen).swapExecute.frameScopes).frameCourses).frameLast e.seq

/-- FRAME_TICK: FT, on a die whose ENG runs. At an entry into JOIN the frame ends without an FT, and ENG runs on from the next
FRAME_TICK (R327). `stamp` is the LTX count of the FT that heartbeats carry (R291). -/
def Die.frameTick (e : Die) (stamp : BitVec 48) : Die :=
  if e.pair.restart = .stopped && !e.frz.gate then (e.engResume stamp).frameRun stamp
  else if !e.runs .eng then e
  else if e.pair.restart = .asked then e.engStop
  else e.frameRun stamp

/-- FRAME_TICK (R192). -/
def execFrameTick (d : DieId) (stamp : BitVec 48) (s : State) : Out := .next (s.upd d (·.frameTick stamp))

/-! ### EXCHANGE_WINDOW (R88, R154, R157) -/

/-- What an engine output presents: its exit slot through the exit map (R96, R157). -/
def Die.engineSource (e : Die) (id : Nat) : Quarter :=
  match SMap.get (fun _ => 0) e.eng.exitMap (id - 0x4000) with
  | 0 => 0
  | n + 1 => if h : n / 512 < 24 then e.exitSlot ⟨n / 512, h⟩ (n % 512) else 0

/-- The value each source ID presents in this window, with the generators' values and the partner's channels given (R154,
R157). -/
def Die.source (e : Die) (gens party : SMap Quarter) (id : Nat) : Quarter :=
  if id < 0x100 then SMap.get quarterDflt gens id
  else if id < 0x180 then e.sapSource ⟨id / 16 % 8, Nat.mod_lt _ (by decide)⟩ (id % 16)
  else if id < 0x1000 then 0
  else if id < 0x4000 then e.chainSource (id - 0x1000)
  else if id < 0x5000 then e.engineSource id
  else if id < 0x5420 then e.voiceSource id
  else if id < 0x5500 then 0
  else if id < 0x5600 then e.bridgeSource (id - 0x5500)
  else if id < 0x5800 then 0
  else if id < 0x5900 then SMap.get quarterDflt party (id - 0x1500)
  else 0

/-- The dies run the same rate and rate family (R161). -/
def State.sameRate (s : State) : Bool :=
  s.dieA.fld F.ENG_RATE_RATE == s.dieB.fld F.ENG_RATE_RATE && s.dieA.fld F.ENG_RATE_FAM == s.dieB.fld F.ENG_RATE_FAM

/-- The partner's sinks 0x4300 to 0x43FF of its window of the frame before, unless a block of them was dropped (R157, R285). In
split mode the dies count frames of their own, and the partner's last window counts. -/
def State.partyFrame (s : State) (d : DieId) : Option (SMap Quarter) :=
  if !s.linked || (s.die d).pair.lossy.contains .mortar then none
  else if (s.die d).split then (s.die d.other).mor.pwOut.head?.map (·.2)
  else ((s.die d.other).mor.pwOut.find? fun w => (w.1 + 1) % 2 ^ 32 == (s.die d).seq).map (·.2)

/-- The party wall in a die's window: PWOFF where its channels are not carried, PARTY_WALL_MISS where no frame has come
(R161). -/
def Die.partyNote (e : Die) (off miss : Bool) : Die :=
  let e := e.setBit F.MOR_STAT_PWOFF off
  if !off && miss then (e.count F.MOR_PWMISS_COUNT 1).setFld F.MOR_IRQ_PWMISS 1 else e

/-- A row of the entry tile takes a sink's value in its Mortar copy (R94). -/
def Course.entryPut (x : Course) (flat : Nat) (q : Quarter) : Course :=
  let r := SMap.get rowDflt x.entryMor (flat / 8)
  { x with entryMor := SMap.set rowDflt x.entryMor (flat / 8) (r.set (flat % 8) q (Nat.mod_lt _ (by decide))) }

/-- The Mortar copies of the entry tiles take the sinks of this window; slots no map entry names read zero (R94, R96). A
course in shadow takes its source's (R109). -/
def Die.entryWrite (e : Die) : Die :=
  let e := (List.finRange 28).foldl (fun e (c : Fin 28) =>
    if (e.workSeat c).isSome then e.updCourse c fun x => { x with entryMor := [] } else e) e
  e.eng.entryMap.foldl (fun e m =>
    match m.2 with
    | 0 => e
    | n + 1 =>
      (List.finRange 28).foldl (fun e (c : Fin 28) =>
        if (e.workSeat c).map (·.val) = some (n / 512) then e.updCourse c (·.entryPut (n % 512) (e.sink m.1)) else e) e) e

/-- The sources present their values in the window, with the values of the generators (R154, R157). -/
def Die.windowSources (e : Die) (off miss : Bool) : SMap Quarter × Die :=
  let (gens, e) := ((e.lapse.winCourses.voxWindow).partyNote off miss).genFrame
  let e := e.present
  let e := (List.finRange 8).foldl (fun e (p : Fin 8) => e.sapWindowIn p) e
  (gens, e.bridgeFrame true (fun _ => true) true)

/-- The sinks take their values (R94, R155). -/
def Die.windowSinks (e : Die) (reading : BitVec 12) (limits : BitVec 8) : Die :=
  ((List.finRange 8).foldl (fun e (p : Fin 8) => e.sapWindowOut p) e).entryWrite.cvWindow reading limits

/-- EXCHANGE_WINDOW on a die whose ENG runs (R88). -/
def Die.exchange (e : Die) (off : Bool) (party : Option (SMap Quarter)) (reading : BitVec 12) (limits : BitVec 8) : Die :=
  if !e.runs .eng then e
  else if !e.runsKernels then ({ e with eng := { e.eng with window := true } } : Die).cvWindow reading limits
  else
    let w := e.windowSources off party.isNone
    (w.2.gather (w.2.source w.1 (if off then [] else party.getD []))).windowSinks reading limits

/-- EXCHANGE_WINDOW (R88): the die's window, and the checksums of a state copy once both dies' windows are open, whichever of
the two joins (R308). The grants of the cycle before have lapsed. -/
def State.exchange (s : State) (d : DieId) (reading : BitVec 12) (limits : BitVec 8) : State :=
  let party := s.partyFrame d
  let off := !s.sameRate
  ((s.upd d fun e => (e.exchange off party reading limits).lossTaken .mortar).copyWindow d).copyWindow d.other

/-- EXCHANGE_WINDOW (R88). -/
def execExchangeWindow (d : DieId) (reading : BitVec 12) (limits : BitVec 8) (s : State) : Out :=
  .next (s.goIn .eng d (·.exchange d reading limits))

/-! ### WINDOW_CLOSE (R160) -/

/-- WINDOW_CLOSE: the digest latches, fades and alarms are closed out, and a frame of every transition has passed. -/
def Die.windowClose (e : Die) : Die :=
  if !e.runs .eng then e
  else if e.runsKernels then e.mortarClose.plateClose.countFrames else e.countFrames

/-- WINDOW_CLOSE (R160). -/
def execWindowClose (d : DieId) (s : State) : Out := .next (s.upd d (·.windowClose))

/-! ### BRIDGE_SAMPLE (R174, R175) -/

/-- The input sample of a bridge channel: its sink of the last window, or the SIDE input slot its map entry names. -/
def Die.bridgeInput (e : Die) (s2m : Bool) (ch : Nat) : Quarter :=
  if s2m then
    let m := (SMap.get wordDflt e.mor.brMap (256 + ch)).toNat
    if natBit m 31 then (e.sapPort (if natBit m 4 then 7 else 6)).slots.getD (m % 16) 0 else 0
  else e.sink (0x4200 + ch)

/-- BRIDGE_SAMPLE: nothing moves in a direction that is OFF (R178). -/
def Die.bridgeSample (e : Die) (s2m : Bool) (ch : Nat) (phi : BitVec 24) : Die :=
  if e.fld (brState s2m) = St.off then e else e.bridgeStep s2m ch (e.bridgeInput s2m ch) phi

/-- BRIDGE_SAMPLE (R175). -/
def execBridgeSample (d : DieId) (s2m : Bool) (ch : BitVec 8) (phi : BitVec 24) (s : State) : Out :=
  .next (s.updIn .eng d (·.bridgeSample s2m ch.toNat phi))

end Sys2Proof.Machine
end

