-- ==== Sys2Proof/Machine/Bus.lean ====
section
/-! DEFINITION. The register bus: what a register reads, what a write of it does in its own domain, and how writes and reads
cross between CTL and the other domains (R10 to R14, R30, R390 to R399, R446). -/

namespace Sys2Proof.Machine

/-! ### Field types (R10 to R12) -/

/-- What a register holds after a write of `v`: RW fields take it, a 1 clears a W1C bit unless hardware sets the bit at the
same moment, and nothing else changes (R10, R11, R12). -/
def RegRow.merge (r : RegRow) (old v hw : Word) : Word :=
  let cleared := (old &&& ~~~v) ||| hw
  BitVec.ofNat 32 (r.fields.foldl (fun n f =>
    match f.ty with
    | .rw => insBits n f.lo f.w (bitsOf v.toNat f.lo f.w)
    | .w1c => insBits n f.lo f.w (bitsOf cleared.toNat f.lo f.w)
    | _ => n) old.toNat)

/-- What a read shows of a value: reserved bits and WO fields read zero (R10, R12). -/
def RegRow.view (r : RegRow) (v : Word) : Word :=
  BitVec.ofNat 32 (r.fields.foldl (fun n f =>
    match f.ty with
    | .wo => n
    | _ => insBits n f.lo f.w (bitsOf v.toNat f.lo f.w)) 0)

/-- What a register holds after a read: RC fields are zero but for the bits hardware sets at the same moment (R10, R11). -/
def RegRow.drain (r : RegRow) (old hw : Word) : Word :=
  BitVec.ofNat 32 (r.fields.foldl (fun n f =>
    match f.ty with
    | .rc => insBits n f.lo f.w (bitsOf hw.toNat f.lo f.w)
    | _ => n) old.toNat)

/-- The register has an RC field. -/
def RegRow.drains (r : RegRow) : Bool := r.fields.any (·.ty == .rc)

/-- A write acts by the field types alone; where no register stands it is ignored (R10, R13). -/
def Die.typed (e : Die) (a : Nat) (v hw : Word) : Die :=
  match regRow a with
  | some r => e.setReg a (r.merge (e.reg a) v hw)
  | none => e

/-- The instance of a register row at an address. -/
def idxOf (f : Nat → Nat) (n : Nat) (a : Nat) : Option (Fin n) := (List.finRange n).find? fun (i : Fin n) => f i.val == a

/-! ### Values computed at a read -/

/-- An entry or exit map entry as ENG_MAPDATA shows it (R96). -/
def mapWord (n : Nat) : Nat := if n = 0 then 31 * 2 ^ 16 else (n - 1) % 512 + (n - 1) / 512 * 2 ^ 16 + 2 ^ 31

/-- What ENG registers compute: the role and seat of a course, its doorbell, the maps (R91, R96, R114). -/
def Die.engRead (e : Die) (a : Nat) : Option Nat :=
  (idxOf R.ENG_C_MODE 28 a).map (fun (c : Fin 28) =>
    insBits (insBits (e.regN a) 1 2 (e.courseRole c)) 8 5 (((e.courseSeat c).map (·.val)).getD 31))
  <|> (idxOf R.ENG_C_BELL 28 a).map (fun (c : Fin 28) =>
    insBits (e.regN a) 1 1 (b2n (natBit (e.course c).ics.toNat 6 || (e.course c).inHandler 2)))
  <|> (if a = R.ENG_MAPDATA then
    some (mapWord (SMap.get (fun _ => 0) (if e.bit F.ENG_MAPIDX_MAP then e.eng.exitMap else e.eng.entryMap)
      (e.fld F.ENG_MAPIDX_IDX)))
  else none)

/-- The ring YRD_RIDX names. -/
def Die.ridx (e : Die) : RingDesc := e.yard.ring (e.fld F.YRD_RIDX_IDX)

/-- What YRD registers compute: tile errors, the tile map, the ring descriptors and bindings, the hods (R122, R127, R128,
R135, R142). -/
def Die.yrdRead (e : Die) (a : Nat) : Option Nat :=
  let r := e.ridx
  if a = R.YRD_CTERR then
    if h : e.fld F.YRD_CTSEL_COURSE < 28 then
      let x := e.course ⟨_, h⟩
      some (x.sbe.toNat + x.dbe.toNat * 2 ^ 16)
    else some 0
  else if a = R.YRD_TMAPDATA then
    let p := e.yard.phys (e.fld F.YRD_TMAPIDX_BANK) (e.fld F.YRD_TMAPIDX_TILE)
    let c := SMap.get (fun _ => 0) e.yard.cand (264 * e.fld F.YRD_TMAPIDX_BANK + p)
    some (p + (if c = 0 then 0 else 2 ^ 12 + (c - 1) * 2 ^ 13))
  else if a = R.YRD_RBASE then some (r.base + b2n r.valid * 2 ^ 31)
  else if a = R.YRD_RMAX then some (r.maxLen + b2n r.valid * 2 ^ 31)
  else if a = R.YRD_RLEN then some (r.frontLen + b2n r.frontSmooth * 2 ^ 20)
  else if a = R.YRD_RBACK then some (r.backLen + b2n r.backSmooth * 2 ^ 20)
  else if a = R.YRD_RSTAT then some (r.wp + r.fade * 2 ^ 20 + b2n r.clamp * 2 ^ 29 + b2n r.ringErr * 2 ^ 30)
  else if a = R.YRD_RBIND then
    let n := SMap.get (fun _ => 0) e.yard.binds (e.fld F.YRD_RIDX_IDX)
    some (if n = 0 then 0 else n - 1 + 2 ^ 31)
  else
    (idxOf R.YRD_REMAP 4 a).map (fun (b : Fin 4) => insBits (e.regN a) 12 4 (e.yard.spares b.val).length)
    <|> (idxOf R.YRD_HOD_STAT 16 a).map (fun (h : Fin 16) =>
      insBits (insBits (e.regN a) 0 4 (e.hod h).queue.length) 4 1 (b2n (e.hod h).running.isSome))

/-- What MOR registers compute: the front entry and fade of a sink, and the bridge map (R149, R164, R174). -/
def Die.morRead (e : Die) (a : Nat) : Option Nat :=
  let s := e.fld F.MOR_FRIDX_SINK
  if a = R.MOR_FRDATA then some (SMap.get wordDflt e.mor.front s).toNat
  else if a = R.MOR_FRFADE then
    match e.mor.fades.find? (·.1 == s) with
    | none => some 0
    | some (_, f) =>
      some (f.pos + 2 ^ 11 + b2n (entDiffers (SMap.get wordDflt e.mor.front s) f.new) * 2 ^ 12
        + entSrc f.old * 2 ^ 14 + b2n (entInv f.old) * 2 ^ 29 + b2n (entMute f.old) * 2 ^ 30)
  else if a = R.MOR_BRMAP then
    some (SMap.get wordDflt e.mor.brMap (e.fld F.MOR_BRIDX_CH + 256 * b2n (e.bit F.MOR_BRIDX_DIR))).toNat
  else none

/-- What LOG registers compute: a group of the bad-map (R440). -/
def Die.logRead (e : Die) (a : Nat) : Option Nat :=
  if a = R.LOG_BADMAP then
    some (ofBits ((List.range 32).map fun i => e.log.bad.contains (32 * e.fld F.LOG_BADIDX_IDX + i)))
  else none

/-- Fields that the state computes rather than stores. -/
def Die.computed (e : Die) (a : Nat) : Option Nat :=
  match a / 0x1000 with
  | 0x10000 => e.btlRead a
  | 0x10001 => e.refRead a
  | 0x10002 => e.timRead a
  | 0x10003 => e.chainRead a
  | 0x10004 => e.chainRead a
  | 0x10005 => e.chainRead a
  | 0x10006 => e.pairRead a
  | 0x10007 => e.sapRead a
  | 0x10008 => e.cvdRead a
  | 0x10009 => e.voxRead a
  | 0x1000a => e.morRead a
  | 0x1000b => e.engRead a
  | 0x1000c => e.yrdRead a
  | 0x1000d => e.xbrRead a
  | 0x1000e => e.logRead a
  | 0x10011 => e.miscRead a
  | _ => none

/-- A register as it stands in its own domain. -/
def Die.live (e : Die) (a : Nat) : Word :=
  match e.computed a with
  | some n => BitVec.ofNat 32 n
  | none => e.reg a

/-- The domain that holds a register; the SIDE group's port registers lie in SAPS, and a counter in the domain of its event (R26,
R347, R443). -/
def Die.domOf (e : Die) (a : Nat) : Dom :=
  match idxOf R.SAP_P_MASK 8 a <|> idxOf R.SAP_P_AMASK 8 a <|> idxOf R.SAP_P_SAT 8 a, idxOf R.PCT_CNT 8 a with
  | some p, _ => groupDom (e.group p)
  | none, some n => pctDom (e.fld (F.PCT_SEL_EVENT n.val))
  | none, none => regDom a

/-- What a read of CTL sees of a register: a field held in CTL as it is, any other through its shadow (R30). TIM_SEC and
TIM_SECHI answer what the last read of TIM_NS captured in CTL (R332). -/
def Die.seen (e : Die) (a : Nat) : Word :=
  match regRow a with
  | some r => r.view (if e.domOf a = .ctl ∨ a = R.TIM_SEC ∨ a = R.TIM_SECHI then e.live a else SMap.get regReset e.shadow a)
  | none => 0

/-! ### What a write does in the register's own domain

`hw` gives the W1C bits that hardware sets at the same moment (R11). For CVD_n_DATA, SAP_p_MASK and PCT_CNTn its bit 0 says
that the write meets a setting of the hold, the last two bit periods of a port frame, or an increment. -/

/-- Writes of ENG registers with an effect of their own. -/
def Die.engEffect (e : Die) (a : Nat) (v hw : Word) : Option Die :=
  (idxOf R.ENG_C_BELL 28 a).map (fun (c : Fin 28) =>
    let e := e.typed a v hw
    if natBit v.toNat 0 then e.pendCourse c 2 else e)
  <|> (idxOf R.ENG_SEATMAP 4 a).map (fun (w : Fin 4) => e.seatmapWrite w v)
  <|> (idxOf R.ENG_MIG 4 a).map (fun (w : Fin 4) =>
    let e := e.typed a v hw
    let e := if natBit v.toNat 8 then e.migGo w else e
    let e := if natBit v.toNat 9 then e.migAbort w else e
    let e := if natBit v.toNat 10 then e.migArm w else e
    if natBit v.toNat 13 then e.migRearm w else e)
  <|> (idxOf R.ENG_SWAP_MASK 4 a).map (fun (n : Fin 4) => if e.bit (F.ENG_SWAP_CTL_ARMED n.val) then e else e.typed a v hw)
  <|> (idxOf R.ENG_SWAP_FRAME 4 a).map (fun (n : Fin 4) => if e.bit (F.ENG_SWAP_CTL_ARMED n.val) then e else e.typed a v hw)
  <|> (idxOf R.ENG_SWAP_CTL 4 a).map (fun (n : Fin 4) => e.slotCtl n v)
  <|> (if a = R.ENG_WCTL then
    let lost := (List.finRange 4).filter fun (w : Fin 4) => e.bitAt F.ENG_WCTL_RET w.val && !natBit v.toNat (16 + w.val)
    some (lost.foldl (fun e (w : Fin 4) => e.retLoss w) (e.typed a v hw))
  else none)

/-- The back copy of the ring YRD_RIDX names (R130). -/
def Die.ringBack (e : Die) (v : Word) : Die :=
  e.updYard fun y => y.setRing (e.fld F.YRD_RIDX_IDX) { e.ridx with
    backLen := bitsOf v.toNat 0 20
    backSmooth := natBit v.toNat 20 }

/-- Writes of YRD registers with an effect of their own. -/
def Die.yrdEffect (e : Die) (a : Nat) (v hw : Word) : Option Die :=
  (idxOf R.YRD_REMAP 4 a).map (fun (b : Fin 4) =>
    let e := e.typed a v hw
    if natBit v.toNat 8 then e.remapGo b else e)
  <|> (if a = R.YRD_RBACK then some (e.ringBack v) else none)
  <|> (if a = R.YRD_RSTAT then
    let r := e.ridx
    some (e.updYard fun y => y.setRing (e.fld F.YRD_RIDX_IDX) { r with
      clamp := (r.clamp && !natBit v.toNat 29) || natBit hw.toNat 29
      ringErr := (r.ringErr && !natBit v.toNat 30) || natBit hw.toNat 30 })
  else none)
  <|> (idxOf R.YRD_HOD_D0 16 a).map (fun (_ : Fin 16) => e.setReg a v)
  <|> (idxOf R.YRD_HOD_D1 16 a).map (fun (_ : Fin 16) => e.setReg a v)
  <|> (idxOf R.YRD_HOD_D2 16 a).map (fun (_ : Fin 16) => e.setReg a v)
  <|> (idxOf R.YRD_HOD_D3 16 a).map (fun (h : Fin 16) => e.hodPush h v)

/-- Writes of MOR registers with an effect of their own. -/
def Die.morEffect (e : Die) (a : Nat) (v hw : Word) : Option Die :=
  if genRegs.contains a then some (e.genWrite a v)
  else if a = R.MOR_BRCTL then some (((e.typed a v hw).bridgeEnable false).bridgeEnable true)
  else if a = R.MOR_BRMAP then some (e.bridgeMap v)
  else none

/-- Writes of VOX registers with an effect of their own. -/
def Die.voxEffect (e : Die) (a : Nat) (v : Word) : Option Die :=
  if a = R.VOX_FWEV_LO then some (e.setReg a v)
  else if a = R.VOX_FWEV_HI then some (e.fwPush v)
  else if voiceCfgRegs.contains a then some (e.voiceCfgWrite a v)
  else none

/-- Writes of the registers of a chain port with an effect of their own. -/
def Die.portEffect (e : Die) (p : PortId) (a : Nat) (v hw : Word) : Option Die :=
  if a = R.CHNX_CTRL p.idx then
    let g := e.fld (F.CHNX_CTRL_GEN1 p.idx)
    let n := e.typed a v hw
    let n := if e.portState p = St.off then n else n.setFld (F.CHNX_CTRL_GEN1 p.idx) g
    some (if natBit v.toNat 5 then n.fillRestart p else n)
  else if a = R.CHNX_MAPDATA p.idx then some (e.mapWrite p v)
  else none

/-- Writes of CHN registers with an effect of their own. -/
def Die.chnEffect (e : Die) (a : Nat) (v hw : Word) : Option Die :=
  if a = R.CHN_CTRL then some (e.chnCtrl v)
  else if a = R.CHN_PCTL then
    let n := if e.bit F.CHN_PCTL_ARMED then e else e.typed a v hw
    some (if natBit v.toNat 26 then n.pArm else n)
  else if a = R.CHN_PFRAME then some (if e.bit F.CHN_PCTL_ARMED then e else e.typed a v hw)
  else none

/-- Writes of REF registers with an effect of their own. -/
def Die.refEffect (e : Die) (a : Nat) (v hw : Word) : Option Die :=
  if a = R.REF_CTRL then some (e.typed a v hw).refSelect
  else if a = R.REF_RANK then some (e.rankWrite v)
  else if a = R.REF_ALIGN then some (e.refAlign v)
  else none

/-- Writes of TIM registers with an effect of their own. -/
def Die.timEffect (e : Die) (a : Nat) (v hw : Word) : Option Die :=
  if a = R.TIM_CTRL then
    let e := e.typed a v hw
    some (if natBit v.toNat 3 then e.timeStepArm else e)
  else none

/-- Writes of SAP registers with an effect of their own. -/
def Die.sapEffect (e : Die) (a : Nat) (v hw : Word) : Option Die :=
  (idxOf R.SAP_P_CTRL 8 a).map (fun (p : Fin 8) => e.sapCtrl p v)
  <|> (idxOf R.SAP_P_MASK 8 a).map (fun (p : Fin 8) => e.sapMask p v (natBit hw.toNat 0))
  <|> (idxOf R.SAP_G_CTRL 2 a).map (fun (g : Fin 2) => e.groupCtrl g v)

/-- Writes of CVD registers with an effect of their own. -/
def Die.cvdEffect (e : Die) (a : Nat) (v hw : Word) : Option Die :=
  (idxOf R.CVD_N_CFG 16 a).map (fun (n : Fin 16) => e.cvCfg n v)
  <|> (idxOf R.CVD_N_DATA 16 a).map (fun (n : Fin 16) => e.cvData n v (natBit hw.toNat 0))

/-- Writes of XBR registers with an effect of their own, by master `m`. -/
def Die.xbrEffect (e : Die) (m : BitVec 3) (a : Nat) (v : Word) : Option Die :=
  (if a = R.XBR_CORECTL then some (e.coreRun v) else none)
  <|> (idxOf R.XBR_SEM 16 a).map (fun (s : Fin 16) => e.semWrite m s v)
  <|> (idxOf R.XBR_N_DBSET 4 a).map (fun (n : Fin 4) => e.doorbell n v)

/-- Writes of LOG registers with an effect of their own; `keyed` says that the key came right before the write (R436). -/
def Die.logEffect (e : Die) (a : Nat) (v : Word) (keyed : Bool) : Option Die :=
  if a = R.LOG_CLEAR then some (e.logClearWith keyed v)
  else if a = R.LOG_CTRL then some ((e.logFreeze (natBit v.toNat 0)).setBit F.LOG_CTRL_AUTO (natBit v.toNat 1))
  else if a = R.LOG_CURSOR then some (e.logCursor v none)
  else if a = R.LOG_FWCODE then some (e.logFwcode v)
  else none

/-- Writes of PCT registers with an effect of their own. -/
def Die.pctEffect (e : Die) (a : Nat) (v hw : Word) : Option Die :=
  (if a = R.PCT_CTRL then some (e.pctCtrl v) else none)
  <|> (idxOf R.PCT_SEL 8 a).map (fun (n : Fin 8) => e.pctSelect n v)
  <|> (idxOf R.PCT_CNT 8 a).map (fun (n : Fin 8) => e.pctCounterWrite n v (natBit hw.toNat 0))

/-- Writes of FRZ registers with an effect of their own, by master `m`: GO takes effect only with the key just before it
(R447). -/
def Die.frzEffect (e : Die) (m : BitVec 3) (a : Nat) (v hw : Word) (keyed : Bool) : Option Die :=
  if a = R.FRZ_CTRL then
    let e := e.typed a v hw
    some (if natBit v.toNat 0 && keyed then e.frzAsk (if m = 6 then 3 else 2) else e)
  else none

/-- Writes of MISC registers with an effect of their own. -/
def Die.miscEffect (e : Die) (a : Nat) (v hw : Word) : Option Die :=
  (if a = R.MISC_GPIO_DIR ∨ a = R.MISC_GPIO_OUT then some (e.gpioMove fun e => e.typed a v hw)
  else if a = R.MISC_GPIO_TCTL then some (if natBit v.toNat 0 then e.gpioArm else e)
  else if a = R.MISC_MIDI_CTRL then some (e.typed a v hw).midiStart
  else if a = R.MISC_MIDI_TX then some (e.midiPush (BitVec.ofNat 8 v.toNat))
  else none)
  <|> (idxOf R.MISC_I2C_CTRL 2 a).map (fun (n : Fin 2) =>
    let e := (e.typed a v hw).i2cStart n
    if natBit v.toNat 5 then e.i2cRecover n else e)
  <|> (idxOf R.MISC_I2C_XFER 2 a).map (fun (n : Fin 2) => e.i2cGo n v)

/-- Writes of BTL registers but BTL_CTRL with an effect of their own. -/
def Die.btlEffect (e : Die) (a : Nat) (v : Word) : Option Die :=
  if a = R.BTL_FCMD then some (e.flashCommand v) else none

/-- A write takes effect in a die: by the register's own rule, or by its field types. -/
def Die.effect (e : Die) (m : BitVec 3) (a : Nat) (v hw : Word) (keyed : Bool) : Die :=
  let own : Option Die := match a / 0x1000 with
    | 0x10000 => e.btlEffect a v
    | 0x10001 => e.refEffect a v hw
    | 0x10002 => e.timEffect a v hw
    | 0x10003 => e.portEffect .n a v hw
    | 0x10004 => e.portEffect .s a v hw
    | 0x10005 => e.chnEffect a v hw
    | 0x10007 => e.sapEffect a v hw
    | 0x10008 => e.cvdEffect a v hw
    | 0x10009 => e.voxEffect a v
    | 0x1000a => e.morEffect a v hw
    | 0x1000b => e.engEffect a v hw
    | 0x1000c => e.yrdEffect a v hw
    | 0x1000d => e.xbrEffect m a v
    | 0x1000e => e.logEffect a v keyed
    | 0x1000f => e.pctEffect a v hw
    | 0x10010 => e.frzEffect m a v hw keyed
    | 0x10011 => e.miscEffect a v hw
    | _ => none
  own.getD (e.typed a v hw)

/-- A write of PAIR_CTRL: JOIN, HANDOVER, STANDDOWN and SOLO (R282, R299, R304, R309). -/
def State.pairCtrl (s : State) (d : DieId) (v : Nat) : State :=
  let s := if natBit v 0 then s.upd d (·.join) else s
  let s := if natBit v 1 then s.upd d (·.handoverRequest) else s
  let s := if natBit v 2 then s.down d else s
  if natBit v 3 then s.upd d (·.askSolo) else s

/-- A write takes effect, with what it does at the other die. `keyed` says that the register's key sequence came right before
the write (R10). -/
def State.effect (s : State) (d : DieId) (m : BitVec 3) (a : Nat) (v hw : Word) (keyed : Bool) : State :=
  if a = R.PAIR_CTRL then s.pairCtrl d v.toNat
  else if a = R.PAIR_FENCE then
    let s := s.upd d (·.typed a v hw)
    if natBit v.toNat 4 then s.unfence d else s
  else if a = R.BTL_CTRL then if natBit v.toNat 0 && keyed then s.rebootDie d else s
  else s.upd d (·.effect m a v hw keyed)

/-! ### Writes from the crossbar (R14, R30, R399, R446) -/

/-- User mode may make this PCT access (R446). -/
def Die.pctUser (e : Die) (write : Bool) (a : Nat) : Bool :=
  !write && (((List.range 8).any fun n => (a == R.PCT_CNT n || a == R.PCT_SNAP n) && natBit (e.seen R.PCT_UEN).toNat n)
    || ((a == R.PCT_CYCLO || a == R.PCT_CYCHI) && natBit (e.seen R.PCT_UEN).toNat 8))

/-- The bytes of an access. -/
def accBytes : AccSize → Nat
  | .byte => 1
  | .half => 2
  | .word => 4
  | .beat64 => 8

/-- The CAUSE of R399 with which a single-beat access is refused before it reaches its target (R14, R149, R391, R393). The
LOG block refuses cores in user mode and every master but the cores and PWB (R438), and PCT a core's user mode where R446
says so. -/
def Die.refusal (e : Die) (m : BitVec 3) (user write : Bool) (a : Nat) (size : AccSize) : Option Nat :=
  let bytes := accBytes size
  match targetOf m.toNat a with
  | .dflt => some 0
  | .bank _ => if a % bytes ≠ 0 ∨ 4 ≤ m.toNat ∨ bytes = 8 then some 1 else none
  | .shared => if a % bytes ≠ 0 ∨ 4 ≤ m.toNat ∨ bytes = 8 then some 1 else none
  | .peri =>
    if bytes ≠ 4 ∨ a % 4 ≠ 0 then some 1
    else if a / 0x1000 = 0x1000e ∧ (m.toNat = 4 ∨ m.toNat = 5 ∨ user ∧ m.toNat < 4) then some 2
    else if a / 0x1000 = 0x1000f ∧ user ∧ m.toNat < 4 ∧ !e.pctUser write a then some 2
    else none
  | _ => if bytes ≠ 4 ∨ a % 4 ≠ 0 then some 1 else none

/-- The key sequence of a register stands (R10): a write of it now would take effect. -/
def Die.keyed (e : Die) (a : Nat) : Bool :=
  if a = R.LOG_CLEAR then e.log.key == 2
  else if a = R.FRZ_CTRL then e.frz.key
  else if a = R.BTL_CTRL then e.boot.key
  else false

/-- An access moves the key sequence of its block: the next word of it is taken, and any other access, a read among them,
breaks it (R10, R436, R447); in the BTL block writes alone count (R421). DEDUCED: the order that counts is that in which the
block accepts the accesses (log 22). DESIGN CHOICE: an access that ends in an error response is none (log 207). -/
def Die.keyStep (e : Die) (a : Nat) (w : Option Word) : Die :=
  match a / 0x1000 with
  | 0x10000 => match w with
    | some w => e.btlKey (if a = R.BTL_KEY then w else 0)
    | none => e
  | 0x1000e => if a = R.LOG_KEY then e.logKey (w.getD 0) else e.logTouch
  | 0x10010 => e.frzKey (if a = R.FRZ_KEY then w.getD 0 else 0)
  | _ => e

/-- A write enters its buffer and is answered, or stalls its master while the buffer holds another (R30). -/
def Die.post (e : Die) (p : Posted) : Die :=
  if e.buffered p.blk p.dom then e.holdWrite p else (e.holdWrite p).answer p.m 0

/-- A write of the master stalls, and the master makes no further access until it goes on (R30, R395). -/
def Die.stalls (e : Die) (m : BitVec 3) : Bool := e.stalled.any (·.m == m)

/-- A posted write leaves its buffer; the oldest write that stalled for it enters (R30). -/
def Die.unpost (e : Die) (p : Posted) : Die :=
  let e : Die := { e with posted := e.posted.erase p }
  match e.stalled.find? fun q => q.blk == p.blk && q.dom == p.dom with
  | none => e
  | some q => ({ e with stalled := e.stalled.erase q } : Die).post q

/-- A register write: at once where CTL holds the register, otherwise posted (R30). -/
def State.regWrite (s : State) (d : DieId) (m : BitVec 3) (a : Nat) (v hw : Word) : State :=
  let e := s.die d
  let k := e.keyed a
  let s := s.upd d (·.keyStep a (some v))
  match e.domOf a with
  | .ctl => (s.upd d (·.answer m 0)).effect d m a v hw k
  | dom => s.upd d (·.post ⟨a / 0x1000 % 0x20, dom, m, a, v, k⟩)

/-- A master's access that a burst holds off, that a yard bank does not grant, or whose target lies in an ENG that stands still
loses the cycle and requests again (R26, R118, R395). -/
def Die.accWaits (e : Die) (m : BitVec 3) (a : Word) : Bool :=
  let t := targetOf m.toNat a.toNat
  e.xbar.held m.toNat t || (t == .yardw && e.yardwWaits a)
    || ((t == .yardw || t == .engw || t == .morw) && !e.runs .eng)

/-- A YARDW write that takes its first grant now, and requests again for the second (R124). -/
def Die.accReads (e : Die) (m : BitVec 3) (a : Word) (write : Bool) : Bool :=
  write && targetOf m.toNat a.toNat == .yardw && e.wallOn (bankOf (yardwRow a)).val && e.yardwReads m a

/-- The access completes in no cycle of this request. -/
def Die.heldOff (e : Die) (m : BitVec 3) (a : Word) (write : Bool) : Bool := e.accWaits m a || e.accReads m a write

/-- A request that is held off: a YARDW write that has its first grant reads its pair, and in every case the master requests again
(R124, R395). -/
def Die.asksAgain (e : Die) (m : BitVec 3) (a : Word) (write : Bool) : Die :=
  (if !e.accWaits m a && e.accReads m a write then e.yardwFetch m a [] else e).loses m a write

/-- A write that its target takes: the answer, or an error response where the read of a narrow write's word fails (R392). -/
def Die.memWriteBus (e : Die) (m : BitVec 3) (addr : Word) (v : Word) (n : Nat) : Die :=
  match e.memStore m.toNat addr.toNat v.toNat n with
  | (true, e) => e.answer m 0
  | (false, e) => e.busError m true 3 addr

/-- A single-beat write by a master, refused or carried to its target. While CTL does not run nothing happens, nor while an
earlier write of the master stalls (R30). -/
def State.busWrite (s : State) (d : DieId) (m : BitVec 3) (user : Bool) (addr : Word) (size : AccSize) (v hw : Word) : State :=
  let a := addr.toNat
  let e := s.die d
  if !e.runs .ctl || e.stalls m then s
  else match e.refusal m user true a size with
    | some cause => s.upd d (·.busError m true cause addr)
    | none =>
      if e.heldOff m addr true then s.upd d (·.asksAgain m addr true)
      else match targetOf m.toNat a with
      | .peri => s.regWrite d m a v hw
      | .engw => s.upd d (·.engwWrite m addr v [])
      | .yardw => s.upd d (·.yardwWrite m addr v [])
      | .morw => s.upd d fun e => (e.morwWrite ((a - 0x40000000) / 4) v).answer m 0
      | .dflt => s
      | _ => s.upd d (·.memWriteBus m addr v (accBytes size))

/-- REGISTER_WRITE (R10). -/
def execRegisterWrite (d : DieId) (m : BitVec 3) (user : Bool) (addr : Word) (size : AccSize) (v hw : Word) (s : State) : Out :=
  .next (s.busWrite d m user addr size v hw)

/-- POSTED_WRITE_EFFECT: the posted write of a block and domain takes effect, once the domain runs, and frees its buffer
(R30). -/
def State.postedEffect (s : State) (d : DieId) (blk : Nat) (dom : Dom) (hw : Word) : State :=
  let e := s.die d
  match e.posted.find? fun p => p.blk == blk && p.dom == dom with
  | none => s
  | some p =>
    if !e.runs dom then s
    else
      (s.upd d (·.unpost p)).effect d p.m p.addr p.v hw p.keyed

/-- POSTED_WRITE_EFFECT (R30). -/
def execPostedWriteEffect (d : DieId) (blk : BitVec 5) (dom : Dom) (hw : Word) (s : State) : Out :=
  .next (s.postedEffect d blk.toNat dom hw)

/-- The registers whose shadows take a transfer together with a register: LOG_WIN0 to LOG_WIN7 and LOG_WINSTAT reach CTL as one
(R439). -/
def shadowGroup (a : Nat) : List Nat :=
  let win := R.LOG_WINSTAT :: (List.range 8).map R.LOG_WIN
  if win.contains a then win else [a]

/-- SHADOW_UPDATE: the CTL shadow takes the value of the register's own domain; a stopped domain's shadow keeps its last
one, and a register held in CTL has none (R30). -/
def Die.shadowUpdate (e : Die) (a : Nat) : Die :=
  let dom := e.domOf a
  if dom = .ctl ∨ !e.runs dom ∨ !e.runs .ctl then e
  else { e with shadow := (shadowGroup a).foldl (fun t a => SMap.set regReset t a (e.live a)) e.shadow }

/-- SHADOW_UPDATE (R30). -/
def execShadowUpdate (d : DieId) (addr : Word) (s : State) : Out := .next (s.upd d (·.shadowUpdate addr.toNat))

/-! ### Reads from the crossbar -/

/-- A read empties the RC fields of a register, in its own domain and in its shadow. While the domain stands still its shadow
keeps the last value delivered (R26, R30), and the field is empty when the domain runs again. -/
def Die.drainReg (e : Die) (a : Nat) (hw : Word) : Die :=
  match regRow a with
  | none => e
  | some r =>
    let both (n : Die) : Die :=
      if r.dom = .ctl ∨ !e.runs (e.domOf a) then n
      else { n with shadow := SMap.set regReset n.shadow a (r.drain (SMap.get regReset n.shadow a) hw) }
    if !r.drains then e
    else if a = R.YRD_CTERR then
      both (if h : e.fld F.YRD_CTSEL_COURSE < 28 then
        e.updCourse ⟨_, h⟩ fun x => { x with
          sbe := BitVec.ofNat 16 hw.toNat
          dbe := BitVec.ofNat 8 (hw.toNat / 2 ^ 16) } else e)
    else both (e.setReg a (r.drain (e.reg a) hw))

/-- A register read: the registers whose reads do more, and for every other the value CTL sees, with its RC fields cleared
(R10, R30). The operands those registers' own commands carry beside the address are free here. -/
def Die.regRead (e : Die) (m : BitVec 3) (a : Nat) (hw : Word) : Die :=
  let e := e.keyStep a none
  if a = R.VOX_MFIFO then e.mfifoRead m
  else if a = R.TIM_SQTXID then e.drawn.stampRead m false (BitVec.ofNat 32 (Config.ctlCycles e.free))
  else if a = R.TIM_SQRXID then e.drawn.stampRead m true (BitVec.ofNat 32 (Config.ctlCycles e.free))
  else if a = R.TIM_NS then e.timeNsRead m
  else if a = R.PCT_CYCLO then e.drawn.pctSnapshot m (BitVec.ofNat 15 (Config.readCycle e.free % e.cyc))
  else if a = R.LOG_WIN 7 then (e.answer m (e.seen a)).logWin7 none
  else match idxOf R.XBR_SEM 16 a with
    | some s => e.semRead m s
    | none =>
      let n := (e.answer m (e.seen a)).drainReg a hw
      if (e.i2cMoves a).isSome then n.drawn else n

/-- What a single-beat read of a bank or SHARED answers. -/
def Die.memAnswer (e : Die) (m : BitVec 3) (addr : Word) (n : Nat) (err : Option EccKind) : Die :=
  match e.memRead m.toNat addr.toNat n err with
  | (some v, e) => e.answer m (BitVec.ofNat 32 v)
  | (none, e) => e.busError m false 3 addr

/-- A MORW read: the back entry. During a mirror reload the read waits for its end, and for the writes that came before it
(R149, R151). -/
def Die.morwRead (e : Die) (sink : Nat) : Word :=
  if !sinkValid sink then 0
  else if e.bit F.MOR_STAT_MIRBUSY then
    match e.mor.waiting.reverse.find? (·.1 == sink) with
    | some w => w.2 &&& 0x1FFFFF
    | none => SMap.get wordDflt e.mor.front sink
  else SMap.get wordDflt e.mor.back sink

/-- A single-beat read by a master, refused or answered by its target. -/
def Die.busRead (e : Die) (m : BitVec 3) (user : Bool) (addr : Word) (size : AccSize) (hw : Word) (err : Option EccKind) : Die :=
  let a := addr.toNat
  if !e.runs .ctl || e.stalls m then e
  else match e.refusal m user false a size with
    | some cause => e.busError m false cause addr
    | none =>
      if e.heldOff m addr false then e.loses m addr false
      else match targetOf m.toNat a with
      | .peri => e.regRead m a hw
      | .engw => e.engwRead m addr
      | .yardw => e.yardwRead m addr []
      | .morw => e.answer m (e.morwRead ((a - 0x40000000) / 4))
      | .dflt => e
      | _ => e.memAnswer m addr (accBytes size) err

/-- RC_READ (R10). -/
def execRcRead (d : DieId) (m : BitVec 3) (user : Bool) (addr : Word) (size : AccSize) (hw : Word) (s : State) : Out :=
  .next (s.upd d (·.busRead m user addr size hw none))

end Sys2Proof.Machine
end

