-- ==== Sys2Proof/Machine/Cpu.lean ====
section
/-! DEFINITION. The control cores: RV32I with M, C, Zicsr and Zifencei in machine and user modes, their CSRs and PMP,
exceptions and interrupt entry (R380 to R389). What R380 names by the RISC-V base is as the RISC-V manuals give it. -/

namespace Sys2Proof.Machine

/-! ### Registers and modes -/

/-- A general register; x0 reads zero. -/
def Cpu.reg (c : Cpu) (r : XReg) : Word := if r = 0 then 0 else c.x[r.toNat]

/-- Write a general register; a write of x0 is discarded. -/
def Cpu.setReg (c : Cpu) (r : XReg) (v : Word) : Cpu :=
  if r = 0 then c else { c with x := c.x.set r.toNat v }

/-- Core `n` of a die. -/
def Die.core (e : Die) (n : Fin 4) : Cpu := e.cpus[n]

/-- Change core `n`. -/
def Die.updCpu (e : Die) (n : Fin 4) (f : Cpu → Cpu) : Die := { e with cpus := vupd e.cpus n f }

/-- mstatus as it reads. -/
def Cpu.mstatus (c : Cpu) : Word :=
  BitVec.ofNat 32 (8 * b2n c.mie + 128 * b2n c.mpie + (if c.mppUser then 0 else 0x1800) + 0x20000 * b2n c.mprv
    + 0x200000 * b2n c.tw)

/-- The mode with which loads and stores are made: MPP's while MPRV is set. -/
def Cpu.dataUser (c : Cpu) : Bool := if c.mprv then c.mppUser else c.user

/-! ### Exceptions -/

/-- What an exception does to a core: the pc is saved, the cause and its value are given, the core enters machine mode with
interrupts off, and goes to BASE of mtvec. -/
def Cpu.trap (c : Cpu) (cause : Nat) (tval : Word) : Cpu :=
  { c with
    mepc := c.pc
    mcause := BitVec.ofNat 32 cause
    mtval := tval
    mpie := c.mie
    mie := false
    mppUser := c.user
    user := false
    waiting := false
    late := 0
    pc := c.mtvec &&& 0xFFFFFF00 }

/-- Core `n` takes an exception; the cycles it takes are free. -/
def Die.trap (e : Die) (n : Fin 4) (cause : Nat) (tval : Word) : Die :=
  (e.updCpu n fun c =>
    { c.trap cause tval with mcycle := c.mcycle + BitVec.ofNat 64 (Config.waitCycles e.free) }).drawn

/-! ### PMP (R384) -/

/-- The mode of a PMP entry: 0 OFF, 1 TOR, 3 NAPOT. -/
def Cpu.pmpMode (c : Cpu) (i : Fin 8) : Nat := bitsOf c.pmpcfg[i].toNat 3 2

/-- pmpaddr as it reads, with a granularity of 32 bytes. -/
def Cpu.pmpRead (c : Cpu) (i : Fin 8) : Word :=
  if c.pmpMode i = 3 then c.pmpaddr[i] ||| 3 else c.pmpaddr[i] &&& 0xFFFFFFF8

/-- The lower bound of a TOR entry: the address of the entry below it, in units of 32 bytes. -/
def Cpu.torLow (c : Cpu) (i : Fin 8) : Nat :=
  if i.val = 0 then 0 else ((c.pmpaddr[i.val - 1]?).getD 0).toNat / 8

/-- An entry matches an address. -/
def Cpu.pmpMatch (c : Cpu) (i : Fin 8) (a : Nat) : Bool :=
  match c.pmpMode i with
  | 1 => c.torLow i ≤ a / 32 && a / 32 < c.pmpaddr[i].toNat / 8
  | 3 =>
    let p := (c.pmpaddr[i] ||| 3).toNat
    let k := (p ^^^ (p + 1)) + 1
    a / (4 * k) == p / k
  | _ => false

/-- PMP lets the access pass, with bit `perm` of the entry: 0 read, 1 write, 2 execute. The lowest matching entry decides; an
entry that is not locked does not hold machine mode. -/
def Cpu.pmpPass (c : Cpu) (user : Bool) (perm a : Nat) : Bool :=
  match (List.finRange 8).find? fun (i : Fin 8) => c.pmpMatch i a with
  | some i => (!user && !natBit c.pmpcfg[i].toNat 7) || natBit c.pmpcfg[i].toNat perm
  | none => !user

/-- What a byte of pmpcfg holds after a write: a locked one keeps its value, NA4 becomes OFF, and W without R is dropped. -/
def pmpLegal (old v : BitVec 8) : BitVec 8 :=
  if natBit old.toNat 7 then old
  else
    let v := if bitsOf v.toNat 3 2 = 2 then v &&& 0x87 else v &&& 0x9F
    if natBit v.toNat 0 then v else v &&& 0xFD

/-- A pmpaddr register is locked by its own entry, or by a locked TOR entry above it. -/
def Cpu.pmpLocked (c : Cpu) (i : Fin 8) : Bool :=
  natBit c.pmpcfg[i].toNat 7 ||
    (match c.pmpcfg[i.val + 1]? with
      | some g => natBit g.toNat 7 && bitsOf g.toNat 3 2 == 1
      | none => false)

/-! ### Issue -/

/-- A halfword at `a` that core `n` may not fetch: outside its own bank, or refused by PMP (R383, R384). -/
def Die.fetchDenied (e : Die) (n : Fin 4) (a : Word) : Bool :=
  let c := e.core n
  a.toNat / 0x100000 != n.val || !c.pmpPass c.user 2 a.toNat

/-- Core `n` fetches the halfword at `a`, whose check bits are read with it (R392): whether it came. -/
def Die.fetchHalf (e : Die) (n : Fin 4) (a : Word) : Bool × Die :=
  if e.fetchDenied n a then (false, e)
  else
    match e.memRead n.val (a.toNat / 8 * 8) 8 none with
    | (some _, e) => (true, e)
    | (none, e) => (false, e.busError (BitVec.ofNat 3 n.val) false 3 a)

/-- Core `n` goes to issue an instruction of 2 or 4 bytes. Nothing issues while CTL stands still, while the core is held in
reset (R383), while a write of the core stalls (R30), and while it waits and no enabled line is pending (R389). A fetch that does not succeed raises an
instruction-access-fault exception (R383) in place of the instruction. Answers whether the instruction goes on. -/
def Die.issue (e : Die) (n : Fin 4) (bytes : Nat) : Bool × Die :=
  if !e.runs .ctl || !e.bitAt F.XBR_CORECTL_RUN n.val || e.stalls (BitVec.ofNat 3 n.val) then (false, e)
  else
    let c := e.core n
    if c.waiting && (e.claim n).isNone then (false, e)
    else
      let e := if c.waiting then
        (e.updCpu n fun c => { c with
          waiting := false
          mcycle := c.mcycle + BitVec.ofNat 64 (Config.waitCycles e.free) }).drawn
      else e
      match e.fetchHalf n c.pc with
      | (false, e) => (false, e.trap n 1 c.pc)
      | (true, e) =>
        if bytes = 2 then (true, e)
        else match e.fetchHalf n (c.pc + 2) with
          | (false, e) => (false, e.trap n 1 (c.pc + 2))
          | (true, e) => (true, e)

/-- The instruction retires after `cycles` cycles, and one more where it uses a result of the instruction before it that comes
late (R382); the next one issues at `next`. -/
def Cpu.retire (c : Cpu) (cycles : Nat) (srcs : List XReg) (late : XReg) (next : Word) : Cpu :=
  let stall := b2n (c.late != 0 && srcs.contains c.late)
  { c with
    mcycle := c.mcycle + BitVec.ofNat 64 (cycles + stall)
    minstret := c.minstret + 1
    late := late
    pc := next }

/-- A jump has set the pc: where the target may not be fetched, the exception is taken (R383). -/
def Die.land (e : Die) (n : Fin 4) : Die :=
  let c := e.core n
  if e.fetchDenied n c.pc then e.trap n 1 c.pc else e

/-- Bytes of an instruction. -/
def insnBytes (comp : Bool) : Nat := if comp then 2 else 4

/-- The pc past an instruction. -/
def Cpu.past (c : Cpu) (comp : Bool) : Word := c.pc + BitVec.ofNat 32 (insnBytes comp)

/-! ### Arithmetic -/

/-- A two-operand integer function; shifts take the low five bits of the second operand. -/
def AluFn.eval (f : AluFn) (a b : Word) : Word :=
  match f with
  | .add => a + b
  | .sub => a - b
  | .sll => a <<< (b.toNat % 32)
  | .slt => if a.toInt < b.toInt then 1 else 0
  | .sltu => if a.toNat < b.toNat then 1 else 0
  | .xor => a ^^^ b
  | .srl => a >>> (b.toNat % 32)
  | .sra => a.sshiftRight (b.toNat % 32)
  | .or => a ||| b
  | .and => a &&& b

/-- A branch condition. -/
def BrCond.holds (k : BrCond) (a b : Word) : Bool :=
  match k with
  | .eq => a == b
  | .ne => a != b
  | .lt => decide (a.toInt < b.toInt)
  | .ge => decide (b.toInt ≤ a.toInt)
  | .ltu => decide (a.toNat < b.toNat)
  | .geu => decide (b.toNat ≤ a.toNat)

/-- The product: its low word, or the high word of one of three signednesses. -/
def MulFn.eval (f : MulFn) (a b : Word) : Word :=
  match f with
  | .mul => BitVec.ofInt 32 (a.toInt * b.toInt)
  | .mulh => BitVec.ofInt 32 (a.toInt * b.toInt / 2 ^ 32)
  | .mulhsu => BitVec.ofInt 32 (a.toInt * (b.toNat : Int) / 2 ^ 32)
  | .mulhu => BitVec.ofNat 32 (a.toNat * b.toNat / 2 ^ 32)

/-- Quotient and remainder, rounded toward zero; a division by zero gives all ones and the dividend, and the one overflow
gives the dividend and zero. -/
def DivFn.eval (f : DivFn) (a b : Word) : Word :=
  match f with
  | .div => if b = 0 then BitVec.allOnes 32 else BitVec.ofInt 32 (a.toInt.tdiv b.toInt)
  | .divu => if b = 0 then BitVec.allOnes 32 else BitVec.ofNat 32 (a.toNat / b.toNat)
  | .rem => if b = 0 then a else BitVec.ofInt 32 (a.toInt.tmod b.toInt)
  | .remu => if b = 0 then a else BitVec.ofNat 32 (a.toNat % b.toNat)

/-! ### CSRs (R380, R381, R384, R387) -/

/-- The PMP entry of a pmpaddr address. -/
def pmpIndex (csr : Nat) : Option (Fin 8) :=
  if h : 0x3B0 ≤ csr ∧ csr - 0x3B0 < 8 then some ⟨csr - 0x3B0, h.2⟩ else none

/-- Four bytes of pmpcfg from entry `i` on. -/
def Cpu.pmpWord (c : Cpu) (i : Nat) : Word :=
  BitVec.ofNat 32 ((List.range 4).foldl (fun n k => n + ((c.pmpcfg[i + k]?).getD 0).toNat * 256 ^ k) 0)

/-- A CSR's value; none where it does not exist, or is not readable in the core's mode. -/
def Die.csrRead (e : Die) (n : Fin 4) (csr : Nat) : Option Word :=
  let c := e.core n
  let counter (bit : Nat) (v : Word) : Option Word :=
    if c.user && !natBit c.mcounteren.toNat bit then none else some v
  if c.user && 3 ≤ csr / 256 % 4 then none
  else match csr with
    | 0xF11 => some 0
    | 0xF12 => some 0
    | 0xF13 => some 0
    | 0xF14 => some (BitVec.ofNat 32 n.val)
    | 0x300 => some c.mstatus
    | 0x301 => some 0x40101104
    | 0x304 => some (if c.meie then 0x800 else 0)
    | 0x305 => some c.mtvec
    | 0x306 => some c.mcounteren
    | 0x340 => some c.mscratch
    | 0x341 => some c.mepc
    | 0x342 => some c.mcause
    | 0x343 => some c.mtval
    | 0x344 => some (if (e.claim n).isSome then 0x800 else 0)
    | 0x3A0 => some (c.pmpWord 0)
    | 0x3A1 => some (c.pmpWord 4)
    | 0xB00 => some (c.mcycle.truncate 32)
    | 0xB80 => some ((c.mcycle >>> 32).truncate 32)
    | 0xB02 => some (c.minstret.truncate 32)
    | 0xB82 => some ((c.minstret >>> 32).truncate 32)
    | 0xC00 => counter 0 (c.mcycle.truncate 32)
    | 0xC80 => counter 0 ((c.mcycle >>> 32).truncate 32)
    | 0xC02 => counter 2 (c.minstret.truncate 32)
    | 0xC82 => counter 2 ((c.minstret >>> 32).truncate 32)
    | _ =>
      match pmpIndex csr with
      | some i => some (c.pmpRead i)
      | none =>
        if (0x323 ≤ csr ∧ csr ≤ 0x33F) ∨ (0xB03 ≤ csr ∧ csr ≤ 0xB1F) ∨ (0xB83 ≤ csr ∧ csr ≤ 0xB9F) then some 0 else none

/-- Write four bytes of pmpcfg. -/
def Cpu.pmpSetWord (c : Cpu) (i : Fin 8) (v : Word) : Cpu :=
  { c with pmpcfg := (List.finRange 8).foldl (fun g (k : Fin 8) =>
      if i.val ≤ k.val ∧ k.val < i.val + 4 then
        vupd g k fun old => pmpLegal old (BitVec.ofNat 8 (bitsOf v.toNat (8 * (k.val - i.val)) 8))
      else g) c.pmpcfg }

/-- Replace one word of a 64-bit counter. -/
def setHalf (old : BitVec 64) (high : Bool) (v : Word) : BitVec 64 :=
  if high then v ++ old.truncate 32 else (old >>> 32).truncate 32 ++ v

/-- A CSR takes a value; those that ignore writes, and bits not implemented, keep theirs. -/
def Cpu.csrWrite (c : Cpu) (csr : Nat) (v : Word) : Cpu :=
  match csr with
  | 0x300 =>
    let mpp := bitsOf v.toNat 11 2
    { c with
      mie := natBit v.toNat 3
      mpie := natBit v.toNat 7
      mppUser := if mpp = 0 then true else if mpp = 3 then false else c.mppUser
      mprv := natBit v.toNat 17
      tw := natBit v.toNat 21 }
  | 0x304 => { c with meie := natBit v.toNat 11 }
  | 0x305 => { c with mtvec := v &&& 0xFFFFFF01 }
  | 0x306 => { c with mcounteren := v &&& 5 }
  | 0x340 => { c with mscratch := v }
  | 0x341 => { c with mepc := v &&& 0xFFFFFFFE }
  | 0x342 => { c with mcause := v }
  | 0x343 => { c with mtval := v }
  | 0x3A0 => c.pmpSetWord 0 v
  | 0x3A1 => c.pmpSetWord 4 v
  | 0xB00 => { c with mcycle := setHalf c.mcycle false v }
  | 0xB80 => { c with mcycle := setHalf c.mcycle true v }
  | 0xB02 => { c with minstret := setHalf c.minstret false v }
  | 0xB82 => { c with minstret := setHalf c.minstret true v }
  | _ =>
    match pmpIndex csr with
    | some i => if c.pmpLocked i then c else { c with pmpaddr := c.pmpaddr.set i.val v }
    | none => c

/-- The word of a CSR instruction. -/
def csrInsn (f : CsrFn) (imm : Bool) (rd src : BitVec 5) (csr : BitVec 12) : Word :=
  let f3 := (match f with
    | .rw => 1
    | .rs => 2
    | .rc => 3) + 4 * b2n imm
  BitVec.ofNat 32 (csr.toNat * 2 ^ 20 + src.toNat * 2 ^ 15 + f3 * 2 ^ 12 + rd.toNat * 2 ^ 7 + 0x73)

/-- A CSR access: the old value goes to `rd` and the new one to the CSR. Setting or clearing with x0 or 0 writes nothing. A
CSR that does not exist, is out of reach of the mode, or is read-only and written raises an illegal-instruction exception. -/
def Die.csrAccess (e : Die) (n : Fin 4) (f : CsrFn) (imm : Bool) (rd src : BitVec 5) (csr : BitVec 12) (comp : Bool) : Die :=
  let c := e.core n
  let writes := f = .rw || src != 0
  match e.csrRead n csr.toNat with
  | none => e.trap n 2 (csrInsn f imm rd src csr)
  | some old =>
    if writes && csr.toNat / 1024 == 3 then e.trap n 2 (csrInsn f imm rd src csr)
    else
      let arg : Word := if imm then src.setWidth 32 else c.reg src
      let new := match f with
        | .rw => arg
        | .rs => old ||| arg
        | .rc => old &&& ~~~arg
      e.updCpu n fun c =>
        let c := c.retire 1 (if imm then [] else [src]) 0 (c.past comp)
        (if writes then c.csrWrite csr.toNat new else c).setReg rd old

/-! ### The instructions -/

/-- A register result, the next instruction following at once. -/
def Die.result (e : Die) (n : Fin 4) (rd : XReg) (v : Word) (srcs : List XReg) (comp : Bool) : Die :=
  e.updCpu n fun c => (c.retire 1 srcs 0 (c.past comp)).setReg rd v

/-- The pc moves to a branch or JAL target; `rd` takes the address of the next instruction. -/
def Die.jump (e : Die) (n : Fin 4) (rd : XReg) (target : Word) (cycles : Nat) (srcs : List XReg) (comp : Bool) : Die :=
  (e.updCpu n fun c => (c.retire cycles srcs 0 (target &&& 0xFFFFFFFE)).setReg rd (c.past comp)).land n

/-- A branch: taken where its condition holds. -/
def Die.branch (e : Die) (n : Fin 4) (k : BrCond) (rs1 rs2 : XReg) (ofs : BitVec 13) (comp : Bool) : Die :=
  let c := e.core n
  if BrCond.holds k (c.reg rs1) (c.reg rs2) then
    e.jump n 0 (c.pc + ofs.signExtend 32) 2 [rs1, rs2] comp
  else e.result n 0 0 [rs1, rs2] comp

/-- What an instruction of the ALU row does once it issues. A subtraction has no immediate form, and nothing stands for
one. -/
def Die.alu (e : Die) (n : Fin 4) (op : AluOp) (comp : Bool) : Die :=
  let c := e.core n
  match op with
  | .reg f rd rs1 rs2 => e.result n rd (AluFn.eval f (c.reg rs1) (c.reg rs2)) [rs1, rs2] comp
  | .imm .sub _ _ _ => e
  | .imm f rd rs1 i => e.result n rd (AluFn.eval f (c.reg rs1) (i.signExtend 32)) [rs1] comp
  | .lui rd i => e.result n rd (i ++ (0 : BitVec 12)) [] comp
  | .auipc rd i => e.result n rd (c.pc + (i ++ (0 : BitVec 12))) [] comp
  | .csrReg f rd rs1 csr => e.csrAccess n f false rd rs1 csr comp
  | .csrImm f rd z csr => e.csrAccess n f true rd z csr comp
  | .branch k rs1 rs2 ofs => e.branch n k rs1 rs2 ofs comp
  | .fence => e.result n 0 0 [] comp
  | .fenceI => e.result n 0 0 [] comp

/-- An instruction issues and, where it goes on, has its effect. -/
def Die.run (e : Die) (n : Fin 4) (bytes : Nat) (f : Die → Die) : Die :=
  match e.issue n bytes with
  | (true, e) => f e
  | (false, e) => e

/-- ALU_INSTRUCTION (R382). -/
def execAluInstruction (d : DieId) (n : Fin 4) (op : AluOp) (comp : Bool) (s : State) : Out :=
  .next (s.upd d fun e => e.run n (insnBytes comp) fun e => e.alu n op comp)

/-- What a branch or JAL does once it issues. -/
def Die.branchOrJal (e : Die) (n : Fin 4) (op : JumpOp) (comp : Bool) : Die :=
  match op with
  | .branch k rs1 rs2 ofs => e.branch n k rs1 rs2 ofs comp
  | .jal rd ofs => e.jump n rd ((e.core n).pc + ofs.signExtend 32) 2 [] comp

/-- TAKEN_BRANCH (R382). -/
def execTakenBranch (d : DieId) (n : Fin 4) (op : JumpOp) (comp : Bool) (s : State) : Out :=
  .next (s.upd d fun e => e.run n (insnBytes comp) fun e => e.branchOrJal n op comp)

/-- JALR (R382). -/
def execJalr (d : DieId) (n : Fin 4) (rd rs1 : XReg) (ofs : BitVec 12) (comp : Bool) (s : State) : Out :=
  .next (s.upd d fun e => e.run n (insnBytes comp) fun e =>
    e.jump n rd ((e.core n).reg rs1 + ofs.signExtend 32) 3 [rs1] comp)

/-- MUL: the result comes in time for the second instruction after it (R382). -/
def Die.mul (e : Die) (n : Fin 4) (f : MulFn) (rd rs1 rs2 : XReg) : Die :=
  e.updCpu n fun c =>
    (c.retire 1 [rs1, rs2] rd (c.past false)).setReg rd (MulFn.eval f (c.reg rs1) (c.reg rs2))

/-- MUL (R382). -/
def execMulInsn (d : DieId) (n : Fin 4) (f : MulFn) (rd rs1 rs2 : XReg) (s : State) : Out :=
  .next (s.upd d fun e => e.run n 4 fun e => e.mul n f rd rs1 rs2)

/-- DIV: 33 cycles (R382). -/
def Die.divide (e : Die) (n : Fin 4) (f : DivFn) (rd rs1 rs2 : XReg) : Die :=
  e.updCpu n fun c =>
    (c.retire 33 [rs1, rs2] 0 (c.past false)).setReg rd (DivFn.eval f (c.reg rs1) (c.reg rs2))

/-- DIV (R382). -/
def execDivInsn (d : DieId) (n : Fin 4) (f : DivFn) (rd rs1 rs2 : XReg) (s : State) : Out :=
  .next (s.upd d fun e => e.run n 4 fun e => e.divide n f rd rs1 rs2)

/-- The width of a load. -/
def LoadFn.size : LoadFn → AccSize
  | .lb => .byte
  | .lbu => .byte
  | .lh => .half
  | .lhu => .half
  | .lw => .word

/-- The loaded value, extended. -/
def LoadFn.extend (f : LoadFn) (v : Word) : Word :=
  match f with
  | .lb => (v.truncate 8).signExtend 32
  | .lh => (v.truncate 16).signExtend 32
  | .lbu => v &&& 0xFF
  | .lhu => v &&& 0xFFFF
  | .lw => v

/-- The width of a store. -/
def StoreFn.size : StoreFn → AccSize
  | .sb => .byte
  | .sh => .half
  | .sw => .word

/-- The exception a data access raises before it reaches the crossbar: misaligned, or refused by PMP (R384, R391). -/
def Cpu.dataFault (c : Cpu) (write : Bool) (a : Word) (size : AccSize) : Option Nat :=
  if a.toNat % accBytes size ≠ 0 then some (if write then 6 else 4)
  else if !c.pmpPass c.dataUser (b2n write) a.toNat then some (if write then 7 else 5)
  else none

/-- The instruction's access has been made, and `late` takes its result one cycle later. Lost requests have counted their
cycles; where the target holds the core until it answers, those cycles are free (R382). -/
def Die.accessDone (e : Die) (n : Fin 4) (holds : Bool) (srcs : List XReg) (late : XReg) (comp : Bool) : Die :=
  (e.updCpu n fun c =>
    c.retire (if holds then 1 + Config.waitCycles e.free else 1) srcs late (c.past comp)).drawn

/-- The write at an address would stall: the buffer of its block and domain is full (R30). -/
def Die.bufferFull (e : Die) (m a : Nat) : Bool :=
  targetOf m a == .peri && e.domOf a != .ctl && e.buffered (a / 0x1000 % 0x20) (e.domOf a)

/-- The core's access is not accepted in this cycle: an earlier write of the core stalls, or its target, which does not refuse it,
holds it off or has no room for it (R30, R124, R395). -/
def Die.waitsFor (e : Die) (n : Fin 4) (a : Word) (write : Bool) (size : AccSize) : Bool :=
  let m := BitVec.ofNat 3 n.val
  e.stalls m || (e.refusal m (e.core n).dataUser write a.toNat size).isNone
    && (e.heldOff m a write || write && e.bufferFull n.val a.toNat)

/-- CORE_LOAD: an error response becomes a load-access-fault exception (R391, R399). -/
def Die.load (e : Die) (n : Fin 4) (f : LoadFn) (rd rs1 : XReg) (ofs : BitVec 12) (comp : Bool) (err : Option EccKind) : Die :=
  let c := e.core n
  let a := c.reg rs1 + ofs.signExtend 32
  match c.dataFault false a (LoadFn.size f) with
  | some cause => e.trap n cause a
  | none =>
    if e.waitsFor n a false (LoadFn.size f) then e.loses (BitVec.ofNat 3 n.val) a false
    else
    let e := e.busRead (BitVec.ofNat 3 n.val) c.dataUser a (LoadFn.size f) 0 err
    let r := (e.resp[n.val]?).getD ⟨0, true⟩
    if r.error then e.trap n 5 a
    else
      (e.accessDone n (!inMem a.toNat) [rs1] (if inMem a.toNat then rd else 0) comp).updCpu n fun c => c.setReg rd (LoadFn.extend f r.data)

/-- CORE_LOAD (R382). -/
def execCoreLoad (d : DieId) (n : Fin 4) (f : LoadFn) (rd rs1 : XReg) (ofs : BitVec 12) (comp : Bool)
    (err : Option EccKind) (s : State) : Out :=
  .next (s.upd d fun e => e.run n (insnBytes comp) fun e => e.load n f rd rs1 ofs comp err)

/-- CORE_STORE: an error response becomes a store-access-fault exception (R391, R399). A store that its target does not yet
accept stays at the pc, and the core counts the cycle (R30, R395). -/
def State.store (s : State) (d : DieId) (n : Fin 4) (f : StoreFn) (rs1 rs2 : XReg) (ofs : BitVec 12) (comp : Bool) : State :=
  let c := (s.die d).core n
  let a := c.reg rs1 + ofs.signExtend 32
  match c.dataFault true a (StoreFn.size f) with
  | some cause => s.upd d (·.trap n cause a)
  | none =>
    let m := BitVec.ofNat 3 n.val
    if (s.die d).waitsFor n a true (StoreFn.size f) then s.upd d fun e => if e.stalls m then e.loses m a true else e.asksAgain m a true
    else
      let s := s.busWrite d m c.dataUser a (StoreFn.size f) (c.reg rs2) 0
      s.upd d fun e =>
        if ((e.resp[n.val]?).getD ⟨0, true⟩).error then e.trap n 7 a
        else e.accessDone n (6 ≤ (targetOf n.val a.toNat).idx) [rs1, rs2] 0 comp

/-- CORE_STORE (R382). -/
def execCoreStore (d : DieId) (n : Fin 4) (f : StoreFn) (rs1 rs2 : XReg) (ofs : BitVec 12) (comp : Bool) (s : State) : Out :=
  .next (match (s.die d).issue n (insnBytes comp) with
    | (true, e) => (s.setDie d e).store d n f rs1 rs2 ofs comp
    | (false, e) => s.setDie d e)

/-- ILLEGAL_INSTRUCTION: an encoding of none of the extensions R380 lists raises an illegal-instruction exception. -/
def execIllegalInstruction (d : DieId) (n : Fin 4) (word : Word) (s : State) : Out :=
  .next (s.upd d fun e => e.run n (insnBytes (bitsOf word.toNat 0 2 != 3)) fun e => e.trap n 2 word)

/-- ENVIRONMENT_CALL: ECALL or EBREAK raises its exception (R380). -/
def execEnvironmentCall (d : DieId) (n : Fin 4) (isBreak comp : Bool) (s : State) : Out :=
  .next (s.upd d fun e => e.run n (insnBytes comp) fun e =>
    let c := e.core n
    if isBreak then e.trap n 3 c.pc else e.trap n (if c.user then 8 else 11) 0)

/-- MRET: the core goes back to mepc in the mode of MPP, and the next instruction issues 4 cycles later (R389). In user mode
it is an illegal instruction. -/
def Die.mret (e : Die) (n : Fin 4) : Die :=
  if (e.core n).user then e.trap n 2 0x30200073
  else
    (e.updCpu n fun c =>
      { c.retire 4 [] 0 c.mepc with
        mie := c.mpie
        mpie := true
        user := c.mppUser
        mppUser := true
        mprv := c.mprv && !c.mppUser }).land n

/-- MRET (R389). -/
def execMret (d : DieId) (n : Fin 4) (s : State) : Out := .next (s.upd d fun e => e.run n 4 fun e => e.mret n)

/-- WFI: issue stops until a line is pending with its XBR_n_IEN bit set (R389). In user mode with TW set it is an illegal
instruction. -/
def Die.wfi (e : Die) (n : Fin 4) : Die :=
  let c := e.core n
  if c.user && c.tw then e.trap n 2 0x10500073
  else e.updCpu n fun c => { c.retire 1 [] 0 (c.past false) with waiting := (e.claim n).isNone }

/-- WFI (R389). -/
def execWfi (d : DieId) (n : Fin 4) (s : State) : Out := .next (s.upd d fun e => e.run n 4 fun e => e.wfi n)

/-- CORE_INTERRUPT_ENTRY: the lowest pending line that is enabled is taken over 9 cycles, where mie.MEIE is set and the core is
in user mode or mstatus.MIE is set (R387, R388). TIM latches its time, an access not yet accepted is withdrawn, and a divide
in progress is abandoned, which has not retired; the cycles it has taken count (R381), and their number is free. -/
def Die.interruptEntry (e : Die) (n : Fin 4) (divide : Bool) : Die :=
  let c := e.core n
  match e.claim n with
  | none => e
  | some l =>
    if !e.runs .ctl || !e.bitAt F.XBR_CORECTL_RUN n.val || !c.meie || !(c.user || c.mie) then e
    else
      let wait := if c.waiting then Config.waitCycles e.free else if divide then Config.waitCycles e.free % 33 else 0
      let e := if c.waiting || divide then e.drawn else e
      let e := (e.entryStamp n).updXbar fun x => { x with reqs := x.reqs.set n.val none }
      let e : Die := { e with stalled := e.stalled.filter fun p => p.m.toNat != n.val }
      e.updCpu n fun c =>
        let t := c.trap (0x80000000 + 16 + l) 0
        { t with
          pc := if natBit c.mtvec.toNat 0 then t.pc + BitVec.ofNat 32 (4 * (16 + l)) else t.pc
          mcycle := c.mcycle + BitVec.ofNat 64 (9 + wait) }

/-- CORE_INTERRUPT_ENTRY (R388). -/
def execCoreInterruptEntry (d : DieId) (n : Fin 4) (divide : Bool) (s : State) : Out :=
  .next (s.upd d (·.interruptEntry n divide))

end Sys2Proof.Machine
end

