-- ==== Sys2Proof/Machine/Scene.lean ====
section
/-! DEFINITION. Chain-wide scene recall, as the firmware of the standard image handles it (R200, R201). -/

namespace Sys2Proof.Machine

/-- One write of a group's contents: a back Z bank, a back route entry, a voice-configuration register or YRD_RBACK through
YRD_RIDX. The firmware writes and then waits until the write has taken effect. -/
def Die.sceneWrite (e : Die) (w : Word × Word) : Die :=
  match decodeAddr w.1.toNat with
  | .engw => e.engwWrite 0 w.1 w.2 []
  | .morw => e.morwWrite ((w.1.toNat - 0x40000000) / 4) w.2
  | .peri => e.effect 0 w.1.toNat w.2 0 false
  | _ => e

/-- Writes of a slot's MASK and FRAME, which an armed slot ignores (R190). -/
def Die.slotName (e : Die) (n : Fin 4) (mask frame : Nat) : Die :=
  if e.bit (F.ENG_SWAP_CTL_ARMED n) then e
  else (e.setRegN (R.ENG_SWAP_MASK n) mask).setRegN (R.ENG_SWAP_FRAME n) frame

/-- A group is written, and its slot is armed for its frame; a slot that is armed already stays as it is (R190). Where the arm is late and the recall allows it, the slot is armed
for the earliest frame that R190 accepts, with a record of the target and of the frame used (R201). -/
def Die.sceneArm (e : Die) (w : SceneWait) : Die :=
  let n := w.slot
  let t := (w.target + w.group.offset) % 2 ^ 32
  let e := w.group.writes.foldl Die.sceneWrite e
  if e.bit (F.ENG_SWAP_CTL_ARMED n) then e
  else
    let e := (e.slotName n w.group.mask.toNat t).slotArm n
    let e : Die := { e with swp := { e.swp with armedBy := n :: e.swp.armedBy.filter (· != n) } }
    if e.bit (F.ENG_SWAP_CTL_ARMED n) || !w.flag then e
    else
      let f := (e.seq + 2) % 2 ^ 32
      ((e.slotName n w.group.mask.toNat f).slotArm n).logEv 7 (Config.sceneCode true).toNat t f

/-- A slot of an older recall that is not DONE holds scopes that the group would write, or is the group's own slot (R201). -/
def Die.sceneBlocked (e : Die) (w : SceneWait) : Bool :=
  e.swp.stuck.any fun n => e.bit (F.ENG_SWAP_CTL_ARMED n) &&
    (n == w.slot || BitVec.ofNat 27 (e.regN (R.ENG_SWAP_MASK n)) &&& w.group.mask != 0)

/-- A group is served now, or once the slots of an older recall that hold its scopes are DONE (R201). -/
def Die.scenePlace (e : Die) (w : SceneWait) : Die :=
  if e.sceneBlocked w then { e with swp := { e.swp with waits := e.swp.waits ++ [w] } } else e.sceneArm w

/-- SCENE_RECALL: the recall of another show is ignored; an absent scene is recorded; otherwise the slots of an older recall
are disarmed where they can be, and up to three groups go into slots 0 to 2 (R200, R201). -/
def Die.sceneRecall (e : Die) (p : Vector Block 2) : Die :=
  if !e.imageRuns || bitsOf p[0].toNat 56 8 != 0x10 || bitsOf p[0].toNat 48 8 != 1
    || bitsOf p[1].toNat 32 32 != e.swp.show_.toNat then e
  else match e.swp.scenes.find? (fun s => s.number.toNat == bitsOf p[0].toNat 32 16) with
    | none => e.logEv 7 (Config.sceneCode false).toNat (bitsOf p[0].toNat 32 16)
    | some sc =>
      let e := e.swp.armedBy.foldl (fun e n => if e.bit (F.ENG_SWAP_CTL_ARMED n) then e.slotDisarm n else e) e
      let e : Die := { e with swp := { e.swp with
        waits := []
        armedBy := []
        stuck := (e.swp.armedBy ++ e.swp.stuck).filter fun n => e.bit (F.ENG_SWAP_CTL_ARMED n) } }
      (List.finRange 3).foldl (fun e (i : Fin 3) =>
        match sc.groups[i.val]? with
        | some g => e.scenePlace ⟨⟨i.val, by omega⟩, g, bitsOf p[0].toNat 0 32, natBit p[1].toNat 16⟩
        | none => e) e

/-- SCENE_RECALL (R201). -/
def execSceneRecall (d : DieId) (payload : Vector Block 2) (s : State) : Out := .next (s.updIn .eng d (·.sceneRecall payload))

/-- Groups of a recall whose scopes no older slot holds any longer are served. -/
def Die.sceneWaits (e : Die) : Die :=
  let ready := e.swp.waits.filter fun w => !e.sceneBlocked w
  let e : Die := { e with swp := { e.swp with
    waits := e.swp.waits.filter e.sceneBlocked
    stuck := e.swp.stuck.filter fun n => e.bit (F.ENG_SWAP_CTL_ARMED n) } }
  ready.foldl Die.sceneArm e

/-- FRAME_TICK_LINE: the frame tick reaches CTL (R386); the firmware of the standard image goes on with a recall that waited
for DONE (R201). -/
def execFrameTickLine (d : DieId) (s : State) : Out := .next (s.updIn .ctl d fun e => e.tickLine.sceneWaits)

end Sys2Proof.Machine
end

