-- ==== Sys2Proof/Machine/Dispatch.lean ====
section
/-! DEFINITION. The dispatch of commands: one arm for each row of spec/opcode_table.json, in its order. -/

namespace Sys2Proof.Machine

def exec (i : Instr) (s : State) : Host.Outcome State Fault Refusal :=
  match i with
  | .registerWrite d m user addr size v hw => Sys2Proof.Machine.execRegisterWrite d m user addr size v hw s
  | .rcRead d m user addr size hw => Sys2Proof.Machine.execRcRead d m user addr size hw s
  | .postedWriteEffect d blk dom hw => Sys2Proof.Machine.execPostedWriteEffect d blk dom hw s
  | .shadowUpdate d addr => Sys2Proof.Machine.execShadowUpdate d addr s
  | .transitionEnd d b => Sys2Proof.Machine.execTransitionEnd d b s
  | .keepFallover d => Sys2Proof.Machine.execKeepFallover d s
  | .frameTick d stamp => Sys2Proof.Machine.execFrameTick d stamp s
  | .mirrorReloadDone d => Sys2Proof.Machine.execMirrorReloadDone d s
  | .handoverRelease d => Sys2Proof.Machine.execHandoverRelease d s
  | .frameTickLine d => Sys2Proof.Machine.execFrameTickLine d s
  | .gpioTimedChange d => Sys2Proof.Machine.execGpioTimedChange d s
  | .ppsOutPulse d => Sys2Proof.Machine.execPpsOutPulse d s
  | .exchangeWindow d reading limits => Sys2Proof.Machine.execExchangeWindow d reading limits s
  | .followResolve d => Sys2Proof.Machine.execFollowResolve d s
  | .leadBatchReceive d => Sys2Proof.Machine.execLeadBatchReceive d s
  | .windowClose d => Sys2Proof.Machine.execWindowClose d s
  | .issueStop d => Sys2Proof.Machine.execIssueStop d s
  | .mpy d c acc ma mb msh => Sys2Proof.Machine.execMpy d c acc ma mb msh s
  | .mac d c acc ma mb msh => Sys2Proof.Machine.execMac d c acc ma mb msh s
  | .msu d c acc ma mb msh => Sys2Proof.Machine.execMsu d c acc ma mb msh s
  | .alod d c acc ma => Sys2Proof.Machine.execAlod d c acc ma s
  | .aclr d c acc => Sys2Proof.Machine.execAclr d c acc s
  | .acpy d c acc => Sys2Proof.Machine.execAcpy d c acc s
  | .aadd d c acc => Sys2Proof.Machine.execAadd d c acc s
  | .dmpy d c ma mb msh => Sys2Proof.Machine.execDmpy d c ma mb msh s
  | .dmac d c ma mb msh => Sys2Proof.Machine.execDmac d c ma mb msh s
  | .dmsu d c ma mb msh => Sys2Proof.Machine.execDmsu d c ma mb msh s
  | .mov d c qd qs => Sys2Proof.Machine.execMov d c qd qs s
  | .ldi d c qd imm => Sys2Proof.Machine.execLdi d c qd imm s
  | .addOp d c qd qs qt => Sys2Proof.Machine.execAddOp d c qd qs qt s
  | .subOp d c qd qs qt => Sys2Proof.Machine.execSubOp d c qd qs qt s
  | .addw d c qd qs qt => Sys2Proof.Machine.execAddw d c qd qs qt s
  | .subw d c qd qs qt => Sys2Proof.Machine.execSubw d c qd qs qt s
  | .negOp d c qd qs => Sys2Proof.Machine.execNegOp d c qd qs s
  | .absOp d c qd qs => Sys2Proof.Machine.execAbsOp d c qd qs s
  | .minOp d c qd qs qt => Sys2Proof.Machine.execMinOp d c qd qs qt s
  | .maxOp d c qd qs qt => Sys2Proof.Machine.execMaxOp d c qd qs qt s
  | .andOp d c qd qs qt => Sys2Proof.Machine.execAndOp d c qd qs qt s
  | .orOp d c qd qs qt => Sys2Proof.Machine.execOrOp d c qd qs qt s
  | .xorOp d c qd qs qt => Sys2Proof.Machine.execXorOp d c qd qs qt s
  | .shl d c qd qs sh => Sys2Proof.Machine.execShl d c qd qs sh s
  | .shra d c qd qs sh => Sys2Proof.Machine.execShra d c qd qs sh s
  | .shrl d c qd qs sh => Sys2Proof.Machine.execShrl d c qd qs sh s
  | .cmplt d c qs qt => Sys2Proof.Machine.execCmplt d c qs qt s
  | .cmpeq d c qs qt => Sys2Proof.Machine.execCmpeq d c qs qt s
  | .sel d c qd qs qt => Sys2Proof.Machine.execSel d c qd qs qt s
  | .sta d c acc qd sh width mode => Sys2Proof.Machine.execSta d c acc qd sh width mode s
  | .dsta d c qd sh mode => Sys2Proof.Machine.execDsta d c qd sh mode s
  | .dadd d c qd qs qt => Sys2Proof.Machine.execDadd d c qd qs qt s
  | .dsub d c qd qs qt => Sys2Proof.Machine.execDsub d c qd qs qt s
  | .minx d c qs sel => Sys2Proof.Machine.execMinx d c qs sel s
  | .maxx d c qs sel => Sys2Proof.Machine.execMaxx d c qs sel s
  | .sres d c qd qi => Sys2Proof.Machine.execSres d c qd qi s
  | .lane d c qd qs lane => Sys2Proof.Machine.execLane d c qd qs lane s
  | .rot d c qd qs rot => Sys2Proof.Machine.execRot d c qd qs rot s
  | .mfs d c qd idx part => Sys2Proof.Machine.execMfs d c qd idx part s
  | .mts d c idx qs hi => Sys2Proof.Machine.execMts d c idx qs hi s
  | .mtsi d c idx imm hi => Sys2Proof.Machine.execMtsi d c idx imm hi s
  | .asv d c acc qd part => Sys2Proof.Machine.execAsv d c acc qd part s
  | .ars d c acc qs part => Sys2Proof.Machine.execArs d c acc qs part s
  | .clro d c => Sys2Proof.Machine.execClro d c s
  | .laneLoad d c bus ag up q err => Sys2Proof.Machine.execLaneLoad d c bus ag up q err s
  | .broadcastLoad d c bus ag up q err => Sys2Proof.Machine.execBroadcastLoad d c bus ag up q err s
  | .tileStore d c bus ag up q => Sys2Proof.Machine.execTileStore d c bus ag up q s
  | .ringStore d c ag up q => Sys2Proof.Machine.execRingStore d c ag up q s
  | .yardRowLoad d c ag up q err => Sys2Proof.Machine.execYardRowLoad d c ag up q err s
  | .yardRowStore d c ag up q => Sys2Proof.Machine.execYardRowStore d c ag up q s
  | .correctionWriteback d => Sys2Proof.Machine.execCorrectionWriteback d s
  | .ringSecondAccess d c err => Sys2Proof.Machine.execRingSecondAccess d c err s
  | .yardStallRetry d c err => Sys2Proof.Machine.execYardStallRetry d c err s
  | .operationWriteback d c => Sys2Proof.Machine.execOperationWriteback d c s
  | .endKernel d c cycle => Sys2Proof.Machine.execEndKernel d c cycle s
  | .br d c target => Sys2Proof.Machine.execBr d c target s
  | .brc d c cond target => Sys2Proof.Machine.execBrc d c cond target s
  | .rpt d c count => Sys2Proof.Machine.execRpt d c count s
  | .loop d c len count => Sys2Proof.Machine.execLoop d c len count s
  | .loopx d c last count => Sys2Proof.Machine.execLoopx d c last count s
  | .rti d c => Sys2Proof.Machine.execRti d c s
  | .brk d c => Sys2Proof.Machine.execBrk d c s
  | .courseInterruptEntry d c => Sys2Proof.Machine.execCourseInterruptEntry d c s
  | .doorbellRing d c => Sys2Proof.Machine.execDoorbellRing d c s
  | .seatmapWrite d w v => Sys2Proof.Machine.execSeatmapWrite d w v s
  | .wallRetentionLoss d w => Sys2Proof.Machine.execWallRetentionLoss d w s
  | .wearMeasure d c margin => Sys2Proof.Machine.execWearMeasure d c margin s
  | .migrationGo d w => Sys2Proof.Machine.execMigrationGo d w s
  | .migrationArm d w => Sys2Proof.Machine.execMigrationArm d w s
  | .migrationAbort d w => Sys2Proof.Machine.execMigrationAbort d w s
  | .migrationRearm d w => Sys2Proof.Machine.execMigrationRearm d w s
  | .yardArbitration d bank cycle reqs => Sys2Proof.Machine.execYardArbitration d bank cycle reqs s
  | .yardwRead d m addr err => Sys2Proof.Machine.execYardwRead d m addr err s
  | .yardwWrite d m addr v err => Sys2Proof.Machine.execYardwWrite d m addr v err s
  | .engwWrite d m addr v err => Sys2Proof.Machine.execEngwWrite d m addr v err s
  | .hodPush d h d3 => Sys2Proof.Machine.execHodPush d h d3 s
  | .hodRowMove d h err engineRow => Sys2Proof.Machine.execHodRowMove d h err engineRow s
  | .testStepStart d bank => Sys2Proof.Machine.execTestStepStart d bank s
  | .testCapture d bank sbe => Sys2Proof.Machine.execTestCapture d bank sbe s
  | .testMarchCycle d bank ok => Sys2Proof.Machine.execTestMarchCycle d bank ok s
  | .testRestore d bank => Sys2Proof.Machine.execTestRestore d bank s
  | .remapGo d bank => Sys2Proof.Machine.execRemapGo d bank s
  | .remapCopy d bank err => Sys2Proof.Machine.execRemapCopy d bank err s
  | .remapCleanPass d bank => Sys2Proof.Machine.execRemapCleanPass d bank s
  | .morwWrite d sink v => Sys2Proof.Machine.execMorwWrite d sink v s
  | .generatorWrite d addr v => Sys2Proof.Machine.execGeneratorWrite d addr v s
  | .bridgeSample d s2m ch phi => Sys2Proof.Machine.execBridgeSample d s2m ch phi s
  | .bridgeLock d ratio => Sys2Proof.Machine.execBridgeLock d ratio s
  | .bridgeLockLoss d => Sys2Proof.Machine.execBridgeLockLoss d s
  | .bridgeWaitAbort d s2m => Sys2Proof.Machine.execBridgeWaitAbort d s2m s
  | .bridgeMapWrite d v => Sys2Proof.Machine.execBridgeMapWrite d v s
  | .swapArm d n => Sys2Proof.Machine.execSwapArm d n s
  | .swapDisarm d n => Sys2Proof.Machine.execSwapDisarm d n s
  | .sceneRecall d payload => Sys2Proof.Machine.execSceneRecall d payload s
  | .firmwareEventPush d hi => Sys2Proof.Machine.execFirmwareEventPush d hi s
  | .noteLoad d payload => Sys2Proof.Machine.execNoteLoad d payload s
  | .midiRxByte d uart byte framing => Sys2Proof.Machine.execMidiRxByte d uart byte framing s
  | .mfifoRead d m => Sys2Proof.Machine.execMfifoRead d m s
  | .activeSenseTimeout d uart => Sys2Proof.Machine.execActiveSenseTimeout d uart s
  | .startBlockReceive d p startByte hdr arrival toFt filler before fill => Sys2Proof.Machine.execStartBlockReceive d p startByte hdr arrival toFt filler before fill s
  | .containerForward d bad => Sys2Proof.Machine.execContainerForward d bad s
  | .containerOriginate d seed ltx => Sys2Proof.Machine.execContainerOriginate d seed ltx s
  | .palletReceive d path blocks cycle => Sys2Proof.Machine.execPalletReceive d path blocks cycle s
  | .palletEligible d => Sys2Proof.Machine.execPalletEligible d s
  | .palletInsert d p => Sys2Proof.Machine.execPalletInsert d p s
  | .masterPalletReturn d x => Sys2Proof.Machine.execMasterPalletReturn d x s
  | .detach d => Sys2Proof.Machine.execDetach d s
  | .reseqWrite d => Sys2Proof.Machine.execReseqWrite d s
  | .loadReceive d p ld => Sys2Proof.Machine.execLoadReceive d p ld s
  | .controlBlockSend d room => Sys2Proof.Machine.execControlBlockSend d room s
  | .creditReceive d p wrap cred => Sys2Proof.Machine.execCreditReceive d p wrap cred s
  | .loadFetch d lane => Sys2Proof.Machine.execLoadFetch d lane s
  | .chainMapWrite d p v => Sys2Proof.Machine.execChainMapWrite d p v s
  | .pArm d => Sys2Proof.Machine.execPArm d s
  | .chnCtrlWrite d v => Sys2Proof.Machine.execChnCtrlWrite d v s
  | .electionTimeout d => Sys2Proof.Machine.execElectionTimeout d s
  | .portLost d p cause => Sys2Proof.Machine.execPortLost d p cause s
  | .repeatEnd d => Sys2Proof.Machine.execRepeatEnd d s
  | .nearHeal d p => Sys2Proof.Machine.execNearHeal d p s
  | .fillRestart d p => Sys2Proof.Machine.execFillRestart d p s
  | .pairJoin d => Sys2Proof.Machine.execPairJoin d s
  | .leadTimeout d => Sys2Proof.Machine.execLeadTimeout d s
  | .leadAloneB d => Sys2Proof.Machine.execLeadAloneB d s
  | .linkTrained d => Sys2Proof.Machine.execLinkTrained d s
  | .linkDown d => Sys2Proof.Machine.execLinkDown d s
  | .pwBlockDrop x => Sys2Proof.Machine.execPwBlockDrop x s
  | .heartbeatSend d => Sys2Proof.Machine.execHeartbeatSend d s
  | .healthReportReceive d => Sys2Proof.Machine.execHealthReportReceive d s
  | .pllCheck d fails => Sys2Proof.Machine.execPllCheck d fails s
  | .palletPass d blocks => Sys2Proof.Machine.execPalletPass d blocks s
  | .loadRelay d => Sys2Proof.Machine.execLoadRelay d s
  | .fenceAssert d => Sys2Proof.Machine.execFenceAssert d s
  | .unfence d => Sys2Proof.Machine.execUnfence d s
  | .dwnAssert d cause => Sys2Proof.Machine.execDwnAssert d cause s
  | .standdown d => Sys2Proof.Machine.execStanddown d s
  | .driverHoldExpire d => Sys2Proof.Machine.execDriverHoldExpire d s
  | .leadDwnReceive d => Sys2Proof.Machine.execLeadDwnReceive d s
  | .handoverRequest d => Sys2Proof.Machine.execHandoverRequest d s
  | .stateCopyBlock d item => Sys2Proof.Machine.execStateCopyBlock d item s
  | .copyChangeRepeat d change => Sys2Proof.Machine.execCopyChangeRepeat d change s
  | .solo d => Sys2Proof.Machine.execSolo d s
  | .identityBlock d => Sys2Proof.Machine.execIdentityBlock d s
  | .refInputEvent d inp at_ offset displaced => Sys2Proof.Machine.execRefInputEvent d inp at_ offset displaced s
  | .frequencyGate d inp offs nearOther => Sys2Proof.Machine.execFrequencyGate d inp offs nearOther s
  | .inputStopped d inp => Sys2Proof.Machine.execInputStopped d inp s
  | .rankWrite d v => Sys2Proof.Machine.execRankWrite d v s
  | .absorptionEnd d phase => Sys2Proof.Machine.execAbsorptionEnd d phase s
  | .slewComplete d fine phase => Sys2Proof.Machine.execSlewComplete d fine phase s
  | .refLock d => Sys2Proof.Machine.execRefLock d s
  | .holdLimit d => Sys2Proof.Machine.execHoldLimit d s
  | .pairInputLoss d => Sys2Proof.Machine.execPairInputLoss d s
  | .wckAlign d => Sys2Proof.Machine.execWckAlign d s
  | .ppsAlign d => Sys2Proof.Machine.execPpsAlign d s
  | .alignAbort d => Sys2Proof.Machine.execAlignAbort d s
  | .alignDone d => Sys2Proof.Machine.execAlignDone d s
  | .sideWckQualify d freq => Sys2Proof.Machine.execSideWckQualify d freq s
  | .timeOffsetUpdate d pps frac corr => Sys2Proof.Machine.execTimeOffsetUpdate d pps frac corr s
  | .timeStepArm d => Sys2Proof.Machine.execTimeStepArm d s
  | .todMessage d bytes inWindow => Sys2Proof.Machine.execTodMessage d bytes inWindow s
  | .ppsEdge d => Sys2Proof.Machine.execPpsEdge d s
  | .stampCapture d e preload => Sys2Proof.Machine.execStampCapture d e preload s
  | .stampRead d m rx age => Sys2Proof.Machine.execStampRead d m rx age s
  | .timeNsRead d m => Sys2Proof.Machine.execTimeNsRead d m s
  | .portFrame d p phase bits alien lastTwo => Sys2Proof.Machine.execPortFrame d p phase bits alien lastTwo s
  | .sapInputWord d p w => Sys2Proof.Machine.execSapInputWord d p w s
  | .sapOutputWord d p => Sys2Proof.Machine.execSapOutputWord d p s
  | .sapMaskWrite d p v lastTwo => Sys2Proof.Machine.execSapMaskWrite d p v lastTwo s
  | .sapCtrlWrite d p v => Sys2Proof.Machine.execSapCtrlWrite d p v s
  | .groupClockLoss d side => Sys2Proof.Machine.execGroupClockLoss d side s
  | .cvClearInput d low => Sys2Proof.Machine.execCvClearInput d low s
  | .cvDataWrite d n v setting => Sys2Proof.Machine.execCvDataWrite d n v setting s
  | .cvCfgWrite d n v => Sys2Proof.Machine.execCvCfgWrite d n v s
  | .vcvGood d => Sys2Proof.Machine.execVcvGood d s
  | .aluInstruction d n op comp => Sys2Proof.Machine.execAluInstruction d n op comp s
  | .takenBranch d n op comp => Sys2Proof.Machine.execTakenBranch d n op comp s
  | .jalr d n rd rs1 ofs comp => Sys2Proof.Machine.execJalr d n rd rs1 ofs comp s
  | .mulInsn d n f rd rs1 rs2 => Sys2Proof.Machine.execMulInsn d n f rd rs1 rs2 s
  | .divInsn d n f rd rs1 rs2 => Sys2Proof.Machine.execDivInsn d n f rd rs1 rs2 s
  | .coreLoad d n f rd rs1 ofs comp err => Sys2Proof.Machine.execCoreLoad d n f rd rs1 ofs comp err s
  | .coreStore d n f rs1 rs2 ofs comp => Sys2Proof.Machine.execCoreStore d n f rs1 rs2 ofs comp s
  | .illegalInstruction d n word => Sys2Proof.Machine.execIllegalInstruction d n word s
  | .mret d n => Sys2Proof.Machine.execMret d n s
  | .wfi d n => Sys2Proof.Machine.execWfi d n s
  | .coreInterruptEntry d n divide => Sys2Proof.Machine.execCoreInterruptEntry d n divide s
  | .semaphoreRead d m sem => Sys2Proof.Machine.execSemaphoreRead d m sem s
  | .semaphoreWrite d m sem v => Sys2Proof.Machine.execSemaphoreWrite d m sem v s
  | .doorbellSet d n v => Sys2Proof.Machine.execDoorbellSet d n v s
  | .coreRunWrite d v => Sys2Proof.Machine.execCoreRunWrite d v s
  | .crossbarRequest d m addr write contenders => Sys2Proof.Machine.execCrossbarRequest d m addr write contenders s
  | .requestUrgent d m => Sys2Proof.Machine.execRequestUrgent d m s
  | .burst d m addr beats wrap write data err => Sys2Proof.Machine.execBurst d m addr beats wrap write data err s
  | .masterResetMidBurst d m => Sys2Proof.Machine.execMasterResetMidBurst d m s
  | .gpioEdge d pin level => Sys2Proof.Machine.execGpioEdge d pin level s
  | .gpioArm d => Sys2Proof.Machine.execGpioArm d s
  | .i2cGo d n v => Sys2Proof.Machine.execI2cGo d n v s
  | .i2cDone d n r => Sys2Proof.Machine.execI2cDone d n r s
  | .i2cTimeout d n => Sys2Proof.Machine.execI2cTimeout d n s
  | .i2cRecover d n => Sys2Proof.Machine.execI2cRecover d n s
  | .midiTxPush d byte => Sys2Proof.Machine.execMidiTxPush d byte s
  | .midiTxByteSent d => Sys2Proof.Machine.execMidiTxByteSent d s
  | .dieReset d rebootBit => Sys2Proof.Machine.execDieReset d rebootBit s
  | .flashDiscovery d bootw role sfdp oct quadIo quadOut addr4 => Sys2Proof.Machine.execFlashDiscovery d bootw role sfdp oct quadIo quadOut addr4 s
  | .imagePass1 d a b => Sys2Proof.Machine.execImagePass1 d a b s
  | .engStart d => Sys2Proof.Machine.execEngStart d s
  | .imagePass2 d secs slot => Sys2Proof.Machine.execImagePass2 d secs slot s
  | .imageRelease d micros => Sys2Proof.Machine.execImageRelease d micros s
  | .noimage d => Sys2Proof.Machine.execNoimage d s
  | .strapHold d => Sys2Proof.Machine.execStrapHold d s
  | .flashCommand d v => Sys2Proof.Machine.execFlashCommand d v s
  | .flashCommandDone d data => Sys2Proof.Machine.execFlashCommandDone d data s
  | .reboot d => Sys2Proof.Machine.execReboot d s
  | .plugSeated d => Sys2Proof.Machine.execPlugSeated d s
  | .plugPowered d => Sys2Proof.Machine.execPlugPowered d s
  | .plugLeaving d => Sys2Proof.Machine.execPlugLeaving d s
  | .leaveReset d => Sys2Proof.Machine.execLeaveReset d s
  | .supplyWarn d r => Sys2Proof.Machine.execSupplyWarn d r s
  | .supplyReset d r => Sys2Proof.Machine.execSupplyReset d r s
  | .supplyRestore d r => Sys2Proof.Machine.execSupplyRestore d r s
  | .logEvent d cls code w4 w5 w6 => Sys2Proof.Machine.execLogEvent d cls code w4 w5 w6 s
  | .logRecordWrite d parityFail => Sys2Proof.Machine.execLogRecordWrite d parityFail s
  | .logReadback d err => Sys2Proof.Machine.execLogReadback d err s
  | .logFreezeWrite d v => Sys2Proof.Machine.execLogFreezeWrite d v s
  | .logClear d v => Sys2Proof.Machine.execLogClear d v s
  | .logClearDone d => Sys2Proof.Machine.execLogClearDone d s
  | .logFwcode d v => Sys2Proof.Machine.execLogFwcode d v s
  | .logCursorWrite d v err => Sys2Proof.Machine.execLogCursorWrite d v err s
  | .logWin7Read d m err => Sys2Proof.Machine.execLogWin7Read d m err s
  | .pctSnapshot d m cycle => Sys2Proof.Machine.execPctSnapshot d m cycle s
  | .pctEvent d event pc => Sys2Proof.Machine.execPctEvent d event pc s
  | .pctCounterWrite d n v inc => Sys2Proof.Machine.execPctCounterWrite d n v inc s
  | .freezePin d => Sys2Proof.Machine.execFreezePin d s
  | .freezeGo d partner => Sys2Proof.Machine.execFreezeGo d partner s
  | .freezeRequest d cause => Sys2Proof.Machine.execFreezeRequest d cause s
  | .fenceWaitTimeout d => Sys2Proof.Machine.execFenceWaitTimeout d s
  | .domainClose d dom => Sys2Proof.Machine.execDomainClose d dom s
  | .domainForceClose d dom => Sys2Proof.Machine.execDomainForceClose d dom s
  | .readoutStatus d => Sys2Proof.Machine.execReadoutStatus d s
  | .readoutChaininfo d id => Sys2Proof.Machine.execReadoutChaininfo d id s
  | .readoutChain d id addr count => Sys2Proof.Machine.execReadoutChain d id addr count s
  | .readoutMem d id addr count => Sys2Proof.Machine.execReadoutMem d id addr count s
  | .readoutLog d addr count => Sys2Proof.Machine.execReadoutLog d addr count s
  | .thaw d => Sys2Proof.Machine.execThaw d s
  | .readoutReset d => Sys2Proof.Machine.execReadoutReset d s
  | .blockLockGained d x => Sys2Proof.Machine.execBlockLockGained d x s
  | .sideWckLoss d => Sys2Proof.Machine.execSideWckLoss d s
  | .splitStart d => Sys2Proof.Machine.execSplitStart d s
  | .wckOutFall d => Sys2Proof.Machine.execWckOutFall d s
  | .partnerDwnRelease d => Sys2Proof.Machine.execPartnerDwnRelease d s
  | .environmentCall d n isBreak comp => Sys2Proof.Machine.execEnvironmentCall d n isBreak comp s

end Sys2Proof.Machine
end

