-- ==== Sys2Proof/WellFormed.lean ====
section
/-! DEFINITION. Well-formed commands: the operands the spec's own ranges admit. `exec` is total; the ranges of the operands'
types hold the rest (a course, a port, a core, a lane). -/

namespace Sys2Proof

/-- A master of the crossbar (R393). -/
def masterOk (m : BitVec 3) : Bool := decide (m.toNat < 7)

/-- An ENG cycle of a frame at any rate (R88). -/
def cycleOk (c : BitVec 15) : Bool := decide (c.toNat < 20480)

/-- An aligned word of a window (R14, R390). -/
def windowOk (lo hi : Nat) (a : Word) : Bool := decide (lo ≤ a.toNat) && decide (a.toNat < hi) && decide (a.toNat % 4 = 0)

/-- The forms of the ALU row that RV32IMC encodes: no subtraction of an immediate, shift amounts below 32, even branch
offsets, and a two-byte form only where C has one (R380). -/
def AluOp.wf (comp : Bool) : AluOp → Bool
  | .reg f _ _ _ => !comp || f == .add || f == .sub || f == .xor || f == .or || f == .and
  | .imm f _ _ i =>
    f != .sub && ((f != .sll && f != .srl && f != .sra) || decide (i.toNat < 32)) &&
      (!comp || f == .add || f == .and || f == .sll || f == .srl || f == .sra)
  | .lui _ _ => true
  | .auipc _ _ => !comp
  | .csrReg _ _ _ _ => !comp
  | .csrImm _ _ _ _ => !comp
  | .branch c _ rs2 ofs => decide (ofs.toNat % 2 = 0) && (!comp || ((c == .eq || c == .ne) && rs2 == 0))
  | .fence => !comp
  | .fenceI => !comp

/-- The forms of the taken-branch row. -/
def JumpOp.wf (comp : Bool) : JumpOp → Bool
  | .branch c _ rs2 ofs => decide (ofs.toNat % 2 = 0) && (!comp || ((c == .eq || c == .ne) && rs2 == 0))
  | .jal rd ofs => decide (ofs.toNat % 2 = 0) && (!comp || rd == 0 || rd == 1)

/-- The command is well formed. -/
def Instr.wf : Instr → Bool
  | .registerWrite _ m _ _ _ _ _ => masterOk m
  | .rcRead _ m _ _ _ _ => masterOk m
  | .endKernel _ _ cycle => cycleOk cycle
  | .yardArbitration _ _ cycle _ => cycleOk cycle
  | .yardwRead _ m addr _ => masterOk m && windowOk 0x30000000 0x38000000 addr
  | .yardwWrite _ m addr _ _ => masterOk m && windowOk 0x30000000 0x38000000 addr
  | .engwWrite _ m addr _ _ => masterOk m && windowOk 0x20000000 0x201C0000 addr
  | .morwWrite _ sink _ => decide (sink.toNat < 20480)
  | .mfifoRead _ m => masterOk m
  | .palletReceive _ _ _ cycle => cycleOk cycle
  | .stampRead _ m _ _ => masterOk m
  | .timeNsRead _ m => masterOk m
  | .aluInstruction _ _ op comp => op.wf comp
  | .takenBranch _ _ op comp => op.wf comp
  | .jalr _ _ rd _ ofs comp => !comp || ((rd == 0 || rd == 1) && ofs == 0)
  | .coreLoad _ _ f _ _ _ comp _ => !comp || f == .lw
  | .coreStore _ _ f _ _ _ comp => !comp || f == .sw
  | .environmentCall _ _ isBreak comp => !comp || isBreak
  | .semaphoreRead _ m _ => masterOk m
  | .semaphoreWrite _ m _ _ => masterOk m
  | .logWin7Read _ m _ => masterOk m
  | .pctSnapshot _ m cycle => masterOk m && cycleOk cycle
  | _ => true

end Sys2Proof
end

