-- ==== Sys2Proof/Safety.lean ====
section
/-! DEFINITION. The terms in which claims are stated: the canonical form of a state, a command that completes, and what a
command leaves alone. -/

namespace Sys2Proof.Machine

/-- The register map of a die lists addresses in rising order and no reset value. -/
def Die.regsWf (e : Die) : Bool := SMap.wf regReset e.regs

/-- The shadows of a die are listed so too. -/
def Die.shadowWf (e : Die) : Bool := SMap.wf regReset e.shadow

/-- BANK0 to BANK3 and SHARED are listed so too. -/
def Mem.wf (m : Mem) : Bool := SMap.wf byteDflt m.bytes && SMap.wf (fun _ => 0) m.bad

/-- A die in canonical form: its registers, their shadows, and its banks. -/
def Die.canonical (e : Die) : Bool := e.regsWf && e.shadowWf && e.mem.wf

/-- A package in canonical form. -/
def State.canonical (s : State) : Bool := s.dieA.canonical && s.dieB.canonical

/-- Every waiting command is well formed. -/
def State.queueOk (s : State) : Bool := s.pending.all Instr.wf

/-- The command answers a next state with this property. -/
def Completes (i : Instr) (s : State) (P : State → Prop) : Prop := ∃ t, exec i s = .next t ∧ P t

/-- The command answers exactly this change of one die: the other die and the queue stay. -/
def Changes (i : Instr) (s : State) (d : DieId) (f : Die → Die) : Prop := exec i s = .next (s.setDie d (f (s.die d)))

/-- A command that acts in domain `m` of a die: while the domain runs it answers exactly this change of the die, and while the
domain stands still it changes nothing (R26, R451). -/
def ChangesIn (m : Dom) (i : Instr) (s : State) (d : DieId) (f : Die → Die) : Prop :=
  ((s.die d).runs m = true → Changes i s d f) ∧ ((s.die d).runs m = false → exec i s = .next s)

/-- Such a command whose next state has this property. -/
def CompletesIn (d : DieId) (m : Dom) (i : Instr) (s : State) (P : State → Prop) : Prop :=
  ((s.die d).runs m = true → Completes i s P) ∧ ((s.die d).runs m = false → exec i s = .next s)

/-- The write of `v` to register address `a`, in domain `m`, which stands still: while CTL runs it waits in the buffer of its
block and domain, or stalls on the crossbar while that holds another (R26, R30), as the write of no master (the model's choice:
assumption log 252); with CTL stopped too it changes nothing. -/
def Waits (m : Dom) (a : Nat) (v : Word) (i : Instr) (s : State) (d : DieId) : Prop :=
  let p : Posted := ⟨a / 0x1000 % 0x20, m, 7, a, v, false⟩
  (s.die d).runs m = false →
    ((s.die d).runs .ctl = true → Changes i s d fun e =>
      if e.posted.any (fun q => q.blk == p.blk && q.dom == p.dom) then { e with stalled := e.stalled ++ [p] }
      else { e with posted := e.posted ++ [p] }) ∧
    ((s.die d).runs .ctl = false → exec i s = .next s)

/-- A command that writes a register: while the register's domain runs it answers exactly this change of the die, and while the
domain stands still the write waits. -/
def Writes (m : Dom) (a : Nat) (v : Word) (i : Instr) (s : State) (d : DieId) (f : Die → Die) : Prop :=
  ((s.die d).runs m = true → Changes i s d f) ∧ Waits m a v i s d

/-- Such a command whose next state has this property. -/
def WritesTo (m : Dom) (a : Nat) (v : Word) (i : Instr) (s : State) (d : DieId) (P : State → Prop) : Prop :=
  ((s.die d).runs m = true → Completes i s P) ∧ Waits m a v i s d

/-- A command of ENG that answers exactly this change of one course. -/
def ChangesCourse (i : Instr) (s : State) (d : DieId) (c : Fin 28) (f : Course → Course) : Prop :=
  ChangesIn .eng i s d fun e => e.setCourse c (f (e.course c))

/-- An operation of a course's bundle: in a cycle in which the course issues, the command answers exactly this change of
its die; in any other (after the issue stop of R90, and from an uncorrectable bundle, R123) it changes nothing. -/
def Issues (i : Instr) (s : State) (d : DieId) (c : Fin 28) (f : Die → Die) : Prop :=
  ((s.die d).issues c = true → Changes i s d f) ∧ ((s.die d).issues c = false → exec i s = .next s)

/-- Such an operation whose next state has this property. -/
def IssuesTo (i : Instr) (s : State) (d : DieId) (c : Fin 28) (P : State → Prop) : Prop :=
  ((s.die d).issues c = true → Completes i s P) ∧ ((s.die d).issues c = false → exec i s = .next s)

/-- Such an operation whose change lies in its course. -/
def IssuesCourse (i : Instr) (s : State) (d : DieId) (c : Fin 28) (f : Course → Course) : Prop :=
  Issues i s d c fun e => e.setCourse c (f (e.course c))

/-- The course holds one operation more in flight: `w`, written at the end of the `k`th issue cycle from its own. -/
def Course.plus (x : Course) (k : Nat) (w : Wb) : Course := { x with flight := x.flight ++ [(k, w)] }

/-- The halfword at `a` can be fetched by core `n`: in its own bank, let through by PMP, with good check bits. -/
def Die.fetchable (e : Die) (n : Fin 4) (a : Word) : Bool := !e.fetchDenied n a && e.mem.mark a.toNat == 0

/-- Core `n` issues an instruction of 2 or 4 bytes: CTL and the core run, the core does not wait, no write of it stalls, and
the halfwords can be fetched. -/
def Die.coreIssues (e : Die) (n : Fin 4) (comp : Bool) : Bool :=
  e.runs .ctl && e.bitAt F.XBR_CORECTL_RUN n.val && !(e.core n).waiting && !e.stalls (BitVec.ofNat 3 n.val)
    && e.fetchable n (e.core n).pc && (comp || e.fetchable n ((e.core n).pc + 2))

/-- What taking an exception or interrupt leaves in a core: the pc saved, its cause and value, machine mode with interrupts
off, and the general registers as they were. -/
def Cpu.Trapped (c c' : Cpu) (cause : Nat) (tval : Word) : Prop :=
  c'.mepc = c.pc ∧ c'.mcause = BitVec.ofNat 32 cause ∧ c'.mtval = tval ∧ c'.mpie = c.mie ∧ c'.mie = false ∧
    c'.mppUser = c.user ∧ c'.user = false ∧ c'.x = c.x ∧ c'.mtvec = c.mtvec ∧ c'.minstret = c.minstret

/-- A command of core `n` has changed nothing but that core. -/
def State.OnlyCore (s t : State) (d : DieId) (n : Fin 4) : Prop :=
  (t.die d).regs = (s.die d).regs ∧ (t.die d).mem = (s.die d).mem ∧ (t.die d).eng = (s.die d).eng ∧
    (∀ k : Fin 4, k ≠ n → (t.die d).core k = (s.die d).core k) ∧ t.die d.other = s.die d.other ∧ t.pending = s.pending

end Sys2Proof.Machine
end

