-- ==== Sys2Proof/Certificates/Slice0/Obligations.lean ====
section
/-! DEFINITION. The statements about this model that the provers answer. -/

open Sys2Proof Sys2Proof.Machine

/-- R55: MPY, MAC, MSU, ALOD, ACLR, ACPY and AADD each put one accumulator result in flight for three issue cycles,
from the Q registers and accumulators as they stand at the start of the cycle; the dual forms put two. Nothing else
changes. Completed here: MPY, MAC, MSU, ALOD, ACLR, ACPY, AADD, DMPY, DMAC, DMSU. -/
def Obligations.MultiplyOperationsIssue : Prop :=
  ∀ (d : DieId) (c : Fin 28) (acc : Bool) (ma mb : BitVec 4) (msh : BitVec 2) (s : State),
    (IssuesCourse (.mpy d c acc ma mb msh) s d c fun x => x.issueAcc acc (Vector.ofFn fun (l : Fin 8) =>
        accLoad ((x.qrow ma)[l].toInt * (x.qrow mb)[l].toInt * mshFactor msh))) ∧
    (IssuesCourse (.mac d c acc ma mb msh) s d c fun x => x.issueAcc acc (Vector.ofFn fun (l : Fin 8) =>
        accAdd (x.latest acc)[l] ((x.qrow ma)[l].toInt * (x.qrow mb)[l].toInt * mshFactor msh) 0)) ∧
    (IssuesCourse (.msu d c acc ma mb msh) s d c fun x => x.issueAcc acc (Vector.ofFn fun (l : Fin 8) =>
        accAdd (x.latest acc)[l] (-((x.qrow ma)[l].toInt * (x.qrow mb)[l].toInt * mshFactor msh)) 0)) ∧
    (IssuesCourse (.alod d c acc ma) s d c fun x => x.issueAcc acc (Vector.ofFn fun (l : Fin 8) =>
        accLoad ((x.qrow ma)[l].toInt * 2 ^ 27))) ∧
    (IssuesCourse (.aclr d c acc) s d c fun x => x.issueAcc acc (Vector.ofFn fun (_ : Fin 8) => accLoad 0)) ∧
    (IssuesCourse (.acpy d c acc) s d c fun x => x.issueAcc acc (x.accs !acc)) ∧
    (IssuesCourse (.aadd d c acc) s d c fun x => x.issueAcc acc (Vector.ofFn fun (l : Fin 8) =>
        accAdd (x.latest acc)[l] (x.accs !acc)[l].ac.toInt (x.accs !acc)[l].awc.toInt)) ∧
    (IssuesCourse (.dmpy d c ma mb msh) s d c fun x =>
      (x.issueAcc false (Vector.ofFn fun (l : Fin 8) =>
        accLoad (stoneHi (x.qrow ma)[l] * stoneHi (x.qrow mb)[l] * 2 ^ 28 * mshFactor msh))).issueAcc true
          (Vector.ofFn fun (l : Fin 8) =>
        accLoad (stoneLo (x.qrow ma)[l] * stoneLo (x.qrow mb)[l] * 2 ^ 28 * mshFactor msh))) ∧
    (IssuesCourse (.dmac d c ma mb msh) s d c fun x =>
      (x.issueAcc false (Vector.ofFn fun (l : Fin 8) => accAdd (x.latest false)[l]
        (stoneHi (x.qrow ma)[l] * stoneHi (x.qrow mb)[l] * 2 ^ 28 * mshFactor msh) 0)).issueAcc true
          (Vector.ofFn fun (l : Fin 8) => accAdd (x.latest true)[l]
        (stoneLo (x.qrow ma)[l] * stoneLo (x.qrow mb)[l] * 2 ^ 28 * mshFactor msh) 0)) ∧
    (IssuesCourse (.dmsu d c ma mb msh) s d c fun x =>
      (x.issueAcc false (Vector.ofFn fun (l : Fin 8) => accAdd (x.latest false)[l]
        (-(stoneHi (x.qrow ma)[l] * stoneHi (x.qrow mb)[l] * 2 ^ 28 * mshFactor msh)) 0)).issueAcc true
          (Vector.ofFn fun (l : Fin 8) => accAdd (x.latest true)[l]
        (-(stoneLo (x.qrow ma)[l] * stoneLo (x.qrow mb)[l] * 2 ^ 28 * mshFactor msh)) 0))

/-- R81: while no wrap count is pinned, an accumulator and its wrap count together hold the exact sum: one addition
adds exactly its term. R82: a wrap count that stands at +3 or -3 stays there through every accumulation. -/
def Obligations.AccumulationIsExactUntilPinned : Prop :=
  (∀ (a : AccVal) (x : Int), -(2 ^ 69) ≤ x → x < 2 ^ 69 → a.awc.toInt.natAbs < 3 → a.awc.toInt + wrapOf (a.ac.toInt + x) ≤ 3 →
     -3 ≤ a.awc.toInt + wrapOf (a.ac.toInt + x) →
     (accAdd a x 0).awc.toInt * 2 ^ 70 + (accAdd a x 0).ac.toInt = a.awc.toInt * 2 ^ 70 + a.ac.toInt + x) ∧
  (∀ (a : AccVal) (x more : Int), a.awc.toInt = 3 ∨ a.awc.toInt = -3 → (accAdd a x more).awc = a.awc)

/-- R56, R57, R86: the ALU operations of one or two Q registers put one Q result in flight for one issue cycle,
computed in each lane; the saturating ones clamp to the quarter's range. Nothing else changes. Completed here: MOV,
LDI, ADD, SUB, ADDW, SUBW, NEG, ABS, MIN, MAX, AND, OR, XOR, SHL, SHRA, SHRL, DADD, DSUB. -/
def Obligations.AluOperationsIssue : Prop :=
  ∀ (d : DieId) (c : Fin 28) (qd qs qt : BitVec 4) (sh : BitVec 5) (imm : Quarter) (s : State),
    let two (i : Instr) (f : Quarter → Quarter → Quarter) : Prop :=
      IssuesCourse i s d c fun x => x.plus 1 (.q .alu qd (Vector.ofFn fun (l : Fin 8) => f (x.qrow qs)[l] (x.qrow qt)[l]))
    let one (i : Instr) (f : Quarter → Quarter) : Prop :=
      IssuesCourse i s d c fun x => x.plus 1 (.q .alu qd ((x.qrow qs).map f))
    one (.mov d c qd qs) id ∧
    IssuesCourse (.ldi d c qd imm) s d c (fun x => x.plus 1 (.q .alu qd (Vector.replicate 8 imm))) ∧
    two (.addOp d c qd qs qt) (fun a b => satQ (a.toInt + b.toInt)) ∧
    two (.subOp d c qd qs qt) (fun a b => satQ (a.toInt - b.toInt)) ∧
    two (.addw d c qd qs qt) (fun a b => a + b) ∧
    two (.subw d c qd qs qt) (fun a b => a - b) ∧
    one (.negOp d c qd qs) (fun a => satQ (-a.toInt)) ∧
    one (.absOp d c qd qs) (fun a => satQ (if a.toInt < 0 then -a.toInt else a.toInt)) ∧
    two (.minOp d c qd qs qt) (fun a b => if b.toInt < a.toInt then b else a) ∧
    two (.maxOp d c qd qs qt) (fun a b => if a.toInt < b.toInt then b else a) ∧
    two (.andOp d c qd qs qt) (fun a b => a &&& b) ∧
    two (.orOp d c qd qs qt) (fun a b => a ||| b) ∧
    two (.xorOp d c qd qs qt) (fun a b => a ^^^ b) ∧
    one (.shl d c qd qs sh) (fun a => satQ (a.toInt * 2 ^ min sh.toNat 28)) ∧
    one (.shra d c qd qs sh) (fun a => BitVec.ofInt 28 (a.toInt / 2 ^ min sh.toNat 28)) ∧
    one (.shrl d c qd qs sh) (fun a => BitVec.ofNat 28 (a.toNat / 2 ^ min sh.toNat 28)) ∧
    two (.dadd d c qd qs qt) (fun a b => ofStones (satStone (stoneHi a + stoneHi b)) (satStone (stoneLo a + stoneLo b))) ∧
    two (.dsub d c qd qs qt) (fun a b => ofStones (satStone (stoneHi a - stoneHi b)) (satStone (stoneLo a - stoneLo b)))

/-- R57: a shift count from 28 to 31 acts as 28: SHL saturates any value that is not zero, SHRA gives 0 or −2^−27 by
the sign, and SHRL gives 0; the answer is that of the count 28. Nothing else changes than that the result is put in
flight. -/
def Obligations.ShiftCountsFrom28 : Prop :=
  ∀ (d : DieId) (c : Fin 28) (qd qs : BitVec 4) (sh : BitVec 5) (s : State), 28 ≤ sh.toNat →
    exec (.shl d c qd qs sh) s = exec (.shl d c qd qs 28) s ∧ exec (.shra d c qd qs sh) s = exec (.shra d c qd qs 28) s ∧
    exec (.shrl d c qd qs sh) s = exec (.shrl d c qd qs 28) s ∧
    IssuesCourse (.shl d c qd qs sh) s d c (fun x => x.plus 1 (.q .alu qd ((x.qrow qs).map fun a =>
      if a = 0 then 0 else if a.toInt < 0 then BitVec.ofInt 28 (-(2 ^ 27)) else BitVec.ofInt 28 (2 ^ 27 - 1)))) ∧
    IssuesCourse (.shra d c qd qs sh) s d c (fun x => x.plus 1 (.q .alu qd ((x.qrow qs).map fun a =>
      if a.toInt < 0 then BitVec.ofInt 28 (-1) else 0))) ∧
    IssuesCourse (.shrl d c qd qs sh) s d c (fun x => x.plus 1 (.q .alu qd (Vector.replicate 8 0)))

/-- R56, R58, R87, R501: comparison, selection, lane moves, searches, course registers and accumulator parts put their
writes in flight, for the cycles R65 gives them; ARS of an accumulator part replaces the latest value issued to it.
Nothing else changes. R90, R123: a course that issues no operation in its cycle changes nothing. Completed here:
CMPLT, CMPEQ, SEL, MINX, MAXX, SRES, LANE, ROT, MFS, MTS, MTSI, ASV, ARS, CLRO. -/
def Obligations.OtherAluOperationsIssue : Prop :=
  ∀ (d : DieId) (c : Fin 28) (acc : Bool) (qd qs qt qi : BitVec 4) (sel idx : BitVec 5) (k : Fin 8) (imm : Quarter)
    (hi : BitVec 4) (part : Bool) (ap : BitVec 2) (s : State),
    (IssuesCourse (.cmplt d c qs qt) s d c fun x => x.plus 1 (.cmp
      (Vector.ofFn fun (l : Fin 8) => decide ((x.qrow qs)[l].toInt < (x.qrow qt)[l].toInt))
      (some (Vector.ofFn fun (l : Fin 8) => decide ((x.qrow qs)[l].toInt < (x.qrow qt)[l].toInt),
        Vector.ofFn fun (l : Fin 8) => decide ((x.qrow qs)[l] = (x.qrow qt)[l]))))) ∧
    (IssuesCourse (.cmpeq d c qs qt) s d c fun x => x.plus 1 (.cmp
      (Vector.ofFn fun (l : Fin 8) => decide ((x.qrow qs)[l] = (x.qrow qt)[l])) none)) ∧
    (IssuesCourse (.sel d c qd qs qt) s d c fun x => x.plus 1 (.q .alu qd (Vector.ofFn fun (l : Fin 8) =>
      if x.bricks[l].f then (x.qrow qs)[l] else (x.qrow qt)[l]))) ∧
    (IssuesCourse (.minx d c qs sel) s d c fun x =>
      x.plus 4 (.search false (natBit sel.toNat 0) (bitsOf sel.toNat 1 3 + 1) (x.qrow qs))) ∧
    (IssuesCourse (.maxx d c qs sel) s d c fun x =>
      x.plus 4 (.search true (natBit sel.toNat 0) (bitsOf sel.toNat 1 3 + 1) (x.qrow qs))) ∧
    (IssuesCourse (.sres d c qd qi) s d c fun x =>
      (x.plus 1 (.q .alu qd (Vector.replicate 8 x.search.sv))).plus 1
        (.q .alu qi (Vector.replicate 8 (BitVec.ofNat 28 x.search.si.toNat)))) ∧
    (IssuesCourse (.lane d c qd qs k) s d c fun x => x.plus 1 (.q .alu qd (Vector.replicate 8 (x.qrow qs)[k]))) ∧
    (IssuesCourse (.rot d c qd qs k) s d c fun x =>
      x.plus 1 (.q .alu qd (Vector.ofFn fun (l : Fin 8) => (x.qrow qs)[l + k]))) ∧
    (IssuesCourse (.mfs d c qd idx part) s d c fun x => x.plus 1 (.q .alu qd (Vector.replicate 8 (x.creg idx part)))) ∧
    (IssuesCourse (.mts d c idx qs hi) s d c fun x => x.plus 1 (.creg idx (x.qrow qs)[0] hi)) ∧
    (IssuesCourse (.mtsi d c idx imm hi) s d c fun x => x.plus 1 (.creg idx imm hi)) ∧
    (IssuesCourse (.asv d c acc qd ap) s d c fun x => x.plus 1 (.q .alu qd (x.bricks.map (·.part acc ap)))) ∧
    (ap ≠ 2 → ap ≠ 3 → IssuesCourse (.ars d c acc qs ap) s d c fun x => x.issueAcc acc (Vector.ofFn fun (l : Fin 8) =>
      (x.latest acc)[l].withPart ap (x.qrow qs)[l])) ∧
    (ap = 2 → IssuesCourse (.ars d c acc qs ap) s d c fun x => (x.issueAcc acc (Vector.ofFn fun (l : Fin 8) =>
      (x.latest acc)[l].withPart ap (x.qrow qs)[l])).plus 3 (.aovSet acc ((x.qrow qs).map fun v => natBit v.toNat 27))) ∧
    (ap = 3 → IssuesCourse (.ars d c acc qs ap) s d c fun x =>
      x.plus 3 (.bs ((x.qrow qs).map fun v => BitVec.ofNat 6 v.toNat))) ∧
    (IssuesCourse (.clro d c) s d c fun x => x.plus 1 .clro)

/-- R83, R85, R86: STA and DSTA put the stored quarter and the lanes' saturation in flight for two issue cycles; round
mode 0b11 steps the dither register 32 times for each store, and any other mode leaves it. Nothing else changes.
Completed here: STA, DSTA. -/
def Obligations.StoreOperationsIssue : Prop :=
  ∀ (d : DieId) (c : Fin 28) (acc : Bool) (qd : BitVec 4) (sh : BitVec 5) (width mode : BitVec 2) (s : State),
    IssuesTo (.sta d c acc qd sh width mode) s d c (fun t => ∃ (v : Row) (q : Vector Bool 8) (l : Vector (BitVec 32) 8),
      t = s.setDie d ((s.die d).setCourse c
        (({ (s.die d).course c with bricks := Vector.ofFn fun (k : Fin 8) =>
            { ((s.die d).course c).bricks[k] with lfsr := l[k] } }.plus 2 (.q .store qd v)).plus 2 (.qsat q))) ∧
      ∀ k : Fin 8, l[k] = (if mode = 3 then lfsrSteps 32 ((s.die d).course c).bricks[k].lfsr
          else ((s.die d).course c).bricks[k].lfsr) ∧
        (v[k], q[k]) =
          let b := ((s.die d).course c).bricks[k]
          let r := storeAcc (b.acc acc).ac (b.acc acc).awc sh.toInt (28 - 4 * width.toNat) mode
            (if mode = 3 then ditherOf l[k] else 0)
          (BitVec.ofInt 28 (r.1 * 2 ^ (4 * width.toNat)), r.2)) ∧
    IssuesTo (.dsta d c qd sh mode) s d c (fun t => ∃ (v : Row) (q : Vector Bool 8) (l : Vector (BitVec 32) 8),
      t = s.setDie d ((s.die d).setCourse c
        (({ (s.die d).course c with bricks := Vector.ofFn fun (k : Fin 8) =>
            { ((s.die d).course c).bricks[k] with lfsr := l[k] } }.plus 2 (.q .store qd v)).plus 2 (.qsat q))) ∧
      ∀ k : Fin 8, l[k] = (if mode = 3 then lfsrSteps 32 (lfsrSteps 32 ((s.die d).course c).bricks[k].lfsr)
          else ((s.die d).course c).bricks[k].lfsr) ∧
        (v[k], q[k]) =
          let b := ((s.die d).course c).bricks[k]
          let h := storeAcc b.ac0 b.awc0 sh.toInt 14 mode (if mode = 3 then ditherOf (lfsrSteps 32 b.lfsr) else 0)
          let g := storeAcc b.ac1 b.awc1 sh.toInt 14 mode (if mode = 3 then ditherOf l[k] else 0)
          (ofStones h.1 g.1, h.2 || g.2))

/-- R56: a saturated quarter is the exact value where that lies in the range, and the nearer end of the range where
not. R83, R84: a stored value lies in the range of its width, whatever the accumulator, shift, width and dither; and
it saturates wherever the wrap count is not zero. R84: a store with no wrap rounds the exact value, with the dither
added under mode 0b11, to the width's LSB: to the nearest with ties toward +∞ under 0b00 and 0b11, to the nearest with
ties to even under 0b01, and toward −∞ under 0b10; then it saturates. -/
def Obligations.StoredValuesSaturate : Prop :=
  (∀ v : Int, (-(2 ^ 27) ≤ v → v < 2 ^ 27 → (satQ v).toInt = v) ∧ (2 ^ 27 ≤ v → (satQ v).toInt = 2 ^ 27 - 1) ∧
     (v < -(2 ^ 27) → (satQ v).toInt = -(2 ^ 27))) ∧
  (∀ (ac : BitVec 70) (awc : BitVec 3) (sh : Int) (w : Nat) (mode : BitVec 2) (di : Int), 1 ≤ w →
     -(2 ^ (w - 1)) ≤ (storeAcc ac awc sh w mode di).1 ∧ (storeAcc ac awc sh w mode di).1 < 2 ^ (w - 1) ∧
     (0 < awc.toInt → storeAcc ac awc sh w mode di = (2 ^ (w - 1) - 1, true)) ∧
     (awc.toInt < 0 → storeAcc ac awc sh w mode di = (-(2 ^ (w - 1)), true))) ∧
  ((∀ (x : Int) (e : Nat) (mode : BitVec 2),
     let v := roundMode x e mode
     (mode = 0 ∨ mode = 3 → 2 * v * 2 ^ e - 2 ^ e ≤ 2 * x ∧ 2 * x < 2 * v * 2 ^ e + 2 ^ e) ∧
     (mode = 1 → 2 * v * 2 ^ e - 2 ^ e ≤ 2 * x ∧ 2 * x ≤ 2 * v * 2 ^ e + 2 ^ e ∧
       (2 * x = 2 * v * 2 ^ e - 2 ^ e ∨ 2 * x = 2 * v * 2 ^ e + 2 ^ e → v % 2 = 0)) ∧
     (mode = 2 → v * 2 ^ e ≤ x ∧ x < v * 2 ^ e + 2 ^ e)) ∧
   (∀ (ac : BitVec 70) (sh : BitVec 5) (w : Nat) (mode : BitVec 2) (di : Int), 1 ≤ w → w ≤ 28 →
     let e := (55 + sh.toInt - w).toNat
     let v := roundMode (ac.toInt * 4096 + di * 2 ^ e) (e + 12) mode
     (storeAcc ac 0 sh.toInt w mode di).1 = max (-(2 ^ (w - 1))) (min (2 ^ (w - 1) - 1) v) ∧
     ((storeAcc ac 0 sh.toInt w mode di).2 = true ↔ v < -(2 ^ (w - 1)) ∨ 2 ^ (w - 1) - 1 < v)))

/-- R60: of the writes of one Q register that fall due in one cycle, the register keeps the one highest in the order
ALU or store result, yard row load, X load, Y load, Z load; after SRES with one register for both outputs it holds the
index. While the domain a command acts in stands still it changes nothing (a reading of R26 and R451: assumption log
230). -/
def Obligations.WritebackKeepsTheHighest : Prop :=
  let rank : QSrc → Nat := fun k => match k with
    | .z => 0
    | .y => 1
    | .x => 2
    | .yard => 3
    | .store => 4
    | .alu => 4
  (∀ (d : DieId) (c : Fin 28) (k : QSrc) (q : BitVec 4) (r : Row) (s : State),
    ((s.die d).course c).stalled = none → ((s.die d).course c).overhead = false ∨ (s.die d).eng.stopped = true →
    (1, Wb.q k q r) ∈ ((s.die d).course c).flight →
    (∀ (n : Nat) (k' : QSrc) (r' : Row), (n, Wb.q k' q r') ∈ ((s.die d).course c).flight → n ≤ 1 →
      (k' = k ∧ r' = r) ∨ rank k' < rank k) →
    CompletesIn d .eng (.operationWriteback d c) s fun t => ((t.die d).course c).qrow q = r) ∧
  (∀ (d : DieId) (c : Fin 28) (q : BitVec 4) (s : State),
    (s.die d).issues c = true → ((s.die d).course c).stalled = none → ((s.die d).course c).overhead = false →
    ((s.die d).course c).flight = [] → Completes (.sres d c q q) s fun t => CompletesIn d .eng (.operationWriteback d c) t fun u =>
      ((u.die d).course c).qrow q = Vector.replicate 8 (BitVec.ofNat 28 ((s.die d).course c).search.si.toNat))

/-- R61, R62: a lane load puts the row its generator addresses in flight, a broadcast load the one quarter of it in
every lane, for three issue cycles, with zeros for an uncorrectable pair; a space its bus has not gives zeros and sets
BUSERR. The generator's post-update follows. No tile, brick or other course changes. Completed here: LANE_LOAD,
BROADCAST_LOAD. -/
def Obligations.BusLoadsIssue : Prop :=
  ∀ (d : DieId) (c : Fin 28) (b : BusId) (g : Fin 4) (up : BitVec 2) (q : BitVec 4) (err : RowErr) (s : State),
    let e := s.die d
    let x := e.course c
    let v := (x.ag b g).toNat
    (∀ t rows : Nat, loadSpace b (v / 4096) = some (t, rows) →
      let put (row : Nat) (cast : Bool) (u : State) : Prop :=
        let m := addMarks (SMap.get markDflt x.bad (tileKey t row)) err
        let r := eccRow m (x.tileRow t row)
        let r := if cast then Vector.replicate 8 (r[v % 8]'(Nat.mod_lt _ (by decide))) else r
        ∃ bad sbe dbe fixes,
          (u.die d).course c = ({ x with bad := bad, sbe := sbe, dbe := dbe, fixes := fixes }.plus 3
            (.q (loadSrc b) q r)).postBus b g up ∧
          (∀ k : Fin 28, k ≠ c → (u.die d).course k = e.course k) ∧ (u.die d).yard = e.yard ∧ u.die d.other = s.die d.other
      IssuesTo (.laneLoad d c b g up q err) s d c (put (v % 4096 % rows) false) ∧
      IssuesTo (.broadcastLoad d c b g up q err) s d c (put (v % 4096 / 8 % rows) true)) ∧
    (loadSpace b (v / 4096) = none →
      Issues (.laneLoad d c b g up q err) s d c (fun e => (e.setFld (F.ENG_C_STAT_BUSERR c) 1).setCourse c
        ((x.plus 3 (.q (loadSrc b) q Row.zero)).postBus b g up)) ∧
      Issues (.broadcastLoad d c b g up q err) s d c (fun e => (e.setFld (F.ENG_C_STAT_BUSERR c) 1).setCourse c
        ((x.plus 3 (.q (loadSrc b) q Row.zero)).postBus b g up)))

/-- R61, R62, R97: a bus store puts the Q register's row in flight for its tile, or for the next seat's inbound ring
tile while the course holds a seat and is not in shadow; a space its bus cannot store sets BUSERR, and the Z bus,
which has no store, SEQERR. The post-update of an X or Y generator follows. Stated for a course whose stores are not
being compared. Completed here: TILE_STORE, RING_STORE. -/
def Obligations.BusStoresIssue : Prop :=
  ∀ (d : DieId) (c : Fin 28) (g : Fin 4) (up : BitVec 2) (q : BitVec 4) (s : State),
    let e := s.die d
    let x := e.course c
    let r := x.qrow q
    let sto (b : BusId) (rec : StoreRec) (k : Nat) (w : Wb) : Course :=
      ({ x with stores := x.stores ++ [rec] }.plus k w).postBus b g up
    e.migPhase (wallOf c) ≠ Mig.verify →
    (x.xa[g].toNat / 4096 = 0 → IssuesCourse (.tileStore d c .x g up q) s d c fun x =>
      sto .x (.tile .x (x.xa[g].toNat % 4096 % 512) r) 1 (.tile .x (x.xa[g].toNat % 4096 % 512) r)) ∧
    (x.xa[g].toNat / 4096 ≠ 0 → Issues (.tileStore d c .x g up q) s d c fun e =>
      (e.setFld (F.ENG_C_STAT_BUSERR c) 1).setCourse c (x.postBus .x g up)) ∧
    (x.ya[g].toNat / 4096 = 0 → IssuesCourse (.tileStore d c .y g up q) s d c fun x =>
      sto .y (.tile .y (x.ya[g].toNat % 4096 % 512) r) 1 (.tile .y (x.ya[g].toNat % 4096 % 512) r)) ∧
    (x.ya[g].toNat / 4096 = 1 → IssuesCourse (.tileStore d c .y g up q) s d c fun x =>
      sto .y (.tile .exit (x.ya[g].toNat % 4096 % 64) r) 1 (.tile .exit (x.ya[g].toNat % 4096 % 64) r)) ∧
    (∀ seat : Fin 24, x.ya[g].toNat / 4096 = 2 → e.isShadow c = false → e.courseSeat c = some seat →
      (IssuesCourse (.ringStore d c g up q) s d c fun x =>
        sto .y (.ring (x.ya[g].toNat % 4096 % 64) r) 2 (.ring (nextSeat seat) (x.ya[g].toNat % 4096 % 64) r)) ∧
      (IssuesCourse (.tileStore d c .y g up q) s d c fun x =>
        sto .y (.ring (x.ya[g].toNat % 4096 % 64) r) 2 (.ring (nextSeat seat) (x.ya[g].toNat % 4096 % 64) r))) ∧
    (3 ≤ x.ya[g].toNat / 4096 → Issues (.tileStore d c .y g up q) s d c fun e =>
      (e.setFld (F.ENG_C_STAT_BUSERR c) 1).setCourse c (x.postBus .y g up)) ∧
    (Issues (.tileStore d c .z g up q) s d c fun e => e.setFld (F.ENG_C_STAT_SEQERR c) 1)

/-- R64, R65, R117, R128: a granted yard row load puts the stored row in flight for six issue cycles, and a store
writes the row; the pointer's post-update follows, and the bank's grant is used. Stated for a good row in a wall that
is ON, outside a remap, a background test and a state copy, a ring that is not SMOOTH and whose length the offset does
not pass, and a course whose stores are not being compared. Completed here: YARD_ROW_LOAD, YARD_ROW_STORE. -/
def Obligations.YardAccessesGranted : Prop :=
  ∀ (d : DieId) (c : Fin 28) (g : Fin 4) (up : BitVec 2) (q : BitVec 4) (row : BitVec 22) (rg : Option Nat) (s : State),
    let e := s.die d
    let x := e.course c
    let key := e.yard.key row
    let used (y : Yard) : Yard := { y with
      grants := y.grants.set (bankOf row).val (y.grants[bankOf row].map fun _ => none) }
    e.isShadow c = false → e.shadowOf c = none → e.yardRow c g = some (row, rg) →
    (∀ n, rg = some n → (e.yard.ring n).frontSmooth = false) → e.ringClamp c g = e → e.wallOn (bankOf row).val = true →
    e.granted (bankOf row) (e.asks c) = true → e.yard.borrowed key = none → e.yard.unwritten = false →
    e.migPhase (wallOf c) ≠ Mig.verify → e.fld (F.YRD_REMAP_PHASE (bankOf row)) = 0 → SMap.get markDflt e.yard.bad key = 0 →
    (Issues (.yardRowLoad d c g up q []) s d c fun e => (e.updYard used).setCourse c
      ((({ x with stalled := none, lastYard := some (x.ticks, SMap.get rowDflt e.yard.rows key) }).plus 6
        (.q .yard q (SMap.get rowDflt e.yard.rows key))).postYard g up)) ∧
    (Issues (.yardRowStore d c g up q) s d c fun e => (e.updYard fun y => { used y with
        bad := SMap.set markDflt y.bad key 0
        fixes := y.fixes.filter (· ≠ key)
        rows := SMap.set rowDflt y.rows key (x.qrow q) }).setCourse c
      (({ x with stores := x.stores ++ [StoreRec.yard row (x.qrow q)], stalled := none }).postYard
        g up))

/-- R66, R104, R128: a yard access that its bank does not grant stalls the course, which keeps everything else; a wall
that is not ON, and a ring-mode pointer without a ring, give zeros to a load, drop a store, and set BUSERR. A stalled
load that is retried and granted delivers its row; with nothing stalled there is nothing to retry. R132: the second
access of a load from a SMOOTH ring that is not fading delivers the row of the first access. R109: a load of a course
in shadow takes the row that the source's load of the same cycle took, and waits for it; its store goes nowhere. While
the domain a command acts in stands still it changes nothing (a reading of R26 and R451: assumption log 230).
Completed here: RING_SECOND_ACCESS, YARD_STALL_RETRY. -/
def Obligations.YardAccessesWait : Prop :=
  (∀ (d : DieId) (c : Fin 28) (g : Fin 4) (up : BitVec 2) (q : BitVec 4) (err : RowErr) (s : State),
     let e := s.die d
     let x := e.course c
     (e.isShadow c = false → e.shadowOf c = none →
       (∀ (row : BitVec 22) (rg : Option Nat), e.yardRow c g = some (row, rg) → e.wallOn (bankOf row).val = true →
         e.granted (bankOf row) (e.asks c) = false →
         (IssuesCourse (.yardRowLoad d c g up q err) s d c fun x => { x with
           stalled := some ⟨false, g, up, q, none, Row.zero, err⟩
           stalls := x.stalls + 1 }) ∧
         (IssuesCourse (.yardRowStore d c g up q) s d c fun x => { x with
           stalled := some ⟨true, g, up, q, none, x.qrow q, []⟩
           stores := x.stores ++ [.yard row (x.qrow q)]
           stalls := x.stalls + 1 })) ∧
       ((∀ (row : BitVec 22) (rg : Option Nat), e.yardRow c g = some (row, rg) → e.wallOn (bankOf row).val = false) →
         (Issues (.yardRowLoad d c g up q err) s d c fun e => (e.setFld (F.ENG_C_STAT_BUSERR c) 1).setCourse c
           ((({ x with stalled := none, lastYard := some (x.ticks, Row.zero) }).plus 6 (.q .yard q Row.zero)).postYard g up)) ∧
         (Issues (.yardRowStore d c g up q) s d c fun e => (e.setFld (F.ENG_C_STAT_BUSERR c) 1).setCourse c
           ({ x with stalled := none }.postYard g up))) ∧
       (∀ (a : YardAcc) (row : BitVec 22) (rg : Option Nat), x.stalled = some a → a.second = none → a.store = false → a.ag = g →
         e.yardRow c g = some (row, rg) → (∀ n, rg = some n → (e.yard.ring n).frontSmooth = false) → e.ringClamp c g = e →
         e.wallOn (bankOf row).val = true → e.granted (bankOf row) (e.asks c) = true → e.yard.borrowed (e.yard.key row) = none →
         e.yard.unwritten = false → SMap.get markDflt e.yard.bad (e.yard.key row) = 0 →
         ChangesIn .eng (.yardStallRetry d c []) s d fun e => (e.updYard fun y => { y with
             grants := y.grants.set (bankOf row).val (y.grants[bankOf row].map fun _ => none) }).setCourse c
           ((({ x with
             now := x.eligible
             stalled := none
             lastYard := some (x.ticks, SMap.get rowDflt e.yard.rows (e.yard.key row)) }).plus 6
             (.q .yard a.q (SMap.get rowDflt e.yard.rows (e.yard.key row)))).postYard g a.up))) ∧
     (x.stalled = none → exec (.yardStallRetry d c err) s = .next s ∧ exec (.ringSecondAccess d c err) s = .next s)) ∧
  ((∀ (d : DieId) (c : Fin 28) (a : YardAcc) (first : Row) (n k : Nat) (s : State),
     let e := s.die d
     let r := e.yard.ring n
     let row := ringRow r.base r.wp r.frontLen k
     (e.course c).stalled = some a → a.second = some first → e.yardTarget c a.ag = .ring n k → r.fade = 0 →
     e.granted (bankOf row) (e.asks c) = true → e.shadowOf c = none →
     CompletesIn d .eng (.ringSecondAccess d c []) s fun t =>
       (t.die d).course c = ((({ e.course c with
           now := (e.course c).eligible
           stalled := none
           lastYard := some ((e.course c).ticks, first) }).plus 6 (.q .yard a.q first)).postYard a.ag a.up) ∧
       (∀ k' : Fin 28, k' ≠ c → (t.die d).course k' = e.course k') ∧ t.die d.other = s.die d.other) ∧
   (∀ (d : DieId) (c : Fin 28) (g : Fin 4) (up : BitVec 2) (q : BitVec 4) (row : BitVec 22) (rg : Option Nat) (s : State),
     let e := s.die d
     let x := e.course c
     let src := e.course (e.migSrc (wallOf c))
     let acc : YardAcc := ⟨false, g, up, q, none, Row.zero, []⟩
     e.isShadow c = true → e.yardRow c g = some (row, rg) → e.wallOn (bankOf row).val = true → e.migPhase (wallOf c) ≠ Mig.verify →
     (∀ r : Row, src.lastYard = some (x.ticks, r) → IssuesCourse (.yardRowLoad d c g up q []) s d c fun x =>
       (({ x with stalled := none, lastYard := some (x.ticks, r) }).plus 6 (.q .yard q r)).postYard g up) ∧
     ((∀ r : Row, src.lastYard ≠ some (x.ticks, r)) → IssuesCourse (.yardRowLoad d c g up q []) s d c fun x =>
       { x with stalled := some acc }) ∧
     (IssuesCourse (.yardRowStore d c g up q) s d c fun x =>
       ({ x with stores := x.stores ++ [StoreRec.yard row (x.qrow q)], stalled := none }).postYard g up)))

/-- R67 to R72, R74, R89: outside a delay slot and a repeat, each sequencer operation is held for the end of its
cycle; BRC goes as its condition says, a push at LD = 3 pushes nothing and sets SEQERR, as does a repeat at a loop's
end address. R69: in a delay slot, or in a bundle that is repeated, every sequencer operation but END is ignored and
sets SEQERR. (Assumption log 200: so in the delay slots of RTI too.) R65, R66: at the end of an issue cycle every
operation in flight is one cycle nearer its write; in a stall cycle the course does not change, and neither does a
shadow while its source stalls, nor a course without its clock (R102, R109, R112). The requests raised in the cycle
read as pending from then on (R74). R73: the overhead cycle of a back-edge is no issue cycle, and what is in flight
stays. (Assumption log 24: what is in flight does not move on in an overhead cycle.) While the domain a command acts
in stands still it changes nothing (a reading of R26 and R451: assumption log 230). Completed here:
OPERATION_WRITEBACK, END, BR, BRC, RPT, LOOP, LOOPX, RTI, BRK. -/
def Obligations.SequencerOperationsIssue : Prop :=
  (∀ (d : DieId) (c : Fin 28) (cycle : BitVec 15) (target count : BitVec 13) (k : BitVec 4) (len : BitVec 5) (s : State),
     let e := s.die d
     let x := e.course c
     let act (i : Instr) (a : SeqAct) : Prop := IssuesCourse i s d c fun x => { x with act := a }
     (IssuesCourse (.endKernel d c cycle) s d c fun x => { x with
       act := .end_ cycle
       endCyc := cycle
       reachedEnd := decide (cycle.toNat + 513 ≤ e.cyc) }) ∧
     (x.slots = 0 → x.rpt = false →
       act (.br d c target) (.br target) ∧
       act (.brc d c k target) (if x.cond k then .br target else .none) ∧
       ((∀ i, x.level = some i → x.levels[i].le ≠ x.pc) → act (.rpt d c count) (.rpt count)) ∧
       (∀ i, x.level = some i → x.levels[i].le = x.pc → Issues (.rpt d c count) s d c fun e =>
         (e.setFld (F.ENG_C_STAT_SEQERR c) 1).setCourse c { x with act := .rpt count }) ∧
       (x.ld ≠ 3 → act (.loop d c len count) (.loop count (x.pc + 1 + BitVec.ofNat 13 len.toNat))) ∧
       (x.ld ≠ 3 → act (.loopx d c target count) (.loop count target)) ∧
       (x.ld = 3 → Issues (.loop d c len count) s d c fun e => e.setFld (F.ENG_C_STAT_SEQERR c) 1) ∧
       (x.ld = 3 → Issues (.loopx d c target count) s d c fun e => e.setFld (F.ENG_C_STAT_SEQERR c) 1) ∧
       (x.handler ≠ some 2 ∨ e.isShadow c = true → act (.rti d c) .rti) ∧
       (x.handler = some 2 → e.isShadow c = false → Issues (.rti d c) s d c fun e =>
         (((e.setCourse c { x with act := .rti }).setFld (F.ENG_C_BELL_DONE c) 1).setBitAt F.ENG_BELLIRQ_COURSE c true)) ∧
       (IssuesCourse (.brk d c) s d c fun x => x.plus 1 .brk))) ∧
  (∀ (d : DieId) (c : Fin 28) (target count : BitVec 13) (k : BitVec 4) (len : BitVec 5) (s : State),
     let x := (s.die d).course c
     let ignored (i : Instr) : Prop := Issues i s d c fun e => e.setFld (F.ENG_C_STAT_SEQERR c) 1
     0 < x.slots ∨ x.rpt = true →
     ignored (.br d c target) ∧ ignored (.brc d c k target) ∧ ignored (.rpt d c count) ∧ ignored (.loop d c len count) ∧
     ignored (.loopx d c target count) ∧ ignored (.rti d c) ∧ ignored (.brk d c)) ∧
  (∀ (d : DieId) (c : Fin 28) (s : State),
     let x := (s.die d).course c
     let still : Prop := x.stalled ≠ none ∨ (s.die d).isShadow c = true ∧ ((s.die d).course ((s.die d).migSrc (wallOf c))).stalled ≠ none ∨
       (s.die d).clocked c = false
     let pends (t : State) : Prop := ∀ i : Fin 4, x.raised.getLsbD i.val = true → natBit ((t.die d).course c).ics.toNat (4 + i.val) = true
     let spent := x.overhead = true ∧ (s.die d).eng.stopped = false
     (¬ still → ¬ spent → CompletesIn d .eng (.operationWriteback d c) s fun t =>
       ((t.die d).course c).flight = (x.flight.filter fun w => decide (1 < w.1)).map (fun w => (w.1 - 1, w.2)) ∧
       ((t.die d).course c).taken = x.now ∧ ((t.die d).course c).now = ((t.die d).course c).eligible ∧
       ((t.die d).course c).raised = 0 ∧ pends t) ∧
     (¬ still → spent → CompletesIn d .eng (.operationWriteback d c) s fun t =>
       (∃ ics now, (t.die d).course c = { x with
         overhead := false
         ticks := x.ticks + 1
         stores := []
         taken := none
         raised := 0
         ics := ics
         now := now }) ∧ ((t.die d).course c).now = ((t.die d).course c).eligible ∧ pends t ∧
       (∀ k : Fin 9, (∀ i : Fin 4, k.val = 4 + i.val → x.raised.getLsbD i.val = false) →
         natBit ((t.die d).course c).ics.toNat k.val = natBit x.ics.toNat k.val) ∧
       (t.die d).regs = (s.die d).regs ∧ (∀ k : Fin 28, k ≠ c → (t.die d).course k = (s.die d).course k) ∧ t.die d.other = s.die d.other) ∧
     (still → ChangesIn .eng (.operationWriteback d c) s d fun e => e))

/-- R71, R72: after the bundle at the end address of the innermost loop, the loop count falls by one; the next bundle
is the loop's start while the count is not zero, and otherwise the level is popped. Stated for a loop that ends where
no outer one does, with no operation of the sequencer, repeat or delay slot in hand. While the domain a command acts
in stands still it changes nothing (a reading of R26 and R451: assumption log 230). -/
def Obligations.LoopGoesRound : Prop :=
  ∀ (d : DieId) (c : Fin 28) (i : Fin 3) (s : State),
    let x := (s.die d).course c
    x.stalled = none → (s.die d).eng.stopped = false → x.running = true → x.overhead = false → x.act = .none → x.rpt = false → x.slots = 0 →
    x.flight = [] → x.level = some i → x.levels[i].le = x.pc → (∀ j : Fin 3, j < i → x.levels[j].le ≠ x.pc) →
    (x.levels[i].lc ≠ 1 → CompletesIn d .eng (.operationWriteback d c) s fun t =>
      ((t.die d).course c).pc = x.levels[i].ls ∧ ((t.die d).course c).ld = x.ld ∧
      ((t.die d).course c).levels[i].lc = x.levels[i].lc - 1) ∧
    (x.levels[i].lc = 1 → CompletesIn d .eng (.operationWriteback d c) s fun t =>
      ((t.die d).course c).pc = x.pc + 1 ∧ ((t.die d).course c).ld = x.ld - 1)

/-- R74 to R78, R90, R109: the request of the highest priority that was eligible at the start of the last cycle is
taken at the boundary: what is in flight runs on for the four cycles of entry, IPC and IBR save the interrupted
stream, IE and its pending bit clear, and the stub of its vector is next. With HOLD set it is taken at a clean
boundary alone, and IBR saves nothing. Nothing is taken in a stall cycle, after the stop of issue, before the first
bundle after RTI, in a course without a seat or a wall that runs, or where none was eligible. In hold mode and in
shadow the course follows the HOLD of its source. R74, R90, R102, R109, R112, R114: a doorbell raises its request in a
course that has its clock, and in a spare that shadows it; in a RETIRED course and an OFF wall it raises none. From
cycle N - 8 of a frame issue is stopped and no stalled yard access is left. While the domain a command acts in stands
still it changes nothing (a reading of R26 and R451: assumption log 230). While the domain of a write it names stands
still, the write waits (R26, R30; as the write of no master: assumption log 252). Completed here: ISSUE_STOP,
COURSE_INTERRUPT_ENTRY, DOORBELL_RING. -/
def Obligations.CourseInterruptTaken : Prop :=
  (∀ (d : DieId) (c : Fin 28) (i : Fin 4) (s : State),
     let e := s.die d
     let x := e.course c
     let hold := e.bit (F.ENG_C_MODE_HOLD (e.workCourse c))
     let clean : Prop := x.slots = 0 ∧ x.rpt = false ∧ x.flight = []
     let blocked : Prop := x.stalled ≠ none ∨ (e.isShadow c = true ∧ (e.course (e.migSrc (wallOf c))).stalled ≠ none) ∨
       e.eng.stopped = true ∨ (e.workSeat c).isSome = false ∨ e.wallRuns (wallOf c) = false ∨ x.resumed = true ∨ (hold = true ∧ ¬ clean)
     let asks (j : Fin 4) : Prop := natBit x.ics.toNat (4 + j.val) = true ∧ natBit x.ics.toNat j.val = true
     (x.eligible = some i ↔ natBit x.ics.toNat 8 = true ∧ asks i ∧ ∀ j : Fin 4, j < i → ¬ asks j) ∧
     (x.taken = none → exec (.courseInterruptEntry d c) s = .next s) ∧
     (blocked → ChangesIn .eng (.courseInterruptEntry d c) s d fun e => e) ∧
     (x.taken = some i → ¬ blocked → CompletesIn d .eng (.courseInterruptEntry d c) s fun t =>
       let y := (t.die d).course c
       y.handler = some i ∧ y.pc = BitVec.ofNat 13 (0x1FE0 + 8 * i.val) ∧ y.running = true ∧ y.slots = 0 ∧ y.rpt = false ∧
       y.outer = (match x.handler with
         | some h => (h, x.idleTaken) :: x.outer
         | none => x.outer) ∧
       y.flight = (x.flight.filter fun w => decide (4 < w.1)).map (fun w => (w.1 - 4, w.2)) ∧
       ((∀ w, w ∈ x.flight → w.1 ≤ 4 → ∀ k v hi, w.2 ≠ .creg k v hi) →
         y.ipc = (if x.running then x.pc else x.endPc) ∧ y.ibr = (if hold then 0 else x.pendingState) ∧
         natBit y.ics.toNat 8 = false ∧ natBit y.ics.toNat (4 + i.val) = x.raised.getLsbD i.val ∧
         ∀ j : Fin 4, j ≠ i → natBit y.ics.toNat (4 + j.val) = (natBit x.ics.toNat (4 + j.val) || x.raised.getLsbD j.val)) ∧
       t.die d.other = s.die d.other)) ∧
  (∀ (d : DieId) (c : Fin 28) (s : State),
     let e := s.die d
     let w := wallOf c
     let shadowed : Prop := e.shadowing w = true ∧ e.migSrc w = c
     (e.clocked c = false → Writes .eng (R.ENG_C_BELL c) 1 (.doorbellRing d c) s d fun e => e) ∧
     (e.clocked c = true → ¬ shadowed → Writes .eng (R.ENG_C_BELL c) 1 (.doorbellRing d c) s d fun e =>
       e.setCourse c { e.course c with raised := (e.course c).raised ||| 4 }) ∧
     (e.clocked c = true → shadowed → e.migSpare w ≠ c → WritesTo .eng (R.ENG_C_BELL c) 1 (.doorbellRing d c) s d fun t =>
       (∀ k : Fin 28, (t.die d).course k = if k = c ∨ k = e.migSpare w then { e.course k with raised := (e.course k).raised ||| 4 }
         else e.course k) ∧
       (t.die d).regs = e.regs ∧ (t.die d).yard = e.yard ∧ t.die d.other = s.die d.other) ∧
     (ChangesIn .eng (.issueStop d) s d fun e => { e with eng := { e.eng with
       stopped := true
       courses := e.eng.courses.map fun x => { x with stalled := none } } }))

/-- R92, R115: a seat map is written while its wall is OFF, and any other write of it is ignored. R103, R106: a loss
of retention clears RET, and takes the contents of a wall that is OFF and held: its tiles and its bank's rows read
zero (assumption log 11: what the rules give no contents reads zero). (Assumption log 33: its registers read zero
too.) A measurement of wear is shown with VALID; the first one is the baseline of a part that is not life-rated, and a
baseline is kept. R108, R112, R113: GO from IDLE with a seated source and a spare takes the spare; ARM in SHADOW to
READY arms a frame that lies ahead and sets LATE for one that has begun; ABORT ends a migration from LOAD to READY and
clears FAILED; REARM in MOVED is held for the next FT. In any other phase each of them changes nothing. R95, R98, R99,
R102: in the window the sources present their values, the Mortar gathers them and the sinks take theirs. At cycle N -
512 a course that has reached END exchanges its exit copies, and its seat's overruns end; any other keeps both copies,
has its watchdog pending, and is counted: its OVRIRQ sets, TOTAL saturates at 0xFFFF and CONSEC at 7, and at CONSEC 4
its exit is zeroed. A course in shadow counts nothing. A zeroed exit, and one of a wall that is not ON, presents zero;
any other its presented copy. While the domain a command acts in stands still it changes nothing (a reading of R26 and
R451: assumption log 230). While the domain of a write it names stands still, the write waits (R26, R30; as the write
of no master: assumption log 252). Completed here: EXCHANGE_WINDOW, SEATMAP_WRITE, WALL_RETENTION_LOSS, WEAR_MEASURE,
MIGRATION_GO, MIGRATION_ARM, MIGRATION_ABORT, MIGRATION_REARM. -/
def Obligations.WallsAndMigrationAreCommanded : Prop :=
  (∀ (d : DieId) (w : Fin 4) (v : Word) (s : State),
     ((s.die d).wallState w = St.off → Writes .eng (R.ENG_SEATMAP w) v (.seatmapWrite d w v) s d fun e =>
       e.setReg (R.ENG_SEATMAP w) (v &&& 0x7F73FFFF)) ∧
     ((s.die d).wallState w ≠ St.off → Writes .eng (R.ENG_SEATMAP w) v (.seatmapWrite d w v) s d fun e => e)) ∧
  (∀ (d : DieId) (w : Fin 4) (c : Fin 28) (margin : BitVec 12) (s : State),
     ((s.die d).canonical = true → ¬ ((s.die d).wallState w = St.off ∧ (s.die d).eng.walls[w].held = true) →
       ChangesIn .keep (.wallRetentionLoss d w) s d fun e => e.setBitAt F.ENG_WCTL_RET w false) ∧
     ((s.die d).canonical = true → (s.die d).wallState w = St.off → (s.die d).eng.walls[w].held = true →
       CompletesIn d .keep (.wallRetentionLoss d w) s fun t =>
         (∀ (i : Fin 7) (k row : Nat), ((t.die d).course (courseAt w i)).tileRow k row = Row.zero) ∧
         (∀ (i : Fin 7) (a : Nat), SMap.get progDflt ((t.die d).course (courseAt w i)).prog a = endBundle) ∧
         (∀ key : Nat, key / (264 * 4096) = w.val → SMap.get rowDflt (t.die d).yard.rows key = Row.zero) ∧
         (t.die d).eng.walls[w].held = false ∧ t.die d.other = s.die d.other) ∧
     (ChangesIn .eng (.wearMeasure d c margin) s d fun e =>
       let b := e.eng.wearBase[c].getD (if Config.lifeRated then Config.factoryMargin c.val else margin)
       let e := ((e.setFld (F.ENG_C_WEAR_MARGIN c) margin.toNat).setFld (F.ENG_C_WEAR_VALID c) 1).setFld
         (F.ENG_C_WEAR_BASE c) b.toNat
       { e with eng := { e.eng with wearBase := e.eng.wearBase.set c.val (some b) c.isLt } })) ∧
  (∀ (d : DieId) (w : Fin 4) (s : State),
     let e := s.die d
     let p := e.migPhase w
     let live := p = Mig.shadow ∨ p = Mig.verify ∨ p = Mig.ready
     (∀ (i src : Fin 7), e.spareOf w = some i → e.fld (F.ENG_MIG_SRC w) = src.val → p = Mig.idle →
       (e.courseSeat (courseAt w src)).isSome = true →
       Writes .eng (R.ENG_MIG w) (e.strobe (R.ENG_MIG w) 8) (.migrationGo d w) s d fun e => e.updMig w fun m => ⟨0, [], i, src, true, 0, false, m.rest, false⟩) ∧
     (p ≠ Mig.idle → Writes .eng (R.ENG_MIG w) (e.strobe (R.ENG_MIG w) 8) (.migrationGo d w) s d fun e => e) ∧
     (live → seqAfter (e.regN (R.ENG_MIGF w)) e.seq = true → Writes .eng (R.ENG_MIG w) (e.strobe (R.ENG_MIG w) 10) (.migrationArm d w) s d fun e =>
       e.setFld (F.ENG_MIG_ARMED w) 1) ∧
     (live → seqAfter (e.regN (R.ENG_MIGF w)) e.seq = false → Writes .eng (R.ENG_MIG w) (e.strobe (R.ENG_MIG w) 10) (.migrationArm d w) s d fun e =>
       (e.setFld (F.ENG_MIG_LATE w) 1).setFld (F.ENG_MIG_ARMED w) 0) ∧
     (¬ live → Writes .eng (R.ENG_MIG w) (e.strobe (R.ENG_MIG w) 10) (.migrationArm d w) s d fun e => e) ∧
     (1 ≤ p → p ≤ 4 → Writes .eng (R.ENG_MIG w) (e.strobe (R.ENG_MIG w) 9) (.migrationAbort d w) s d fun e =>
       (e.updMig w fun m => { m with
         ending := decide (p ≠ Mig.load)
         rest := decide (p = Mig.load)
         waiting := false }).setFld (F.ENG_MIG_PHASE w) Mig.idle) ∧
     (p = Mig.failed → Writes .eng (R.ENG_MIG w) (e.strobe (R.ENG_MIG w) 9) (.migrationAbort d w) s d fun e => e.setFld (F.ENG_MIG_PHASE w) Mig.idle) ∧
     (p = Mig.idle ∨ p = Mig.moved → Writes .eng (R.ENG_MIG w) (e.strobe (R.ENG_MIG w) 9) (.migrationAbort d w) s d fun e => e) ∧
     (p = Mig.moved → Writes .eng (R.ENG_MIG w) (e.strobe (R.ENG_MIG w) 13) (.migrationRearm d w) s d fun e => e.updMig w fun m => { m with rearm := true }) ∧
     (p ≠ Mig.moved → Writes .eng (R.ENG_MIG w) (e.strobe (R.ENG_MIG w) 13) (.migrationRearm d w) s d fun e => e)) ∧
  (∀ (d : DieId) (c : Fin 28) (seat : Fin 24) (f : Fin 512) (reading : BitVec 12) (limits : BitVec 8) (s : State),
     let e := s.die d
     let party := s.partyFrame d
     let w := e.windowSources (!s.sameRate) party.isNone
     let x := e.course c
     let t := e.winCourse c
     let y := t.course c
     (e.runs .eng = true → e.runsKernels = true → exec (.exchangeWindow d reading limits) s = .next
       (((s.setDie d (((w.2.gather (w.2.source w.1 (if s.sameRate then party.getD [] else []))).windowSinks reading limits).lossTaken
         .mortar)).copyWindow d).copyWindow d.other)) ∧
     (e.serves c = false → t = e) ∧
     (e.serves c = true → x.reachedEnd = true → y.exitWork = x.exitPres ∧ y.exitPres = x.exitWork ∧ y.raised = x.raised ∧
       (e.isShadow c = true → t.regs = e.regs) ∧
       (e.isShadow c = false → t.fld (F.ENG_C_OVR_CONSEC c) = 0 ∧ t.bit (F.ENG_C_OVR_ZEROED c) = false)) ∧
     (e.serves c = true → x.reachedEnd = false → y.exitWork = x.exitWork ∧ y.exitPres = x.exitPres ∧ y.raised = x.raised ||| 1 ∧
       (e.isShadow c = true → t.regs = e.regs) ∧
       (e.isShadow c = false → t.bitAt F.ENG_OVRIRQ_COURSE c = true ∧
         t.fld (F.ENG_C_OVR_TOTAL c) = min (e.fld (F.ENG_C_OVR_TOTAL c) + 1) 65535 ∧
         t.fld (F.ENG_C_OVR_CONSEC c) = min (e.fld (F.ENG_C_OVR_CONSEC c) + 1) 7 ∧
         t.bit (F.ENG_C_OVR_ZEROED c) = (e.bit (F.ENG_C_OVR_ZEROED c) || e.fld (F.ENG_C_OVR_CONSEC c) == 3))) ∧
     (e.seatCourse seat = some c →
       (e.wallOn (wallOf c) = false ∨ e.bit (F.ENG_C_OVR_ZEROED c) = true → e.exitSlot seat f = 0) ∧
       (e.wallOn (wallOf c) = true → e.bit (F.ENG_C_OVR_ZEROED c) = false → SMap.get markDflt x.bad (tileKey Tl.pres (f / 8)) = 0 →
         e.exitSlot seat f = (SMap.get rowDflt x.exitPres (f / 8))[f.val % 8])) ∧
     (e.seatCourse seat = none → e.exitSlot seat f = 0))

/-- R118, R119, R502: the bank's cycle goes to a requester that may ask and that no other outranks: seats of the
bank's own wall and of the next walls round, then hods, the state copy, the crossbar, write-backs and the test; in the
last four cycles of a frame hods and the state copy get none. With no requester left no one is granted. While the
domain a command acts in stands still it changes nothing (a reading of R26 and R451: assumption log 230). Completed
here: YARD_ARBITRATION. -/
def Obligations.ArbitrationGrantsTheHighest : Prop :=
  ∀ (d : DieId) (bank : Fin 4) (cycle : BitVec 15) (reqs : List Requester) (s : State),
    let e := s.die d
    let may (r : Requester) : Prop := r ∈ reqs ∧ e.mayAsk r = true ∧ ¬ (lateReq r = true ∧ e.cyc ≤ cycle.toNat + 4)
    CompletesIn d .eng (.yardArbitration d bank cycle reqs) s fun t =>
      (∀ r, (t.die d).yard.grants[bank] = some (some r) →
        may r ∧ ∀ q, may q → reqScore bank.val r ≤ reqScore bank.val q) ∧
      ((t.die d).yard.grants[bank] = some none → ∀ q, ¬ may q) ∧ (t.die d).yard.grants[bank] ≠ none ∧
      (∀ b : Fin 4, b ≠ bank → (t.die d).yard.grants[b] = e.yard.grants[b]) ∧
      (t.die d).eng = e.eng ∧ (t.die d).regs = e.regs ∧ t.die d.other = s.die d.other

/-- R118, R120, R122 to R124: a YARDW access whose bank grants it completes: a read answers the addressed quarter of
the row as delivered, sign-extended, and a write, which completes on its second grant (assumption log 206), replaces
that quarter and gives its pair good check bits. Of a good row a read changes nothing but the grant, and a write no
other quarter. With the wall not ON either is refused with an error response of cause 2, and without a grant it asks
again in the next cycle. R185: an ENGW write replaces the addressed quarter of the course's back Z bank and nothing
else of its tiles; at the offsets from 0x4000, and in an OFF wall, it is ignored (the latter a reading of R103:
assumption log 201). Stated for a good row of a course that is no source in shadow. While the domain a command acts in
stands still it changes nothing (a reading of R26 and R451: assumption log 230). Completed here: YARDW_READ,
YARDW_WRITE, ENGW_WRITE. -/
def Obligations.WindowsAreReadAndWritten : Prop :=
  (∀ (d : DieId) (m : BitVec 3) (addr v : Word) (err : RowErr) (s : State),
     let e := s.die d
     let row := yardwRow addr
     let bank := bankOf row
     let key := e.yard.key row
     let old := SMap.get rowDflt e.yard.rows key
     let marks := addMarks (SMap.get markDflt e.yard.bad key) err
     let got := if e.yard.isUnwritten row.toNat then Row.zero else eccRow marks (e.yard.rowAt key)
     let asks := e.granted bank (some .crossbar)
     (e.wallOn bank.val = false →
       ChangesIn .eng (.yardwRead d m addr err) s d (fun e => e.busError m false 2 addr) ∧
       ChangesIn .eng (.yardwWrite d m addr v err) s d (fun e => e.busError m true 2 addr)) ∧
     (e.wallOn bank.val = true → asks = false →
       exec (.yardwRead d m addr err) s = .next s ∧ exec (.yardwWrite d m addr v err) s = .next s) ∧
     (e.wallOn bank.val = true → asks = true →
       (CompletesIn d .eng (.yardwRead d m addr err) s fun t =>
         (t.die d).resp = e.resp.set m.toNat ⟨quarterWord got[windowLane addr], false⟩ m.isLt ∧
         (t.die d).yard.rows = e.yard.rows ∧ (t.die d).eng = e.eng ∧ t.die d.other = s.die d.other) ∧
       (e.fld (F.YRD_REMAP_PHASE bank) = 0 ∨ e.yard.remaps[bank].spare ≠ e.yard.remaps[bank].srcPhys →
        SMap.rising 0 e.yard.rows = true → CompletesIn d .eng (.yardwWrite d m addr v err) s fun t =>
         ((t.die d).yard.rowAt key)[windowLane addr] = BitVec.ofNat 28 v.toNat ∧
         (∀ l : Fin 8, l ≠ windowLane addr → pairMark marks (l.val / 2) ≠ 2 → e.yard.isUnwritten row.toNat = false →
           ((t.die d).yard.rowAt key)[l] = (e.yard.rowAt key)[l]) ∧
         (t.die d).resp = e.resp.set m.toNat ⟨0, false⟩ m.isLt ∧ (t.die d).eng = e.eng ∧ t.die d.other = s.die d.other)) ∧
     (e.wallOn bank.val = true → asks = true → e.yard.borrowed key = none → e.yard.unwritten = false →
       SMap.get markDflt e.yard.bad key = 0 → e.fld (F.YRD_REMAP_PHASE bank) = 0 →
       ChangesIn .eng (.yardwRead d m addr []) s d (fun e => (e.useGrant bank).answer m (quarterWord old[windowLane addr])) ∧
       CompletesIn d .eng (.yardwWrite d m addr v []) s fun t =>
         (t.die d).yard.rows = SMap.set rowDflt e.yard.rows key (Vector.ofFn fun (l : Fin 8) =>
           if l = windowLane addr then BitVec.ofNat 28 v.toNat else old[l]) ∧
         (t.die d).resp = e.resp.set m.toNat ⟨0, false⟩ m.isLt ∧
         (t.die d).eng = e.eng ∧ (t.die d).regs = e.regs ∧ t.die d.other = s.die d.other)) ∧
  (∀ (d : DieId) (m : BitVec 3) (addr v : Word) (s : State),
     let e := s.die d
     (engwCourse addr = none → ChangesIn .eng (.engwWrite d m addr v []) s d fun e => e.answer m 0) ∧
     (∀ c : Fin 28, engwCourse addr = some c → e.wallState (wallOf c) = St.off →
       ChangesIn .eng (.engwWrite d m addr v []) s d fun e => e.answer m 0) ∧
     (∀ c : Fin 28, engwCourse addr = some c → e.wallState (wallOf c) ≠ St.off → e.shadowing (wallOf c) = false →
       SMap.get markDflt (e.course c).bad (tileKey Tl.zb (engwRow addr)) = 0 →
       CompletesIn d .eng (.engwWrite d m addr v []) s fun t =>
         (∃ bad fixes, (t.die d).course c = { e.course c with
           bad := bad
           fixes := fixes
           zBack := SMap.set rowDflt (e.course c).zBack (engwRow addr) (Vector.ofFn fun (l : Fin 8) =>
             if l = windowLane addr then BitVec.ofNat 28 v.toNat
             else (SMap.get rowDflt (e.course c).zBack (engwRow addr))[l]) }) ∧
         (∀ k : Fin 28, k ≠ c → (t.die d).course k = e.course k) ∧
         (t.die d).regs = e.regs ∧ (t.die d).yard = e.yard ∧ t.die d.other = s.die d.other))

/-- R134 to R136: a push appends the descriptor of D0 to D3, or is dropped with DROP set where eight wait; a hod that
fills yard rows writes its quarter in every lane of the row it has come to, for every count, and moves on by one row;
without its bank's grant it waits. Stated for a wall that is ON, outside a migration, a remap, a background test and a
state copy. R138 to R141: a step starts once PACE frames have passed, and captures the next test row; a capture
borrows it; a march cycle that reads right goes to the next of ten, the tenth to the restore; a wrong value holds the
row with TESTFAIL; the restore writes the eight captured rows back and releases them. Without its bank's grant the
engine waits. While the domain a command acts in stands still it changes nothing (a reading of R26 and R451:
assumption log 230). While the domain of a write it names stands still, the write waits (R26, R30; as the write of no
master: assumption log 252). Completed here: HOD_PUSH, HOD_ROW_MOVE, TEST_STEP_START, TEST_CAPTURE, TEST_MARCH_CYCLE,
TEST_RESTORE. -/
def Obligations.HodsAndBackgroundTest : Prop :=
  (∀ (d : DieId) (h : Fin 16) (d3 : Word) (s : State),
     let e := s.die d
     ((e.hod h).queue.length < 8 → Writes .eng (R.YRD_HOD_D3 h) d3 (.hodPush d h d3) s d fun e => e.updHod h fun x => { x with
       queue := x.queue ++ [⟨e.reg (R.YRD_HOD_D0 h), e.reg (R.YRD_HOD_D1 h), e.reg (R.YRD_HOD_D2 h), d3, false⟩] }) ∧
     (8 ≤ (e.hod h).queue.length → Writes .eng (R.YRD_HOD_D3 h) d3 (.hodPush d h d3) s d fun e => e.setFld (F.YRD_HOD_STAT_DROP h) 1) ∧
     (∀ (x : HodDesc) (row : BitVec 22) (w : Fin 4), w.val = h.val / 4 → e.wallOn w.val = true → e.hodTaken h = false →
       (e.hod h).running = some x → (e.hod h).inHand = none → x.waits = false → x.d0.toNat % 4 = 1 →
       hodEnd w x.d2 (e.hod h).moved = .yard row → e.wallOn (bankOf row).val = true → e.granted (bankOf row) (some (.hod h)) = true →
       e.yard.borrowed (e.yard.key row) = none → e.yard.unwritten = false → e.fld (F.YRD_REMAP_PHASE (bankOf row)) = 0 →
       CompletesIn d .eng (.hodRowMove d h [] false) s fun t =>
         (t.die d).yard.rows = SMap.set rowDflt e.yard.rows (e.yard.key row)
           (Vector.replicate 8 (BitVec.ofNat 28 x.d3.toNat)) ∧
         ((t.die d).hod h).running = (if (e.hod h).moved + 1 = (if x.d0.toNat / 2 ^ 16 = 0 then 65536 else x.d0.toNat / 2 ^ 16)
           then none else some x) ∧
         ((t.die d).hod h).moved = (if (e.hod h).moved + 1 = (if x.d0.toNat / 2 ^ 16 = 0 then 65536 else x.d0.toNat / 2 ^ 16)
           then 0 else (e.hod h).moved + 1) ∧
         (t.die d).eng = e.eng ∧ t.die d.other = s.die d.other) ∧
     (∀ (x : HodDesc) (row : BitVec 22) (w : Fin 4), w.val = h.val / 4 → e.wallOn w.val = true → e.hodTaken h = false →
       (e.hod h).running = some x → x.waits = false → x.d0.toNat % 4 = 1 → hodEnd w x.d2 (e.hod h).moved = .yard row →
       e.wallOn (bankOf row).val = true → e.granted (bankOf row) (some (.hod h)) = false →
       exec (.hodRowMove d h [] false) s = .next s)) ∧
  (∀ (d : DieId) (b : Fin 4) (s : State),
     let e := s.die d
     let t := e.test b
     (e.bitAt F.YRD_TESTCTL_EN b = true → e.wallOn b = true → t.phase = .idle → t.borrowed = false →
       e.fld F.YRD_TESTCTL_PACE ≤ t.frames → ChangesIn .eng (.testStepStart d b) s d fun e =>
         e.updTest b fun t => { t with phase := .capture, frames := 0, next := e.yard.skipRetired b 264 t.next }) ∧
     (e.granted b (some .test) = false → exec (.testCapture d b []) s = .next s ∧ (∀ ok, exec (.testMarchCycle d b ok) s = .next s) ∧
       exec (.testRestore d b) s = .next s) ∧
     (t.phase = .capture → e.granted b (some .test) = true → CompletesIn d .eng (.testCapture d b []) s fun u =>
       ((u.die d).test b).phase = .march 0 ∧ ((u.die d).test b).borrowed = true ∧ ((u.die d).test b).next = t.next ∧
       (∀ l : Fin 8, ((u.die d).test b).shadow[l] = eccRow
         (SMap.get markDflt e.yard.bad (testKey b.val t.next + l.val)) (SMap.get rowDflt e.yard.rows (testKey b.val t.next + l.val))) ∧
       (u.die d).yard.rows = e.yard.rows ∧ (u.die d).eng = e.eng) ∧
     (∀ k : Nat, t.phase = .march k → e.granted b (some .test) = true →
       (ChangesIn .eng (.testMarchCycle d b true) s d fun e => (e.useGrant b).updTest b fun t =>
         { t with phase := if k < 9 then .march (k + 1) else .restore true }) ∧
       CompletesIn d .eng (.testMarchCycle d b false) s fun u =>
         ((u.die d).test b).phase = .idle ∧ ((u.die d).test b).borrowed = t.borrowed ∧
         SMap.get (fun _ => 0) (u.die d).yard.cand (b.val * 264 + t.next / 512) ≠ 0 ∧
         (u.die d).yard.rows = e.yard.rows ∧ (u.die d).eng = e.eng) ∧
     (t.phase = .restore false → e.granted b (some .test) = true → e.fld (F.YRD_REMAP_PHASE b) = 0 → (∀ o : Fin 4, o ≠ b → (e.test o).borrowed = false) →
       CompletesIn d .eng (.testRestore d b) s fun u =>
         ((u.die d).test b).phase = .idle ∧ ((u.die d).test b).borrowed = false ∧ ((u.die d).test b).next = t.next ∧
         (SMap.rising 0 e.yard.rows = true → ∀ l : Fin 8,
           SMap.get rowDflt (u.die d).yard.rows (testKey b.val t.next + l.val) = t.shadow[l])))

/-- R118, R122: the oldest (assumption log 30) corrected yard row that its bank grants is written back: it leaves the
list of those pending, and its correctable pairs are good; the stored rows stay. With no row pending in the yard or a
course nothing happens. R142: GO from IDLE with the wall ON takes the lowest free spare and begins COPY, and sets
NOSPARE where none is free; each copy of a good row notes the row read and moves on; a clean pass with nothing left
dirty goes on to SWITCH, its reads written to the spare. While the domain a command acts in stands still it changes
nothing (a reading of R26 and R451: assumption log 230). While the domain of a write it names stands still, the write
waits (R26, R30; as the write of no master: assumption log 252). Completed here: CORRECTION_WRITEBACK, REMAP_GO,
REMAP_COPY, REMAP_CLEAN_PASS. -/
def Obligations.CorrectionAndRemap : Prop :=
  (∀ (d : DieId) (k : Nat) (ks : List Nat) (s : State),
     let e := s.die d
     let b : Fin 4 := ⟨k / (264 * 4096) % 4, Nat.mod_lt _ (by decide)⟩
     (e.yard.fixes = k :: ks → e.yard.borrowed k = none → e.granted b (some .writeBack) = true → e.fld (F.YRD_REMAP_PHASE b) = 0 →
       ∃ m : BitVec 8, (∀ p : Fin 4, pairMark m p.val =
           if pairMark (SMap.get markDflt e.yard.bad k) p.val = 1 then 0 else pairMark (SMap.get markDflt e.yard.bad k) p.val) ∧
         ChangesIn .eng (.correctionWriteback d) s d fun e => e.updYard fun y => { y with
           grants := y.grants.set b.val (y.grants[b].map fun _ => none)
           fixes := ks.filter (· ≠ k)
           bad := SMap.set markDflt y.bad k m }) ∧
     (e.yard.fixes = [] → (∀ c : Fin 28, (e.course c).fixes = []) → exec (.correctionWriteback d) s = .next s)) ∧
  (∀ (d : DieId) (b : Fin 4) (s : State),
     let e := s.die d
     let rm := e.yard.remaps[b]
     (e.fld (F.YRD_REMAP_PHASE b) = 0 → e.wallOn b = true →
       (∀ (p : Nat) (ps : List Nat), e.yard.spares b = p :: ps → Writes .eng (R.YRD_REMAP b) (e.strobe (R.YRD_REMAP b) 8) (.remapGo d b) s d fun e =>
         let tile := e.fld (F.YRD_REMAP_SRC b)
         let new : Remap := ⟨b.val * 264 + e.yard.phys b tile, tile, b.val * 264 + p, 0, [], [], []⟩
         ((e.updRemap b fun _ => new).setFld (F.YRD_REMAP_PHASE b) 1).setFld (F.YRD_REMAP_LOST b) 0) ∧
       (e.yard.spares b = [] → Writes .eng (R.YRD_REMAP b) (e.strobe (R.YRD_REMAP b) 8) (.remapGo d b) s d fun e => e.setFld (F.YRD_REMAP_NOSPARE b) 1)) ∧
     (e.granted b (copyHod b) = false → exec (.remapCopy d b []) s = .next s) ∧
     (e.fld (F.YRD_REMAP_PHASE b) = 1 → e.granted b (copyHod b) = true → rm.nextRow + 1 < 4096 → e.yard.borrowed (rm.srcPhys * 4096 + rm.nextRow) = none →
       SMap.get markDflt e.yard.bad (rm.srcPhys * 4096 + rm.nextRow) = 0 →
       CompletesIn d .eng (.remapCopy d b []) s fun t =>
         (t.die d).yard.remaps[b] = { rm with
           nextRow := rm.nextRow + 1
           reads := rm.reads ++
             [(e.yard.cycles[b], rm.nextRow, SMap.get rowDflt e.yard.rows (rm.srcPhys * 4096 + rm.nextRow))] } ∧
         (t.die d).yard.rows = e.yard.rows ∧ (t.die d).regs = e.regs ∧ (t.die d).eng = e.eng ∧ t.die d.other = s.die d.other) ∧
     (e.fld (F.YRD_REMAP_PHASE b) = 2 → rm.todo = [] → rm.dirty = [] →
       ChangesIn .eng (.remapCleanPass d b) s d fun e => ((e.updYard fun y =>
         rm.reads.foldl (fun y r => y.setRowAt (rm.spare * 4096 + r.2.1) r.2.2) y).updRemap b fun r =>
           { r with reads := [] }).setFld (F.YRD_REMAP_PHASE b) 3))

/-- R149, R151, R170, R174: a route write goes to the back entry of a sink that is not reserved, or waits while the
mirror reloads; the reload's end makes the back copy equal the front and then lands what waited; a generator register
holds its fields; a bridge map entry is written while its direction is OFF, and otherwise ignored. R148, R158, R160,
R162 to R166: at FT a sink whose front entry differs in SRC, INV or MUTE from the one in force, and that no fade runs
on, steps to it where its length is 0, and else begins a fade; a running fade goes on, and its sink's next change
waits. In the window every sink takes its value from one snapshot of the sources: zero under MUTE, the negated value
saturated under INV, and during a fade the sum of the gained terms; a reserved sink carries zero, and a saturation
counts. At the close the digest latches, the fades advance, and one that has run its length ends with its entry in
force. Source 0 is silence. While the domain a command acts in stands still it changes nothing (a reading of R26 and
R451: assumption log 230). While the domain of a write it names stands still, the write waits (R26, R30; as the write
of no master: assumption log 252). Completed here: MIRROR_RELOAD_DONE, WINDOW_CLOSE, MORW_WRITE, GENERATOR_WRITE,
BRIDGE_MAP_WRITE. -/
def Obligations.MortarWrites : Prop :=
  (∀ (d : DieId) (sink : BitVec 15) (addr v : Word) (s : State),
     let e := s.die d
     (e.bit F.MOR_STAT_MIRBUSY = false → sinkValid sink.toNat = true → ChangesIn .eng (.morwWrite d sink v) s d fun e =>
       e.updMor fun m => { m with back := SMap.set wordDflt m.back sink.toNat (v &&& 0x1FFFFF) }) ∧
     (e.bit F.MOR_STAT_MIRBUSY = false → sinkValid sink.toNat = false → ChangesIn .eng (.morwWrite d sink v) s d fun e => e) ∧
     (e.bit F.MOR_STAT_MIRBUSY = true → ChangesIn .eng (.morwWrite d sink v) s d fun e =>
       e.updMor fun m => { m with waiting := m.waiting ++ [(sink.toNat, v)] }) ∧
     (e.bit F.MOR_STAT_MIRBUSY = true → ChangesIn .eng (.mirrorReloadDone d) s d fun e =>
       (e.updMor fun m => m.waiting.foldl (fun m w => m.setBack w.1 w.2)
         { m with back := m.front, waiting := [] }).setFld F.MOR_STAT_MIRBUSY 0) ∧
     (∀ n : Nat, n < 4 → addr.toNat = R.MOR_SINE_INC n → Writes .eng addr.toNat v (.generatorWrite d addr v) s d fun e =>
       e.setReg (R.MOR_SINE_INC n) v) ∧
     (e.bit F.MOR_STAT_MIRBUSY = false → ChangesIn .eng (.mirrorReloadDone d) s d fun e => e) ∧
     (genRegs.contains addr.toNat = true → ∃ r : RegRow, regRow addr.toNat = some r ∧ Writes .eng addr.toNat v (.generatorWrite d addr v) s d fun e =>
       e.setRegN addr.toNat (r.fields.foldl (fun n f => n + bitsOf v.toNat f.lo f.w * 2 ^ f.lo) 0)) ∧
     (genRegs.contains addr.toNat = false → Writes .eng addr.toNat v (.generatorWrite d addr v) s d fun e => e) ∧
     (e.fld (brState (e.bit F.MOR_BRIDX_DIR)) = St.off → Writes .eng R.MOR_BRMAP v (.bridgeMapWrite d v) s d fun e =>
       let i := e.fld F.MOR_BRIDX_CH + 256 * b2n (e.bit F.MOR_BRIDX_DIR)
       e.updMor fun m => { m with brMap := SMap.set wordDflt m.brMap i (v &&& 0x8000001F) }) ∧
     (e.fld (brState (e.bit F.MOR_BRIDX_DIR)) ≠ St.off → Writes .eng R.MOR_BRMAP v (.bridgeMapWrite d v) s d fun e => e)) ∧
  (∀ (d : DieId) (src : Nat → Quarter) (k : Nat) (s : State),
     let e := s.die d
     let m := e.mor
     let on (m : Mortar) : List (Nat × Fade) := m.fades.filter fun f => f.1 == k
     let new := SMap.get wordDflt m.front k
     let old := SMap.get wordDflt m.inForce k
     let st := e.fadeStart.mor
     let g := e.gather src
     let q := src (entSrc old)
     let cl := e.mortarClose
     (on m ≠ [] ∨ entDiffers new old = false → on st = on m ∧ SMap.get wordDflt st.inForce k = old) ∧
     (on m = [] → entDiffers new old = true →
       (entFade new = 0 → on st = [] ∧ SMap.get wordDflt st.inForce k = new) ∧
       (entFade new ≠ 0 → on st = [(k, ⟨old, new, 0⟩)] ∧ SMap.get wordDflt st.inForce k = old)) ∧
     (sinkValid k = false → g.sink k = 0) ∧
     (sinkValid k = true → src 0 = 0 → on m = [] → g.sink k = if entMute old then 0 else if entInv old then satQ (-q.toInt) else q) ∧
     (sinkValid k = true → ∀ fd : Fade, on m = [(k, fd)] →
       let gains := fadeGains (entShape fd.new) fd.pos (entFade fd.new)
       g.sink k = satQ (roundMode (fadeTerm fd.old (src (entSrc fd.old)) * gains.2 +
         fadeTerm fd.new (src (entSrc fd.new)) * gains.1) 27 0)) ∧
     (sinkValid k = true → src 0 = 0 → on m = [] → entMute old = false → entInv old = true → q.toInt = -134217728 →
       g.bit F.MOR_IRQ_SAT = true ∧ min (e.fld F.MOR_SATCNT_COUNT + 1) (2 ^ F.MOR_SATCNT_COUNT.w - 1) ≤ g.fld F.MOR_SATCNT_COUNT) ∧
     (m.inForce.all (fun r => !entInv r.2) = true → m.fades = [] → g.regs = e.regs) ∧
     (∃ p : SMap Quarter, g.mor.pwOut.head? = some (e.seq, p) ∧
       ∀ j, SMap.get quarterDflt p j = if 0x4300 ≤ j ∧ j < 0x4400 then g.sink j else 0) ∧
     (e.runs .eng = true → e.runsKernels = true → Changes (.windowClose d) s d fun e => e.mortarClose.plateClose.countFrames) ∧
     cl.regN R.MOR_DIGEST = crc32Words ((List.range 0x4400).map fun j => (BitVec.ofInt 32 (e.sink j).toInt).toNat) ∧
     (on m = [] → on cl.mor = [] ∧ SMap.get wordDflt cl.mor.inForce k = old) ∧
     (∀ fd : Fade, on m = [(k, fd)] → fd.pos + 1 < entFade fd.new →
       on cl.mor = [(k, { fd with pos := fd.pos + 1 })] ∧ SMap.get wordDflt cl.mor.inForce k = old) ∧
     (∀ fd : Fade, on m = [(k, fd)] → entFade fd.new ≤ fd.pos + 1 → on cl.mor = [] ∧ SMap.get wordDflt cl.mor.inForce k = fd.new) ∧
     (m.fades = [] → m.total = 0 → cl.bit F.MOR_IRQ_FADEDONE = e.bit F.MOR_IRQ_FADEDONE) ∧
     ((m.fades ≠ [] ∨ m.total ≠ 0) → cl.mor.fades = [] →
       (cl.mor.listed.all fun j => !entDiffers (SMap.get wordDflt m.front j) (SMap.get wordDflt cl.mor.inForce j)) = true →
       cl.bit F.MOR_IRQ_FADEDONE = true))

/-- R175 to R179: a sample of a direction that is OFF moves nothing; in any other it joins the channel's input
samples, and the output samples of its input period join the channel's waiting outputs: zero while the ramp is at
zero, and the saturated filter's while it is full (assumption log 45: what the filter gives is a free value; log 205:
which samples a period gives). The ratio leaves nothing of a period over. A ramp that has run out presents zero, a
full one the sample itself. The first lock gives LOCK and the ratio, and starts the fade-in of a direction that is ON
or waits; a lock lost clears LOCK, sets BRLOCK and ramps a direction that is ON to zero over 64 output frames from
where it stands (log 244: not one that still rises); a direction that waits for lock with _EN at 0 goes to OFF. While
the domain a command acts in stands still it changes nothing (a reading of R26 and R451: assumption log 230).
Completed here: BRIDGE_SAMPLE, BRIDGE_LOCK, BRIDGE_LOCK_LOSS, BRIDGE_WAIT_ABORT. -/
def Obligations.RateBridges : Prop :=
  ∀ (d : DieId) (s2m : Bool) (ch : BitVec 8) (phi : BitVec 24) (ratio : Word) (s : State),
    let e := s.die d
    let b := e.bridge s2m
    let r := e.mor.ratio.toNat
    let waits := e.fld (brState s2m) = St.rising ∧ b.ramp = .zero ∧ e.bit (brEn s2m) = false
    (e.fld (brState s2m) = St.off → ChangesIn .eng (.bridgeSample d s2m ch phi) s d fun e => e) ∧
    (e.fld (brState s2m) ≠ St.off → CompletesIn d .eng (.bridgeSample d s2m ch phi) s fun t =>
      let x := (t.die d).bridge s2m
      let hist := e.bridgeInput s2m ch.toNat :: (SMap.get histDflt b.hist ch.toNat).take 95
      x.lastCh = ch.toNat ∧ x.ramp = b.ramp ∧ x.pos = b.pos ∧ x.cur = b.cur ∧ x.hist = SMap.set histDflt b.hist ch.toNat hist ∧
      (b.lastCh < ch.toNat → x.n = b.n ∧ x.acc = b.acc) ∧
      (ch.toNat ≤ b.lastCh → r ≠ 0 → (if s2m then x.n * r + x.acc = x.acc0 + 2 ^ 24 else x.n * 2 ^ 24 + x.acc = x.acc0 + r)) ∧
      (∃ ys : List Quarter, ys.length = x.n ∧
        x.out = SMap.set histDflt b.out ch.toNat (x.wait (SMap.get histDflt b.out ch.toNat) ys) ∧
        (b.ramp = .zero → ∀ y ∈ ys, y = 0) ∧
        (b.ramp = .full → ys = (List.range x.n).map fun j =>
          (satMark (Config.bridgeFilter hist (x.phiAt s2m r j) j e.mor.ratio)).1)) ∧
      (t.die d).bridge (!s2m) = e.bridge (!s2m) ∧ (t.die d).eng = e.eng ∧ t.die d.other = s.die d.other) ∧
    (∀ c : Nat, (b.ramp = .zero → b.present c = 0) ∧ (b.ramp = .full → b.present c = SMap.get quarterDflt b.cur c) ∧
      ∀ len num den : Nat, b.ramp = .down len num den → len ≤ b.pos → b.present c = 0) ∧
    (e.canonical = true → CompletesIn d .eng (.bridgeLock d ratio) s fun t =>
      (t.die d).bit F.MOR_BRCTL_LOCK = true ∧ (t.die d).mor.ratio = ratio ∧
      (e.bit F.MOR_BRCTL_LOCK = false → e.fld (brState s2m) = St.on ∨ e.fld (brState s2m) = St.rising ∧ b.ramp = .zero →
        (t.die d).bridge s2m = { b with ramp := .fadeIn, pos := 0, phased := false }) ∧
      (e.bit F.MOR_BRCTL_LOCK = true → (t.die d).bridge s2m = b) ∧
      (t.die d).eng = e.eng ∧ t.die d.other = s.die d.other) ∧
    (e.bit F.MOR_BRCTL_LOCK = false → ChangesIn .eng (.bridgeLockLoss d) s d fun e => e) ∧
    (e.bit F.MOR_BRCTL_LOCK = true → e.canonical = true → CompletesIn d .eng (.bridgeLockLoss d) s fun t =>
      (t.die d).bit F.MOR_BRCTL_LOCK = false ∧ (t.die d).bit F.MOR_IRQ_BRLOCK = true ∧
      (e.fld (brState s2m) = St.on → (t.die d).bridge s2m = { b with ramp := .down 64 b.level.1 b.level.2, pos := 0 }) ∧
      (e.fld (brState s2m) ≠ St.on → (t.die d).bridge s2m = b) ∧ t.die d.other = s.die d.other) ∧
    (waits → ChangesIn .eng (.bridgeWaitAbort d s2m) s d fun e => e.setFld (brState s2m) St.off) ∧
    (¬ waits → ChangesIn .eng (.bridgeWaitAbort d s2m) s d fun e => e)

/-- R190, R191: ARM arms a slot whose target lies 2 to 2^31 - 1 frames ahead and otherwise sets its LATE; an armed
slot ignores it. DISARM disarms an armed slot whose target lies at least 2 frames ahead and otherwise sets its
DISLATE; a slot that is not armed ignores it. R200, R201: a scene recall of another show changes nothing; that of a
scene the library has not writes one FIRMWARE-class record, with a code the manual does not give (assumption log 49),
and changes nothing else. Of a scene with one group, where no slot of an older recall stands, every write of the
group's contents is made in order (each waits until it has taken effect: log 48), and slot 0 takes its mask and frame:
in time it arms; late, it arms for the earliest frame that R190 accepts where FLAGS bit 16 allows it, with a record,
and otherwise sets LATE. Where an older recall's slot holds the group's scopes and can no longer be disarmed, DISLATE
sets, nothing is written, and the group waits for DONE; once it is DONE the group is written at the frame tick. While
the domain a command acts in stands still it changes nothing (a reading of R26 and R451: assumption log 230). While
the domain of a write it names stands still, the write waits (R26, R30; as the write of no master: assumption log
252). Completed here: FRAME_TICK_LINE, SWAP_ARM, SWAP_DISARM, SCENE_RECALL. -/
def Obligations.SwapSlotsAndScenes : Prop :=
  (∀ (d : DieId) (n : Fin 4) (s : State),
     let e := s.die d
     let k := (e.regN (R.ENG_SWAP_FRAME n) + 2 ^ 32 - e.seq) % 2 ^ 32
     (e.bit (F.ENG_SWAP_CTL_ARMED n) = true →
       (Writes .eng (R.ENG_SWAP_CTL n) 1 (.swapArm d n) s d fun e => e) ∧
       (2 ≤ k → Writes .eng (R.ENG_SWAP_CTL n) 2 (.swapDisarm d n) s d fun e => e.setFld (F.ENG_SWAP_CTL_ARMED n) 0) ∧
       (k < 2 → Writes .eng (R.ENG_SWAP_CTL n) 2 (.swapDisarm d n) s d fun e => e.setBitAt F.ENG_SWAPIRQ_DISLATE n true)) ∧
     (e.bit (F.ENG_SWAP_CTL_ARMED n) = false →
       (Writes .eng (R.ENG_SWAP_CTL n) 2 (.swapDisarm d n) s d fun e => e) ∧
       (2 ≤ k → k < 2 ^ 31 → Writes .eng (R.ENG_SWAP_CTL n) 1 (.swapArm d n) s d fun e => e.setFld (F.ENG_SWAP_CTL_ARMED n) 1) ∧
       (k < 2 ∨ 2 ^ 31 ≤ k → Writes .eng (R.ENG_SWAP_CTL n) 1 (.swapArm d n) s d fun e => e.setBitAt F.ENG_SWAPIRQ_LATE n true))) ∧
  (∀ (d : DieId) (p : Vector Block 2) (sc : Scene) (g : SceneGroup) (n : Fin 4) (s : State),
     let e := s.die d
     let head := bitsOf p[0].toNat 56 8 = 0x10 ∧ bitsOf p[0].toNat 48 8 = 1
     let num := bitsOf p[0].toNat 32 16
     let mine := e.imageRuns = true ∧ head ∧ bitsOf p[1].toNat 32 32 = e.swp.show_.toNat
     let found := e.swp.scenes.find? (fun sc => sc.number.toNat == num) = some sc ∧ sc.groups = [g]
     let target := (bitsOf p[0].toNat 0 32 + g.offset) % 2 ^ 32
     let written := g.writes.foldl Die.sceneWrite e
     let ticked := g.writes.foldl Die.sceneWrite { e.tickLine with swp := { e.swp with
       waits := []
       stuck := [] } }
     let k := (target + 2 ^ 32 - written.seq) % 2 ^ 32
     let inTime := 2 ≤ k ∧ k < 2 ^ 31
     let made (t : State) (mask frame : Nat) : Prop := (t.die d).eng = written.eng ∧ (t.die d).mor = written.mor ∧ (t.die d).yard = written.yard ∧
       (t.die d).vox = written.vox ∧ (t.die d).mem = written.mem ∧ (t.die d).regN (R.ENG_SWAP_MASK 0) = mask ∧
       (t.die d).regN (R.ENG_SWAP_FRAME 0) = frame ∧
       (∀ a, a ≠ R.ENG_SWAP_MASK 0 → a ≠ R.ENG_SWAP_FRAME 0 → a ≠ R.ENG_SWAP_CTL 0 → a ≠ R.ENG_SWAPIRQ → a / 0x1000 ≠ R.LOG_CTRL / 0x1000 →
         (t.die d).reg a = written.reg a) ∧ (t.die d).swp.armedBy = 0 :: written.swp.armedBy.filter (· != 0) ∧ t.die d.other = s.die d.other
     (¬ mine → ChangesIn .eng (.sceneRecall d p) s d fun e => e) ∧
     (mine → e.swp.scenes.find? (fun sc => sc.number.toNat == num) = none → ChangesIn .eng (.sceneRecall d p) s d fun e =>
       e.logEv 7 (Config.sceneCode false).toNat num) ∧
     (mine → found → e.swp.armedBy = [] → e.swp.stuck = [] → e.swp.waits = [] → written.bit (F.ENG_SWAP_CTL_ARMED 0) = false →
       e.canonical = true →
       (inTime → CompletesIn d .eng (.sceneRecall d p) s fun t => made t g.mask.toNat target ∧
         (t.die d).bit (F.ENG_SWAP_CTL_ARMED 0) = true ∧ (t.die d).reg R.ENG_SWAPIRQ = written.reg R.ENG_SWAPIRQ ∧ (t.die d).log = written.log) ∧
       (¬ inTime → natBit p[1].toNat 16 = true → CompletesIn d .eng (.sceneRecall d p) s fun t =>
         made t g.mask.toNat ((written.seq + 2) % 2 ^ 32) ∧ (t.die d).bit (F.ENG_SWAP_CTL_ARMED 0) = true ∧
         (t.die d).bitAt F.ENG_SWAPIRQ_LATE 0 = true ∧ (written.log.gathered = none → written.log.queue = [] → written.runs .keep = true →
           written.bit F.LOG_CTRL_FREEZE = false → written.bit F.LOG_STAT_LOGFAIL = false → ∃ r : LogRec, (t.die d).log.queue = [r] ∧
             r[0].toNat / 2 ^ 24 = 7 ∧ r[4] = BitVec.ofNat 32 target ∧ r[5] = BitVec.ofNat 32 (written.seq + 2))) ∧
       (¬ inTime → natBit p[1].toNat 16 = false → CompletesIn d .eng (.sceneRecall d p) s fun t => made t g.mask.toNat target ∧
         (t.die d).bit (F.ENG_SWAP_CTL_ARMED 0) = false ∧ (t.die d).bitAt F.ENG_SWAPIRQ_LATE 0 = true)) ∧
     (mine → found → e.swp.armedBy = [n] → e.swp.stuck = [] → e.bit (F.ENG_SWAP_CTL_ARMED n) = true →
       (e.regN (R.ENG_SWAP_FRAME n) + 2 ^ 32 - e.seq) % 2 ^ 32 < 2 →
       n = 0 ∨ BitVec.ofNat 27 (e.regN (R.ENG_SWAP_MASK n)) &&& g.mask ≠ 0 → ChangesIn .eng (.sceneRecall d p) s d fun e =>
         let e := e.setBitAt F.ENG_SWAPIRQ_DISLATE n true
         { e with swp := { e.swp with
           armedBy := []
           stuck := [n]
           waits := [⟨0, g, bitsOf p[0].toNat 0 32, natBit p[1].toNat 16⟩] } }) ∧
     (∀ w : SceneWait, w.group = g → w.slot = 0 → e.swp.waits = [w] → e.swp.stuck = [n] → e.bit (F.ENG_SWAP_CTL_ARMED n) = false →
       ticked.bit (F.ENG_SWAP_CTL_ARMED 0) = false → e.canonical = true → CompletesIn d .ctl (.frameTickLine d) s fun t =>
         (t.die d).eng = ticked.eng ∧ (t.die d).mor = ticked.mor ∧ (t.die d).yard = ticked.yard ∧ (t.die d).vox = ticked.vox ∧
         (t.die d).regN (R.ENG_SWAP_MASK 0) = g.mask.toNat ∧ (t.die d).swp.waits = [] ∧ (t.die d).swp.stuck = [] ∧
         t.die d.other = s.die d.other))

/-- R207, R208, R209, R211, R212: an event pushed by firmware into an allocator that is ON and whose queue has room
enters at the end of the queue, due for the next frame where it carries no time; outside ON or with a full queue it is
dropped and counted. R26, R210, R420: a note load of a known form, whose layer is listened to, enters as many events
as its COUNT says, in block order, as events of the chain; any other load is ignored. While ENG stands still the load
waits, and in a die that only forwards, or whose LTX stands too, it is lost. While the domain of a write it names
stands still, the write waits (R26, R30; as the write of no master: assumption log 252). Completed here:
FIRMWARE_EVENT_PUSH, NOTE_LOAD. -/
def Obligations.EventsEnterTheQueue : Prop :=
  (∀ (d : DieId) (hi : Word) (s : State),
     let e := s.die d
     let e1 := e.setReg R.VOX_FWEV_HI hi
     let ev : Block := hi ++ e1.reg R.VOX_FWEV_LO
     let next := (e1.seq + (if e.eng.window then 2 else 1)) % 2 ^ 32
     (evDiscarded ev = true → Writes .eng R.VOX_FWEV_HI hi (.firmwareEventPush d hi) s d fun _ => e1) ∧
     (evDiscarded ev = false → e1.voxState ≠ St.on → Writes .eng R.VOX_FWEV_HI hi (.firmwareEventPush d hi) s d fun _ => e1.qdrop 0) ∧
     (evDiscarded ev = false → e1.voxState = St.on → 512 ≤ e.vox.queue.length →
       Writes .eng R.VOX_FWEV_HI hi (.firmwareEventPush d hi) s d fun _ => (e1.qdrop 0).setFld F.VOX_IRQ_QFULL 1) ∧
     (evDiscarded ev = false → e1.voxState = St.on → e.vox.queue.length < 512 → natBit ev.toNat 63 = false →
       Writes .eng R.VOX_FWEV_HI hi (.firmwareEventPush d hi) s d fun _ => e1.updVox fun x => { x with
         queue := x.queue ++ [⟨ev, 0, BitVec.ofNat 32 next⟩] })) ∧
  (∀ (d : DieId) (h : Block) (evs : List Block) (s : State),
     let ok := bitsOf h.toNat 56 8 = 0x20 ∧ bitsOf h.toNat 48 8 = 1 ∧ 1 ≤ bitsOf h.toNat 32 6 ∧
       bitsOf h.toNat 32 6 ≤ evs.length ∧ (s.die d).bitAt F.VOX_CHLISTEN_LAYERS (bitsOf h.toNat 44 4) = true
     let e := s.die d
     (e.runs .eng = true → ok → Changes (.noteLoad d (h :: evs)) s d fun e =>
       (evs.take (bitsOf h.toNat 32 6)).foldl (fun e ev => e.enqueue 1 ev) e) ∧
     (e.runs .eng = true → ¬ ok → Changes (.noteLoad d (h :: evs)) s d fun e => e) ∧
     (e.runs .eng = false → e.runs .ltx = true → e.idles = false → Changes (.noteLoad d (h :: evs)) s d fun e => e.updChn fun c => { c with
       waiting := c.waiting ++ [.note (h :: evs)] }) ∧
     (e.runs .eng = false → e.runs .ltx = false ∨ e.idles = true → Changes (.noteLoad d (h :: evs)) s d fun e => e))

/-- R26, R228 to R231, R233, R403: while the unit is OFF or CTL stands a received byte passes nothing; while ENG alone
stands it waits there. RX0 and RX1 show the level of the last stop bit (a reading: assumption log 229). With no byte
waiting and ENG running, a byte with a framing error is counted and the parser waits for a status byte; 0xFE arms
active sensing where it is enabled; the first data byte of a note-on joins the message. A read of the firmware queue
takes its head, and zero from an empty queue. A sensing timeout sets MSENSE and lets sensing rest. While the domain a
command acts in stands still it changes nothing (a reading of R26 and R451: assumption log 230). Completed here:
MIDI_RX_BYTE, MFIFO_READ, ACTIVE_SENSE_TIMEOUT. -/
def Obligations.MidiReception : Prop :=
  ∀ (d : DieId) (u : Fin 2) (b : Byte) (framing : Bool) (m : BitVec 3) (w : Word) (ws : List Word) (s : State),
    let e := s.die d
    (e.runs .ctl = false → Changes (.midiRxByte d u b framing) s d fun e => e) ∧
    (e.fld F.MISC_MIDI_CTRL_STATE = St.off → ChangesIn .ctl (.midiRxByte d u b framing) s d fun e => e) ∧
    (e.fld F.MISC_MIDI_CTRL_STATE ≠ St.off → e.runs .eng = false → ChangesIn .ctl (.midiRxByte d u b framing) s d fun e =>
      (e.midiLevel u framing).updVox fun x => { x with rxHeld := x.rxHeld ++ [(u, b, framing)] }) ∧
    (e.fld F.MISC_MIDI_CTRL_STATE ≠ St.off → e.runs .eng = true → e.vox.rxHeld = [] →
      (ChangesIn .ctl (.midiRxByte d u b true) s d fun e =>
        ((e.midiLevel u true).count (if u = 0 then F.VOX_MERR_M0 else F.VOX_MERR_M1) 1).updMidi u fun p => { p with
          status := 0
          data := [] }) ∧
      (e.canonical = true → e.bitAt F.VOX_MCFG_ASEN u = true → ChangesIn .ctl (.midiRxByte d u 0xFE false) s d fun e =>
        (e.midiLevel u false).updMidi u fun p => { p with sensing := true }) ∧
      (b.toNat < 0x80 → e.vox.midi[u].status.toNat / 16 = 9 → e.vox.midi[u].data = [] →
        ChangesIn .ctl (.midiRxByte d u b false) s d fun e => (e.midiLevel u false).updMidi u fun p => { p with data := [b] })) ∧
    (e.vox.fifo = w :: ws → ChangesIn .ctl (.mfifoRead d m) s d fun e => (e.updVox fun x => { x with fifo := ws }).answer m w) ∧
    (e.vox.fifo = [] → ChangesIn .ctl (.mfifoRead d m) s d fun e => e.answer m 0) ∧
    (e.vox.midi[u].sensing = true → e.canonical = true → CompletesIn d .eng (.activeSenseTimeout d u) s fun t =>
      (t.die d).vox.midi[u].sensing = false ∧ (t.die d).bit F.VOX_IRQ_MSENSE = true ∧ t.die d.other = s.die d.other) ∧
    (e.vox.midi[u].sensing = false → ChangesIn .eng (.activeSenseTimeout d u) s d fun e => e)

/-- R223, R285, R286: a follow takes over the batch its partner sent last, while the link is up and no block of it was
lost; at its resolution it uses that batch where it is for the same frame, and otherwise its own with PAIROWN counted;
a die that holds no batch changes nothing. R213: a batch takes at most 64 events that are due, and loses none: every
event of the queue is taken or left. While the domain a command acts in stands still it changes nothing (a reading of
R26 and R451: assumption log 230). Completed here: FOLLOW_RESOLVE, LEAD_BATCH_RECEIVE. -/
def Obligations.BatchesAreResolved : Prop :=
  (∀ (d : DieId) (own got : Batch) (s : State),
     let e := s.die d
     (e.voxFollows = true → s.linked = true →
       (e.pair.lossy.contains .batch = false → Changes (.leadBatchReceive d) s d fun e =>
         e.updVox fun x => { x with received := (s.die d.other).vox.sent }) ∧
       (e.pair.lossy.contains .batch = true → Changes (.leadBatchReceive d) s d fun e =>
         e.updPair fun p => { p with lossy := p.lossy.erase .batch })) ∧
     (e.voxFollows = false ∨ s.linked = false → Changes (.leadBatchReceive d) s d fun e => e) ∧
     (e.vox.own = none → ChangesIn .eng (.followResolve d) s d fun e => e) ∧
     (e.vox.own = some own → e.vox.received = some got → got.frame = own.frame → ChangesIn .eng (.followResolve d) s d fun e =>
       (e.updVox fun x => { x with own := none, received := none }).resolveBatch got) ∧
     (e.vox.own = some own → (∀ b, e.vox.received = some b → b.frame ≠ own.frame) → ChangesIn .eng (.followResolve d) s d fun e =>
       ((e.updVox fun x => { x with own := none, received := none }).count F.VOX_PAIROWN_COUNT 1).resolveBatch own)) ∧
  (∀ (k : Nat) (q : List NoteEv),
     let r := takeBatch k q [] false false
     r.1.length ≤ 64 ∧ (∀ x ∈ r.1, x.dueBy k = true) ∧ List.Perm (r.1 ++ r.2.1) q ∧ List.Sublist r.2.1 q ∧ List.Sublist r.1 q)

/-- R208, R214, R217: a note-on marked free starts the lowest idle voice: it is ON with the event's group and note and
the next start number, and no other voice changes. R208, R214, R216, R217, R218: a note-on that is dropped counts. One
that steals fades its victim for S frames and starts the lowest idle voice; it is dropped with no victim, or no idle
voice. The victim is a voice of the group in ON, HELD or RELEASE without a command, a released one where PREFREL asks
and one is there: by POLICY the oldest, the oldest of the same note, or the quietest, ties to the lowest number; with
none of the same note, by FALLBACK. R208, R214, R217: the other events of a batch. A note-off releases the oldest ON
voice of its note, or holds it under sustain, and with none the oldest HELD one. ALL_OFF releases the ON and HELD
voices of its group, KILL fades those that are ON, HELD or in RELEASE, and a sustain that goes up releases the HELD
ones, each with the velocity it kept. A controller slot takes its value. The voices stay in rising order
(representation: assumption log 8). R213, R214, R216, R217: before a batch a voice whose fade ends and a released one
of level zero are IDLE, and no group keeps more voices than its QUOTA; FT counts a fade down. The marks of the
note-ons follow source and then arrival, and all are free while the group has room for them. A batch of no event is
that alone. -/
def Obligations.NoteOnStartsLowestIdleVoice : Prop :=
  (∀ (r : VoxRun) (cfg : SMap Word) (ev : Block) (v : Nat), r.die.idleVoice = some v →
     let q := r.noteOn cfg .free ev
     (q.die.voice v).state = .on ∧ (q.die.voice v).group = evGroup ev ∧ (q.die.voice v).note = evNote ev ∧
     (q.die.voice v).start = r.die.vox.next ∧ q.die.vox.next = r.die.vox.next + 1 ∧
     (∀ j, j ≠ v → q.die.voice j = r.die.voice j) ∧ (∀ j, j < v → (r.die.voice j).state ≠ .idle)) ∧
  (∀ (r : VoxRun) (cfg : SMap Word) (ev : Block) (m : Mark) (w : Nat),
     let g := (evGroup ev).toNat
     let q := r.noteOn cfg m ev
     let able := (r.die.voicesOf g Voice.busy).filter fun v => !r.has v.1
     let c := if cfgPrefRel cfg g && able.any (fun v => v.2.state == .release) then able.filter (fun v => v.2.state == .release) else able
     let same := c.filter fun v => v.2.note == evNote ev
     let p := if cfgPolicy cfg g = 2 ∧ same = [] then b2n (cfgFallback cfg g) else cfgPolicy cfg g
     (m = .drop ∨ r.die.idleVoice = none ∨ m = .steal ∧ able = [] → q.cmds = r.cmds ∧ q.die.vox = r.die.vox ∧
       q.die.fld (F.VOX_GDROP_COUNT g) = min (r.die.fld (F.VOX_GDROP_COUNT g) + 1) (2 ^ (F.VOX_GDROP_COUNT g).w - 1) ∧
       q.die.bit F.VOX_IRQ_NOTEDROP = true) ∧
     (r.victim cfg g (evNote ev) = none → able = []) ∧
     (∀ v, r.victim cfg g (evNote ev) = some v →
       v ∈ c ∧ (p = 1 → ∀ x ∈ c, v.2.start.toNat ≤ x.2.start.toNat) ∧
       (p = 2 → v ∈ same ∧ ∀ x ∈ same, v.2.start.toNat ≤ x.2.start.toNat) ∧
       (p = 0 → ∀ x ∈ c, (r.die.level v.1).toInt ≤ (r.die.level x.1).toInt ∧
         (SMap.wf (fun _ => Voice.none) r.die.vox.voices = true → r.die.level x.1 = r.die.level v.1 → v.1 ≤ x.1)) ∧
       (m = .steal → r.die.idleVoice = some w → r.die.voice v.1 = v.2 →
         q.die.voice v.1 = { v.2 with state := .fade, fadeFts := r.die.stealFrames + 1 } ∧
         q.die.voice w = ⟨.on, evGroup ev, evNote ev, r.die.vox.next, 0, 0⟩ ∧ q.die.vox.next = r.die.vox.next + 1 ∧
         (q.cmds.find? (·.1 == v.1)).map (·.2.cmd) = some 3 ∧ (q.cmds.find? (·.1 == w)).map (·.2.cmd) = some 1 ∧
         ∀ j, j ≠ v.1 → j ≠ w → q.die.voice j = r.die.voice j))) ∧
  (∀ (r : VoxRun) (cfg : SMap Word) (ev : Block) (m : Mark) (k : Nat),
     let g := evGroup ev
     let n := g.toNat
     let wf (r : VoxRun) : Bool := SMap.wf (fun _ => Voice.none) r.die.vox.voices
     let q := r.event cfg m ev
     let at_ (s : VState) := oldestOf (r.die.voicesOf n fun v => v.state == s && v.note == evNote ev)
     let x := r.die.voice k
     let y := q.die.voice k
     let told (r : VoxRun) (j : Nat) := (r.cmds.find? (·.1 == j)).map fun c => (c.2.cmd, c.2.value)
     let kept := y = x ∧ told q k = told r k
     let released (vel : BitVec 16) := y = { x with state := .release, relVel := 0 } ∧ told q k = some (2, some vel)
     (wf r = true → wf q = true) ∧
     (wf r = true → evType ev = 2 →
       (∀ v, at_ .on = some v →
         (natBit r.die.vox.sustain.toNat n = true → q.cmds = r.cmds ∧
           y = if k = v.1 then { x with state := .held, relVel := evValue ev } else x) ∧
         (natBit r.die.vox.sustain.toNat n = false → (k = v.1 → released (evValue ev)) ∧ (k ≠ v.1 → kept))) ∧
       (∀ v, at_ .held = some v → at_ .on = none → (k = v.1 → released (evValue ev)) ∧ (k ≠ v.1 → kept)) ∧
       (at_ .on = none → at_ .held = none → q.cmds = r.cmds ∧ y = x)) ∧
     (wf r = true → evType ev = 6 →
       (x.group = g ∧ (x.state = .on ∨ x.state = .held) → released (evValue ev)) ∧
       (¬ (x.group = g ∧ (x.state = .on ∨ x.state = .held)) → kept)) ∧
     (wf r = true → evType ev = 7 → (x.group = g ∧ x.busy = true →
       y = { x with state := .fade, fadeFts := r.die.stealFrames + 1 } ∧ told q k = some (3, none)) ∧
       (¬ (x.group = g ∧ x.busy = true) → kept)) ∧
     (evType ev = 5 → evCtl ev < 8 → kept ∧ n ∈ q.groups ∧ SMap.get (fun _ => 0) q.die.vox.slots (8 * n + evCtl ev) = evValue ev) ∧
     (wf r = true → evType ev = 5 → evCtl ev = 8 →
       natBit q.die.vox.sustain.toNat n = decide (0x8000 ≤ (evValue ev).toNat) ∧
       ((evValue ev).toNat < 0x8000 ∧ x.group = g ∧ x.state = .held → released x.relVel) ∧
       (¬ ((evValue ev).toNat < 0x8000 ∧ x.group = g ∧ x.state = .held) → kept)) ∧
     (wf r = true → evType ev = 3 ∨ evType ev = 4 → y = x ∧ told q k =
       if x.group = g ∧ x.note = evNote ev ∧ x.busy = true then some (evType ev + 1, some (evValue ev)) else told r k)) ∧
  (∀ (r : VoxRun) (cfg : SMap Word) (batch : List NoteEv) (busy fading : Nat → Nat) (i j k : Nat) (g : Fin 16),
     let wf (e : Die) : Bool := SMap.wf (fun _ => Voice.none) e.vox.voices
     let x := r.die.voice k
     let p := r.prepare cfg
     let ons (g : BitVec 4) : List NoteEv := batch.filter fun b => evType b.ev == 1 && evGroup b.ev == g
     (wf r.die = true → wf p.die = true ∧ wf r.die.voxFt = true) ∧
     (wf r.die = true →
       (x.state = .fade → x.fadeFts ≤ 1 → (p.die.voice k).state = .idle) ∧
       (x.state = .fade → 1 < x.fadeFts → p.die.voice k = x) ∧
       (x.state = .release → r.die.level k = 0 → r.die.seatEnded (r.die.voicePlace k).1 = true → (p.die.voice k).state = .idle) ∧
       (p.die.voicesOf g Voice.busy).length ≤ cfgQuota cfg g ∧
       ((r.die.voicesOf x.group.toNat Voice.busy).length ≤ cfgQuota cfg x.group.toNat → x.state = .on ∨ x.state = .held →
         p.die.voice k = x)) ∧
     (wf r.die = true → r.die.voxFt.voice k = if x.state = .fade then { x with fadeFts := x.fadeFts - 1 } else x) ∧
     (r.resolve cfg []).die = p.die ∧ (r.resolve cfg []).cmds = p.cmds ∧
     (∀ a : NoteEv, batch[i]? = some a → ∀ b : NoteEv, batch[j]? = some b → evType a.ev = 1 → evType b.ev = 1 → evGroup a.ev = evGroup b.ev →
       (b.src.val < a.src.val ∨ b.src = a.src ∧ j < i → markOns cfg busy fading batch i ≠ .drop →
         markOns cfg busy fading batch j ≠ .drop ∧ (markOns cfg busy fading batch i = .free → markOns cfg busy fading batch j = .free)) ∧
       ((ons (evGroup a.ev)).length ≤ cfgQuota cfg (evGroup a.ev).toNat - busy (evGroup a.ev).toNat → markOns cfg busy fading batch i = .free)))

/-- R238, R245, R246, R252, R253, R275, R288: eligibility takes the gathered chain sinks for the frame's pallets; an
owned pallet that is inserted on a port that is ON names its origin, index and sequence, is not EMPTY, carries its 32
sinks (rounded to 24 bits on a Gen-1 port) and a good PCRC; any other changes nothing. A master puts the good copy of
a returning pallet into the container being sent where its pallet begins 16 cycles later, and otherwise holds it; a
bad one it drops, counted where it is received. A pallet is passed to the partner while the party wall carries traffic
and no block of it was lost. R26, R238, R254 to R257, R420: a pallet passes nothing while its port is OFF, and waits
while ENG stands, but on a die in NOIMAGE or HOLD, which only forwards (readings: assumption log 231, 236). Of the
pallets on forward in, one with a bad PCRC is counted, an EMPTY one is passed over, one that is stale is counted as
stale; the first good and timely copy of an index and sequence is stored with the slots extracted, and one that comes
after the deadline is counted late. While the domain a command acts in stands still it changes nothing (a reading of
R26 and R451: assumption log 230). Completed here: PALLET_RECEIVE, PALLET_ELIGIBLE, PALLET_INSERT,
MASTER_PALLET_RETURN, PALLET_PASS. -/
def Obligations.PalletsMove : Prop :=
  (∀ (d : DieId) (p : Fin 384) (x : PalletBack) (b : Blocks) (s : State),
     let e := s.die d
     (∃ q : SMap Quarter,
       (∀ k, SMap.get quarterDflt q k = if 0x1000 ≤ k ∧ k < 0x4000 then SMap.get quarterDflt e.mor.sinks k else 0) ∧
       ChangesIn .eng (.palletEligible d) s d fun e => e.updChn fun c => { c with ready := some (BitVec.ofNat 16 e.seq, q) }) ∧
     (∀ (q : BitVec 16) (m : SMap Quarter), e.chn.ready = some (q, m) → e.inserts = true → e.carries e.fwdTo = true →
       e.owns e.fwdTo p.val = true → p.val < e.palletCount e.fwdTo → ∃ x : Blocks,
         palFld x 0 9 = e.fld F.CHN_CTRL_POSID ∧ palFld x 10 9 = p.val ∧ palFld x 19 16 = q.toNat ∧ palFld x 51 1 = 0 ∧
         palFld x 35 16 = palCrc (e.gen1 e.fwdTo) x ∧
         (∀ j : Fin 32, palSlot (e.gen1 e.fwdTo) x j.val =
           let v := SMap.get quarterDflt m (0x1000 + 32 * p.val + j.val)
           if e.gen1 e.fwdTo then BitVec.ofNat 28 ((gen1Sample v).1 * 16) else v) ∧
         (e.gen1 e.fwdTo = false → ChangesIn .eng (.palletInsert d p) s d fun e => e.updChn fun c => { c with
           pallets := SMap.insert c.pallets p.val x }) ∧
         CompletesIn d .eng (.palletInsert d p) s fun t => (t.die d).chn = { e.chn with pallets := SMap.insert e.chn.pallets p.val x } ∧
           (t.die d).eng = e.eng ∧ t.die d.other = s.die d.other) ∧
     (e.chn.ready = none ∨ e.inserts = false ∨ e.carries e.fwdTo = false ∨ e.owns e.fwdTo p.val = false ∨
         e.palletCount e.fwdTo ≤ p.val → ChangesIn .eng (.palletInsert d p) s d fun e => e) ∧
     (let back := Instr.masterPalletReturn d x
       let b := x.blocks
       let on := e.isMaster = true ∧ e.portState e.fwdFrom ≠ St.off
       (¬ on → ChangesIn .ltx back s d fun e => e) ∧
       (on → palFld b 35 16 = palCrc (e.gen1 e.fwdFrom) b → e.intoPresent (palFld b 10 9) x.cycle.toNat = false → ChangesIn .ltx back s d fun e =>
         e.updChn fun c => { c with held := SMap.insert c.held (palFld b 10 9) b }) ∧
       (on → palFld b 35 16 = palCrc (e.gen1 e.fwdFrom) b → e.intoPresent (palFld b 10 9) x.cycle.toNat = true → ChangesIn .ltx back s d fun e =>
         e.updChn fun c => { c with pallets := SMap.insert c.pallets (palFld b 10 9) b }) ∧
       (on → palFld b 35 16 ≠ palCrc (e.gen1 e.fwdFrom) b → ChangesIn .ltx back s d fun e => e)) ∧
     (s.linked = true → (s.die d.other).pair.lossy.contains .pallet = false → Changes (.palletPass d b) s d.other fun e =>
       e.updPair fun p => { p with passed := p.passed ++ [b] }) ∧
     (s.linked = true → (s.die d.other).pair.lossy.contains .pallet = true → Changes (.palletPass d b) s d.other fun e =>
       e.updPair fun p => { p with lossy := p.lossy.erase .pallet }) ∧
     (s.linked = false → Changes (.palletPass d b) s d fun e => e)) ∧
  (∀ (d : DieId) (b : Blocks) (cycle : BitVec 15) (s : State),
     let e := s.die d
     let port := e.fwdFrom
     let idx := palFld b 10 9
     let seq := palFld b 19 16
     let age := (e.seq + 1 + 2 ^ 32 - seq) % 2 ^ 16
     let lim := e.fld F.CHN_PCTL_P + 1
     let late := age = lim ∧ e.cyc < cycle.toNat + 544
     let recv := Instr.palletReceive d .forwardIn b cycle
     let run (f : Die → Die) : Prop := ChangesIn (rxDom port) recv s d f
     (e.portState port = St.off → run fun e => e) ∧
     (e.portState port ≠ St.off → e.runs .eng = false → e.idles = true → run fun e => e) ∧
     (e.portState port ≠ St.off → e.runs .eng = false → e.idles = false → run fun e => e.updChn fun c => { c with
       waiting := c.waiting ++ [.pallet .forwardIn b cycle.toNat] }) ∧
     (e.pair.passed.contains b = false → Changes (.palletReceive d .partyWall b cycle) s d fun e => e) ∧
     (e.portState port ≠ St.off → e.runs .eng = true →
       (palFld b 35 16 ≠ palCrc (e.gen1 port) b → run fun e => e.count (F.CHNX_ERR_PCRC port.idx) 1) ∧
       (palFld b 35 16 = palCrc (e.gen1 port) b → palFld b 51 1 = 1 → run fun e => e) ∧
       (palFld b 35 16 = palCrc (e.gen1 port) b → palFld b 51 1 = 0 → palFld b 0 9 ≠ e.fld F.CHN_CTRL_POSID →
         e.inService = true → idx < 384 →
         (lim < age → run fun e => (e.count F.CHN_STALE_COUNT 1).setFld F.CHN_IRQ_STALE 1) ∧
         (age ≤ lim → e.chn.store.find? (fun c => c.idx == idx && c.seq.toNat == seq) = none →
           (late → run fun e => ((e.count F.CHN_LATE_COUNT 1).setFld F.CHN_IRQ_LATE 1).updChn fun c => { c with
             lateNow := true
             plate := true }) ∧
           (¬ late → ∃ m : BitVec 32, (∀ j : Fin 32, m.getLsbD j.val = e.extAt port (32 * idx + j.val)) ∧
             run fun e => e.updChn fun c => { c with
               store := c.store ++ [⟨idx, BitVec.ofNat 16 seq, BitVec.ofNat 9 (palFld b 0 9), m,
                 Vector.ofFn fun (j : Fin 32) => palSlot (e.gen1 port) b j.val⟩] })))))

/-- R261 to R263, R267, R289: a load on the forward input whose check is bad is counted and dropped; a good one for
others joins the queue with HOPS one higher, and one that has come home leaves the ring. A control block sends the
next block of the load in hand, or the first of the load chosen, and counts it in SENT. A freed count received becomes
the one shown. A ring entry is fetched as a load of the die with the next SEQ, and passed to a follow; a follow queues
what it was passed. R265, R266: a load that is delivered is not delivered a second time, whichever path brings the
second copy; one that finds the receive ring full is not delivered, and is no duplicate later. While the domain a
command acts in stands still it changes nothing (a reading of R26 and R451: assumption log 230). Completed here:
LOAD_RECEIVE, CONTROL_BLOCK_SEND, CREDIT_RECEIVE, LOAD_FETCH, LOAD_RELAY. -/
def Obligations.LoadsMove : Prop :=
  (∀ (d : DieId) (p : PortId) (ld : Load) (room : BitVec 11) (lane : Fin 4) (cred : Block) (s : State),
     let e := s.die d
     let n := ldFld ld 10 9 + 1
     (p ≠ e.fwdFrom ∨ e.portState p = St.off → ChangesIn (rxDom p) (.loadReceive d p ld) s d fun e => e) ∧
     (p = e.fwdFrom → e.portState p ≠ St.off → e.wrapFar = false →
       (ldGood ld = false → ChangesIn (rxDom p) (.loadReceive d p ld) s d fun e => (e.count (F.CHNX_ERR_LCRC p.idx) 1).freeLoad p ld) ∧
       (ldGood ld = true → e.addressed ld = false →
         (n ≤ 511 → ldFld ld 53 9 ≠ e.fld F.CHN_CTRL_POSID → ChangesIn (rxDom p) (.loadReceive d p ld) s d fun e =>
           e.updChn fun c => { c with queue := c.queue ++ [⟨p, false, ldHops ld n⟩] }) ∧
         (511 < n ∨ ldFld ld 53 9 = e.fld F.CHN_CTRL_POSID → ChangesIn (rxDom p) (.loadReceive d p ld) s d fun e =>
           e.freeLoad p (ldHops ld (min n 511))))) ∧
     (e.carries e.fwdTo = false → e.chn.sending = none → ChangesIn .ltx (.controlBlockSend d room) s d fun e =>
       e.updChn fun c => { c with lastBlock := none }) ∧
     (∀ (q : QLoad) (k : Nat), e.carries e.fwdTo = true → e.chn.sending = some (q, k) → k + 1 < (ldBlocks q.ld).length →
       ChangesIn .ltx (.controlBlockSend d room) s d fun e =>
         let f := F.CHNX_LANE_SENT e.fwdTo.idx (e.ctrLane e.fwdTo (ldLane q.ld))
         (e.setFld f (e.fld f + 1)).updChn fun c => { c with
           lastBlock := (ldBlocks q.ld)[k]?
           sending := some (q, k + 1) }) ∧
     (∀ q : QLoad, e.carries e.fwdTo = true → e.chn.sending = none → e.pickLoad room.toNat = some q → e.wrapNear = false →
       q ∈ e.chn.queue ∧ (ldBlocks q.ld).length ≤ room.toNat ∧ e.hasCredit q.ld = true ∧
       ChangesIn .ltx (.controlBlockSend d room) s d fun e =>
         let f := F.CHNX_LANE_SENT e.fwdTo.idx (e.ctrLane e.fwdTo (ldLane q.ld))
         (e.setFld f (e.fld f + 1)).updChn fun c => { c with
           queue := c.queue.erase q
           lastBlock := some q.ld.header
           sending := some (q, 1) }) ∧
     (e.carries e.fwdTo = true → e.chn.sending = none → e.pickLoad room.toNat = none → ChangesIn .ltx (.controlBlockSend d room) s d fun e =>
       e.updChn fun c => { c with lastBlock := none }) ∧
     (e.portState p = St.off → ChangesIn (rxDom p) (.creditReceive d p false cred) s d fun e => e) ∧
     (e.portState p ≠ St.off → e.wrapNear = false → ChangesIn (rxDom p) (.creditReceive d p false cred) s d fun e =>
       let put (e : Die) (l : Nat) : Die := e.setFld (F.CHNX_LANE_FREED p.idx l) (bitsOf cred.toNat (16 * l) 16)
       put (put (put (put e 0) 1) 2) 3) ∧
     (∀ a : Nat, ringAt (e.regN (R.CHN_TXBASE lane)) (e.fld (F.CHN_TXTAIL_INDEX lane)) = some a → e.fetches = true →
       e.fld (F.CHN_TXCNT_COUNT lane) ≠ 0 → e.fld (F.CHN_TXTAIL_INDEX lane) ≠ e.fld (F.CHN_TXHEAD_INDEX lane) →
       e.queued e.fwdOut lane + 66 ≤ 8192 → e.canonical = true → (s.die d.other).pair.lossy.contains .load = false →
       CompletesIn d .ltx (.loadFetch d lane) s fun t => ∃ x : Load, ldGood x = true ∧ ldLane x = lane.val ∧
         ldFld x 53 9 = e.fld F.CHN_CTRL_POSID ∧ ldFld x 25 16 = e.fld (F.CHN_TXSEQ_SEQ lane) ∧
         (t.die d).chn.queue = e.chn.queue ++ [⟨e.fwdOut, true, x⟩] ∧
         (t.die d).fld (F.CHN_TXTAIL_INDEX lane) =
           (if e.fld (F.CHN_TXCNT_COUNT lane) ≤ e.fld (F.CHN_TXTAIL_INDEX lane) + 1 then 0
             else e.fld (F.CHN_TXTAIL_INDEX lane) + 1) ∧
         (t.die d).fld (F.CHN_TXSEQ_SEQ lane) = (e.fld (F.CHN_TXSEQ_SEQ lane) + 1) % 2 ^ 16 ∧
         (t.die d.other).pair.relay = (if e.isLead && s.linked && (s.die d.other).role == Role.follow
           then (s.die d.other).pair.relay ++ [x] else (s.die d.other).pair.relay) ∧ (t.die d).eng = e.eng) ∧
     (e.pair.relay = [] → ChangesIn .ltx (.loadRelay d) s d fun e => e) ∧
     (∀ (x : Load) (xs : List Load), e.pair.relay = x :: xs → ChangesIn .ltx (.loadRelay d) s d fun e =>
       (e.updPair fun p => { p with
         relay := xs
         relayed := p.relayed.setIfInBounds (ldLane x) (some (BitVec.ofNat 16 (ldFld x 25 16))) }).updChn fun c => { c with
           queue := if e.role = Role.follow then c.queue ++ [⟨e.fwdOut, true, x⟩] else c.queue })) ∧
  (∀ (e : Die) (ld : Load) (v w : Bool),
     ((e.deliver ld v).2 ≠ .full → ((e.deliver ld v).1.deliver ld w).2 = .duplicate) ∧
     ((e.deliver ld v).2 = .full → (e.deliver ld v).1 = e.setFld F.CHN_IRQ_RXOVF 1))

/-- R242, R248, R249: a port that is OFF receives nothing; in any other state a start block's header, its check, its
RETURN and its arrival are kept, with the header's check counted where it is bad; a stream that is repeated leaves on
the other port, which is otherwise as it was (R270). A die that is not master, and sends no container of its own any
more (R269), forwards the good header with HOPS one higher, DELAY raised by the hop and the cable, its alarms joined
in and a good HCRC; a master does not forward. While the domain a command acts in stands still it changes nothing (a
reading of R26 and R451: assumption log 230). Completed here: START_BLOCK_RECEIVE, CONTAINER_FORWARD. -/
def Obligations.StartBlocksAreForwarded : Prop :=
  ∀ (d : DieId) (p : PortId) (sb : Byte) (h : Blocks) (arrival : Word) (toFt : BitVec 48) (filler : BitVec 16)
    (before : ContainerEnd) (fill : BitVec 9) (bad : List (BitVec 13)) (s : State),
    let e := s.die d
    let recv := Instr.startBlockReceive d p sb h arrival toFt filler before fill
    let send := Instr.containerForward d bad
    let w := e.wrapSend
    let back := startReturn (e.port e.fwdFrom).startIn
    let own := e.ownGoesOn ((e.port e.fwdFrom).arrival + BitVec.ofNat 32 (e.hopCycles e.fwdFrom))
    (e.portState p = St.off → ChangesIn (rxDom p) recv s d fun e => e) ∧
    (e.portState p ≠ St.off → CompletesIn d (rxDom p) recv s fun t =>
      let x := (t.die d).port p
      x.hdr = some h ∧ x.hdrGood = hdrGood h ∧ x.startIn = sb ∧ x.arrival = arrival ∧ x.silent = false ∧
      (hdrGood h = false → x.good = 0 ∧ x.goodReturn = 0) ∧
      (hdrGood h = true → startReturn sb = true → x.good = 0 ∧ x.goodReturn = (e.port p).goodReturn + 1) ∧
      (startReturn sb = true ∨ p ≠ e.fwdOut → (t.die d).port p.other = e.port p.other) ∧
      (∃ (o : Option Blocks) (b : Byte), (t.die d).port p.other = { e.port p.other with
        out := o
        startOut := b }) ∧ (t.die d).eng = e.eng ∧ (t.die d).yard = e.yard ∧ t.die d.other = s.die d.other) ∧
    (e.isMaster = true ∨ (e.port e.fwdFrom).hdr = none ∨ back = true ∨ own = true → ChangesIn .ltx send s d fun e => e) ∧
    ((e.port e.fwdFrom).hdr = some h → e.isMaster = false → back = false → own = false → w.carries w.fwdTo = true →
      CompletesIn d .ltx send s fun t => ∃ o : Blocks,
        ((t.die d).port w.fwdTo).out = some o ∧ ((t.die d).port w.fwdTo).startOut = w.startByte w.fwdTo false ∧
        (t.die d).chn.errors = bad ∧ hdrGood o = true ∧
        ((e.port e.fwdFrom).hdrGood = false → o = hdrSeal h) ∧
        ((e.port e.fwdFrom).hdrGood = true → hdrFld o 0 0 64 = hdrFld h 0 0 64 ∧
          hdrFld o 4 17 9 = (hdrFld h 4 17 9 + 1) % 2 ^ 9 ∧
          hdrFld o 3 0 48 = (hdrFld h 3 0 48 + 64 * e.hopCycles e.fwdFrom + e.fld (F.CHNX_CABLE_DELAY e.fwdFrom.idx)) % 2 ^ 48 ∧
          hdrFld o 5 0 16 = hdrFld h 5 0 16 ||| w.alarms) ∧
        (t.die d).regs = w.regs ∧ (t.die d).eng = e.eng ∧ t.die d.other = s.die d.other)

/-- R247, R250, R253, R269: a die that is not master originates nothing; a master's container carries its frame
sequence, position and rank, the copies it holds and EMPTY pallets for the rest, and the master is JOINED. An eligible
die that has waited in vain becomes master of its own position and rank; a master, or a die not eligible, does not.
While the domain a command acts in stands still it changes nothing (a reading of R26 and R451: assumption log 230).
Completed here: CONTAINER_ORIGINATE, ELECTION_TIMEOUT. -/
def Obligations.MasterOriginates : Prop :=
  ∀ (d : DieId) (seed : BitVec 48) (ltx : Word) (s : State),
    let e := s.die d
    (e.isMaster = false → ChangesIn .eng (.containerOriginate d seed ltx) s d fun e => e) ∧
    (e.isMaster = true → e.wrapSend.carries e.wrapSend.fwdTo = true → e.canonical = true →
      CompletesIn d .eng (.containerOriginate d seed ltx) s fun t => ∃ o : Blocks,
        ((t.die d).port e.wrapSend.fwdTo).out = some o ∧ hdrGood o = true ∧ hdrFld o 0 0 32 = e.seq ∧
        hdrFld o 3 0 48 = seed.toNat ∧ hdrFld o 4 0 9 = e.fld F.CHN_CTRL_POSID ∧ hdrFld o 4 9 8 = e.fld F.CHN_CTRL_MRANK ∧
        (t.die d).fld F.CHN_STAT_JOIN = 2 ∧ (t.die d).chn.held = [] ∧ (t.die d).chn.originating = true ∧
        (∀ i : Nat, i < e.palletCount e.wrapSend.fwdTo → ∀ b : Blocks, b ≠ Vector.replicate 15 0 →
          SMap.get (fun _ => Vector.replicate 15 0) e.chn.held i = b →
          SMap.get (fun _ => Vector.replicate 15 0) (t.die d).chn.pallets i = b) ∧
        (t.die d).eng = e.eng ∧ t.die d.other = s.die d.other) ∧
    (e.isMaster = true ∨ e.bit F.CHN_CTRL_MCAP = false ∨ e.chn.quiet < 8 + 2 * e.fld F.CHN_CTRL_MRANK ∨
      (e.gen1 e.fwdTo = true ∧ e.bit F.CHN_CTRL_MFORCE = false) → ChangesIn .eng (.electionTimeout d) s d fun e => e) ∧
    (e.isMaster = false → e.bit F.CHN_CTRL_MCAP = true → 8 + 2 * e.fld F.CHN_CTRL_MRANK ≤ e.chn.quiet →
      (e.gen1 e.fwdTo = false ∨ e.bit F.CHN_CTRL_MFORCE = true) → e.canonical = true →
      CompletesIn d .eng (.electionTimeout d) s fun t =>
        (t.die d).isMaster = true ∧ (t.die d).fld F.CHN_STAT_MPOS = e.fld F.CHN_CTRL_POSID ∧
        (t.die d).fld F.CHN_STAT_MRANK = e.fld F.CHN_CTRL_MRANK ∧ (t.die d).chn.electLeft = 64 ∧
        (t.die d).chn.queue = e.chn.queue ∧ (t.die d).eng = e.eng ∧ t.die d.other = s.die d.other)

/-- R250, R251, R254, R259, R268: a detached die is DETACHED, computes no sequence and does not qualify input 3; RESEQ
asks for the computed sequence. POSID changes, and DUPPOS clears, only while both ports are OFF. A map entry waits for
the next FT, and is refused with CAP where the store would be exceeded, the entries that wait counted (assumption log
65). P_ARM arms in time and in range, and otherwise sets PERR. While the domain a command acts in stands still it
changes nothing (a reading of R26 and R451: assumption log 230). While the domain of a write it names stands still,
the write waits (R26, R30; as the write of no master: assumption log 252). Completed here: DETACH, RESEQ_WRITE,
CHAIN_MAP_WRITE, P_ARM, CHN_CTRL_WRITE. -/
def Obligations.ChainIsConfigured : Prop :=
  ∀ (d : DieId) (p : PortId) (v : Word) (s : State),
    let e := s.die d
    let slot := e.fld (F.CHNX_MAPIDX_SLOT p.idx)
    let w : BitVec 2 := BitVec.ofNat 2 (if slot % 32 = 0 then v.toNat % 4 else v.toNat % 2)
    let next := e.updChn fun c => { c with mapNext := c.mapNext ++ [(p, slot, w)] }
    let pnew := e.fld F.CHN_PCTL_PNEW
    let k := e.framesTo (e.regN R.CHN_PFRAME)
    let fit := 2 ≤ k ∧ k < 2 ^ 31 ∧ 16 ≤ pnew ∧ pnew ≤ 512 ∧ e.mapApply.extCount * (pnew + 2) ≤ 1048576
    (e.isMaster = true → ChangesIn .eng (.detach d) s d fun e => e) ∧
    (e.isMaster = false → e.canonical = true → CompletesIn d .eng (.detach d) s fun t =>
      (t.die d).fld F.CHN_STAT_JOIN = 0 ∧ (t.die d).chn.computed = none ∧ (t.die d).chn.fwdGood = none ∧
      (t.die d).qual 3 = false ∧
      (t.die d).eng = e.eng ∧ t.die d.other = s.die d.other) ∧
    (Writes .eng R.CHN_CTRL (e.strobe R.CHN_CTRL 19) (.reseqWrite d) s d fun e => e.updChn fun c => { c with adopt := true }) ∧
    (e.canonical = true → WritesTo .eng R.CHN_CTRL v (.chnCtrlWrite d v) s d fun t =>
      (t.die d).fld F.CHN_CTRL_MCAP = bitsOf v.toNat 9 1 ∧ (t.die d).fld F.CHN_CTRL_MRANK = bitsOf v.toNat 10 8 ∧
      (t.die d).fld F.CHN_CTRL_INS_EN = bitsOf v.toNat 18 1 ∧ (t.die d).fld F.CHN_CTRL_MFORCE = bitsOf v.toNat 20 1 ∧
      (e.portsOff = true → (t.die d).fld F.CHN_CTRL_POSID = bitsOf v.toNat 0 9 ∧ (t.die d).chn.dupPos = false) ∧
      (e.portsOff = false → (t.die d).fld F.CHN_CTRL_POSID = e.fld F.CHN_CTRL_POSID ∧ (t.die d).chn.dupPos = e.chn.dupPos) ∧
      (t.die d).chn.adopt = (natBit v.toNat 19 || e.chn.adopt) ∧ (t.die d).eng = e.eng ∧ t.die d.other = s.die d.other) ∧
    (12288 ≤ slot → Writes .eng (R.CHNX_MAPDATA p.idx) v (.chainMapWrite d p v) s d fun e => e) ∧
    (slot < 12288 → next.mapApply.extCount * (e.fld F.CHN_PCTL_P + 2) ≤ 1048576 →
      Writes .eng (R.CHNX_MAPDATA p.idx) v (.chainMapWrite d p v) s d fun _ => next) ∧
    (slot < 12288 → 1048576 < next.mapApply.extCount * (e.fld F.CHN_PCTL_P + 2) →
      Writes .eng (R.CHNX_MAPDATA p.idx) v (.chainMapWrite d p v) s d fun e => e.setFld F.CHN_IRQ_CAP 1) ∧
    (e.bit F.CHN_PCTL_ARMED = true → Writes .eng R.CHN_PCTL (e.strobe R.CHN_PCTL 26) (.pArm d) s d fun e => e) ∧
    (e.bit F.CHN_PCTL_ARMED = false → fit → Writes .eng R.CHN_PCTL (e.strobe R.CHN_PCTL 26) (.pArm d) s d fun e => e.setFld F.CHN_PCTL_ARMED 1) ∧
    (e.bit F.CHN_PCTL_ARMED = false → ¬ fit → Writes .eng R.CHN_PCTL (e.strobe R.CHN_PCTL 26) (.pArm d) s d fun e => e.setFld F.CHN_IRQ_PERR 1)

/-- R236, R237, R270, R272, R276, R277: a loss on a port that is not OFF sets LOST, and the wraps stand as they are
until a start block: without NOWRAP the die becomes a near wrap point with the next container it sends where its
forward out is lost, and a far wrap point with the next start block on the other port where its forward in is. A port
that is OFF shows its module's inputs and nothing else. (Assumption log 77: what a lock gain clears; log 83: LOS and
MODABS stop the receive domain, and block lock starts it.) A near wrap point heals once its lost port has block lock,
and ends with the container after it has heard of the far one's switch, LOST with it unless a cause stands; a far wrap
point switches with the start block after 256 good ones. Block lock ends LOST unless an input of the module holds it.
The end of a repeat and a restart of FILL change nothing else. While the domain a command acts in stands still it
changes nothing (a reading of R26 and R451: assumption log 230). While the domain of a write it names stands still,
the write waits (R26, R30; as the write of no master: assumption log 252). Completed here: PORT_LOST, REPEAT_END,
NEAR_HEAL, FILL_RESTART, BLOCK_LOCK_GAINED. -/
def Obligations.WrapsFormAndHeal : Prop :=
  ∀ (d : DieId) (p : PortId) (cause : LossCause) (pins : BitVec 3) (bad : List (BitVec 13)) (sb : Byte) (h : Blocks)
    (arrival : Word) (toFt : BitVec 48) (filler : BitVec 16) (before : ContainerEnd) (fill : BitVec 9) (s : State),
    let e := s.die d
    let lock := Instr.blockLockGained d ⟨p, pins⟩
    let recv (p : PortId) := Instr.startBlockReceive d p sb h arrival toFt filler before fill
    let sends := (e.port e.fwdFrom).hdr.isSome = true ∧ e.isMaster = false ∧ startReturn (e.port e.fwdFrom).startIn = false ∧
      e.ownGoesOn ((e.port e.fwdFrom).arrival + BitVec.ofNat 32 (e.hopCycles e.fwdFrom)) = false
    let out := e.fwdOut.idx
    let stands := e.bit (F.CHNX_STAT_LOS out) || e.bit (F.CHNX_STAT_MODABS out) || e.bit (F.CHNX_STAT_TXFLT out) ||
      e.bit (F.CHNX_STAT_HIBER out) || !e.bit (F.CHNX_STAT_LOCK out) || (e.port e.fwdOut).silent
    (e.portState p = St.off →
      (ChangesIn .ltx (.portLost d p cause) s d fun e => match cause with
        | .los => (e.setFld (F.CHNX_STAT_LOS p.idx) 1).rxClock p false
        | .modabs => (e.setFld (F.CHNX_STAT_MODABS p.idx) 1).rxClock p false
        | .txflt => e.setFld (F.CHNX_STAT_TXFLT p.idx) 1
        | _ => e) ∧
      ChangesIn .ltx lock s d fun e => ((e.setFld (F.CHNX_STAT_LOS p.idx) (bitsOf pins.toNat 0 1)).setFld (F.CHNX_STAT_MODABS p.idx)
        (bitsOf pins.toNat 1 1)).setFld (F.CHNX_STAT_TXFLT p.idx) (bitsOf pins.toNat 2 1)) ∧
    (e.portState p ≠ St.off → e.canonical = true →
      (CompletesIn d .ltx (.portLost d p cause) s fun t =>
        (t.die d).bit (F.CHNX_STAT_LOST p.idx) = true ∧ ((t.die d).port p).good = 0 ∧ ((t.die d).port p).goodReturn = 0 ∧
        (t.die d).wrapNear = e.wrapNear ∧ (t.die d).wrapFar = e.wrapFar ∧
        (p = e.fwdOut → e.wrapNear = true → (t.die d).chn.healing = false ∧ (t.die d).chn.stopNext = false) ∧
        (t.die d).eng = e.eng ∧ t.die d.other = s.die d.other) ∧
      (pins.getLsbD 0 = true ∨ pins.getLsbD 1 = true → CompletesIn d .ltx lock s fun t =>
        (t.die d).bit (F.CHNX_STAT_LOST p.idx) = true ∧ (t.die d).bit (F.CHNX_STAT_LOS p.idx) = pins.getLsbD 0 ∧
        (t.die d).bit (F.CHNX_STAT_MODABS p.idx) = pins.getLsbD 1 ∧ (t.die d).bit (F.CHNX_STAT_TXFLT p.idx) = pins.getLsbD 2 ∧
        (t.die d).wrapNear = e.wrapNear ∧ (t.die d).wrapFar = e.wrapFar ∧ (t.die d).eng = e.eng ∧ t.die d.other = s.die d.other) ∧
      (pins.getLsbD 0 = false → pins.getLsbD 1 = false → CompletesIn d .ltx lock s fun t =>
        (t.die d).bit (F.CHNX_STAT_LOCK p.idx) = true ∧ (t.die d).bit (F.CHNX_STAT_LOST p.idx) = (pins != 0) ∧
        (t.die d).bit (F.CHNX_STAT_LOS p.idx) = pins.getLsbD 0 ∧ (t.die d).bit (F.CHNX_STAT_MODABS p.idx) = pins.getLsbD 1 ∧
        (t.die d).bit (F.CHNX_STAT_TXFLT p.idx) = pins.getLsbD 2 ∧ (t.die d).bit (F.CHNX_STAT_HIBER p.idx) = false ∧
        (e.shut (rxDom p) = false → (t.die d).runs (rxDom p) = true) ∧ (t.die d).wrapNear = e.wrapNear ∧ (t.die d).wrapFar = e.wrapFar ∧
        (t.die d).eng = e.eng ∧ t.die d.other = s.die d.other)) ∧
    (e.canonical = true → sends → e.wrapNear = false → CompletesIn d .ltx (.containerForward d bad) s fun t =>
      (t.die d).wrapNear = e.mayWrap e.fwdOut ∧ (t.die d).eng = e.eng ∧ t.die d.other = s.die d.other) ∧
    (e.canonical = true → sends → e.wrapNear = true → CompletesIn d .ltx (.containerForward d bad) s fun t =>
      (e.chn.stopNext = false → (t.die d).wrapNear = true) ∧
      (e.chn.stopNext = true → (t.die d).chn.healing = false ∧
        (stands = false → (t.die d).bit (F.CHNX_STAT_LOST out) = false ∧ (t.die d).wrapNear = false) ∧
        (stands = true → (t.die d).bit (F.CHNX_STAT_LOST out) = e.bit (F.CHNX_STAT_LOST out) ∧ (t.die d).wrapNear = e.mayWrap e.fwdOut)) ∧
      (t.die d).eng = e.eng ∧ t.die d.other = s.die d.other) ∧
    (e.canonical = true → e.portState e.fwdOut ≠ St.off → e.wrapFar = false → CompletesIn d (rxDom e.fwdOut) (recv e.fwdOut) s fun t =>
      (t.die d).wrapFar = e.mayWrap e.fwdIn ∧ (t.die d).eng = e.eng ∧ t.die d.other = s.die d.other) ∧
    (e.canonical = true → e.portState e.fwdIn ≠ St.off → e.wrapFar = true → CompletesIn d (rxDom e.fwdIn) (recv e.fwdIn) s fun t =>
      (t.die d).wrapFar = decide ((e.port e.fwdIn).good < 256) ∧ (t.die d).eng = e.eng ∧ t.die d.other = s.die d.other) ∧
    (e.wrapNear = true ∧ p = e.fwdOut ∧ e.bit (F.CHNX_STAT_LOCK p.idx) = true → ChangesIn .ltx (.nearHeal d p) s d fun e =>
      e.updChn fun c => { c with healing := true }) ∧
    (¬ (e.wrapNear = true ∧ p = e.fwdOut ∧ e.bit (F.CHNX_STAT_LOCK p.idx) = true) → ChangesIn .ltx (.nearHeal d p) s d fun e => e) ∧
    (ChangesIn .ltx (.repeatEnd d) s d fun e => e.updChn fun c => { c with repeating := false }) ∧
    (Writes .ltx (R.CHNX_CTRL p.idx) (e.strobe (R.CHNX_CTRL p.idx) 5) (.fillRestart d p) s d fun e => e.setFld (F.CHNX_FILL_MIN p.idx) 0xFFFF)

/-- R281 to R283, R309, R327, R423: a START die of an identical image that has heard a LEAD joins at phase 1, its live
rows unwritten, its balls released, and REF on input 5; its ENG clock is to stop, and its frame sequence stands until
then. Die A leads after 64 frames without a LEAD, die B after 64 frames of its partner's DWN, a split die whose
partner is split takes SPLIT, and SOLO is held for the next FT. In any other case nothing changes. R304: a lead arms a
hand-over at least 4 frames ahead, and HOLATE says where it cannot; with its partner leading, the old lead releases
the balls and follows on input 5, and otherwise shows HOLATE. (Assumption log 90: HOLATE at a die that is not LEAD,
and the old lead goes by the partner's role.) While the domain a command acts in stands still it changes nothing (a
reading of R26 and R451: assumption log 230). While the domain of a write it names stands still, the write waits (R26,
R30; as the write of no master: assumption log 252). Completed here: HANDOVER_RELEASE, PAIR_JOIN, LEAD_TIMEOUT,
LEAD_ALONE_B, HANDOVER_REQUEST, SOLO, SPLIT_START. -/
def Obligations.RolesBeginAndPass : Prop :=
  (∀ (d : DieId) (s : State),
     let e := s.die d
     let join := e.role = Role.start ∧ e.split = false ∧ e.pair.leadSeen = true ∧ e.bit F.BTL_STAT_IDOK = true ∧
       e.bit F.BTL_STAT_MODEMIS = false
     let alone := e.mayLead = true ∧ e.id = .a ∧ e.pair.leadSeen = false ∧ 64 ≤ e.pair.startFrames
     let after := e.mayLead = true ∧ e.id = .b ∧ e.bit F.PAIR_FENCE_DIN = true ∧ 64 ≤ e.pair.dwnFrames
     let divide := e.imageRuns = true ∧ e.role = Role.start ∧ e.split = true ∧ e.bit F.BTL_STAT_MODEMIS = false ∧
       (if e.bit F.BTL_PINFO_VALID then e.bit F.BTL_PINFO_MODE = true else 64 ≤ e.pair.startFrames)
     let lead (e : Die) : Die := e.updPair fun p => { p with leadNext := some 0 }
     (join → e.canonical = true → WritesTo .eng R.PAIR_CTRL 1 (.pairJoin d) s d fun t =>
       (t.die d).role = Role.join ∧ (t.die d).fld F.PAIR_COPY_PHASE = 1 ∧ (t.die d).pair.restart = .asked ∧ (t.die d).reg R.ENG_SEQ = e.reg R.ENG_SEQ ∧
       (t.die d).pair.driving = false ∧ (t.die d).yard.unwritten = true ∧ (t.die d).yard.rows = e.yard.rows ∧
       (t.die d).fld F.REF_STAT_SEL = 5 ∧ (t.die d).refState = RefSt.lock ∧ (t.die d).eng = e.eng ∧
       t.die d.other = s.die d.other) ∧
     (¬ join → Writes .eng R.PAIR_CTRL 1 (.pairJoin d) s d fun e => e) ∧
     (alone → ChangesIn .eng (.leadTimeout d) s d lead) ∧
     (¬ alone → ChangesIn .eng (.leadTimeout d) s d fun e => e) ∧
     (after → ChangesIn .eng (.leadAloneB d) s d lead) ∧
     (¬ after → ChangesIn .eng (.leadAloneB d) s d fun e => e) ∧
     (divide → ChangesIn .eng (.splitStart d) s d fun e => (e.setFld F.PAIR_STAT_ROLE Role.split).drive true) ∧
     (¬ divide → ChangesIn .eng (.splitStart d) s d fun e => e) ∧
     (e.role = Role.svclost → Writes .eng R.PAIR_CTRL 8 (.solo d) s d fun e => e.updPair fun p => { p with solo := true }) ∧
     (e.role ≠ Role.svclost → Writes .eng R.PAIR_CTRL 8 (.solo d) s d fun e => e)) ∧
  (∀ (d : DieId) (s : State),
     let e := s.die d
     let k := e.framesTo (e.regN R.PAIR_HOFRAME)
     (e.isLead = true → 4 ≤ k → k < 2 ^ 31 → Writes .eng R.PAIR_CTRL 2 (.handoverRequest d) s d fun e =>
       (e.setFld F.PAIR_STAT_HOARMED 1).updPair fun p => { p with hoTarget := some (e.reg R.PAIR_HOFRAME) }) ∧
     (e.isLead = false ∨ k < 4 ∨ 2 ^ 31 ≤ k → Writes .eng R.PAIR_CTRL 2 (.handoverRequest d) s d fun e => e.setFld F.PAIR_IRQ_HOLATE 1) ∧
     (e.pair.hoRelease = false → ChangesIn .eng (.handoverRelease d) s d fun e => e) ∧
     (e.pair.hoRelease = true → (s.die d.other).role ≠ Role.lead → ChangesIn .eng (.handoverRelease d) s d fun e =>
       (e.updPair fun p => { p with
         hoRelease := false
         hoFetch := none }).setFld F.PAIR_IRQ_HOLATE 1) ∧
     (e.pair.hoRelease = true → (s.die d.other).role = Role.lead → e.canonical = true →
       CompletesIn d .eng (.handoverRelease d) s fun t => (t.die d).role = Role.follow ∧ (t.die d).pair.driving = false ∧
         (t.die d).pair.hoRelease = false ∧ (t.die d).fld F.REF_STAT_SEL = 5 ∧ (t.die d).refState = RefSt.lock ∧
         (t.die d).eng = e.eng ∧ t.die d.other = s.die d.other))

/-- R285 to R287, R291, R295, R296, R422, R423: the link is up or down at both dies at once. A heartbeat carries the
last frame's sequence and digests to the partner, a health report its three words, an identity block IDENT, GENERATION
and mode, while the link is up, and waits where the ENG that takes it stands still (R26); nothing arrives while it is
down, and nothing of which a block was dropped; a heartbeat with a dropped block arrives with a bad HCRC and shows
nothing. A dropped block and the failures of the PLLs are counted. The link trains while LTX runs on both dies. A die
that has found the identity blocks to differ keeps IDMIS, and a block that agrees then does not set IDOK (a reading:
assumption log 228). (Assumption log 88: a command carries what it sends at once; log 175: PARTNER changes as the
heartbeat arrives; log 211: the whole frame of a hand-over passes.) While the domain a command acts in stands still it
changes nothing (a reading of R26 and R451: assumption log 230). Completed here: LINK_TRAINED, LINK_DOWN,
PW_BLOCK_DROP, HEARTBEAT_SEND, HEALTH_REPORT_RECEIVE, PLL_CHECK, IDENTITY_BLOCK. -/
def Obligations.PartyWallCarries : Prop :=
  ∀ (d : DieId) (cls : PwClass) (fails : BitVec 3) (s : State),
    let e := s.die d
    let p := s.die d.other
    let told (k : Nat) (t : State) (c : DieId) : Prop := (t.die c).pair.link = k ∧ (t.die c).eng = (s.die c).eng ∧
      ((s.die c).pair.link ≠ k → (s.die c).runs .eng = true → (t.die c).fld F.PAIR_STAT_LINK = k) ∧
      ((s.die c).pair.link ≠ k → (s.die c).runs .eng = false → (s.die c).idles = false →
        (t.die c).pair.waiting = (s.die c).pair.waiting ++ [.link k])
    (s.canonical = true → s.dieA.runs .ltx = true → s.dieB.runs .ltx = true → Completes (.linkTrained d) s fun t => t.linked = true ∧
      (∀ c : DieId, told 2 t c ∧ (t.die c).pair.passed = (s.die c).pair.passed) ∧ t.pending = s.pending) ∧
    (s.dieA.runs .ltx = false ∨ s.dieB.runs .ltx = false → Changes (.linkTrained d) s d fun e => e) ∧
    (s.canonical = true → Completes (.linkDown d) s fun t => t.linked = false ∧
      (∀ c : DieId, ((s.die c).runs .ltx = true → told 1 t c ∧ (t.die c).pair.passed = [] ∧ (t.die c).pair.lossy = []) ∧
        ((s.die c).runs .ltx = false → t.die c = s.die c)) ∧ t.pending = s.pending) ∧
    (s.linked = true → Changes (.pwBlockDrop ⟨d, cls⟩) s d fun e =>
      (e.setFld F.PAIR_LOST_COUNT (satAdd F.PAIR_LOST_COUNT.w (e.fld F.PAIR_LOST_COUNT) 1)).updPair fun p => { p with
        lossy := cls :: p.lossy }) ∧
    (s.linked = false → Changes (.pwBlockDrop ⟨d, cls⟩) s d fun e => e) ∧
    (∀ (j : Nat) (m q : Word) (old : List (Nat × Word × Word)), e.pair.digests = (j, m, q) :: old → s.linked = true → p.canonical = true →
      ∃ h : Heartbeat, h.kind = 0x48 ∧ h.seq = BitVec.ofNat 32 j ∧ h.mdig = m ∧ h.pdig = q ∧ h.role = BitVec.ofNat 3 e.role ∧
        h.die = e.id ∧ h.ftStamp = e.pair.ftStamp ∧ h.slots = e.pair.endSlots ∧
        h.hoFrame = e.pair.hoTarget.getD (e.reg R.PAIR_HOFRAME) ∧ h.good = true ∧
        (p.pair.lossy.contains .heartbeat = false → e.runs .eng = true → p.runs .eng = false → p.idles = false →
          Changes (.heartbeatSend d) s d.other fun f => f.updPair fun y => { y with waiting := y.waiting ++ [.beat h] }) ∧
        (p.pair.lossy.contains .heartbeat = false → p.runs .eng = true → CompletesIn d .eng (.heartbeatSend d) s fun t =>
          (t.die d.other).pair.inbox = p.pair.inbox ++ [h] ∧ (t.die d.other).fld F.PAIR_STAT_PARTNER = h.role.toNat ∧
          (t.die d.other).pair.beat = some (h.seq, h.ftStamp) ∧
          (t.die d.other).pair.leadSeen = (p.pair.leadSeen || h.role.toNat == Role.lead) ∧
          (p.role ≠ Role.lead → (t.die d.other).pair.bothLead = p.pair.bothLead) ∧
          (t.die d.other).eng = p.eng ∧ t.die d = e) ∧
        (p.pair.lossy.contains .heartbeat = true → e.runs .eng = true → p.runs .eng = true → ∃ x : Heartbeat, x.good = false ∧ Changes (.heartbeatSend d) s d.other fun f =>
          f.updPair fun y => { y with
            inbox := y.inbox ++ [x]
            lossy := y.lossy.erase .heartbeat })) ∧
    (s.linked = false → (ChangesIn .eng (.heartbeatSend d) s d fun e => e) ∧ (Changes (.healthReportReceive d) s d fun e => e) ∧
      Changes (.identityBlock d) s d fun e => e) ∧
    (∀ h : Health, p.pair.sent = some h → s.linked = true → e.pair.lossy.contains .health = false → e.canonical = true →
      (e.runs .eng = false → e.idles = false → Changes (.healthReportReceive d) s d fun e => e.updPair fun y => { y with
        waiting := y.waiting ++ [.health h] }) ∧
      (e.runs .eng = true → Completes (.healthReportReceive d) s fun t => (∀ w : Fin 3, (t.die d).reg (R.PAIR_HPART w) = h[w]) ∧
        (t.die d).pair.partner = (h[0].toNat, h) :: e.pair.partner.take 1 ∧ (t.die d).bit F.PAIR_IRQ_HEALTH = true ∧
        (t.die d).eng = e.eng ∧ t.die d.other = p)) ∧
    (ChangesIn .keep (.pllCheck d fails) s d fun e => e.healthNote fun h => { h with
      pll := h.pll + (b2n (fails.getLsbD 0 && !e.shut .eng) + b2n (fails.getLsbD 1 && !e.shut .ctl) + b2n (fails.getLsbD 2 && !e.shut .ltx)) }) ∧
    (s.linked = true → p.imageRuns = true → e.canonical = true → Completes (.identityBlock d) s fun t =>
      (t.die d).reg R.BTL_PIDENT = p.reg R.BTL_IDENT ∧ (t.die d).reg R.BTL_PGEN = p.reg R.BTL_GEN ∧
      (t.die d).regN R.BTL_PINFO = p.fld F.BTL_STAT_ROLE + 4 * p.fld F.BTL_STAT_MODE + 8 ∧
      (e.role = Role.start → e.imageRuns = true → p.fld F.BTL_STAT_MODE = 0 → e.fld F.BTL_STAT_MODE = 0 →
        (p.reg R.BTL_IDENT = e.reg R.BTL_IDENT ∧ p.fld F.BTL_STAT_ROLE = e.fld F.BTL_STAT_ROLE →
          (t.die d).bit F.BTL_STAT_IDMIS = e.bit F.BTL_STAT_IDMIS ∧
          (e.bit F.BTL_STAT_IDMIS = false → (t.die d).bit F.BTL_STAT_IDOK = true)) ∧
        (p.reg R.BTL_IDENT ≠ e.reg R.BTL_IDENT → (t.die d).bit F.BTL_STAT_IDMIS = true ∧
          (t.die d).bit F.BTL_STAT_IDOK = false)) ∧
      (e.role = Role.start → e.imageRuns = true → p.fld F.BTL_STAT_MODE ≠ e.fld F.BTL_STAT_MODE →
        (t.die d).bit F.BTL_STAT_MODEMIS = true) ∧
      (t.die d).eng = e.eng ∧ t.die d.other = p)

/-- R297 to R299, R301: the fence takes a die out of service whose partner asserts it, unless the partner is fenced,
or both asked at once and the other is die A, when the request falls; two dies are never fenced together. UNFENCE
gives the partner free. DWN is seen by the partner until it is released; a follow that sees its lead's DWN fences the
lead, drives the balls and leads from the next FT. A die whose KEEP stands takes the fence in the latch alone (a
reading: assumption log 233). While the domain a command acts in stands still it changes nothing (a reading of R26 and
R451: assumption log 230). Completed here: FENCE_ASSERT, UNFENCE, DWN_ASSERT, STANDDOWN, DRIVER_HOLD_EXPIRE,
LEAD_DWN_RECEIVE, PARTNER_DWN_RELEASE. -/
def Obligations.FenceAndDown : Prop :=
  ∀ (d : DieId) (cause : DwnCause) (s : State), s.canonical = true →
    let e := s.die d
    let p := s.die d.other
    let fin (s : State) (d : DieId) : Bool := (s.die d).bit F.PAIR_FENCE_FIN
    let fout (s : State) (d : DieId) : Bool := (s.die d).bit F.PAIR_FENCE_FOUT
    let downed (t : State) : Prop := (t.die d).bit F.PAIR_FENCE_DOUT = true ∧ (p.runs .keep = true → (t.die d.other).bit F.PAIR_FENCE_DIN = true) ∧
      (t.die d).pair.driving = e.pair.driving ∧
      (t.die d).pair.holding = (e.pair.holding || (e.pair.driving && p.role == Role.follow)) ∧
      (t.die d).eng = e.eng ∧ (t.die d.other).eng = p.eng ∧ (t.die d).role = e.role ∧ (t.die d.other).role = p.role
    let silent : Prop := (cause = .freeze ∧ ¬ (e.role = Role.lead ∧ p.role = Role.follow)) ∨ (cause = .engPll ∧ 2 ≤ e.frzState)
    (fout s d.other = true → fin s d = false → fin s d.other = false → ¬ (fout s d = true ∧ d = .b) →
      Completes (.fenceAssert d) s fun t => fin t d = true ∧ fout t d = false ∧
        (e.runs .keep = true → (t.die d).role = Role.fenced ∧ (t.die d).pair.driving = false ∧ (t.die d).pair.holding = false) ∧
        (e.runs .keep = false → (t.die d).role = e.role ∧ (t.die d).pair = e.pair) ∧ (t.die d).eng = e.eng ∧ t.die d.other = p) ∧
    (fout s d.other = true → fin s d = false → fin s d.other = true ∨ (fout s d = true ∧ d = .b) →
      Changes (.fenceAssert d) s d.other fun f => f.setFld F.PAIR_FENCE_FOUT 0) ∧
    (fout s d.other = false ∨ fin s d = true → Changes (.fenceAssert d) s d fun e => e) ∧
    (¬ (fin s .a = true ∧ fin s .b = true) → Completes (.fenceAssert d) s fun t => ¬ (fin t .a = true ∧ fin t .b = true)) ∧
    (CompletesIn d .keep (.unfence d) s fun t => fout t d = false ∧ fin t d.other = false ∧ (t.die d).role = e.role ∧
      (t.die d.other).role = p.role ∧ (t.die d).eng = e.eng ∧ (t.die d.other).eng = p.eng) ∧
    (CompletesIn d .keep (.standdown d) s downed) ∧
    (¬ silent → CompletesIn d .keep (.dwnAssert d cause) s downed) ∧
    (silent → ChangesIn .keep (.dwnAssert d cause) s d fun e => e) ∧
    (e.pair.holding = true → ChangesIn .keep (.driverHoldExpire d) s d fun e => (e.drive false).updPair fun p => { p with
      holding := false }) ∧
    (e.pair.holding = false → ChangesIn .keep (.driverHoldExpire d) s d fun e => e) ∧
    (p.bit F.PAIR_FENCE_DOUT = true → ChangesIn .keep (.partnerDwnRelease d) s d fun e => e) ∧
    (p.bit F.PAIR_FENCE_DOUT = false → CompletesIn d .keep (.partnerDwnRelease d) s fun t => (t.die d).bit F.PAIR_FENCE_DIN = false ∧
      (t.die d).role = e.role ∧ (t.die d).pair = e.pair ∧ (t.die d).eng = e.eng ∧ t.die d.other = p) ∧
    (e.split = false → e.bit F.PAIR_FENCE_DIN = true → e.fld F.PAIR_STAT_PARTNER = Role.lead → e.role = Role.follow →
      ChangesIn .eng (.leadDwnReceive d) s d fun e => (e.askFence.drive true).updPair fun p => { p with leadNext := some 2 }) ∧
    (e.split = true ∨ e.bit F.PAIR_FENCE_DIN = false ∨ e.fld F.PAIR_STAT_PARTNER ≠ Role.lead →
      ChangesIn .eng (.leadDwnReceive d) s d fun e => e)

/-- R285, R305: while the link is up, no block of the copy was lost and both dies' ENG runs, a joiner takes from the
lead, in phase 1, what each item names, and notes it: a seat's Z banks and its course registers, the routes with their
fades, the voice configurations, the ring descriptors, the swap slots, the generators, the chain maps and P, and
regions of SHARED; the end of a phase whose items have all come gives way to the next. An item of another phase, and
any at a die that is no joiner, changes nothing. R117, R118, R305, R308: in the lead's exchange window alone, phase 2
brings a seat's X, Y and inbound ring tiles and the voice table, and phase 4 the 64 rows of a tile's block or a row of
a yard block that was found to differ; phase 3 brings a yard row in a grant of its bank at each die. Without the
window or the grant nothing changes. Stated for yard rows read without errors, outside a remap and a background test,
in banks that arbitrate. R285, R306: a change of an item that the joiner has copied is made there too, whichever of
the five kinds it is: an ENGW write of a seat's back Z bank, a MORW write, a voice-configuration write, a write of a
ring's back descriptor, and a byte of a copied region of SHARED. A change of what it has not copied, at a die that is
no joiner, or with the link down changes nothing. Stated for good rows and words. Completed here: STATE_COPY_BLOCK,
COPY_CHANGE_REPEAT. -/
def Obligations.StateCopyTakes : Prop :=
  (∀ (d : DieId) (item : CopyItem) (seat : Fin 24) (off n : Nat) (s : State),
     let a := 0x400000 + off
     let e := s.die d
     let lead := s.die d.other
     let ready := s.linked = true ∧ e.pair.lossy.contains .copy = false ∧ e.role = Role.join ∧ e.runs .eng = true ∧ lead.runs .eng = true ∧
       e.canonical = true ∧ lead.canonical = true
     let phase := e.fld F.PAIR_COPY_PHASE
     let noted (t : State) (i : CopyItem) : Prop := (t.die d).pair.copy.items = i :: e.pair.copy.items ∧ t.pending = s.pending ∧
       (t.die d).fld F.PAIR_COPY_PHASE = phase
     (s.linked = false ∨ (e.role ≠ Role.join ∧ e.pair.lossy.contains .copy = false) → Changes (.stateCopyBlock d item) s d fun e => e) ∧
     (ready → item ≠ .phaseEnd → itemPhase item ≠ phase → Changes (.stateCopyBlock d item) s d fun e => e) ∧
     (ready → phase = 1 →
       (∀ c : Fin 28, e.seatCourse seat = some c → ∀ k : Fin 28, lead.seatCourse seat = some k →
         (Completes (.stateCopyBlock d (.zBanks seat)) s fun t => noted t (.zBanks seat) ∧
           (∀ row : Nat, ((t.die d).course c).tileRow Tl.zf row = (lead.course k).delivered.tileRow Tl.zf row ∧
             ((t.die d).course c).tileRow Tl.zb row = (lead.course k).delivered.tileRow Tl.zb row) ∧
           (∀ o : Fin 28, o ≠ c → (t.die d).course o = e.course o) ∧ (t.die d).mor = e.mor ∧ (t.die d).yard = e.yard ∧
           ((lead.course k).bad = [] → t.die d.other = lead)) ∧
         (Completes (.stateCopyBlock d (.courseRegs seat)) s fun t => noted t (.courseRegs seat) ∧
           (let y := (t.die d).course c
            let z := lead.course k
            y.xa = z.xa ∧ y.ya = z.ya ∧ y.za = z.za ∧ y.dp = z.dp ∧ y.xm = z.xm ∧ y.ym = z.ym ∧ y.zm = z.zm ∧ y.dm = z.dm ∧ y.xl = z.xl ∧
            y.yl = z.yl ∧ y.zl = z.zl ∧ y.agm = z.agm ∧ y.levels = z.levels ∧ y.ld = z.ld ∧ y.rc = z.rc ∧ y.ipc = z.ipc ∧ y.ibr = z.ibr ∧
            y.ics = z.ics ∧ y.search = z.search ∧ y.prog = (e.course c).prog ∧ y.x = (e.course c).x ∧ y.bricks = (e.course c).bricks) ∧
           (∀ o : Fin 28, o ≠ c → (t.die d).course o = e.course o) ∧ t.die d.other = lead)) ∧
       (Completes (.stateCopyBlock d .routes) s fun t => noted t .routes ∧ (t.die d).mor = { e.mor with
           front := lead.mor.front
           back := lead.mor.back
           inForce := lead.mor.inForce
           fades := lead.mor.fades } ∧ (t.die d).eng = e.eng ∧ (t.die d).yard = e.yard ∧ t.die d.other = lead) ∧
       (Completes (.stateCopyBlock d .voiceCfg) s fun t => noted t .voiceCfg ∧ (t.die d).vox = { e.vox with
           front := lead.vox.front
           back := lead.vox.back
           late := lead.vox.late } ∧ (t.die d).eng = e.eng ∧ t.die d.other = lead) ∧
       (Completes (.stateCopyBlock d .rings) s fun t => noted t .rings ∧ (t.die d).yard = { e.yard with rings := lead.yard.rings } ∧
           (t.die d).eng = e.eng ∧ t.die d.other = lead) ∧
       (Completes (.stateCopyBlock d .swapSlots) s fun t => noted t .swapSlots ∧
           (∀ k : Fin 4, (t.die d).reg (R.ENG_SWAP_MASK k) = lead.reg (R.ENG_SWAP_MASK k) ∧
             (t.die d).reg (R.ENG_SWAP_FRAME k) = lead.reg (R.ENG_SWAP_FRAME k) ∧
             (t.die d).reg (R.ENG_SWAP_CTL k) = lead.reg (R.ENG_SWAP_CTL k)) ∧ (t.die d).eng = e.eng ∧ t.die d.other = lead) ∧
       (Completes (.stateCopyBlock d .generators) s fun t => noted t .generators ∧
           (∀ r, r ∈ genRegs → (t.die d).reg r = lead.reg r) ∧ (t.die d).mor.gens = lead.mor.gens ∧ (t.die d).mor.pink = lead.mor.pink ∧
           (t.die d).mor.front = e.mor.front ∧ (t.die d).eng = e.eng ∧ t.die d.other = lead) ∧
       (Completes (.stateCopyBlock d .chainMaps) s fun t => noted t .chainMaps ∧ (t.die d).chn.n.map = lead.chn.n.map ∧
           (t.die d).chn.s.map = lead.chn.s.map ∧ (t.die d).fld F.CHN_PCTL_P = lead.fld F.CHN_PCTL_P ∧ (t.die d).eng = e.eng ∧
           t.die d.other = lead) ∧
       (a + n ≤ 0x600000 → e.mem.bad = [] → lead.mem.bad = [] → Completes (.stateCopyBlock d (.sharedRegion a n)) s fun t =>
           noted t (.sharedRegion a n) ∧
           (∀ k : Nat, SMap.get byteDflt (t.die d).mem.bytes k =
             if a ≤ k ∧ k < a + n then SMap.get byteDflt lead.mem.bytes k else SMap.get byteDflt e.mem.bytes k) ∧
           (t.die d).eng = e.eng ∧ t.die d.other = lead)) ∧
     (ready → e.phaseWhole = true →
       (phase = 1 → Completes (.stateCopyBlock d .phaseEnd) s fun t => (t.die d).pair.copy.ended = true ∧ (t.die d).fld F.PAIR_COPY_PHASE = 1 ∧
         (t.die d).eng = e.eng ∧ t.die d.other = lead) ∧
       (phase = 2 ∨ phase = 3 → Completes (.stateCopyBlock d .phaseEnd) s fun t => (t.die d).fld F.PAIR_COPY_PHASE = phase + 1 ∧
         (t.die d).eng = e.eng ∧ t.die d.other = lead)) ∧
     (ready → e.phaseWhole = false → Completes (.stateCopyBlock d .phaseEnd) s fun t => (t.die d).fld F.PAIR_COPY_PHASE = phase ∧
       (t.die d).pair = e.pair ∧ (t.die d).eng = e.eng ∧ t.die d.other = lead)) ∧
  (∀ (d : DieId) (seat : Fin 24) (tl : Fin 3) (blk : Fin 8) (row : BitVec 22) (n : Nat) (s : State),
     let e := s.die d
     let lead := s.die d.other
     let ready := s.linked = true ∧ e.pair.lossy.contains .copy = false ∧ e.role = Role.join ∧ e.runs .eng = true ∧ lead.runs .eng = true ∧
       e.canonical = true ∧ lead.canonical = true
     let r0 : BitVec 9 := BitVec.ofNat 9 (64 * blk.val)
     let phase := e.fld F.PAIR_COPY_PHASE
     let bank := bankOf row
     let asks := e.yard.grants[bank] = some (some .stateCopy) ∧ lead.yard.grants[bank] = some (some .stateCopy)
     let plain (x : Die) : Prop := x.yard.borrowed (x.yard.key row) = none ∧ x.yard.unwritten = false ∧
       SMap.get markDflt x.yard.bad (x.yard.key row) = 0 ∧ x.fld (F.YRD_REMAP_PHASE bank) = 0 ∧ x.yard.rmws = []
     let one (t : State) : Prop := (t.die d).yard.rows = SMap.set rowDflt e.yard.rows (e.yard.key row)
         (SMap.get rowDflt lead.yard.rows (lead.yard.key row)) ∧ (t.die d).yard.grants[bank] = some none ∧
       (t.die d.other).yard = { lead.yard with grants := lead.yard.grants.set bank.val (some none) } ∧ (t.die d).eng = e.eng ∧
       (t.die d.other).regs = lead.regs ∧ (t.die d.other).eng = lead.eng
     (ready → lead.eng.window = false →
       (phase = 2 → Changes (.stateCopyBlock d (.tiles seat)) s d (fun e => e) ∧ Changes (.stateCopyBlock d .voices) s d fun e => e) ∧
       (phase = 4 → Changes (.stateCopyBlock d (.dirtyTile seat tl r0)) s d (fun e => e) ∧
         Changes (.stateCopyBlock d (.dirtyYard row)) s d fun e => e)) ∧
     (ready → lead.eng.window = true → phase = 2 →
       (∀ c : Fin 28, e.seatCourse seat = some c → ∀ k : Fin 28, lead.seatCourse seat = some k → Completes (.stateCopyBlock d (.tiles seat)) s fun t =>
         (∀ i : Nat, ((t.die d).course c).tileRow Tl.x i = (lead.course k).delivered.tileRow Tl.x i ∧
           ((t.die d).course c).tileRow Tl.y i = (lead.course k).delivered.tileRow Tl.y i ∧
           ((t.die d).course c).tileRow Tl.ring i = (lead.course k).delivered.tileRow Tl.ring i) ∧
         (∀ o : Fin 28, o ≠ c → (t.die d).course o = e.course o) ∧
         (t.die d).pair.copy.items = .tiles seat :: e.pair.copy.items ∧ ((lead.course k).bad = [] → t.die d.other = lead)) ∧
       (Completes (.stateCopyBlock d .voices) s fun t => (t.die d).vox = { e.vox with
           voices := lead.vox.voices
           next := lead.vox.next } ∧ (t.die d).pair.copy.items = .voices :: e.pair.copy.items ∧ (t.die d).eng = e.eng ∧
         t.die d.other = lead)) ∧
     (ready → phase = 3 → e.granted bank (some .stateCopy) = false ∨ lead.granted bank (some .stateCopy) = false →
       Changes (.stateCopyBlock d (.yardRows row n)) s d fun e => e) ∧
     (ready → phase = 3 → 1 ≤ n → asks → plain e → plain lead → Completes (.stateCopyBlock d (.yardRows row n)) s fun t => one t ∧
       (t.die d).pair.copy.rows = (row.toNat, 1) :: e.pair.copy.rows) ∧
     (ready → lead.eng.window = true → phase = 4 →
       (∀ c : Fin 28, e.seatCourse seat = some c → ∀ k : Fin 28, lead.seatCourse seat = some k → (e.course c).bad = [] → (lead.course k).bad = [] →
         (tl = 2 → blk = 0) → Completes (.stateCopyBlock d (.dirtyTile seat tl r0)) s fun t =>
         (∀ i : Nat, ((t.die d).course c).tileRow (copyTile tl) i = if r0.toNat ≤ i ∧ i < r0.toNat + 64
           then (lead.course k).tileRow (copyTile tl) i else (e.course c).tileRow (copyTile tl) i) ∧
         (∀ o : Fin 28, o ≠ c → (t.die d).course o = e.course o) ∧
         (t.die d).pair.copy.dirty = e.pair.copy.dirty.erase (.dirtyTile seat tl r0) ∧ (t.die d).yard = e.yard ∧ t.die d.other = lead) ∧
       (asks → plain e → plain lead → row.toNat % 8 = 0 → e.pair.copy.part = [] → Completes (.stateCopyBlock d (.dirtyYard row)) s fun t => one t ∧
         (t.die d).pair.copy.part = [row.toNat] ∧ (t.die d).pair.copy.dirty = e.pair.copy.dirty))) ∧
  (∀ (d : DieId) (ch : CopyChange) (c : Fin 28) (ix : BitVec 12) (q : Quarter) (sink : BitVec 15) (w a : Word) (n : BitVec 10) (b : Byte) (s : State),
     let e := s.die d
     let ready := s.linked = true ∧ e.pair.lossy.contains .copy = false ∧ e.role = Role.join
     let has (i : CopyItem) : Prop := e.pair.copy.items.contains i = true
     let row := ix.toNat / 8
     (s.linked = false ∨ (e.role ≠ Role.join ∧ e.pair.lossy.contains .copy = false) → Changes (.copyChangeRepeat d ch) s d fun e => e) ∧
     (∀ seat : Fin 24, e.workSeat c = some seat → ready → has (.zBanks seat) → SMap.get markDflt (e.course c).bad (tileKey Tl.zb row) = 0 →
       e.canonical = true → Completes (.copyChangeRepeat d (.engw c ix q)) s fun t =>
         (∀ i : Nat, ((t.die d).course c).tileRow Tl.zb i = if i = row then Vector.ofFn fun (l : Fin 8) =>
           if l.val = ix.toNat % 8 then q else ((e.course c).tileRow Tl.zb row)[l] else (e.course c).tileRow Tl.zb i) ∧
         (∀ o : Fin 28, o ≠ c → (t.die d).course o = e.course o) ∧ (t.die d).regs = e.regs ∧ t.die d.other = s.die d.other) ∧
     (∀ seat : Fin 24, e.workSeat c = some seat → ready → ¬ has (.zBanks seat) → Changes (.copyChangeRepeat d (.engw c ix q)) s d fun e => e) ∧
     (ready → has .routes → Changes (.copyChangeRepeat d (.morw sink w)) s d fun e => e.morwWrite sink.toNat w) ∧
     (ready → ¬ has .routes → Changes (.copyChangeRepeat d (.morw sink w)) s d fun e => e) ∧
     (ready → has .voiceCfg → ∀ r, r ∈ voiceCfgRegs → Changes (.copyChangeRepeat d (.voiceReg (BitVec.ofNat 32 r) w)) s d fun e =>
       e.voiceCfgWrite r w) ∧
     (ready → ¬ has .voiceCfg ∨ voiceCfgRegs.contains a.toNat = false → Changes (.copyChangeRepeat d (.voiceReg a w)) s d fun e => e) ∧
     (ready → has .rings → SMap.rising 0 e.yard.rings = true → Completes (.copyChangeRepeat d (.ringBack n w)) s fun t =>
       (∀ k : Nat, (t.die d).yard.ring k = if k = n.toNat then { e.yard.ring n.toNat with
         backLen := w.toNat % 2 ^ 20
         backSmooth := natBit w.toNat 20 } else e.yard.ring k) ∧ (t.die d).regs = e.regs ∧ (t.die d).eng = e.eng ∧
       (t.die d).yard.rows = e.yard.rows ∧ t.die d.other = s.die d.other) ∧
     (ready → ¬ has .rings → Changes (.copyChangeRepeat d (.ringBack n w)) s d fun e => e) ∧
     (ready → e.pair.copy.hasByte a.toNat = true → inMem a.toNat = true → e.mem.bad = [] → Changes (.copyChangeRepeat d (.shared a b)) s d fun e =>
       e.memWrite a.toNat b.toNat 1) ∧
     (ready → e.pair.copy.hasByte a.toNat = false → Changes (.copyChangeRepeat d (.shared a b)) s d fun e => e))

/-- R298, R408, R411 to R415, R418, R420, R427: discovery starts CTL and LTX at STEP 1, and ends a fence whose
holder's DWN then reads asserted; pass 1 marks a slot by what it finds and takes the first intact one, with the IDENT
its table gives (assumption log 257); ENG_START runs ENG and the serial domains with a frame sequence of 0 at STEP 3,
REF in FREE where no input can be selected; pass 2 checks every CRC again and places firmware from the slot's bytes
(log 128: sections whose layout is the builder's come decoded), or marks its slot failed and begins again at STEP 2;
the release runs the cores, frees DWN and enters START at STEP 6. With no slot taken the die idles with its ring
closed, as it does with straps that read Hold; none of this in a die that is LEAVING. A command out of its step
changes nothing. (Assumption log 209: FLASH_DISCOVERY ends the reset; log 133: the first frame is 0; log 210: what a
failed pass 2 leaves.) While the domain a command acts in stands still it changes nothing (a reading of R26 and R451:
assumption log 230). Completed here: FLASH_DISCOVERY, IMAGE_PASS1, ENG_START, IMAGE_PASS2, IMAGE_RELEASE, NOIMAGE,
STRAP_HOLD. -/
def Obligations.LoaderStarts : Prop :=
  ∀ (d : DieId) (bootw : Bool) (role : BitVec 2) (sfdp oct qio qo a4 : Bool) (a b : List Byte) (secs : List Section) (c : Chosen)
    (micros : Word) (s : State),
    let e := s.die d
    let leaving := e.fld F.BTL_PLUG_STATE = 5
    let find := Instr.flashDiscovery d bootw role sfdp oct qio qo a4
    (e.mayStart = false ∨ 2 ≤ e.bootStep → Changes find s d fun e => e) ∧
    (e.mayStart = true → e.bootStep < 2 → s.canonical = true → Completes find s fun t =>
      (t.die d).bootStep = 1 ∧ (t.die d).fld F.BTL_PLUG_STATE = 3 ∧ (t.die d).runs .ctl = true ∧ (t.die d).runs .ltx = true ∧
      (t.die d).fld F.BTL_STRAP_ROLE = role.toNat ∧ (t.die d).boot.sampled = true ∧ (sfdp = false →
        (t.die d).fld F.BTL_FSTAT_MODE = 0) ∧ (t.die d).eng = e.eng ∧
      (let ends := e.bootStep = 0 ∧ e.bit F.PAIR_FENCE_FIN = true ∧ (s.die d.other).bit F.PAIR_FENCE_DOUT = true
       (ends → (t.die d).bit F.PAIR_FENCE_FIN = false ∧ (t.die d.other).bit F.PAIR_FENCE_FOUT = false) ∧
       (¬ ends → t.die d.other = s.die d.other))) ∧
    (e.bootStep = 1 → e.boot.sampled = true → e.fld F.BTL_STRAP_ROLE ≠ 3 → e.canonical = true →
      e.fld F.BTL_SLOTSTAT_A ≠ 9 → e.boot.tried.1 = 0 → le32 b 0x0C ≤ le32 a 0x0C →
      CompletesIn d .ctl (.imagePass1 d a b) s fun t => (t.die d).bootStep = 2 ∧ (t.die d).fld F.BTL_SLOTSTAT_A = judgeSlot a ∧
        (judgeSlot a = 1 → ∃ x : Chosen, (t.die d).boot.chosen = some x ∧ x.slotB = false ∧
          x.table = secTable a ∧ x.ident = BitVec.ofNat 32 (identOf a) ∧ x.gen = BitVec.ofNat 32 (le32 a 0x0C) ∧ (t.die d).bit F.BTL_STAT_SLOT = false) ∧
        (t.die d).eng = e.eng ∧ t.die d.other = s.die d.other) ∧
    (e.boot.chosen = none ∨ e.bootStep ≠ 2 → ChangesIn .ctl (.engStart d) s d fun e => e) ∧
    (e.boot.chosen = some c → e.bootStep = 2 → e.canonical = true → CompletesIn d .ctl (.engStart d) s fun t =>
      (t.die d).bootStep = 3 ∧ (t.die d).runs .eng = true ∧ (t.die d).runs .sapm = true ∧ (t.die d).runs .saps = true ∧
      (t.die d).seq = 0 ∧ (t.die d).fld F.ENG_RATE_RATE = bitsOf c.role.toNat 3 2 ∧
      (t.die d).fld F.PAIR_STAT_MODE = bitsOf c.role.toNat 2 1 ∧
      ((List.range 8).all (fun i => !e.selectable i) = true → (t.die d).refState = RefSt.free ∧ (t.die d).reg R.REF_FOFS = 0) ∧ t.die d.other = s.die d.other) ∧
    (e.boot.chosen = none → ChangesIn .ctl (.imagePass2 d secs b) s d fun e => e) ∧
    (e.boot.chosen = none ∨ leaving → ChangesIn .ctl (.imageRelease d micros) s d fun e => e) ∧
    (e.boot.chosen = some c → e.bootStep = 5 → e.wallsUp = true → e.boot.placed = false → e.canonical = true →
      (∀ (n : Fin 4) (r : SecRow), c.table = [r] → r.type = 0x10 + n.val → r.flags = 0 →
        crc32Bytes (slice b r.offset r.size) = r.crc → CompletesIn d .ctl (.imagePass2 d [] b) s fun t =>
        (t.die d).boot.placed = true ∧ (t.die d).bootStep = 5 ∧
        (t.die d).mem = e.mem.put (0x100000 * n.val) (slice b r.offset r.size) ∧ n ∈ (t.die d).boot.fw ∧ (t.die d).eng = e.eng ∧ t.die d.other = s.die d.other) ∧
      (c.table.any (fun r => crc32Bytes (slice b r.offset r.size) != r.crc) = true →
        CompletesIn d .ctl (.imagePass2 d secs b) s fun t => (t.die d).bootStep = 2 ∧ (t.die d).fld (slotFld c.slotB) = 9 ∧
        (t.die d).boot.chosen = none ∧ (∀ w : Nat, w < 4 → (t.die d).wallState w = St.off) ∧ t.die d.other = s.die d.other)) ∧
    (e.boot.chosen = some c → e.bootStep = 5 → e.boot.placed = true → ¬ leaving → e.canonical = true →
      CompletesIn d .ctl (.imageRelease d micros) s fun t => (t.die d).imageRuns = true ∧ (t.die d).role = Role.start ∧
        (t.die d).bit F.PAIR_FENCE_DOUT = false ∧ (t.die d).reg R.BTL_LOADTIME = micros ∧ (t.die d).reg R.BTL_IDENT = c.ident ∧
        (∀ n : Fin 4, n ∈ e.boot.fw → natBit ((t.die d).fld F.XBR_CORECTL_RUN) n = true) ∧ (t.die d).eng = e.eng ∧
        t.die d.other = s.die d.other) ∧
    (e.bootStep ≠ 2 ∨ e.boot.chosen ≠ none ∨ leaving → ChangesIn .ctl (.noimage d) s d fun e => e) ∧
    (e.bootStep = 2 → e.boot.chosen = none → ¬ leaving → e.canonical = true → CompletesIn d .ctl (.noimage d) s fun t =>
      (t.die d).bootStep = 7 ∧ (t.die d).alertN = true ∧ (t.die d).bit F.CHN_CTRL_MCAP = false ∧
      (∀ p : PortId, (t.die d).bit (F.CHNX_CTRL_EN p.idx) = true ∧ (t.die d).gen1 p = false) ∧ t.die d.other = s.die d.other) ∧
    (e.bootStep = 1 → e.boot.sampled = true → e.fld F.BTL_STRAP_ROLE = 3 → ¬ leaving → e.canonical = true →
      CompletesIn d .ctl (.strapHold d) s fun t => (t.die d).bootStep = 8 ∧ (t.die d).alertN = true ∧
        (t.die d).bit F.CHN_CTRL_MCAP = false ∧ t.die d.other = s.die d.other) ∧
    (e.bootStep ≠ 1 ∨ e.boot.sampled = false ∨ e.fld F.BTL_STRAP_ROLE ≠ 3 ∨ leaving → ChangesIn .ctl (.strapHold d) s d fun e => e)

/-- R298, R299, R418, R419, R421, R427, R429, R454: a die reset, and the reset that ends LEAVING, a freeze or the
power of VCORE, frozen or not, asserts DWN, returns every course, bank and control register to its reset, and keeps
the recorder, the trial record and a partner's fence and the first measurements of BASE (R106); a REBOOT asks for its
key, starts again at STEP 1, and keeps KEEP's registers as well. (Assumption log 126: what survives a die reset; log
186: the baseline survives it.) R409, R426 to R430: a flash GO is taken once the image runs and none is busy, and
otherwise REFUSED; its end shows DONE. A write of FCMD ends the key of REBOOT (R421). The plug manager goes from
ABSENT to SEATED to POWERED, and from a running state to LEAVING with DWN and the ports falling. A rail out of its
window clears its OK and notes WARN; once it is back its OK is set. (Assumption log 183: LEAVING ends before a card is
seated again; log 208: a port that rises falls at its end.) While the domain a command acts in stands still it changes
nothing (a reading of R26 and R451: assumption log 230). Completed here: DIE_RESET, FLASH_COMMAND, FLASH_COMMAND_DONE,
REBOOT, PLUG_SEATED, PLUG_POWERED, PLUG_LEAVING, LEAVE_RESET, SUPPLY_WARN, SUPPLY_RESET, SUPPLY_RESTORE,
READOUT_RESET. -/
def Obligations.DieResetsAndSupplies : Prop :=
  (∀ (d : DieId) (rb : Bool) (s : State), s.canonical = true →
     let e := s.die d
     let p := s.die d.other
     let fresh (from1 : Bool) (t : State) : Prop := (t.die d).eng = { Engine.reset with wearBase := e.eng.wearBase } ∧ (t.die d).yard = Yard.reset ∧ (t.die d).mem = Mem.reset ∧
       (t.die d).cpus = (Die.reset e.id).cpus ∧ (t.die d).posted = [] ∧ (t.die d).frzState = 0 ∧
       (t.die d).bit F.PAIR_FENCE_DOUT = true ∧ (p.runs .keep = true → (t.die d.other).bit F.PAIR_FENCE_DIN = true) ∧
       (t.die d).reg R.BTL_TRIAL = e.reg R.BTL_TRIAL ∧ (t.die d).log.mem = e.log.mem ∧ (t.die d).tim.tick = e.tim.tick ∧
       (∀ a : Nat, survives a = false → regDom a ≠ Dom.keep → a ≠ R.PAIR_FENCE → a / 0x1000 ≠ R.CVD_STAT / 0x1000 →
         (from1 = true → a ≠ R.BTL_STAT) →
         (t.die d).reg a = regReset a) ∧
       (t.die d.other).eng = p.eng ∧ (t.die d.other).yard = p.yard ∧ (t.die d.other).mem = p.mem
     Completes (.dieReset d rb) s (fresh false) ∧
     (e.fld F.BTL_PLUG_STATE = 5 → CompletesIn d .keep (.leaveReset d) s (fresh false)) ∧
     (e.fld F.BTL_PLUG_STATE ≠ 5 → ChangesIn .keep (.leaveReset d) s d fun e => e) ∧
     (e.frzState = 3 → Completes (.readoutReset d) s (fresh false)) ∧
     (e.boot.key = true → CompletesIn d .ctl (.reboot d) s fun t => fresh true t ∧ (t.die d).bootStep = 1 ∧ (t.die d).ref = e.ref ∧
       (t.die d).tim = { e.tim with
         wckOut := false
         ppsOut := 0 }) ∧
     (e.boot.key = false → ChangesIn .ctl (.reboot d) s d fun e => e) ∧
     (e.runs .keep = true ∨ e.frzState = 3 → Completes (.supplyReset d .vcore) s fun t => fresh false t ∧
       ResetRail.vcore ∈ (t.die d).boot.low) ∧
     (e.runs .keep = false → e.frzState ≠ 3 → exec (.supplyReset d .vcore) s = .next s)) ∧
  (∀ (d : DieId) (v : Word) (data : List Byte) (r : Rail) (c : FlashCmd) (s : State),
     let e := s.die d
     let good := 6 ≤ e.bootStep ∧ e.bit F.BTL_FSTAT_BUSY = false ∧ bitsOf v.toNat 16 9 ≤ 256 ∧
       (bitsOf v.toNat 8 3 = 0 ∨ bitsOf v.toNat 8 3 = 3 ∨ bitsOf v.toNat 8 3 = 4)
     let st := e.fld F.BTL_PLUG_STATE
     (natBit v.toNat 31 = false → ChangesIn .ctl (.flashCommand d v) s d fun e =>
       (e.updBoot fun b => { b with key := false }).setRegN R.BTL_FCMD (v.toNat % 2 ^ 26)) ∧
     (natBit v.toNat 31 = true → e.canonical = true →
       (good → CompletesIn d .ctl (.flashCommand d v) s fun t => (t.die d).bit F.BTL_FSTAT_BUSY = true ∧
         (∃ x : FlashCmd, (t.die d).boot.flash = some x ∧ x.addr = e.reg R.BTL_FADDR ∧ x.len = bitsOf v.toNat 16 9 ∧
           x.write = natBit v.toNat 25) ∧ (t.die d).eng = e.eng ∧ t.die d.other = s.die d.other) ∧
       (¬ good → CompletesIn d .ctl (.flashCommand d v) s fun t => (t.die d).bit F.BTL_FSTAT_REFUSED = true ∧
         (t.die d).boot = { e.boot with key := false } ∧ (t.die d).eng = e.eng ∧ t.die d.other = s.die d.other)) ∧
     (e.boot.flash = none → ChangesIn .ctl (.flashCommandDone d data) s d fun e => e) ∧
     (e.boot.flash = some c → e.canonical = true → CompletesIn d .ctl (.flashCommandDone d data) s fun t =>
       (t.die d).boot.flash = none ∧ (t.die d).bit F.BTL_FSTAT_BUSY = false ∧ (t.die d).bit F.BTL_FSTAT_DONE = true ∧
       (∀ k : Nat, k < 256 → k < c.len → k < data.length → c.write = false → c.len ≤ 256 →
         bitsOf ((t.die d).regN (R.BTL_FBUF (k / 4))) (8 * (k % 4)) 8 = (data.getD k 0).toNat) ∧
       t.die d.other = s.die d.other) ∧
     (st = 0 ∨ st = 5 → s.canonical = true → CompletesIn d .keep (.plugSeated d) s fun t => (t.die d).fld F.BTL_PLUG_STATE = 1 ∧
       (t.die d).bit F.BTL_PLUG_SEATED = true ∧ (st = 5 → (t.die d).bootStep = 0) ∧
       (st = 0 ∨ e.bootStep = 0 → (t.die d).boot = e.boot ∧ t.die d.other = s.die d.other)) ∧
     (st ≠ 0 → st ≠ 5 → ChangesIn .keep (.plugSeated d) s d fun e => e) ∧
     (st = 1 → e.fld F.BTL_SUPPLY_OK = 0x3F → e.canonical = true → CompletesIn d .keep (.plugPowered d) s fun t =>
       (t.die d).fld F.BTL_PLUG_STATE = 2 ∧ (t.die d).boot = e.boot ∧ t.die d.other = s.die d.other) ∧
     (st ≠ 1 ∨ e.fld F.BTL_SUPPLY_OK ≠ 0x3F → ChangesIn .keep (.plugPowered d) s d fun e => e) ∧
     (1 ≤ st → st ≤ 4 → s.canonical = true → CompletesIn d .keep (.plugLeaving d) s fun t => (t.die d).fld F.BTL_PLUG_STATE = 5 ∧
       (t.die d).bit F.BTL_PLUG_SEATED = false ∧ (t.die d).bit F.PAIR_FENCE_DOUT = true ∧
       ((s.die d.other).runs .keep = true → (t.die d.other).bit F.PAIR_FENCE_DIN = true) ∧
       (∀ p : PortId, (t.die d).bit (F.CHNX_CTRL_EN p.idx) = false ∧
         (t.die d).portState p = if e.portState p = St.on ∨ e.portState p = St.rising then St.falling else e.portState p)) ∧
     (s.canonical = true → CompletesIn d .keep (.supplyWarn d r) s fun t => (t.die d).bitAt F.BTL_SUPPLY_OK (railBit r) = false ∧
       (t.die d).bitAt F.BTL_SUPPLY_WARN (railBit r) = true ∧ (t.die d).bit F.BTL_PLUG_SUPOK = false ∧
       (r ≠ .vcore → t.die d.other = s.die d.other) ∧ (r = .vcore → (t.die d).bit F.PAIR_FENCE_DOUT = true)) ∧
     (e.canonical = true → e.runs .keep = true ∨ (r = .vio18 ∧ e.boot.low.contains .vio18 = true) → Completes (.supplyRestore d r) s fun t => (t.die d).bitAt F.BTL_SUPPLY_OK (railBit r) = true ∧
       (∀ x, x ∈ (t.die d).boot.low ↔ x ∈ e.boot.low ∧ ¬ ((x = .vcore ∧ r = .vcore) ∨ (x = .vio18 ∧ r = .vio18))) ∧
       (t.die d).eng = e.eng ∧ t.die d.other = s.die d.other))

/-- R313 to R319, R321, R326: an event marks its input active and, on the input that the loop follows, fixes what the
held frequency would be; one that ends a glitched interval is not passed on, and the third such in a second
disqualifies; a displaced event of a ring disqualifies at once. So does a frequency beyond 100 ppm or a stopped input,
and enough good gates qualify. An event on input 5 locks a die that follows to the phase of the lead's FT (the loop's
law is open: assumption log 253). RANK takes what is written; the best input is selectable and none that is has a
lower rank, and an input that may no longer be selected gives way to it. R320 to R331: the end of an absorption gives
the build-out its phase; the slew moves the frequency by no more than its limit, 0.1 ppm in a second where FASTACQ
does not count, and completes at the input's frequency. Lock, its limits and the loss of input 5 move STATE only from
the states that they belong to, and that loss leaves the held frequency. An alignment starts where the reference
allows it, ends done with the build-out at its target or aborted where it stands, and is otherwise ignored. SIDE is
qualified with its frequency, and loses it. (Assumption log 102: REF_PHASE at the end of an alignment; log 219: the
slew after an absorption; log 220: REF_FOFS on input 5.) While the domain a command acts in stands still it changes
nothing (a reading of R26 and R451: assumption log 230). Completed here: REF_INPUT_EVENT, FREQUENCY_GATE,
INPUT_STOPPED, RANK_WRITE, ABSORPTION_END, SLEW_COMPLETE, REF_LOCK, HOLD_LIMIT, PAIR_INPUT_LOSS, WCK_ALIGN, PPS_ALIGN,
ALIGN_ABORT, ALIGN_DONE, SIDE_WCK_QUALIFY, SIDE_WCK_LOSS. -/
def Obligations.ReferenceIsFollowed : Prop :=
  (∀ (d : DieId) (i : Fin 5) (offs : BitVec 16) (near displaced : Bool) (at_ offset : BitVec 48) (v : Word) (s : State),
     (s.die d).canonical = true →
     let e := s.die d
     let event := Instr.refInputEvent d ⟨i.val, by omega⟩ at_ offset displaced
     let now := e.eventInstant i at_ offset
     let bad (f : Nat → Nat → Bool) : Bool := match e.ref.last[i] with
       | some t => f (e.inputHz i) (now - t).toNat
       | none => false
     let off := offs.toInt.natAbs
     let strayed := (i = 3 ∨ i = 4) ∧ (displaced = true ∨ bad displacedIv = true)
     let seen (e : Die) : Die := (e.setFld (F.REF_IN_ACT i) 1).updRef fun r => { r with last := r.last.set i.val (some now) i.isLt }
     let same (t : State) : Prop := (t.die d).eng = e.eng ∧ (t.die d).yard = e.yard ∧ t.die d.other = s.die d.other
     (bad glitchIv = false → ¬ strayed → ChangesIn .keep event s d fun e => if e.fld F.REF_STAT_SEL = i.val then (seen e).loopEvent else seen e) ∧
     (bad glitchIv = true → ¬ strayed → (e.recentGlitches i).length < 2 → CompletesIn d .keep event s fun t =>
       (t.die d).bit (F.REF_IN_ACT i) = true ∧ (t.die d).qual i = e.qual i ∧ (t.die d).ref.held = e.ref.held ∧
       ((t.die d).recentGlitches i).length = (e.recentGlitches i).length + 1 ∧ same t) ∧
     (bad glitchIv = true → 2 ≤ (e.recentGlitches i).length → CompletesIn d .keep event s fun t =>
       (t.die d).qual i = false ∧ (t.die d).bit (F.REF_IN_ACT i) = true ∧ same t) ∧
     (strayed → CompletesIn d .keep event s fun t => (t.die d).qual i = false ∧ (t.die d).bit (F.REF_IN_ACT i) = true ∧ same t) ∧
     (∀ (j : Word) (st : BitVec 48), e.refFollows = true → e.pair.beat = some (j, st) →
       CompletesIn d .keep (.refInputEvent d 5 at_ offset displaced) s fun t => (t.die d).refState = RefSt.lock ∧
         (t.die d).fld F.REF_STAT_SEL = 5 ∧
         (t.die d).reg R.REF_FOFS = (match e.pair.fts.find? (fun x => x.1 == (j.toNat + 1) % 2 ^ 32) with
           | some x => BitVec.ofInt 32 (e.fofs + Config.loopStep 20000 (st - x.2).toInt)
           | none => e.reg R.REF_FOFS) ∧ same t) ∧
     (e.refFollows = false ∨ e.pair.beat = none → ChangesIn .keep (.refInputEvent d 5 at_ offset displaced) s d fun e => e) ∧
     (CompletesIn d .keep (.inputStopped d i) s fun t => (t.die d).qual i = false ∧ (t.die d).bit (F.REF_IN_ACT i) = false ∧ same t) ∧
     (CompletesIn d .keep (.frequencyGate d i offs near) s fun t => (t.die d).fld (F.REF_IN_OFFS i) = offs.toNat ∧
       (t.die d).bit (F.REF_IN_RATEMIS i) = (near && decide (10000 < off)) ∧
       (10000 < off → (t.die d).qual i = false) ∧
       (off ≤ 5000 → e.ringBar i = 0 → e.qual i = true ∨ (if i = 2 then 2 else 20) ≤ e.ref.gates[i] + 1 →
         (t.die d).qual i = true) ∧ same t) ∧
     (CompletesIn d .keep (.rankWrite d v) s fun t => (t.die d).fld F.REF_RANK_RANK = v.toNat % 2 ^ F.REF_RANK_RANK.w ∧ same t) ∧
     (∀ j : Nat, let e1 := e.setFld F.REF_RANK_RANK v.toNat
       e.refFollows = false → e.bit F.REF_STAT_SWITCHING = false → e.refState = RefSt.lock →
       e1.selectable (e.fld F.REF_STAT_SEL) = false → e1.bestInput = some j → CompletesIn d .keep (.rankWrite d v) s fun t =>
         (t.die d).fld F.REF_STAT_SEL = j ∧ (t.die d).refState = RefSt.acq ∧ (t.die d).bit F.REF_STAT_SWITCHING = true) ∧
     (∀ j : Nat, e.bestInput = some j → e.selectable j = true ∧
       (e.bit F.REF_CTRL_FORCE = false → ∀ k : Nat, e.selectable k = true → e.rank j ≤ e.rank k))) ∧
  (∀ (d : DieId) (fofs phase : Word) (fine : BitVec 7) (ns : Nat) (s : State), (s.die d).canonical = true →
     let e := s.die d
     let sel := e.inFreq (e.fld F.REF_STAT_SEL)
     let acquired := e.refState = RefSt.acq ∧ e.bit F.REF_STAT_SWITCHING = false ∧ (e.fofs - e.ref.alignOff - sel).natAbs ≤ 100
     let ended (t : State) : Prop := (t.die d).reg R.REF_FOFS = BitVec.ofInt 32 (e.fofs - e.ref.alignOff) ∧ (t.die d).ref.alignOff = 0 ∧
       (t.die d).reg R.REF_PHASE = e.reg R.REF_PHASE ∧ (t.die d).bit F.REF_STAT_ALIGNING = false ∧ (t.die d).bit F.REF_IRQ_ALIGN = true
     let held := e.refState = RefSt.hold ∧ e.regN R.REF_HOLDLIM < e.regN R.REF_HOLDTIME
     let still := e.refState = RefSt.free ∨ e.refState = RefSt.hold ∨ e.refState = RefSt.lost ∨ e.refFollows = true
     let same (t : State) : Prop := (t.die d).eng = e.eng ∧ (t.die d).tim = e.tim ∧ t.die d.other = s.die d.other
     let idle (i : Instr) : Prop := Changes i s d fun e => e
     (e.bit F.REF_STAT_SWITCHING = true → CompletesIn d .keep (.absorptionEnd d phase) s fun t => (t.die d).reg R.REF_PHASE = phase ∧ same t) ∧
     (e.bit F.REF_STAT_SWITCHING = false → idle (.absorptionEnd d phase)) ∧
     (((e.slewTick ns).fofs - e.fofs).natAbs ≤ (e.ref.slewAcc + ns * e.slewRate) / 1000000000) ∧
     (e.bit F.REF_CTRL_FASTACQ = false → e.slewRate = 1000) ∧
     (e.ref.slewing = true → e.fofs - e.ref.alignOff = sel → ChangesIn .keep (.slewComplete d fine phase) s d fun e =>
       { e with ref := { e.ref with slewing := false } }) ∧
     (e.ref.slewing = false ∨ e.fofs - e.ref.alignOff ≠ sel → idle (.slewComplete d fine phase)) ∧
     (¬ acquired → idle (.refLock d)) ∧
     (acquired → CompletesIn d .keep (.refLock d) s fun t => (t.die d).refState = RefSt.lock ∧ (t.die d).ref.reached = true ∧
       (t.die d).bit F.REF_IRQ_STATE = true ∧ same t) ∧
     (held → CompletesIn d .keep (.holdLimit d) s fun t => (t.die d).refState = RefSt.lost ∧ (t.die d).regN R.REF_HOLDTIME = e.regN R.REF_HOLDTIME ∧
       same t) ∧
     (¬ held → idle (.holdLimit d)) ∧
     (e.refFollows = true → CompletesIn d .keep (.pairInputLoss d) s fun t => (t.die d).refState = RefSt.hold ∧
       (∀ f : Int, e.ref.held = some f → (t.die d).reg R.REF_FOFS = BitVec.ofInt 32 f) ∧ same t) ∧
     (e.refFollows = false → idle (.pairInputLoss d)) ∧
     (still → idle (.wckAlign d)) ∧
     (¬ still → ChangesIn .keep (.wckAlign d) s d fun e => e.setFld F.REF_STAT_ALIGNING 1) ∧
     (ChangesIn .keep (.ppsAlign d) s d fun e => { e with tim := { e.tim with ppsAlign := true } }) ∧
     (e.bit F.REF_STAT_ALIGNING = false → idle (.alignAbort d) ∧ idle (.alignDone d)) ∧
     (e.bit F.REF_STAT_ALIGNING = true →
       (CompletesIn d .keep (.alignAbort d) s fun t => ended t ∧ same t) ∧
       (e.reg R.REF_PHASE = e.reg R.REF_ALIGNOFS → CompletesIn d .keep (.alignDone d) s fun t => ended t ∧ same t) ∧
       (e.reg R.REF_PHASE ≠ e.reg R.REF_ALIGNOFS → idle (.alignDone d))) ∧
     (fofs.toNat < 32000000 ∨ 192000000 < fofs.toNat → idle (.sideWckQualify d fofs)) ∧
     (32000000 ≤ fofs.toNat → fofs.toNat ≤ 192000000 → CompletesIn d .keep (.sideWckQualify d fofs) s fun t => (t.die d).bit F.REF_SIDE_QUAL = true ∧ (t.die d).reg R.REF_SIDEFREQ = fofs ∧
       (e.bit F.REF_SIDE_QUAL = false → (t.die d).bit F.REF_IRQ_SIDE = true) ∧ same t) ∧
     (CompletesIn d .keep (.sideWckLoss d) s fun t => (t.die d).bit F.REF_SIDE_QUAL = false ∧
       (t.die d).reg R.REF_SIDEFREQ = e.reg R.REF_SIDEFREQ ∧ (e.bit F.REF_SIDE_QUAL = true → (t.die d).bit F.REF_IRQ_SIDE = true) ∧
       same t))

/-- R329, R330, R332, R334, R336, R338, R339: a difference of another source than the one in use does nothing; the
first of that source sets TIME and VALID, and later the mean of 64 containers or 4 edges sets TIM_OFFS, a slew of at
most 1000 toward it and FAR beyond the limit, and leaves TIME. A step is armed in time only. A bad time-of-day message
sets TODERR; a good one gives the coming second. An edge counts one second on, or takes the message in sequence, and
under PPS that second is compared with TIME. A read of TIM_NS captures the seconds that belong to it. A PPS_OUT pulse
that waits to be placed does not start with the divider. (Assumption log 105: the slew is an operand within its bound;
log 221: the differences to TIME.) R340 to R342: a selected event enters its queue with its ID and its preloaded AGE,
and is dropped and counted where eight wait; an event that is not selected enters none. A read returns the head's ID,
removes it and latches its AGE, and all ones from an empty queue. While the domain a command acts in stands still it
changes nothing (a reading of R26 and R451: assumption log 230). Completed here: PPS_OUT_PULSE, TIME_OFFSET_UPDATE,
TIME_STEP_ARM, TOD_MESSAGE, PPS_EDGE, STAMP_CAPTURE, STAMP_READ, TIME_NS_READ, WCK_OUT_FALL. -/
def Obligations.TimeAndStamps : Prop :=
  (∀ (d : DieId) (pps : Bool) (frac : BitVec 12) (corr : Word) (msg : Vector Byte 16) (win : Bool) (m : BitVec 3) (s : State),
     (s.die d).canonical = true →
     let e := s.die d
     let same (t : State) : Prop := (t.die d).eng = e.eng ∧ (t.die d).ref = e.ref ∧ t.die d.other = s.die d.other
     let update := Instr.timeOffsetUpdate d pps frac corr
     let source := if pps then 1 else 2
     let used := e.timUsed = source ∧ e.tim.diffSrc = source
     let late : Int := frac.toNat % (25 * e.keepNs)
     let enough : Nat := if pps then 4 else 64
     (¬ used ∨ e.tim.diffs = [] → Changes update s d fun e => e) ∧
     (∀ (x : Int) (xs : List Int), used → e.tim.diffs = x :: xs →
       let n := (((e.tim.own : Int) + x - late) / 25).toNat
       let mean : Int := clampI (-2 ^ 31) (2 ^ 31 - 1) (((x :: xs).foldl (· + ·) 0 / (x :: xs).length - late) / 25)
       (e.bit F.TIM_STAT_VALID = false → CompletesIn d .keep update s fun t =>
         (t.die d).tim.sec = BitVec.ofNat 48 (n / 1000000000) ∧ (t.die d).tim.ns = BitVec.ofNat 32 (n % 1000000000) ∧
         (t.die d).tim.tick = e.tim.tick ∧ (t.die d).tim.diffs = [] ∧
         (t.die d).bit F.TIM_STAT_VALID = true ∧ (t.die d).bit F.TIM_IRQ_VALID = true ∧ same t) ∧
       (e.bit F.TIM_STAT_VALID = true → (x :: xs).length < enough → Changes update s d fun e => e) ∧
       (e.bit F.TIM_STAT_VALID = true → enough ≤ (x :: xs).length → CompletesIn d .keep update s fun t =>
         (t.die d).reg R.TIM_OFFS = BitVec.ofInt 32 mean ∧
         (mean < 0 → ((t.die d).reg R.TIM_CORR).toInt ≤ 0) ∧ (0 < mean → 0 ≤ ((t.die d).reg R.TIM_CORR).toInt) ∧
         -1000 ≤ ((t.die d).reg R.TIM_CORR).toInt ∧ ((t.die d).reg R.TIM_CORR).toInt ≤ 1000 ∧
         (t.die d).bit F.TIM_STAT_FAR = decide (e.regN R.TIM_STEPLIM < mean.natAbs) ∧
         (t.die d).tim = { e.tim with diffs := [] } ∧ same t)) ∧
     (e.armOk (e.regN R.TIM_STEPFRAME) = true → ChangesIn .keep (.timeStepArm d) s d fun e => e.setFld F.TIM_STAT_STEPARMED 1) ∧
     (e.armOk (e.regN R.TIM_STEPFRAME) = false → ChangesIn .keep (.timeStepArm d) s d fun e => e) ∧
     (todGood msg win = false → ChangesIn .keep (.todMessage d msg win) s d fun e => e.setFld F.TIM_IRQ_TODERR 1) ∧
     (todGood msg win = true → CompletesIn d .keep (.todMessage d msg win) s fun t =>
       (t.die d).tim.tod.got = some (BitVec.ofNat 48 (beBytes ((msg.toList.drop 4).take 6))) ∧
       (t.die d).fld F.TIM_UTC_UTCOFS = beBytes ((msg.toList.drop 10).take 2) ∧ (t.die d).fld F.TIM_UTC_FLAGS = msg[3].toNat % 16 ∧
       (t.die d).tim.sec = e.tim.sec ∧ (t.die d).tim.ns = e.tim.ns ∧ same t) ∧
     (e.qual 2 = false → ChangesIn .keep (.ppsEdge d) s d fun e => e) ∧
     (e.qual 2 = true → e.tim.tod.accepted = true → CompletesIn d .keep (.ppsEdge d) s fun t =>
       (e.tim.tod.got = none → (t.die d).tim.tod.count = e.tim.tod.count + 1 ∧
         (t.die d).tim.tod.missing = e.tim.tod.missing + 1 ∧
         (t.die d).bit F.TIM_STAT_TODLOST = decide (16 ≤ e.tim.tod.missing + 1)) ∧
       (e.tim.tod.got = some (e.tim.tod.count + 1) → (t.die d).tim.tod.count = e.tim.tod.count + 1 ∧
         (t.die d).tim.tod.missing = 0 ∧ (t.die d).bit F.TIM_STAT_TODLOST = false) ∧
       (e.timUsed = 1 → (t.die d).tim.diffSrc = 1 ∧ (t.die d).tim.diffs.head? =
         some (((t.die d).tim.tod.count.toNat * 25000000000 : Int) - e.tim.own)) ∧
       (t.die d).tim.tod.got = none ∧ same t) ∧
     (CompletesIn d .ctl (.timeNsRead d m) s fun t => ∃ k : Nat, k < e.keepNs ∧ (t.die d).tim.cap = (addNs e.tim.sec e.tim.ns k).1 ∧
       (t.die d).resp = e.resp.set m.toNat ⟨(addNs e.tim.sec e.tim.ns k).2, false⟩ m.isLt ∧ (t.die d).tim.sec = e.tim.sec ∧
       (t.die d).regs = e.regs ∧ same t) ∧
     (e.ppsOn = true → e.tim.ppsAlign = false → ChangesIn .eng (.ppsOutPulse d) s d fun e => e.updTim fun t => { t with
       ppsOut := 1000 }) ∧
     (e.ppsOn = false ∨ e.tim.ppsAlign = true → ChangesIn .eng (.ppsOutPulse d) s d fun e => e) ∧
     (ChangesIn .eng (.wckOutFall d) s d fun e => e.updTim fun t => { t with wckOut := false })) ∧
  (∀ (d : DieId) (ev : StampEvent) (pre : Word) (m : BitVec 3) (rx : Bool) (id : Nat) (age : Word) (s : State),
     let e := s.die d
     let q := if rx then e.tim.rx else e.tim.tx
     let put (t : Tim) (l : List Stamp) : Tim := if rx then { t with rx := l } else { t with tx := l }
     (e.stampId ev = none → ev ≠ .ppsRx → ChangesIn .keep (.stampCapture d ev pre) s d fun e => e) ∧
     (e.stampId ev = some (rx, id) → ev ≠ .ppsRx → q.length < 8 → ChangesIn .keep (.stampCapture d ev pre) s d fun e =>
       e.updTim fun t => put t (q ++ [⟨BitVec.ofNat 32 id, pre⟩])) ∧
     (e.stampId ev = some (rx, id) → ev ≠ .ppsRx → 8 ≤ q.length → ChangesIn .keep (.stampCapture d ev pre) s d fun e =>
       ((e.count (if rx then F.TIM_SQDROP_RX else F.TIM_SQDROP_TX) 1).setFld
         (if rx then F.TIM_SQSTAT_RXOVF else F.TIM_SQSTAT_TXOVF) 1).setFld F.TIM_IRQ_OVF 1) ∧
     (q = [] → ChangesIn .ctl (.stampRead d m rx age) s d fun e => e.answer m 0xFFFFFFFF) ∧
     (∀ (x : Stamp) (xs : List Stamp), q = x :: xs → e.canonical = true → CompletesIn d .ctl (.stampRead d m rx age) s fun t =>
       (t.die d).tim = put e.tim xs ∧ (t.die d).resp = e.resp.set m.toNat ⟨x.id, false⟩ m.isLt ∧
       (t.die d).regN (if rx then R.TIM_SQRXAGE else R.TIM_SQTXAGE) = satAdd 32 x.age.toNat age.toNat ∧
       (t.die d).eng = e.eng ∧ t.die d.other = s.die d.other))

/-- R352, R353, R356 to R361: a word enters a port that passes data, and slips where two frames wait; the next word
leaves for its slot, at high impedance where the slot is masked. Masks wait for the port's next frame, and for their
group's clock. EN takes effect always, a format only while the port is OFF and where it is accepted. A lost group
clock stops its domain and makes each ON port of the group alien. (Assumption log 116: formats are compared as they
read.) While the domain a command acts in stands still it changes nothing (a reading of R26 and R451: assumption log
230). While the domain of a write it names stands still, the write waits (R26, R30; as the write of no master:
assumption log 252). Completed here: PORT_FRAME, SAP_INPUT_WORD, SAP_OUTPUT_WORD, SAP_MASK_WRITE, SAP_CTRL_WRITE,
GROUP_CLOCK_LOSS. -/
def Obligations.SerialPortsPass : Prop :=
  ∀ (d : DieId) (p : Fin 8) (w : Word) (phase : BitVec 15) (bits : BitVec 16) (alien : Bool) (side : Bool) (s : State),
    let e := s.die d
    let q := e.sapPort p
    let idle (i : Instr) : Prop := Changes i s d fun e => e
    let dw := widthOf (e.fld (F.SAP_P_CTRL_DW p.val))
    let fmt (e : Die) : Nat := bitsOf (e.regN (R.SAP_P_CTRL p.val)) 3 14
    let ok := e.sapState p = St.off ∧ sapFormatOk w.toNat (!e.slave p) (1024 / 2 ^ e.kCode (e.group p)) = true
    let g : Fin 2 := if side then 1 else 0
    (q.flow = false ∨ e.passing p = false → idle (.sapInputWord d p w)) ∧
    (q.flow = true → e.passing p = true → q.inQ.length < 2 * e.slotCount p → ChangesIn (groupDom (e.group p)) (.sapInputWord d p w) s d fun e =>
      e.updSap p fun q => { q with inQ := q.inQ ++ [sapIn dw w] }) ∧
    (q.flow = true → e.passing p = true → 2 * e.slotCount p ≤ q.inQ.length → ChangesIn (groupDom (e.group p)) (.sapInputWord d p w) s d fun e =>
      (e.setFld (F.SAP_P_STAT_SLIP p.val) 1).setBitAt (F.SAP_G_IRQ_SLIP (e.group p).val) p.val true) ∧
    (e.sapState p = St.off → idle (.sapOutputWord d p) ∧ idle (.portFrame d p phase bits alien false)) ∧
    (∀ (x : Quarter) (xs : List Quarter), e.passing p = true → q.flow = true → q.outRun = true → q.outQ = x :: xs →
      CompletesIn d (groupDom (e.group p)) (.sapOutputWord d p) s fun t => (t.die d).sapPort p = { q with
        outQ := xs
        slot := q.slot + 1
        dout := if natBit (e.fld (F.SAP_P_AMASK_OUT p.val)) q.slot then some (sapOut dw x).1 else none } ∧
      (∀ o : Fin 8, o ≠ p → (t.die d).sapPort o = e.sapPort o) ∧ (t.die d).eng = e.eng ∧ t.die d.other = s.die d.other) ∧
    (e.canonical = true → WritesTo (groupDom (e.group p)) (R.SAP_P_MASK p) w (.sapMaskWrite d p w false) s d fun t => (t.die d).reg (R.SAP_P_MASK p.val) = w ∧
      (t.die d).fld (F.SAP_P_AMASK_IN p.val) = e.fld (F.SAP_P_AMASK_IN p.val) ∧
      (t.die d).fld (F.SAP_P_AMASK_OUT p.val) = e.fld (F.SAP_P_AMASK_OUT p.val) ∧ ((t.die d).sapPort p).maskLate = false ∧
      (t.die d).eng = e.eng ∧ t.die d.other = s.die d.other) ∧
    (e.canonical = true → e.sapState p ≠ St.off → (e.slave p = true → e.breaks p phase.toNat bits.toNat alien = false) →
      q.maskLate = false → e.shut (groupDom (e.group p)) = false →
      e.runs (groupDom (e.group p)) = true ∨ e.sap.lost[e.group p] = true → Completes (.portFrame d p phase bits alien false) s fun t =>
        (t.die d).fld (F.SAP_P_AMASK_IN p.val) = e.fld (F.SAP_P_MASK_IN p.val) % 2 ^ e.slotCount p ∧
        (t.die d).fld (F.SAP_P_AMASK_OUT p.val) = e.fld (F.SAP_P_MASK_OUT p.val) % 2 ^ e.slotCount p ∧
        ((t.die d).sapPort p).slot = 0 ∧ ((t.die d).sapPort p).flow = e.passing p ∧ (t.die d).eng = e.eng ∧
        t.die d.other = s.die d.other) ∧
    (e.canonical = true → WritesTo .eng (R.SAP_P_CTRL p) w (.sapCtrlWrite d p w) s d fun t =>
      (t.die d).fld (F.SAP_P_CTRL_EN p.val) = w.toNat % 2 ∧ (t.die d).sapState p = e.sapState p ∧
      (ok → fmt (t.die d) = bitsOf (sapNorm w.toNat) 3 14) ∧ (¬ ok → fmt (t.die d) = fmt e) ∧
      ((t.die d).bit (F.SAP_P_STAT_FMTERR p.val) = true ↔ e.bit (F.SAP_P_STAT_FMTERR p.val) = true ∨
        (¬ ok ∧ (e.sapState p = St.off ∨ sapNorm w.toNat ≠ sapNorm (fmt e * 8)))) ∧
      (t.die d).sap = e.sap ∧ (t.die d).eng = e.eng ∧ t.die d.other = s.die d.other) ∧
    (e.canonical = true → CompletesIn d .keep (.groupClockLoss d side) s fun t => (t.die d).bit (F.SAP_G_IRQ_CLKLOSS g.val) = true ∧
      (t.die d).runs (groupDom g) = false ∧
      (∀ o : Fin 8, e.group o = g → e.sapState o = St.on → (t.die d).bit (F.SAP_P_STAT_ALIEN o.val) = true) ∧
      (t.die d).eng = e.eng ∧ t.die d.other = s.die d.other)

/-- R367 to R370, R372: the clear input sets every hold and every DAC to the clear code; of a block that is OFF it
reads high, and the level counts from RISING on (assumption log 255). A write of DATA keeps the code, and ends the
hold where the block is ON, the clear input is high and no setting event meets it; in RISING it is kept for the first
FT of ON. CFG takes its six bits, with RBEN on precision channels only. A good VCV sets the holds until the image
runs. While the domain a command acts in stands still it changes nothing (a reading of R26 and R451: assumption log
230). While the domain of a write it names stands still, the write waits (R26, R30; as the write of no master:
assumption log 252). Completed here: CV_CLEAR_INPUT, CV_DATA_WRITE, CV_CFG_WRITE, VCV_GOOD. -/
def Obligations.CvHoldsAndCodes : Prop :=
  ∀ (d : DieId) (n : Fin 16) (v : Word) (setting : Bool) (s : State), (s.die d).canonical = true →
    let e := s.die d
    let held (t : State) : Prop := ∀ k : Fin 16, (t.die d).bit (F.CVD_N_STAT_CLRHOLD k.val) = true ∧
      (t.die d).cvd.dac[k] = e.clearCode ∧ k ∉ (t.die d).cvd.armed
    let same (t : State) : Prop := (t.die d).eng = e.eng ∧ (t.die d).mor = e.mor ∧ t.die d.other = s.die d.other
    let hold (e : Die) : Nat := e.fld (F.CVD_N_STAT_CLRHOLD n.val)
    (e.cvState = St.off → ChangesIn .keep (.cvClearInput d setting) s d fun e => e.updCvd fun c => { c with clrLow := setting }) ∧
    (e.cvState ≠ St.off → CompletesIn d .keep (.cvClearInput d true) s fun t => held t ∧ (t.die d).bit F.CVD_STAT_CLRIN = true ∧
      (t.die d).bit F.CVD_IRQ_CLR = true ∧ same t) ∧
    (e.cvState ≠ St.off → ChangesIn .keep (.cvClearInput d false) s d fun e =>
      (e.updCvd fun c => { c with clrLow := false }).setFld F.CVD_STAT_CLRIN 0) ∧
    (WritesTo .eng (R.CVD_N_DATA n) v (.cvDataWrite d n v setting) s d fun t => bitsOf ((t.die d).regN (R.CVD_N_DATA n.val)) 0 18 = bitsOf v.toNat 0 18 ∧
      (setting = true ∨ e.bit F.CVD_STAT_CLRIN = true → hold (t.die d) = hold e ∧ (t.die d).cvd = e.cvd) ∧
      (setting = false → e.bit F.CVD_STAT_CLRIN = false → e.cvState = St.on → hold (t.die d) = 0 ∧ (t.die d).cvd = e.cvd) ∧
      (setting = false → e.bit F.CVD_STAT_CLRIN = false → e.cvState = St.rising → hold (t.die d) = hold e ∧
        n ∈ (t.die d).cvd.armed) ∧
      (t.die d).cvd.dac = e.cvd.dac ∧ same t) ∧
    (WritesTo .eng (R.CVD_N_CFG n) v (.cvCfgWrite d n v) s d fun t => (t.die d).regN (R.CVD_N_CFG n.val) =
        (if n.val < 8 then v.toNat % 64 else v.toNat % 64 - 16 * bitsOf v.toNat 4 1) ∧
      (t.die d).fld (F.CVD_N_STAT_ASPAN n.val) = e.fld (F.CVD_N_STAT_ASPAN n.val) ∧ (t.die d).cvd = e.cvd ∧ same t) ∧
    (e.imageRuns = true → ChangesIn .keep (.vcvGood d) s d fun e => e.setFld F.CVD_STAT_VCVOK 1) ∧
    (e.imageRuns = false → CompletesIn d .keep (.vcvGood d) s fun t => held t ∧ (t.die d).bit F.CVD_STAT_VCVOK = true ∧
      (∀ k : Fin 16, (t.die d).fld (F.CVD_N_STAT_ASPAN k.val) = 0) ∧
      (t.die d).cvd.keepDrive = true ∧ same t)

/-- R380, R382: an ALU instruction that issues writes its function of the operands to its destination, x0 apart, and
goes on past itself in one cycle; a multiply writes its part of the exact product, and a divide its quotient or
remainder in 33 cycles. Nothing else changes. Quotient and remainder make up the dividend, by zero and at the overflow
too. (Assumption log 142: the core's instructions and CSRs are those of the RISC-V manuals; log 145: the stall after
MUL.) Completed here: ALU_INSTRUCTION, MUL, DIV. -/
def Obligations.CoreArithmetic : Prop :=
  (∀ (d : DieId) (n : Fin 4) (rd rs1 rs2 : XReg) (i : BitVec 12) (u : BitVec 20) (comp : Bool) (s : State),
    let e := s.die d
    let c := e.core n
    let gives (o : Instr) (comp : Bool) (cycles : Nat) (srcs : List XReg) (late : XReg) (v : Word) : Prop :=
      e.coreIssues n comp = true → Changes o s d fun e => e.updCpu n fun c =>
        { c with
          x := if rd = 0 then c.x else c.x.set rd.toNat v rd.isLt
          mcycle := c.mcycle + BitVec.ofNat 64 (cycles + b2n (c.late != 0 && srcs.contains c.late))
          minstret := c.minstret + 1
          late := late
          pc := c.pc + (if comp then 2 else 4) }
    let reg (f : AluFn) (v : Word) : Prop := gives (.aluInstruction d n (.reg f rd rs1 rs2) comp) comp 1 [rs1, rs2] 0 v
    let imm (f : AluFn) (v : Word) : Prop := gives (.aluInstruction d n (.imm f rd rs1 i) comp) comp 1 [rs1] 0 v
    let a := c.reg rs1
    let b := c.reg rs2
    let k := i.signExtend 32
    reg .add (a + b) ∧ reg .sub (a - b) ∧ reg .and (a &&& b) ∧ reg .or (a ||| b) ∧ reg .xor (a ^^^ b) ∧
    reg .sll (a <<< (b.toNat % 32)) ∧ reg .srl (a >>> (b.toNat % 32)) ∧ reg .sra (a.sshiftRight (b.toNat % 32)) ∧
    reg .slt (if a.toInt < b.toInt then 1 else 0) ∧ reg .sltu (if a.toNat < b.toNat then 1 else 0) ∧
    imm .add (a + k) ∧ imm .and (a &&& k) ∧ imm .or (a ||| k) ∧ imm .xor (a ^^^ k) ∧
    imm .sll (a <<< (k.toNat % 32)) ∧ imm .srl (a >>> (k.toNat % 32)) ∧ imm .sra (a.sshiftRight (k.toNat % 32)) ∧
    imm .slt (if a.toInt < k.toInt then 1 else 0) ∧ imm .sltu (if a.toNat < k.toNat then 1 else 0) ∧
    gives (.aluInstruction d n (.lui rd u) comp) comp 1 [] 0 (u ++ (0 : BitVec 12)) ∧
    gives (.aluInstruction d n (.auipc rd u) comp) comp 1 [] 0 (c.pc + (u ++ (0 : BitVec 12))) ∧
    gives (.mulInsn d n .mul rd rs1 rs2) false 1 [rs1, rs2] rd (BitVec.ofInt 32 (a.toInt * b.toInt)) ∧
    gives (.mulInsn d n .mulh rd rs1 rs2) false 1 [rs1, rs2] rd (BitVec.ofInt 32 (a.toInt * b.toInt / 2 ^ 32)) ∧
    gives (.mulInsn d n .mulhu rd rs1 rs2) false 1 [rs1, rs2] rd (BitVec.ofNat 32 (a.toNat * b.toNat / 2 ^ 32)) ∧
    gives (.mulInsn d n .mulhsu rd rs1 rs2) false 1 [rs1, rs2] rd (BitVec.ofInt 32 (a.toInt * (b.toNat : Int) / 2 ^ 32)) ∧
    ∀ f : DivFn, gives (.divInsn d n f rd rs1 rs2) false 33 [rs1, rs2] 0 (DivFn.eval f a b)) ∧
  ∀ a b : Word,
    DivFn.eval .div a b * b + DivFn.eval .rem a b = a ∧ DivFn.eval .divu a b * b + DivFn.eval .remu a b = a ∧
    (b ≠ 0 → (DivFn.eval .remu a b).toNat < b.toNat ∧ (DivFn.eval .rem a b).toInt.natAbs < b.toInt.natAbs) ∧
    (b = 0 → DivFn.eval .div a b = BitVec.allOnes 32 ∧ DivFn.eval .divu a b = BitVec.allOnes 32)

/-- R382, R383, R389: a branch whose condition holds, JAL and JALR go to their target, the latter two with the next
address in their destination; a branch whose condition does not hold goes on. MRET goes back to mepc in the mode of
MPP. WFI stops issue while no enabled line is pending. A target that cannot be fetched raises an instruction access
fault there. (Assumption log 142: the core's instructions and CSRs are those of the RISC-V manuals; log 146: a jump
traps at the jump.) Completed here: TAKEN_BRANCH, JALR, MRET, WFI. -/
def Obligations.CoreControlFlow : Prop :=
  ∀ (d : DieId) (n : Fin 4) (rd rs1 rs2 : XReg) (k : BrCond) (bo : BitVec 13) (jo : BitVec 21) (ro : BitVec 12) (comp : Bool)
    (s : State),
    let e := s.die d
    let c := e.core n
    let past := c.pc + (if comp then 2 else 4)
    let goes (o : Instr) (link : Bool) (target : Word) : Prop := e.coreIssues n comp = true →
      (e.fetchDenied n target = false → Completes o s fun t => ((t.die d).core n).pc = target ∧
        (∀ r : XReg, ((t.die d).core n).reg r = if link = true ∧ r = rd ∧ r ≠ 0 then past else c.reg r) ∧
        ((t.die d).core n).minstret = c.minstret + 1 ∧ ((t.die d).core n).user = c.user ∧ s.OnlyCore t d n) ∧
      (e.fetchDenied n target = true → Completes o s fun t => ((t.die d).core n).mcause = 1 ∧
        ((t.die d).core n).mepc = target ∧ ((t.die d).core n).mtval = target ∧ ((t.die d).core n).user = false ∧
        ((t.die d).core n).pc = c.mtvec &&& 0xFFFFFF00 ∧ s.OnlyCore t d n)
    goes (.jalr d n rd rs1 ro comp) true ((c.reg rs1 + ro.signExtend 32) &&& 0xFFFFFFFE) ∧
    goes (.takenBranch d n (.jal rd jo) comp) true ((c.pc + jo.signExtend 32) &&& 0xFFFFFFFE) ∧
    (BrCond.holds k (c.reg rs1) (c.reg rs2) = true →
      goes (.takenBranch d n (.branch k rs1 rs2 bo) comp) false ((c.pc + bo.signExtend 32) &&& 0xFFFFFFFE) ∧
      goes (.aluInstruction d n (.branch k rs1 rs2 bo) comp) false ((c.pc + bo.signExtend 32) &&& 0xFFFFFFFE)) ∧
    (BrCond.holds k (c.reg rs1) (c.reg rs2) = false → e.coreIssues n comp = true →
      Completes (.aluInstruction d n (.branch k rs1 rs2 bo) comp) s fun t => ((t.die d).core n).pc = past ∧
        ((t.die d).core n).x = c.x ∧ ((t.die d).core n).minstret = c.minstret + 1 ∧ s.OnlyCore t d n) ∧
    (e.coreIssues n false = true → c.user = false → c.pmpPass c.mppUser 2 c.mepc.toNat = true → c.mepc.toNat / 0x100000 = n.val →
      Completes (.mret d n) s fun t => ((t.die d).core n).pc = c.mepc ∧ ((t.die d).core n).user = c.mppUser ∧
        ((t.die d).core n).mie = c.mpie ∧ ((t.die d).core n).mpie = true ∧ ((t.die d).core n).mppUser = true ∧
        ((t.die d).core n).x = c.x ∧ ((t.die d).core n).mcycle =
          c.mcycle + BitVec.ofNat 64 4 ∧ s.OnlyCore t d n) ∧
    (e.coreIssues n false = true → c.user = true → Completes (.mret d n) s fun t => c.Trapped ((t.die d).core n) 2 0x30200073 ∧
      s.OnlyCore t d n) ∧
    (e.coreIssues n false = true → ¬ (c.user = true ∧ c.tw = true) → Completes (.wfi d n) s fun t =>
      ((t.die d).core n).waiting = (e.claim n).isNone ∧ ((t.die d).core n).pc = c.pc + 4 ∧ ((t.die d).core n).x = c.x ∧
      s.OnlyCore t d n)

/-- R380, R383, R386 to R389: an illegal encoding, ECALL, EBREAK and an interrupt each save the pc and the status,
name their cause, and enter machine mode with interrupts off at mtvec, an interrupt's vector apart. The line taken is
the lowest that is pending and enabled. A CSR that is not there is an illegal instruction. FENCE and FENCE.I go on.
CORE_RUN holds the cores whose bit is 0 in reset and leaves the others. (Assumption log 142: the core's instructions
and CSRs are those of the RISC-V manuals; log 146: the trap of a fetch.) While the domain a command acts in stands
still it changes nothing (a reading of R26 and R451: assumption log 230). Completed here: ILLEGAL_INSTRUCTION,
CORE_INTERRUPT_ENTRY, CORE_RUN_WRITE, ENVIRONMENT_CALL. -/
def Obligations.CoreExceptions : Prop :=
  ∀ (d : DieId) (n : Fin 4) (word v : Word) (rd rs1 : XReg) (csr : BitVec 12) (comp divide : Bool) (s : State),
    let e := s.die d
    let c := e.core n
    let base := c.mtvec &&& 0xFFFFFF00
    let traps (i : Instr) (cause : Nat) (tval : Word) : Prop := Completes i s fun t =>
      c.Trapped ((t.die d).core n) cause tval ∧ ((t.die d).core n).pc = base ∧ s.OnlyCore t d n
    (e.coreIssues n (bitsOf word.toNat 0 2 != 3) = true → traps (.illegalInstruction d n word) 2 word) ∧
    (e.coreIssues n comp = true → traps (.environmentCall d n true comp) 3 c.pc ∧
      traps (.environmentCall d n false comp) (if c.user then 8 else 11) 0) ∧
    (e.coreIssues n false = true → e.csrRead n csr.toNat = none →
      traps (.aluInstruction d n (.csrReg .rw rd rs1 csr) false) 2 (csrInsn .rw false rd rs1 csr)) ∧
    (e.coreIssues n comp = true → c.user = false → Completes (.aluInstruction d n (.csrReg .rw rd rs1 0x340) comp) s fun t =>
      ((t.die d).core n).mscratch = c.reg rs1 ∧
      (∀ r : XReg, ((t.die d).core n).reg r = if r = rd ∧ r ≠ 0 then c.mscratch else c.reg r) ∧ s.OnlyCore t d n) ∧
    (∀ o : AluOp, o = .fence ∨ o = .fenceI → e.coreIssues n comp = true → Completes (.aluInstruction d n o comp) s fun t =>
      ((t.die d).core n).x = c.x ∧ ((t.die d).core n).pc = c.pc + (if comp then 2 else 4) ∧ s.OnlyCore t d n) ∧
    (e.runs .ctl = true → e.bitAt F.XBR_CORECTL_RUN n.val = true → c.waiting = false → e.stalls (BitVec.ofNat 3 n.val) = false →
      e.fetchDenied n c.pc = true →
      traps (.aluInstruction d n .fence comp) 1 c.pc) ∧
    (∀ l : Nat, e.claim n = some l → e.runs .ctl = true → e.bitAt F.XBR_CORECTL_RUN n.val = true → c.meie = true →
      c.user = true ∨ c.mie = true →
      (natBit (e.regN (R.XBR_N_IEN n.val)) l = true ∧ e.pendingAt n l = true ∧ l < 32 ∧
        ∀ k : Nat, k < l → ¬ (natBit (e.regN (R.XBR_N_IEN n.val)) k = true ∧ e.pendingAt n k = true)) ∧
      Completes (.coreInterruptEntry d n divide) s fun t =>
        c.Trapped ((t.die d).core n) (0x80000010 + l) 0 ∧ ((t.die d).core n).pc =
          (if natBit c.mtvec.toNat 0 then base + BitVec.ofNat 32 (4 * (16 + l)) else base) ∧
        (t.die d).xbar.reqs = e.xbar.reqs.set n.val none ∧ (t.die d).mem = e.mem ∧ (t.die d).eng = e.eng ∧
        (∀ k : Fin 4, k ≠ n → (t.die d).core k = e.core k) ∧ t.die d.other = s.die d.other) ∧
    (e.claim n = none ∨ c.meie = false ∨ (c.user = false ∧ c.mie = false) → Changes (.coreInterruptEntry d n divide) s d fun e => e) ∧
    (e.canonical = true → CompletesIn d .ctl (.coreRunWrite d v) s fun t => (t.die d).fld F.XBR_CORECTL_RUN = v.toNat % 16 ∧
      (∀ k : Fin 4, (t.die d).core k = if natBit v.toNat k.val then e.core k else Cpu.reset k.val) ∧ (t.die d).mem = e.mem ∧
      (t.die d).eng = e.eng ∧ t.die d.other = s.die d.other)

/-- R382, R390 to R392, R395: a core's store to a bank or SHARED replaces the bytes it addresses and no other, and its
load of good bytes answers them, extended, unless a burst of another master holds the path, when it loses a cycle and
stays where it is; a misaligned one, or one that PMP refuses, raises its exception with the address and stores
nothing. (Assumption log 142: the core's instructions and CSRs are those of the RISC-V manuals; log 145: the stall
after a load.) Completed here: CORE_LOAD, CORE_STORE. -/
def Obligations.CoreLoadsAndStores : Prop :=
  ∀ (d : DieId) (n : Fin 4) (lf : LoadFn) (sf : StoreFn) (rd rs1 rs2 : XReg) (ofs : BitVec 12) (comp : Bool) (s : State),
    let e := s.die d
    let c := e.core n
    let a := c.reg rs1 + ofs.signExtend 32
    let bytes := accBytes (StoreFn.size sf)
    let byte (m : Mem) (k : Nat) : Byte := SMap.get byteDflt m.bytes k
    let traps (i : Instr) (cause : Nat) : Prop := Completes i s fun t =>
      c.Trapped ((t.die d).core n) cause a ∧ ((t.die d).core n).pc = c.mtvec &&& 0xFFFFFF00 ∧ s.OnlyCore t d n
    let held := e.xbar.held n.val (targetOf n.val a.toNat)
    let loses (i : Instr) : Prop := Completes i s fun t => ((t.die d).core n) = { c with mcycle := c.mcycle + 1 } ∧ s.OnlyCore t d n
    e.coreIssues n comp = true →
    (held = false → e.mem.mark a.toNat = 0 → inMem a.toNat = true → a.toNat % bytes = 0 → c.pmpPass c.dataUser 1 a.toNat = true → e.mem.wf = true →
      Completes (.coreStore d n sf rs1 rs2 ofs comp) s fun t =>
        (∀ k : Nat, k < bytes → (byte (t.die d).mem (a.toNat + k)).toNat = (c.reg rs2).toNat / 256 ^ k % 256) ∧
        (∀ k : Nat, k < a.toNat ∨ a.toNat + bytes ≤ k → byte (t.die d).mem k = byte e.mem k) ∧
        ((t.die d).core n).x = c.x ∧ ((t.die d).core n).pc = c.pc + (if comp then 2 else 4) ∧
        ((t.die d).core n).minstret = c.minstret + 1 ∧ (t.die d).regs = e.regs ∧ (t.die d).eng = e.eng ∧
        t.die d.other = s.die d.other) ∧
    (held = false → inMem a.toNat = true → a.toNat % accBytes (LoadFn.size lf) = 0 → c.pmpPass c.dataUser 0 a.toNat = true →
      e.mem.mark a.toNat = 0 → Completes (.coreLoad d n lf rd rs1 ofs comp none) s fun t =>
        (∀ r : XReg, ((t.die d).core n).reg r = if r = rd ∧ r ≠ 0
          then LoadFn.extend lf (BitVec.ofNat 32 (e.mem.load a.toNat (accBytes (LoadFn.size lf)))) else c.reg r) ∧
        ((t.die d).core n).pc = c.pc + (if comp then 2 else 4) ∧ ((t.die d).core n).minstret = c.minstret + 1 ∧
        s.OnlyCore t d n) ∧
    (held = true → inMem a.toNat = true →
      (a.toNat % bytes = 0 → c.pmpPass c.dataUser 1 a.toNat = true → loses (.coreStore d n sf rs1 rs2 ofs comp)) ∧
      (a.toNat % accBytes (LoadFn.size lf) = 0 → c.pmpPass c.dataUser 0 a.toNat = true →
        loses (.coreLoad d n lf rd rs1 ofs comp none))) ∧
    (a.toNat % bytes ≠ 0 → traps (.coreStore d n sf rs1 rs2 ofs comp) 6) ∧
    (a.toNat % accBytes (LoadFn.size lf) ≠ 0 → traps (.coreLoad d n lf rd rs1 ofs comp none) 4) ∧
    (a.toNat % bytes = 0 → c.pmpPass c.dataUser 1 a.toNat = false → traps (.coreStore d n sf rs1 rs2 ofs comp) 7) ∧
    (a.toNat % accBytes (LoadFn.size lf) = 0 → c.pmpPass c.dataUser 0 a.toNat = false →
      traps (.coreLoad d n lf rd rs1 ofs comp none) 5)

/-- R385, R386, R394 to R396: a read takes a free semaphore for its reader and shows a held one's holder; only the
holder's 0 frees it. A doorbell joins bits to the core's latch. A request for DEFAULT is refused with cause 0. Of
those that meet at a target, new ones and those that wait, CCn goes first at BANKn, then the urgent in the order in
which they became so, then the others by the rank of R394; the winner goes ahead, and any other, or one that another's
burst holds off, waits a cycle, which a core counts. One that has waited 64 cycles becomes urgent. R395, R397 to R399:
a burst of 1 to 16 beats, INCR or WRAP, of a bridge at a bank or SHARED moves its beats in order: a write puts 64 bits
at each, and a read of good words takes them; with fewer data words than beats the rest stay in progress and hold the
path. One that would cross 1 KiB or leave its target, is not aligned, is a core's or is for no memory has an error
response and moves nothing; one of a form R397 does not give does nothing. One that meets another's burst loses the
cycle. A reset of a master ends its burst: a write's remaining beats write nothing, a read's data are discarded. While
the domain a command acts in stands still it changes nothing (a reading of R26 and R451: assumption log 230).
Completed here: SEMAPHORE_READ, SEMAPHORE_WRITE, DOORBELL_SET, CROSSBAR_REQUEST, REQUEST_URGENT, BURST,
MASTER_RESET_MID_BURST. -/
def Obligations.CrossbarGrants : Prop :=
  (∀ (d : DieId) (n : Fin 4) (k : Fin 16) (m : BitVec 3) (x : Fin 7) (a v : Word) (wr : Bool) (cs : List (Fin 7)) (s : State),
     let e := s.die d
     let t := targetOf x.val a.toNat
     let all : List Nat := x.val :: cs.map (·.val) ++ (List.range 7).filter fun j => match e.xbar.reqs[j]? with
       | some (some r) => targetOf j r.addr.toNat == t
       | _ => false
     let place (j : Nat) : Nat := (rankOrder t).idxOf j
     let own : Prop := ∃ b : Fin 4, t = .bank b ∧ x.val = b.val
     let barred : Prop := ∃ b : Fin 4, t = .bank b ∧ b.val ∈ all ∧ x.val ≠ b.val
     let yields (j : Nat) : Bool := match e.xbar.urgentAt x.val, e.xbar.urgentAt j with
       | some u, some w => decide (u < w) || (u == w && decide (place x.val ≤ place j))
       | some _, none => true
       | none, some _ => false
       | none, none => decide (place x.val ≤ place j)
     let wins : Prop := own ∨ (¬ barred ∧ all.all yields = true)
     let req := Instr.crossbarRequest d x a wr cs
     (e.bit (F.XBR_SEM_HELD k.val) = false → ChangesIn .ctl (.semaphoreRead d m k) s d fun e =>
       (e.answer m 0).setReg (R.XBR_SEM k.val) (BitVec.ofNat 32 (1 + 16 * m.toNat))) ∧
     (e.bit (F.XBR_SEM_HELD k.val) = true → ChangesIn .ctl (.semaphoreRead d m k) s d fun e => e.answer m (e.reg (R.XBR_SEM k.val))) ∧
     (natBit v.toNat 0 = false → e.bit (F.XBR_SEM_HELD k.val) = true → e.fld (F.XBR_SEM_HOLDER k.val) = m.toNat →
       ChangesIn .ctl (.semaphoreWrite d m k v) s d fun e => e.setReg (R.XBR_SEM k.val) 0) ∧
     (natBit v.toNat 0 = true ∨ e.bit (F.XBR_SEM_HELD k.val) = false ∨ e.fld (F.XBR_SEM_HOLDER k.val) ≠ m.toNat →
       ChangesIn .ctl (.semaphoreWrite d m k v) s d fun e => e) ∧
     (ChangesIn .ctl (.doorbellSet d n v) s d fun e =>
       e.setFld (F.XBR_N_LATCH_DB n.val) (e.fld (F.XBR_N_LATCH_DB n.val) ||| bitsOf v.toNat 26 6)) ∧
     (t = .dflt → CompletesIn d .ctl req s fun u =>
       (u.die d).resp = e.resp.set x.val ⟨0, true⟩ (by omega) ∧ (u.die d).xbar.reqs[x] = none ∧ (u.die d).mem = e.mem ∧
       (e.bit F.XBR_IRQ_ERR = false → e.canonical = true → (u.die d).reg R.XBR_ERRADDR = a ∧ (u.die d).bit F.XBR_IRQ_ERR = true) ∧
       (u.die d).eng = e.eng ∧ u.die d.other = s.die d.other) ∧
     (t ≠ .dflt → e.xbar.held x.val t = false → wins → CompletesIn d .ctl req s fun u =>
       (u.die d).xbar.reqs = e.xbar.reqs.set x.val none ∧ (u.die d).xbar.granted[t.idx]? = some (BitVec.ofNat 3 x.val) ∧
       (u.die d).regs = e.regs ∧ (u.die d).mem = e.mem ∧ (u.die d).cpus = e.cpus ∧ (u.die d).eng = e.eng ∧ u.die d.other = s.die d.other) ∧
     (t ≠ .dflt → e.xbar.held x.val t = true ∨ ¬ wins → CompletesIn d .ctl req s fun u =>
       (∃ r : XReq, (u.die d).xbar.reqs = e.xbar.reqs.set x.val (some r) ∧
         (∀ q : XReq, e.xbar.reqs[x] = some q → r = { q with waited := q.waited + 1 }) ∧
         (e.xbar.reqs[x] = none → r = ⟨a, wr, 1, none⟩)) ∧
       (∀ j : Fin 4, (u.die d).core j = { e.core j with
         mcycle := if j.val = x.val then (e.core j).mcycle + 1 else (e.core j).mcycle }) ∧
       (u.die d).regs = e.regs ∧ (u.die d).mem = e.mem ∧ (u.die d).eng = e.eng ∧ u.die d.other = s.die d.other) ∧
     (∀ r : XReq, e.xbar.reqs[x] = some r → 64 ≤ r.waited → r.urgent = none → ChangesIn .ctl (.requestUrgent d x) s d fun e =>
       e.updXbar fun y => { y with
         reqs := y.reqs.set x.val (some { r with urgent := some y.urgents })
         urgents := y.urgents + 1 }) ∧
     (∀ r : XReq, e.xbar.reqs[x] = some r → r.waited < 64 ∨ r.urgent ≠ none → ChangesIn .ctl (.requestUrgent d x) s d fun e => e) ∧
     (e.xbar.reqs[x] = none → ChangesIn .ctl (.requestUrgent d x) s d fun e => e)) ∧
  (∀ (d : DieId) (x : Fin 7) (word : BitVec 20) (low : BitVec 3) (n : BitVec 5) (wrap wr : Bool) (data : List (BitVec 64)) (s : State),
     let e := s.die d
     let base := 8 * word.toNat + low.toNat
     let a : Word := BitVec.ofNat 32 base
     let beats := n.toNat
     let t := targetOf x.val base
     let formed := 1 ≤ beats ∧ beats ≤ 16 ∧ (wrap = true → (beats = 2 ∨ beats = 4 ∨ beats = 8 ∨ beats = 16) ∧ low = 0)
     let crosses := wrap = false ∧ (base / 1024 ≠ (base + 8 * beats - 1) / 1024 ∨ targetOf x.val (base + 8 * beats - 1) ≠ t)
     let refused := t = .dflt ∨ 5 ≤ t.idx ∨ x.val < 4 ∨ low ≠ 0 ∨ crosses
     let beat (k : Nat) : Nat := if wrap then base / (8 * beats) * (8 * beats) + (base + 8 * k) % (8 * beats) else base + 8 * k
     let free := e.xbar.bursts[x] = none ∧ e.xbar.held x.val t = false
     let same (u : State) : Prop := (u.die d).regs = e.regs ∧ (u.die d).eng = e.eng ∧ (u.die d).cpus = e.cpus ∧ u.die d.other = s.die d.other
     let next (u : State) : Prop := (u.die d).xbar.bursts[x] =
       if data.length < beats then some ⟨base, beats, wrap, wr, data.length⟩ else none
     (e.xbar.bursts[x] = none → ¬ formed → ChangesIn .ctl (.burst d x a n wrap wr data []) s d fun e => e) ∧
     (e.xbar.bursts[x] = none → formed → refused → e.canonical = true → CompletesIn d .ctl (.burst d x a n wrap wr data []) s fun u =>
       (u.die d).resp = e.resp.set x.val ⟨0, true⟩ (by omega) ∧ (u.die d).bit F.XBR_IRQ_ERR = true ∧
       (e.bit F.XBR_IRQ_ERR = false → (u.die d).reg R.XBR_ERRADDR = BitVec.ofNat 32 (beat 0)) ∧
       (u.die d).mem = e.mem ∧ (u.die d).eng = e.eng ∧ u.die d.other = s.die d.other) ∧
     (formed → ¬ refused → free → data.length ≤ beats → e.mem.wf = true →
       (CompletesIn d .ctl (.burst d x a n wrap true data []) s fun u =>
         (∀ k : Nat, k < data.length → (u.die d).mem.load (beat k) 8 = (data.getD k 0).toNat) ∧
         (∀ j : Nat, (∀ k : Nat, k < data.length → j < beat k ∨ beat k + 8 ≤ j) →
           SMap.get byteDflt (u.die d).mem.bytes j = SMap.get byteDflt e.mem.bytes j) ∧
         (wr = true → next u) ∧ same u) ∧
       (e.mem.bad = [] → CompletesIn d .ctl (.burst d x a n wrap false data []) s fun u =>
         (u.die d).xbar.data[x] = (List.range data.length).map (fun k => BitVec.ofNat 64 (e.mem.load (beat k) 8)) ∧
         (u.die d).mem = e.mem ∧ (wr = false → next u) ∧ same u)) ∧
     (formed → ¬ refused → e.xbar.bursts[x] = none → e.xbar.held x.val t = true → ChangesIn .ctl (.burst d x a n wrap wr data []) s d fun e =>
       e.loses (BitVec.ofNat 3 x.val) a wr) ∧
     (CompletesIn d .ctl (.masterResetMidBurst d x) s fun u => (u.die d).xbar.bursts = e.xbar.bursts.set x.val none ∧
       (u.die d).xbar.reqs = e.xbar.reqs.set x.val none ∧ (u.die d).stalled = e.stalled.filter (fun p => p.m.toNat != x.val) ∧
       (u.die d).mem.bytes = e.mem.bytes ∧ (u.die d).yard.rows = e.yard.rows ∧
       (∀ w, w ∈ (u.die d).yard.rmws ↔ w ∈ e.yard.rmws ∧ w.m ≠ BitVec.ofNat 3 x.val) ∧
       ((∀ b : XBurst, e.xbar.bursts[x] = some b → b.write = true) → (u.die d).regs = e.regs ∧ (u.die d).mem = e.mem ∧ (u.die d).resp = e.resp) ∧
       (u.die d).eng = e.eng ∧ u.die d.other = s.die d.other))

/-- R400 to R403: a ball that changes shows its level where nothing drives it, and the enabled edge sets the pin's
bit. An arm in time arms, a late one sets LATE; the timed change gives the masked pins their value in the named frame.
An I2C transfer starts where the controller is ON and idle, and ends done, on a NACK, or on a timeout. A MIDI byte
enters the queue of 64 or is dropped. (Assumption log 164: how I2C transfers end.) While the domain a command acts in
stands still it changes nothing (a reading of R26 and R451: assumption log 230). While the domain of a write it names
stands still, the write waits (R26, R30; as the write of no master: assumption log 252). Completed here:
GPIO_TIMED_CHANGE, GPIO_EDGE, GPIO_ARM, I2C_GO, I2C_DONE, I2C_TIMEOUT, I2C_RECOVER, MIDI_TX_PUSH, MIDI_TX_BYTE_SENT. -/
def Obligations.MiscPeripherals : Prop :=
  ∀ (d : DieId) (pin : Fin 16) (lvl : Bool) (n : Fin 2) (v : Word) (r : I2cResult) (b : Byte) (s : State),
    (s.die d).canonical = true →
    let e := s.die d
    let same (t : State) : Prop := (t.die d).eng = e.eng ∧ (t.die d).mem = e.mem ∧ t.die d.other = s.die d.other
    let idle (i : Instr) : Prop := Changes i s d fun e => e
    let due := e.bit F.MISC_GPIO_TCTL_ARMED = true ∧ e.regN R.MISC_GPIO_TFRAME = e.seq
    (Completes (.gpioEdge d pin lvl) s fun t => (t.die d).misc.balls.getLsbD pin.val = lvl ∧
      (∀ k : Nat, k ≠ pin.val → (t.die d).misc.balls.getLsbD k = e.misc.balls.getLsbD k) ∧
      (e.balls = false → (t.die d).gpioLevel pin.val = lvl ∧
        (e.runs .ctl = true → e.gpioLevel pin.val ≠ lvl → (if lvl then e.bitAt F.MISC_GPIO_EDGE_RISE pin.val else e.bitAt F.MISC_GPIO_EDGE_FALL pin.val) = true →
          (t.die d).bitAt F.MISC_GPIO_IRQ_PIN pin.val = true)) ∧ same t) ∧
    (e.bit F.MISC_GPIO_TCTL_ARMED = true → Writes .eng R.MISC_GPIO_TCTL 1 (.gpioArm d) s d fun e => e) ∧
    (e.bit F.MISC_GPIO_TCTL_ARMED = false → e.armOk (e.regN R.MISC_GPIO_TFRAME) = true →
      Writes .eng R.MISC_GPIO_TCTL 1 (.gpioArm d) s d fun e => e.setFld F.MISC_GPIO_TCTL_ARMED 1) ∧
    (e.bit F.MISC_GPIO_TCTL_ARMED = false → e.armOk (e.regN R.MISC_GPIO_TFRAME) = false →
      Writes .eng R.MISC_GPIO_TCTL 1 (.gpioArm d) s d fun e => e.setFld F.MISC_GPIO_IRQ_LATE 1) ∧
    (¬ due → idle (.gpioTimedChange d)) ∧
    (due → CompletesIn d .eng (.gpioTimedChange d) s fun t => (t.die d).bit F.MISC_GPIO_TCTL_ARMED = false ∧
      (∀ k : Fin 16, (t.die d).bitAt F.MISC_GPIO_OUT_PIN k.val = if e.bitAt F.MISC_GPIO_TOUT_MASK k.val
        then e.bitAt F.MISC_GPIO_TOUT_VALUE k.val else e.bitAt F.MISC_GPIO_OUT_PIN k.val) ∧ same t) ∧
    (natBit v.toNat 31 = true → e.bit (F.MISC_I2C_STAT_BUSY n.val) = false → e.fld (F.MISC_I2C_CTRL_STATE n.val) = St.on →
      CompletesIn d .ctl (.i2cGo d n v) s fun t => ∃ x : I2cXfer, (t.die d).misc.i2c[n] = some x ∧ x.addr = BitVec.ofNat 7 v.toNat ∧
        x.rlen = bitsOf v.toNat 16 5 ∧ x.wbytes.length = bitsOf v.toNat 8 5 ∧
        (t.die d).bit (F.MISC_I2C_STAT_BUSY n.val) = true ∧ same t) ∧
    (natBit v.toNat 31 = false ∨ e.bit (F.MISC_I2C_STAT_BUSY n.val) = true → CompletesIn d .ctl (.i2cGo d n v) s fun t =>
      (t.die d).misc = e.misc ∧ (t.die d).fld (F.MISC_I2C_XFER_ADDR n.val) = v.toNat % 2 ^ 7 ∧ same t) ∧
    (e.misc.i2c[n] = none → idle (.i2cDone d n r) ∧ idle (.i2cTimeout d n)) ∧
    (e.misc.i2c[n] ≠ none →
      (CompletesIn d .ctl (.i2cDone d n r) s fun t => (t.die d).misc.i2c[n] = none ∧ (t.die d).bit (F.MISC_I2C_STAT_BUSY n.val) = false ∧
        (t.die d).bit (F.MISC_I2C_STAT_DONE n.val) = true ∧
        (∀ i, r = .nack i → (t.die d).bit (F.MISC_I2C_STAT_NACK n.val) = true) ∧ same t) ∧
      (CompletesIn d .ctl (.i2cTimeout d n) s fun t => (t.die d).misc.i2c[n] = none ∧ (t.die d).bit (F.MISC_I2C_STAT_BUSY n.val) = false ∧
        (t.die d).bit (F.MISC_I2C_STAT_TIMEOUT n.val) = true ∧ same t)) ∧
    (ChangesIn .ctl (.i2cRecover d n) s d fun e => (e.setFld (F.MISC_I2C_STAT_SCL n.val) 1).setFld (F.MISC_I2C_STAT_SDA n.val) 1) ∧
    (64 ≤ e.misc.tx.length → ChangesIn .ctl (.midiTxPush d b) s d fun e => e.setFld F.MISC_MIDI_STAT_TXOVF 1) ∧
    (e.misc.tx.length < 64 → e.midiState = St.on → e.misc.sending = none → e.misc.tx = [] → ChangesIn .ctl (.midiTxPush d b) s d fun e =>
      e.updMisc fun m => { m with sending := some b }) ∧
    (e.misc.tx.length < 64 → e.misc.sending ≠ none ∨ e.midiState ≠ St.on → ChangesIn .ctl (.midiTxPush d b) s d fun e =>
      e.updMisc fun m => { m with tx := m.tx ++ [b] }) ∧
    (e.midiState = St.on → ChangesIn .ctl (.midiTxByteSent d) s d fun e => e.updMisc fun m => { m with
      sending := m.tx.head?
      tx := m.tx.tail })

/-- R431, R433 to R435, R437, R440, R441: an event is queued as a record of its class, code, time and words while
there is room, and counted as missed where there is none, or while FREEZE or LOGFAIL is set; a GAP takes none of the
sixteen places. Word 1 is the last frame sequence that ENG reached. The oldest record goes into a good slot with its
CRC; after LOGFAIL it is lost and counted. A record that reads back wrong marks its slot bad and is written again.
Firmware records with its code. (Assumption log 155: a circulating clear.) R435, R436, R439: FREEZE takes what is
written, and as it falls one GAP is queued and every missed count is cleared. A clear begins only with its key given,
and at its end every slot of its areas reads zero and no other has changed. The window takes the words of the slot
that the cursor names, and with AUTO of the next slot after word 7 is read. While the domain a command acts in stands
still it changes nothing (a reading of R26 and R451: assumption log 230). Completed here: LOG_EVENT, LOG_RECORD_WRITE,
LOG_READBACK, LOG_FREEZE_WRITE, LOG_CLEAR, LOG_CLEAR_DONE, LOG_FWCODE, LOG_CURSOR_WRITE, LOG_WIN7_READ. -/
def Obligations.RecorderKeepsRecords : Prop :=
  (∀ (d : DieId) (cls : BitVec 3) (code : BitVec 16) (w4 w5 w6 v : Word) (s : State),
     let e := s.die d
     let put := Instr.logEvent d cls code w4 w5 w6
     let barred := e.bit F.LOG_CTRL_FREEZE = true ∨ e.bit F.LOG_STAT_LOGFAIL = true
     let once := e.log.gathered = none ∧ ¬ (cls = 0 ∧ code = 9)
     let waiting := (e.log.queue.filter fun r => r[0].toNat / 2 ^ 8 != 9).length
     (code = 0 ∨ (cls = 0 ∧ code = 9) ∨ e.runs .keep = false → Changes put s d fun e => e) ∧
     (code ≠ 0 → once → e.runs .keep = true → barred → Changes put s d fun e => e.count (F.LOG_MISSED_COUNT cls.toNat) 1) ∧
     (code ≠ 0 → once → e.runs .keep = true → ¬ barred → 16 ≤ waiting → Changes put s d fun e =>
       (e.count (F.LOG_MISSED_COUNT cls.toNat) 1).updLog fun u => { u with owed := true }) ∧
     (code ≠ 0 → once → e.runs .keep = true → ¬ barred → waiting < 16 → ∃ r : LogRec,
       r[0].toNat / 2 ^ 24 = cls.toNat ∧ bitsOf r[0].toNat 8 16 = code.toNat ∧ r[1] = (if e.pct.counting then e.reg R.ENG_SEQ else e.log.seq) ∧
       r[2] = BitVec.ofNat 32 e.tim.sec.toNat ∧ r[3] = e.tim.tick ∧ r[4] = w4 ∧ r[5] = w5 ∧ r[6] = w6 ∧
       Changes put s d fun e => e.updLog fun u => { u with queue := u.queue ++ [r] }) ∧
     (e.runs .keep = false ∨ e.log.clear ≠ none ∨ e.log.queue = [] → ChangesIn .keep (.logRecordWrite d false) s d fun e => e) ∧
     (∀ (r : LogRec) (rs : List LogRec), e.runs .keep = true → e.log.clear = none → e.log.queue = r :: rs →
       (e.bit F.LOG_STAT_LOGFAIL = true → ChangesIn .keep (.logRecordWrite d false) s d fun e =>
         (e.updLog fun u => { u with queue := rs }).setReg R.LOG_EPICNT
           (BitVec.ofNat 32 (satAdd 32 (e.regN R.LOG_EPICNT) 1))) ∧
       (∀ slot : Nat, e.bit F.LOG_STAT_LOGFAIL = false → e.logSlot = some slot → e.log.owed = false → e.canonical = true →
         slot ∉ e.log.bad ∧ CompletesIn d .keep (.logRecordWrite d false) s fun t =>
           (∃ x : LogRec, (t.die d).log.mem = SMap.set (fun _ => LogRec.zero) e.log.mem slot x ∧
             (∀ i : Fin 8, 1 ≤ i.val → i.val ≤ 6 → x[i] = r[i]) ∧
             x[7].toNat = crc32Words ((x.toList.take 7).map (·.toNat)) ∧ natBit x[0].toNat 0 = decide (slot < 1024)) ∧
           (t.die d).log.queue = rs ∧ (t.die d).log.back = some (slot, r) ∧
           (t.die d).regN R.LOG_WRITTEN = (e.regN R.LOG_WRITTEN + 1) % 2 ^ 32 ∧ (t.die d).eng = e.eng ∧
           t.die d.other = s.die d.other)) ∧
     (e.log.back = none → ChangesIn .keep (.logReadback d (some .dbe)) s d fun e => e) ∧
     (∀ (slot : Nat) (r : LogRec), e.log.back = some (slot, r) →
       (ChangesIn .keep (.logReadback d none) s d fun e => e.updLog fun u => { u with back := none }) ∧
       CompletesIn d .keep (.logReadback d (some .dbe)) s fun t => slot ∈ (t.die d).log.bad ∧ (t.die d).log.back = none ∧
         (t.die d).log.mem = e.log.mem ∧ (∃ note : LogRec, (t.die d).log.queue = r :: note :: e.log.queue ∧
           bitsOf note[0].toNat 8 16 = 6 ∧ note[4].toNat = slot % 2 ^ 32) ∧ (t.die d).eng = e.eng ∧ t.die d.other = s.die d.other) ∧
     (v.toNat % 65536 = 0 → ChangesIn .keep (.logFwcode d v) s d fun e => e.updLog fun u => { u with key := 0 }) ∧
     (v.toNat % 65536 ≠ 0 → ChangesIn .keep (.logFwcode d v) s d fun e => (e.updLog fun u => { u with key := 0 }).logEv 7 (v.toNat % 65536)
       (e.regN (R.LOG_FWDATA 0)) (e.regN (R.LOG_FWDATA 1)) (e.regN (R.LOG_FWDATA 2)))) ∧
  (∀ (d : DieId) (m : BitVec 3) (v : Word) (s : State), (s.die d).canonical = true →
     let e := s.die d
     let slotOf (e : Die) (k : Nat) : LogRec := SMap.get (fun _ => LogRec.zero) e.log.mem k
     let shows (t : Die) (k : Nat) : Prop := k ∉ e.log.bad →
       (∀ i : Fin 8, t.reg (R.LOG_WIN i) = (slotOf e k)[i]) ∧ bitsOf (t.regN R.LOG_WINSTAT) 0 13 = k
     let next := (e.fld F.LOG_CURSOR_VALUE + 1) % 8192
     let same (t : State) : Prop := (t.die d).eng = e.eng ∧ (t.die d).mem = e.mem ∧ t.die d.other = s.die d.other
     (CompletesIn d .keep (.logFreezeWrite d true) s fun t => (t.die d).bit F.LOG_CTRL_FREEZE = true ∧ (t.die d).log.queue = e.log.queue ∧
       same t) ∧
     (e.bit F.LOG_CTRL_FREEZE = true → e.bit F.LOG_STAT_LOGFAIL = false → CompletesIn d .keep (.logFreezeWrite d false) s fun t =>
       (t.die d).bit F.LOG_CTRL_FREEZE = false ∧ (∃ g : LogRec, (t.die d).log.queue = e.log.queue ++ [g] ∧
         bitsOf g[0].toNat 8 16 = 9) ∧ (∀ c : Fin 8, (t.die d).fld (F.LOG_MISSED_COUNT c.val) = 0) ∧ same t) ∧
     (e.log.key ≠ 2 → ChangesIn .keep (.logClear d v) s d fun e => e.updLog fun u => { u with key := 0 }) ∧
     (e.log.key = 2 → natBit v.toNat 0 = true → CompletesIn d .keep (.logClear d v) s fun t => (t.die d).bit F.LOG_STAT_CLEARING = true ∧
       (t.die d).fld F.LOG_FNEXT_SLOT = 0 ∧ (t.die d).log.key = 0 ∧
       (t.die d).log.clear = some ⟨true, natBit v.toNat 1 || (e.log.clear.any fun c => c.circ), 0⟩ ∧ (t.die d).log.mem = e.log.mem ∧ same t) ∧
     (e.log.clear = none → ChangesIn .keep (.logClearDone d) s d fun e => e) ∧
     (∀ c : LogClr, e.log.clear = some c → CompletesIn d .keep (.logClearDone d) s fun t =>
       (∀ k : Nat, slotOf (t.die d) k = if (c.found = true ∧ k < 1024) ∨ (c.circ = true ∧ 1024 ≤ k) then LogRec.zero else slotOf e k) ∧
       (t.die d).bit F.LOG_STAT_CLEARING = false ∧ (t.die d).log.clear = none ∧ same t) ∧
     (CompletesIn d .keep (.logCursorWrite d v none) s fun t => (t.die d).fld F.LOG_CURSOR_VALUE = v.toNat % 8192 ∧
       shows (t.die d) (v.toNat % 8192) ∧ (t.die d).log.mem = e.log.mem ∧ same t) ∧
     (e.bit F.LOG_CTRL_AUTO = false → ChangesIn .keep (.logWin7Read d m none) s d fun e =>
       (e.updLog fun u => { u with key := 0 }).answer m (SMap.get regReset e.shadow (R.LOG_WIN 7))) ∧
     (e.bit F.LOG_CTRL_AUTO = true → CompletesIn d .keep (.logWin7Read d m none) s fun t =>
       (t.die d).resp = e.resp.set m.toNat ⟨SMap.get regReset e.shadow (R.LOG_WIN 7), false⟩ m.isLt ∧
       (t.die d).fld F.LOG_CURSOR_VALUE = next ∧ shows (t.die d) next ∧ same t))

/-- R442 to R445: an event counts in every enabled counter that names it and in no other, a wrap sets OVF, and an
event that does not exist counts nowhere. A snapshot takes the eight counters in one cycle. A written value stands
against an increment of the same cycle. (Assumption log 141: the domain of a counter, and what counts; log 159: the
cycle read is an operand.) While the domain a command acts in stands still it changes nothing (a reading of R26 and
R451: assumption log 230). Completed here: PCT_SNAPSHOT, PCT_EVENT, PCT_COUNTER_WRITE. -/
def Obligations.CountersCount : Prop :=
  ∀ (d : DieId) (event : BitVec 10) (pc : BitVec 22) (m : BitVec 3) (cycle : BitVec 15) (n : Fin 8) (v : Word) (inc : Bool)
    (s : State), (s.die d).canonical = true →
    let e := s.die d
    let names (k : Fin 8) : Prop := natBit e.pct.en.toNat k.val = true ∧ e.fld (F.PCT_SEL_EVENT k.val) = event.toNat
    let same (t : State) : Prop := (t.die d).eng = e.eng ∧ (t.die d).pct = e.pct ∧ t.die d.other = s.die d.other
    (pctValid event.toNat = false → Changes (.pctEvent d event pc) s d fun e => e) ∧
    (pctValid event.toNat = true → CompletesIn d (pctDom event.toNat) (.pctEvent d event pc) s fun t =>
      (∀ k : Fin 8, names k → (t.die d).reg (R.PCT_CNT k.val) = e.reg (R.PCT_CNT k.val) + 1 ∧
        (e.reg (R.PCT_CNT k.val) = BitVec.allOnes 32 → (t.die d).bitAt F.PCT_OVF_OVF k.val = true)) ∧
      (∀ k : Fin 8, ¬ names k → (t.die d).reg (R.PCT_CNT k.val) = e.reg (R.PCT_CNT k.val) ∧
        (t.die d).bitAt F.PCT_OVF_OVF k.val = e.bitAt F.PCT_OVF_OVF k.val) ∧ same t) ∧
    (e.runs .eng = false → ChangesIn .ctl (.pctSnapshot d m cycle) s d fun e =>
      e.answer m (SMap.get regReset e.shadow R.PCT_CYCLO)) ∧
    (e.runs .eng = true → CompletesIn d .ctl (.pctSnapshot d m cycle) s fun t => (∀ k : Fin 8, (t.die d).reg (R.PCT_SNAP k.val) = e.reg (R.PCT_CNT k.val)) ∧
      (∀ k : Fin 8, (t.die d).reg (R.PCT_CNT k.val) = e.reg (R.PCT_CNT k.val)) ∧
      (∀ k : Fin 8, SMap.get regReset (t.die d).shadow (R.PCT_SNAP k.val) = e.reg (R.PCT_CNT k.val)) ∧
      (e.pct.counting = true →
        ((t.die d).regN R.PCT_CYCHI * 2 ^ 32 + (t.die d).regN R.PCT_CYCLO) % 2 ^ 64 =
          (e.pct.cycles.toNat + cycle.toNat) % 2 ^ 64) ∧ same t) ∧
    (CompletesIn d (pctDom (e.fld (F.PCT_SEL_EVENT n.val))) (.pctCounterWrite d n v inc) s fun t => (t.die d).reg (R.PCT_CNT n.val) = v ∧
      (∀ k : Fin 8, k ≠ n → (t.die d).reg (R.PCT_CNT k.val) = e.reg (R.PCT_CNT k.val)) ∧
      (inc = true → natBit e.pct.en.toNat n.val = true → e.reg (R.PCT_CNT n.val) = BitVec.allOnes 32 →
        (t.die d).bitAt F.PCT_OVF_OVF n.val = true) ∧ same t)

/-- R447 to R449, R455: a trigger waits for its request, from the pin where PINEN is set, and from GO right after the
key. A request stops the transmitters and goes to CLOSING with the gate open, or waits for the fence of a follow with
DWN asserted; without the fence the die opens its own gate. The domains close in their order, and with KEEP the freeze
stands. THAW sets the clocks going as they were, where RESUMEOK was set and the die is not fenced. (Assumption log
160: what a thaw gives back.) While the domain a command acts in stands still it changes nothing (a reading of R26 and
R451: assumption log 230). Completed here: FREEZE_PIN, FREEZE_GO, FREEZE_REQUEST, FENCE_WAIT_TIMEOUT, DOMAIN_CLOSE,
DOMAIN_FORCE_CLOSE, THAW. -/
def Obligations.FreezeProceeds : Prop :=
  ∀ (d : DieId) (partner forced : Bool) (cause : BitVec 2) (m : Dom) (s : State), s.canonical = true →
    let e := s.die d
    let wait := e.isLead && (s.die d.other).role == Role.follow
    let closed := e.fld F.FRZ_STAT_CLOSED
    let close := if forced then Instr.domainForceClose d m else Instr.domainClose d m
    let turn := e.frzState = 2 ∧ (closed &&& domBefore m) = domBefore m ∧ natBit closed (domBit m) = false
    let same (t : State) : Prop := (t.die d).eng = e.eng ∧ (t.die d).mem = e.mem ∧ (t.die d).yard = e.yard
    (e.bit F.FRZ_CTRL_PINEN = false → ChangesIn .keep (.freezePin d) s d fun e => e) ∧
    (e.bit F.FRZ_CTRL_PINEN = true → e.frzState = 0 → e.frz.asked = none → ChangesIn .keep (.freezePin d) s d fun e =>
      e.updFrz fun f => { f with asked := some 1 }) ∧
    (e.frz.key = false → ChangesIn .keep (.freezeGo d partner) s d fun e => e.updFrz fun f => { f with key := false }) ∧
    (e.frz.key = true → e.frzState = 0 → e.frz.asked = none → ChangesIn .keep (.freezeGo d partner) s d fun e =>
      e.updFrz fun f => { f with
        key := false
        asked := some (if partner then 3 else 2) }) ∧
    (e.frzState ≠ 0 ∨ e.frz.asked = none → ChangesIn .keep (.freezeRequest d cause) s d fun e => e) ∧
    (∀ c : BitVec 2, e.frzState = 0 → e.frz.asked = some c → CompletesIn d .keep (.freezeRequest d cause) s fun t =>
      (t.die d).frzState = (if wait then 1 else 2) ∧ (t.die d).fld F.FRZ_STAT_CAUSE = c.toNat ∧
      (t.die d).fld F.FRZ_STAT_CLOSED = 0 ∧ (t.die d).frz.txdis = true ∧ (t.die d).frz.asked = none ∧
      (wait = false → (t.die d).frz.gate = true) ∧
      (wait = true → (t.die d).bit F.PAIR_FENCE_DOUT = true ∧
        ((s.die d.other).runs .keep = true → (t.die d.other).bit F.PAIR_FENCE_DIN = true)) ∧
      (t.die d).frz.resumeOk = e.bit F.FRZ_CTRL_RESUMEOK ∧ same t) ∧
    (e.frzState = 1 → e.bit F.PAIR_FENCE_FIN = false → CompletesIn d .keep (.fenceWaitTimeout d) s fun t => (t.die d).frzState = 2 ∧
      (t.die d).bit F.FRZ_STAT_NOFENCE = true ∧ (t.die d).frz.gate = true ∧ same t ∧ t.die d.other = s.die d.other) ∧
    (e.frzState ≠ 1 ∨ e.bit F.PAIR_FENCE_FIN = true → ChangesIn .keep (.fenceWaitTimeout d) s d fun e => e) ∧
    (turn → CompletesIn d .keep close s fun t => (t.die d).runs m = false ∧ (t.die d).bitAt F.FRZ_STAT_CLOSED (domBit m) = true ∧
      (∀ o : Dom, o ≠ m → (t.die d).runs o = e.runs o) ∧ (t.die d).frzState = (if m = .keep then 3 else 2) ∧
      (forced = true → (t.die d).bitAt F.FRZ_STAT_FORCED (domBit m) = true) ∧ same t ∧ t.die d.other = s.die d.other) ∧
    (m = .keep → turn → e.runs .keep = true → Completes close s fun t => (t.die d).frz.gate = true) ∧
    (¬ turn → ChangesIn .keep close s d fun e => e) ∧
    (e.frzState ≠ 3 → Changes (.thaw d) s d fun e => e.rdo ⟨false, true, false, []⟩) ∧
    (e.frzState = 3 → e.frz.resumeOk = false ∨ e.bit F.PAIR_FENCE_FIN = true → Changes (.thaw d) s d fun e =>
      e.rdo ⟨false, false, true, []⟩) ∧
    (e.frzState = 3 → e.frz.resumeOk = true → e.bit F.PAIR_FENCE_FIN = false → Completes (.thaw d) s fun t =>
      (t.die d).frzState = 0 ∧ (t.die d).clk.stopped = e.frz.prior ∧ (t.die d).frz.gate = false ∧ (t.die d).frz.txdis = false ∧
      (t.die d).frz.rdo.ok = true ∧ same t ∧ t.die d.other = s.die d.other)

/-- R452, R453: STATUS and LOG answer while the die runs too; the chains and the memories answer on a frozen die
alone, with NOTFROZEN before and BADARG for what is not there. A word read from SHARED or a bank carries its 64 data
bits, a yard row its 224. Completed here: READOUT_STATUS, READOUT_CHAININFO, READOUT_CHAIN, READOUT_MEM, READOUT_LOG. -/
def Obligations.ReadOutAnswers : Prop :=
  ∀ (d : DieId) (id : Byte) (addr : Word) (count : BitVec 16) (s : State),
    let e := s.die d
    let no : ReadOut := ⟨false, true, false, []⟩
    let bad : ReadOut := ⟨false, false, true, []⟩
    let n := if count = 0 then 65536 else count.toNat
    (Changes (.readoutStatus d) s d fun e => e.rdo (rdoOk [e.regN R.FRZ_STAT])) ∧
    (addr.toNat + n ≤ 8192 → Completes (.readoutLog d addr count) s fun t => (t.die d).frz.rdo.ok = true ∧
      (t.die d).frz.rdo.data.length = n ∧ (∀ i : Nat, i < n → (t.die d).frz.rdo.data.getD i 0 =
        recBits (SMap.get (fun _ => LogRec.zero) e.log.mem (addr.toNat + i))) ∧ (t.die d).regs = e.regs ∧
      t.die d.other = s.die d.other) ∧
    (8192 < addr.toNat + n → Changes (.readoutLog d addr count) s d fun e => e.rdo bad) ∧
    (e.frzState ≠ 3 → (Changes (.readoutChaininfo d id) s d fun e => e.rdo no) ∧
      (Changes (.readoutChain d id addr count) s d fun e => e.rdo no) ∧
      Changes (.readoutMem d id addr count) s d fun e => e.rdo no) ∧
    (e.frzState = 3 → 8 < id.toNat → (Changes (.readoutChaininfo d id) s d fun e => e.rdo bad) ∧
      Changes (.readoutChain d id addr count) s d fun e => e.rdo bad) ∧
    (e.frzState = 3 → id.toNat ≤ 8 →
      (Completes (.readoutChaininfo d id) s fun t => (t.die d).frz.rdo.ok = true ∧ (t.die d).frz.rdo.data.length = 1 ∧
        (t.die d).regs = e.regs ∧ t.die d.other = s.die d.other) ∧
      Changes (.readoutChain d id addr count) s d fun e => e.rdo (rdoOk ((List.range n).map fun i =>
        (Config.chainWord (e.chainView id.toNat) (addr.toNat + 32 * i)).toNat))) ∧
    (e.frzState = 3 → inMem addr.toNat = true → addr.toNat % 8 = 0 → Completes (.readoutMem d 0x12 addr 1) s fun t =>
      ∃ x : Nat, (t.die d).frz.rdo = rdoOk [x] ∧ x / 2 ^ 8 = e.mem.load addr.toNat 8 ∧ (t.die d).regs = e.regs ∧
        t.die d.other = s.die d.other) ∧
    (e.frzState = 3 → addr.toNat < 2 ^ 23 → bitsOf addr.toNat 12 9 < 264 → Completes (.readoutMem d 0x11 addr 1) s fun t =>
      ∃ x : Nat, (t.die d).frz.rdo = rdoOk [x] ∧ x / 2 ^ 48 = rowBits (SMap.get rowDflt e.yard.rows
        ((addr.toNat / 2 ^ 21 * 264 + bitsOf addr.toNat 12 9) * 4096 + addr.toNat % 4096)) ∧ (t.die d).regs = e.regs ∧
        t.die d.other = s.die d.other) ∧
    (e.frzState = 3 → id = 0x12 → inMem addr.toNat = false ∨ addr.toNat % 8 ≠ 0 → Changes (.readoutMem d id addr 1) s d fun e =>
      e.rdo bad)

/-- R10 to R12: of a register whose fields lie apart, a write sets the RW fields to what is written and clears the W1C
bits written with 1, but those that hardware sets at the same moment; other fields and reserved bits stay. A read
shows zero for WO fields and reserved bits; it leaves in an RC field only what hardware sets at the same moment. -/
def Obligations.FieldTypesAct : Prop :=
  ∀ (r : RegRow) (old v hw : Word),
    (∀ f ∈ r.fields, f.lo + f.w ≤ 32) → r.fields.Pairwise (fun f g => f.lo + f.w ≤ g.lo ∨ g.lo + g.w ≤ f.lo) →
    let at_ (f : FRow) (x : Word) : Nat := bitsOf x.toNat f.lo f.w
    let kept (x : Nat) : Prop := ∀ f ∈ r.fields, ¬ (f.lo ≤ x ∧ x < f.lo + f.w)
    (∀ f ∈ r.fields,
      (f.ty = .rw → at_ f (r.merge old v hw) = at_ f v) ∧
      (f.ty = .w1c → at_ f (r.merge old v hw) = at_ f ((old &&& ~~~v) ||| hw)) ∧
      (f.ty ≠ .rw → f.ty ≠ .w1c → at_ f (r.merge old v hw) = at_ f old) ∧
      (f.ty = .wo → at_ f (r.view v) = 0) ∧ (f.ty ≠ .wo → at_ f (r.view v) = at_ f v) ∧
      (f.ty = .rc → at_ f (r.drain old hw) = at_ f hw) ∧ (f.ty ≠ .rc → at_ f (r.drain old hw) = at_ f old)) ∧
    (∀ x : Nat, kept x → (r.merge old v hw).getLsbD x = old.getLsbD x ∧ (r.view v).getLsbD x = false ∧
      (r.drain old hw).getLsbD x = old.getLsbD x)

/-- R10, R14, R30, R390 to R393, R395, R399, R438: what a register command does, while CTL runs, no write of its
master stalls and no burst holds it off. REGISTER_WRITE of a register that CTL does not hold enters the buffer of its
block and domain and is answered, or stalls its master while the buffer holds another; of one that CTL holds it takes
effect at once; of a bank or SHARED it stores its word. POSTED_WRITE_EFFECT: the write in the buffer takes effect
while its domain runs, and the oldest that stalled for the buffer enters. RC_READ answers what CTL sees, and empties
an RC counter; of a bank or SHARED it answers the word. SHADOW_UPDATE: the shadow takes the register's value while its
domain runs, and those of the log window take theirs together (R439). An access of DEFAULT, a narrow one of a
register, or one of LOG in user mode ends in an error response, and one that a burst holds off loses the cycle.
Completed here: REGISTER_WRITE, RC_READ, POSTED_WRITE_EFFECT, SHADOW_UPDATE. -/
def Obligations.RegisterAccesses : Prop :=
  ∀ (d : DieId) (m : BitVec 3) (addr v hw : Word) (n : Fin 4) (blk : BitVec 5) (dom : Dom) (user : Bool) (s : State),
    let e := s.die d
    let a := addr.toNat
    let write (addr : Word) (size : AccSize) := Instr.registerWrite d m user addr size v hw
    let read (addr : Word) (size : AccSize) := Instr.rcRead d m user addr size hw
    let isPeri := 0x10000000 ≤ a ∧ a < 0x10012000 ∧ a % 4 = 0
    let plain := isPeri ∧ a / 0x1000 ≠ 0x1000e ∧ a / 0x1000 ≠ 0x1000f ∧ a / 0x1000 ≠ 0x10000 ∧ a / 0x1000 ≠ 0x10010
    let reach := m.toNat < 4 ∨ m.toNat = 5 ∨ m.toNat = 6
    let p : Posted := ⟨a / 0x1000 % 0x20, e.domOf a, m, a, v, false⟩
    let own := a = R.VOX_MFIFO ∨ a = R.TIM_SQTXID ∨ a = R.TIM_SQRXID ∨ a = R.TIM_NS ∨ (idxOf R.XBR_SEM 16 a).isSome = true
    let same (t : State) : Prop := (t.die d).eng = e.eng ∧ t.die d.other = s.die d.other
    e.runs .ctl = true → e.stalls m = false →
    (e.xbar.held m.toNat (targetOf m.toNat a) = false →
      (plain → reach → e.domOf a ≠ .ctl → e.buffered p.blk p.dom = false → Changes (write addr .word) s d fun e =>
        ({ e with posted := e.posted ++ [p] } : Die).answer m 0) ∧
      (plain → reach → e.domOf a ≠ .ctl → e.buffered p.blk p.dom = true → Changes (write addr .word) s d fun e =>
        { e with stalled := e.stalled ++ [p] }) ∧
      (isPeri → e.refusal m user true a .word = none → e.domOf a = .ctl → exec (write addr .word) s =
        .next (((s.upd d fun e => e.keyStep a (some v)).upd d fun e => e.answer m 0).effect d m a v hw (e.keyed a))) ∧
      (a < 0x600000 → a % 4 = 0 → m.toNat < 4 → e.mem.mark a = 0 →
        (Changes (write addr .word) s d fun e => ({ e with mem := e.mem.write a v.toNat 4 } : Die).answer m 0) ∧
        Changes (read addr .word) s d fun e => e.answer m (BitVec.ofNat 32 (e.mem.load a 4))) ∧
      (plain → reach → ¬ own → ∀ r : RegRow, regRow a = some r → r.drains = false →
        Changes (read addr .word) s d fun e => e.answer m (e.seen a))) ∧
    (e.xbar.held m.toNat .peri = false → reach →
      (Changes (write (BitVec.ofNat 32 (R.XBR_N_IEN n.val)) .word) s d fun e => (e.setReg (R.XBR_N_IEN n.val) v).answer m 0) ∧
      (e.canonical = true → Completes (.rcRead d m user (BitVec.ofNat 32 R.XBR_ECC) .word 0) s fun t =>
        (t.die d).resp = e.resp.set m.toNat ⟨e.reg R.XBR_ECC, false⟩ m.isLt ∧ (t.die d).reg R.XBR_ECC = 0 ∧ same t)) ∧
    (e.xbar.held m.toNat (targetOf m.toNat a) = true →
      (e.refusal m user true a .word = none → Changes (write addr .word) s d fun e => e.loses m addr true) ∧
      (e.refusal m user false a .word = none → Changes (read addr .word) s d fun e => e.loses m addr false)) ∧
    ((e.posted.find? fun q => q.blk == blk.toNat && q.dom == dom) = none ∨ e.runs dom = false →
      Changes (.postedWriteEffect d blk dom hw) s d fun e => e) ∧
    (∀ q : Posted, (e.posted.find? fun q => q.blk == blk.toNat && q.dom == dom) = some q → e.runs dom = true →
      exec (.postedWriteEffect d blk dom hw) s = .next ((s.upd d fun e => e.unpost q).effect d q.m q.addr q.v hw q.keyed) ∧
      ((e.stalled.find? fun x => x.blk == q.blk && x.dom == q.dom) = none → e.unpost q = { e with posted := e.posted.erase q }) ∧
      (q.addr = R.MOR_IEN → e.canonical = true → Completes (.postedWriteEffect d blk dom hw) s fun t =>
        (t.die d).fld F.MOR_IEN_SAT = bitsOf q.v.toNat 1 1 ∧ same t)) ∧
    (e.domOf a = .ctl ∨ e.runs (e.domOf a) = false → Changes (.shadowUpdate d addr) s d fun e => e) ∧
    (e.domOf a ≠ .ctl → e.runs (e.domOf a) = true → Changes (.shadowUpdate d addr) s d fun e =>
      { e with shadow := (shadowGroup a).foldl (fun t b => SMap.set regReset t b (e.live b)) e.shadow }) ∧
    (targetOf m.toNat a = .dflt → (Changes (write addr .word) s d fun e => e.busError m true 0 addr) ∧
      Changes (read addr .word) s d fun e => e.busError m false 0 addr) ∧
    (a / 0x1000 = 0x1000e → a % 4 = 0 → m.toNat < 4 → user = true →
      (Changes (write addr .word) s d fun e => e.busError m true 2 addr) ∧
      Changes (read addr .word) s d fun e => e.busError m false 2 addr) ∧
    (isPeri → reach → (Changes (write addr .half) s d fun e => e.busError m true 1 addr) ∧
      Changes (read addr .byte) s d fun e => e.busError m false 1 addr)

/-- R23, R31, R32, R178, R316, R358, R403: at the end of RISING, once its frames have passed, a block whose EN is
still set is ON; at the end of FALLING, with EN clear, it is OFF; a RISING that ends with EN clear passes to FALLING,
and a FALLING that ends with EN set to RISING; before the end nothing changes. A direction of the bridge ends its
transition with its ramp, a slave port that has no clocks rises with NOCLK, and the MIDI unit falls with its queue
empty. KEEP falls over to the internal oscillator once, where KEEPSRC lets it. R88, R114, R160, R192, R329, R386:
without ENG neither FT nor the window comes. At FT the stop of issue and the window of the last frame are over, and
WCK_OUT rises; at an entry into JOIN the ENG clock stops instead, and runs on from the next FT (R327); the window then
opens, and at its close every transition of a wall has one frame less. The frame tick's line is pending at every core.
(Assumption log 140: the frame in which a transition starts counts.) R16, R52, R85, R90, R94, R192, R193: FT closes
the frame, advances the frame sequence by one, or to the chain's sequence as the die adopts it, executes the due swap
slots, and then starts the courses. The union of the due slots is exchanged: the Z banks of each seat whose wall is ON
and of the spare that shadows it, the route tables, the voice configurations (unless refused), the rings; a seat whose
wall is not ON is skipped and named. The slots disarm with DONE, and SWAPLAST and SWAPLASTMASK record them. With no
slot due nothing changes. Then each course of a seat in a wall that runs exchanges its entry copies, seeds its dither
registers and starts at START; any other issues nothing and keeps its entry copies. While the domain a command acts in
stands still it changes nothing (a reading of R26 and R451: assumption log 230). Completed here: TRANSITION_END,
KEEP_FALLOVER, FRAME_TICK. -/
def Obligations.TransitionsAndFramesPass : Prop :=
  (∀ (d : DieId) (w : Fin 4) (p : PortId) (n : Fin 2) (b : Bool) (g : Fin 8) (s : State),
     let e := s.die d
     let idle (i : Instr) : Prop := Changes i s d fun e => e
     let bridge : EnBlock := if b then .bridgeS2M else .bridgeM2S
     (e.eng.walls[w].framesLeft ≠ 0 → idle (.transitionEnd d (.wall w))) ∧
     (e.canonical = true → e.eng.walls[w].framesLeft = 0 → e.wallState w = St.rising → e.bitAt F.ENG_WCTL_WALL_EN w = true →
       CompletesIn d .eng (.transitionEnd d (.wall w)) s fun t => (t.die d).wallState w = St.on ∧ (t.die d).eng = e.eng ∧
         t.die d.other = s.die d.other) ∧
     (e.canonical = true → e.eng.walls[w].framesLeft = 0 → e.wallState w = St.falling → e.bitAt F.ENG_WCTL_WALL_EN w = false →
       CompletesIn d .eng (.transitionEnd d (.wall w)) s fun t => (t.die d).wallState w = St.off ∧
         (t.die d).eng.walls[w].held = e.bitAt F.ENG_WCTL_RET w ∧ t.die d.other = s.die d.other) ∧
     (e.canonical = true → (e.port p).framesLeft = 0 → e.portState p = St.rising → e.bit (F.CHNX_CTRL_EN p.idx) = true →
       ChangesIn .ltx (.transitionEnd d (.port p)) s d fun e => e.setFld (F.CHNX_CTRL_STATE p.idx) St.on) ∧
     (e.canonical = true → (e.port p).framesLeft = 0 → e.portState p = St.falling → e.bit (F.CHNX_CTRL_EN p.idx) = false →
       CompletesIn d .ltx (.transitionEnd d (.port p)) s fun t => (t.die d).portState p = St.off ∧ ((t.die d).port p).hdr = none ∧
         (t.die d).eng = e.eng ∧ t.die d.other = s.die d.other) ∧
     (e.canonical = true → e.eng.walls[w].framesLeft = 0 → e.wallState w = St.rising → e.bitAt F.ENG_WCTL_WALL_EN w = false →
       CompletesIn d .eng (.transitionEnd d (.wall w)) s fun t => (t.die d).wallState w = St.falling ∧
         (t.die d).eng.walls[w].framesLeft = 4 ∧ t.die d.other = s.die d.other) ∧
     (e.canonical = true → e.eng.walls[w].framesLeft = 0 → e.wallState w = St.falling → e.bitAt F.ENG_WCTL_WALL_EN w = true →
       CompletesIn d .eng (.transitionEnd d (.wall w)) s fun t => (t.die d).wallState w = St.rising ∧
         (t.die d).eng.walls[w].framesLeft = 32 ∧ t.die d.other = s.die d.other) ∧
     (e.canonical = true → (e.port p).framesLeft = 0 → e.portState p = St.rising → e.bit (F.CHNX_CTRL_EN p.idx) = false →
       CompletesIn d .ltx (.transitionEnd d (.port p)) s fun t => (t.die d).portState p = St.falling ∧
         ((t.die d).port p).framesLeft = 8 ∧ ((t.die d).port p).out = none ∧ t.die d.other = s.die d.other) ∧
     ((e.bridge b).ramp = .fadeIn → 256 ≤ (e.bridge b).pos → e.fld (brState b) = St.rising → e.bit (brEn b) = true →
       ChangesIn .eng (.transitionEnd d bridge) s d fun e => (e.setFld (brState b) St.on).updBridge b (·.start .full)) ∧
     ((e.bridge b).ramp = .fadeIn → 256 ≤ (e.bridge b).pos → e.fld (brState b) = St.rising → e.bit (brEn b) = false →
       ChangesIn .eng (.transitionEnd d bridge) s d fun e =>
         ((((e.setFld (brState b) St.on).updBridge b (·.start .full)).setFld (brState b) St.falling).updBridge b (·.startDown 256))) ∧
     (256 ≤ (e.bridge b).pos → e.fld (brState b) = St.falling → e.bit (brEn b) = false →
       ChangesIn .eng (.transitionEnd d bridge) s d fun e =>
         (e.setFld (brState b) St.off).updBridge b fun b => { b.start .zero with cur := [], out := [] }) ∧
     ((e.bridge b).pos < 256 → idle (.transitionEnd d bridge)) ∧
     ((e.sapPort g).framesLeft ≠ 0 → e.group g = 0 → idle (.transitionEnd d (.sap g))) ∧
     (((e.sapPort g).framesLeft = 0 ∨ e.group g = 1) → e.sapState g = St.rising → e.slave g = true → (e.sapPort g).seen < 16 →
       e.bit (F.SAP_P_CTRL_EN g) = true → ChangesIn .eng (.transitionEnd d (.sap g)) s d fun e =>
         ((e.setFld (F.SAP_P_CTRL_STATE g) St.on).setFld (F.SAP_P_STAT_NOCLK g) 1).updSap g fun q => { q with seen := 0 }) ∧
     (((e.sapPort g).framesLeft = 0 ∨ e.group g = 1) → e.sapState g = St.rising → e.canonical = true →
       CompletesIn d .eng (.transitionEnd d (.sap g)) s fun t =>
         (t.die d).sapState g = (if e.bit (F.SAP_P_CTRL_EN g) then St.on else St.falling) ∧ t.die d.other = s.die d.other) ∧
     (((e.sapPort g).framesLeft = 0 ∨ e.group g = 1) → e.sapState g = St.falling → e.canonical = true →
       CompletesIn d .eng (.transitionEnd d (.sap g)) s fun t =>
         (t.die d).sapState g = (if e.bit (F.SAP_P_CTRL_EN g) then St.rising else St.off) ∧ t.die d.other = s.die d.other) ∧
     (e.midiState = St.rising → e.canonical = true → CompletesIn d .ctl (.transitionEnd d .midi) s fun t =>
       (t.die d).midiState = (if e.bit F.MISC_MIDI_CTRL_EN then St.on else St.falling) ∧ t.die d.other = s.die d.other) ∧
     (e.midiState = St.falling → e.canonical = true → CompletesIn d .ctl (.transitionEnd d .midi) s fun t =>
       (t.die d).midiState = (if e.bit F.MISC_MIDI_CTRL_EN then St.rising else St.off) ∧ (t.die d).misc.tx = [] ∧
         (t.die d).misc.sending = none ∧ t.die d.other = s.die d.other) ∧
     (e.vox.framesLeft = 0 → e.voxState = St.rising → e.bit F.VOX_CTRL_EN = true → ChangesIn .eng (.transitionEnd d .vox) s d fun e =>
       e.setFld F.VOX_CTRL_STATE St.on) ∧
     (e.canonical = true → e.cvd.framesLeft = 0 → e.cvState = St.rising → e.bit F.CVD_CTRL_EN = true →
       ChangesIn .eng (.transitionEnd d .cvd) s d fun e => e.setFld F.CVD_CTRL_STATE St.on) ∧
     (e.canonical = true → e.fld (F.MISC_I2C_CTRL_STATE n.val) = St.falling → e.bit (F.MISC_I2C_STAT_BUSY n.val) = false →
       e.bit (F.MISC_I2C_CTRL_EN n.val) = false → ChangesIn .ctl (.transitionEnd d (.i2c n)) s d fun e =>
         e.setFld (F.MISC_I2C_CTRL_STATE n.val) St.off) ∧
     (e.fld (F.MISC_I2C_CTRL_STATE n.val) = St.falling → e.bit (F.MISC_I2C_STAT_BUSY n.val) = true → idle (.transitionEnd d (.i2c n))) ∧
     (e.clk.fallen = true → idle (.keepFallover d)) ∧
     (e.clk.fallen = false → CompletesIn d .keep (.keepFallover d) s fun t => (t.die d).clk.fallen = !Config.strapKeepsrc e.id ∧
       (t.die d).clk.keep10 = (Config.strapKeepsrc e.id && e.clk.keep10) ∧ (t.die d).clk.stopped = e.clk.stopped ∧
       (t.die d).eng = e.eng ∧ t.die d.other = s.die d.other)) ∧
  (∀ (d : DieId) (stamp : BitVec 48) (reading : BitVec 12) (limits : BitVec 8) (s : State),
     let e := s.die d
     (e.runs .eng = false → (e.pair.restart ≠ .stopped → Changes (.frameTick d stamp) s d fun e => e) ∧
       (Changes (.windowClose d) s d fun e => e) ∧ Changes (.exchangeWindow d reading limits) s d fun e => e) ∧
     (e.pair.restart = .stopped → e.frz.gate = false → e.role ≠ Role.follow → e.canonical = true → Completes (.frameTick d stamp) s fun t =>
       (t.die d).runs .eng = true ∧ (t.die d).pair.restart = .running ∧ (t.die d).tim.wckOut = true ∧
       t.die d.other = s.die d.other) ∧
     (e.runs .eng = true → e.pair.restart = .asked → Completes (.frameTick d stamp) s fun t => (t.die d).runs .eng = false ∧
       (t.die d).pair = { e.pair with restart := .stopped } ∧ (t.die d).regs = e.regs ∧ (t.die d).eng = e.eng ∧
       t.die d.other = s.die d.other) ∧
     (e.runs .eng = true →
       (e.pair.restart = .running → Completes (.frameTick d stamp) s fun t => (t.die d).eng.stopped = false ∧
         (t.die d).eng.window = false ∧ (t.die d).tim.wckOut = true ∧ t.die d.other = s.die d.other) ∧
       (Completes (.exchangeWindow d reading limits) s fun t => (t.die d).eng.window = true ∧
         (s.linked = false → t.die d.other = s.die d.other)) ∧
       (Completes (.windowClose d) s fun t =>
         (∀ w : Fin 4, (t.die d).eng.walls[w].framesLeft = e.eng.walls[w].framesLeft - 1) ∧
         (t.die d).eng.courses = e.eng.courses ∧ (t.die d).yard = e.yard ∧ t.die d.other = s.die d.other)) ∧
     (e.canonical = true → CompletesIn d .ctl (.frameTickLine d) s fun t =>
       (∀ n : Fin 4, (t.die d).pendingAt n 0 = true) ∧ t.die d.other = s.die d.other)) ∧
  (∀ (d : DieId) (stamp : BitVec 48) (n : Fin 4) (c : Fin 28) (seat : Fin 24) (s : State),
     let e := s.die d
     (e.runs .eng = true → e.pair.restart = .running → Changes (.frameTick d stamp) s d fun e =>
       (((e.frameEnd stamp).seqAdvance.frameOpen).swapExecute.frameScopes.frameCourses).frameLast e.seq) ∧
     ((e.chn.computed = none ∨ e.chn.adopt = false ∧ e.fld F.CHN_STAT_JOIN ≠ 1) → e.seqAdvance.seq = (e.seq + 1) % 2 ^ 32) ∧
     (∀ q, e.chn.computed = some q → e.chn.adopt = true → e.refFollows = false → e.seqAdvance.seq = q.toNat) ∧
     (e.dueAt e.seq = [] → e.swapExecute = e) ∧
     (e.dueAt e.seq ≠ [] →
       let t := e.swapExecute
       let u := (e.unionAt e.seq).toNat
       let holds (j : Fin 24) : Bool := e.seatCourse j == some c || (e.isShadow c && e.seatCourse j == some (e.migSrc (wallOf c)))
       t.regN R.ENG_SWAPLAST = e.seq ∧ t.regN R.ENG_SWAPLASTMASK = u ∧
       (n ∈ e.dueAt e.seq → t.bitAt F.ENG_SWAPIRQ_DONE n = true ∧
         (e.followsSlots = false → t.bit (F.ENG_SWAP_CTL_ARMED n) = false)) ∧
       t.bitAt F.ENG_SWAPSKIP_SEAT seat = (natBit u seat && !e.wallOn (seatWall seat)) ∧
       (natBit u seat = true → e.wallOn (seatWall seat) = false → t.bit F.ENG_SWAPIRQ_SKIP = true) ∧
       (e.bit F.ENG_SWAPCTL_ZMIRROR = false → (∀ j, holds j = true ↔ j = seat) → e.migSrc (wallOf c) ≠ c ∨ e.isShadow c = false →
         ((t.course c).zFront, (t.course c).zBack) =
           if natBit u seat && e.wallOn (seatWall seat) then ((e.course c).zBack, (e.course c).zFront)
           else ((e.course c).zFront, (e.course c).zBack)) ∧
       ((∀ j, holds j = false) → (t.course c).zFront = (e.course c).zFront ∧ (t.course c).zBack = (e.course c).zBack) ∧
       (t.mor.front, t.mor.back) = (if natBit u 24 then (e.mor.back, e.mor.front) else (e.mor.front, e.mor.back)) ∧
       (t.vox.front, t.vox.back) = (if natBit u 25 && !e.cfgRefused then (e.vox.back, e.vox.front) else (e.vox.front, e.vox.back)) ∧
       t.yard.rings = (if natBit u 26 then e.yard.rings.map fun r => (r.1, r.2.exchange) else e.yard.rings)) ∧
     (e.runsKernels = true →
       let t := e.frameCourses
       t.eng.stopped = false ∧ t.eng.window = false ∧
       (e.workSeat c = some seat → e.wallRuns (wallOf c) = true →
         (t.course c).entryEng = (e.course c).entryMor ∧ (t.course c).entryMor = (e.course c).entryEng ∧ (t.course c).running = true ∧
         (t.course c).pc = BitVec.ofNat 13 (e.fld (F.ENG_C_START_ADDR (e.workCourse c))) ∧ (t.course c).handler = none ∧
         ∀ l : Fin 8, (t.course c).bricks[l].lfsr = lfsrSeed e.seq seat l) ∧
       (e.serves c = false → (t.course c).running = false ∧ (t.course c).entryEng = (e.course c).entryEng ∧
         (t.course c).entryMor = (e.course c).entryMor)) ∧
     (e.runsKernels = false → (e.frameCourses.course c).running = false))

/-- MODEL: a step takes the command at the front of the queue and runs it with the queue's rest; on an empty queue it
is one edge of KEEP on both dies, which moves TICK_NS on by a period (the model's choice: assumption log 1). -/
def Obligations.StepRunsTheFrontCommand : Prop :=
  (∀ (c : Instr) (s : State), step { s with pending := c :: s.pending } = exec c s) ∧
  (∀ s : State, s.pending = [] → ∃ t, step s = .next t ∧ t.pending = [] ∧
    ∀ d : DieId, (s.die d).runs .keep = true → (t.die d).tim.tick = (s.die d).tim.tick + BitVec.ofNat 32 (s.die d).keepNs)

/-- MODEL: reset leaves no command waiting, and both dies in canonical form (representation: assumption log 8). -/
def Obligations.ResetIsCanonical : Prop :=
  State.reset.canonical = true ∧ State.reset.queueOk = true ∧ State.reset.pending = []

/-- MODEL: every command, in every state, answers a next state: there is no fault and no refusal (the model's choice:
assumption log 2, 4 and 5). MODEL: every step from a state whose waiting commands are well formed leaves such a state. -/
def Obligations.QueueStaysWellFormed : Prop :=
  (∀ (i : Instr) (s : State), ∃ t, exec i s = .next t ∧ t.pending = s.pending) ∧
  (∀ s t : State, s.queueOk = true → step s = .next t → t.queueOk = true ∧ t.pending = s.pending.tail)

/-- MODEL: every step from a state in canonical form leaves a state in canonical form (representation: assumption log
8). -/
def Obligations.CanonicalFormStays : Prop :=
  ∀ s t : State, s.canonical = true → step s = .next t → t.canonical = true
end

