-- ==== Sys2Proof/Laws/Chain.lean ====
section
/-! SUPPORT. The line coding of a chain port: what a receiver's descrambler gives back (R236). -/

namespace Sys2Proof.Machine

/-- A receiver whose descrambler has seen the line bits that the scrambler sent last gives back the bits, and stays in step. -/
theorem descramble_scramble (bs : List Bool) : ∀ s : BitVec 58, descramble s (scramble s bs).1 = (bs, (scramble s bs).2) := by
  induction bs with
  | nil => intro s; rfl
  | cons b bs ih =>
    intro s
    simp only [scramble, descramble, ih]
    cases b <;> cases scrTap s <;> rfl

/-- The latest line bit stands at bit 0 of the state. -/
theorem scrState_latest (s : BitVec 58) (y : Bool) : (scrState s y).getLsbD 0 = y := by
  cases y <;> simp [scrState]

end Sys2Proof.Machine
end

