-- ==== Sys2Proof/Laws/State.lean ====
section
/-! SUPPORT. What each update of a die leaves and writes, field by field. -/

namespace Sys2Proof.Machine

variable (e : Die) (s : State)

/-! ### Dies of the package -/

@[simp] theorem State.die_setDie_self (d : DieId) (x : Die) : (s.setDie d x).die d = x := by cases d <;> rfl
@[simp] theorem State.die_setDie_other (d : DieId) (x : Die) : (s.setDie d x).die d.other = s.die d.other := by cases d <;> rfl
@[simp] theorem State.pending_setDie (d : DieId) (x : Die) : (s.setDie d x).pending = s.pending := by cases d <;> rfl
@[simp] theorem State.setDie_setDie (d : DieId) (x y : Die) : (s.setDie d x).setDie d y = s.setDie d y := by cases d <;> rfl
@[simp] theorem State.setDie_die (d : DieId) : s.setDie d (s.die d) = s := by cases d <;> rfl
@[simp] theorem State.die_upd_self (d : DieId) (f : Die → Die) : (s.upd d f).die d = f (s.die d) := by simp [State.upd]
@[simp] theorem State.die_upd_other (d : DieId) (f : Die → Die) : (s.upd d f).die d.other = s.die d.other := by simp [State.upd]
@[simp] theorem State.pending_upd (d : DieId) (f : Die → Die) : (s.upd d f).pending = s.pending := by simp [State.upd]
@[simp] theorem State.upd_upd (d : DieId) (f g : Die → Die) : (s.upd d f).upd d g = s.upd d (fun e => g (f e)) := by
  simp [State.upd]
@[simp] theorem State.upd_same (d : DieId) : s.upd d (fun e => e) = s := by simp [State.upd]

/-! ### Updates of a die -/

@[simp] theorem Die.setReg_id (a : Nat) (v : Word) : (e.setReg a v).id = e.id := rfl
@[simp] theorem Die.setReg_regs (a : Nat) (v : Word) : (e.setReg a v).regs = SMap.set regReset e.regs a v := rfl
@[simp] theorem Die.setReg_shadow (a : Nat) (v : Word) : (e.setReg a v).shadow = e.shadow := rfl
@[simp] theorem Die.setReg_posted (a : Nat) (v : Word) : (e.setReg a v).posted = e.posted := rfl
@[simp] theorem Die.setReg_clk (a : Nat) (v : Word) : (e.setReg a v).clk = e.clk := rfl
@[simp] theorem Die.setReg_eng (a : Nat) (v : Word) : (e.setReg a v).eng = e.eng := rfl
@[simp] theorem Die.setReg_yard (a : Nat) (v : Word) : (e.setReg a v).yard = e.yard := rfl
@[simp] theorem Die.setReg_mor (a : Nat) (v : Word) : (e.setReg a v).mor = e.mor := rfl
@[simp] theorem Die.setReg_swp (a : Nat) (v : Word) : (e.setReg a v).swp = e.swp := rfl
@[simp] theorem Die.setReg_vox (a : Nat) (v : Word) : (e.setReg a v).vox = e.vox := rfl
@[simp] theorem Die.setReg_ref (a : Nat) (v : Word) : (e.setReg a v).ref = e.ref := rfl
@[simp] theorem Die.setReg_tim (a : Nat) (v : Word) : (e.setReg a v).tim = e.tim := rfl
@[simp] theorem Die.setReg_chn (a : Nat) (v : Word) : (e.setReg a v).chn = e.chn := rfl
@[simp] theorem Die.setReg_pair (a : Nat) (v : Word) : (e.setReg a v).pair = e.pair := rfl
@[simp] theorem Die.setReg_sap (a : Nat) (v : Word) : (e.setReg a v).sap = e.sap := rfl
@[simp] theorem Die.setReg_cvd (a : Nat) (v : Word) : (e.setReg a v).cvd = e.cvd := rfl
@[simp] theorem Die.setReg_boot (a : Nat) (v : Word) : (e.setReg a v).boot = e.boot := rfl
@[simp] theorem Die.setReg_mem (a : Nat) (v : Word) : (e.setReg a v).mem = e.mem := rfl
@[simp] theorem Die.setReg_cpus (a : Nat) (v : Word) : (e.setReg a v).cpus = e.cpus := rfl
@[simp] theorem Die.setReg_xbar (a : Nat) (v : Word) : (e.setReg a v).xbar = e.xbar := rfl
@[simp] theorem Die.setReg_misc (a : Nat) (v : Word) : (e.setReg a v).misc = e.misc := rfl
@[simp] theorem Die.setReg_log (a : Nat) (v : Word) : (e.setReg a v).log = e.log := rfl
@[simp] theorem Die.setReg_pct (a : Nat) (v : Word) : (e.setReg a v).pct = e.pct := rfl
@[simp] theorem Die.setReg_frz (a : Nat) (v : Word) : (e.setReg a v).frz = e.frz := rfl
@[simp] theorem Die.setReg_resp (a : Nat) (v : Word) : (e.setReg a v).resp = e.resp := rfl
@[simp] theorem Die.setReg_free (a : Nat) (v : Word) : (e.setReg a v).free = e.free := rfl
@[simp] theorem Die.setReg_runs (a : Nat) (v : Word) (dom : Dom) : (e.setReg a v).runs dom = e.runs dom := rfl
@[simp] theorem Die.setRegN_id (a v : Nat) : (e.setRegN a v).id = e.id := rfl
@[simp] theorem Die.setRegN_shadow (a v : Nat) : (e.setRegN a v).shadow = e.shadow := rfl
@[simp] theorem Die.setRegN_posted (a v : Nat) : (e.setRegN a v).posted = e.posted := rfl
@[simp] theorem Die.setRegN_clk (a v : Nat) : (e.setRegN a v).clk = e.clk := rfl
@[simp] theorem Die.setRegN_eng (a v : Nat) : (e.setRegN a v).eng = e.eng := rfl
@[simp] theorem Die.setRegN_yard (a v : Nat) : (e.setRegN a v).yard = e.yard := rfl
@[simp] theorem Die.setRegN_mor (a v : Nat) : (e.setRegN a v).mor = e.mor := rfl
@[simp] theorem Die.setRegN_swp (a v : Nat) : (e.setRegN a v).swp = e.swp := rfl
@[simp] theorem Die.setRegN_vox (a v : Nat) : (e.setRegN a v).vox = e.vox := rfl
@[simp] theorem Die.setRegN_ref (a v : Nat) : (e.setRegN a v).ref = e.ref := rfl
@[simp] theorem Die.setRegN_tim (a v : Nat) : (e.setRegN a v).tim = e.tim := rfl
@[simp] theorem Die.setRegN_chn (a v : Nat) : (e.setRegN a v).chn = e.chn := rfl
@[simp] theorem Die.setRegN_pair (a v : Nat) : (e.setRegN a v).pair = e.pair := rfl
@[simp] theorem Die.setRegN_sap (a v : Nat) : (e.setRegN a v).sap = e.sap := rfl
@[simp] theorem Die.setRegN_cvd (a v : Nat) : (e.setRegN a v).cvd = e.cvd := rfl
@[simp] theorem Die.setRegN_boot (a v : Nat) : (e.setRegN a v).boot = e.boot := rfl
@[simp] theorem Die.setRegN_mem (a v : Nat) : (e.setRegN a v).mem = e.mem := rfl
@[simp] theorem Die.setRegN_cpus (a v : Nat) : (e.setRegN a v).cpus = e.cpus := rfl
@[simp] theorem Die.setRegN_xbar (a v : Nat) : (e.setRegN a v).xbar = e.xbar := rfl
@[simp] theorem Die.setRegN_misc (a v : Nat) : (e.setRegN a v).misc = e.misc := rfl
@[simp] theorem Die.setRegN_log (a v : Nat) : (e.setRegN a v).log = e.log := rfl
@[simp] theorem Die.setRegN_pct (a v : Nat) : (e.setRegN a v).pct = e.pct := rfl
@[simp] theorem Die.setRegN_frz (a v : Nat) : (e.setRegN a v).frz = e.frz := rfl
@[simp] theorem Die.setRegN_resp (a v : Nat) : (e.setRegN a v).resp = e.resp := rfl
@[simp] theorem Die.setRegN_free (a v : Nat) : (e.setRegN a v).free = e.free := rfl
@[simp] theorem Die.setRegN_runs (a v : Nat) (dom : Dom) : (e.setRegN a v).runs dom = e.runs dom := rfl
@[simp] theorem Die.setFld_id (f : Fld) (v : Nat) : (e.setFld f v).id = e.id := rfl
@[simp] theorem Die.setFld_shadow (f : Fld) (v : Nat) : (e.setFld f v).shadow = e.shadow := rfl
@[simp] theorem Die.setFld_posted (f : Fld) (v : Nat) : (e.setFld f v).posted = e.posted := rfl
@[simp] theorem Die.setFld_clk (f : Fld) (v : Nat) : (e.setFld f v).clk = e.clk := rfl
@[simp] theorem Die.setFld_eng (f : Fld) (v : Nat) : (e.setFld f v).eng = e.eng := rfl
@[simp] theorem Die.setFld_yard (f : Fld) (v : Nat) : (e.setFld f v).yard = e.yard := rfl
@[simp] theorem Die.setFld_mor (f : Fld) (v : Nat) : (e.setFld f v).mor = e.mor := rfl
@[simp] theorem Die.setFld_swp (f : Fld) (v : Nat) : (e.setFld f v).swp = e.swp := rfl
@[simp] theorem Die.setFld_vox (f : Fld) (v : Nat) : (e.setFld f v).vox = e.vox := rfl
@[simp] theorem Die.setFld_ref (f : Fld) (v : Nat) : (e.setFld f v).ref = e.ref := rfl
@[simp] theorem Die.setFld_tim (f : Fld) (v : Nat) : (e.setFld f v).tim = e.tim := rfl
@[simp] theorem Die.setFld_chn (f : Fld) (v : Nat) : (e.setFld f v).chn = e.chn := rfl
@[simp] theorem Die.setFld_pair (f : Fld) (v : Nat) : (e.setFld f v).pair = e.pair := rfl
@[simp] theorem Die.setFld_sap (f : Fld) (v : Nat) : (e.setFld f v).sap = e.sap := rfl
@[simp] theorem Die.setFld_cvd (f : Fld) (v : Nat) : (e.setFld f v).cvd = e.cvd := rfl
@[simp] theorem Die.setFld_boot (f : Fld) (v : Nat) : (e.setFld f v).boot = e.boot := rfl
@[simp] theorem Die.setFld_mem (f : Fld) (v : Nat) : (e.setFld f v).mem = e.mem := rfl
@[simp] theorem Die.setFld_cpus (f : Fld) (v : Nat) : (e.setFld f v).cpus = e.cpus := rfl
@[simp] theorem Die.setFld_xbar (f : Fld) (v : Nat) : (e.setFld f v).xbar = e.xbar := rfl
@[simp] theorem Die.setFld_misc (f : Fld) (v : Nat) : (e.setFld f v).misc = e.misc := rfl
@[simp] theorem Die.setFld_log (f : Fld) (v : Nat) : (e.setFld f v).log = e.log := rfl
@[simp] theorem Die.setFld_pct (f : Fld) (v : Nat) : (e.setFld f v).pct = e.pct := rfl
@[simp] theorem Die.setFld_frz (f : Fld) (v : Nat) : (e.setFld f v).frz = e.frz := rfl
@[simp] theorem Die.setFld_resp (f : Fld) (v : Nat) : (e.setFld f v).resp = e.resp := rfl
@[simp] theorem Die.setFld_free (f : Fld) (v : Nat) : (e.setFld f v).free = e.free := rfl
@[simp] theorem Die.setFld_runs (f : Fld) (v : Nat) (dom : Dom) : (e.setFld f v).runs dom = e.runs dom := rfl
@[simp] theorem Die.setBit_id (f : Fld) (b : Bool) : (e.setBit f b).id = e.id := rfl
@[simp] theorem Die.setBit_shadow (f : Fld) (b : Bool) : (e.setBit f b).shadow = e.shadow := rfl
@[simp] theorem Die.setBit_posted (f : Fld) (b : Bool) : (e.setBit f b).posted = e.posted := rfl
@[simp] theorem Die.setBit_clk (f : Fld) (b : Bool) : (e.setBit f b).clk = e.clk := rfl
@[simp] theorem Die.setBit_eng (f : Fld) (b : Bool) : (e.setBit f b).eng = e.eng := rfl
@[simp] theorem Die.setBit_yard (f : Fld) (b : Bool) : (e.setBit f b).yard = e.yard := rfl
@[simp] theorem Die.setBit_mor (f : Fld) (b : Bool) : (e.setBit f b).mor = e.mor := rfl
@[simp] theorem Die.setBit_swp (f : Fld) (b : Bool) : (e.setBit f b).swp = e.swp := rfl
@[simp] theorem Die.setBit_vox (f : Fld) (b : Bool) : (e.setBit f b).vox = e.vox := rfl
@[simp] theorem Die.setBit_ref (f : Fld) (b : Bool) : (e.setBit f b).ref = e.ref := rfl
@[simp] theorem Die.setBit_tim (f : Fld) (b : Bool) : (e.setBit f b).tim = e.tim := rfl
@[simp] theorem Die.setBit_chn (f : Fld) (b : Bool) : (e.setBit f b).chn = e.chn := rfl
@[simp] theorem Die.setBit_pair (f : Fld) (b : Bool) : (e.setBit f b).pair = e.pair := rfl
@[simp] theorem Die.setBit_sap (f : Fld) (b : Bool) : (e.setBit f b).sap = e.sap := rfl
@[simp] theorem Die.setBit_cvd (f : Fld) (b : Bool) : (e.setBit f b).cvd = e.cvd := rfl
@[simp] theorem Die.setBit_boot (f : Fld) (b : Bool) : (e.setBit f b).boot = e.boot := rfl
@[simp] theorem Die.setBit_mem (f : Fld) (b : Bool) : (e.setBit f b).mem = e.mem := rfl
@[simp] theorem Die.setBit_cpus (f : Fld) (b : Bool) : (e.setBit f b).cpus = e.cpus := rfl
@[simp] theorem Die.setBit_xbar (f : Fld) (b : Bool) : (e.setBit f b).xbar = e.xbar := rfl
@[simp] theorem Die.setBit_misc (f : Fld) (b : Bool) : (e.setBit f b).misc = e.misc := rfl
@[simp] theorem Die.setBit_log (f : Fld) (b : Bool) : (e.setBit f b).log = e.log := rfl
@[simp] theorem Die.setBit_pct (f : Fld) (b : Bool) : (e.setBit f b).pct = e.pct := rfl
@[simp] theorem Die.setBit_frz (f : Fld) (b : Bool) : (e.setBit f b).frz = e.frz := rfl
@[simp] theorem Die.setBit_resp (f : Fld) (b : Bool) : (e.setBit f b).resp = e.resp := rfl
@[simp] theorem Die.setBit_free (f : Fld) (b : Bool) : (e.setBit f b).free = e.free := rfl
@[simp] theorem Die.setBit_runs (f : Fld) (b : Bool) (dom : Dom) : (e.setBit f b).runs dom = e.runs dom := rfl
@[simp] theorem Die.setBitAt_id (f : Fld) (i : Nat) (b : Bool) : (e.setBitAt f i b).id = e.id := rfl
@[simp] theorem Die.setBitAt_shadow (f : Fld) (i : Nat) (b : Bool) : (e.setBitAt f i b).shadow = e.shadow := rfl
@[simp] theorem Die.setBitAt_posted (f : Fld) (i : Nat) (b : Bool) : (e.setBitAt f i b).posted = e.posted := rfl
@[simp] theorem Die.setBitAt_clk (f : Fld) (i : Nat) (b : Bool) : (e.setBitAt f i b).clk = e.clk := rfl
@[simp] theorem Die.setBitAt_eng (f : Fld) (i : Nat) (b : Bool) : (e.setBitAt f i b).eng = e.eng := rfl
@[simp] theorem Die.setBitAt_yard (f : Fld) (i : Nat) (b : Bool) : (e.setBitAt f i b).yard = e.yard := rfl
@[simp] theorem Die.setBitAt_mor (f : Fld) (i : Nat) (b : Bool) : (e.setBitAt f i b).mor = e.mor := rfl
@[simp] theorem Die.setBitAt_swp (f : Fld) (i : Nat) (b : Bool) : (e.setBitAt f i b).swp = e.swp := rfl
@[simp] theorem Die.setBitAt_vox (f : Fld) (i : Nat) (b : Bool) : (e.setBitAt f i b).vox = e.vox := rfl
@[simp] theorem Die.setBitAt_ref (f : Fld) (i : Nat) (b : Bool) : (e.setBitAt f i b).ref = e.ref := rfl
@[simp] theorem Die.setBitAt_tim (f : Fld) (i : Nat) (b : Bool) : (e.setBitAt f i b).tim = e.tim := rfl
@[simp] theorem Die.setBitAt_chn (f : Fld) (i : Nat) (b : Bool) : (e.setBitAt f i b).chn = e.chn := rfl
@[simp] theorem Die.setBitAt_pair (f : Fld) (i : Nat) (b : Bool) : (e.setBitAt f i b).pair = e.pair := rfl
@[simp] theorem Die.setBitAt_sap (f : Fld) (i : Nat) (b : Bool) : (e.setBitAt f i b).sap = e.sap := rfl
@[simp] theorem Die.setBitAt_cvd (f : Fld) (i : Nat) (b : Bool) : (e.setBitAt f i b).cvd = e.cvd := rfl
@[simp] theorem Die.setBitAt_boot (f : Fld) (i : Nat) (b : Bool) : (e.setBitAt f i b).boot = e.boot := rfl
@[simp] theorem Die.setBitAt_mem (f : Fld) (i : Nat) (b : Bool) : (e.setBitAt f i b).mem = e.mem := rfl
@[simp] theorem Die.setBitAt_cpus (f : Fld) (i : Nat) (b : Bool) : (e.setBitAt f i b).cpus = e.cpus := rfl
@[simp] theorem Die.setBitAt_xbar (f : Fld) (i : Nat) (b : Bool) : (e.setBitAt f i b).xbar = e.xbar := rfl
@[simp] theorem Die.setBitAt_misc (f : Fld) (i : Nat) (b : Bool) : (e.setBitAt f i b).misc = e.misc := rfl
@[simp] theorem Die.setBitAt_log (f : Fld) (i : Nat) (b : Bool) : (e.setBitAt f i b).log = e.log := rfl
@[simp] theorem Die.setBitAt_pct (f : Fld) (i : Nat) (b : Bool) : (e.setBitAt f i b).pct = e.pct := rfl
@[simp] theorem Die.setBitAt_frz (f : Fld) (i : Nat) (b : Bool) : (e.setBitAt f i b).frz = e.frz := rfl
@[simp] theorem Die.setBitAt_resp (f : Fld) (i : Nat) (b : Bool) : (e.setBitAt f i b).resp = e.resp := rfl
@[simp] theorem Die.setBitAt_free (f : Fld) (i : Nat) (b : Bool) : (e.setBitAt f i b).free = e.free := rfl
@[simp] theorem Die.setBitAt_runs (f : Fld) (i : Nat) (b : Bool) (dom : Dom) : (e.setBitAt f i b).runs dom = e.runs dom := rfl
@[simp] theorem Die.updBoot_id (f : Boot → Boot) : (e.updBoot f).id = e.id := rfl
@[simp] theorem Die.updBoot_regs (f : Boot → Boot) : (e.updBoot f).regs = e.regs := rfl
@[simp] theorem Die.updBoot_shadow (f : Boot → Boot) : (e.updBoot f).shadow = e.shadow := rfl
@[simp] theorem Die.updBoot_posted (f : Boot → Boot) : (e.updBoot f).posted = e.posted := rfl
@[simp] theorem Die.updBoot_clk (f : Boot → Boot) : (e.updBoot f).clk = e.clk := rfl
@[simp] theorem Die.updBoot_eng (f : Boot → Boot) : (e.updBoot f).eng = e.eng := rfl
@[simp] theorem Die.updBoot_yard (f : Boot → Boot) : (e.updBoot f).yard = e.yard := rfl
@[simp] theorem Die.updBoot_mor (f : Boot → Boot) : (e.updBoot f).mor = e.mor := rfl
@[simp] theorem Die.updBoot_swp (f : Boot → Boot) : (e.updBoot f).swp = e.swp := rfl
@[simp] theorem Die.updBoot_vox (f : Boot → Boot) : (e.updBoot f).vox = e.vox := rfl
@[simp] theorem Die.updBoot_ref (f : Boot → Boot) : (e.updBoot f).ref = e.ref := rfl
@[simp] theorem Die.updBoot_tim (f : Boot → Boot) : (e.updBoot f).tim = e.tim := rfl
@[simp] theorem Die.updBoot_chn (f : Boot → Boot) : (e.updBoot f).chn = e.chn := rfl
@[simp] theorem Die.updBoot_pair (f : Boot → Boot) : (e.updBoot f).pair = e.pair := rfl
@[simp] theorem Die.updBoot_sap (f : Boot → Boot) : (e.updBoot f).sap = e.sap := rfl
@[simp] theorem Die.updBoot_cvd (f : Boot → Boot) : (e.updBoot f).cvd = e.cvd := rfl
@[simp] theorem Die.updBoot_boot (f : Boot → Boot) : (e.updBoot f).boot = f e.boot := rfl
@[simp] theorem Die.updBoot_mem (f : Boot → Boot) : (e.updBoot f).mem = e.mem := rfl
@[simp] theorem Die.updBoot_cpus (f : Boot → Boot) : (e.updBoot f).cpus = e.cpus := rfl
@[simp] theorem Die.updBoot_xbar (f : Boot → Boot) : (e.updBoot f).xbar = e.xbar := rfl
@[simp] theorem Die.updBoot_misc (f : Boot → Boot) : (e.updBoot f).misc = e.misc := rfl
@[simp] theorem Die.updBoot_log (f : Boot → Boot) : (e.updBoot f).log = e.log := rfl
@[simp] theorem Die.updBoot_pct (f : Boot → Boot) : (e.updBoot f).pct = e.pct := rfl
@[simp] theorem Die.updBoot_frz (f : Boot → Boot) : (e.updBoot f).frz = e.frz := rfl
@[simp] theorem Die.updBoot_resp (f : Boot → Boot) : (e.updBoot f).resp = e.resp := rfl
@[simp] theorem Die.updBoot_free (f : Boot → Boot) : (e.updBoot f).free = e.free := rfl
@[simp] theorem Die.updBoot_reg (f : Boot → Boot) (r : Nat) : (e.updBoot f).reg r = e.reg r := rfl
@[simp] theorem Die.updBoot_fld (f : Boot → Boot) (g : Fld) : (e.updBoot f).fld g = e.fld g := rfl
@[simp] theorem Die.updBoot_bit (f : Boot → Boot) (g : Fld) : (e.updBoot f).bit g = e.bit g := rfl
@[simp] theorem Die.updBoot_runs (f : Boot → Boot) (dom : Dom) : (e.updBoot f).runs dom = e.runs dom := rfl
@[simp] theorem Die.updChn_id (f : Chain → Chain) : (e.updChn f).id = e.id := rfl
@[simp] theorem Die.updChn_regs (f : Chain → Chain) : (e.updChn f).regs = e.regs := rfl
@[simp] theorem Die.updChn_shadow (f : Chain → Chain) : (e.updChn f).shadow = e.shadow := rfl
@[simp] theorem Die.updChn_posted (f : Chain → Chain) : (e.updChn f).posted = e.posted := rfl
@[simp] theorem Die.updChn_clk (f : Chain → Chain) : (e.updChn f).clk = e.clk := rfl
@[simp] theorem Die.updChn_eng (f : Chain → Chain) : (e.updChn f).eng = e.eng := rfl
@[simp] theorem Die.updChn_yard (f : Chain → Chain) : (e.updChn f).yard = e.yard := rfl
@[simp] theorem Die.updChn_mor (f : Chain → Chain) : (e.updChn f).mor = e.mor := rfl
@[simp] theorem Die.updChn_swp (f : Chain → Chain) : (e.updChn f).swp = e.swp := rfl
@[simp] theorem Die.updChn_vox (f : Chain → Chain) : (e.updChn f).vox = e.vox := rfl
@[simp] theorem Die.updChn_ref (f : Chain → Chain) : (e.updChn f).ref = e.ref := rfl
@[simp] theorem Die.updChn_tim (f : Chain → Chain) : (e.updChn f).tim = e.tim := rfl
@[simp] theorem Die.updChn_chn (f : Chain → Chain) : (e.updChn f).chn = f e.chn := rfl
@[simp] theorem Die.updChn_pair (f : Chain → Chain) : (e.updChn f).pair = e.pair := rfl
@[simp] theorem Die.updChn_sap (f : Chain → Chain) : (e.updChn f).sap = e.sap := rfl
@[simp] theorem Die.updChn_cvd (f : Chain → Chain) : (e.updChn f).cvd = e.cvd := rfl
@[simp] theorem Die.updChn_boot (f : Chain → Chain) : (e.updChn f).boot = e.boot := rfl
@[simp] theorem Die.updChn_mem (f : Chain → Chain) : (e.updChn f).mem = e.mem := rfl
@[simp] theorem Die.updChn_cpus (f : Chain → Chain) : (e.updChn f).cpus = e.cpus := rfl
@[simp] theorem Die.updChn_xbar (f : Chain → Chain) : (e.updChn f).xbar = e.xbar := rfl
@[simp] theorem Die.updChn_misc (f : Chain → Chain) : (e.updChn f).misc = e.misc := rfl
@[simp] theorem Die.updChn_log (f : Chain → Chain) : (e.updChn f).log = e.log := rfl
@[simp] theorem Die.updChn_pct (f : Chain → Chain) : (e.updChn f).pct = e.pct := rfl
@[simp] theorem Die.updChn_frz (f : Chain → Chain) : (e.updChn f).frz = e.frz := rfl
@[simp] theorem Die.updChn_resp (f : Chain → Chain) : (e.updChn f).resp = e.resp := rfl
@[simp] theorem Die.updChn_free (f : Chain → Chain) : (e.updChn f).free = e.free := rfl
@[simp] theorem Die.updChn_reg (f : Chain → Chain) (r : Nat) : (e.updChn f).reg r = e.reg r := rfl
@[simp] theorem Die.updChn_fld (f : Chain → Chain) (g : Fld) : (e.updChn f).fld g = e.fld g := rfl
@[simp] theorem Die.updChn_bit (f : Chain → Chain) (g : Fld) : (e.updChn f).bit g = e.bit g := rfl
@[simp] theorem Die.updChn_runs (f : Chain → Chain) (dom : Dom) : (e.updChn f).runs dom = e.runs dom := rfl
@[simp] theorem Die.updCpu_id (n : Fin 4) (f : Cpu → Cpu) : (e.updCpu n f).id = e.id := rfl
@[simp] theorem Die.updCpu_regs (n : Fin 4) (f : Cpu → Cpu) : (e.updCpu n f).regs = e.regs := rfl
@[simp] theorem Die.updCpu_shadow (n : Fin 4) (f : Cpu → Cpu) : (e.updCpu n f).shadow = e.shadow := rfl
@[simp] theorem Die.updCpu_posted (n : Fin 4) (f : Cpu → Cpu) : (e.updCpu n f).posted = e.posted := rfl
@[simp] theorem Die.updCpu_clk (n : Fin 4) (f : Cpu → Cpu) : (e.updCpu n f).clk = e.clk := rfl
@[simp] theorem Die.updCpu_eng (n : Fin 4) (f : Cpu → Cpu) : (e.updCpu n f).eng = e.eng := rfl
@[simp] theorem Die.updCpu_yard (n : Fin 4) (f : Cpu → Cpu) : (e.updCpu n f).yard = e.yard := rfl
@[simp] theorem Die.updCpu_mor (n : Fin 4) (f : Cpu → Cpu) : (e.updCpu n f).mor = e.mor := rfl
@[simp] theorem Die.updCpu_swp (n : Fin 4) (f : Cpu → Cpu) : (e.updCpu n f).swp = e.swp := rfl
@[simp] theorem Die.updCpu_vox (n : Fin 4) (f : Cpu → Cpu) : (e.updCpu n f).vox = e.vox := rfl
@[simp] theorem Die.updCpu_ref (n : Fin 4) (f : Cpu → Cpu) : (e.updCpu n f).ref = e.ref := rfl
@[simp] theorem Die.updCpu_tim (n : Fin 4) (f : Cpu → Cpu) : (e.updCpu n f).tim = e.tim := rfl
@[simp] theorem Die.updCpu_chn (n : Fin 4) (f : Cpu → Cpu) : (e.updCpu n f).chn = e.chn := rfl
@[simp] theorem Die.updCpu_pair (n : Fin 4) (f : Cpu → Cpu) : (e.updCpu n f).pair = e.pair := rfl
@[simp] theorem Die.updCpu_sap (n : Fin 4) (f : Cpu → Cpu) : (e.updCpu n f).sap = e.sap := rfl
@[simp] theorem Die.updCpu_cvd (n : Fin 4) (f : Cpu → Cpu) : (e.updCpu n f).cvd = e.cvd := rfl
@[simp] theorem Die.updCpu_boot (n : Fin 4) (f : Cpu → Cpu) : (e.updCpu n f).boot = e.boot := rfl
@[simp] theorem Die.updCpu_mem (n : Fin 4) (f : Cpu → Cpu) : (e.updCpu n f).mem = e.mem := rfl
@[simp] theorem Die.updCpu_cpus (n : Fin 4) (f : Cpu → Cpu) : (e.updCpu n f).cpus = vupd e.cpus n f := rfl
@[simp] theorem Die.updCpu_xbar (n : Fin 4) (f : Cpu → Cpu) : (e.updCpu n f).xbar = e.xbar := rfl
@[simp] theorem Die.updCpu_misc (n : Fin 4) (f : Cpu → Cpu) : (e.updCpu n f).misc = e.misc := rfl
@[simp] theorem Die.updCpu_log (n : Fin 4) (f : Cpu → Cpu) : (e.updCpu n f).log = e.log := rfl
@[simp] theorem Die.updCpu_pct (n : Fin 4) (f : Cpu → Cpu) : (e.updCpu n f).pct = e.pct := rfl
@[simp] theorem Die.updCpu_frz (n : Fin 4) (f : Cpu → Cpu) : (e.updCpu n f).frz = e.frz := rfl
@[simp] theorem Die.updCpu_resp (n : Fin 4) (f : Cpu → Cpu) : (e.updCpu n f).resp = e.resp := rfl
@[simp] theorem Die.updCpu_free (n : Fin 4) (f : Cpu → Cpu) : (e.updCpu n f).free = e.free := rfl
@[simp] theorem Die.updCpu_reg (n : Fin 4) (f : Cpu → Cpu) (r : Nat) : (e.updCpu n f).reg r = e.reg r := rfl
@[simp] theorem Die.updCpu_fld (n : Fin 4) (f : Cpu → Cpu) (g : Fld) : (e.updCpu n f).fld g = e.fld g := rfl
@[simp] theorem Die.updCpu_bit (n : Fin 4) (f : Cpu → Cpu) (g : Fld) : (e.updCpu n f).bit g = e.bit g := rfl
@[simp] theorem Die.updCpu_runs (n : Fin 4) (f : Cpu → Cpu) (dom : Dom) : (e.updCpu n f).runs dom = e.runs dom := rfl
@[simp] theorem Die.updCvd_id (f : Cvd → Cvd) : (e.updCvd f).id = e.id := rfl
@[simp] theorem Die.updCvd_regs (f : Cvd → Cvd) : (e.updCvd f).regs = e.regs := rfl
@[simp] theorem Die.updCvd_shadow (f : Cvd → Cvd) : (e.updCvd f).shadow = e.shadow := rfl
@[simp] theorem Die.updCvd_posted (f : Cvd → Cvd) : (e.updCvd f).posted = e.posted := rfl
@[simp] theorem Die.updCvd_clk (f : Cvd → Cvd) : (e.updCvd f).clk = e.clk := rfl
@[simp] theorem Die.updCvd_eng (f : Cvd → Cvd) : (e.updCvd f).eng = e.eng := rfl
@[simp] theorem Die.updCvd_yard (f : Cvd → Cvd) : (e.updCvd f).yard = e.yard := rfl
@[simp] theorem Die.updCvd_mor (f : Cvd → Cvd) : (e.updCvd f).mor = e.mor := rfl
@[simp] theorem Die.updCvd_swp (f : Cvd → Cvd) : (e.updCvd f).swp = e.swp := rfl
@[simp] theorem Die.updCvd_vox (f : Cvd → Cvd) : (e.updCvd f).vox = e.vox := rfl
@[simp] theorem Die.updCvd_ref (f : Cvd → Cvd) : (e.updCvd f).ref = e.ref := rfl
@[simp] theorem Die.updCvd_tim (f : Cvd → Cvd) : (e.updCvd f).tim = e.tim := rfl
@[simp] theorem Die.updCvd_chn (f : Cvd → Cvd) : (e.updCvd f).chn = e.chn := rfl
@[simp] theorem Die.updCvd_pair (f : Cvd → Cvd) : (e.updCvd f).pair = e.pair := rfl
@[simp] theorem Die.updCvd_sap (f : Cvd → Cvd) : (e.updCvd f).sap = e.sap := rfl
@[simp] theorem Die.updCvd_cvd (f : Cvd → Cvd) : (e.updCvd f).cvd = f e.cvd := rfl
@[simp] theorem Die.updCvd_boot (f : Cvd → Cvd) : (e.updCvd f).boot = e.boot := rfl
@[simp] theorem Die.updCvd_mem (f : Cvd → Cvd) : (e.updCvd f).mem = e.mem := rfl
@[simp] theorem Die.updCvd_cpus (f : Cvd → Cvd) : (e.updCvd f).cpus = e.cpus := rfl
@[simp] theorem Die.updCvd_xbar (f : Cvd → Cvd) : (e.updCvd f).xbar = e.xbar := rfl
@[simp] theorem Die.updCvd_misc (f : Cvd → Cvd) : (e.updCvd f).misc = e.misc := rfl
@[simp] theorem Die.updCvd_log (f : Cvd → Cvd) : (e.updCvd f).log = e.log := rfl
@[simp] theorem Die.updCvd_pct (f : Cvd → Cvd) : (e.updCvd f).pct = e.pct := rfl
@[simp] theorem Die.updCvd_frz (f : Cvd → Cvd) : (e.updCvd f).frz = e.frz := rfl
@[simp] theorem Die.updCvd_resp (f : Cvd → Cvd) : (e.updCvd f).resp = e.resp := rfl
@[simp] theorem Die.updCvd_free (f : Cvd → Cvd) : (e.updCvd f).free = e.free := rfl
@[simp] theorem Die.updCvd_reg (f : Cvd → Cvd) (r : Nat) : (e.updCvd f).reg r = e.reg r := rfl
@[simp] theorem Die.updCvd_fld (f : Cvd → Cvd) (g : Fld) : (e.updCvd f).fld g = e.fld g := rfl
@[simp] theorem Die.updCvd_bit (f : Cvd → Cvd) (g : Fld) : (e.updCvd f).bit g = e.bit g := rfl
@[simp] theorem Die.updCvd_runs (f : Cvd → Cvd) (dom : Dom) : (e.updCvd f).runs dom = e.runs dom := rfl
@[simp] theorem Die.updFrz_id (f : Freeze → Freeze) : (e.updFrz f).id = e.id := rfl
@[simp] theorem Die.updFrz_regs (f : Freeze → Freeze) : (e.updFrz f).regs = e.regs := rfl
@[simp] theorem Die.updFrz_shadow (f : Freeze → Freeze) : (e.updFrz f).shadow = e.shadow := rfl
@[simp] theorem Die.updFrz_posted (f : Freeze → Freeze) : (e.updFrz f).posted = e.posted := rfl
@[simp] theorem Die.updFrz_clk (f : Freeze → Freeze) : (e.updFrz f).clk = e.clk := rfl
@[simp] theorem Die.updFrz_eng (f : Freeze → Freeze) : (e.updFrz f).eng = e.eng := rfl
@[simp] theorem Die.updFrz_yard (f : Freeze → Freeze) : (e.updFrz f).yard = e.yard := rfl
@[simp] theorem Die.updFrz_mor (f : Freeze → Freeze) : (e.updFrz f).mor = e.mor := rfl
@[simp] theorem Die.updFrz_swp (f : Freeze → Freeze) : (e.updFrz f).swp = e.swp := rfl
@[simp] theorem Die.updFrz_vox (f : Freeze → Freeze) : (e.updFrz f).vox = e.vox := rfl
@[simp] theorem Die.updFrz_ref (f : Freeze → Freeze) : (e.updFrz f).ref = e.ref := rfl
@[simp] theorem Die.updFrz_tim (f : Freeze → Freeze) : (e.updFrz f).tim = e.tim := rfl
@[simp] theorem Die.updFrz_chn (f : Freeze → Freeze) : (e.updFrz f).chn = e.chn := rfl
@[simp] theorem Die.updFrz_pair (f : Freeze → Freeze) : (e.updFrz f).pair = e.pair := rfl
@[simp] theorem Die.updFrz_sap (f : Freeze → Freeze) : (e.updFrz f).sap = e.sap := rfl
@[simp] theorem Die.updFrz_cvd (f : Freeze → Freeze) : (e.updFrz f).cvd = e.cvd := rfl
@[simp] theorem Die.updFrz_boot (f : Freeze → Freeze) : (e.updFrz f).boot = e.boot := rfl
@[simp] theorem Die.updFrz_mem (f : Freeze → Freeze) : (e.updFrz f).mem = e.mem := rfl
@[simp] theorem Die.updFrz_cpus (f : Freeze → Freeze) : (e.updFrz f).cpus = e.cpus := rfl
@[simp] theorem Die.updFrz_xbar (f : Freeze → Freeze) : (e.updFrz f).xbar = e.xbar := rfl
@[simp] theorem Die.updFrz_misc (f : Freeze → Freeze) : (e.updFrz f).misc = e.misc := rfl
@[simp] theorem Die.updFrz_log (f : Freeze → Freeze) : (e.updFrz f).log = e.log := rfl
@[simp] theorem Die.updFrz_pct (f : Freeze → Freeze) : (e.updFrz f).pct = e.pct := rfl
@[simp] theorem Die.updFrz_frz (f : Freeze → Freeze) : (e.updFrz f).frz = f e.frz := rfl
@[simp] theorem Die.updFrz_resp (f : Freeze → Freeze) : (e.updFrz f).resp = e.resp := rfl
@[simp] theorem Die.updFrz_free (f : Freeze → Freeze) : (e.updFrz f).free = e.free := rfl
@[simp] theorem Die.updFrz_reg (f : Freeze → Freeze) (r : Nat) : (e.updFrz f).reg r = e.reg r := rfl
@[simp] theorem Die.updFrz_fld (f : Freeze → Freeze) (g : Fld) : (e.updFrz f).fld g = e.fld g := rfl
@[simp] theorem Die.updFrz_bit (f : Freeze → Freeze) (g : Fld) : (e.updFrz f).bit g = e.bit g := rfl
@[simp] theorem Die.updFrz_runs (f : Freeze → Freeze) (dom : Dom) : (e.updFrz f).runs dom = e.runs dom := rfl
@[simp] theorem Die.updLog_id (f : LogUnit → LogUnit) : (e.updLog f).id = e.id := rfl
@[simp] theorem Die.updLog_regs (f : LogUnit → LogUnit) : (e.updLog f).regs = e.regs := rfl
@[simp] theorem Die.updLog_shadow (f : LogUnit → LogUnit) : (e.updLog f).shadow = e.shadow := rfl
@[simp] theorem Die.updLog_posted (f : LogUnit → LogUnit) : (e.updLog f).posted = e.posted := rfl
@[simp] theorem Die.updLog_clk (f : LogUnit → LogUnit) : (e.updLog f).clk = e.clk := rfl
@[simp] theorem Die.updLog_eng (f : LogUnit → LogUnit) : (e.updLog f).eng = e.eng := rfl
@[simp] theorem Die.updLog_yard (f : LogUnit → LogUnit) : (e.updLog f).yard = e.yard := rfl
@[simp] theorem Die.updLog_mor (f : LogUnit → LogUnit) : (e.updLog f).mor = e.mor := rfl
@[simp] theorem Die.updLog_swp (f : LogUnit → LogUnit) : (e.updLog f).swp = e.swp := rfl
@[simp] theorem Die.updLog_vox (f : LogUnit → LogUnit) : (e.updLog f).vox = e.vox := rfl
@[simp] theorem Die.updLog_ref (f : LogUnit → LogUnit) : (e.updLog f).ref = e.ref := rfl
@[simp] theorem Die.updLog_tim (f : LogUnit → LogUnit) : (e.updLog f).tim = e.tim := rfl
@[simp] theorem Die.updLog_chn (f : LogUnit → LogUnit) : (e.updLog f).chn = e.chn := rfl
@[simp] theorem Die.updLog_pair (f : LogUnit → LogUnit) : (e.updLog f).pair = e.pair := rfl
@[simp] theorem Die.updLog_sap (f : LogUnit → LogUnit) : (e.updLog f).sap = e.sap := rfl
@[simp] theorem Die.updLog_cvd (f : LogUnit → LogUnit) : (e.updLog f).cvd = e.cvd := rfl
@[simp] theorem Die.updLog_boot (f : LogUnit → LogUnit) : (e.updLog f).boot = e.boot := rfl
@[simp] theorem Die.updLog_mem (f : LogUnit → LogUnit) : (e.updLog f).mem = e.mem := rfl
@[simp] theorem Die.updLog_cpus (f : LogUnit → LogUnit) : (e.updLog f).cpus = e.cpus := rfl
@[simp] theorem Die.updLog_xbar (f : LogUnit → LogUnit) : (e.updLog f).xbar = e.xbar := rfl
@[simp] theorem Die.updLog_misc (f : LogUnit → LogUnit) : (e.updLog f).misc = e.misc := rfl
@[simp] theorem Die.updLog_log (f : LogUnit → LogUnit) : (e.updLog f).log = f e.log := rfl
@[simp] theorem Die.updLog_pct (f : LogUnit → LogUnit) : (e.updLog f).pct = e.pct := rfl
@[simp] theorem Die.updLog_frz (f : LogUnit → LogUnit) : (e.updLog f).frz = e.frz := rfl
@[simp] theorem Die.updLog_resp (f : LogUnit → LogUnit) : (e.updLog f).resp = e.resp := rfl
@[simp] theorem Die.updLog_free (f : LogUnit → LogUnit) : (e.updLog f).free = e.free := rfl
@[simp] theorem Die.updLog_reg (f : LogUnit → LogUnit) (r : Nat) : (e.updLog f).reg r = e.reg r := rfl
@[simp] theorem Die.updLog_fld (f : LogUnit → LogUnit) (g : Fld) : (e.updLog f).fld g = e.fld g := rfl
@[simp] theorem Die.updLog_bit (f : LogUnit → LogUnit) (g : Fld) : (e.updLog f).bit g = e.bit g := rfl
@[simp] theorem Die.updLog_runs (f : LogUnit → LogUnit) (dom : Dom) : (e.updLog f).runs dom = e.runs dom := rfl
@[simp] theorem Die.updMisc_id (f : Misc → Misc) : (e.updMisc f).id = e.id := rfl
@[simp] theorem Die.updMisc_regs (f : Misc → Misc) : (e.updMisc f).regs = e.regs := rfl
@[simp] theorem Die.updMisc_shadow (f : Misc → Misc) : (e.updMisc f).shadow = e.shadow := rfl
@[simp] theorem Die.updMisc_posted (f : Misc → Misc) : (e.updMisc f).posted = e.posted := rfl
@[simp] theorem Die.updMisc_clk (f : Misc → Misc) : (e.updMisc f).clk = e.clk := rfl
@[simp] theorem Die.updMisc_eng (f : Misc → Misc) : (e.updMisc f).eng = e.eng := rfl
@[simp] theorem Die.updMisc_yard (f : Misc → Misc) : (e.updMisc f).yard = e.yard := rfl
@[simp] theorem Die.updMisc_mor (f : Misc → Misc) : (e.updMisc f).mor = e.mor := rfl
@[simp] theorem Die.updMisc_swp (f : Misc → Misc) : (e.updMisc f).swp = e.swp := rfl
@[simp] theorem Die.updMisc_vox (f : Misc → Misc) : (e.updMisc f).vox = e.vox := rfl
@[simp] theorem Die.updMisc_ref (f : Misc → Misc) : (e.updMisc f).ref = e.ref := rfl
@[simp] theorem Die.updMisc_tim (f : Misc → Misc) : (e.updMisc f).tim = e.tim := rfl
@[simp] theorem Die.updMisc_chn (f : Misc → Misc) : (e.updMisc f).chn = e.chn := rfl
@[simp] theorem Die.updMisc_pair (f : Misc → Misc) : (e.updMisc f).pair = e.pair := rfl
@[simp] theorem Die.updMisc_sap (f : Misc → Misc) : (e.updMisc f).sap = e.sap := rfl
@[simp] theorem Die.updMisc_cvd (f : Misc → Misc) : (e.updMisc f).cvd = e.cvd := rfl
@[simp] theorem Die.updMisc_boot (f : Misc → Misc) : (e.updMisc f).boot = e.boot := rfl
@[simp] theorem Die.updMisc_mem (f : Misc → Misc) : (e.updMisc f).mem = e.mem := rfl
@[simp] theorem Die.updMisc_cpus (f : Misc → Misc) : (e.updMisc f).cpus = e.cpus := rfl
@[simp] theorem Die.updMisc_xbar (f : Misc → Misc) : (e.updMisc f).xbar = e.xbar := rfl
@[simp] theorem Die.updMisc_misc (f : Misc → Misc) : (e.updMisc f).misc = f e.misc := rfl
@[simp] theorem Die.updMisc_log (f : Misc → Misc) : (e.updMisc f).log = e.log := rfl
@[simp] theorem Die.updMisc_pct (f : Misc → Misc) : (e.updMisc f).pct = e.pct := rfl
@[simp] theorem Die.updMisc_frz (f : Misc → Misc) : (e.updMisc f).frz = e.frz := rfl
@[simp] theorem Die.updMisc_resp (f : Misc → Misc) : (e.updMisc f).resp = e.resp := rfl
@[simp] theorem Die.updMisc_free (f : Misc → Misc) : (e.updMisc f).free = e.free := rfl
@[simp] theorem Die.updMisc_reg (f : Misc → Misc) (r : Nat) : (e.updMisc f).reg r = e.reg r := rfl
@[simp] theorem Die.updMisc_fld (f : Misc → Misc) (g : Fld) : (e.updMisc f).fld g = e.fld g := rfl
@[simp] theorem Die.updMisc_bit (f : Misc → Misc) (g : Fld) : (e.updMisc f).bit g = e.bit g := rfl
@[simp] theorem Die.updMisc_runs (f : Misc → Misc) (dom : Dom) : (e.updMisc f).runs dom = e.runs dom := rfl
@[simp] theorem Die.updMor_id (f : Mortar → Mortar) : (e.updMor f).id = e.id := rfl
@[simp] theorem Die.updMor_regs (f : Mortar → Mortar) : (e.updMor f).regs = e.regs := rfl
@[simp] theorem Die.updMor_shadow (f : Mortar → Mortar) : (e.updMor f).shadow = e.shadow := rfl
@[simp] theorem Die.updMor_posted (f : Mortar → Mortar) : (e.updMor f).posted = e.posted := rfl
@[simp] theorem Die.updMor_clk (f : Mortar → Mortar) : (e.updMor f).clk = e.clk := rfl
@[simp] theorem Die.updMor_eng (f : Mortar → Mortar) : (e.updMor f).eng = e.eng := rfl
@[simp] theorem Die.updMor_yard (f : Mortar → Mortar) : (e.updMor f).yard = e.yard := rfl
@[simp] theorem Die.updMor_mor (f : Mortar → Mortar) : (e.updMor f).mor = f e.mor := rfl
@[simp] theorem Die.updMor_swp (f : Mortar → Mortar) : (e.updMor f).swp = e.swp := rfl
@[simp] theorem Die.updMor_vox (f : Mortar → Mortar) : (e.updMor f).vox = e.vox := rfl
@[simp] theorem Die.updMor_ref (f : Mortar → Mortar) : (e.updMor f).ref = e.ref := rfl
@[simp] theorem Die.updMor_tim (f : Mortar → Mortar) : (e.updMor f).tim = e.tim := rfl
@[simp] theorem Die.updMor_chn (f : Mortar → Mortar) : (e.updMor f).chn = e.chn := rfl
@[simp] theorem Die.updMor_pair (f : Mortar → Mortar) : (e.updMor f).pair = e.pair := rfl
@[simp] theorem Die.updMor_sap (f : Mortar → Mortar) : (e.updMor f).sap = e.sap := rfl
@[simp] theorem Die.updMor_cvd (f : Mortar → Mortar) : (e.updMor f).cvd = e.cvd := rfl
@[simp] theorem Die.updMor_boot (f : Mortar → Mortar) : (e.updMor f).boot = e.boot := rfl
@[simp] theorem Die.updMor_mem (f : Mortar → Mortar) : (e.updMor f).mem = e.mem := rfl
@[simp] theorem Die.updMor_cpus (f : Mortar → Mortar) : (e.updMor f).cpus = e.cpus := rfl
@[simp] theorem Die.updMor_xbar (f : Mortar → Mortar) : (e.updMor f).xbar = e.xbar := rfl
@[simp] theorem Die.updMor_misc (f : Mortar → Mortar) : (e.updMor f).misc = e.misc := rfl
@[simp] theorem Die.updMor_log (f : Mortar → Mortar) : (e.updMor f).log = e.log := rfl
@[simp] theorem Die.updMor_pct (f : Mortar → Mortar) : (e.updMor f).pct = e.pct := rfl
@[simp] theorem Die.updMor_frz (f : Mortar → Mortar) : (e.updMor f).frz = e.frz := rfl
@[simp] theorem Die.updMor_resp (f : Mortar → Mortar) : (e.updMor f).resp = e.resp := rfl
@[simp] theorem Die.updMor_free (f : Mortar → Mortar) : (e.updMor f).free = e.free := rfl
@[simp] theorem Die.updMor_reg (f : Mortar → Mortar) (r : Nat) : (e.updMor f).reg r = e.reg r := rfl
@[simp] theorem Die.updMor_fld (f : Mortar → Mortar) (g : Fld) : (e.updMor f).fld g = e.fld g := rfl
@[simp] theorem Die.updMor_bit (f : Mortar → Mortar) (g : Fld) : (e.updMor f).bit g = e.bit g := rfl
@[simp] theorem Die.updMor_runs (f : Mortar → Mortar) (dom : Dom) : (e.updMor f).runs dom = e.runs dom := rfl
@[simp] theorem Die.setCourse_id (c : Fin 28) (x : Course) : (e.setCourse c x).id = e.id := rfl
@[simp] theorem Die.setCourse_regs (c : Fin 28) (x : Course) : (e.setCourse c x).regs = e.regs := rfl
@[simp] theorem Die.setCourse_shadow (c : Fin 28) (x : Course) : (e.setCourse c x).shadow = e.shadow := rfl
@[simp] theorem Die.setCourse_posted (c : Fin 28) (x : Course) : (e.setCourse c x).posted = e.posted := rfl
@[simp] theorem Die.setCourse_clk (c : Fin 28) (x : Course) : (e.setCourse c x).clk = e.clk := rfl
@[simp] theorem Die.setCourse_yard (c : Fin 28) (x : Course) : (e.setCourse c x).yard = e.yard := rfl
@[simp] theorem Die.setCourse_mor (c : Fin 28) (x : Course) : (e.setCourse c x).mor = e.mor := rfl
@[simp] theorem Die.setCourse_swp (c : Fin 28) (x : Course) : (e.setCourse c x).swp = e.swp := rfl
@[simp] theorem Die.setCourse_vox (c : Fin 28) (x : Course) : (e.setCourse c x).vox = e.vox := rfl
@[simp] theorem Die.setCourse_ref (c : Fin 28) (x : Course) : (e.setCourse c x).ref = e.ref := rfl
@[simp] theorem Die.setCourse_tim (c : Fin 28) (x : Course) : (e.setCourse c x).tim = e.tim := rfl
@[simp] theorem Die.setCourse_chn (c : Fin 28) (x : Course) : (e.setCourse c x).chn = e.chn := rfl
@[simp] theorem Die.setCourse_pair (c : Fin 28) (x : Course) : (e.setCourse c x).pair = e.pair := rfl
@[simp] theorem Die.setCourse_sap (c : Fin 28) (x : Course) : (e.setCourse c x).sap = e.sap := rfl
@[simp] theorem Die.setCourse_cvd (c : Fin 28) (x : Course) : (e.setCourse c x).cvd = e.cvd := rfl
@[simp] theorem Die.setCourse_boot (c : Fin 28) (x : Course) : (e.setCourse c x).boot = e.boot := rfl
@[simp] theorem Die.setCourse_mem (c : Fin 28) (x : Course) : (e.setCourse c x).mem = e.mem := rfl
@[simp] theorem Die.setCourse_cpus (c : Fin 28) (x : Course) : (e.setCourse c x).cpus = e.cpus := rfl
@[simp] theorem Die.setCourse_xbar (c : Fin 28) (x : Course) : (e.setCourse c x).xbar = e.xbar := rfl
@[simp] theorem Die.setCourse_misc (c : Fin 28) (x : Course) : (e.setCourse c x).misc = e.misc := rfl
@[simp] theorem Die.setCourse_log (c : Fin 28) (x : Course) : (e.setCourse c x).log = e.log := rfl
@[simp] theorem Die.setCourse_pct (c : Fin 28) (x : Course) : (e.setCourse c x).pct = e.pct := rfl
@[simp] theorem Die.setCourse_frz (c : Fin 28) (x : Course) : (e.setCourse c x).frz = e.frz := rfl
@[simp] theorem Die.setCourse_resp (c : Fin 28) (x : Course) : (e.setCourse c x).resp = e.resp := rfl
@[simp] theorem Die.setCourse_free (c : Fin 28) (x : Course) : (e.setCourse c x).free = e.free := rfl
@[simp] theorem Die.setCourse_reg (c : Fin 28) (x : Course) (r : Nat) : (e.setCourse c x).reg r = e.reg r := rfl
@[simp] theorem Die.setCourse_fld (c : Fin 28) (x : Course) (g : Fld) : (e.setCourse c x).fld g = e.fld g := rfl
@[simp] theorem Die.setCourse_bit (c : Fin 28) (x : Course) (g : Fld) : (e.setCourse c x).bit g = e.bit g := rfl
@[simp] theorem Die.setCourse_runs (c : Fin 28) (x : Course) (dom : Dom) : (e.setCourse c x).runs dom = e.runs dom := rfl
@[simp] theorem Die.updCourse_id (c : Fin 28) (f : Course → Course) : (e.updCourse c f).id = e.id := rfl
@[simp] theorem Die.updCourse_regs (c : Fin 28) (f : Course → Course) : (e.updCourse c f).regs = e.regs := rfl
@[simp] theorem Die.updCourse_shadow (c : Fin 28) (f : Course → Course) : (e.updCourse c f).shadow = e.shadow := rfl
@[simp] theorem Die.updCourse_posted (c : Fin 28) (f : Course → Course) : (e.updCourse c f).posted = e.posted := rfl
@[simp] theorem Die.updCourse_clk (c : Fin 28) (f : Course → Course) : (e.updCourse c f).clk = e.clk := rfl
@[simp] theorem Die.updCourse_yard (c : Fin 28) (f : Course → Course) : (e.updCourse c f).yard = e.yard := rfl
@[simp] theorem Die.updCourse_mor (c : Fin 28) (f : Course → Course) : (e.updCourse c f).mor = e.mor := rfl
@[simp] theorem Die.updCourse_swp (c : Fin 28) (f : Course → Course) : (e.updCourse c f).swp = e.swp := rfl
@[simp] theorem Die.updCourse_vox (c : Fin 28) (f : Course → Course) : (e.updCourse c f).vox = e.vox := rfl
@[simp] theorem Die.updCourse_ref (c : Fin 28) (f : Course → Course) : (e.updCourse c f).ref = e.ref := rfl
@[simp] theorem Die.updCourse_tim (c : Fin 28) (f : Course → Course) : (e.updCourse c f).tim = e.tim := rfl
@[simp] theorem Die.updCourse_chn (c : Fin 28) (f : Course → Course) : (e.updCourse c f).chn = e.chn := rfl
@[simp] theorem Die.updCourse_pair (c : Fin 28) (f : Course → Course) : (e.updCourse c f).pair = e.pair := rfl
@[simp] theorem Die.updCourse_sap (c : Fin 28) (f : Course → Course) : (e.updCourse c f).sap = e.sap := rfl
@[simp] theorem Die.updCourse_cvd (c : Fin 28) (f : Course → Course) : (e.updCourse c f).cvd = e.cvd := rfl
@[simp] theorem Die.updCourse_boot (c : Fin 28) (f : Course → Course) : (e.updCourse c f).boot = e.boot := rfl
@[simp] theorem Die.updCourse_mem (c : Fin 28) (f : Course → Course) : (e.updCourse c f).mem = e.mem := rfl
@[simp] theorem Die.updCourse_cpus (c : Fin 28) (f : Course → Course) : (e.updCourse c f).cpus = e.cpus := rfl
@[simp] theorem Die.updCourse_xbar (c : Fin 28) (f : Course → Course) : (e.updCourse c f).xbar = e.xbar := rfl
@[simp] theorem Die.updCourse_misc (c : Fin 28) (f : Course → Course) : (e.updCourse c f).misc = e.misc := rfl
@[simp] theorem Die.updCourse_log (c : Fin 28) (f : Course → Course) : (e.updCourse c f).log = e.log := rfl
@[simp] theorem Die.updCourse_pct (c : Fin 28) (f : Course → Course) : (e.updCourse c f).pct = e.pct := rfl
@[simp] theorem Die.updCourse_frz (c : Fin 28) (f : Course → Course) : (e.updCourse c f).frz = e.frz := rfl
@[simp] theorem Die.updCourse_resp (c : Fin 28) (f : Course → Course) : (e.updCourse c f).resp = e.resp := rfl
@[simp] theorem Die.updCourse_free (c : Fin 28) (f : Course → Course) : (e.updCourse c f).free = e.free := rfl
@[simp] theorem Die.updCourse_reg (c : Fin 28) (f : Course → Course) (r : Nat) : (e.updCourse c f).reg r = e.reg r := rfl
@[simp] theorem Die.updCourse_fld (c : Fin 28) (f : Course → Course) (g : Fld) : (e.updCourse c f).fld g = e.fld g := rfl
@[simp] theorem Die.updCourse_bit (c : Fin 28) (f : Course → Course) (g : Fld) : (e.updCourse c f).bit g = e.bit g := rfl
@[simp] theorem Die.updCourse_runs (c : Fin 28) (f : Course → Course) (dom : Dom) : (e.updCourse c f).runs dom = e.runs dom := rfl
@[simp] theorem Die.updMig_id (w : Fin 4) (f : Migration → Migration) : (e.updMig w f).id = e.id := rfl
@[simp] theorem Die.updMig_regs (w : Fin 4) (f : Migration → Migration) : (e.updMig w f).regs = e.regs := rfl
@[simp] theorem Die.updMig_shadow (w : Fin 4) (f : Migration → Migration) : (e.updMig w f).shadow = e.shadow := rfl
@[simp] theorem Die.updMig_posted (w : Fin 4) (f : Migration → Migration) : (e.updMig w f).posted = e.posted := rfl
@[simp] theorem Die.updMig_clk (w : Fin 4) (f : Migration → Migration) : (e.updMig w f).clk = e.clk := rfl
@[simp] theorem Die.updMig_yard (w : Fin 4) (f : Migration → Migration) : (e.updMig w f).yard = e.yard := rfl
@[simp] theorem Die.updMig_mor (w : Fin 4) (f : Migration → Migration) : (e.updMig w f).mor = e.mor := rfl
@[simp] theorem Die.updMig_swp (w : Fin 4) (f : Migration → Migration) : (e.updMig w f).swp = e.swp := rfl
@[simp] theorem Die.updMig_vox (w : Fin 4) (f : Migration → Migration) : (e.updMig w f).vox = e.vox := rfl
@[simp] theorem Die.updMig_ref (w : Fin 4) (f : Migration → Migration) : (e.updMig w f).ref = e.ref := rfl
@[simp] theorem Die.updMig_tim (w : Fin 4) (f : Migration → Migration) : (e.updMig w f).tim = e.tim := rfl
@[simp] theorem Die.updMig_chn (w : Fin 4) (f : Migration → Migration) : (e.updMig w f).chn = e.chn := rfl
@[simp] theorem Die.updMig_pair (w : Fin 4) (f : Migration → Migration) : (e.updMig w f).pair = e.pair := rfl
@[simp] theorem Die.updMig_sap (w : Fin 4) (f : Migration → Migration) : (e.updMig w f).sap = e.sap := rfl
@[simp] theorem Die.updMig_cvd (w : Fin 4) (f : Migration → Migration) : (e.updMig w f).cvd = e.cvd := rfl
@[simp] theorem Die.updMig_boot (w : Fin 4) (f : Migration → Migration) : (e.updMig w f).boot = e.boot := rfl
@[simp] theorem Die.updMig_mem (w : Fin 4) (f : Migration → Migration) : (e.updMig w f).mem = e.mem := rfl
@[simp] theorem Die.updMig_cpus (w : Fin 4) (f : Migration → Migration) : (e.updMig w f).cpus = e.cpus := rfl
@[simp] theorem Die.updMig_xbar (w : Fin 4) (f : Migration → Migration) : (e.updMig w f).xbar = e.xbar := rfl
@[simp] theorem Die.updMig_misc (w : Fin 4) (f : Migration → Migration) : (e.updMig w f).misc = e.misc := rfl
@[simp] theorem Die.updMig_log (w : Fin 4) (f : Migration → Migration) : (e.updMig w f).log = e.log := rfl
@[simp] theorem Die.updMig_pct (w : Fin 4) (f : Migration → Migration) : (e.updMig w f).pct = e.pct := rfl
@[simp] theorem Die.updMig_frz (w : Fin 4) (f : Migration → Migration) : (e.updMig w f).frz = e.frz := rfl
@[simp] theorem Die.updMig_resp (w : Fin 4) (f : Migration → Migration) : (e.updMig w f).resp = e.resp := rfl
@[simp] theorem Die.updMig_free (w : Fin 4) (f : Migration → Migration) : (e.updMig w f).free = e.free := rfl
@[simp] theorem Die.updMig_reg (w : Fin 4) (f : Migration → Migration) (r : Nat) : (e.updMig w f).reg r = e.reg r := rfl
@[simp] theorem Die.updMig_fld (w : Fin 4) (f : Migration → Migration) (g : Fld) : (e.updMig w f).fld g = e.fld g := rfl
@[simp] theorem Die.updMig_bit (w : Fin 4) (f : Migration → Migration) (g : Fld) : (e.updMig w f).bit g = e.bit g := rfl
@[simp] theorem Die.updMig_runs (w : Fin 4) (f : Migration → Migration) (dom : Dom) : (e.updMig w f).runs dom = e.runs dom := rfl
@[simp] theorem Die.updYard_id (f : Yard → Yard) : (e.updYard f).id = e.id := rfl
@[simp] theorem Die.updYard_regs (f : Yard → Yard) : (e.updYard f).regs = e.regs := rfl
@[simp] theorem Die.updYard_shadow (f : Yard → Yard) : (e.updYard f).shadow = e.shadow := rfl
@[simp] theorem Die.updYard_posted (f : Yard → Yard) : (e.updYard f).posted = e.posted := rfl
@[simp] theorem Die.updYard_clk (f : Yard → Yard) : (e.updYard f).clk = e.clk := rfl
@[simp] theorem Die.updYard_eng (f : Yard → Yard) : (e.updYard f).eng = e.eng := rfl
@[simp] theorem Die.updYard_yard (f : Yard → Yard) : (e.updYard f).yard = f e.yard := rfl
@[simp] theorem Die.updYard_mor (f : Yard → Yard) : (e.updYard f).mor = e.mor := rfl
@[simp] theorem Die.updYard_swp (f : Yard → Yard) : (e.updYard f).swp = e.swp := rfl
@[simp] theorem Die.updYard_vox (f : Yard → Yard) : (e.updYard f).vox = e.vox := rfl
@[simp] theorem Die.updYard_ref (f : Yard → Yard) : (e.updYard f).ref = e.ref := rfl
@[simp] theorem Die.updYard_tim (f : Yard → Yard) : (e.updYard f).tim = e.tim := rfl
@[simp] theorem Die.updYard_chn (f : Yard → Yard) : (e.updYard f).chn = e.chn := rfl
@[simp] theorem Die.updYard_pair (f : Yard → Yard) : (e.updYard f).pair = e.pair := rfl
@[simp] theorem Die.updYard_sap (f : Yard → Yard) : (e.updYard f).sap = e.sap := rfl
@[simp] theorem Die.updYard_cvd (f : Yard → Yard) : (e.updYard f).cvd = e.cvd := rfl
@[simp] theorem Die.updYard_boot (f : Yard → Yard) : (e.updYard f).boot = e.boot := rfl
@[simp] theorem Die.updYard_mem (f : Yard → Yard) : (e.updYard f).mem = e.mem := rfl
@[simp] theorem Die.updYard_cpus (f : Yard → Yard) : (e.updYard f).cpus = e.cpus := rfl
@[simp] theorem Die.updYard_xbar (f : Yard → Yard) : (e.updYard f).xbar = e.xbar := rfl
@[simp] theorem Die.updYard_misc (f : Yard → Yard) : (e.updYard f).misc = e.misc := rfl
@[simp] theorem Die.updYard_log (f : Yard → Yard) : (e.updYard f).log = e.log := rfl
@[simp] theorem Die.updYard_pct (f : Yard → Yard) : (e.updYard f).pct = e.pct := rfl
@[simp] theorem Die.updYard_frz (f : Yard → Yard) : (e.updYard f).frz = e.frz := rfl
@[simp] theorem Die.updYard_resp (f : Yard → Yard) : (e.updYard f).resp = e.resp := rfl
@[simp] theorem Die.updYard_free (f : Yard → Yard) : (e.updYard f).free = e.free := rfl
@[simp] theorem Die.updYard_reg (f : Yard → Yard) (r : Nat) : (e.updYard f).reg r = e.reg r := rfl
@[simp] theorem Die.updYard_fld (f : Yard → Yard) (g : Fld) : (e.updYard f).fld g = e.fld g := rfl
@[simp] theorem Die.updYard_bit (f : Yard → Yard) (g : Fld) : (e.updYard f).bit g = e.bit g := rfl
@[simp] theorem Die.updYard_runs (f : Yard → Yard) (dom : Dom) : (e.updYard f).runs dom = e.runs dom := rfl
@[simp] theorem Die.updTest_id (b : Fin 4) (f : TestEngine → TestEngine) : (e.updTest b f).id = e.id := rfl
@[simp] theorem Die.updTest_regs (b : Fin 4) (f : TestEngine → TestEngine) : (e.updTest b f).regs = e.regs := rfl
@[simp] theorem Die.updTest_shadow (b : Fin 4) (f : TestEngine → TestEngine) : (e.updTest b f).shadow = e.shadow := rfl
@[simp] theorem Die.updTest_posted (b : Fin 4) (f : TestEngine → TestEngine) : (e.updTest b f).posted = e.posted := rfl
@[simp] theorem Die.updTest_clk (b : Fin 4) (f : TestEngine → TestEngine) : (e.updTest b f).clk = e.clk := rfl
@[simp] theorem Die.updTest_eng (b : Fin 4) (f : TestEngine → TestEngine) : (e.updTest b f).eng = e.eng := rfl
@[simp] theorem Die.updTest_mor (b : Fin 4) (f : TestEngine → TestEngine) : (e.updTest b f).mor = e.mor := rfl
@[simp] theorem Die.updTest_swp (b : Fin 4) (f : TestEngine → TestEngine) : (e.updTest b f).swp = e.swp := rfl
@[simp] theorem Die.updTest_vox (b : Fin 4) (f : TestEngine → TestEngine) : (e.updTest b f).vox = e.vox := rfl
@[simp] theorem Die.updTest_ref (b : Fin 4) (f : TestEngine → TestEngine) : (e.updTest b f).ref = e.ref := rfl
@[simp] theorem Die.updTest_tim (b : Fin 4) (f : TestEngine → TestEngine) : (e.updTest b f).tim = e.tim := rfl
@[simp] theorem Die.updTest_chn (b : Fin 4) (f : TestEngine → TestEngine) : (e.updTest b f).chn = e.chn := rfl
@[simp] theorem Die.updTest_pair (b : Fin 4) (f : TestEngine → TestEngine) : (e.updTest b f).pair = e.pair := rfl
@[simp] theorem Die.updTest_sap (b : Fin 4) (f : TestEngine → TestEngine) : (e.updTest b f).sap = e.sap := rfl
@[simp] theorem Die.updTest_cvd (b : Fin 4) (f : TestEngine → TestEngine) : (e.updTest b f).cvd = e.cvd := rfl
@[simp] theorem Die.updTest_boot (b : Fin 4) (f : TestEngine → TestEngine) : (e.updTest b f).boot = e.boot := rfl
@[simp] theorem Die.updTest_mem (b : Fin 4) (f : TestEngine → TestEngine) : (e.updTest b f).mem = e.mem := rfl
@[simp] theorem Die.updTest_cpus (b : Fin 4) (f : TestEngine → TestEngine) : (e.updTest b f).cpus = e.cpus := rfl
@[simp] theorem Die.updTest_xbar (b : Fin 4) (f : TestEngine → TestEngine) : (e.updTest b f).xbar = e.xbar := rfl
@[simp] theorem Die.updTest_misc (b : Fin 4) (f : TestEngine → TestEngine) : (e.updTest b f).misc = e.misc := rfl
@[simp] theorem Die.updTest_log (b : Fin 4) (f : TestEngine → TestEngine) : (e.updTest b f).log = e.log := rfl
@[simp] theorem Die.updTest_pct (b : Fin 4) (f : TestEngine → TestEngine) : (e.updTest b f).pct = e.pct := rfl
@[simp] theorem Die.updTest_frz (b : Fin 4) (f : TestEngine → TestEngine) : (e.updTest b f).frz = e.frz := rfl
@[simp] theorem Die.updTest_resp (b : Fin 4) (f : TestEngine → TestEngine) : (e.updTest b f).resp = e.resp := rfl
@[simp] theorem Die.updTest_free (b : Fin 4) (f : TestEngine → TestEngine) : (e.updTest b f).free = e.free := rfl
@[simp] theorem Die.updTest_reg (b : Fin 4) (f : TestEngine → TestEngine) (r : Nat) : (e.updTest b f).reg r = e.reg r := rfl
@[simp] theorem Die.updTest_fld (b : Fin 4) (f : TestEngine → TestEngine) (g : Fld) : (e.updTest b f).fld g = e.fld g := rfl
@[simp] theorem Die.updTest_bit (b : Fin 4) (f : TestEngine → TestEngine) (g : Fld) : (e.updTest b f).bit g = e.bit g := rfl
@[simp] theorem Die.updTest_runs (b : Fin 4) (f : TestEngine → TestEngine) (dom : Dom) : (e.updTest b f).runs dom = e.runs dom := rfl
@[simp] theorem Die.updRemap_id (b : Fin 4) (f : Remap → Remap) : (e.updRemap b f).id = e.id := rfl
@[simp] theorem Die.updRemap_regs (b : Fin 4) (f : Remap → Remap) : (e.updRemap b f).regs = e.regs := rfl
@[simp] theorem Die.updRemap_shadow (b : Fin 4) (f : Remap → Remap) : (e.updRemap b f).shadow = e.shadow := rfl
@[simp] theorem Die.updRemap_posted (b : Fin 4) (f : Remap → Remap) : (e.updRemap b f).posted = e.posted := rfl
@[simp] theorem Die.updRemap_clk (b : Fin 4) (f : Remap → Remap) : (e.updRemap b f).clk = e.clk := rfl
@[simp] theorem Die.updRemap_eng (b : Fin 4) (f : Remap → Remap) : (e.updRemap b f).eng = e.eng := rfl
@[simp] theorem Die.updRemap_mor (b : Fin 4) (f : Remap → Remap) : (e.updRemap b f).mor = e.mor := rfl
@[simp] theorem Die.updRemap_swp (b : Fin 4) (f : Remap → Remap) : (e.updRemap b f).swp = e.swp := rfl
@[simp] theorem Die.updRemap_vox (b : Fin 4) (f : Remap → Remap) : (e.updRemap b f).vox = e.vox := rfl
@[simp] theorem Die.updRemap_ref (b : Fin 4) (f : Remap → Remap) : (e.updRemap b f).ref = e.ref := rfl
@[simp] theorem Die.updRemap_tim (b : Fin 4) (f : Remap → Remap) : (e.updRemap b f).tim = e.tim := rfl
@[simp] theorem Die.updRemap_chn (b : Fin 4) (f : Remap → Remap) : (e.updRemap b f).chn = e.chn := rfl
@[simp] theorem Die.updRemap_pair (b : Fin 4) (f : Remap → Remap) : (e.updRemap b f).pair = e.pair := rfl
@[simp] theorem Die.updRemap_sap (b : Fin 4) (f : Remap → Remap) : (e.updRemap b f).sap = e.sap := rfl
@[simp] theorem Die.updRemap_cvd (b : Fin 4) (f : Remap → Remap) : (e.updRemap b f).cvd = e.cvd := rfl
@[simp] theorem Die.updRemap_boot (b : Fin 4) (f : Remap → Remap) : (e.updRemap b f).boot = e.boot := rfl
@[simp] theorem Die.updRemap_mem (b : Fin 4) (f : Remap → Remap) : (e.updRemap b f).mem = e.mem := rfl
@[simp] theorem Die.updRemap_cpus (b : Fin 4) (f : Remap → Remap) : (e.updRemap b f).cpus = e.cpus := rfl
@[simp] theorem Die.updRemap_xbar (b : Fin 4) (f : Remap → Remap) : (e.updRemap b f).xbar = e.xbar := rfl
@[simp] theorem Die.updRemap_misc (b : Fin 4) (f : Remap → Remap) : (e.updRemap b f).misc = e.misc := rfl
@[simp] theorem Die.updRemap_log (b : Fin 4) (f : Remap → Remap) : (e.updRemap b f).log = e.log := rfl
@[simp] theorem Die.updRemap_pct (b : Fin 4) (f : Remap → Remap) : (e.updRemap b f).pct = e.pct := rfl
@[simp] theorem Die.updRemap_frz (b : Fin 4) (f : Remap → Remap) : (e.updRemap b f).frz = e.frz := rfl
@[simp] theorem Die.updRemap_resp (b : Fin 4) (f : Remap → Remap) : (e.updRemap b f).resp = e.resp := rfl
@[simp] theorem Die.updRemap_free (b : Fin 4) (f : Remap → Remap) : (e.updRemap b f).free = e.free := rfl
@[simp] theorem Die.updRemap_reg (b : Fin 4) (f : Remap → Remap) (r : Nat) : (e.updRemap b f).reg r = e.reg r := rfl
@[simp] theorem Die.updRemap_fld (b : Fin 4) (f : Remap → Remap) (g : Fld) : (e.updRemap b f).fld g = e.fld g := rfl
@[simp] theorem Die.updRemap_bit (b : Fin 4) (f : Remap → Remap) (g : Fld) : (e.updRemap b f).bit g = e.bit g := rfl
@[simp] theorem Die.updRemap_runs (b : Fin 4) (f : Remap → Remap) (dom : Dom) : (e.updRemap b f).runs dom = e.runs dom := rfl
@[simp] theorem Die.updPair_id (f : Pair → Pair) : (e.updPair f).id = e.id := rfl
@[simp] theorem Die.updPair_regs (f : Pair → Pair) : (e.updPair f).regs = e.regs := rfl
@[simp] theorem Die.updPair_shadow (f : Pair → Pair) : (e.updPair f).shadow = e.shadow := rfl
@[simp] theorem Die.updPair_posted (f : Pair → Pair) : (e.updPair f).posted = e.posted := rfl
@[simp] theorem Die.updPair_clk (f : Pair → Pair) : (e.updPair f).clk = e.clk := rfl
@[simp] theorem Die.updPair_eng (f : Pair → Pair) : (e.updPair f).eng = e.eng := rfl
@[simp] theorem Die.updPair_yard (f : Pair → Pair) : (e.updPair f).yard = e.yard := rfl
@[simp] theorem Die.updPair_mor (f : Pair → Pair) : (e.updPair f).mor = e.mor := rfl
@[simp] theorem Die.updPair_swp (f : Pair → Pair) : (e.updPair f).swp = e.swp := rfl
@[simp] theorem Die.updPair_vox (f : Pair → Pair) : (e.updPair f).vox = e.vox := rfl
@[simp] theorem Die.updPair_ref (f : Pair → Pair) : (e.updPair f).ref = e.ref := rfl
@[simp] theorem Die.updPair_tim (f : Pair → Pair) : (e.updPair f).tim = e.tim := rfl
@[simp] theorem Die.updPair_chn (f : Pair → Pair) : (e.updPair f).chn = e.chn := rfl
@[simp] theorem Die.updPair_pair (f : Pair → Pair) : (e.updPair f).pair = f e.pair := rfl
@[simp] theorem Die.updPair_sap (f : Pair → Pair) : (e.updPair f).sap = e.sap := rfl
@[simp] theorem Die.updPair_cvd (f : Pair → Pair) : (e.updPair f).cvd = e.cvd := rfl
@[simp] theorem Die.updPair_boot (f : Pair → Pair) : (e.updPair f).boot = e.boot := rfl
@[simp] theorem Die.updPair_mem (f : Pair → Pair) : (e.updPair f).mem = e.mem := rfl
@[simp] theorem Die.updPair_cpus (f : Pair → Pair) : (e.updPair f).cpus = e.cpus := rfl
@[simp] theorem Die.updPair_xbar (f : Pair → Pair) : (e.updPair f).xbar = e.xbar := rfl
@[simp] theorem Die.updPair_misc (f : Pair → Pair) : (e.updPair f).misc = e.misc := rfl
@[simp] theorem Die.updPair_log (f : Pair → Pair) : (e.updPair f).log = e.log := rfl
@[simp] theorem Die.updPair_pct (f : Pair → Pair) : (e.updPair f).pct = e.pct := rfl
@[simp] theorem Die.updPair_frz (f : Pair → Pair) : (e.updPair f).frz = e.frz := rfl
@[simp] theorem Die.updPair_resp (f : Pair → Pair) : (e.updPair f).resp = e.resp := rfl
@[simp] theorem Die.updPair_free (f : Pair → Pair) : (e.updPair f).free = e.free := rfl
@[simp] theorem Die.updPair_reg (f : Pair → Pair) (r : Nat) : (e.updPair f).reg r = e.reg r := rfl
@[simp] theorem Die.updPair_fld (f : Pair → Pair) (g : Fld) : (e.updPair f).fld g = e.fld g := rfl
@[simp] theorem Die.updPair_bit (f : Pair → Pair) (g : Fld) : (e.updPair f).bit g = e.bit g := rfl
@[simp] theorem Die.updPair_runs (f : Pair → Pair) (dom : Dom) : (e.updPair f).runs dom = e.runs dom := rfl
@[simp] theorem Die.updRef_id (f : Ref → Ref) : (e.updRef f).id = e.id := rfl
@[simp] theorem Die.updRef_regs (f : Ref → Ref) : (e.updRef f).regs = e.regs := rfl
@[simp] theorem Die.updRef_shadow (f : Ref → Ref) : (e.updRef f).shadow = e.shadow := rfl
@[simp] theorem Die.updRef_posted (f : Ref → Ref) : (e.updRef f).posted = e.posted := rfl
@[simp] theorem Die.updRef_clk (f : Ref → Ref) : (e.updRef f).clk = e.clk := rfl
@[simp] theorem Die.updRef_eng (f : Ref → Ref) : (e.updRef f).eng = e.eng := rfl
@[simp] theorem Die.updRef_yard (f : Ref → Ref) : (e.updRef f).yard = e.yard := rfl
@[simp] theorem Die.updRef_mor (f : Ref → Ref) : (e.updRef f).mor = e.mor := rfl
@[simp] theorem Die.updRef_swp (f : Ref → Ref) : (e.updRef f).swp = e.swp := rfl
@[simp] theorem Die.updRef_vox (f : Ref → Ref) : (e.updRef f).vox = e.vox := rfl
@[simp] theorem Die.updRef_ref (f : Ref → Ref) : (e.updRef f).ref = f e.ref := rfl
@[simp] theorem Die.updRef_tim (f : Ref → Ref) : (e.updRef f).tim = e.tim := rfl
@[simp] theorem Die.updRef_chn (f : Ref → Ref) : (e.updRef f).chn = e.chn := rfl
@[simp] theorem Die.updRef_pair (f : Ref → Ref) : (e.updRef f).pair = e.pair := rfl
@[simp] theorem Die.updRef_sap (f : Ref → Ref) : (e.updRef f).sap = e.sap := rfl
@[simp] theorem Die.updRef_cvd (f : Ref → Ref) : (e.updRef f).cvd = e.cvd := rfl
@[simp] theorem Die.updRef_boot (f : Ref → Ref) : (e.updRef f).boot = e.boot := rfl
@[simp] theorem Die.updRef_mem (f : Ref → Ref) : (e.updRef f).mem = e.mem := rfl
@[simp] theorem Die.updRef_cpus (f : Ref → Ref) : (e.updRef f).cpus = e.cpus := rfl
@[simp] theorem Die.updRef_xbar (f : Ref → Ref) : (e.updRef f).xbar = e.xbar := rfl
@[simp] theorem Die.updRef_misc (f : Ref → Ref) : (e.updRef f).misc = e.misc := rfl
@[simp] theorem Die.updRef_log (f : Ref → Ref) : (e.updRef f).log = e.log := rfl
@[simp] theorem Die.updRef_pct (f : Ref → Ref) : (e.updRef f).pct = e.pct := rfl
@[simp] theorem Die.updRef_frz (f : Ref → Ref) : (e.updRef f).frz = e.frz := rfl
@[simp] theorem Die.updRef_resp (f : Ref → Ref) : (e.updRef f).resp = e.resp := rfl
@[simp] theorem Die.updRef_free (f : Ref → Ref) : (e.updRef f).free = e.free := rfl
@[simp] theorem Die.updRef_reg (f : Ref → Ref) (r : Nat) : (e.updRef f).reg r = e.reg r := rfl
@[simp] theorem Die.updRef_fld (f : Ref → Ref) (g : Fld) : (e.updRef f).fld g = e.fld g := rfl
@[simp] theorem Die.updRef_bit (f : Ref → Ref) (g : Fld) : (e.updRef f).bit g = e.bit g := rfl
@[simp] theorem Die.updRef_runs (f : Ref → Ref) (dom : Dom) : (e.updRef f).runs dom = e.runs dom := rfl
@[simp] theorem Die.updSap_id (p : Fin 8) (f : SapPort → SapPort) : (e.updSap p f).id = e.id := rfl
@[simp] theorem Die.updSap_regs (p : Fin 8) (f : SapPort → SapPort) : (e.updSap p f).regs = e.regs := rfl
@[simp] theorem Die.updSap_shadow (p : Fin 8) (f : SapPort → SapPort) : (e.updSap p f).shadow = e.shadow := rfl
@[simp] theorem Die.updSap_posted (p : Fin 8) (f : SapPort → SapPort) : (e.updSap p f).posted = e.posted := rfl
@[simp] theorem Die.updSap_clk (p : Fin 8) (f : SapPort → SapPort) : (e.updSap p f).clk = e.clk := rfl
@[simp] theorem Die.updSap_eng (p : Fin 8) (f : SapPort → SapPort) : (e.updSap p f).eng = e.eng := rfl
@[simp] theorem Die.updSap_yard (p : Fin 8) (f : SapPort → SapPort) : (e.updSap p f).yard = e.yard := rfl
@[simp] theorem Die.updSap_mor (p : Fin 8) (f : SapPort → SapPort) : (e.updSap p f).mor = e.mor := rfl
@[simp] theorem Die.updSap_swp (p : Fin 8) (f : SapPort → SapPort) : (e.updSap p f).swp = e.swp := rfl
@[simp] theorem Die.updSap_vox (p : Fin 8) (f : SapPort → SapPort) : (e.updSap p f).vox = e.vox := rfl
@[simp] theorem Die.updSap_ref (p : Fin 8) (f : SapPort → SapPort) : (e.updSap p f).ref = e.ref := rfl
@[simp] theorem Die.updSap_tim (p : Fin 8) (f : SapPort → SapPort) : (e.updSap p f).tim = e.tim := rfl
@[simp] theorem Die.updSap_chn (p : Fin 8) (f : SapPort → SapPort) : (e.updSap p f).chn = e.chn := rfl
@[simp] theorem Die.updSap_pair (p : Fin 8) (f : SapPort → SapPort) : (e.updSap p f).pair = e.pair := rfl
@[simp] theorem Die.updSap_cvd (p : Fin 8) (f : SapPort → SapPort) : (e.updSap p f).cvd = e.cvd := rfl
@[simp] theorem Die.updSap_boot (p : Fin 8) (f : SapPort → SapPort) : (e.updSap p f).boot = e.boot := rfl
@[simp] theorem Die.updSap_mem (p : Fin 8) (f : SapPort → SapPort) : (e.updSap p f).mem = e.mem := rfl
@[simp] theorem Die.updSap_cpus (p : Fin 8) (f : SapPort → SapPort) : (e.updSap p f).cpus = e.cpus := rfl
@[simp] theorem Die.updSap_xbar (p : Fin 8) (f : SapPort → SapPort) : (e.updSap p f).xbar = e.xbar := rfl
@[simp] theorem Die.updSap_misc (p : Fin 8) (f : SapPort → SapPort) : (e.updSap p f).misc = e.misc := rfl
@[simp] theorem Die.updSap_log (p : Fin 8) (f : SapPort → SapPort) : (e.updSap p f).log = e.log := rfl
@[simp] theorem Die.updSap_pct (p : Fin 8) (f : SapPort → SapPort) : (e.updSap p f).pct = e.pct := rfl
@[simp] theorem Die.updSap_frz (p : Fin 8) (f : SapPort → SapPort) : (e.updSap p f).frz = e.frz := rfl
@[simp] theorem Die.updSap_resp (p : Fin 8) (f : SapPort → SapPort) : (e.updSap p f).resp = e.resp := rfl
@[simp] theorem Die.updSap_free (p : Fin 8) (f : SapPort → SapPort) : (e.updSap p f).free = e.free := rfl
@[simp] theorem Die.updSap_reg (p : Fin 8) (f : SapPort → SapPort) (r : Nat) : (e.updSap p f).reg r = e.reg r := rfl
@[simp] theorem Die.updSap_fld (p : Fin 8) (f : SapPort → SapPort) (g : Fld) : (e.updSap p f).fld g = e.fld g := rfl
@[simp] theorem Die.updSap_bit (p : Fin 8) (f : SapPort → SapPort) (g : Fld) : (e.updSap p f).bit g = e.bit g := rfl
@[simp] theorem Die.updSap_runs (p : Fin 8) (f : SapPort → SapPort) (dom : Dom) : (e.updSap p f).runs dom = e.runs dom := rfl
@[simp] theorem Die.updTim_id (f : Tim → Tim) : (e.updTim f).id = e.id := rfl
@[simp] theorem Die.updTim_regs (f : Tim → Tim) : (e.updTim f).regs = e.regs := rfl
@[simp] theorem Die.updTim_shadow (f : Tim → Tim) : (e.updTim f).shadow = e.shadow := rfl
@[simp] theorem Die.updTim_posted (f : Tim → Tim) : (e.updTim f).posted = e.posted := rfl
@[simp] theorem Die.updTim_clk (f : Tim → Tim) : (e.updTim f).clk = e.clk := rfl
@[simp] theorem Die.updTim_eng (f : Tim → Tim) : (e.updTim f).eng = e.eng := rfl
@[simp] theorem Die.updTim_yard (f : Tim → Tim) : (e.updTim f).yard = e.yard := rfl
@[simp] theorem Die.updTim_mor (f : Tim → Tim) : (e.updTim f).mor = e.mor := rfl
@[simp] theorem Die.updTim_swp (f : Tim → Tim) : (e.updTim f).swp = e.swp := rfl
@[simp] theorem Die.updTim_vox (f : Tim → Tim) : (e.updTim f).vox = e.vox := rfl
@[simp] theorem Die.updTim_ref (f : Tim → Tim) : (e.updTim f).ref = e.ref := rfl
@[simp] theorem Die.updTim_tim (f : Tim → Tim) : (e.updTim f).tim = f e.tim := rfl
@[simp] theorem Die.updTim_chn (f : Tim → Tim) : (e.updTim f).chn = e.chn := rfl
@[simp] theorem Die.updTim_pair (f : Tim → Tim) : (e.updTim f).pair = e.pair := rfl
@[simp] theorem Die.updTim_sap (f : Tim → Tim) : (e.updTim f).sap = e.sap := rfl
@[simp] theorem Die.updTim_cvd (f : Tim → Tim) : (e.updTim f).cvd = e.cvd := rfl
@[simp] theorem Die.updTim_boot (f : Tim → Tim) : (e.updTim f).boot = e.boot := rfl
@[simp] theorem Die.updTim_mem (f : Tim → Tim) : (e.updTim f).mem = e.mem := rfl
@[simp] theorem Die.updTim_cpus (f : Tim → Tim) : (e.updTim f).cpus = e.cpus := rfl
@[simp] theorem Die.updTim_xbar (f : Tim → Tim) : (e.updTim f).xbar = e.xbar := rfl
@[simp] theorem Die.updTim_misc (f : Tim → Tim) : (e.updTim f).misc = e.misc := rfl
@[simp] theorem Die.updTim_log (f : Tim → Tim) : (e.updTim f).log = e.log := rfl
@[simp] theorem Die.updTim_pct (f : Tim → Tim) : (e.updTim f).pct = e.pct := rfl
@[simp] theorem Die.updTim_frz (f : Tim → Tim) : (e.updTim f).frz = e.frz := rfl
@[simp] theorem Die.updTim_resp (f : Tim → Tim) : (e.updTim f).resp = e.resp := rfl
@[simp] theorem Die.updTim_free (f : Tim → Tim) : (e.updTim f).free = e.free := rfl
@[simp] theorem Die.updTim_reg (f : Tim → Tim) (r : Nat) : (e.updTim f).reg r = e.reg r := rfl
@[simp] theorem Die.updTim_fld (f : Tim → Tim) (g : Fld) : (e.updTim f).fld g = e.fld g := rfl
@[simp] theorem Die.updTim_bit (f : Tim → Tim) (g : Fld) : (e.updTim f).bit g = e.bit g := rfl
@[simp] theorem Die.updTim_runs (f : Tim → Tim) (dom : Dom) : (e.updTim f).runs dom = e.runs dom := rfl
@[simp] theorem Die.updVox_id (f : Vox → Vox) : (e.updVox f).id = e.id := rfl
@[simp] theorem Die.updVox_regs (f : Vox → Vox) : (e.updVox f).regs = e.regs := rfl
@[simp] theorem Die.updVox_shadow (f : Vox → Vox) : (e.updVox f).shadow = e.shadow := rfl
@[simp] theorem Die.updVox_posted (f : Vox → Vox) : (e.updVox f).posted = e.posted := rfl
@[simp] theorem Die.updVox_clk (f : Vox → Vox) : (e.updVox f).clk = e.clk := rfl
@[simp] theorem Die.updVox_eng (f : Vox → Vox) : (e.updVox f).eng = e.eng := rfl
@[simp] theorem Die.updVox_yard (f : Vox → Vox) : (e.updVox f).yard = e.yard := rfl
@[simp] theorem Die.updVox_mor (f : Vox → Vox) : (e.updVox f).mor = e.mor := rfl
@[simp] theorem Die.updVox_swp (f : Vox → Vox) : (e.updVox f).swp = e.swp := rfl
@[simp] theorem Die.updVox_vox (f : Vox → Vox) : (e.updVox f).vox = f e.vox := rfl
@[simp] theorem Die.updVox_ref (f : Vox → Vox) : (e.updVox f).ref = e.ref := rfl
@[simp] theorem Die.updVox_tim (f : Vox → Vox) : (e.updVox f).tim = e.tim := rfl
@[simp] theorem Die.updVox_chn (f : Vox → Vox) : (e.updVox f).chn = e.chn := rfl
@[simp] theorem Die.updVox_pair (f : Vox → Vox) : (e.updVox f).pair = e.pair := rfl
@[simp] theorem Die.updVox_sap (f : Vox → Vox) : (e.updVox f).sap = e.sap := rfl
@[simp] theorem Die.updVox_cvd (f : Vox → Vox) : (e.updVox f).cvd = e.cvd := rfl
@[simp] theorem Die.updVox_boot (f : Vox → Vox) : (e.updVox f).boot = e.boot := rfl
@[simp] theorem Die.updVox_mem (f : Vox → Vox) : (e.updVox f).mem = e.mem := rfl
@[simp] theorem Die.updVox_cpus (f : Vox → Vox) : (e.updVox f).cpus = e.cpus := rfl
@[simp] theorem Die.updVox_xbar (f : Vox → Vox) : (e.updVox f).xbar = e.xbar := rfl
@[simp] theorem Die.updVox_misc (f : Vox → Vox) : (e.updVox f).misc = e.misc := rfl
@[simp] theorem Die.updVox_log (f : Vox → Vox) : (e.updVox f).log = e.log := rfl
@[simp] theorem Die.updVox_pct (f : Vox → Vox) : (e.updVox f).pct = e.pct := rfl
@[simp] theorem Die.updVox_frz (f : Vox → Vox) : (e.updVox f).frz = e.frz := rfl
@[simp] theorem Die.updVox_resp (f : Vox → Vox) : (e.updVox f).resp = e.resp := rfl
@[simp] theorem Die.updVox_free (f : Vox → Vox) : (e.updVox f).free = e.free := rfl
@[simp] theorem Die.updVox_reg (f : Vox → Vox) (r : Nat) : (e.updVox f).reg r = e.reg r := rfl
@[simp] theorem Die.updVox_fld (f : Vox → Vox) (g : Fld) : (e.updVox f).fld g = e.fld g := rfl
@[simp] theorem Die.updVox_bit (f : Vox → Vox) (g : Fld) : (e.updVox f).bit g = e.bit g := rfl
@[simp] theorem Die.updVox_runs (f : Vox → Vox) (dom : Dom) : (e.updVox f).runs dom = e.runs dom := rfl
@[simp] theorem Die.updXbar_id (f : Xbar → Xbar) : (e.updXbar f).id = e.id := rfl
@[simp] theorem Die.updXbar_regs (f : Xbar → Xbar) : (e.updXbar f).regs = e.regs := rfl
@[simp] theorem Die.updXbar_shadow (f : Xbar → Xbar) : (e.updXbar f).shadow = e.shadow := rfl
@[simp] theorem Die.updXbar_posted (f : Xbar → Xbar) : (e.updXbar f).posted = e.posted := rfl
@[simp] theorem Die.updXbar_clk (f : Xbar → Xbar) : (e.updXbar f).clk = e.clk := rfl
@[simp] theorem Die.updXbar_eng (f : Xbar → Xbar) : (e.updXbar f).eng = e.eng := rfl
@[simp] theorem Die.updXbar_yard (f : Xbar → Xbar) : (e.updXbar f).yard = e.yard := rfl
@[simp] theorem Die.updXbar_mor (f : Xbar → Xbar) : (e.updXbar f).mor = e.mor := rfl
@[simp] theorem Die.updXbar_swp (f : Xbar → Xbar) : (e.updXbar f).swp = e.swp := rfl
@[simp] theorem Die.updXbar_vox (f : Xbar → Xbar) : (e.updXbar f).vox = e.vox := rfl
@[simp] theorem Die.updXbar_ref (f : Xbar → Xbar) : (e.updXbar f).ref = e.ref := rfl
@[simp] theorem Die.updXbar_tim (f : Xbar → Xbar) : (e.updXbar f).tim = e.tim := rfl
@[simp] theorem Die.updXbar_chn (f : Xbar → Xbar) : (e.updXbar f).chn = e.chn := rfl
@[simp] theorem Die.updXbar_pair (f : Xbar → Xbar) : (e.updXbar f).pair = e.pair := rfl
@[simp] theorem Die.updXbar_sap (f : Xbar → Xbar) : (e.updXbar f).sap = e.sap := rfl
@[simp] theorem Die.updXbar_cvd (f : Xbar → Xbar) : (e.updXbar f).cvd = e.cvd := rfl
@[simp] theorem Die.updXbar_boot (f : Xbar → Xbar) : (e.updXbar f).boot = e.boot := rfl
@[simp] theorem Die.updXbar_mem (f : Xbar → Xbar) : (e.updXbar f).mem = e.mem := rfl
@[simp] theorem Die.updXbar_cpus (f : Xbar → Xbar) : (e.updXbar f).cpus = e.cpus := rfl
@[simp] theorem Die.updXbar_xbar (f : Xbar → Xbar) : (e.updXbar f).xbar = f e.xbar := rfl
@[simp] theorem Die.updXbar_misc (f : Xbar → Xbar) : (e.updXbar f).misc = e.misc := rfl
@[simp] theorem Die.updXbar_log (f : Xbar → Xbar) : (e.updXbar f).log = e.log := rfl
@[simp] theorem Die.updXbar_pct (f : Xbar → Xbar) : (e.updXbar f).pct = e.pct := rfl
@[simp] theorem Die.updXbar_frz (f : Xbar → Xbar) : (e.updXbar f).frz = e.frz := rfl
@[simp] theorem Die.updXbar_resp (f : Xbar → Xbar) : (e.updXbar f).resp = e.resp := rfl
@[simp] theorem Die.updXbar_free (f : Xbar → Xbar) : (e.updXbar f).free = e.free := rfl
@[simp] theorem Die.updXbar_reg (f : Xbar → Xbar) (r : Nat) : (e.updXbar f).reg r = e.reg r := rfl
@[simp] theorem Die.updXbar_fld (f : Xbar → Xbar) (g : Fld) : (e.updXbar f).fld g = e.fld g := rfl
@[simp] theorem Die.updXbar_bit (f : Xbar → Xbar) (g : Fld) : (e.updXbar f).bit g = e.bit g := rfl
@[simp] theorem Die.updXbar_runs (f : Xbar → Xbar) (dom : Dom) : (e.updXbar f).runs dom = e.runs dom := rfl
@[simp] theorem Die.drawn_id : (e.drawn).id = e.id := rfl
@[simp] theorem Die.drawn_regs : (e.drawn).regs = e.regs := rfl
@[simp] theorem Die.drawn_shadow : (e.drawn).shadow = e.shadow := rfl
@[simp] theorem Die.drawn_posted : (e.drawn).posted = e.posted := rfl
@[simp] theorem Die.drawn_clk : (e.drawn).clk = e.clk := rfl
@[simp] theorem Die.drawn_eng : (e.drawn).eng = e.eng := rfl
@[simp] theorem Die.drawn_yard : (e.drawn).yard = e.yard := rfl
@[simp] theorem Die.drawn_mor : (e.drawn).mor = e.mor := rfl
@[simp] theorem Die.drawn_swp : (e.drawn).swp = e.swp := rfl
@[simp] theorem Die.drawn_vox : (e.drawn).vox = e.vox := rfl
@[simp] theorem Die.drawn_ref : (e.drawn).ref = e.ref := rfl
@[simp] theorem Die.drawn_tim : (e.drawn).tim = e.tim := rfl
@[simp] theorem Die.drawn_chn : (e.drawn).chn = e.chn := rfl
@[simp] theorem Die.drawn_pair : (e.drawn).pair = e.pair := rfl
@[simp] theorem Die.drawn_sap : (e.drawn).sap = e.sap := rfl
@[simp] theorem Die.drawn_cvd : (e.drawn).cvd = e.cvd := rfl
@[simp] theorem Die.drawn_boot : (e.drawn).boot = e.boot := rfl
@[simp] theorem Die.drawn_mem : (e.drawn).mem = e.mem := rfl
@[simp] theorem Die.drawn_cpus : (e.drawn).cpus = e.cpus := rfl
@[simp] theorem Die.drawn_xbar : (e.drawn).xbar = e.xbar := rfl
@[simp] theorem Die.drawn_misc : (e.drawn).misc = e.misc := rfl
@[simp] theorem Die.drawn_log : (e.drawn).log = e.log := rfl
@[simp] theorem Die.drawn_pct : (e.drawn).pct = e.pct := rfl
@[simp] theorem Die.drawn_frz : (e.drawn).frz = e.frz := rfl
@[simp] theorem Die.drawn_resp : (e.drawn).resp = e.resp := rfl
@[simp] theorem Die.drawn_free : (e.drawn).free = e.free + 1 := rfl
@[simp] theorem Die.drawn_reg (r : Nat) : (e.drawn).reg r = e.reg r := rfl
@[simp] theorem Die.drawn_fld (g : Fld) : (e.drawn).fld g = e.fld g := rfl
@[simp] theorem Die.drawn_bit (g : Fld) : (e.drawn).bit g = e.bit g := rfl
@[simp] theorem Die.drawn_runs (dom : Dom) : (e.drawn).runs dom = e.runs dom := rfl
@[simp] theorem Die.served_id (m : BitVec 3) : (e.served m).id = e.id := rfl
@[simp] theorem Die.served_regs (m : BitVec 3) : (e.served m).regs = e.regs := rfl
@[simp] theorem Die.served_shadow (m : BitVec 3) : (e.served m).shadow = e.shadow := rfl
@[simp] theorem Die.served_posted (m : BitVec 3) : (e.served m).posted = e.posted := rfl
@[simp] theorem Die.served_clk (m : BitVec 3) : (e.served m).clk = e.clk := rfl
@[simp] theorem Die.served_eng (m : BitVec 3) : (e.served m).eng = e.eng := rfl
@[simp] theorem Die.served_yard (m : BitVec 3) : (e.served m).yard = e.yard := rfl
@[simp] theorem Die.served_mor (m : BitVec 3) : (e.served m).mor = e.mor := rfl
@[simp] theorem Die.served_swp (m : BitVec 3) : (e.served m).swp = e.swp := rfl
@[simp] theorem Die.served_vox (m : BitVec 3) : (e.served m).vox = e.vox := rfl
@[simp] theorem Die.served_ref (m : BitVec 3) : (e.served m).ref = e.ref := rfl
@[simp] theorem Die.served_tim (m : BitVec 3) : (e.served m).tim = e.tim := rfl
@[simp] theorem Die.served_chn (m : BitVec 3) : (e.served m).chn = e.chn := rfl
@[simp] theorem Die.served_pair (m : BitVec 3) : (e.served m).pair = e.pair := rfl
@[simp] theorem Die.served_sap (m : BitVec 3) : (e.served m).sap = e.sap := rfl
@[simp] theorem Die.served_cvd (m : BitVec 3) : (e.served m).cvd = e.cvd := rfl
@[simp] theorem Die.served_boot (m : BitVec 3) : (e.served m).boot = e.boot := rfl
@[simp] theorem Die.served_mem (m : BitVec 3) : (e.served m).mem = e.mem := rfl
@[simp] theorem Die.served_cpus (m : BitVec 3) : (e.served m).cpus = e.cpus := rfl
@[simp] theorem Die.served_xbar (m : BitVec 3) : (e.served m).xbar = { e.xbar with reqs := e.xbar.reqs.setIfInBounds m.toNat none } := rfl
@[simp] theorem Die.served_misc (m : BitVec 3) : (e.served m).misc = e.misc := rfl
@[simp] theorem Die.served_log (m : BitVec 3) : (e.served m).log = e.log := rfl
@[simp] theorem Die.served_pct (m : BitVec 3) : (e.served m).pct = e.pct := rfl
@[simp] theorem Die.served_frz (m : BitVec 3) : (e.served m).frz = e.frz := rfl
@[simp] theorem Die.served_resp (m : BitVec 3) : (e.served m).resp = e.resp := rfl
@[simp] theorem Die.served_free (m : BitVec 3) : (e.served m).free = e.free := rfl
@[simp] theorem Die.served_reg (m : BitVec 3) (r : Nat) : (e.served m).reg r = e.reg r := rfl
@[simp] theorem Die.served_fld (m : BitVec 3) (g : Fld) : (e.served m).fld g = e.fld g := rfl
@[simp] theorem Die.served_bit (m : BitVec 3) (g : Fld) : (e.served m).bit g = e.bit g := rfl
@[simp] theorem Die.served_runs (m : BitVec 3) (dom : Dom) : (e.served m).runs dom = e.runs dom := rfl
@[simp] theorem Die.answer_id (m : BitVec 3) (v : Word) : (e.answer m v).id = e.id := rfl
@[simp] theorem Die.answer_regs (m : BitVec 3) (v : Word) : (e.answer m v).regs = e.regs := rfl
@[simp] theorem Die.answer_shadow (m : BitVec 3) (v : Word) : (e.answer m v).shadow = e.shadow := rfl
@[simp] theorem Die.answer_posted (m : BitVec 3) (v : Word) : (e.answer m v).posted = e.posted := rfl
@[simp] theorem Die.answer_clk (m : BitVec 3) (v : Word) : (e.answer m v).clk = e.clk := rfl
@[simp] theorem Die.answer_eng (m : BitVec 3) (v : Word) : (e.answer m v).eng = e.eng := rfl
@[simp] theorem Die.answer_yard (m : BitVec 3) (v : Word) : (e.answer m v).yard = e.yard := rfl
@[simp] theorem Die.answer_mor (m : BitVec 3) (v : Word) : (e.answer m v).mor = e.mor := rfl
@[simp] theorem Die.answer_swp (m : BitVec 3) (v : Word) : (e.answer m v).swp = e.swp := rfl
@[simp] theorem Die.answer_vox (m : BitVec 3) (v : Word) : (e.answer m v).vox = e.vox := rfl
@[simp] theorem Die.answer_ref (m : BitVec 3) (v : Word) : (e.answer m v).ref = e.ref := rfl
@[simp] theorem Die.answer_tim (m : BitVec 3) (v : Word) : (e.answer m v).tim = e.tim := rfl
@[simp] theorem Die.answer_chn (m : BitVec 3) (v : Word) : (e.answer m v).chn = e.chn := rfl
@[simp] theorem Die.answer_pair (m : BitVec 3) (v : Word) : (e.answer m v).pair = e.pair := rfl
@[simp] theorem Die.answer_sap (m : BitVec 3) (v : Word) : (e.answer m v).sap = e.sap := rfl
@[simp] theorem Die.answer_cvd (m : BitVec 3) (v : Word) : (e.answer m v).cvd = e.cvd := rfl
@[simp] theorem Die.answer_boot (m : BitVec 3) (v : Word) : (e.answer m v).boot = e.boot := rfl
@[simp] theorem Die.answer_mem (m : BitVec 3) (v : Word) : (e.answer m v).mem = e.mem := rfl
@[simp] theorem Die.answer_cpus (m : BitVec 3) (v : Word) : (e.answer m v).cpus = e.cpus := rfl
@[simp] theorem Die.answer_xbar (m : BitVec 3) (v : Word) : (e.answer m v).xbar = (e.served m).xbar := rfl
@[simp] theorem Die.answer_misc (m : BitVec 3) (v : Word) : (e.answer m v).misc = e.misc := rfl
@[simp] theorem Die.answer_log (m : BitVec 3) (v : Word) : (e.answer m v).log = e.log := rfl
@[simp] theorem Die.answer_pct (m : BitVec 3) (v : Word) : (e.answer m v).pct = e.pct := rfl
@[simp] theorem Die.answer_frz (m : BitVec 3) (v : Word) : (e.answer m v).frz = e.frz := rfl
@[simp] theorem Die.answer_resp (m : BitVec 3) (v : Word) : (e.answer m v).resp = e.resp.set m.toNat ⟨v, false⟩ m.isLt := rfl
@[simp] theorem Die.answer_free (m : BitVec 3) (v : Word) : (e.answer m v).free = e.free := rfl
@[simp] theorem Die.answer_reg (m : BitVec 3) (v : Word) (r : Nat) : (e.answer m v).reg r = e.reg r := rfl
@[simp] theorem Die.answer_fld (m : BitVec 3) (v : Word) (g : Fld) : (e.answer m v).fld g = e.fld g := rfl
@[simp] theorem Die.answer_bit (m : BitVec 3) (v : Word) (g : Fld) : (e.answer m v).bit g = e.bit g := rfl
@[simp] theorem Die.answer_runs (m : BitVec 3) (v : Word) (dom : Dom) : (e.answer m v).runs dom = e.runs dom := rfl
@[simp] theorem Die.memWrite_id (a v n : Nat) : (e.memWrite a v n).id = e.id := rfl
@[simp] theorem Die.memWrite_regs (a v n : Nat) : (e.memWrite a v n).regs = e.regs := rfl
@[simp] theorem Die.memWrite_shadow (a v n : Nat) : (e.memWrite a v n).shadow = e.shadow := rfl
@[simp] theorem Die.memWrite_posted (a v n : Nat) : (e.memWrite a v n).posted = e.posted := rfl
@[simp] theorem Die.memWrite_clk (a v n : Nat) : (e.memWrite a v n).clk = e.clk := rfl
@[simp] theorem Die.memWrite_eng (a v n : Nat) : (e.memWrite a v n).eng = e.eng := rfl
@[simp] theorem Die.memWrite_yard (a v n : Nat) : (e.memWrite a v n).yard = e.yard := rfl
@[simp] theorem Die.memWrite_mor (a v n : Nat) : (e.memWrite a v n).mor = e.mor := rfl
@[simp] theorem Die.memWrite_swp (a v n : Nat) : (e.memWrite a v n).swp = e.swp := rfl
@[simp] theorem Die.memWrite_vox (a v n : Nat) : (e.memWrite a v n).vox = e.vox := rfl
@[simp] theorem Die.memWrite_ref (a v n : Nat) : (e.memWrite a v n).ref = e.ref := rfl
@[simp] theorem Die.memWrite_tim (a v n : Nat) : (e.memWrite a v n).tim = e.tim := rfl
@[simp] theorem Die.memWrite_chn (a v n : Nat) : (e.memWrite a v n).chn = e.chn := rfl
@[simp] theorem Die.memWrite_pair (a v n : Nat) : (e.memWrite a v n).pair = e.pair := rfl
@[simp] theorem Die.memWrite_sap (a v n : Nat) : (e.memWrite a v n).sap = e.sap := rfl
@[simp] theorem Die.memWrite_cvd (a v n : Nat) : (e.memWrite a v n).cvd = e.cvd := rfl
@[simp] theorem Die.memWrite_boot (a v n : Nat) : (e.memWrite a v n).boot = e.boot := rfl
@[simp] theorem Die.memWrite_mem (a v n : Nat) : (e.memWrite a v n).mem = e.mem.write a v n := rfl
@[simp] theorem Die.memWrite_cpus (a v n : Nat) : (e.memWrite a v n).cpus = e.cpus := rfl
@[simp] theorem Die.memWrite_xbar (a v n : Nat) : (e.memWrite a v n).xbar = e.xbar := rfl
@[simp] theorem Die.memWrite_misc (a v n : Nat) : (e.memWrite a v n).misc = e.misc := rfl
@[simp] theorem Die.memWrite_log (a v n : Nat) : (e.memWrite a v n).log = e.log := rfl
@[simp] theorem Die.memWrite_pct (a v n : Nat) : (e.memWrite a v n).pct = e.pct := rfl
@[simp] theorem Die.memWrite_frz (a v n : Nat) : (e.memWrite a v n).frz = e.frz := rfl
@[simp] theorem Die.memWrite_resp (a v n : Nat) : (e.memWrite a v n).resp = e.resp := rfl
@[simp] theorem Die.memWrite_free (a v n : Nat) : (e.memWrite a v n).free = e.free := rfl
@[simp] theorem Die.memWrite_reg (a v n : Nat) (r : Nat) : (e.memWrite a v n).reg r = e.reg r := rfl
@[simp] theorem Die.memWrite_fld (a v n : Nat) (g : Fld) : (e.memWrite a v n).fld g = e.fld g := rfl
@[simp] theorem Die.memWrite_bit (a v n : Nat) (g : Fld) : (e.memWrite a v n).bit g = e.bit g := rfl
@[simp] theorem Die.memWrite_runs (a v n : Nat) (dom : Dom) : (e.memWrite a v n).runs dom = e.runs dom := rfl

end Sys2Proof.Machine
end

