-- ==== Sys2Proof/Laws/Course.lean ====
section
/-! SUPPORT. What a command of a domain can do: while the domain runs it makes its change, and while it stands still nothing
(R26, R451). What an operation of a course's bundle can do: in a cycle in which its course issues it makes its change, and in
any other nothing. Every statement about such a command goes through these lemmas. -/

namespace Sys2Proof.Machine

/-- Putting a die back where it stands changes nothing. -/
theorem State.setDie_self (s : State) (d : DieId) : s.setDie d (s.die d) = s := by cases d <;> rfl

/-- A command given by `updIn` acts in its domain. -/
theorem ChangesIn.of_updIn {i : Instr} {s : State} {d : DieId} {m : Dom} {f : Die → Die}
    (h : exec i s = .next (s.updIn m d f)) : ChangesIn m i s d f := by
  unfold ChangesIn Changes
  rw [h]
  unfold State.updIn State.upd
  exact ⟨fun hr => by rw [if_pos hr], fun hr => by rw [if_neg (by simp [hr])]⟩

/-- The change of a command that acts in a domain may be told otherwise, where the domain runs. -/
theorem ChangesIn.congr {i : Instr} {s : State} {d : DieId} {m : Dom} {f g : Die → Die} (h : ChangesIn m i s d f)
    (hf : (s.die d).runs m = true → f (s.die d) = g (s.die d)) : ChangesIn m i s d g :=
  ⟨fun hr => by have := h.1 hr; unfold Changes at *; rw [this, hf hr], h.2⟩

/-- A command given by `goIn` acts in its domain, on either die. -/
theorem CompletesIn.of_goIn {i : Instr} {s : State} {d : DieId} {m : Dom} {f : State → State} {P : State → Prop}
    (h : exec i s = .next (s.goIn m d f)) (hp : (s.die d).runs m = true → P (f s)) : CompletesIn d m i s P := by
  unfold CompletesIn Completes
  rw [h]
  unfold State.goIn
  exact ⟨fun hr => ⟨f s, by rw [if_pos hr], hp hr⟩, fun hr => by rw [if_neg (by simp [hr])]⟩

/-- What is claimed of the next state of a command of a domain follows from its change. -/
theorem ChangesIn.to {i : Instr} {s : State} {d : DieId} {m : Dom} {f : Die → Die} {P : State → Prop}
    (h : ChangesIn m i s d f) (hp : (s.die d).runs m = true → P (s.setDie d (f (s.die d)))) : CompletesIn d m i s P :=
  ⟨fun hr => ⟨_, h.1 hr, hp hr⟩, h.2⟩

/-- An operation given by `issueOn` is one that issues. -/
theorem Issues.of_issueOn {i : Instr} {s : State} {d : DieId} {c : Fin 28} {f : Die → Die}
    (h : exec i s = issueOn d c f s) : Issues i s d c f := by
  unfold Issues Changes
  rw [h]
  unfold issueOn State.upd Die.operate
  dsimp only
  refine ⟨fun hi => by rw [if_pos hi], fun hi => ?_⟩
  rw [if_neg (by simp [hi]), State.setDie_self]

/-- An operation given by `onCourse` is one that issues, and its change lies in its course. -/
theorem IssuesCourse.of_onCourse {i : Instr} {s : State} {d : DieId} {c : Fin 28} {f : Course → Course}
    (h : exec i s = onCourse d c f s) : IssuesCourse i s d c f :=
  Issues.of_issueOn h

/-- What is claimed of the next state of an operation follows from its change. -/
theorem Issues.to {i : Instr} {s : State} {d : DieId} {c : Fin 28} {f : Die → Die} {P : State → Prop}
    (h : Issues i s d c f) (hp : P (s.setDie d (f (s.die d)))) : IssuesTo i s d c P :=
  ⟨fun hi => ⟨_, h.1 hi, hp⟩, h.2⟩

end Sys2Proof.Machine
end

