-- ==== Sys2Proof/Laws/Dispatch.lean ====
section
/-! SUPPORT. The arms of the dispatch, one equation each, and what a step does. -/

namespace Sys2Proof.Machine

@[simp] theorem exec_registerWrite (d : DieId) (m : BitVec 3) (user : Bool) (addr : Word) (size : AccSize) (v : Word) (hw : Word) (s : State) : exec (.registerWrite d m user addr size v hw) s = execRegisterWrite d m user addr size v hw s := rfl
@[simp] theorem exec_rcRead (d : DieId) (m : BitVec 3) (user : Bool) (addr : Word) (size : AccSize) (hw : Word) (s : State) : exec (.rcRead d m user addr size hw) s = execRcRead d m user addr size hw s := rfl
@[simp] theorem exec_postedWriteEffect (d : DieId) (blk : BitVec 5) (dom : Dom) (hw : Word) (s : State) : exec (.postedWriteEffect d blk dom hw) s = execPostedWriteEffect d blk dom hw s := rfl
@[simp] theorem exec_shadowUpdate (d : DieId) (addr : Word) (s : State) : exec (.shadowUpdate d addr) s = execShadowUpdate d addr s := rfl
@[simp] theorem exec_transitionEnd (d : DieId) (b : EnBlock) (s : State) : exec (.transitionEnd d b) s = execTransitionEnd d b s := rfl
@[simp] theorem exec_keepFallover (d : DieId) (s : State) : exec (.keepFallover d) s = execKeepFallover d s := rfl
@[simp] theorem exec_frameTick (d : DieId) (stamp : BitVec 48) (s : State) : exec (.frameTick d stamp) s = execFrameTick d stamp s := rfl
@[simp] theorem exec_mirrorReloadDone (d : DieId) (s : State) : exec (.mirrorReloadDone d) s = execMirrorReloadDone d s := rfl
@[simp] theorem exec_handoverRelease (d : DieId) (s : State) : exec (.handoverRelease d) s = execHandoverRelease d s := rfl
@[simp] theorem exec_frameTickLine (d : DieId) (s : State) : exec (.frameTickLine d) s = execFrameTickLine d s := rfl
@[simp] theorem exec_gpioTimedChange (d : DieId) (s : State) : exec (.gpioTimedChange d) s = execGpioTimedChange d s := rfl
@[simp] theorem exec_ppsOutPulse (d : DieId) (s : State) : exec (.ppsOutPulse d) s = execPpsOutPulse d s := rfl
@[simp] theorem exec_exchangeWindow (d : DieId) (reading : BitVec 12) (limits : BitVec 8) (s : State) : exec (.exchangeWindow d reading limits) s = execExchangeWindow d reading limits s := rfl
@[simp] theorem exec_followResolve (d : DieId) (s : State) : exec (.followResolve d) s = execFollowResolve d s := rfl
@[simp] theorem exec_leadBatchReceive (d : DieId) (s : State) : exec (.leadBatchReceive d) s = execLeadBatchReceive d s := rfl
@[simp] theorem exec_windowClose (d : DieId) (s : State) : exec (.windowClose d) s = execWindowClose d s := rfl
@[simp] theorem exec_issueStop (d : DieId) (s : State) : exec (.issueStop d) s = execIssueStop d s := rfl
@[simp] theorem exec_mpy (d : DieId) (c : Fin 28) (acc : Bool) (ma mb : BitVec 4) (msh : BitVec 2) (s : State) : exec (.mpy d c acc ma mb msh) s = execMpy d c acc ma mb msh s := rfl
@[simp] theorem exec_mac (d : DieId) (c : Fin 28) (acc : Bool) (ma mb : BitVec 4) (msh : BitVec 2) (s : State) : exec (.mac d c acc ma mb msh) s = execMac d c acc ma mb msh s := rfl
@[simp] theorem exec_msu (d : DieId) (c : Fin 28) (acc : Bool) (ma mb : BitVec 4) (msh : BitVec 2) (s : State) : exec (.msu d c acc ma mb msh) s = execMsu d c acc ma mb msh s := rfl
@[simp] theorem exec_alod (d : DieId) (c : Fin 28) (acc : Bool) (ma : BitVec 4) (s : State) : exec (.alod d c acc ma) s = execAlod d c acc ma s := rfl
@[simp] theorem exec_aclr (d : DieId) (c : Fin 28) (acc : Bool) (s : State) : exec (.aclr d c acc) s = execAclr d c acc s := rfl
@[simp] theorem exec_acpy (d : DieId) (c : Fin 28) (acc : Bool) (s : State) : exec (.acpy d c acc) s = execAcpy d c acc s := rfl
@[simp] theorem exec_aadd (d : DieId) (c : Fin 28) (acc : Bool) (s : State) : exec (.aadd d c acc) s = execAadd d c acc s := rfl
@[simp] theorem exec_dmpy (d : DieId) (c : Fin 28) (ma mb : BitVec 4) (msh : BitVec 2) (s : State) : exec (.dmpy d c ma mb msh) s = execDmpy d c ma mb msh s := rfl
@[simp] theorem exec_dmac (d : DieId) (c : Fin 28) (ma mb : BitVec 4) (msh : BitVec 2) (s : State) : exec (.dmac d c ma mb msh) s = execDmac d c ma mb msh s := rfl
@[simp] theorem exec_dmsu (d : DieId) (c : Fin 28) (ma mb : BitVec 4) (msh : BitVec 2) (s : State) : exec (.dmsu d c ma mb msh) s = execDmsu d c ma mb msh s := rfl
@[simp] theorem exec_mov (d : DieId) (c : Fin 28) (qd qs : BitVec 4) (s : State) : exec (.mov d c qd qs) s = execMov d c qd qs s := rfl
@[simp] theorem exec_ldi (d : DieId) (c : Fin 28) (qd : BitVec 4) (imm : Quarter) (s : State) : exec (.ldi d c qd imm) s = execLdi d c qd imm s := rfl
@[simp] theorem exec_addOp (d : DieId) (c : Fin 28) (qd qs qt : BitVec 4) (s : State) : exec (.addOp d c qd qs qt) s = execAddOp d c qd qs qt s := rfl
@[simp] theorem exec_subOp (d : DieId) (c : Fin 28) (qd qs qt : BitVec 4) (s : State) : exec (.subOp d c qd qs qt) s = execSubOp d c qd qs qt s := rfl
@[simp] theorem exec_addw (d : DieId) (c : Fin 28) (qd qs qt : BitVec 4) (s : State) : exec (.addw d c qd qs qt) s = execAddw d c qd qs qt s := rfl
@[simp] theorem exec_subw (d : DieId) (c : Fin 28) (qd qs qt : BitVec 4) (s : State) : exec (.subw d c qd qs qt) s = execSubw d c qd qs qt s := rfl
@[simp] theorem exec_negOp (d : DieId) (c : Fin 28) (qd qs : BitVec 4) (s : State) : exec (.negOp d c qd qs) s = execNegOp d c qd qs s := rfl
@[simp] theorem exec_absOp (d : DieId) (c : Fin 28) (qd qs : BitVec 4) (s : State) : exec (.absOp d c qd qs) s = execAbsOp d c qd qs s := rfl
@[simp] theorem exec_minOp (d : DieId) (c : Fin 28) (qd qs qt : BitVec 4) (s : State) : exec (.minOp d c qd qs qt) s = execMinOp d c qd qs qt s := rfl
@[simp] theorem exec_maxOp (d : DieId) (c : Fin 28) (qd qs qt : BitVec 4) (s : State) : exec (.maxOp d c qd qs qt) s = execMaxOp d c qd qs qt s := rfl
@[simp] theorem exec_andOp (d : DieId) (c : Fin 28) (qd qs qt : BitVec 4) (s : State) : exec (.andOp d c qd qs qt) s = execAndOp d c qd qs qt s := rfl
@[simp] theorem exec_orOp (d : DieId) (c : Fin 28) (qd qs qt : BitVec 4) (s : State) : exec (.orOp d c qd qs qt) s = execOrOp d c qd qs qt s := rfl
@[simp] theorem exec_xorOp (d : DieId) (c : Fin 28) (qd qs qt : BitVec 4) (s : State) : exec (.xorOp d c qd qs qt) s = execXorOp d c qd qs qt s := rfl
@[simp] theorem exec_shl (d : DieId) (c : Fin 28) (qd qs : BitVec 4) (sh : BitVec 5) (s : State) : exec (.shl d c qd qs sh) s = execShl d c qd qs sh s := rfl
@[simp] theorem exec_shra (d : DieId) (c : Fin 28) (qd qs : BitVec 4) (sh : BitVec 5) (s : State) : exec (.shra d c qd qs sh) s = execShra d c qd qs sh s := rfl
@[simp] theorem exec_shrl (d : DieId) (c : Fin 28) (qd qs : BitVec 4) (sh : BitVec 5) (s : State) : exec (.shrl d c qd qs sh) s = execShrl d c qd qs sh s := rfl
@[simp] theorem exec_cmplt (d : DieId) (c : Fin 28) (qs qt : BitVec 4) (s : State) : exec (.cmplt d c qs qt) s = execCmplt d c qs qt s := rfl
@[simp] theorem exec_cmpeq (d : DieId) (c : Fin 28) (qs qt : BitVec 4) (s : State) : exec (.cmpeq d c qs qt) s = execCmpeq d c qs qt s := rfl
@[simp] theorem exec_sel (d : DieId) (c : Fin 28) (qd qs qt : BitVec 4) (s : State) : exec (.sel d c qd qs qt) s = execSel d c qd qs qt s := rfl
@[simp] theorem exec_sta (d : DieId) (c : Fin 28) (acc : Bool) (qd : BitVec 4) (sh : BitVec 5) (width mode : BitVec 2) (s : State) : exec (.sta d c acc qd sh width mode) s = execSta d c acc qd sh width mode s := rfl
@[simp] theorem exec_dsta (d : DieId) (c : Fin 28) (qd : BitVec 4) (sh : BitVec 5) (mode : BitVec 2) (s : State) : exec (.dsta d c qd sh mode) s = execDsta d c qd sh mode s := rfl
@[simp] theorem exec_dadd (d : DieId) (c : Fin 28) (qd qs qt : BitVec 4) (s : State) : exec (.dadd d c qd qs qt) s = execDadd d c qd qs qt s := rfl
@[simp] theorem exec_dsub (d : DieId) (c : Fin 28) (qd qs qt : BitVec 4) (s : State) : exec (.dsub d c qd qs qt) s = execDsub d c qd qs qt s := rfl
@[simp] theorem exec_minx (d : DieId) (c : Fin 28) (qs : BitVec 4) (sel : BitVec 5) (s : State) : exec (.minx d c qs sel) s = execMinx d c qs sel s := rfl
@[simp] theorem exec_maxx (d : DieId) (c : Fin 28) (qs : BitVec 4) (sel : BitVec 5) (s : State) : exec (.maxx d c qs sel) s = execMaxx d c qs sel s := rfl
@[simp] theorem exec_sres (d : DieId) (c : Fin 28) (qd qi : BitVec 4) (s : State) : exec (.sres d c qd qi) s = execSres d c qd qi s := rfl
@[simp] theorem exec_lane (d : DieId) (c : Fin 28) (qd qs : BitVec 4) (lane : Fin 8) (s : State) : exec (.lane d c qd qs lane) s = execLane d c qd qs lane s := rfl
@[simp] theorem exec_rot (d : DieId) (c : Fin 28) (qd qs : BitVec 4) (rot : Fin 8) (s : State) : exec (.rot d c qd qs rot) s = execRot d c qd qs rot s := rfl
@[simp] theorem exec_mfs (d : DieId) (c : Fin 28) (qd : BitVec 4) (idx : BitVec 5) (part : Bool) (s : State) : exec (.mfs d c qd idx part) s = execMfs d c qd idx part s := rfl
@[simp] theorem exec_mts (d : DieId) (c : Fin 28) (idx : BitVec 5) (qs : BitVec 4) (hi : BitVec 4) (s : State) : exec (.mts d c idx qs hi) s = execMts d c idx qs hi s := rfl
@[simp] theorem exec_mtsi (d : DieId) (c : Fin 28) (idx : BitVec 5) (imm : Quarter) (hi : BitVec 4) (s : State) : exec (.mtsi d c idx imm hi) s = execMtsi d c idx imm hi s := rfl
@[simp] theorem exec_asv (d : DieId) (c : Fin 28) (acc : Bool) (qd : BitVec 4) (part : BitVec 2) (s : State) : exec (.asv d c acc qd part) s = execAsv d c acc qd part s := rfl
@[simp] theorem exec_ars (d : DieId) (c : Fin 28) (acc : Bool) (qs : BitVec 4) (part : BitVec 2) (s : State) : exec (.ars d c acc qs part) s = execArs d c acc qs part s := rfl
@[simp] theorem exec_clro (d : DieId) (c : Fin 28) (s : State) : exec (.clro d c) s = execClro d c s := rfl
@[simp] theorem exec_laneLoad (d : DieId) (c : Fin 28) (bus : BusId) (ag : Fin 4) (up : BitVec 2) (q : BitVec 4) (err : RowErr) (s : State) : exec (.laneLoad d c bus ag up q err) s = execLaneLoad d c bus ag up q err s := rfl
@[simp] theorem exec_broadcastLoad (d : DieId) (c : Fin 28) (bus : BusId) (ag : Fin 4) (up : BitVec 2) (q : BitVec 4) (err : RowErr) (s : State) : exec (.broadcastLoad d c bus ag up q err) s = execBroadcastLoad d c bus ag up q err s := rfl
@[simp] theorem exec_tileStore (d : DieId) (c : Fin 28) (bus : BusId) (ag : Fin 4) (up : BitVec 2) (q : BitVec 4) (s : State) : exec (.tileStore d c bus ag up q) s = execTileStore d c bus ag up q s := rfl
@[simp] theorem exec_ringStore (d : DieId) (c : Fin 28) (ag : Fin 4) (up : BitVec 2) (q : BitVec 4) (s : State) : exec (.ringStore d c ag up q) s = execRingStore d c ag up q s := rfl
@[simp] theorem exec_yardRowLoad (d : DieId) (c : Fin 28) (ag : Fin 4) (up : BitVec 2) (q : BitVec 4) (err : RowErr) (s : State) : exec (.yardRowLoad d c ag up q err) s = execYardRowLoad d c ag up q err s := rfl
@[simp] theorem exec_yardRowStore (d : DieId) (c : Fin 28) (ag : Fin 4) (up : BitVec 2) (q : BitVec 4) (s : State) : exec (.yardRowStore d c ag up q) s = execYardRowStore d c ag up q s := rfl
@[simp] theorem exec_correctionWriteback (d : DieId) (s : State) : exec (.correctionWriteback d) s = execCorrectionWriteback d s := rfl
@[simp] theorem exec_ringSecondAccess (d : DieId) (c : Fin 28) (err : RowErr) (s : State) : exec (.ringSecondAccess d c err) s = execRingSecondAccess d c err s := rfl
@[simp] theorem exec_yardStallRetry (d : DieId) (c : Fin 28) (err : RowErr) (s : State) : exec (.yardStallRetry d c err) s = execYardStallRetry d c err s := rfl
@[simp] theorem exec_operationWriteback (d : DieId) (c : Fin 28) (s : State) : exec (.operationWriteback d c) s = execOperationWriteback d c s := rfl
@[simp] theorem exec_endKernel (d : DieId) (c : Fin 28) (cycle : BitVec 15) (s : State) : exec (.endKernel d c cycle) s = execEndKernel d c cycle s := rfl
@[simp] theorem exec_br (d : DieId) (c : Fin 28) (target : BitVec 13) (s : State) : exec (.br d c target) s = execBr d c target s := rfl
@[simp] theorem exec_brc (d : DieId) (c : Fin 28) (cond : BitVec 4) (target : BitVec 13) (s : State) : exec (.brc d c cond target) s = execBrc d c cond target s := rfl
@[simp] theorem exec_rpt (d : DieId) (c : Fin 28) (count : BitVec 13) (s : State) : exec (.rpt d c count) s = execRpt d c count s := rfl
@[simp] theorem exec_loop (d : DieId) (c : Fin 28) (len : BitVec 5) (count : BitVec 13) (s : State) : exec (.loop d c len count) s = execLoop d c len count s := rfl
@[simp] theorem exec_loopx (d : DieId) (c : Fin 28) (last : BitVec 13) (count : BitVec 13) (s : State) : exec (.loopx d c last count) s = execLoopx d c last count s := rfl
@[simp] theorem exec_rti (d : DieId) (c : Fin 28) (s : State) : exec (.rti d c) s = execRti d c s := rfl
@[simp] theorem exec_brk (d : DieId) (c : Fin 28) (s : State) : exec (.brk d c) s = execBrk d c s := rfl
@[simp] theorem exec_courseInterruptEntry (d : DieId) (c : Fin 28) (s : State) : exec (.courseInterruptEntry d c) s = execCourseInterruptEntry d c s := rfl
@[simp] theorem exec_doorbellRing (d : DieId) (c : Fin 28) (s : State) : exec (.doorbellRing d c) s = execDoorbellRing d c s := rfl
@[simp] theorem exec_seatmapWrite (d : DieId) (w : Fin 4) (v : Word) (s : State) : exec (.seatmapWrite d w v) s = execSeatmapWrite d w v s := rfl
@[simp] theorem exec_wallRetentionLoss (d : DieId) (w : Fin 4) (s : State) : exec (.wallRetentionLoss d w) s = execWallRetentionLoss d w s := rfl
@[simp] theorem exec_wearMeasure (d : DieId) (c : Fin 28) (margin : BitVec 12) (s : State) : exec (.wearMeasure d c margin) s = execWearMeasure d c margin s := rfl
@[simp] theorem exec_migrationGo (d : DieId) (w : Fin 4) (s : State) : exec (.migrationGo d w) s = execMigrationGo d w s := rfl
@[simp] theorem exec_migrationArm (d : DieId) (w : Fin 4) (s : State) : exec (.migrationArm d w) s = execMigrationArm d w s := rfl
@[simp] theorem exec_migrationAbort (d : DieId) (w : Fin 4) (s : State) : exec (.migrationAbort d w) s = execMigrationAbort d w s := rfl
@[simp] theorem exec_migrationRearm (d : DieId) (w : Fin 4) (s : State) : exec (.migrationRearm d w) s = execMigrationRearm d w s := rfl
@[simp] theorem exec_yardArbitration (d : DieId) (bank : Fin 4) (cycle : BitVec 15) (reqs : List Requester) (s : State) : exec (.yardArbitration d bank cycle reqs) s = execYardArbitration d bank cycle reqs s := rfl
@[simp] theorem exec_yardwRead (d : DieId) (m : BitVec 3) (addr : Word) (err : RowErr) (s : State) : exec (.yardwRead d m addr err) s = execYardwRead d m addr err s := rfl
@[simp] theorem exec_yardwWrite (d : DieId) (m : BitVec 3) (addr : Word) (v : Word) (err : RowErr) (s : State) : exec (.yardwWrite d m addr v err) s = execYardwWrite d m addr v err s := rfl
@[simp] theorem exec_engwWrite (d : DieId) (m : BitVec 3) (addr : Word) (v : Word) (err : RowErr) (s : State) : exec (.engwWrite d m addr v err) s = execEngwWrite d m addr v err s := rfl
@[simp] theorem exec_hodPush (d : DieId) (h : Fin 16) (d3 : Word) (s : State) : exec (.hodPush d h d3) s = execHodPush d h d3 s := rfl
@[simp] theorem exec_hodRowMove (d : DieId) (h : Fin 16) (err : RowErr) (engineRow : Bool) (s : State) : exec (.hodRowMove d h err engineRow) s = execHodRowMove d h err engineRow s := rfl
@[simp] theorem exec_testStepStart (d : DieId) (bank : Fin 4) (s : State) : exec (.testStepStart d bank) s = execTestStepStart d bank s := rfl
@[simp] theorem exec_testCapture (d : DieId) (bank : Fin 4) (sbe : List (Fin 32)) (s : State) : exec (.testCapture d bank sbe) s = execTestCapture d bank sbe s := rfl
@[simp] theorem exec_testMarchCycle (d : DieId) (bank : Fin 4) (ok : Bool) (s : State) : exec (.testMarchCycle d bank ok) s = execTestMarchCycle d bank ok s := rfl
@[simp] theorem exec_testRestore (d : DieId) (bank : Fin 4) (s : State) : exec (.testRestore d bank) s = execTestRestore d bank s := rfl
@[simp] theorem exec_remapGo (d : DieId) (bank : Fin 4) (s : State) : exec (.remapGo d bank) s = execRemapGo d bank s := rfl
@[simp] theorem exec_remapCopy (d : DieId) (bank : Fin 4) (err : RowErr) (s : State) : exec (.remapCopy d bank err) s = execRemapCopy d bank err s := rfl
@[simp] theorem exec_remapCleanPass (d : DieId) (bank : Fin 4) (s : State) : exec (.remapCleanPass d bank) s = execRemapCleanPass d bank s := rfl
@[simp] theorem exec_morwWrite (d : DieId) (sink : BitVec 15) (v : Word) (s : State) : exec (.morwWrite d sink v) s = execMorwWrite d sink v s := rfl
@[simp] theorem exec_generatorWrite (d : DieId) (addr : Word) (v : Word) (s : State) : exec (.generatorWrite d addr v) s = execGeneratorWrite d addr v s := rfl
@[simp] theorem exec_bridgeSample (d : DieId) (s2m : Bool) (ch : BitVec 8) (phi : BitVec 24) (s : State) : exec (.bridgeSample d s2m ch phi) s = execBridgeSample d s2m ch phi s := rfl
@[simp] theorem exec_bridgeLock (d : DieId) (ratio : Word) (s : State) : exec (.bridgeLock d ratio) s = execBridgeLock d ratio s := rfl
@[simp] theorem exec_bridgeLockLoss (d : DieId) (s : State) : exec (.bridgeLockLoss d) s = execBridgeLockLoss d s := rfl
@[simp] theorem exec_bridgeWaitAbort (d : DieId) (s2m : Bool) (s : State) : exec (.bridgeWaitAbort d s2m) s = execBridgeWaitAbort d s2m s := rfl
@[simp] theorem exec_bridgeMapWrite (d : DieId) (v : Word) (s : State) : exec (.bridgeMapWrite d v) s = execBridgeMapWrite d v s := rfl
@[simp] theorem exec_swapArm (d : DieId) (n : Fin 4) (s : State) : exec (.swapArm d n) s = execSwapArm d n s := rfl
@[simp] theorem exec_swapDisarm (d : DieId) (n : Fin 4) (s : State) : exec (.swapDisarm d n) s = execSwapDisarm d n s := rfl
@[simp] theorem exec_sceneRecall (d : DieId) (payload : Vector Block 2) (s : State) : exec (.sceneRecall d payload) s = execSceneRecall d payload s := rfl
@[simp] theorem exec_firmwareEventPush (d : DieId) (hi : Word) (s : State) : exec (.firmwareEventPush d hi) s = execFirmwareEventPush d hi s := rfl
@[simp] theorem exec_noteLoad (d : DieId) (payload : List Block) (s : State) : exec (.noteLoad d payload) s = execNoteLoad d payload s := rfl
@[simp] theorem exec_midiRxByte (d : DieId) (uart : Fin 2) (byte : Byte) (framing : Bool) (s : State) : exec (.midiRxByte d uart byte framing) s = execMidiRxByte d uart byte framing s := rfl
@[simp] theorem exec_mfifoRead (d : DieId) (m : BitVec 3) (s : State) : exec (.mfifoRead d m) s = execMfifoRead d m s := rfl
@[simp] theorem exec_activeSenseTimeout (d : DieId) (uart : Fin 2) (s : State) : exec (.activeSenseTimeout d uart) s = execActiveSenseTimeout d uart s := rfl
@[simp] theorem exec_startBlockReceive (d : DieId) (p : PortId) (startByte : Byte) (hdr : Vector Block 15) (arrival : Word) (toFt : BitVec 48) (filler : BitVec 16) (before : ContainerEnd) (fill : BitVec 9) (s : State) : exec (.startBlockReceive d p startByte hdr arrival toFt filler before fill) s = execStartBlockReceive d p startByte hdr arrival toFt filler before fill s := rfl
@[simp] theorem exec_containerForward (d : DieId) (bad : List (BitVec 13)) (s : State) : exec (.containerForward d bad) s = execContainerForward d bad s := rfl
@[simp] theorem exec_containerOriginate (d : DieId) (seed : BitVec 48) (ltx : Word) (s : State) : exec (.containerOriginate d seed ltx) s = execContainerOriginate d seed ltx s := rfl
@[simp] theorem exec_palletReceive (d : DieId) (path : PalletPath) (blocks : Vector Block 15) (cycle : BitVec 15) (s : State) : exec (.palletReceive d path blocks cycle) s = execPalletReceive d path blocks cycle s := rfl
@[simp] theorem exec_palletEligible (d : DieId) (s : State) : exec (.palletEligible d) s = execPalletEligible d s := rfl
@[simp] theorem exec_palletInsert (d : DieId) (p : Fin 384) (s : State) : exec (.palletInsert d p) s = execPalletInsert d p s := rfl
@[simp] theorem exec_masterPalletReturn (d : DieId) (x : PalletBack) (s : State) : exec (.masterPalletReturn d x) s = execMasterPalletReturn d x s := rfl
@[simp] theorem exec_detach (d : DieId) (s : State) : exec (.detach d) s = execDetach d s := rfl
@[simp] theorem exec_reseqWrite (d : DieId) (s : State) : exec (.reseqWrite d) s = execReseqWrite d s := rfl
@[simp] theorem exec_loadReceive (d : DieId) (p : PortId) (ld : Load) (s : State) : exec (.loadReceive d p ld) s = execLoadReceive d p ld s := rfl
@[simp] theorem exec_controlBlockSend (d : DieId) (room : BitVec 11) (s : State) : exec (.controlBlockSend d room) s = execControlBlockSend d room s := rfl
@[simp] theorem exec_creditReceive (d : DieId) (p : PortId) (wrap : Bool) (cred : Block) (s : State) : exec (.creditReceive d p wrap cred) s = execCreditReceive d p wrap cred s := rfl
@[simp] theorem exec_loadFetch (d : DieId) (lane : Fin 4) (s : State) : exec (.loadFetch d lane) s = execLoadFetch d lane s := rfl
@[simp] theorem exec_chainMapWrite (d : DieId) (p : PortId) (v : Word) (s : State) : exec (.chainMapWrite d p v) s = execChainMapWrite d p v s := rfl
@[simp] theorem exec_pArm (d : DieId) (s : State) : exec (.pArm d) s = execPArm d s := rfl
@[simp] theorem exec_chnCtrlWrite (d : DieId) (v : Word) (s : State) : exec (.chnCtrlWrite d v) s = execChnCtrlWrite d v s := rfl
@[simp] theorem exec_electionTimeout (d : DieId) (s : State) : exec (.electionTimeout d) s = execElectionTimeout d s := rfl
@[simp] theorem exec_portLost (d : DieId) (p : PortId) (cause : LossCause) (s : State) : exec (.portLost d p cause) s = execPortLost d p cause s := rfl
@[simp] theorem exec_repeatEnd (d : DieId) (s : State) : exec (.repeatEnd d) s = execRepeatEnd d s := rfl
@[simp] theorem exec_nearHeal (d : DieId) (p : PortId) (s : State) : exec (.nearHeal d p) s = execNearHeal d p s := rfl
@[simp] theorem exec_fillRestart (d : DieId) (p : PortId) (s : State) : exec (.fillRestart d p) s = execFillRestart d p s := rfl
@[simp] theorem exec_pairJoin (d : DieId) (s : State) : exec (.pairJoin d) s = execPairJoin d s := rfl
@[simp] theorem exec_leadTimeout (d : DieId) (s : State) : exec (.leadTimeout d) s = execLeadTimeout d s := rfl
@[simp] theorem exec_leadAloneB (d : DieId) (s : State) : exec (.leadAloneB d) s = execLeadAloneB d s := rfl
@[simp] theorem exec_linkTrained (d : DieId) (s : State) : exec (.linkTrained d) s = execLinkTrained d s := rfl
@[simp] theorem exec_linkDown (d : DieId) (s : State) : exec (.linkDown d) s = execLinkDown d s := rfl
@[simp] theorem exec_pwBlockDrop (x : PwLoss) (s : State) : exec (.pwBlockDrop x) s = execPwBlockDrop x s := rfl
@[simp] theorem exec_heartbeatSend (d : DieId) (s : State) : exec (.heartbeatSend d) s = execHeartbeatSend d s := rfl
@[simp] theorem exec_healthReportReceive (d : DieId) (s : State) : exec (.healthReportReceive d) s = execHealthReportReceive d s := rfl
@[simp] theorem exec_pllCheck (d : DieId) (fails : BitVec 3) (s : State) : exec (.pllCheck d fails) s = execPllCheck d fails s := rfl
@[simp] theorem exec_palletPass (d : DieId) (blocks : Vector Block 15) (s : State) : exec (.palletPass d blocks) s = execPalletPass d blocks s := rfl
@[simp] theorem exec_loadRelay (d : DieId) (s : State) : exec (.loadRelay d) s = execLoadRelay d s := rfl
@[simp] theorem exec_fenceAssert (d : DieId) (s : State) : exec (.fenceAssert d) s = execFenceAssert d s := rfl
@[simp] theorem exec_unfence (d : DieId) (s : State) : exec (.unfence d) s = execUnfence d s := rfl
@[simp] theorem exec_dwnAssert (d : DieId) (cause : DwnCause) (s : State) : exec (.dwnAssert d cause) s = execDwnAssert d cause s := rfl
@[simp] theorem exec_standdown (d : DieId) (s : State) : exec (.standdown d) s = execStanddown d s := rfl
@[simp] theorem exec_driverHoldExpire (d : DieId) (s : State) : exec (.driverHoldExpire d) s = execDriverHoldExpire d s := rfl
@[simp] theorem exec_leadDwnReceive (d : DieId) (s : State) : exec (.leadDwnReceive d) s = execLeadDwnReceive d s := rfl
@[simp] theorem exec_handoverRequest (d : DieId) (s : State) : exec (.handoverRequest d) s = execHandoverRequest d s := rfl
@[simp] theorem exec_stateCopyBlock (d : DieId) (item : CopyItem) (s : State) : exec (.stateCopyBlock d item) s = execStateCopyBlock d item s := rfl
@[simp] theorem exec_copyChangeRepeat (d : DieId) (change : CopyChange) (s : State) : exec (.copyChangeRepeat d change) s = execCopyChangeRepeat d change s := rfl
@[simp] theorem exec_solo (d : DieId) (s : State) : exec (.solo d) s = execSolo d s := rfl
@[simp] theorem exec_identityBlock (d : DieId) (s : State) : exec (.identityBlock d) s = execIdentityBlock d s := rfl
@[simp] theorem exec_refInputEvent (d : DieId) (i : RefInput) (at_ offset : BitVec 48) (displaced : Bool) (s : State) : exec (.refInputEvent d i at_ offset displaced) s = execRefInputEvent d i at_ offset displaced s := rfl
@[simp] theorem exec_frequencyGate (d : DieId) (i : Fin 5) (offs : BitVec 16) (nearOther : Bool) (s : State) : exec (.frequencyGate d i offs nearOther) s = execFrequencyGate d i offs nearOther s := rfl
@[simp] theorem exec_inputStopped (d : DieId) (i : Fin 5) (s : State) : exec (.inputStopped d i) s = execInputStopped d i s := rfl
@[simp] theorem exec_rankWrite (d : DieId) (v : Word) (s : State) : exec (.rankWrite d v) s = execRankWrite d v s := rfl
@[simp] theorem exec_absorptionEnd (d : DieId) (phase : Word) (s : State) : exec (.absorptionEnd d phase) s = execAbsorptionEnd d phase s := rfl
@[simp] theorem exec_slewComplete (d : DieId) (fine : BitVec 7) (phase : Word) (s : State) : exec (.slewComplete d fine phase) s = execSlewComplete d fine phase s := rfl
@[simp] theorem exec_refLock (d : DieId) (s : State) : exec (.refLock d) s = execRefLock d s := rfl
@[simp] theorem exec_holdLimit (d : DieId) (s : State) : exec (.holdLimit d) s = execHoldLimit d s := rfl
@[simp] theorem exec_pairInputLoss (d : DieId) (s : State) : exec (.pairInputLoss d) s = execPairInputLoss d s := rfl
@[simp] theorem exec_wckAlign (d : DieId) (s : State) : exec (.wckAlign d) s = execWckAlign d s := rfl
@[simp] theorem exec_ppsAlign (d : DieId) (s : State) : exec (.ppsAlign d) s = execPpsAlign d s := rfl
@[simp] theorem exec_alignAbort (d : DieId) (s : State) : exec (.alignAbort d) s = execAlignAbort d s := rfl
@[simp] theorem exec_alignDone (d : DieId) (s : State) : exec (.alignDone d) s = execAlignDone d s := rfl
@[simp] theorem exec_sideWckQualify (d : DieId) (freq : Word) (s : State) : exec (.sideWckQualify d freq) s = execSideWckQualify d freq s := rfl
@[simp] theorem exec_timeOffsetUpdate (d : DieId) (pps : Bool) (frac : BitVec 12) (corr : Word) (s : State) : exec (.timeOffsetUpdate d pps frac corr) s = execTimeOffsetUpdate d pps frac corr s := rfl
@[simp] theorem exec_timeStepArm (d : DieId) (s : State) : exec (.timeStepArm d) s = execTimeStepArm d s := rfl
@[simp] theorem exec_todMessage (d : DieId) (bytes : Vector Byte 16) (inWindow : Bool) (s : State) : exec (.todMessage d bytes inWindow) s = execTodMessage d bytes inWindow s := rfl
@[simp] theorem exec_ppsEdge (d : DieId) (s : State) : exec (.ppsEdge d) s = execPpsEdge d s := rfl
@[simp] theorem exec_stampCapture (d : DieId) (e : StampEvent) (preload : Word) (s : State) : exec (.stampCapture d e preload) s = execStampCapture d e preload s := rfl
@[simp] theorem exec_stampRead (d : DieId) (m : BitVec 3) (rx : Bool) (age : Word) (s : State) : exec (.stampRead d m rx age) s = execStampRead d m rx age s := rfl
@[simp] theorem exec_timeNsRead (d : DieId) (m : BitVec 3) (s : State) : exec (.timeNsRead d m) s = execTimeNsRead d m s := rfl
@[simp] theorem exec_portFrame (d : DieId) (p : Fin 8) (phase : BitVec 15) (bits : BitVec 16) (alien : Bool) (lastTwo : Bool) (s : State) : exec (.portFrame d p phase bits alien lastTwo) s = execPortFrame d p phase bits alien lastTwo s := rfl
@[simp] theorem exec_sapInputWord (d : DieId) (p : Fin 8) (w : Word) (s : State) : exec (.sapInputWord d p w) s = execSapInputWord d p w s := rfl
@[simp] theorem exec_sapOutputWord (d : DieId) (p : Fin 8) (s : State) : exec (.sapOutputWord d p) s = execSapOutputWord d p s := rfl
@[simp] theorem exec_sapMaskWrite (d : DieId) (p : Fin 8) (v : Word) (lastTwo : Bool) (s : State) : exec (.sapMaskWrite d p v lastTwo) s = execSapMaskWrite d p v lastTwo s := rfl
@[simp] theorem exec_sapCtrlWrite (d : DieId) (p : Fin 8) (v : Word) (s : State) : exec (.sapCtrlWrite d p v) s = execSapCtrlWrite d p v s := rfl
@[simp] theorem exec_groupClockLoss (d : DieId) (side : Bool) (s : State) : exec (.groupClockLoss d side) s = execGroupClockLoss d side s := rfl
@[simp] theorem exec_cvClearInput (d : DieId) (low : Bool) (s : State) : exec (.cvClearInput d low) s = execCvClearInput d low s := rfl
@[simp] theorem exec_cvDataWrite (d : DieId) (n : Fin 16) (v : Word) (setting : Bool) (s : State) : exec (.cvDataWrite d n v setting) s = execCvDataWrite d n v setting s := rfl
@[simp] theorem exec_cvCfgWrite (d : DieId) (n : Fin 16) (v : Word) (s : State) : exec (.cvCfgWrite d n v) s = execCvCfgWrite d n v s := rfl
@[simp] theorem exec_vcvGood (d : DieId) (s : State) : exec (.vcvGood d) s = execVcvGood d s := rfl
@[simp] theorem exec_aluInstruction (d : DieId) (n : Fin 4) (op : AluOp) (comp : Bool) (s : State) : exec (.aluInstruction d n op comp) s = execAluInstruction d n op comp s := rfl
@[simp] theorem exec_takenBranch (d : DieId) (n : Fin 4) (op : JumpOp) (comp : Bool) (s : State) : exec (.takenBranch d n op comp) s = execTakenBranch d n op comp s := rfl
@[simp] theorem exec_jalr (d : DieId) (n : Fin 4) (rd rs1 : XReg) (ofs : BitVec 12) (comp : Bool) (s : State) : exec (.jalr d n rd rs1 ofs comp) s = execJalr d n rd rs1 ofs comp s := rfl
@[simp] theorem exec_mulInsn (d : DieId) (n : Fin 4) (f : MulFn) (rd rs1 rs2 : XReg) (s : State) : exec (.mulInsn d n f rd rs1 rs2) s = execMulInsn d n f rd rs1 rs2 s := rfl
@[simp] theorem exec_divInsn (d : DieId) (n : Fin 4) (f : DivFn) (rd rs1 rs2 : XReg) (s : State) : exec (.divInsn d n f rd rs1 rs2) s = execDivInsn d n f rd rs1 rs2 s := rfl
@[simp] theorem exec_coreLoad (d : DieId) (n : Fin 4) (f : LoadFn) (rd rs1 : XReg) (ofs : BitVec 12) (comp : Bool) (err : Option EccKind) (s : State) : exec (.coreLoad d n f rd rs1 ofs comp err) s = execCoreLoad d n f rd rs1 ofs comp err s := rfl
@[simp] theorem exec_coreStore (d : DieId) (n : Fin 4) (f : StoreFn) (rs1 rs2 : XReg) (ofs : BitVec 12) (comp : Bool) (s : State) : exec (.coreStore d n f rs1 rs2 ofs comp) s = execCoreStore d n f rs1 rs2 ofs comp s := rfl
@[simp] theorem exec_illegalInstruction (d : DieId) (n : Fin 4) (word : Word) (s : State) : exec (.illegalInstruction d n word) s = execIllegalInstruction d n word s := rfl
@[simp] theorem exec_mret (d : DieId) (n : Fin 4) (s : State) : exec (.mret d n) s = execMret d n s := rfl
@[simp] theorem exec_wfi (d : DieId) (n : Fin 4) (s : State) : exec (.wfi d n) s = execWfi d n s := rfl
@[simp] theorem exec_coreInterruptEntry (d : DieId) (n : Fin 4) (divide : Bool) (s : State) : exec (.coreInterruptEntry d n divide) s = execCoreInterruptEntry d n divide s := rfl
@[simp] theorem exec_semaphoreRead (d : DieId) (m : BitVec 3) (sem : Fin 16) (s : State) : exec (.semaphoreRead d m sem) s = execSemaphoreRead d m sem s := rfl
@[simp] theorem exec_semaphoreWrite (d : DieId) (m : BitVec 3) (sem : Fin 16) (v : Word) (s : State) : exec (.semaphoreWrite d m sem v) s = execSemaphoreWrite d m sem v s := rfl
@[simp] theorem exec_doorbellSet (d : DieId) (n : Fin 4) (v : Word) (s : State) : exec (.doorbellSet d n v) s = execDoorbellSet d n v s := rfl
@[simp] theorem exec_coreRunWrite (d : DieId) (v : Word) (s : State) : exec (.coreRunWrite d v) s = execCoreRunWrite d v s := rfl
@[simp] theorem exec_crossbarRequest (d : DieId) (m : Fin 7) (addr : Word) (write : Bool) (contenders : List (Fin 7)) (s : State) : exec (.crossbarRequest d m addr write contenders) s = execCrossbarRequest d m addr write contenders s := rfl
@[simp] theorem exec_requestUrgent (d : DieId) (m : Fin 7) (s : State) : exec (.requestUrgent d m) s = execRequestUrgent d m s := rfl
@[simp] theorem exec_burst (d : DieId) (m : Fin 7) (addr : Word) (beats : BitVec 5) (wrap : Bool) (write : Bool) (data : List (BitVec 64)) (err : List (Nat × EccKind)) (s : State) : exec (.burst d m addr beats wrap write data err) s = execBurst d m addr beats wrap write data err s := rfl
@[simp] theorem exec_masterResetMidBurst (d : DieId) (m : Fin 7) (s : State) : exec (.masterResetMidBurst d m) s = execMasterResetMidBurst d m s := rfl
@[simp] theorem exec_gpioEdge (d : DieId) (pin : Fin 16) (level : Bool) (s : State) : exec (.gpioEdge d pin level) s = execGpioEdge d pin level s := rfl
@[simp] theorem exec_gpioArm (d : DieId) (s : State) : exec (.gpioArm d) s = execGpioArm d s := rfl
@[simp] theorem exec_i2cGo (d : DieId) (n : Fin 2) (v : Word) (s : State) : exec (.i2cGo d n v) s = execI2cGo d n v s := rfl
@[simp] theorem exec_i2cDone (d : DieId) (n : Fin 2) (r : I2cResult) (s : State) : exec (.i2cDone d n r) s = execI2cDone d n r s := rfl
@[simp] theorem exec_i2cTimeout (d : DieId) (n : Fin 2) (s : State) : exec (.i2cTimeout d n) s = execI2cTimeout d n s := rfl
@[simp] theorem exec_i2cRecover (d : DieId) (n : Fin 2) (s : State) : exec (.i2cRecover d n) s = execI2cRecover d n s := rfl
@[simp] theorem exec_midiTxPush (d : DieId) (byte : Byte) (s : State) : exec (.midiTxPush d byte) s = execMidiTxPush d byte s := rfl
@[simp] theorem exec_midiTxByteSent (d : DieId) (s : State) : exec (.midiTxByteSent d) s = execMidiTxByteSent d s := rfl
@[simp] theorem exec_dieReset (d : DieId) (rebootBit : Bool) (s : State) : exec (.dieReset d rebootBit) s = execDieReset d rebootBit s := rfl
@[simp] theorem exec_flashDiscovery (d : DieId) (bootw : Bool) (role : BitVec 2) (sfdp : Bool) (oct quadIo quadOut : Bool) (addr4 : Bool) (s : State) : exec (.flashDiscovery d bootw role sfdp oct quadIo quadOut addr4) s = execFlashDiscovery d bootw role sfdp oct quadIo quadOut addr4 s := rfl
@[simp] theorem exec_imagePass1 (d : DieId) (a b : List Byte) (s : State) : exec (.imagePass1 d a b) s = execImagePass1 d a b s := rfl
@[simp] theorem exec_engStart (d : DieId) (s : State) : exec (.engStart d) s = execEngStart d s := rfl
@[simp] theorem exec_imagePass2 (d : DieId) (secs : List Section) (slot : List Byte) (s : State) : exec (.imagePass2 d secs slot) s = execImagePass2 d secs slot s := rfl
@[simp] theorem exec_imageRelease (d : DieId) (micros : Word) (s : State) : exec (.imageRelease d micros) s = execImageRelease d micros s := rfl
@[simp] theorem exec_noimage (d : DieId) (s : State) : exec (.noimage d) s = execNoimage d s := rfl
@[simp] theorem exec_strapHold (d : DieId) (s : State) : exec (.strapHold d) s = execStrapHold d s := rfl
@[simp] theorem exec_flashCommand (d : DieId) (v : Word) (s : State) : exec (.flashCommand d v) s = execFlashCommand d v s := rfl
@[simp] theorem exec_flashCommandDone (d : DieId) (data : List Byte) (s : State) : exec (.flashCommandDone d data) s = execFlashCommandDone d data s := rfl
@[simp] theorem exec_reboot (d : DieId) (s : State) : exec (.reboot d) s = execReboot d s := rfl
@[simp] theorem exec_plugSeated (d : DieId) (s : State) : exec (.plugSeated d) s = execPlugSeated d s := rfl
@[simp] theorem exec_plugPowered (d : DieId) (s : State) : exec (.plugPowered d) s = execPlugPowered d s := rfl
@[simp] theorem exec_plugLeaving (d : DieId) (s : State) : exec (.plugLeaving d) s = execPlugLeaving d s := rfl
@[simp] theorem exec_leaveReset (d : DieId) (s : State) : exec (.leaveReset d) s = execLeaveReset d s := rfl
@[simp] theorem exec_supplyWarn (d : DieId) (r : Rail) (s : State) : exec (.supplyWarn d r) s = execSupplyWarn d r s := rfl
@[simp] theorem exec_supplyReset (d : DieId) (r : ResetRail) (s : State) : exec (.supplyReset d r) s = execSupplyReset d r s := rfl
@[simp] theorem exec_supplyRestore (d : DieId) (r : Rail) (s : State) : exec (.supplyRestore d r) s = execSupplyRestore d r s := rfl
@[simp] theorem exec_logEvent (d : DieId) (cls : BitVec 3) (code : BitVec 16) (w4 w5 w6 : Word) (s : State) : exec (.logEvent d cls code w4 w5 w6) s = execLogEvent d cls code w4 w5 w6 s := rfl
@[simp] theorem exec_logRecordWrite (d : DieId) (parityFail : Bool) (s : State) : exec (.logRecordWrite d parityFail) s = execLogRecordWrite d parityFail s := rfl
@[simp] theorem exec_logReadback (d : DieId) (err : Option EccKind) (s : State) : exec (.logReadback d err) s = execLogReadback d err s := rfl
@[simp] theorem exec_logFreezeWrite (d : DieId) (v : Bool) (s : State) : exec (.logFreezeWrite d v) s = execLogFreezeWrite d v s := rfl
@[simp] theorem exec_logClear (d : DieId) (v : Word) (s : State) : exec (.logClear d v) s = execLogClear d v s := rfl
@[simp] theorem exec_logClearDone (d : DieId) (s : State) : exec (.logClearDone d) s = execLogClearDone d s := rfl
@[simp] theorem exec_logFwcode (d : DieId) (v : Word) (s : State) : exec (.logFwcode d v) s = execLogFwcode d v s := rfl
@[simp] theorem exec_logCursorWrite (d : DieId) (v : Word) (err : Option EccKind) (s : State) : exec (.logCursorWrite d v err) s = execLogCursorWrite d v err s := rfl
@[simp] theorem exec_logWin7Read (d : DieId) (m : BitVec 3) (err : Option EccKind) (s : State) : exec (.logWin7Read d m err) s = execLogWin7Read d m err s := rfl
@[simp] theorem exec_pctSnapshot (d : DieId) (m : BitVec 3) (cycle : BitVec 15) (s : State) : exec (.pctSnapshot d m cycle) s = execPctSnapshot d m cycle s := rfl
@[simp] theorem exec_pctEvent (d : DieId) (event : BitVec 10) (pc : BitVec 22) (s : State) : exec (.pctEvent d event pc) s = execPctEvent d event pc s := rfl
@[simp] theorem exec_pctCounterWrite (d : DieId) (n : Fin 8) (v : Word) (inc : Bool) (s : State) : exec (.pctCounterWrite d n v inc) s = execPctCounterWrite d n v inc s := rfl
@[simp] theorem exec_freezePin (d : DieId) (s : State) : exec (.freezePin d) s = execFreezePin d s := rfl
@[simp] theorem exec_freezeGo (d : DieId) (partner : Bool) (s : State) : exec (.freezeGo d partner) s = execFreezeGo d partner s := rfl
@[simp] theorem exec_freezeRequest (d : DieId) (cause : BitVec 2) (s : State) : exec (.freezeRequest d cause) s = execFreezeRequest d cause s := rfl
@[simp] theorem exec_fenceWaitTimeout (d : DieId) (s : State) : exec (.fenceWaitTimeout d) s = execFenceWaitTimeout d s := rfl
@[simp] theorem exec_domainClose (d : DieId) (dom : Dom) (s : State) : exec (.domainClose d dom) s = execDomainClose d dom s := rfl
@[simp] theorem exec_domainForceClose (d : DieId) (dom : Dom) (s : State) : exec (.domainForceClose d dom) s = execDomainForceClose d dom s := rfl
@[simp] theorem exec_readoutStatus (d : DieId) (s : State) : exec (.readoutStatus d) s = execReadoutStatus d s := rfl
@[simp] theorem exec_readoutChaininfo (d : DieId) (id : Byte) (s : State) : exec (.readoutChaininfo d id) s = execReadoutChaininfo d id s := rfl
@[simp] theorem exec_readoutChain (d : DieId) (id : Byte) (addr : Word) (count : BitVec 16) (s : State) : exec (.readoutChain d id addr count) s = execReadoutChain d id addr count s := rfl
@[simp] theorem exec_readoutMem (d : DieId) (id : Byte) (addr : Word) (count : BitVec 16) (s : State) : exec (.readoutMem d id addr count) s = execReadoutMem d id addr count s := rfl
@[simp] theorem exec_readoutLog (d : DieId) (addr : Word) (count : BitVec 16) (s : State) : exec (.readoutLog d addr count) s = execReadoutLog d addr count s := rfl
@[simp] theorem exec_thaw (d : DieId) (s : State) : exec (.thaw d) s = execThaw d s := rfl
@[simp] theorem exec_readoutReset (d : DieId) (s : State) : exec (.readoutReset d) s = execReadoutReset d s := rfl
@[simp] theorem exec_blockLockGained (d : DieId) (x : LockGain) (s : State) : exec (.blockLockGained d x) s = execBlockLockGained d x s := rfl
@[simp] theorem exec_sideWckLoss (d : DieId) (s : State) : exec (.sideWckLoss d) s = execSideWckLoss d s := rfl
@[simp] theorem exec_splitStart (d : DieId) (s : State) : exec (.splitStart d) s = execSplitStart d s := rfl
@[simp] theorem exec_wckOutFall (d : DieId) (s : State) : exec (.wckOutFall d) s = execWckOutFall d s := rfl
@[simp] theorem exec_partnerDwnRelease (d : DieId) (s : State) : exec (.partnerDwnRelease d) s = execPartnerDwnRelease d s := rfl
@[simp] theorem exec_environmentCall (d : DieId) (n : Fin 4) (isBreak : Bool) (comp : Bool) (s : State) : exec (.environmentCall d n isBreak comp) s = execEnvironmentCall d n isBreak comp s := rfl

/-- A step with a command at the front runs it with the rest of the queue. -/
theorem step_cons (s : State) (c : Instr) (rest : List Instr) (h : s.pending = c :: rest) :
    step s = exec c { s with pending := rest } := by
  unfold step; rw [h]

/-- A step on an empty queue. -/
theorem step_nil (s : State) (h : s.pending = []) : step s = .next s.idle := by
  unfold step; rw [h]

end Sys2Proof.Machine
end

