-- ==== Sys2Proof/Laws/Map.lean ====
section
/-! SUPPORT. Sparse maps and bit fields: a read after a write, and the canonical form that every write keeps. -/

namespace Sys2Proof

variable {α : Type}

/-- Nothing below the bound of a rising map is listed. -/
theorem SMap.get_below {dflt : Nat → α} {lo : Nat} {m : SMap α} (h : SMap.rising lo m = true) {k : Nat} (hk : k < lo) :
    SMap.get dflt m k = dflt k := by
  induction m generalizing lo with
  | nil => rfl
  | cons p m ih =>
    obtain ⟨j, v⟩ := p
    simp only [SMap.rising, Bool.and_eq_true, decide_eq_true_eq] at h
    have : ¬ j = k := by omega
    simp only [SMap.get, this, if_false]
    exact ih h.2 (by omega)

/-- A weaker bound. -/
theorem SMap.rising_mono {lo lo' : Nat} {m : SMap α} (h : SMap.rising lo m = true) (hl : lo' ≤ lo) :
    SMap.rising lo' m = true := by
  cases m with
  | nil => rfl
  | cons p m =>
    simp only [SMap.rising, Bool.and_eq_true, decide_eq_true_eq] at h ⊢
    exact ⟨by omega, h.2⟩

/-- Inserting keeps the addresses rising. -/
theorem SMap.rising_insert {lo : Nat} {m : SMap α} {k : Nat} {v : α} (h : SMap.rising lo m = true) (hk : lo ≤ k) :
    SMap.rising lo (SMap.insert m k v) = true := by
  induction m generalizing lo with
  | nil => simp [SMap.insert, SMap.rising, hk]
  | cons p m ih =>
    obtain ⟨j, w⟩ := p
    simp only [SMap.rising, Bool.and_eq_true, decide_eq_true_eq] at h
    simp only [SMap.insert]
    split
    · next hlt => simp [SMap.rising, hk, h.2, Nat.succ_le_of_lt hlt]
    · next hge =>
      split
      · next he => subst he; simp [SMap.rising, hk, h.2]
      · next hne =>
        simp only [SMap.rising, Bool.and_eq_true, decide_eq_true_eq]
        exact ⟨h.1, ih h.2 (by omega)⟩

/-- Erasing keeps the addresses rising. -/
theorem SMap.rising_erase {lo : Nat} {m : SMap α} {k : Nat} (h : SMap.rising lo m = true) :
    SMap.rising lo (SMap.erase m k) = true := by
  induction m generalizing lo with
  | nil => rfl
  | cons p m ih =>
    obtain ⟨j, w⟩ := p
    simp only [SMap.rising, Bool.and_eq_true, decide_eq_true_eq] at h
    simp only [SMap.erase]
    split
    · exact SMap.rising_mono (ih h.2) (by omega)
    · simp only [SMap.rising, Bool.and_eq_true, decide_eq_true_eq]
      exact ⟨h.1, ih h.2⟩

/-- Filtering keeps the addresses rising. -/
theorem SMap.rising_filter {lo : Nat} {m : SMap α} (f : Nat × α → Bool) (h : SMap.rising lo m = true) :
    SMap.rising lo (m.filter f) = true := by
  induction m generalizing lo with
  | nil => rfl
  | cons p m ih =>
    obtain ⟨j, w⟩ := p
    simp only [SMap.rising, Bool.and_eq_true, decide_eq_true_eq] at h
    simp only [List.filter_cons]
    split
    · simp only [SMap.rising, Bool.and_eq_true, decide_eq_true_eq]
      exact ⟨h.1, ih h.2⟩
    · exact SMap.rising_mono (ih h.2) (by omega)

/-- Reading after inserting. -/
theorem SMap.get_insert (dflt : Nat → α) (m : SMap α) (k : Nat) (v : α) (j : Nat) :
    SMap.get dflt (SMap.insert m k v) j = if k = j then v else SMap.get dflt m j := by
  induction m with
  | nil => simp [SMap.insert, SMap.get]
  | cons p m ih =>
    obtain ⟨i, w⟩ := p
    simp only [SMap.insert]
    split
    · simp [SMap.get]
    · split
      · next he => subst he; simp only [SMap.get]; split <;> simp_all
      · next hne =>
        simp only [SMap.get, ih]
        split
        · next hij => subst hij; simp [Ne.symm hne]
        · rfl

/-- Reading after erasing. -/
theorem SMap.get_erase (dflt : Nat → α) (m : SMap α) (k j : Nat) :
    SMap.get dflt (SMap.erase m k) j = if k = j then dflt j else SMap.get dflt m j := by
  induction m with
  | nil => simp [SMap.erase, SMap.get]
  | cons p m ih =>
    obtain ⟨i, w⟩ := p
    simp only [SMap.erase]
    split
    · next he =>
      subst he
      rw [ih]
      split
      · rfl
      · next hj => simp [SMap.get, hj]
    · next hne =>
      simp only [SMap.get, ih]
      split
      · next hij => subst hij; simp [Ne.symm hne]
      · rfl

/-! ### Vectors -/

@[simp] theorem vupd_get_self {n : Nat} (v : Vector α n) (i : Fin n) (f : α → α) : (vupd v i f)[i] = f v[i] := by
  simp [vupd]

theorem vupd_get_other {n : Nat} (v : Vector α n) (i j : Fin n) (f : α → α) (h : i ≠ j) : (vupd v i f)[j] = v[j] := by
  have : i.val ≠ j.val := fun hv => h (Fin.ext hv)
  simp [vupd, this]

/-! ### Canonical form -/

theorem SMap.mem_insert {m : SMap α} {k : Nat} {v : α} {p : Nat × α} (h : p ∈ SMap.insert m k v) : p = (k, v) ∨ p ∈ m := by
  induction m with
  | nil => simpa [SMap.insert] using h
  | cons q m ih =>
    obtain ⟨i, w⟩ := q
    simp only [SMap.insert] at h
    split at h
    · simpa using h
    · split at h
      · rcases List.mem_cons.1 h with h | h
        · exact .inl h
        · exact .inr (List.mem_cons_of_mem _ h)
      · rcases List.mem_cons.1 h with h | h
        · exact .inr (by simp [h])
        · rcases ih h with h | h
          · exact .inl h
          · exact .inr (List.mem_cons_of_mem _ h)

theorem SMap.mem_erase {m : SMap α} {k : Nat} {p : Nat × α} (h : p ∈ SMap.erase m k) : p ∈ m := by
  induction m with
  | nil => simp [SMap.erase] at h
  | cons q m ih =>
    obtain ⟨i, w⟩ := q
    simp only [SMap.erase] at h
    split at h
    · exact List.mem_cons_of_mem _ (ih h)
    · rcases List.mem_cons.1 h with h | h
      · simp [h]
      · exact List.mem_cons_of_mem _ (ih h)

variable [DecidableEq α]

/-- A read after a write. -/
theorem SMap.get_set (dflt : Nat → α) (m : SMap α) (k : Nat) (v : α) (j : Nat) :
    SMap.get dflt (SMap.set dflt m k v) j = if k = j then v else SMap.get dflt m j := by
  unfold SMap.set
  split
  · next hv =>
    rw [SMap.get_erase]
    split
    · next hk => subst hk; exact hv.symm
    · rfl
  · exact SMap.get_insert ..

/-- What the canonical form says of each entry. -/
theorem SMap.wf_iff {dflt : Nat → α} {m : SMap α} :
    SMap.wf dflt m = true ↔ SMap.rising 0 m = true ∧ ∀ p ∈ m, p.2 ≠ dflt p.1 := by
  simp [SMap.wf]

/-- A write keeps the canonical form. -/
theorem SMap.wf_set {dflt : Nat → α} {m : SMap α} (h : SMap.wf dflt m = true) (k : Nat) (v : α) :
    SMap.wf dflt (SMap.set dflt m k v) = true := by
  rw [SMap.wf_iff] at h ⊢
  unfold SMap.set
  split
  · exact ⟨SMap.rising_erase h.1, fun p hp => h.2 p (SMap.mem_erase hp)⟩
  · next hv =>
    refine ⟨SMap.rising_insert h.1 (Nat.zero_le k), fun p hp => ?_⟩
    rcases SMap.mem_insert hp with rfl | hp
    · exact hv
    · exact h.2 p hp

/-- Filtering keeps the canonical form. -/
theorem SMap.wf_filter {dflt : Nat → α} {m : SMap α} (f : Nat × α → Bool) (h : SMap.wf dflt m = true) :
    SMap.wf dflt (m.filter f) = true := by
  rw [SMap.wf_iff] at h ⊢
  exact ⟨SMap.rising_filter f h.1, fun p hp => h.2 p (List.mem_filter.1 hp).1⟩

/-- The empty map has the canonical form. -/
@[simp] theorem SMap.wf_nil {dflt : Nat → α} : SMap.wf dflt ([] : SMap α) = true := rfl

end Sys2Proof
end

