-- ==== Sys2Proof/Laws/Reg.lean ====
section
/-! SUPPORT. Registers and their fields: what a read gives after a write. -/

namespace Sys2Proof.Machine

/-- A register's field lies in its 32 bits. -/
def Fld.fits (f : Fld) : Prop := f.lo + f.w ≤ 32


theorem bitsOf_lt (v lo w : Nat) : bitsOf v lo w < 2 ^ w := Nat.mod_lt _ (Nat.two_pow_pos w)

theorem bitsOf_testBit (v lo w i : Nat) : (bitsOf v lo w).testBit i = (decide (i < w) && v.testBit (lo + i)) := by
  rw [bitsOf, Nat.testBit_mod_two_pow, Nat.testBit_div_two_pow, Nat.add_comm i lo]

/-- What `insBits` does to a number's parts: below, inside and above the field. -/
theorem insBits_eq (n lo w v : Nat) :
    insBits n lo w v = n % 2 ^ lo + (v % 2 ^ w) * 2 ^ lo + n / 2 ^ (lo + w) * 2 ^ (lo + w) := by
  unfold insBits bitsOf
  have h1 := Nat.div_add_mod n (2 ^ lo)
  have h2 := Nat.div_add_mod (n / 2 ^ lo) (2 ^ w)
  rw [Nat.div_div_eq_div_mul, ← Nat.pow_add] at h2
  generalize hq : n / 2 ^ lo = q at *
  generalize hr : n / 2 ^ (lo + w) = r at *
  generalize hm : q % 2 ^ w = m at *
  have e1 : n = 2 ^ lo * (2 ^ w * r + m) + n % 2 ^ lo := by rw [h2]; exact h1.symm
  have e2 : 2 ^ lo * (2 ^ w * r + m) = r * 2 ^ (lo + w) + m * 2 ^ lo := by
    rw [Nat.pow_add]; ring
  rw [Nat.pow_add] at *
  have e3 : n = r * (2 ^ lo * 2 ^ w) + m * 2 ^ lo + n % 2 ^ lo := by rw [← e2]; exact e1
  omega

theorem insBits_testBit (n lo w v i : Nat) :
    (insBits n lo w v).testBit i =
      if i < lo then n.testBit i else if i < lo + w then v.testBit (i - lo) else n.testBit i := by
  have hlt : n % 2 ^ lo + v % 2 ^ w * 2 ^ lo < 2 ^ (lo + w) := by
    have h1 := Nat.mod_lt n (Nat.two_pow_pos lo)
    have h2 := Nat.mod_lt v (Nat.two_pow_pos w)
    rw [Nat.pow_add]
    have h3 : (v % 2 ^ w + 1) * 2 ^ lo ≤ 2 ^ w * 2 ^ lo := Nat.mul_le_mul_right _ h2
    rw [Nat.mul_comm (2 ^ lo)]
    linarith
  rw [insBits_eq, show n % 2 ^ lo + v % 2 ^ w * 2 ^ lo + n / 2 ^ (lo + w) * 2 ^ (lo + w)
    = 2 ^ (lo + w) * (n / 2 ^ (lo + w)) + (n % 2 ^ lo + v % 2 ^ w * 2 ^ lo) by ring]
  rw [Nat.testBit_two_pow_mul_add _ hlt]
  rw [show n % 2 ^ lo + v % 2 ^ w * 2 ^ lo = 2 ^ lo * (v % 2 ^ w) + n % 2 ^ lo by ring]
  rw [Nat.testBit_two_pow_mul_add _ (Nat.mod_lt n (Nat.two_pow_pos lo))]
  rw [Nat.testBit_mod_two_pow, Nat.testBit_mod_two_pow, Nat.testBit_div_two_pow]
  by_cases h1 : i < lo
  · have : i < lo + w := by omega
    simp [h1, this]
  · by_cases h2 : i < lo + w
    · have : i - lo < w := by omega
      simp [h1, h2, this]
    · have : i - (lo + w) + (lo + w) = i := by omega
      simp [h1, h2, this]

/-- A field reads what was put into it. -/
theorem bitsOf_insBits_self (n lo w v : Nat) : bitsOf (insBits n lo w v) lo w = v % 2 ^ w := by
  apply Nat.eq_of_testBit_eq
  intro i
  rw [bitsOf_testBit, insBits_testBit, Nat.testBit_mod_two_pow]
  by_cases h : i < w
  · have h1 : ¬ lo + i < lo := by omega
    have h2 : lo + i < lo + w := by omega
    simp [h, h1]
  · simp [h]

/-- A disjoint field keeps its value. -/
theorem bitsOf_insBits_other (n lo w v lo' w' : Nat) (h : lo' + w' ≤ lo ∨ lo + w ≤ lo') :
    bitsOf (insBits n lo w v) lo' w' = bitsOf n lo' w' := by
  apply Nat.eq_of_testBit_eq
  intro i
  rw [bitsOf_testBit, bitsOf_testBit, insBits_testBit]
  by_cases hi : i < w'
  · rcases h with h | h
    · have : lo' + i < lo := by omega
      simp [this]
    · have h1 : ¬ lo' + i < lo := by omega
      have h2 : ¬ lo' + i < lo + w := by omega
      simp [h1, h2]
  · simp [hi]

/-- A number of 32 bits stays one. -/
theorem insBits_lt (n lo w v : Nat) (hn : n < 2 ^ 32) (h : lo + w ≤ 32) : insBits n lo w v < 2 ^ 32 := by
  apply Nat.lt_pow_two_of_testBit
  intro i hi
  rw [insBits_testBit]
  have h1 : ¬ i < lo := by omega
  have h2 : ¬ i < lo + w := by omega
  simp only [h1, h2, if_false]
  exact Nat.testBit_lt_two_pow (Nat.lt_of_lt_of_le hn (Nat.pow_le_pow_right (by omega) hi))

/-- A register reads what was written to it, and every other keeps its value. -/
theorem Die.reg_setReg (e : Die) (a : Nat) (v : Word) (b : Nat) : (e.setReg a v).reg b = if a = b then v else e.reg b :=
  SMap.get_set regReset _ a v b

/-- Writes keep the register map canonical. -/
theorem Die.regsWf_setReg {e : Die} (h : e.regsWf = true) (a : Nat) (v : Word) : (e.setReg a v).regsWf = true := SMap.wf_set h a v

theorem Die.regsWf_setFld {e : Die} (h : e.regsWf = true) (f : Fld) (v : Nat) : (e.setFld f v).regsWf = true := SMap.wf_set h _ _

/-- A field reads what was written to it. -/
@[simp] theorem Die.fld_setFld_self (e : Die) (f : Fld) (hf : f.fits) (v : Nat) :
    (e.setFld f v).fld f = v % 2 ^ f.w := by
  unfold Die.setFld Die.setRegN Die.fld
  rw [Die.reg_setReg, if_pos rfl, BitVec.toNat_ofNat, Nat.mod_eq_of_lt, bitsOf_insBits_self]
  exact insBits_lt _ _ _ _ (e.reg f.addr).isLt hf

/-- A field of another register, or a disjoint one of the same, keeps its value. -/
theorem Die.fld_setFld_other (e : Die) (f g : Fld) (hf : f.fits) (v : Nat)
    (hd : g.addr ≠ f.addr ∨ g.lo + g.w ≤ f.lo ∨ f.lo + f.w ≤ g.lo) : (e.setFld f v).fld g = e.fld g := by
  unfold Die.setFld Die.setRegN Die.fld
  rw [Die.reg_setReg]
  split
  · next he =>
    rw [he] at hd
    have hlt : insBits (e.regN f.addr) f.lo f.w v < 2 ^ 32 := insBits_lt _ _ _ _ (e.reg f.addr).isLt hf
    rw [BitVec.toNat_ofNat, Nat.mod_eq_of_lt hlt,
      bitsOf_insBits_other _ _ _ _ _ _ (hd.resolve_left fun hn => hn rfl), Die.regN, he]
  · rfl

end Sys2Proof.Machine
end

