-- ==== Sys2Proof/Laws/Ops.lean ====
section
/-! SUPPORT. What the shared operations of the blocks can do: counting, raising an interrupt bit, logging an event, an error
response. -/

namespace Sys2Proof.Machine

variable (e : Die)

/-- Counting touches the registers alone, and keeps them canonical. -/
theorem Die.count_spec (f : Fld) (n : Nat) :
    ∃ r, e.count f n = { e with regs := r } ∧ (e.regsWf = true → SMap.wf regReset r = true) := by
  unfold Die.count
  split
  · exact ⟨e.regs, rfl, fun h => h⟩
  · exact ⟨_, rfl, fun h => Die.regsWf_setFld h _ _⟩

/-- Raising a bit touches the registers alone, and keeps them canonical. -/
theorem Die.raise_spec (f : Fld) (b : Bool) :
    ∃ r, e.raise f b = { e with regs := r } ∧ (e.regsWf = true → SMap.wf regReset r = true) := by
  unfold Die.raise
  split
  · exact ⟨_, rfl, fun h => Die.regsWf_setFld h _ _⟩
  · exact ⟨e.regs, rfl, fun h => h⟩

/-- A move of the GPIO balls does what it does to the die, and beside that touches the registers and what CTL, standing still,
last sampled (R26, R400). -/
theorem Die.gpioMove_spec (f : Die → Die) :
    ∃ r o, e.gpioMove f = { f e with
      regs := r
      misc := { (f e).misc with stood := o } } ∧ ((f e).regsWf = true → SMap.wf regReset r = true) := by
  unfold Die.gpioMove
  dsimp only
  split
  · exact ⟨_, _, rfl, fun h => Die.regsWf_setFld h _ _⟩
  · exact ⟨(f e).regs, _, rfl, fun h => h⟩

/-- Driving the joined balls, or releasing them, touches that beside what any move of the balls touches (R280, R400). -/
theorem Die.drive_spec (b : Bool) :
    ∃ r o, e.drive b = { e with
      regs := r
      misc := { e.misc with stood := o }
      pair := { e.pair with driving := b } } ∧ (e.regsWf = true → SMap.wf regReset r = true) :=
  e.gpioMove_spec _

/-- A record that meets the queue touches the registers and the recorder alone: it enters, or its event is missed. -/
theorem Die.logQueue_spec (q : LogRec) :
    ∃ r l, e.logQueue q = { e with
      regs := r
      log := l } ∧ (e.regsWf = true → SMap.wf regReset r = true) ∧
      (l.queue = e.log.queue ∨ l.queue = e.log.queue ++ [q]) := by
  unfold Die.logQueue
  split
  · obtain ⟨r, hr, hw⟩ := e.count_spec (F.LOG_MISSED_COUNT q.cls) 1
    exact ⟨r, { e.log with owed := true }, by rw [hr], hw, .inl rfl⟩
  · exact ⟨e.regs, _, rfl, fun h => h, .inr rfl⟩

/-- An event touches the registers and the recorder alone: it is queued, or gathered with the others of its KEEP cycle, or
counted as missed, or (KEEP standing) lost. -/
theorem Die.logEv_spec (cls code x y z : Nat) :
    ∃ r l, e.logEv cls code x y z = { e with
      regs := r
      log := l } ∧ (e.regsWf = true → SMap.wf regReset r = true) ∧
      (l.queue = e.log.queue ∨ l.queue = e.log.queue ++ [e.record cls code x y z]) := by
  unfold Die.logEv
  split
  · exact ⟨e.regs, e.log, rfl, fun h => h, .inl rfl⟩
  · split
    · obtain ⟨r, hr, hw⟩ := e.count_spec (F.LOG_MISSED_COUNT cls) 1
      exact ⟨r, e.log, by rw [hr], hw, .inl rfl⟩
    · split
      · exact ⟨e.regs, _, rfl, fun h => h, .inl rfl⟩
      · exact e.logQueue_spec _

/-- An error response touches the registers, the master's request and its answer alone. -/
theorem Die.busError_spec (m : BitVec 3) (w : Bool) (c : Nat) (a : Word) :
    ∃ r, e.busError m w c a = { e.served m with
      regs := r
      resp := e.resp.set m.toNat ⟨0, true⟩ m.isLt } ∧ (e.regsWf = true → SMap.wf regReset r = true) := by
  unfold Die.busError
  dsimp only
  split
  · exact ⟨e.regs, rfl, fun h => h⟩
  · refine ⟨SMap.set regReset (SMap.set regReset (e.setFld F.XBR_IRQ_ERR 1).regs R.XBR_ERRADDR a) R.XBR_ERRID _, rfl,
      fun h => SMap.wf_set (SMap.wf_set (Die.regsWf_setFld h _ _) _ _) _ _⟩

/-- Putting a record among others in order loses none of them. -/
theorem recInsert_length (r : LogRec) (t : List LogRec) : (recInsert r t).length = t.length + 1 := by
  induction t with
  | nil => rfl
  | cons q qs ih =>
    unfold recInsert
    split
    · rfl
    · simp [ih]

/-- The records gathered in a KEEP cycle touch the registers and the recorder alone as they enter (R434). -/
theorem Die.logInOrder_spec :
    ∃ r l, e.logInOrder = { e with
      regs := r
      log := l } := by
  have fold : ∀ (t : List LogRec) (x : Die), ∃ r l, t.foldl Die.logQueue x = { x with
      regs := r
      log := l } := by
    intro t
    induction t with
    | nil => exact fun x => ⟨x.regs, x.log, rfl⟩
    | cons q t ih =>
      intro x
      obtain ⟨r, l, h, -⟩ := x.logQueue_spec q
      obtain ⟨r', l', h'⟩ := ih (x.logQueue q)
      exact ⟨r', l', by rw [List.foldl_cons, h', h]⟩
  obtain ⟨r, l, h⟩ := fold ((e.log.gathered.getD []).foldl (fun t r => recInsert r t) [])
    { e with log := { e.log with gathered := none } }
  exact ⟨r, l, by rw [Die.logInOrder, h]⟩

end Sys2Proof.Machine
end

