-- ==== Sys2Proof/Laws/Mem.lean ====
section
/-! SUPPORT. The memories: a byte read after a write, and the canonical form that every operation keeps. -/

namespace Sys2Proof.Machine

/-! ### BANK0 to BANK3 and SHARED -/

/-- Both maps of a memory in canonical form are so. -/
theorem Mem.wf_iff {m : Mem} :
    m.wf = true ↔ SMap.wf byteDflt m.bytes = true ∧ SMap.wf (fun _ => (0 : BitVec 2)) m.bad = true := by
  simp [Mem.wf]

/-- The memory at reset is in canonical form. -/
@[simp] theorem Mem.wf_reset : Mem.reset.wf = true := rfl

/-- A store leaves the marks alone. -/
@[simp] theorem Mem.store_bad (m : Mem) (a v n : Nat) : (m.store a v n).bad = m.bad := by
  induction n generalizing m a v with
  | zero => rfl
  | succ n ih => exact ih ..

/-- A store keeps the canonical form. -/
theorem Mem.wf_store {m : Mem} (h : m.wf = true) (a v n : Nat) : (m.store a v n).wf = true := by
  induction n generalizing m a v with
  | zero => exact h
  | succ n ih =>
    rw [Mem.wf_iff] at h
    have hm : ({ m with bytes := SMap.set byteDflt m.bytes a (BitVec.ofNat 8 v) } : Mem).wf = true :=
      Mem.wf_iff.2 ⟨SMap.wf_set h.1 .., h.2⟩
    exact ih hm ..

/-- A mark keeps the canonical form. -/
theorem Mem.wf_setMark {m : Mem} (h : m.wf = true) (a : Nat) (v : BitVec 2) : (m.setMark a v).wf = true := by
  rw [Mem.wf_iff] at h ⊢
  exact ⟨h.1, SMap.wf_set h.2 ..⟩

/-- A write keeps the canonical form. -/
theorem Mem.wf_write {m : Mem} (h : m.wf = true) (a v n : Nat) : (m.write a v n).wf = true := by
  unfold Mem.write
  split
  · exact Mem.wf_setMark (Mem.wf_store h ..) ..
  · exact Mem.wf_store h ..

/-- A byte after a store: byte `b - a` of the number where `b` lies in the bytes stored, else as before. -/
theorem Mem.get_store (m : Mem) (a v n b : Nat) :
    SMap.get byteDflt (m.store a v n).bytes b =
      if a ≤ b ∧ b < a + n then BitVec.ofNat 8 (v / 256 ^ (b - a)) else SMap.get byteDflt m.bytes b := by
  induction n generalizing m a v with
  | zero =>
    have : ¬ (a ≤ b ∧ b < a + 0) := by omega
    rw [Mem.store, if_neg this]
  | succ n ih =>
    rw [Mem.store, ih, SMap.get_set]
    by_cases hb : b = a
    · subst hb
      simp
    · have h1 : ¬ a = b := fun h => hb h.symm
      simp only [h1, if_false]
      by_cases hin : a + 1 ≤ b ∧ b < a + 1 + n
      · have h2 : a ≤ b ∧ b < a + (n + 1) := by omega
        simp only [hin, h2, and_self, if_true, Nat.div_div_eq_div_mul]
        congr 2
        rw [show b - a = (b - (a + 1)) + 1 by omega, Nat.pow_succ, Nat.mul_comm]
      · have h2 : ¬ (a ≤ b ∧ b < a + (n + 1)) := by omega
        simp only [hin, h2, if_false]

/-- A read of the memory keeps the canonical form of the memory. -/
theorem Die.memRead_wf {e : Die} (h : e.mem.wf = true) (m a n : Nat) (err : Option EccKind) :
    (e.memRead m a n err).2.mem.wf = true := by
  unfold Die.memRead
  dsimp only
  generalize max (e.mem.mark a).toNat _ = k
  split
  · exact h
  · exact Mem.wf_setMark h ..
  · obtain ⟨r, l, hl, -⟩ := Die.logEv_spec (((({ e with mem := e.mem.setMark a 2 } : Die).count F.XBR_ECC_DBE 1).setFld
      F.XBR_IRQ_ECC2 1)) 5 5 a m 0
    rw [hl]
    exact Mem.wf_setMark h ..

/-- A write of the memory keeps its canonical form. -/
theorem Die.memWrite_wf {e : Die} (h : e.mem.wf = true) (a v n : Nat) : (e.memWrite a v n).mem.wf = true :=
  Mem.wf_write h ..

/-! ### The yard and the tiles of a course -/

/-- A row put into the yard, with its marks, keeps the canonical form of its rows and marks. -/
theorem Yard.putRowAt_wf {y : Yard} (h : SMap.wf rowDflt y.rows = true) (hb : SMap.wf markDflt y.bad = true) (key : Nat)
    (v : Row) (marks : BitVec 8) :
    SMap.wf rowDflt (y.putRowAt key v marks).rows = true ∧ SMap.wf markDflt (y.putRowAt key v marks).bad = true := by
  unfold Yard.putRowAt
  dsimp only
  split
  · exact ⟨h, SMap.wf_set hb key marks⟩
  · exact ⟨SMap.wf_set h key v, SMap.wf_set hb key marks⟩

/-- The tiles of a course are in canonical form. -/
def Course.tilesWf (x : Course) : Prop :=
  ∀ t ∈ [x.x, x.y, x.zFront, x.zBack, x.ringIn, x.entryEng, x.exitWork], SMap.wf rowDflt t = true

/-- A row written into a tile keeps the canonical form of the tiles. -/
theorem Course.setTileRow_wf {x : Course} (h : x.tilesWf) (t row : Nat) (v : Row) : (x.setTileRow t row v).tilesWf := by
  unfold Course.tilesWf at *
  simp only [List.mem_cons, List.not_mem_nil, or_false, forall_eq_or_imp, forall_eq] at *
  obtain ⟨h1, h2, h3, h4, h5, h6, h7⟩ := h
  unfold Course.setTileRow
  dsimp only
  split <;> simp only [h1, h2, h3, h4, h5, h6, h7, and_self, SMap.wf_set]

end Sys2Proof.Machine
end

