-- ==== Sys2Proof/Machine/Balls.lean ====
section
/-! DEFINITION. The balls of the package: their places, types and pulls (R459 to R465), what a die puts on those that show a
level of its state, and the order of the supplies (R429, R466 to R471). -/

namespace Sys2Proof.Machine

/-- The signal balls of a die (R461, R463). -/
inductive Signal
  | sapBck (p : Fin 8)
  | sapFs (p : Fin 8)
  | sapDin (p : Fin 8)
  | sapDout (p : Fin 8)
  | smck (side : Bool)
  | mcko (side : Bool)
  | gpio (i : Fin 16)
  | midiRx (u : Fin 2)
  | midiTx
  | cvClrN
  | cvMid
  | cv (n : Fin 16)
  | tx (p : PortId) (positive : Bool)
  | rx (p : PortId) (positive : Bool)
  | txdis (p : PortId)
  | los (p : PortId)
  | modabs (p : PortId)
  | txflt (p : PortId)
  | i2cScl (n : Fin 2)
  | i2cSda (n : Fin 2)
  | xckIn | hoxIn | ref10In | todIn | sideWck | wckIn | wckOut | ppsIn | ppsOut
  | flSck | flCsN | flRstN
  | flIo (i : Fin 8)
  | tdiode (positive : Bool)
  | resetN | plugN | alertN | frzN
  | bootw | clrsel | role1 | role0 | keepsrc
  | rdck | rdi | rdo | rdsel
  deriving DecidableEq, Repr

/-- What a ball is. -/
inductive Ball
  | supply (r : Rail)
  | vss
  | vssa
  | dnc
  | signal (s : Signal)
  deriving DecidableEq, Repr

/-- The names of the rows by index: the letters I, O, Q, R, S, X and Z are not used (R460). -/
def rowNames : List String :=
  ["A", "B", "C", "D", "E", "F", "G", "H", "J", "K", "L", "M", "N", "P", "T", "U", "V", "W", "Y", "AA",
    "AB", "AC", "AD", "AE", "AF", "AG", "AH", "AJ", "AK", "AL", "AM", "AN", "AP", "AT", "AU", "AV", "AW", "AY", "BA", "BB",
    "BC", "BD"]

/-- Column 1 of die A: the SAP ports, five rows each, and the master clock inputs (R461). -/
def ballCol1 (row : Nat) : Ball :=
  let p : Fin 8 := Fin.ofNat 8 (row / 5)
  if row = 40 then .signal (.smck false)
  else if row = 41 then .signal (.smck true)
  else match row % 5 with
    | 0 => .signal (.sapBck p)
    | 1 => .signal (.sapFs p)
    | 2 => .signal (.sapDin p)
    | 3 => .signal (.sapDout p)
    | _ => .vss

/-- Column 2 of die A: the master clock outputs, GPIO, MIDI and the CV outputs (R461). -/
def ballCol2 (row : Nat) : Ball :=
  match row with
  | 0 => .signal (.mcko false)
  | 1 => .signal (.mcko true)
  | 2 => .vss
  | 19 => .signal (.midiRx 0)
  | 20 => .signal (.midiRx 1)
  | 21 => .signal .midiTx
  | 22 => .vss
  | 23 => .signal .cvClrN
  | 24 => .vssa
  | 25 => .signal .cvMid
  | row => if row < 19 then .signal (.gpio (Fin.ofNat 16 (row - 3))) else .signal (.cv (Fin.ofNat 16 (row - 26)))

/-- The row of a chain port, A or BD, from column 4 on: the lanes, the module's lines and the port's I2C bus (R461). -/
def ballPort (p : PortId) (col : Nat) : Ball :=
  match col with
  | 5 => .signal (.tx p true)
  | 6 => .signal (.tx p false)
  | 8 => .signal (.rx p true)
  | 9 => .signal (.rx p false)
  | 11 => .signal (.txdis p)
  | 12 => .signal (.los p)
  | 13 => .signal (.modabs p)
  | 14 => .signal (.txflt p)
  | 15 => .signal (.i2cScl ⟨p.idx, by cases p <;> decide⟩)
  | 16 => .signal (.i2cSda ⟨p.idx, by cases p <;> decide⟩)
  | _ => .vss

/-- Row A of die A from column 4 on (R461). -/
def ballRowA (col : Nat) : Ball :=
  match col with
  | 18 => .signal .xckIn
  | 20 => .signal .hoxIn
  | col => ballPort .n col

/-- Row BD of die A from column 4 on (R461). -/
def ballRowBD (col : Nat) : Ball :=
  match col with
  | 18 => .signal .wckIn
  | 19 => .signal .wckOut
  | 20 => .signal .ppsIn
  | 21 => .signal .ppsOut
  | col => ballPort .s col

/-- Row B of die A from column 4 on: the flash and the reference inputs (R461). -/
def ballRowB (col : Nat) : Ball :=
  match col with
  | 4 => .signal .flSck
  | 5 => .vss
  | 6 => .signal .flCsN
  | 7 => .signal .flRstN
  | 16 => .signal .ref10In
  | 17 => .signal .todIn
  | 18 => .signal .sideWck
  | 19 => .signal (.tdiode true)
  | 20 => .signal (.tdiode false)
  | 21 => .dnc
  | col => .signal (.flIo (Fin.ofNat 8 (col - 8)))

/-- Row BC of die A from column 4 on: the control balls, the straps and the read-out port (R461). -/
def ballRowBC (col : Nat) : Ball :=
  match col with
  | 4 => .signal .resetN
  | 5 => .signal .plugN
  | 6 => .signal .alertN
  | 7 => .signal .frzN
  | 8 => .signal .bootw
  | 9 => .signal .clrsel
  | 10 => .signal .role1
  | 11 => .signal .role0
  | 12 => .signal .keepsrc
  | 13 => .signal .rdck
  | 14 => .signal .rdi
  | 15 => .signal .rdo
  | 16 => .signal .rdsel
  | _ => .dnc

/-- The supplies of columns 3 to 21 of the rows between; VSS everywhere else (R461). -/
def ballField (row col : Nat) : Ball :=
  if col = 3 then if 26 ≤ row then (if row % 2 = 0 then .supply .vcv else .vssa) else .vss
  else if col = 4 then
    if row % 2 = 0 ∧ 2 ≤ row ∧ row ≤ 36 then .supply .vio18
    else if row % 2 = 1 ∧ 3 ≤ row ∧ row ≤ 25 then .supply .vio33
    else .vss
  else if (col = 5 ∨ col = 6 ∨ col = 8 ∨ col = 9) ∧ (row = 2 ∨ row = 3 ∨ row = 38 ∨ row = 39) then .supply .vser
  else if row = 2 ∧ 11 ≤ col ∧ col ≤ 16 then .supply .vio18
  else if row = 3 ∧ 15 ≤ col then .vssa
  else if (row = 4 ∨ row = 5) ∧ 16 ≤ col then .supply .vana
  else if 12 ≤ col ∧ 6 ≤ row ∧ row ≤ 37 ∧ (row + col) % 2 = 0 then .supply .vcore
  else .vss

/-- Die A's ball in row index `row`, 0 to 41, and column `col`, 1 to 21 (R461). -/
def ballA (row col : Nat) : Ball :=
  if col = 1 then ballCol1 row
  else if col = 2 then ballCol2 row
  else if col = 3 then ballField row col
  else match row with
    | 0 => ballRowA col
    | 1 => ballRowB col
    | 40 => ballRowBC col
    | 41 => ballRowBD col
    | row => ballField row col

/-- The die that owns a place of the field, rows 0 to 41 and columns 1 to 42, and what the ball is: die B's half is the mirror
image of die A's (R459, R462). -/
def ballAt (row col : Nat) : Option (DieId × Ball) :=
  if 42 ≤ row ∨ col = 0 ∨ 43 ≤ col then none
  else if col ≤ 21 then some (.a, ballA row col)
  else some (.b, ballA row (43 - col))

/-- The I/O types of R463. -/
inductive IoType
  | cmos18 | openDrain18 | input18 | cmos33 | openDrain33 | currentMode | analogue | diode
  deriving DecidableEq, Repr

/-- The I/O type of a signal ball (R463). -/
def Signal.io : Signal → IoType
  | .alertN => .openDrain18
  | .cvClrN => .input18
  | .gpio _ | .midiRx _ | .midiTx | .txdis _ | .los _ | .modabs _ | .txflt _ => .cmos33
  | .i2cScl _ | .i2cSda _ => .openDrain33
  | .tx _ _ | .rx _ _ => .currentMode
  | .cv _ | .cvMid => .analogue
  | .tdiode _ => .diode
  | _ => .cmos18

/-- The rail that supplies a ball of a type; the diode has none (R463). -/
def IoType.rail : IoType → Option Rail
  | .cmos18 | .openDrain18 | .input18 => some .vio18
  | .cmos33 | .openDrain33 => some .vio33
  | .currentMode => some .vser
  | .analogue => some .vcv
  | .diode => none

/-- The balls with an internal pull-down; no other has an internal pull (R465). -/
def Signal.pullDown : Signal → Bool
  | .rdck | .rdi | .rdsel => true
  | _ => false

/-- The die pulls the ball down, while VIO18 is good (R465). -/
def Die.pullsDown (e : Die) (s : Signal) : Bool := s.pullDown && e.railOk .vio18

/-- No flash command is on its way after STEP 5, nor in NOIMAGE or HOLD: `FL_CS_N` is high (R419). -/
def Die.flashRests (e : Die) : Bool := 6 ≤ e.bootStep && e.boot.flash.isNone

/-- The level that the die puts on an output ball which shows a level of its state, and none at high impedance or on another
ball. A ball whose rail is off is at high impedance (R471); GPIO follows R400, `TXDIS` R237, `ALERT_N` R441, and `WCK_OUT` and
`PPS_OUT` R329. A master clock output that carries no clock is held low (R348), and the flash balls rest as R419 says. -/
def Die.drivesBall (e : Die) (s : Signal) : Option Bool :=
  if (s.io.rail.map e.railOk).getD false then
    match s with
    | .gpio i =>
      let out := e.bitAt F.MISC_GPIO_OUT_PIN i
      if e.balls && e.bitAt F.MISC_GPIO_DIR_OE i && !(e.bitAt F.MISC_GPIO_DIR_OD i && out) then some out else none
    | .txdis p => some (e.txdis p)
    | .alertN => if e.alertN then some false else none
    | .mcko side => if e.balls && (e.mcko (if side then 1 else 0)).isNone then some false else none
    | .flCsN => if e.flashRests then some true else none
    | .flRstN => if 2 ≤ e.bootStep then some true else none
    | .wckOut => some e.tim.wckOut
    | .ppsOut => some (0 < e.tim.ppsOut)
    | _ => none
  else none

/-- Whether the die drives an analogue ball: CVn as R280, R298 and R370 say, and CVMID in every role (R365), both with VANA and
VCV good (R470, R471). -/
def Die.drivesAnalogue (e : Die) (s : Signal) : Bool :=
  match s with
  | .cv _ => e.cvDrives
  | .cvMid => e.cvmidDrives
  | _ => false

/-! ### Supplies (R466 to R470) -/

/-- Nominal voltage of a rail in mV (R466). -/
def railNominal : Rail → Nat
  | .vcore => 750
  | .vio18 => 1800
  | .vio33 => 3300
  | .vana => 1800
  | .vser => 900
  | .vcv => 5000

/-- Design current of a rail per die in mA (R466). -/
def railCurrent : Rail → Nat
  | .vcore => 12000
  | .vio18 => 500
  | .vio33 => 150
  | .vana => 250
  | .vser => 800
  | .vcv => 300

/-- Window of a rail, in steps of 0.1 mV (R429). -/
def railWindow : Rail → Nat × Nat
  | .vcore => (7275, 7725)
  | .vio18 => (17100, 18900)
  | .vio33 => (31350, 34650)
  | .vana => (17460, 18540)
  | .vser => (8730, 9270)
  | .vcv => (47500, 52500)

/-- The thresholds of die reset, in steps of 0.1 mV (R429). -/
def resetBelow : ResetRail → Nat
  | .vcore => 6800
  | .vio18 => 16200

/-- The step of the supply sequence in which a rail comes up (R468). -/
def railUpStep : Rail → Nat
  | .vio33 | .vio18 => 1
  | .vcore => 2
  | .vana | .vser => 3
  | .vcv => 4

/-- Rails come up in the order of R468: the steps of the order of rise do not fall. Power goes down in the reverse order
(R469). -/
def powerUpOrder (l : List Rail) : Prop := l.Pairwise fun a b => railUpStep a ≤ railUpStep b

/-- The order of removal (R469). -/
def powerDownOrder (l : List Rail) : Prop := powerUpOrder l.reverse

end Sys2Proof.Machine
end

