-- ==== Sys2Proof/Tests/Slice0.lean ====
section
/-! SUPPORT. Tests of this model: forms that `Instr.wf` refuses, small tests of commands against the manual's words, and for
each statement a state and operands that meet its hypotheses. -/

namespace Sys2Proof.Tests
open Sys2Proof Sys2Proof.Machine

set_option Elab.async false

/-! ### States -/

/-- Die A of the reset state, changed. -/
def at_ (f : Die → Die) : State := State.reset.setDie .a (f (State.reset.die .a))

/-- Both dies changed. -/
def both (f g : Die → Die) : State := (at_ f).setDie .b (g (State.reset.die .b))

/-- Every domain runs and the image runs. -/
def up (e : Die) : Die := { e with clk := ⟨[], false, false⟩ }.setFld F.BTL_STAT_STEP 6

/-- Die A up. -/
def live (f : Die → Die) : State := at_ fun e => f (up e)

/-- Die A of a state. -/
def A (s : State) : Die := s.die .a

/-- The state after a command. -/
def after (i : Instr) (s : State) : State := match exec i s with
  | .next t => t
  | _ => s

/-- Die A after a command. -/
def dieAfter (i : Instr) (s : State) : Die := A (after i s)

/-- A running course of die A, its wall ON, changed. -/
def crs (c : Fin 28) (f : Course → Course) : State := live fun e =>
  (e.setWallState (wallOf c) St.on).setCourse c (f { e.course c with running := true })

/-- Core 0 of die A issues from the start of its bank. -/
def cored (f : Cpu → Cpu) : State := live fun e => (e.setFld F.XBR_CORECTL_RUN 15).updCpu 0 f

/-- Both dies' images run and the party wall carries traffic. -/
def paired (f g : Die → Die) : State := after (.linkTrained .a) (both (fun e => f (up e)) fun e => g (up e))

/-- The domains that a command may act in. -/
def domains : List Dom := [.eng, .ctl, .nrx, .srx, .ltx, .sapm, .saps, .keep]

/-- A command that acts in a domain meets either case: every domain runs on a die that is up; all but KEEP stand after reset;
and KEEP stands without its supply. -/
theorem witness_domains : (∀ m ∈ domains, (A (live id)).runs m = true ∧ (both up up).dieB.runs m = true) ∧
    (∀ m ∈ domains, m ≠ .keep → (A State.reset).runs m = false) ∧
    (dieAfter (.supplyReset .a .vio18) (live id)).runs .keep = false := by decide +kernel

/-- Such a command that writes a register meets each case too: its domain stands while CTL runs, with the buffer of a block free
or taken, and stands with CTL. -/
theorem witness_writes : ∀ m ∈ [Dom.eng, .ltx, .sapm, .saps, .nrx, .srx], ∀ a ∈ [R.ENG_SEATMAP 0, R.SAP_P_CTRL 0],
    let e := A (at_ fun e => { e with clk := ⟨[m], false, false⟩ })
    let p : Posted := ⟨a / 0x1000 % 0x20, m, 7, a, 0, false⟩
    e.runs m = false ∧ e.runs .ctl = true ∧ e.posted = [] ∧
    ({ e with posted := [p] } : Die).posted.any (fun q => q.blk == p.blk && q.dom == p.dom) = true ∧
    (A State.reset).runs m = false ∧ (A State.reset).runs .ctl = false := by decide +kernel

/-! ### Well-formedness: a form refused for each check -/

theorem wf_register_write_master : Instr.wf (.registerWrite .a 7 false 0x10000000 .word 0 0) = false := by decide
theorem wf_rc_read_master : Instr.wf (.rcRead .a 7 false 0x10000000 .word 0) = false := by decide
theorem wf_end_cycle : Instr.wf (.endKernel .a 0 20480) = false := by decide
theorem wf_end_last_cycle : Instr.wf (.endKernel .a 0 20479) = true := by decide
theorem wf_arbitration_cycle : Instr.wf (.yardArbitration .a 0 20480 []) = false := by decide
theorem wf_yardw_read_master : Instr.wf (.yardwRead .a 7 0x30000000 []) = false := by decide
theorem wf_yardw_read_below : Instr.wf (.yardwRead .a 0 0x2FFFFFFC []) = false := by decide
theorem wf_yardw_write_beyond : Instr.wf (.yardwWrite .a 0 0x38000000 0 []) = false := by decide
theorem wf_yardw_write_aligned : Instr.wf (.yardwWrite .a 0 0x30000002 0 []) = false := by decide
theorem wf_engw_write_beyond : Instr.wf (.engwWrite .a 0 0x201C0000 0 []) = false := by decide
theorem wf_engw_write_master : Instr.wf (.engwWrite .a 7 0x20000000 0 []) = false := by decide
theorem wf_morw_write_sink : Instr.wf (.morwWrite .a 20480 0) = false := by decide
theorem wf_mfifo_master : Instr.wf (.mfifoRead .a 7) = false := by decide
theorem wf_pallet_cycle : Instr.wf (.palletReceive .a .forwardIn (Vector.replicate 15 0) 20480) = false := by decide
theorem wf_stamp_master : Instr.wf (.stampRead .a 7 true 0) = false := by decide
theorem wf_time_master : Instr.wf (.timeNsRead .a 7) = false := by decide
theorem wf_alu_sub_immediate : Instr.wf (.aluInstruction .a 0 (.imm .sub 1 1 1) false) = false := by decide
theorem wf_alu_shift_32 : Instr.wf (.aluInstruction .a 0 (.imm .sll 1 1 32) false) = false := by decide
theorem wf_alu_compressed_slt : Instr.wf (.aluInstruction .a 0 (.reg .slt 1 1 1) true) = false := by decide
theorem wf_alu_compressed_xori : Instr.wf (.aluInstruction .a 0 (.imm .xor 1 1 1) true) = false := by decide
theorem wf_alu_compressed_auipc : Instr.wf (.aluInstruction .a 0 (.auipc 1 1) true) = false := by decide
theorem wf_alu_compressed_csr : Instr.wf (.aluInstruction .a 0 (.csrReg .rw 1 1 0x340) true) = false := by decide
theorem wf_alu_compressed_csri : Instr.wf (.aluInstruction .a 0 (.csrImm .rw 1 1 0x340) true) = false := by decide
theorem wf_alu_compressed_fence : Instr.wf (.aluInstruction .a 0 .fence true) = false := by decide
theorem wf_alu_compressed_fence_i : Instr.wf (.aluInstruction .a 0 .fenceI true) = false := by decide
theorem wf_branch_odd : Instr.wf (.aluInstruction .a 0 (.branch .eq 1 2 3) false) = false := by decide
theorem wf_branch_compressed_lt : Instr.wf (.takenBranch .a 0 (.branch .lt 1 0 4) true) = false := by decide
theorem wf_jal_odd : Instr.wf (.takenBranch .a 0 (.jal 1 3) false) = false := by decide
theorem wf_jal_compressed_x2 : Instr.wf (.takenBranch .a 0 (.jal 2 4) true) = false := by decide
theorem wf_jalr_compressed_offset : Instr.wf (.jalr .a 0 0 1 4 true) = false := by decide
theorem wf_load_compressed_byte : Instr.wf (.coreLoad .a 0 .lb 1 2 0 true none) = false := by decide
theorem wf_store_compressed_half : Instr.wf (.coreStore .a 0 .sh 1 2 0 true) = false := by decide
theorem wf_ecall_compressed : Instr.wf (.environmentCall .a 0 false true) = false := by decide
theorem wf_semaphore_read_master : Instr.wf (.semaphoreRead .a 7 0) = false := by decide
theorem wf_semaphore_write_master : Instr.wf (.semaphoreWrite .a 7 0 0) = false := by decide
theorem wf_win7_master : Instr.wf (.logWin7Read .a 7 none) = false := by decide
theorem wf_snapshot_master : Instr.wf (.pctSnapshot .a 7 0) = false := by decide
theorem wf_snapshot_cycle : Instr.wf (.pctSnapshot .a 0 20480) = false := by decide


/-! ### Effects: the manual's worked examples and corner values

Each expected value is taken from the manual's example or table that the comment names, or computed by hand from the rule. -/

/-- The last write a command put in flight in course 0. -/
def lastWb (i : Instr) (f : Course → Course := id) : Option (Nat × Wb) := ((dieAfter i (crs 0 f)).course 0).flight.getLast?

/-- Course 0 with a quarter in every lane of a Q register. -/
def withQ (n : Nat) (q : Quarter) (x : Course) : Course := { x with bricks := x.bricks.map fun b => { b with q := b.q.set! n q } }

/-- A quarter result in every lane at the end of the cycle. -/
def qWb (qd : BitVec 4) (q : Quarter) : Option (Nat × Wb) := some (1, .q .alu qd (Vector.replicate 8 q))

/-- The accumulator, wrap count and AOV lane 0 of a write. -/
def accOf : Option (Nat × Wb) → Option (Int × Int × Bool)
  | some (_, .acc _ ac awc aov) => some (ac[0].toInt, awc[0].toInt, aov[0])
  | _ => none

/-- Add a list of terms of 3,072 (or its negative) to an accumulator of units of 2^-54. -/
def addTerms (a : AccVal) : List Bool → AccVal
  | [] => a
  | neg :: ts =>
    let t : Int := 3072 * 2 ^ 54
    let r := accAdd a (if neg then -t else t) 0
    addTerms ⟨r.ac, r.awc, a.aov || r.aov⟩ ts

/-- The sum after a number of terms of the example of 02_bricks_and_courses.md: twelve positive, then four negative. -/
def exampleSum (n : Nat) : AccVal :=
  addTerms (accLoad 0) ((List.replicate 12 false ++ List.replicate 4 true).take n)

-- The table of the example before "Dual-stone operations": terms 10 to 14 and 16.
theorem test_accumulator_term_10 : exampleSum 10 = ⟨BitVec.ofInt 70 (30720 * 2 ^ 54), 0, false⟩ := by decide +kernel
theorem test_accumulator_term_11 : exampleSum 11 = ⟨BitVec.ofInt 70 (-31744 * 2 ^ 54), 1, true⟩ := by decide +kernel
theorem test_accumulator_term_12 : exampleSum 12 = ⟨BitVec.ofInt 70 (-28672 * 2 ^ 54), 1, true⟩ := by decide +kernel
theorem test_accumulator_term_14 : exampleSum 14 = ⟨BitVec.ofInt 70 (30720 * 2 ^ 54), 0, true⟩ := by decide +kernel
theorem test_accumulator_term_16 : exampleSum 16 = ⟨BitVec.ofInt 70 (24576 * 2 ^ 54), 0, true⟩ := by decide +kernel
-- Its stores with s = +15: 0x600_0000 exactly after term 16, saturated after term 12.
theorem test_store_exact : storeAcc (exampleSum 16).ac (exampleSum 16).awc 15 28 0 0 = (0x6000000, false) := by decide +kernel
theorem test_store_by_wrap_count : storeAcc (exampleSum 12).ac (exampleSum 12).awc 15 28 0 0 = (0x7FFFFFF, true) := by
  decide +kernel
-- R84: −1.5: a tie goes toward +∞ in mode 0b00, to the even code in 0b01; 0b10 truncates toward −∞.
theorem test_round_tie_up : roundMode (-3) 1 0 = -1 := by decide
theorem test_round_tie_even : roundMode (-3) 1 1 = -2 := by decide
theorem test_round_truncate : roundMode (-3) 1 2 = -2 := by decide
-- R85: from 0x0000_0001 the taps give 1, and the register becomes 0x0000_0003.
theorem test_lfsr_step : lfsrStep 1 = 3 := by decide
theorem test_lfsr_step_taps : lfsrStep 0x80200003 = 0x400006 := by decide
-- R87: on equal values the lower index wins, and a start takes the first element outright.
theorem test_search_ties : searchStep false true 8 #v[5, 3, 3, 9, 9, 9, 9, 9] ⟨0, 7, 7, true⟩ = ⟨3, 1, 8, true⟩ := by decide

-- R47, R55: −1.0 × −1.0 is +1.0 exactly, 2^54 in the accumulator.
theorem test_mpy_minus_one : accOf (lastWb (.mpy .a 0 false 0 1 0) fun x => withQ 0 0x8000000 (withQ 1 0x8000000 x)) =
    some (2 ^ 54, 0, false) := by decide +kernel
theorem test_msu_reads_latest :
    accOf (lastWb (.msu .a 0 false 0 1 0) fun x =>
      let y := (withQ 0 0x4000000 (withQ 1 0x4000000 x)).issueAcc false (Vector.replicate 8 (accLoad (2 ^ 54)))
      { y with flight := y.flight.map fun w => (2, w.2) }) = some (3 * 2 ^ 52, 0, false) := by decide +kernel
-- R54: an operation uses what stands at the start of its cycle, not what another operation of its bundle issues.
theorem test_msu_misses_its_own_bundle :
    accOf (lastWb (.msu .a 0 false 0 1 0) fun x => (withQ 0 0x4000000 (withQ 1 0x4000000 x)).issueAcc false
      (Vector.replicate 8 (accLoad (2 ^ 54)))) = some (-(2 ^ 52), 0, false) := by decide +kernel
-- R55: a quarter of 1 LSB stands at 2^27 of an accumulator.
theorem test_alod_aligns : accOf (lastWb (.alod .a 0 true 2) (withQ 2 1)) = some (2 ^ 27, 0, false) := by decide +kernel
-- R56: ADD saturates, ADDW wraps, ABS of −1.0 saturates.
theorem test_add_saturates : lastWb (.addOp .a 0 3 0 1) (fun x => withQ 0 0x7FFFFFF (withQ 1 1 x)) = qWb 3 0x7FFFFFF := by
  decide +kernel
theorem test_addw_wraps : lastWb (.addw .a 0 3 0 1) (fun x => withQ 0 0x7FFFFFF (withQ 1 1 x)) = qWb 3 0x8000000 := by
  decide +kernel
theorem test_abs_minus_one : lastWb (.absOp .a 0 3 0) (withQ 0 0x8000000) = qWb 3 0x7FFFFFF := by decide +kernel
-- R57: counts of 28 and more act as 28.
theorem test_shra_beyond_width : lastWb (.shra .a 0 3 0 31) (withQ 0 0x8000000) = qWb 3 0xFFFFFFF := by decide +kernel
theorem test_shrl_beyond_width : lastWb (.shrl .a 0 3 0 28) (withQ 0 0x8000000) = qWb 3 0 := by decide +kernel
-- R86: DADD saturates each stone at −1.0 and 1 − 2^−13.
theorem test_dadd_saturates : lastWb (.dadd .a 0 3 0 1) (fun x => withQ 0 0x7FFE000 (withQ 1 0x0007FFF x)) =
    qWb 3 0x7FFE000 := by decide +kernel

-- The example of R133 in 04_yard_tiles_hods.md: rows in frames g − 1 and g.
theorem test_ring_store_row : ringRow 0x212000 15321 18000 0 = 0x215BD9 := by decide
theorem test_ring_tap_row : ringRow 0x212000 15321 18000 16009 = 0x2163A0 := by decide
theorem test_ring_short_tap : ringRow 0x212000 3322 12000 16009 = BitVec.ofNat 22 (0x212000 + 3323) := by decide

-- The example of R165 in 05_mortar_and_rate_bridges.md: both entries carry 0x666_6666, 256 frames.
/-- A fade of the example, at a frame of it. -/
def exampleFade (shape : Word) (f : Nat) : Quarter × Bool :=
  let w (src : Word) : Word := src ||| (4 <<< 17) ||| shape
  fadeValue ⟨w 0x4031, w 0x4035, f⟩ fun _ => 0x6666666

theorem test_fade_linear_output : exampleFade 0 48 = (0x6666666, false) ∧ exampleFade 0 255 = (0x6666666, false) := by
  decide +kernel
-- Equal power saturates from f = 49 to f = 206.
theorem test_fade_power_edges : [48, 49, 206, 207].map (fun f => (exampleFade (1 <<< 20) f).2) = [false, true, true, false] := by
  decide +kernel
-- At f = 48 the linear gains are 0.189453125 and 0.810546875.
theorem test_fade_gains_linear : fadeGains false 48 256 = (25427968, 108789760) := by decide +kernel

-- The example of R219 in 07_voice_engine.md: marks and voices.
/-- Group 3 of the example: QUOTA 6, RESERVE 4, quietest, PREFREL. -/
def exampleCfg : SMap Word := SMap.set wordDflt [] (R.VOX_GCFG 3) (6 ||| (4 <<< 11) ||| (1 <<< 25))

/-- The batch of the example, in arrival order. -/
def exampleBatch : List NoteEv :=
  [⟨mkEvent 1 3 64 0x8000 0, 2, 0⟩, ⟨mkEvent 2 3 60 0 0, 1, 0⟩, ⟨mkEvent 1 3 67 0x8000 0, 3, 0⟩, ⟨mkEvent 1 3 71 0x8000 0, 0, 0⟩,
   ⟨mkEvent 1 3 74 0x8000 0, 2, 0⟩]

/-- The voices of the example: 38 and 39 fade, 40 to 44 are busy, 0 to 37 and 45 are others'. -/
def exampleVoices : SMap Voice :=
  ((List.range 38).map fun v => (v, ⟨.on, 0, 0, BitVec.ofNat 64 v, 0, 0⟩)) ++
  [(38, ⟨.fade, 3, 1, 38, 0, 90⟩), (39, ⟨.fade, 3, 2, 39, 0, 90⟩), (40, ⟨.release, 3, 48, 40, 0, 0⟩), (41, ⟨.on, 3, 55, 41, 0, 0⟩),
   (42, ⟨.on, 3, 60, 42, 0, 0⟩), (43, ⟨.on, 3, 62, 43, 0, 0⟩), (44, ⟨.release, 3, 65, 44, 0, 0⟩), (45, ⟨.on, 0, 0, 45, 0, 0⟩)]

/-- The die after the batch of the example. -/
def exampleRun : VoxRun :=
  let e := (up (State.reset.die .a)).updVox fun x => { x with
    voices := exampleVoices
    next := 46 }
  VoxRun.resolve ⟨e, [], []⟩ (SMap.set wordDflt exampleCfg (R.VOX_GCFG 0) 2047) exampleBatch

/-- What the allocator says of a voice: its state and note. -/
def exampleVoice (v : Nat) : VState × BitVec 7 := ((exampleRun.die.voice v).state, (exampleRun.die.voice v).note)

theorem test_voice_marks : [0, 2, 3, 4].map (markOns exampleCfg (fun _ => 5) (fun _ => 2) exampleBatch) =
    [.steal, .drop, .free, .steal] := by decide +kernel
theorem test_voice_steals : [40, 44, 42].map exampleVoice = [(.fade, 48), (.fade, 65), (.release, 60)] := by decide +kernel
theorem test_voice_starts : [46, 47, 48, 49].map exampleVoice = [(.on, 64), (.on, 71), (.on, 74), (.idle, 0)] := by decide +kernel
theorem test_voice_drop_counted : exampleRun.die.fld (F.VOX_GDROP_COUNT 3) = 1 := by decide +kernel

-- The example of R373 in 12_cv_outputs.md: codes of the peaks 0.9 and 0.1 in a unipolar span.
theorem test_cv_code_high : cvCode 0 (satQ (0x3333333 + 0x4000000)) = (235930, false) := by decide +kernel
theorem test_cv_code_low : cvCode 0 (satQ (0x4000000 - 0x3333333)) = (26214, false) := by decide +kernel
-- R366: a negative quarter saturates in a unipolar span and not in a bipolar one.
theorem test_cv_code_negative : cvCode 1 0xFFFFC00 = (0, true) ∧ cvCode 2 0xFFFFC00 = (131071, false) := by decide +kernel
-- R373: the generator is at its peak a quarter of a turn on.
theorem test_cv_sine_peak : cvSine (2 ^ 30) = 1048575 * 2 ^ 20 := by decide +kernel

-- R382, R380: the base integer set, with the corner values of its division.
theorem test_alu_wraps : AluFn.eval .add 0xFFFFFFFF 2 = 1 := by decide
theorem test_alu_sra : AluFn.eval .sra 0x80000000 33 = 0xC0000000 := by decide
theorem test_alu_slt : AluFn.eval .slt 0xFFFFFFFF 0 = 1 ∧ AluFn.eval .sltu 0xFFFFFFFF 0 = 0 := by decide
theorem test_mulh : MulFn.eval .mulh 0x80000000 0x80000000 = 0x40000000 ∧ MulFn.eval .mulhu 0xFFFFFFFF 0xFFFFFFFF = 0xFFFFFFFE := by
  decide
theorem test_mulhsu : MulFn.eval .mulhsu 0xFFFFFFFF 0xFFFFFFFF = 0xFFFFFFFF := by decide
theorem test_div_by_zero : DivFn.eval .div 7 0 = 0xFFFFFFFF ∧ DivFn.eval .rem 7 0 = 7 := by decide
theorem test_div_overflow : DivFn.eval .div 0x80000000 0xFFFFFFFF = 0x80000000 ∧ DivFn.eval .rem 0x80000000 0xFFFFFFFF = 0 := by
  decide
theorem test_div_truncates : DivFn.eval .div 0xFFFFFFF9 2 = 0xFFFFFFFD ∧ DivFn.eval .rem 0xFFFFFFF9 2 = 0xFFFFFFFF := by decide
theorem test_addi_negative : ((dieAfter (.aluInstruction .a 0 (.imm .add 5 5 0xFFF) false) (cored fun c => c.setReg 5 3)).core 0).reg 5 = 2 := by
  decide +kernel
theorem test_x0_stays_zero : ((dieAfter (.aluInstruction .a 0 (.imm .add 0 5 1) false) (cored fun c => c.setReg 5 3)).core 0).reg 0 = 0 := by
  decide +kernel
theorem test_jal_links : ((dieAfter (.takenBranch .a 0 (.jal 1 0x100) false) (cored id)).core 0).reg 1 = 4 ∧
    ((dieAfter (.takenBranch .a 0 (.jal 1 0x100) false) (cored id)).core 0).pc = 0x100 := by decide +kernel
-- R382: LB extends the sign of the byte stored.
theorem test_store_then_load : ((dieAfter (.coreLoad .a 0 .lb 7 5 0 false none)
    (after (.coreStore .a 0 .sb 5 6 0 false) (cored fun c => (c.setReg 5 0x203).setReg 6 0x80))).core 0).reg 7 = 0xFFFFFF80 := by
  decide +kernel

-- R390, R399: the last byte of SHARED, and the first address that no target holds.
theorem test_targets : targetOf 0 0x5FFFFF = .shared ∧ targetOf 0 0x600000 = .dflt ∧ targetOf 0 0x1FFFFFFC = .dflt := by decide
-- The frame sequence is compared modulo 2^32: 0 lies after 0xFFFF_FFFF.
theorem test_sequence_wraps : seqAfter 0 0xFFFFFFFF = true ∧ seqAfter 0xFFFFFFFF 0 = false := by decide
-- No row of the table has bits, so no word spells a command.
theorem test_identity_mismatch_stands : (dieAfter (.identityBlock .a) (paired (fun e => (e.setFld F.PAIR_STAT_ROLE Role.start).setFld
    F.BTL_STAT_IDMIS 1) id)).bit F.BTL_STAT_IDOK = false := by decide +kernel

theorem test_stopped_domain_holds : (dieAfter (.mirrorReloadDone .a) (at_ fun e => e.setFld F.MOR_STAT_MIRBUSY 1)).bit
    F.MOR_STAT_MIRBUSY = true := by decide +kernel

theorem test_released_ball_is_an_edge : (dieAfter (.driverHoldExpire .a) (live fun e => ((((e.setFld F.BTL_SUPPLY_OK 0x3F).setFld F.MISC_GPIO_DIR_OE 1).setFld
    F.MISC_GPIO_OUT_PIN 1).setFld F.MISC_GPIO_EDGE_FALL 1).updPair fun p => { p with
      driving := true
      holding := true })).fld F.MISC_GPIO_IRQ_PIN = 1 := by decide +kernel

/-- The balls of die A. -/
def ballsA : List Ball := (List.range 42).flatMap fun r => (List.range 21).map fun c => ballA r (c + 1)

/-- The counts of R462. -/
theorem test_ball_counts : ([Ball.supply .vcore, .supply .vio18, .supply .vio33, .supply .vana, .supply .vser, .supply .vcv, .vss, .vssa,
    .dnc].map fun b => ballsA.count b) = [160, 24, 12, 12, 16, 8, 500, 16, 6] := by decide +kernel

/-- The 128 signal balls are different ones (R462). -/
theorem test_ball_signals : (ballsA.filter fun b => match b with | .signal _ => true | _ => false).length = 128 ∧
    (ballsA.filter fun b => match b with | .signal _ => true | _ => false).Nodup := by decide +kernel

/-- A42 is SAP0_BCK of die B (R462); VCORE is sensed at P17 and P26, against P16 and P27 (R477). -/
theorem test_ball_places : ballAt 0 42 = some (.b, .signal (.sapBck 0)) ∧ ballAt 13 17 = some (.a, .supply .vcore) ∧
    ballAt 13 16 = some (.a, .vss) ∧ ballAt 13 26 = some (.b, .supply .vcore) ∧ ballAt 13 27 = some (.b, .vss) ∧
    rowNames[13]? = some "P" ∧ rowNames.length = 42 := by decide +kernel

theorem test_no_word : decodeTableWord 8 0 = none ∧ State.reset.withFetchWord 8 0 = State.reset := ⟨rfl, rfl⟩

/-! ### Hypotheses that can be met: one theorem per statement, its clauses in order -/

theorem witness_AccumulationIsExactUntilPinned :
    let a : AccVal := ⟨BitVec.ofInt 70 (2 ^ 69 - 1), 2, false⟩
    (-(2 ^ 69) ≤ (2 ^ 69 - 1 : Int) ∧ (2 ^ 69 - 1 : Int) < 2 ^ 69 ∧ a.awc.toInt.natAbs < 3 ∧
      a.awc.toInt + wrapOf (a.ac.toInt + (2 ^ 69 - 1)) ≤ 3 ∧ -3 ≤ a.awc.toInt + wrapOf (a.ac.toInt + (2 ^ 69 - 1))) ∧
    (⟨0, 3, false⟩ : AccVal).awc.toInt = 3 ∧ (⟨0, BitVec.ofInt 3 (-3), false⟩ : AccVal).awc.toInt = -3 := by decide

/-- R57: 28 and 31 are the ends of the range. -/
theorem witness_ShiftCountsFrom28 : 28 ≤ (28 : BitVec 5).toNat ∧ 28 ≤ (31 : BitVec 5).toNat := by decide

/-- A course issues its bundle's operations; it issues none once issue has stopped (R90), nor while its wall is OFF (R102). -/
def issueCases : Bool := (A (crs 0 id)).issues 0 && !(A (live id)).issues 0 &&
  !({ A (crs 0 id) with eng := { (A (crs 0 id)).eng with stopped := true } } : Die).issues 0

theorem witness_MultiplyOperationsIssue : issueCases = true := by decide

theorem witness_AluOperationsIssue : issueCases = true := witness_MultiplyOperationsIssue

theorem witness_StoreOperationsIssue : issueCases = true := witness_MultiplyOperationsIssue

theorem witness_OtherAluOperationsIssue : (1 : BitVec 2) ≠ 2 ∧ (1 : BitVec 2) ≠ 3 ∧ (2 : BitVec 2) = 2 ∧ (3 : BitVec 2) = 3 := by
  decide

theorem witness_StoredValuesSaturate : ((2 : Int) ^ 27 ≤ 2 ^ 27) ∧ (-(2 ^ 27) ≤ (2 ^ 27 - 1 : Int) ∧ (2 ^ 27 - 1 : Int) < 2 ^ 27) ∧
    (-(2 ^ 27) - 1 : Int) < -(2 ^ 27) ∧ 1 ≤ 1 ∧ (0 : Int) < (1 : BitVec 3).toInt ∧ (7 : BitVec 3).toInt < 0 := by decide

/-- A tie of each side under mode 0b01, and the ends of the range of the widths. -/
theorem witness_StoreRounds : 2 * (-3 : Int) = 2 * roundMode (-3) 1 1 * 2 ^ 1 + 2 ^ 1 ∧
    2 * (3 : Int) = 2 * roundMode 3 1 1 * 2 ^ 1 - 2 ^ 1 ∧ ((3 : BitVec 2) = 0 ∨ (3 : BitVec 2) = 3) ∧ 1 ≤ 28 ∧ 28 ≤ 28 := by decide

theorem witness_WritebackKeepsTheHighest :
    let s := crs 0 fun x => (x.plus 1 (.q .x 3 Row.zero)).plus 1 (.q .alu 3 (Vector.replicate 8 1))
    let x := (A s).course 0
    x.stalled = none ∧ x.overhead = false ∧ (1, Wb.q .alu 3 (Vector.replicate 8 1)) ∈ x.flight ∧
    (x.flight.all fun w => match w.2 with
      | .q k q r => w.1 > 1 || q != 3 || (k == .alu && r == Vector.replicate 8 1) || k == .x
      | _ => true) = true ∧
    ((A (crs 0 id)).course 0).stalled = none ∧ ((A (crs 0 id)).course 0).flight = [] ∧
    ((A (crs 0 id)).course 0).overhead = false := by decide

theorem witness_BusLoadsIssue :
    let s := crs 0 fun x => { x with
      xa := x.xa.set 0 0x0FFF
      za := x.za.set 0 0x7FFF }
    loadSpace .x ((((A s).course 0).ag .x 0).toNat / 4096) ≠ none ∧
    loadSpace .z ((((A s).course 0).ag .z 0).toNat / 4096) = none := by decide

theorem witness_BusStoresIssue :
    let s (xa ya : BitVec 15) := crs 0 fun x => { x with
      xa := x.xa.set 0 xa
      ya := x.ya.set 0 ya }
    let y (s : State) : Nat := ((A s).course 0).ya[0].toNat / 4096
    ((A (s 0 0)).migPhase (wallOf 0) ≠ Mig.verify) ∧ ((A (s 0x0FFF 0)).course 0).xa[0].toNat / 4096 = 0 ∧
    ((A (s 0x1000 0)).course 0).xa[0].toNat / 4096 ≠ 0 ∧ y (s 0 0x0FFF) = 0 ∧ y (s 0 0x1FFF) = 1 ∧
    (y (s 0 0x2FFF) = 2 ∧ (A (s 0 0x2FFF)).isShadow 0 = false ∧ (A (s 0 0x2FFF)).courseSeat 0 = some 0) ∧
    3 ≤ y (s 0 0x3000) := by decide

/-- Wall 0 is ON, and its course 0 runs. -/
def walled (f : Die → Die) : State := live fun e =>
  let e := e.setWallState 0 St.on
  f (e.setCourse 0 { e.course 0 with running := true })

theorem witness_YardAccessesGranted :
    let e := A (walled id)
    let row := (e.course 0).dp[0]
    e.issues 0 = true ∧ e.isShadow 0 = false ∧ e.shadowOf 0 = none ∧ e.yardRow 0 0 = some (row, none) ∧ e.wallOn (bankOf row).val = true ∧
    e.granted (bankOf row) (e.asks 0) = true ∧ e.yard.borrowed (e.yard.key row) = none ∧ e.yard.unwritten = false ∧
    e.migPhase (wallOf 0) ≠ Mig.verify ∧ e.fld (F.YRD_REMAP_PHASE (bankOf row)) = 0 ∧
    SMap.get markDflt e.yard.bad (e.yard.key row) = 0 := by decide

/-- A pointer in linear mode is bound to no ring, and no ring is clamped. -/
theorem witness_ringClamp : (A (walled id)).ringClamp 0 0 = A (walled id) := rfl

/-- Course 6 shadows course 0. -/
def shadowed (f : Die → Die) : State := walled fun e => f (((e.setFld (F.ENG_MIG_PHASE 0) Mig.shadow).updMig 0 fun m => { m with
  spare := 6
  src := 0 }).setCourse 6 { e.course 6 with running := true })

theorem witness_YardAccessesWait :
    let lost := A (walled fun e => e.updYard fun y => { y with grants := y.grants.set 0 (some (some (.hod 3))) })
    let off := A (crs 7 fun x => { x with dp := x.dp.set 0 0 })
    let acc : YardAcc := ⟨false, 0, 0, 5, none, Row.zero, []⟩
    let tried := A (walled fun e => e.setCourse 0 { e.course 0 with stalled := some acc })
    let second : YardAcc := ⟨false, 0, 0, 5, some Row.zero, Row.zero, []⟩
    let ringed := A (walled fun e => (e.updYard fun y => ({ y with binds := [(0, 8)] } : Yard).setRing 7 ⟨true, 64, 16, 16, true, 16, true, 3, false, false, 16, 3, 0⟩).setCourse 0 { e.course 0 with
      stalled := some second
      agm := BitVec.ofNat 32 (2 ^ 24) })
    let sh := A (shadowed id)
    let fed := A (shadowed fun e => e.setCourse 0 { e.course 0 with lastYard := some ((e.course 6).ticks, Row.zero) })
    (lost.issues 0 = true ∧ lost.isShadow 0 = false ∧ lost.shadowOf 0 = none ∧ lost.yardRow 0 0 = some ((lost.course 0).dp[0], none) ∧
      lost.wallOn (bankOf (lost.course 0).dp[0]).val = true ∧ lost.granted (bankOf (lost.course 0).dp[0]) (lost.asks 0) = false) ∧
    (off.issues 7 = true ∧ off.yardRow 7 0 = some ((off.course 7).dp[0], none) ∧ off.wallOn (bankOf (off.course 7).dp[0]).val = false) ∧
    ((tried.course 0).stalled = some acc ∧ tried.yardRow 0 0 = some ((tried.course 0).dp[0], none) ∧
      tried.wallOn (bankOf (tried.course 0).dp[0]).val = true ∧ tried.granted (bankOf (tried.course 0).dp[0]) (tried.asks 0) = true ∧
      tried.yard.unwritten = false) ∧
    ((ringed.course 0).stalled = some second ∧ second.second = some Row.zero ∧ ringed.yardTarget 0 0 = .ring 7 0 ∧
      (ringed.yard.ring 7).fade = 0 ∧ ringed.granted (bankOf (ringRow 64 3 16 0)) (ringed.asks 0) = true ∧ ringed.shadowOf 0 = none) ∧
    (sh.issues 6 = true ∧ sh.isShadow 6 = true ∧ sh.yardRow 6 0 = some ((sh.course 6).dp[0], none) ∧ sh.wallOn (bankOf (sh.course 6).dp[0]).val = true ∧
      sh.migPhase (wallOf 6) ≠ Mig.verify ∧ (sh.course (sh.migSrc (wallOf 6))).lastYard = none) ∧
    (fed.course (fed.migSrc (wallOf 6))).lastYard = some ((fed.course 6).ticks, Row.zero) := by decide

theorem witness_SequencerOperationsIssue :
    let x := (A (crs 0 id)).course 0
    let ends := (A (crs 0 fun x => { x with
      ld := 1
      levels := x.levels.set 0 ⟨2, 1, x.pc⟩ })).course 0
    let full := (A (crs 0 fun x => { x with ld := 3 })).course 0
    let rung := A (crs 0 fun x => { x with handler := some 2 })
    let slot := (A (crs 0 fun x => { x with slots := 1 })).course 0
    let rpt := (A (crs 0 fun x => { x with rpt := true })).course 0
    let held := (A (crs 0 fun x => { x with stalled := some ⟨false, 0, 0, 0, none, Row.zero, []⟩ })).course 0
    let spent := A (crs 0 fun x => { x with overhead := true })
    let waits := A (shadowed fun e => e.setCourse 0 { e.course 0 with stalled := some ⟨false, 0, 0, 0, none, Row.zero, []⟩ })
    (x.slots = 0 ∧ x.rpt = false ∧ x.level = none ∧ x.ld ≠ 3 ∧ x.handler ≠ some 2 ∧ x.stalled = none ∧ x.overhead = false) ∧
    ((A (crs 0 id)).clocked 0 = true ∧ (A (crs 0 id)).isShadow 0 = false) ∧ (A (live id)).clocked 0 = false ∧
    (waits.isShadow 6 = true ∧ (waits.course (waits.migSrc (wallOf 6))).stalled ≠ none) ∧
    ((spent.course 0).overhead = true ∧ spent.eng.stopped = false ∧ spent.clocked 0 = true ∧ spent.isShadow 0 = false ∧
      (spent.course 0).stalled = none ∧ (spent.course 0).raised.getLsbD 3 = false) ∧
    (ends.level = some 0 ∧ ends.levels[0].le = ends.pc) ∧ (full.ld = 3 ∧ full.slots = 0 ∧ full.rpt = false) ∧
    ((rung.course 0).handler = some 2 ∧ rung.isShadow 0 = false) ∧ 0 < slot.slots ∧ rpt.rpt = true ∧ held.stalled ≠ none := by
  decide

theorem witness_LoopGoesRound :
    let x (n : BitVec 13) := (A (crs 0 fun x => { x with
      running := true
      ld := 1
      pc := 7
      levels := x.levels.set 0 ⟨n, 3, 7⟩ })).course 0
    let meets (y : Course) : Prop := y.stalled = none ∧ y.running = true ∧ y.overhead = false ∧ y.act = .none ∧ y.rpt = false ∧
      y.slots = 0 ∧ y.flight = [] ∧ y.level = some 0 ∧ y.levels[0].le = y.pc ∧ ∀ j : Fin 3, j < 0 → y.levels[j].le ≠ y.pc
    (A (crs 0 id)).eng.stopped = false ∧
    meets (x 2) ∧ (x 2).levels[0].lc ≠ 1 ∧ meets (x 1) ∧ (x 1).levels[0].lc = 1 := by decide

theorem witness_CourseInterruptTaken :
    let asked (hold : Nat) (f : Course → Course) := A (walled fun e => (e.setFld (F.ENG_C_MODE_HOLD 0) hold).setCourse 0 (f { e.course 0 with
      ics := 0x144
      taken := some 2 }))
    let open_ (e : Die) (c : Fin 28) : Prop := (e.course c).taken = some 2 ∧ (e.course c).stalled = none ∧ e.isShadow c = false ∧
      e.eng.stopped = false ∧ (e.workSeat c).isSome = true ∧ e.wallRuns (wallOf c) = true ∧ (e.course c).resumed = false
    let flying := asked 0 fun x => (x.plus 1 (.q .alu 3 Row.zero)).plus 5 .brk
    let nested := asked 0 fun x => { x with handler := some 3 }
    let held := asked 1 id
    let unclean := asked 1 fun x => x.plus 1 (.q .alu 3 Row.zero)
    let sh := A (shadowed id)
    ((A (crs 0 id)).course 0).taken = none ∧ (held.course 0).eligible = some 2 ∧
    (open_ flying 0 ∧ flying.bit (F.ENG_C_MODE_HOLD (flying.workCourse 0)) = false ∧ (flying.course 0).flight ≠ []) ∧
    (open_ nested 0 ∧ (nested.course 0).handler = some 3 ∧ (nested.course 0).flight = []) ∧
    (open_ held 0 ∧ held.bit (F.ENG_C_MODE_HOLD (held.workCourse 0)) = true ∧ (held.course 0).slots = 0 ∧ (held.course 0).rpt = false ∧
      (held.course 0).flight = []) ∧
    (unclean.bit (F.ENG_C_MODE_HOLD (unclean.workCourse 0)) = true ∧ (unclean.course 0).flight ≠ []) ∧
    ((asked 0 fun x => { x with resumed := true }).course 0).resumed = true ∧ (held.workSeat 6).isSome = false ∧
    (A (live id)).wallRuns (wallOf 0) = false ∧ sh.isShadow 6 = true ∧
    (A (live id)).clocked 0 = false ∧ (held.clocked 0 = true ∧ held.shadowing (wallOf 0) = false) ∧
    (sh.clocked 0 = true ∧ sh.shadowing 0 = true ∧ sh.migSrc 0 = 0 ∧ sh.migSpare 0 ≠ 0) := by decide +kernel

theorem witness_WallsAndMigrationAreCommanded :
    let off := A (live id)
    let heldOff := A (live fun e => { e with eng := { e.eng with walls := e.eng.walls.set 0 ⟨0, true⟩ } })
    let on := A (walled id)
    let ph (p : Nat) := A (live fun e => e.setFld (F.ENG_MIG_PHASE 0) p)
    let ahead := A (live fun e => (e.setFld (F.ENG_MIG_PHASE 0) Mig.ready).setRegN (R.ENG_MIGF 0) 1)
    off.wallState 0 = St.off ∧ on.wallState 0 ≠ St.off ∧
    (off.canonical = true ∧ ¬ (off.wallState 0 = St.off ∧ off.eng.walls[0].held = true)) ∧
    (heldOff.canonical = true ∧ heldOff.wallState 0 = St.off ∧ heldOff.eng.walls[0].held = true) ∧
    (off.spareOf 0 = some 6 ∧ off.fld (F.ENG_MIG_SRC 0) = 0 ∧ off.migPhase 0 = Mig.idle ∧
      (off.courseSeat (courseAt 0 0)).isSome = true) ∧
    (ph 1).migPhase 0 ≠ Mig.idle ∧
    (ahead.migPhase 0 = Mig.ready ∧ seqAfter (ahead.regN (R.ENG_MIGF 0)) ahead.seq = true) ∧
    ((ph Mig.shadow).migPhase 0 = Mig.shadow ∧ seqAfter ((ph Mig.shadow).regN (R.ENG_MIGF 0)) (ph Mig.shadow).seq = false) ∧
    ¬ ((ph 1).migPhase 0 = Mig.shadow ∨ (ph 1).migPhase 0 = Mig.verify ∨ (ph 1).migPhase 0 = Mig.ready) ∧
    (1 ≤ (ph 1).migPhase 0 ∧ (ph 4).migPhase 0 ≤ 4) ∧ (ph Mig.failed).migPhase 0 = Mig.failed ∧
    (ph Mig.moved).migPhase 0 = Mig.moved := by decide

theorem witness_WindowExchanges :
    let on := A (walled id)
    let ended := A (walled fun e => e.setCourse 0 { e.course 0 with reachedEnd := true })
    let sh := A (shadowed id)
    let shEnded := A (shadowed fun e => e.setCourse 6 { e.course 6 with reachedEnd := true })
    let zeroed := A (walled fun e => e.setFld (F.ENG_C_OVR_ZEROED 0) 1)
    let unseated := A (live fun e => e.setReg (R.ENG_SEATMAP 0) 7)
    let lead := A (walled fun e => e.setFld F.PAIR_STAT_ROLE Role.lead)
    (lead.runs .eng = true ∧ lead.runsKernels = true) ∧ on.serves 6 = false ∧
    (ended.serves 0 = true ∧ (ended.course 0).reachedEnd = true ∧ ended.isShadow 0 = false) ∧
    (shEnded.serves 6 = true ∧ (shEnded.course 6).reachedEnd = true ∧ shEnded.isShadow 6 = true) ∧
    (on.serves 0 = true ∧ (on.course 0).reachedEnd = false ∧ on.isShadow 0 = false) ∧
    (sh.serves 6 = true ∧ (sh.course 6).reachedEnd = false ∧ sh.isShadow 6 = true) ∧
    (on.seatCourse 0 = some 0 ∧ on.wallOn (wallOf 0) = true ∧ on.bit (F.ENG_C_OVR_ZEROED 0) = false ∧
      SMap.get markDflt (on.course 0).bad (tileKey Tl.pres 63) = 0) ∧
    (zeroed.seatCourse 0 = some 0 ∧ zeroed.bit (F.ENG_C_OVR_ZEROED 0) = true) ∧
    ((A (live id)).seatCourse 0 = some 0 ∧ (A (live id)).wallOn (wallOf 0) = false) ∧ unseated.seatCourse 0 = none := by decide +kernel

theorem witness_ArbitrationGrantsTheHighest :
    let e := A (walled id)
    e.mayAsk (.hod 3) = true ∧ .hod 3 ∈ [Requester.hod 3, .crossbar] ∧ ¬ (lateReq (.hod 3) = true ∧ e.cyc ≤ (0 : BitVec 15).toNat + 4) ∧
    (lateReq (.hod 3) = true ∧ e.cyc ≤ (20476 : BitVec 15).toNat + 4) := by decide

theorem witness_WindowsAreReadAndWritten :
    let off := A (live id)
    let on := A (walled id)
    let row := yardwRow 0x30000000
    let lost := A (walled fun e => e.updYard fun y => { y with grants := y.grants.set 0 (some (some (.hod 3))) })
    off.wallOn (bankOf row).val = false ∧
    (lost.wallOn (bankOf row).val = true ∧ lost.granted (bankOf row) (some .crossbar) = false) ∧
    (on.granted (bankOf row) (some .crossbar) = true ∧ on.fld (F.YRD_REMAP_PHASE (bankOf row)) = 0 ∧
      SMap.rising 0 on.yard.rows = true) ∧
    (on.wallOn (bankOf row).val = true ∧ on.yard.borrowed (on.yard.key row) = none ∧ on.yard.unwritten = false ∧
      SMap.get markDflt on.yard.bad (on.yard.key row) = 0 ∧ on.fld (F.YRD_REMAP_PHASE (bankOf row)) = 0) ∧
    engwCourse 0x20004000 = none ∧ engwCourse 0x20003FFC = some 0 ∧ engwCourse 0x201B3FFC = some 27 ∧
    off.wallState (wallOf 0) = St.off ∧ on.wallState (wallOf 0) ≠ St.off ∧ on.shadowing (wallOf 0) = false ∧ SMap.get markDflt (off.course 0).bad (tileKey Tl.zb (engwRow 0x20003FFC)) = 0 := by decide

theorem witness_HodsAndBackgroundTest :
    let e := A (walled id)
    let d : HodDesc := ⟨0x00010001, 0, 5, 9, false⟩
    let filled := A (live fun e => e.updHod 0 fun x => { x with queue := List.replicate 8 d })
    let fill := A (walled fun e => e.updHod 0 fun x => { x with
      running := some d
      inHand := none })
    let lost := A (walled fun e => (e.updHod 0 fun x => { x with
      running := some d }).updYard fun y => { y with grants := y.grants.set 0 (some (some .crossbar)) })
    let ph (p : TestPhase) := A (live fun e => e.updTest 0 fun t => { t with phase := p })
    let armed := A (walled fun e => (e.setFld F.YRD_TESTCTL_EN 15).updTest 0 fun t => { t with frames := 1 })
    (e.hod 0).queue.length < 8 ∧ 8 ≤ (filled.hod 0).queue.length ∧
    (lost.granted (bankOf 5) (some (.hod 0)) = false ∧ lost.granted 0 (some .test) = false ∧ lost.granted 0 (copyHod 0) = false ∧
      lost.hodTaken 0 = false ∧ hodEnd 0 d.d2 (lost.hod 0).moved = .yard 5) ∧
    (fill.granted (bankOf 5) (some (.hod 0)) = true ∧ (fill.hod 0).inHand = none ∧ fill.granted 0 (some .test) = true) ∧
    (fill.wallOn 0 = true ∧ fill.hodTaken 0 = false ∧ (fill.hod 0).running = some d ∧ d.waits = false ∧
      d.d0.toNat % 4 = 1 ∧ hodEnd 0 d.d2 (fill.hod 0).moved = .yard 5 ∧ fill.wallOn (bankOf 5).val = true ∧
      fill.yard.borrowed (fill.yard.key 5) = none ∧ fill.yard.unwritten = false ∧ fill.fld (F.YRD_REMAP_PHASE (bankOf 5)) = 0) ∧
    (armed.bitAt F.YRD_TESTCTL_EN 0 = true ∧ armed.wallOn 0 = true ∧ (armed.test 0).phase = .idle ∧
      (armed.test 0).borrowed = false ∧ armed.fld F.YRD_TESTCTL_PACE ≤ (armed.test 0).frames) ∧
    ((ph .capture).test 0).phase = .capture ∧ ((ph (.march 9)).test 0).phase = .march 9 ∧
    (((ph (.restore false)).test 0).phase = .restore false ∧ ∀ o : Fin 4, o ≠ 0 → ((ph (.restore false)).test o).borrowed = false) ∧
    SMap.rising 0 e.yard.rows = true := by decide

theorem witness_CorrectionAndRemap :
    let corr := A (live fun e => e.updYard fun y => { y with fixes := [7] })
    let on := A (walled id)
    let none_ := A (walled fun e => e.updYard fun y => { y with retired := (List.range 8).map fun k => 256 + k })
    let ph (p : Nat) := A (walled fun e => e.setFld (F.YRD_REMAP_PHASE 0) p)
    (corr.yard.fixes = [7] ∧ corr.yard.borrowed 7 = none ∧ corr.granted 0 (some .writeBack) = true ∧
      corr.fld (F.YRD_REMAP_PHASE 0) = 0) ∧ (on.yard.fixes = [] ∧ ∀ c : Fin 28, (on.course c).fixes = []) ∧
    (on.fld (F.YRD_REMAP_PHASE 0) = 0 ∧ on.wallOn 0 = true ∧ on.yard.spares 0 ≠ []) ∧
    (none_.fld (F.YRD_REMAP_PHASE 0) = 0 ∧ none_.wallOn 0 = true ∧ none_.yard.spares 0 = []) ∧
    ((ph 1).fld (F.YRD_REMAP_PHASE 0) = 1 ∧ (ph 1).granted 0 (copyHod 0) = true ∧ (ph 1).yard.remaps[0].nextRow + 1 < 4096 ∧
      (ph 1).yard.borrowed ((ph 1).yard.remaps[0].srcPhys * 4096 + (ph 1).yard.remaps[0].nextRow) = none ∧
      SMap.get markDflt (ph 1).yard.bad ((ph 1).yard.remaps[0].srcPhys * 4096 + (ph 1).yard.remaps[0].nextRow) = 0) ∧
    ((ph 2).fld (F.YRD_REMAP_PHASE 0) = 2 ∧ (ph 2).yard.remaps[0].todo = [] ∧ (ph 2).yard.remaps[0].dirty = []) := by decide

theorem witness_MortarWrites :
    let e := A (live id)
    let busy := A (live fun e => e.setFld F.MOR_STAT_MIRBUSY 1)
    let on := A (live fun e => e.setFld (brState false) St.on)
    (e.bit F.MOR_STAT_MIRBUSY = false ∧ sinkValid 0x43FF = true) ∧ sinkValid 0x4FFF = false ∧ busy.bit F.MOR_STAT_MIRBUSY = true ∧
    (3 < 4 ∧ (BitVec.ofNat 32 (R.MOR_SINE_INC 3)).toNat = R.MOR_SINE_INC 3) ∧ genRegs.contains 0x1000A000 = false ∧
    e.fld (brState (e.bit F.MOR_BRIDX_DIR)) = St.off ∧ on.fld (brState (on.bit F.MOR_BRIDX_DIR)) ≠ St.off := by decide

theorem witness_MortarWindow :
    let quarters (f : Mortar → Mortar) := A (live fun e => (e.setFld F.PAIR_STAT_ROLE Role.lead).updMor f)
    let e := quarters id
    let new (v : Word) := quarters fun m => { m with front := [(0x43FF, v)] }
    let inForce (v : Word) := quarters fun m => { m with inForce := [(0x43FF, v)] }
    let fade (n : Nat) := quarters fun m => { m with fades := [(0x43FF, ⟨0, 0x21000, n⟩)] }
    let more := quarters fun m => { m with
      fades := [(0x43FF, ⟨0, 0x21000, 4⟩)]
      front := [(0x43FF, 0x1001)] }
    let tail := quarters fun m => { m with total := 1 }
    entDiffers 0x1000 0 = true ∧ entFade 0x1000 = 0 ∧ entFade 0x21000 = 32 ∧ entDiffers 0x100000 0 = false ∧
    ((new 0x1000).mor.fades = [] ∧ (new 0x21000).mor.fades = []) ∧ more.mor.fades ≠ [] ∧
    sinkValid 0x4FFF = false ∧ sinkValid 0x43FF = true ∧
    (entMute 0x10000 = true ∧ entMute (0x9000 : Word) = false ∧ entInv 0x9000 = true ∧ (0x8000000 : Quarter).toInt = -134217728 ∧
      (inForce 0x9000).mor.fades = []) ∧ (fade 0).mor.fades = [(0x43FF, ⟨0, 0x21000, 0⟩)] ∧
    (e.mor.inForce.all (fun r => !entInv r.2) = true ∧ e.mor.fades = []) ∧ (e.runs .eng = true ∧ e.runsKernels = true) ∧
    30 + 1 < entFade 0x21000 ∧ entFade 0x21000 ≤ 31 + 1 ∧ (e.mor.fades = [] ∧ e.mor.total = 0) ∧
    ((fade 31).mor.fades ≠ [] ∧ (fade 31).mortarClose.mor.fades = []) ∧
    (let m := quarters fun m => { m with
       front := [(0x43FF, 0x21000)]
       fades := [(0x43FF, ⟨0, 0x21000, 31⟩)] }
     m.mor.fades ≠ [] ∧ (m.updMor fun x => { x with
       fades := []
       inForce := [(0x43FF, 0x21000)] }).mor.listed.all (fun j => !entDiffers (SMap.get wordDflt m.mor.front j)
         (SMap.get wordDflt [(0x43FF, 0x21000)] j)) = true) ∧ tail.mor.total ≠ 0 := by decide +kernel

theorem witness_RateBridges :
    let e := A (live id)
    let on := A (live fun e => e.setFld (brState true) St.on)
    let rising := A (live fun e => e.setFld (brState true) St.rising)
    let risingOn := A (live fun e => (e.setFld (brState true) St.rising).setFld (brEn true) 1)
    let far := A (live fun e => (e.updMor fun m => { m with ratio := 1 }).updBridge true fun b => { b with lastCh := 255 })
    let down := A (live fun e => e.updBridge true fun b => { b with
      ramp := .down 64 1 1
      pos := 64 })
    let locked := A (live fun e => ((e.setFld (brState true) St.on).setFld F.MOR_BRCTL_LOCK 1).updBridge true fun b => { b with
      ramp := .full })
    e.fld (brState true) = St.off ∧ on.fld (brState true) ≠ St.off ∧ (on.bridge true).ramp = .zero ∧ on.canonical = true ∧
    (on.bridge true).lastCh < (255 : BitVec 8).toNat ∧ ((255 : BitVec 8).toNat ≤ (far.bridge true).lastCh ∧ far.mor.ratio.toNat ≠ 0) ∧
    ((down.bridge true).ramp = .down 64 1 1 ∧ 64 ≤ (down.bridge true).pos) ∧
    (risingOn.fld (brState true) = St.rising ∧ (risingOn.bridge true).ramp = .zero ∧ risingOn.bit F.MOR_BRCTL_LOCK = false ∧
      ¬ (risingOn.bit (brEn true) = false)) ∧
    (on.bit F.MOR_BRCTL_LOCK = false ∧ on.fld (brState true) = St.on) ∧
    (locked.bit F.MOR_BRCTL_LOCK = true ∧ locked.canonical = true ∧ locked.fld (brState true) = St.on ∧
      (locked.bridge true).ramp = .full) ∧
    (rising.fld (brState true) = St.rising ∧ (rising.bridge true).ramp = .zero ∧ rising.bit (brEn true) = false) := by decide


theorem witness_SwapSlotsAndScenes :
    let armed (f : Nat) := A (live fun e => (e.setFld (F.ENG_SWAP_CTL_ARMED 0) 1).setRegN (R.ENG_SWAP_FRAME 0) f)
    let idle (f : Nat) := A (live fun e => e.setRegN (R.ENG_SWAP_FRAME 0) f)
    let k (e : Die) : Nat := (e.regN (R.ENG_SWAP_FRAME 0) + 2 ^ 32 - e.seq) % 2 ^ 32
    let is (e : Die) : Bool := e.bit (F.ENG_SWAP_CTL_ARMED 0)
    let p : Vector Block 2 := #v[0x1001000300000000, 0]
    let g : SceneGroup := ⟨2, 5, [(0x1000A000, 7), (0x500000, 9)]⟩
    let sc : Scene := ⟨3, [g]⟩
    let q (target flag : Nat) : Vector Block 2 := #v[BitVec.ofNat 64 (0x1001000300000000 + target), BitVec.ofNat 64 (flag * 2 ^ 16)]
    let e := A (live fun e => { e with swp := { e.swp with scenes := [sc] } })
    let written := g.writes.foldl Die.sceneWrite e
    let ahead (n : Nat) : Nat := ((bitsOf (q n 0)[0].toNat 0 32 + g.offset) % 2 ^ 32 + 2 ^ 32 - written.seq) % 2 ^ 32
    let old (f : Nat) := A (live fun e => ({ e with swp := { e.swp with
      scenes := [sc]
      armedBy := [1] } }.setFld (F.ENG_SWAP_CTL_ARMED 1) 1).setRegN (R.ENG_SWAP_FRAME 1) f |>.setRegN (R.ENG_SWAP_MASK 1) 4)
    let w : SceneWait := ⟨0, g, 0, false⟩
    let waits := A (live fun e => { e with swp := { e.swp with
      waits := [w]
      stuck := [1] } })
    let ticked := g.writes.foldl Die.sceneWrite { waits.tickLine with swp := { waits.swp with
      waits := []
      stuck := [] } }
    is (armed 2) = true ∧ 2 ≤ k (armed 2) ∧ k (armed 1) < 2 ∧ is (armed 1) = true ∧ is (idle 2) = false ∧ 2 ≤ k (idle 2) ∧
    k (idle (2 ^ 31 - 1)) < 2 ^ 31 ∧ 2 ^ 31 ≤ k (idle (2 ^ 31)) ∧ k (idle 1) < 2 ∧
    bitsOf (1 : Block).toNat 32 32 ≠ 1 ∧ bitsOf (p.set 1 (2 ^ 32 : Block))[1].toNat 32 32 ≠ e.swp.show_.toNat ∧
    (e.imageRuns = true ∧ bitsOf p[0].toNat 56 8 = 0x10 ∧ bitsOf p[0].toNat 48 8 = 1 ∧
      bitsOf p[1].toNat 32 32 = e.swp.show_.toNat ∧
      (A (live id)).swp.scenes.find? (fun sc => sc.number.toNat == bitsOf p[0].toNat 32 16) = none ∧
      e.swp.scenes.find? (fun sc => sc.number.toNat == bitsOf p[0].toNat 32 16) = some sc ∧ sc.groups = [g] ∧ e.swp.armedBy = [] ∧
      e.swp.stuck = [] ∧ e.swp.waits = [] ∧ e.canonical = true ∧ is written = false ∧ written.log.gathered = none ∧
      written.log.queue = [] ∧ written.runs .keep = true ∧ written.bit F.LOG_CTRL_FREEZE = false ∧ written.bit F.LOG_STAT_LOGFAIL = false) ∧
    (2 ≤ ahead 0 ∧ ahead (2 ^ 31 - 3) < 2 ^ 31) ∧ (2 ^ 31 ≤ ahead (2 ^ 31 - 2) ∧ natBit (q 0 1)[1].toNat 16 = true ∧ natBit (q 0 0)[1].toNat 16 = false) ∧
    ((old 1).imageRuns = true ∧ (old 1).swp.armedBy = [1] ∧ (old 1).swp.stuck = [] ∧ (old 1).bit (F.ENG_SWAP_CTL_ARMED 1) = true ∧
      ((old 1).regN (R.ENG_SWAP_FRAME 1) + 2 ^ 32 - (old 1).seq) % 2 ^ 32 < 2 ∧
      BitVec.ofNat 27 ((old 1).regN (R.ENG_SWAP_MASK 1)) &&& g.mask ≠ 0) ∧
    (waits.swp.waits = [w] ∧ waits.swp.stuck = [1] ∧ waits.bit (F.ENG_SWAP_CTL_ARMED 1) = false ∧ is ticked = false ∧
      waits.canonical = true) := by decide +kernel

theorem witness_EventsEnterTheQueue :
    let e := A (live id)
    let on := A (live fun e => e.setFld F.VOX_CTRL_STATE St.on)
    let full := A (live fun e => (e.setFld F.VOX_CTRL_STATE St.on).updVox fun x => { x with
      queue := List.replicate 512 ⟨0, 0, 0⟩ })
    let ev (hi : Word) : Block := hi ++ e.reg R.VOX_FWEV_LO
    let layered := A (live fun e => e.setFld F.VOX_CHLISTEN_LAYERS 1)
    evDiscarded (ev 0) = true ∧ evDiscarded (ev 0x10000000) = false ∧ e.voxState ≠ St.on ∧ on.voxState = St.on ∧
    512 ≤ full.vox.queue.length ∧ on.vox.queue.length < 512 ∧ natBit (ev 0x10000000).toNat 63 = false ∧
    (bitsOf (0x2001000100000000 : Block).toNat 56 8 = 0x20 ∧ bitsOf (0x2001000100000000 : Block).toNat 48 8 = 1 ∧
      1 ≤ bitsOf (0x2001000100000000 : Block).toNat 32 6 ∧ bitsOf (0x2001000100000000 : Block).toNat 32 6 ≤ [(0 : Block)].length ∧
      layered.bitAt F.VOX_CHLISTEN_LAYERS (bitsOf (0x2001000100000000 : Block).toNat 44 4) = true) ∧
    bitsOf (0 : Block).toNat 56 8 ≠ 0x20 := by decide +kernel

theorem witness_MidiReception :
    let off := A (live id)
    let on := A (live fun e => e.setFld F.MISC_MIDI_CTRL_STATE St.on)
    let asen := A (live fun e => (e.setFld F.MISC_MIDI_CTRL_STATE St.on).setFld F.VOX_MCFG_ASEN 3)
    let playing := A (live fun e => e.updMidi 0 fun p => { p with
      status := 0x95
      sensing := true })
    let filled := A (live fun e => e.updVox fun x => { x with fifo := [7] })
    let stood (x : Dom) := A (at_ fun e => ({ e with clk := ⟨[x], false, false⟩ } : Die).setFld F.MISC_MIDI_CTRL_STATE St.on)
    off.fld F.MISC_MIDI_CTRL_STATE = St.off ∧ (stood .ctl).runs .ctl = false ∧
    ((stood .eng).fld F.MISC_MIDI_CTRL_STATE ≠ St.off ∧ (stood .eng).runs .ctl = true ∧ (stood .eng).runs .eng = false) ∧
    (on.runs .ctl = true ∧ on.runs .eng = true ∧ on.vox.rxHeld = []) ∧ on.fld F.MISC_MIDI_CTRL_STATE ≠ St.off ∧ asen.bitAt F.VOX_MCFG_ASEN 1 = true ∧
    ((0x7F : Byte).toNat < 0x80 ∧ playing.vox.midi[0].status.toNat / 16 = 9 ∧ playing.vox.midi[0].data = []) ∧
    filled.vox.fifo = [7] ∧ on.vox.fifo = [] ∧ (playing.vox.midi[0].sensing = true ∧ playing.canonical = true) ∧
    on.vox.midi[0].sensing = false := by decide +kernel

theorem witness_BatchesAreResolved :
    let b (n : Word) : Batch := ⟨n, [], false, false⟩
    let e (o r : Option Batch) := A (live fun e => e.updVox fun x => { x with
      own := o
      received := r })
    let fol (l : List PwClass) := paired (fun e => (e.setFld F.PAIR_STAT_ROLE Role.follow).updPair fun p => { p with lossy := l }) id
    (A (live id)).voxFollows = false ∧ (live id).linked = false ∧ ((fol []).dieA.voxFollows = true ∧ (fol []).linked = true) ∧
    (fol []).dieA.pair.lossy.contains .batch = false ∧ (fol [.batch]).dieA.pair.lossy.contains .batch = true ∧ (e none none).vox.own = none ∧
    ((e (some (b 1)) (some (b 1))).vox.own = some (b 1) ∧ (e (some (b 1)) (some (b 1))).vox.received = some (b 1) ∧
      (b 1).frame = (b 1).frame) ∧
    ((e (some (b 1)) (some (b 2))).vox.own = some (b 1) ∧ (b 2).frame ≠ (b 1).frame) := by decide +kernel

theorem witness_NoteOnStartsLowestIdleVoice :
    (VoxRun.mk (A (live fun e => e.setVoice 0 { Voice.none with state := .on })) [] []).die.idleVoice = some 1 := by decide +kernel

/-- Group 3 with three voices that are ON, HELD and in RELEASE, two of them on note 60. -/
def threeVoices (f : Die → Die) : VoxRun := ⟨A (live fun e => f (((e.setVoice 5 ⟨.on, 3, 60, 7, 0, 0⟩).setVoice 6 ⟨.held, 3, 60, 6, 9, 0⟩).setVoice 7
  ⟨.release, 3, 61, 5, 0, 0⟩)), [], []⟩

/-- POLICY, PREFREL and FALLBACK of group 3. -/
def policy (p pref fall : Nat) : SMap Word :=
  SMap.set wordDflt [] (R.VOX_GCFG 3) (BitVec.ofNat 32 (6 + p * 2 ^ 22 + fall * 2 ^ 24 + pref * 2 ^ 25))

theorem witness_NoteOnFindsNone : let r : VoxRun := ⟨A (live id), [], []⟩
    r.die.voicesOf 3 Voice.busy = [] ∧ r.victim (policy 1 0 0) 3 60 = none := by decide +kernel

/-- A table that gives `n` keys from `a` on one value has it at each of them. -/
theorem get_run {α : Type} (f : Nat → α) (x : α) (n a k : Nat) (h : a ≤ k ∧ k < a + n) :
    SMap.get f ((List.range' a n).map fun v => (v, x)) k = x := by
  induction n generalizing a with
  | zero => omega
  | succ n ih =>
    by_cases e : a = k
    · simp [List.range'_succ, SMap.get, e]
    · simpa [List.range'_succ, SMap.get, e] using ih (a + 1) (by omega)

/-- Every voice is ON. -/
def full : Die := A (live fun e => e.updVox fun x => { x with
  voices := (List.range' 0 1024).map fun v => (v, ⟨.on, 0, 0, 0, 0, 0⟩) })

theorem witness_NoteOnFindsFull : full.idleVoice = none := by
  refine List.find?_eq_none.mpr fun v h => ?_
  have e : full.voice v = ⟨.on, 0, 0, 0, 0, 0⟩ :=
    get_run (fun _ => Voice.none) (⟨.on, 0, 0, 0, 0, 0⟩ : Voice) 1024 0 v ⟨v.zero_le, by have : v < 1024 := List.mem_range.mp h; omega⟩
  simp [e]

theorem witness_NoteOnSteals :
    let r := threeVoices id
    let v (c : SMap Word) (n : BitVec 7) : Option Nat := (r.victim c 3 n).map (·.1)
    v (policy 1 0 0) 60 = some 7 ∧ v (policy 2 0 0) 60 = some 6 ∧ v (policy 2 0 0) 61 = some 7 ∧ v (policy 2 0 1) 59 = some 7 ∧
    v (policy 0 0 0) 60 = some 5 ∧ v (policy 2 1 0) 60 = some 7 ∧
    (SMap.wf (fun _ => Voice.none) r.die.vox.voices = true ∧ r.die.level 5 = r.die.level 6) ∧ r.die.idleVoice = some 0 ∧
    r.die.voice 7 = ⟨.release, 3, 61, 5, 0, 0⟩ := by decide +kernel

theorem witness_BatchEventsApply :
    let r := threeVoices id
    let sus := threeVoices fun e => e.updVox fun x => { x with sustain := 8 }
    let heldOnly : VoxRun := ⟨A (live fun e => e.setVoice 6 ⟨.held, 3, 60, 6, 9, 0⟩), [], []⟩
    let on (r : VoxRun) (s : VState) := (oldestOf (r.die.voicesOf 3 fun v => v.state == s && v.note == 60)).map (·.1)
    SMap.wf (fun _ => Voice.none) r.die.vox.voices = true ∧
    (on r .on = some 5 ∧ natBit r.die.vox.sustain.toNat 3 = false ∧ natBit sus.die.vox.sustain.toNat 3 = true) ∧
    (on heldOnly .on = none ∧ on heldOnly .held = some 6) ∧ (on ⟨A (live id), [], []⟩ .on = none ∧ on ⟨A (live id), [], []⟩ .held = none) ∧
    ((r.die.voice 5).group = 3 ∧ (r.die.voice 5).state = .on ∧ (r.die.voice 6).state = .held ∧ (r.die.voice 7).busy = true ∧
      (r.die.voice 8).busy = false ∧ (r.die.voice 7).note = 61) ∧
    [2, 3, 4, 5, 6, 7].map (fun t => evType (mkEvent t 3 60 0 0)) = [2, 3, 4, 5, 6, 7] ∧ evCtl (mkEvent 5 3 0 0 7) < 8 ∧
    evCtl (mkEvent 5 3 0 0 8) = 8 ∧ (0x7FFF : BitVec 16).toNat < 0x8000 ∧
    0x8000 ≤ (0x8000 : BitVec 16).toNat := by decide +kernel

theorem witness_BatchPrepares :
    let r : VoxRun := ⟨A (live fun e => (e.setVoice 5 ⟨.fade, 3, 60, 7, 0, 1⟩).setVoice 6 ⟨.fade, 3, 60, 7, 0, 2⟩ |>.setVoice 7
      ⟨.release, 3, 61, 5, 0, 0⟩ |>.setVoice 8 ⟨.on, 3, 61, 5, 0, 0⟩), [], []⟩
    let marks (i : Nat) := markOns exampleCfg (fun _ => 5) (fun _ => 2) exampleBatch i
    SMap.wf (fun _ => Voice.none) r.die.vox.voices = true ∧ ((r.die.voice 5).state = .fade ∧ (r.die.voice 5).fadeFts ≤ 1) ∧
    ((r.die.voice 6).state = .fade ∧ 1 < (r.die.voice 6).fadeFts) ∧
    (let e := (r.die.setWallState 2 St.on).setCourse 14 { r.die.course 14 with reachedEnd := true }
     (e.voice 7).state = .release ∧ e.level 7 = 0 ∧ e.seatEnded (e.voicePlace 7).1 = true) ∧
    ((r.die.voicesOf 3 Voice.busy).length ≤ cfgQuota exampleCfg 3 ∧ (r.die.voice 8).state = .on ∧ (r.die.voice 8).group = 3) ∧
    (exampleBatch[0]?.map (fun b => evType b.ev) = some 1 ∧ exampleBatch[3]?.map (fun b => evType b.ev) = some 1 ∧
      exampleBatch[0]?.map (fun b => evGroup b.ev) = exampleBatch[3]?.map (fun b => evGroup b.ev)) ∧
    (exampleBatch[3]?.map (·.src)).getD 3 < (exampleBatch[0]?.map (·.src)).getD 0 ∧ marks 0 ≠ .drop ∧ marks 3 = .free ∧
    (exampleBatch.filter fun b => evType b.ev == 1 && evGroup b.ev == 3).length ≤ 6 - 0 := by decide +kernel

theorem witness_PalletsMove :
    let own := A (live fun e => ((((((e.setFld F.CHN_STAT_JOIN 2).setFld F.CHN_CTRL_INS_EN 1).setFld F.PAIR_STAT_ROLE Role.lead).setFld
      (F.CHNX_CTRL_STATE e.fwdTo.idx) St.on).updPort e.fwdTo fun x => { x with map := [(0, 2)] }).updChn fun c => { c with
        ready := some (0, []) }))
    let ext := A (live fun e => (e.setFld (F.CHNX_CTRL_STATE e.fwdFrom.idx) St.on).updPort e.fwdFrom fun x => { x with map := [(0, 1)] })
    let stood := A (at_ fun e => ({ e with clk := ⟨[.eng], false, false⟩ } : Die).setFld (F.CHNX_CTRL_STATE e.fwdFrom.idx) St.on)
    let b0 : Blocks := Vector.replicate 15 0
    let good (b : Blocks) : Blocks := b.set 0 (b[0] ||| BitVec.ofNat 64 (palCrc false b * 2 ^ 35))
    let far : Blocks := b0.set 0 5
    let empty : Blocks := b0.set 0 (2 ^ 51)
    let master := A (live fun e => ((e.setFld F.CHN_STAT_ELECT 2).setFld (F.CHNX_CTRL_STATE 0) St.on).setFld (F.CHNX_CTRL_STATE 1) St.on)
    let lost := paired id fun e => e.updPair fun p => { p with lossy := [.pallet] }
    (lost.linked = true ∧ (lost.die DieId.b).pair.lossy.contains .pallet = true ∧
      (paired id id).dieB.pair.lossy.contains .pallet = false) ∧
    ((A (live id)).portState .n = St.off ∧ (A (live id)).portState .s = St.off ∧ (A (live id)).chn.ready = none) ∧
    (stood.portState stood.fwdFrom ≠ St.off ∧ stood.runs .eng = false ∧ stood.idles = false) ∧ (stood.setFld F.BTL_STAT_STEP 7).idles = true ∧ stood.pair.passed.contains b0 = false ∧
    (ext.portState ext.fwdFrom ≠ St.off ∧ ext.runs .eng = true) ∧
    (own.chn.ready = some (0, []) ∧ own.carries own.fwdTo = true ∧ own.inserts = true ∧ own.owns own.fwdTo 0 = true ∧ 0 < own.palletCount own.fwdTo ∧
      own.gen1 own.fwdTo = false) ∧
    own.isMaster = false ∧ (master.isMaster = true ∧ master.portState master.fwdFrom ≠ St.off) ∧
    (master.intoPresent (palFld far 10 9) (20479 : BitVec 15).toNat = false) ∧
    ((master.updChn fun c => { c with originating := true }).intoPresent (palFld far 10 9) (0 : BitVec 15).toNat = true) ∧ palFld (good far) 35 16 = palCrc (master.gen1 master.fwdFrom) (good far) ∧
    palFld far 35 16 ≠ palCrc (master.gen1 master.fwdFrom) far ∧ (live id).linked = false ∧
    (palFld (good empty) 35 16 = palCrc (ext.gen1 ext.fwdFrom) (good empty) ∧ palFld (good empty) 51 1 = 1) ∧
    (palFld (good far) 51 1 = 0 ∧ palFld (good far) 0 9 ≠ ext.fld F.CHN_CTRL_POSID ∧ ext.inService = true ∧
      palFld (good far) 10 9 < 384 ∧ ext.extAt ext.fwdFrom 0 = true ∧ ext.chn.store = [] ∧
      (ext.seq + 1 + 2 ^ 32 - palFld (good far) 19 16) % 2 ^ 16 ≤ ext.fld F.CHN_PCTL_P + 1) := by decide +kernel

theorem witness_PalletsAge :
    let e := A (live fun e => e.setFld F.CHN_PCTL_P 16)
    let age (q : Nat) : Nat := (e.seq + 1 + 2 ^ 32 - q) % 2 ^ 16
    e.fld F.CHN_PCTL_P + 1 < age 65519 ∧ (age 65520 = e.fld F.CHN_PCTL_P + 1 ∧ e.cyc < (20479 : BitVec 15).toNat + 544) ∧
    ¬ (e.cyc < (0 : BitVec 15).toNat + 544) := by decide +kernel


theorem witness_LoadsMove :
    let ld (h : Nat) : Load := ldSeal ⟨BitVec.ofNat 64 h, [0], 0⟩
    let e := A (live id)
    let on (f : Die → Die) := A (live fun e => f (e.setFld (F.CHNX_CTRL_STATE e.fwdFrom.idx) St.on))
    let out (f : Die → Die) := A (live fun e => f (e.setFld (F.CHNX_CTRL_STATE e.fwdTo.idx) St.on))
    let q : QLoad := ⟨e.fwdOut, false, ld (2 ^ 53)⟩
    let busy := out fun e => e.updChn fun c => { c with sending := some (q, 1) }
    let ready := out fun e => e.updChn fun c => { c with queue := [q] }
    let fetch := A (live fun e => ((((e.setRegN (R.CHN_TXBASE 0) sharedBase).setFld (F.CHN_TXCNT_COUNT 0) 4).setFld
      (F.CHN_TXHEAD_INDEX 0) 1).setFld F.PAIR_STAT_ROLE Role.split))
    let fol := A (live fun e => (e.setFld F.PAIR_STAT_ROLE Role.follow).updPair fun p => { p with relay := [ld 0] })
    e.fwdFrom ≠ e.fwdFrom.other ∧
    ((on id).portState (on id).fwdFrom ≠ St.off ∧ (on id).wrapFar = false ∧ ldGood ⟨0, [0], 1⟩ = false ∧
      ldGood (ld (2 ^ 53 + 2 ^ 43)) = true ∧ (on id).addressed (ld (2 ^ 53 + 2 ^ 43)) = false ∧
      ldFld (ld (2 ^ 53 + 2 ^ 43)) 10 9 + 1 ≤ 511 ∧ ldFld (ld (2 ^ 53 + 2 ^ 43)) 53 9 ≠ (on id).fld F.CHN_CTRL_POSID ∧
      511 < ldFld (ld (2 ^ 53 + 2 ^ 43 + 511 * 2 ^ 10)) 10 9 + 1 ∧
      ldFld (ld (2 ^ 43)) 53 9 = (on id).fld F.CHN_CTRL_POSID) ∧
    (e.carries e.fwdTo = false ∧ e.chn.sending = none) ∧ e.portState .n = St.off ∧ (on id).wrapNear = false ∧
    (live id).dieB.pair.lossy.contains .load = false ∧ e.pair.relay = [] ∧
    (busy.carries busy.fwdTo = true ∧ busy.chn.sending = some (q, 1) ∧ 1 + 1 < (ldBlocks q.ld).length) ∧
    (ready.carries ready.fwdTo = true ∧ ready.hasCredit q.ld = true ∧ ready.chn.sending = none ∧ ready.pickLoad (3 : BitVec 11).toNat = some q ∧ ready.wrapNear = false) ∧
    ((out id).carries (out id).fwdTo = true ∧ (out id).chn.sending = none ∧ (out id).pickLoad (3 : BitVec 11).toNat = none) ∧ e.wrapNear = false ∧
    (ringAt (fetch.regN (R.CHN_TXBASE 0)) (fetch.fld (F.CHN_TXTAIL_INDEX 0)) = some sharedBase ∧ fetch.fetches = true ∧
      fetch.fld (F.CHN_TXCNT_COUNT 0) ≠ 0 ∧ fetch.fld (F.CHN_TXTAIL_INDEX 0) ≠ fetch.fld (F.CHN_TXHEAD_INDEX 0) ∧
      fetch.queued fetch.fwdOut 0 + 66 ≤ 8192 ∧ fetch.canonical = true) ∧
    (fol.pair.relay = [ld 0] ∧ fol.role = Role.follow) := by decide +kernel

theorem witness_StartBlocksAreForwarded :
    let b0 : Blocks := Vector.replicate 15 0
    let e := A (live id)
    let on := A (live fun e => (e.setFld (F.CHNX_CTRL_STATE 0) St.on).setFld (F.CHNX_CTRL_STATE 1) St.rising)
    let heard (h : Blocks) (g : Bool) (sb : Byte) := A (live fun e =>
      ((e.setFld (F.CHNX_CTRL_STATE 0) St.on).setFld (F.CHNX_CTRL_STATE 1) St.on).updPort e.fwdFrom fun x => { x with
        hdr := some h
        hdrGood := g
        startIn := sb })
    let held := heard (hdrSeal b0) true 0
    let due (e : Die) : Word := (e.port e.fwdFrom).arrival + BitVec.ofNat 32 (e.hopCycles e.fwdFrom)
    let busy := held.updChn fun c => { c with
      originating := true
      launched := due held }
    let bad := heard b0 false 1
    e.portState .n = St.off ∧ on.portState .n ≠ St.off ∧ on.portState .s ≠ St.off ∧ hdrGood b0 = false ∧ hdrGood (hdrSeal b0) = true ∧
    startReturn 0 = false ∧ startReturn 4 = true ∧ startReturn ((heard b0 true 4).port (heard b0 true 4).fwdFrom).startIn = true ∧
    (e.port e.fwdFrom).hdr = none ∧ ((bad.port bad.fwdFrom).hdr = some b0 ∧ (bad.port bad.fwdFrom).hdrGood = false ∧
      startReturn (bad.port bad.fwdFrom).startIn = false ∧ bad.isMaster = false ∧ bad.wrapSend.carries bad.wrapSend.fwdTo = true) ∧
    (A (live fun e => e.setFld F.CHN_STAT_ELECT 2)).isMaster = true ∧ held.fwdIn ≠ held.fwdOut ∧ held.ownGoesOn (due held) = false ∧
    busy.ownGoesOn (due busy) = true ∧
    ((held.port held.fwdFrom).hdr = some (hdrSeal b0) ∧ (held.port held.fwdFrom).hdrGood = true ∧ held.isMaster = false ∧
      startReturn (held.port held.fwdFrom).startIn = false ∧ held.wrapSend.carries held.wrapSend.fwdTo = true) := by decide +kernel

theorem witness_MasterOriginates :
    let e := A (live id)
    let master := A (live fun e => (e.setFld F.CHN_STAT_ELECT 2).setFld (F.CHNX_CTRL_STATE e.fwdOut.idx) St.on)
    let cap (q : Nat) := A (live fun e => ((e.setFld F.CHN_CTRL_MCAP 1).setFld F.CHN_CTRL_MRANK 3).updChn fun c => { c with quiet := q })
    let old := A (live fun e => (e.setFld F.CHN_CTRL_MCAP 1).setFld (F.CHNX_CTRL_GEN1 e.fwdTo.idx) 1)
    let b : Blocks := Vector.replicate 15 1
    let holds := A (live fun e => e.updChn fun c => { c with held := [(0, b)] })
    (e.isMaster = false ∧ e.bit F.CHN_CTRL_MCAP = false) ∧
    (master.isMaster = true ∧ master.wrapSend.carries master.wrapSend.fwdTo = true ∧ master.canonical = true) ∧
    (0 < holds.palletCount holds.wrapSend.fwdTo ∧ b ≠ Vector.replicate 15 0 ∧
      SMap.get (fun _ => Vector.replicate 15 0) holds.chn.held 0 = b) ∧
    ((cap 13).bit F.CHN_CTRL_MCAP = true ∧ (cap 13).chn.quiet < 8 + 2 * (cap 13).fld F.CHN_CTRL_MRANK) ∧
    (old.gen1 old.fwdTo = true ∧ old.bit F.CHN_CTRL_MFORCE = false) ∧
    ((cap 14).isMaster = false ∧ (cap 14).bit F.CHN_CTRL_MCAP = true ∧ 8 + 2 * (cap 14).fld F.CHN_CTRL_MRANK ≤ (cap 14).chn.quiet ∧
      (cap 14).gen1 (cap 14).fwdTo = false ∧ (cap 14).canonical = true) := by
  decide +kernel

theorem witness_ChainIsConfigured :
    let e := A (live id)
    let master := A (live fun e => e.setFld F.CHN_STAT_ELECT 2)
    let on := A (live fun e => e.setFld (F.CHNX_CTRL_STATE 0) St.on)
    let idx (n : Nat) := A (live fun e => e.setFld (F.CHNX_MAPIDX_SLOT 0) n)
    let deep := A (live fun e => e.setFld F.CHN_PCTL_P 1048575)
    let next (e : Die) (w : BitVec 2) := e.updChn fun c => { c with mapNext := c.mapNext ++ [(PortId.n, 5, w)] }
    let armed := A (live fun e => e.setFld F.CHN_PCTL_ARMED 1)
    let fit := A (live fun e => (e.setFld F.CHN_PCTL_PNEW 16).setRegN R.CHN_PFRAME 2)
    let k (e : Die) : Nat := e.framesTo (e.regN R.CHN_PFRAME)
    (e.isMaster = false ∧ e.canonical = true) ∧ master.isMaster = true ∧ e.portsOff = true ∧ on.portsOff = false ∧
    12288 ≤ (idx 12288).fld (F.CHNX_MAPIDX_SLOT 0) ∧
    ((idx 5).fld (F.CHNX_MAPIDX_SLOT 0) < 12288 ∧
      (next (idx 5) 1).mapApply.extCount * ((idx 5).fld F.CHN_PCTL_P + 2) ≤ 1048576) ∧
    armed.bit F.CHN_PCTL_ARMED = true ∧
    (fit.bit F.CHN_PCTL_ARMED = false ∧ 2 ≤ k fit ∧ k fit < 2 ^ 31 ∧ 16 ≤ fit.fld F.CHN_PCTL_PNEW ∧ fit.fld F.CHN_PCTL_PNEW ≤ 512 ∧
      fit.mapApply.extCount * (fit.fld F.CHN_PCTL_PNEW + 2) ≤ 1048576) ∧
    (e.bit F.CHN_PCTL_ARMED = false ∧ ¬ (2 ≤ k e)) ∧ deep.canonical = true := by decide +kernel

/-- Slots 0 to 1,023 extracted on the north port, and P at its greatest. -/
def fullStore : Die := A (live fun e => ((e.setFld (F.CHNX_MAPIDX_SLOT 0) 12287).setFld F.CHN_PCTL_P 1023).updPort .n fun x => { x with
  map := (List.range 1024).map fun k => (k, 1) })

/-- In a map whose entries all extract, every listed slot is extracted. -/
theorem slot_extracted (l : List Nat) (k : Nat) (h : k ∈ l) :
    SMap.get (fun _ => (0 : BitVec 2)) (l.map fun k => (k, (1 : BitVec 2))) k = 1 := by
  induction l with
  | nil => cases h
  | cons a l ih =>
    simp only [List.map_cons, SMap.get]
    split
    · rfl
    · exact ih ((List.mem_cons.mp h).resolve_left (fun h => by omega))

/-- The slots of one such map are all counted. -/
theorem slots_counted (e : Die) (l : List Nat) (hn : e.chn.n.map = l.map fun k => (k, 1)) (hs : e.chn.s.map = []) :
    e.extCount = l.length := by
  have h : e.mapSlots = l := by simp [Die.mapSlots, hn, hs, Function.comp_def]
  rw [Die.extCount, h, List.filter_eq_self.mpr]
  intro k hk
  have : e.extAt .n k = true := by
    show natBit (SMap.get (fun _ => (0 : BitVec 2)) e.chn.n.map k).toNat 0 = true
    rw [hn, slot_extracted l k hk]
    decide
  simp [Die.ext, this]

theorem witness_ChainStoreExceeded :
    let next := (fullStore.updChn fun c => { c with mapNext := c.mapNext ++ [(PortId.n, 12287, 0)] }).mapApply
    fullStore.fld (F.CHNX_MAPIDX_SLOT 0) < 12288 ∧ 1048576 < next.extCount * (fullStore.fld F.CHN_PCTL_P + 2) := by
  intro next
  have h : next.extCount = 1024 :=
    (slots_counted next (List.range 1024) (by decide +kernel) (by decide +kernel)).trans List.length_range
  have p : fullStore.fld F.CHN_PCTL_P = 1023 := by decide +kernel
  exact ⟨by decide +kernel, by rw [h, p]; decide⟩

theorem witness_WrapsFormAndHeal :
    let b0 : Blocks := Vector.replicate 15 0
    let e := A (live id)
    let on (f : Die → Die) := A (live fun e => f ((e.setFld (F.CHNX_CTRL_STATE 0) St.on).setFld (F.CHNX_CTRL_STATE 1) St.on))
    let heard (f : Die → Die) := on fun e => f (e.updPort e.fwdFrom fun x => { x with hdr := some b0 })
    let near (f : Die → Die) := heard fun e => f ((e.setFld F.CHN_STAT_WRAPNEAR 1).updPort e.fwdFrom fun x => { x with hdr := some b0 })
    let stops := near fun e => e.updChn fun c => { c with stopNext := true }
    let locked := near fun e => e.setFld (F.CHNX_STAT_LOCK e.fwdOut.idx) 1
    let far (n : Nat) := on fun e => (e.setFld F.CHN_STAT_WRAPFAR 1).updPort e.fwdIn fun x => { x with good := n }
    let sends (e : Die) : Prop := (e.port e.fwdFrom).hdr.isSome = true ∧ e.isMaster = false ∧ startReturn (e.port e.fwdFrom).startIn = false ∧
      e.ownGoesOn ((e.port e.fwdFrom).arrival + BitVec.ofNat 32 (e.hopCycles e.fwdFrom)) = false
    let quiet (e : Die) : Bool := e.bit (F.CHNX_STAT_LOS e.fwdOut.idx) || e.bit (F.CHNX_STAT_MODABS e.fwdOut.idx) ||
      e.bit (F.CHNX_STAT_TXFLT e.fwdOut.idx) || e.bit (F.CHNX_STAT_HIBER e.fwdOut.idx) || (e.port e.fwdOut).silent
    let light := near fun e => (e.updChn fun c => { c with stopNext := true }).setFld (F.CHNX_STAT_LOCK e.fwdOut.idx) 1
    let dark := near fun e => (e.updChn fun c => { c with stopNext := true }).setFld (F.CHNX_STAT_TXFLT e.fwdOut.idx) 1
    e.shut (rxDom .n) = false ∧
    e.portState .n = St.off ∧ ((on id).portState .n ≠ St.off ∧ (on id).canonical = true) ∧
    ((near id).wrapNear = true ∧ (near id).portState (near id).fwdOut ≠ St.off ∧ (near id).canonical = true) ∧
    (sends (heard id) ∧ (heard id).wrapNear = false ∧ (heard id).canonical = true) ∧
    (sends (near id) ∧ (near id).chn.stopNext = false ∧ (near id).wrapNear = true) ∧
    (sends stops ∧ stops.chn.stopNext = true ∧ stops.wrapNear = true ∧ stops.canonical = true) ∧
    (sends light ∧ light.wrapNear = true ∧ quiet light = false ∧ light.bit (F.CHNX_STAT_LOCK light.fwdOut.idx) = true) ∧
    (sends dark ∧ dark.wrapNear = true ∧ quiet dark = true) ∧ (4 : BitVec 3).getLsbD 0 = false ∧ (4 : BitVec 3).getLsbD 1 = false ∧
    (2 : BitVec 3).getLsbD 1 = true ∧
    ((on id).portState (on id).fwdOut ≠ St.off ∧ (on id).wrapFar = false) ∧
    ((far 255).portState (far 255).fwdIn ≠ St.off ∧ (far 255).wrapFar = true ∧ (far 255).canonical = true) ∧
    ((far 256).wrapFar = true ∧ ((far 256).port (far 256).fwdIn).good = 256) ∧
    (locked.wrapNear = true ∧ locked.bit (F.CHNX_STAT_LOCK locked.fwdOut.idx) = true) ∧ e.wrapNear = false := by decide +kernel

theorem witness_RolesBeginAndPass :
    let start (f : Die → Die) := A (live fun e => f (e.setFld F.PAIR_STAT_ROLE Role.start))
    let join := start fun e => (e.setFld F.BTL_STAT_IDOK 1).updPair fun p => { p with leadSeen := true }
    let alone := start fun e => e.updPair fun p => { p with startFrames := 64 }
    let afterB := (both id fun e => ((up e).setFld F.PAIR_STAT_ROLE Role.start).setFld F.PAIR_FENCE_DIN 1 |>.updPair fun p =>
      { p with dwnFrames := 64 }).dieB
    let split := start fun e => ((e.setFld F.PAIR_STAT_MODE 1).setFld F.BTL_STAT_MODE 1).updPair fun p => { p with startFrames := 64 }
    let lost := A (live fun e => e.setFld F.PAIR_STAT_ROLE Role.svclost)
    let lead (f : Nat) := A (live fun e => (e.setFld F.PAIR_STAT_ROLE Role.lead).setRegN R.PAIR_HOFRAME f)
    let k (e : Die) : Nat := e.framesTo (e.regN R.PAIR_HOFRAME)
    let rel := both (fun e => (up e).updPair fun p => { p with hoRelease := true }) fun e => e.setFld F.PAIR_STAT_ROLE Role.lead
    let alone' := both (fun e => (up e).updPair fun p => { p with hoRelease := true }) id
    (join.role = Role.start ∧ join.split = false ∧ join.pair.leadSeen = true ∧ join.bit F.BTL_STAT_IDOK = true ∧
      join.bit F.BTL_STAT_MODEMIS = false ∧ join.canonical = true) ∧ (alone.pair.leadSeen = false) ∧ (lost.pair.leadSeen = false) ∧
    (alone.mayLead = true ∧ alone.id = .a ∧ 64 ≤ alone.pair.startFrames) ∧
    (afterB.mayLead = true ∧ afterB.id = .b ∧ afterB.bit F.PAIR_FENCE_DIN = true ∧ 64 ≤ afterB.pair.dwnFrames) ∧
    (split.imageRuns = true ∧ split.role = Role.start ∧ split.split = true ∧ split.bit F.BTL_STAT_MODEMIS = false ∧
      split.bit F.BTL_PINFO_VALID = false ∧ 64 ≤ split.pair.startFrames) ∧ ¬ (lost.role = Role.start) ∧
    lost.role = Role.svclost ∧ ((lead 4).isLead = true ∧ 4 ≤ k (lead 4) ∧ k (lead 4) < 2 ^ 31) ∧ k (lead 3) < 4 ∧
    2 ^ 31 ≤ k (lead (2 ^ 31)) ∧ lost.isLead = false ∧ lost.pair.hoRelease = false ∧
    (rel.dieA.pair.hoRelease = true ∧ rel.dieB.role = Role.lead ∧ rel.dieA.canonical = true) ∧
    (alone'.dieA.pair.hoRelease = true ∧ alone'.dieB.role ≠ Role.lead) := by decide +kernel

theorem witness_PartyWallCarries :
    let s := paired (fun e => e.updPair fun p => { p with digests := [(4, 1, 2)] }) fun e => e.updPair fun p => { p with
      sent := some (Vector.replicate 3 7) }
    let lossy := paired (fun e => e.updPair fun p => { p with digests := [(4, 1, 2)] }) fun e => e.updPair fun p => { p with
      lossy := [.heartbeat] }
    let start := paired (fun e => e.setFld F.PAIR_STAT_ROLE Role.start) id
    let other := paired (fun e => (e.setFld F.PAIR_STAT_ROLE Role.start).setReg R.BTL_IDENT 1) id
    let mode := paired (fun e => (e.setFld F.PAIR_STAT_ROLE Role.start).setFld F.BTL_STAT_MODE 1) id
    let stands (e : Die) : Die := { e with clk := { e.clk with stopped := [.eng] } }
    let far := paired id fun e => stands (e.updPair fun p => { p with sent := some (Vector.replicate 3 7) })
    let here := paired (fun e => stands e) fun e => e.updPair fun p => { p with sent := some (Vector.replicate 3 7) }
    (far.linked = true ∧ far.dieB.runs .eng = false ∧ far.dieB.idles = false ∧ far.dieA.runs .eng = true ∧
      far.dieB.pair.lossy.contains .heartbeat = false ∧ far.dieB.pair.link ≠ 1) ∧
    (here.dieA.runs .eng = false ∧ here.dieA.idles = false ∧ here.linked = true ∧ here.dieA.pair.lossy.contains .health = false ∧
      here.dieA.canonical = true ∧ here.dieB.pair.sent = some (Vector.replicate 3 7)) ∧
    (s.canonical = true ∧ s.dieA.runs .ltx = true ∧ s.dieB.runs .ltx = true) ∧ (live id).dieB.runs .ltx = false ∧
    (after (.linkTrained .a) (live id)).linked = false ∧ (s.dieA.pair.digests = [(4, 1, 2)] ∧ s.linked = true ∧ s.dieB.canonical = true ∧
      s.dieB.pair.lossy.contains .heartbeat = false ∧ s.dieB.role ≠ Role.lead) ∧
    (lossy.linked = true ∧ lossy.dieA.pair.digests = [(4, 1, 2)] ∧ lossy.dieB.canonical = true ∧ lossy.dieA.runs .eng = true ∧
      lossy.dieB.pair.lossy.contains .heartbeat = true) ∧ s.dieA.pair.lossy.contains .health = false ∧ (both up up).linked = false ∧
    (s.dieB.pair.sent = some (Vector.replicate 3 7) ∧ s.dieA.canonical = true) ∧ s.dieB.imageRuns = true ∧
    (start.dieA.role = Role.start ∧ start.dieA.imageRuns = true ∧ start.dieB.fld F.BTL_STAT_MODE = 0 ∧
      start.dieA.fld F.BTL_STAT_MODE = 0 ∧ start.dieA.bit F.BTL_STAT_IDMIS = false ∧
      start.dieB.reg R.BTL_IDENT = start.dieA.reg R.BTL_IDENT ∧
      start.dieB.fld F.BTL_STAT_ROLE = start.dieA.fld F.BTL_STAT_ROLE) ∧
    (other.dieB.reg R.BTL_IDENT ≠ other.dieA.reg R.BTL_IDENT) ∧
    (mode.dieA.role = Role.start ∧ mode.dieB.fld F.BTL_STAT_MODE ≠ mode.dieA.fld F.BTL_STAT_MODE) := by decide +kernel

theorem witness_FenceAndDown :
    let fin (s : State) (d : DieId) : Bool := (s.die d).bit F.PAIR_FENCE_FIN
    let fout (s : State) (d : DieId) : Bool := (s.die d).bit F.PAIR_FENCE_FOUT
    let asked := paired id fun e => e.setFld F.PAIR_FENCE_FOUT 1
    let crossed := paired (fun e => e.setFld F.PAIR_FENCE_FOUT 1) fun e => e.setFld F.PAIR_FENCE_FOUT 1
    let fenced := paired id fun e => (e.setFld F.PAIR_FENCE_FOUT 1).setFld F.PAIR_FENCE_FIN 1
    let quiet := paired id id
    let holds := paired (fun e => e.updPair fun p => { p with holding := true }) id
    let down := paired (fun e => ((e.setFld F.PAIR_FENCE_DIN 1).setFld F.PAIR_STAT_PARTNER Role.lead).setFld F.PAIR_STAT_ROLE
      Role.follow) fun e => e.setFld F.PAIR_FENCE_DOUT 1
    ((paired (fun e => e.setFld F.FRZ_STAT_STATE 2) id).dieA.frzState = 2 ∧ quiet.dieA.frzState < 2) ∧ quiet.dieB.runs .keep = true ∧
    quiet.dieA.runs .keep = true ∧ (paired (fun e => { e with clk := { e.clk with stopped := [.keep] } }) id).dieA.runs .keep = false ∧
    (fout asked .b = true ∧ fin asked .a = false ∧ fin asked .b = false ∧ fout asked .a = false) ∧
    (fout crossed .a = true ∧ fin crossed .b = false ∧ fout crossed .b = true) ∧
    (fout fenced .b = true ∧ fin fenced .a = false ∧ fin fenced .b = true) ∧ fout quiet .b = false ∧
    ¬ (fin quiet .a = true ∧ fin quiet .b = true) ∧ ¬ (quiet.dieA.role = Role.lead) ∧ quiet.canonical = true ∧
    holds.dieA.pair.holding = true ∧ quiet.dieA.pair.holding = false ∧ down.dieB.bit F.PAIR_FENCE_DOUT = true ∧
    (paired id fun e => e.setFld F.PAIR_FENCE_DOUT 0).dieB.bit F.PAIR_FENCE_DOUT = false ∧
    (down.dieA.split = false ∧ down.dieA.bit F.PAIR_FENCE_DIN = true ∧ down.dieA.fld F.PAIR_STAT_PARTNER = Role.lead ∧
      down.dieA.role = Role.follow) ∧ quiet.dieA.fld F.PAIR_STAT_PARTNER ≠ Role.lead ∧ down.canonical = true := by decide +kernel

theorem witness_StateCopyTakes :
    let join (k : Nat) (f : Die → Die) := paired (fun e => f ((e.setFld F.PAIR_STAT_ROLE Role.join).setFld F.PAIR_COPY_PHASE k)) id
    let has (k : Nat) (l : List CopyItem) := join k fun e => e.updPair fun p => { p with copy := { p.copy with items := l } }
    let e := (join 1 id).dieA
    let b := (join 1 id).dieB
    (both up up).linked = false ∧ ((paired id id).dieA.role ≠ Role.join ∧ (paired id id).dieA.pair.lossy.contains .copy = false) ∧
    ((join 1 id).linked = true ∧ (join 1 id).dieA.pair.lossy.contains .copy = false ∧ (join 1 id).dieA.role = Role.join ∧ (join 1 id).dieA.canonical = true ∧
      (join 1 id).dieA.runs .eng = true ∧ (join 1 id).dieB.runs .eng = true ∧
      (join 1 id).dieA.fld F.PAIR_COPY_PHASE = 1) ∧ itemPhase (.tiles 0) ≠ 1 ∧ CopyItem.tiles 0 ≠ .phaseEnd ∧
    (b.canonical = true ∧ e.seatCourse 0 = some 0 ∧ b.seatCourse 0 = some 0 ∧ (b.course 0).bad = []) ∧
    (0x400000 + 0x100000 + 0x100000 ≤ 0x600000 ∧ e.mem.bad = [] ∧ b.mem.bad = []) ∧
    ((has 1 phase1Items).dieA.fld F.PAIR_COPY_PHASE = 1 ∧ (has 1 phase1Items).dieA.phaseWhole = true) ∧
    (let l : List CopyItem := .voices :: (List.finRange 24).map CopyItem.tiles
     (has 2 l).dieA.fld F.PAIR_COPY_PHASE = 2 ∧ (has 2 l).dieA.phaseWhole = true) ∧
    (has 2 [.voices]).dieA.phaseWhole = false := by decide +kernel

theorem witness_StateCopyRows :
    let stood (l : Bool) (k : Nat) (g : Option Requester) := paired (fun e => ((e.setFld F.PAIR_STAT_ROLE Role.join).setFld F.PAIR_COPY_PHASE k).updYard
      fun y => { y with grants := y.grants.set 0 (some g) }) fun e => { e with
        eng := { e.eng with window := l }
        yard := { e.yard with grants := e.yard.grants.set 0 (some (some .stateCopy)) } }
    let asked := stood true 4 (some .stateCopy)
    let row : BitVec 22 := 8
    let plain (x : Die) : Prop := x.yard.borrowed (x.yard.key row) = none ∧ x.yard.unwritten = false ∧
      SMap.get markDflt x.yard.bad (x.yard.key row) = 0 ∧ x.fld (F.YRD_REMAP_PHASE (bankOf row)) = 0 ∧ x.yard.rmws = []
    (asked.linked = true ∧ asked.dieA.pair.lossy.contains .copy = false ∧ asked.dieA.role = Role.join ∧ asked.dieA.runs .eng = true ∧
      asked.dieB.runs .eng = true ∧ asked.dieA.canonical = true ∧ asked.dieB.canonical = true) ∧
    ((stood false 2 none).dieB.eng.window = false ∧ (stood false 2 none).dieA.fld F.PAIR_COPY_PHASE = 2) ∧
    (asked.dieB.eng.window = true ∧ asked.dieA.fld F.PAIR_COPY_PHASE = 4 ∧ (stood true 3 none).dieA.fld F.PAIR_COPY_PHASE = 3) ∧
    (asked.dieA.seatCourse 23 = some 26 ∧ asked.dieB.seatCourse 23 = some 26 ∧ (asked.dieA.course 26).bad = [] ∧
      (asked.dieB.course 26).bad = []) ∧
    (stood true 3 (some .crossbar)).dieA.granted (bankOf row) (some .stateCopy) = false ∧
    (asked.dieA.yard.grants[bankOf row] = some (some .stateCopy) ∧ asked.dieB.yard.grants[bankOf row] = some (some .stateCopy)) ∧
    (plain asked.dieA ∧ plain asked.dieB ∧ row.toNat % 8 = 0 ∧ asked.dieA.pair.copy.part = []) := by decide +kernel

theorem witness_CopyChangesRepeat :
    let join (l : List CopyItem) := paired (fun e => (e.setFld F.PAIR_STAT_ROLE Role.join).updPair fun p => { p with copy := { p.copy with
      items := l } }) id
    let s := join [.zBanks 0, .routes, .voiceCfg, .rings, .sharedRegion 0x500000 8]
    let e := s.dieA
    let none_ := (join []).dieA
    (s.linked = true ∧ e.pair.lossy.contains .copy = false ∧ e.role = Role.join ∧ e.canonical = true) ∧ e.workSeat 0 = some 0 ∧
    [CopyItem.zBanks 0, .routes, .voiceCfg, .rings].all (fun i => e.pair.copy.items.contains i && !none_.pair.copy.items.contains i) = true ∧
    SMap.get markDflt (e.course 0).bad (tileKey Tl.zb 511) = 0 ∧ voiceCfgRegs ≠ [] ∧ voiceCfgRegs.contains 0 = false ∧
    SMap.rising 0 e.yard.rings = true ∧ (e.pair.copy.hasByte 0x500007 = true ∧ inMem 0x500007 = true ∧ e.mem.bad = []) ∧
    e.pair.copy.hasByte 0x500008 = false := by decide +kernel


/-- An image slot of die A: one ROLE section of four bytes, its CRCs and the header's good. -/
def goodSlot (gen : Nat) : List Byte :=
  let le (n v : Nat) : List Byte := (List.range n).map fun k => BitVec.ofNat 8 (v / 256 ^ k)
  let sec : List Byte := le 2 1 ++ le 2 0 ++ le 4 0x1000 ++ le 4 4 ++ le 4 (crc32Bytes (le 4 0))
  let head : List Byte := le 4 0x384C5653 ++ le 4 1 ++ le 4 0x1004 ++ le 4 gen ++ le 4 1 ++ le 4 0
  head ++ le 4 (crc32Bytes (head ++ sec)) ++ le 4 0 ++ sec ++ List.replicate (0x1000 - 0x30) 0xFF ++ le 4 0

theorem witness_LoaderStarts :
    let st (k : Nat) (f : Die → Die) := A (live fun e => f (e.setFld F.BTL_STAT_STEP k))
    let row : SecRow := ⟨0x10, 0, 0x1000, 4, crc32Bytes (List.replicate 4 0)⟩
    let c : Chosen := ⟨false, [row], 0, 1, 2, false⟩
    let powered := A (at_ fun e => (e.setFld F.BTL_PLUG_STATE 2).setFld F.BTL_SUPPLY_OK 0x3F)
    let leaving (k : Nat) := st k fun e => e.setFld F.BTL_PLUG_STATE 5
    let bytes : List Byte := List.replicate 0x1000 0xFF ++ List.replicate 4 0
    let one := st 1 fun e => e.updBoot fun b => { b with sampled := true }
    let held := st 1 fun e => (e.setFld F.BTL_STRAP_ROLE 3).updBoot fun b => { b with sampled := true }
    let two := st 2 fun e => e.updBoot fun b => { b with chosen := some c }
    let five (p : Bool) := st 5 fun e => ([0, 1, 2, 3].foldl (fun e w => e.setWallState w St.on) e).updBoot fun b => { b with
      chosen := some c
      placed := p }
    (A State.reset).mayStart = false ∧ (powered.mayStart = true ∧ powered.bootStep < 2 ∧ powered.canonical = true) ∧
    2 ≤ two.bootStep ∧
    (let fenced := both (fun e => ((e.setFld F.BTL_PLUG_STATE 2).setFld F.BTL_SUPPLY_OK 0x3F).setFld F.PAIR_FENCE_FIN 1) fun e => e.setFld F.PAIR_FENCE_DOUT 1
     fenced.dieA.mayStart = true ∧ fenced.dieA.bootStep = 0 ∧ fenced.dieA.bit F.PAIR_FENCE_FIN = true ∧
      fenced.dieB.bit F.PAIR_FENCE_DOUT = true ∧ fenced.canonical = true) ∧ one.bootStep ≠ 2 ∧ one.fld F.BTL_STRAP_ROLE ≠ 3 ∧
    (one.bootStep = 1 ∧ one.boot.sampled = true ∧ one.fld F.BTL_STRAP_ROLE ≠ 3 ∧ one.canonical = true ∧
      one.fld F.BTL_SLOTSTAT_A ≠ 9 ∧ one.boot.tried.1 = 0 ∧ judgeSlot (goodSlot 5) = 1 ∧ le32 (goodSlot 4) 0x0C ≤ le32 (goodSlot 5) 0x0C) ∧
    (two.boot.chosen = some c ∧ two.bootStep = 2 ∧ two.canonical = true ∧ (List.range 8).all (fun i => !two.selectable i) = true) ∧ one.boot.chosen = none ∧
    ((leaving 2).fld F.BTL_PLUG_STATE = 5 ∧ ¬ (one.fld F.BTL_PLUG_STATE = 5) ∧ (leaving 2).boot.chosen = none) ∧
    (c.table = [row] ∧ row.type = 0x10 + 0 ∧ row.flags = 0 ∧ crc32Bytes (slice bytes row.offset row.size) = row.crc) ∧
    (row ∈ c.table ∧ crc32Bytes (slice [] row.offset row.size) ≠ row.crc) ∧
    ((five false).boot.chosen = some c ∧ (five false).bootStep = 5 ∧ (five false).wallsUp = true ∧
      (five false).boot.placed = false ∧ (five false).canonical = true) ∧ (five true).boot.placed = true ∧
    ((st 2 id).bootStep = 2 ∧ (st 2 id).boot.chosen = none) ∧
    (held.bootStep = 1 ∧ held.boot.sampled = true ∧ held.fld F.BTL_STRAP_ROLE = 3 ∧ held.canonical = true) := by decide +kernel

theorem witness_DieResetsAndSupplies :
    let e := A (live id)
    let plug (k : Nat) := A (live fun e => e.setFld F.BTL_PLUG_STATE k)
    let frozen := A (live fun e => e.setFld F.FRZ_STAT_STATE 3)
    let keyed := A (live fun e => e.updBoot fun b => { b with key := true })
    let cmd : FlashCmd := ⟨0, 0, false, [], 256⟩
    let busy := A (live fun e => e.updBoot fun b => { b with flash := some cmd })
    let supplied := A (live fun e => (e.setFld F.BTL_PLUG_STATE 1).setFld F.BTL_SUPPLY_OK 0x3F)
    let good (e : Die) (v : Word) : Prop := 6 ≤ e.bootStep ∧ e.bit F.BTL_FSTAT_BUSY = false ∧ bitsOf v.toNat 16 9 ≤ 256 ∧
      (bitsOf v.toNat 8 3 = 0 ∨ bitsOf v.toNat 8 3 = 3 ∨ bitsOf v.toNat 8 3 = 4)
    let port (st : Nat) := A (live fun e => e.setFld (F.CHNX_CTRL_STATE 1) st)
    let cold := dieAfter (.supplyReset .a .vio18) (live id)
    (e.runs .keep = true ∧ (cold.runs .keep = false ∧ cold.frzState ≠ 3)) ∧ (port St.rising).portState .s = St.rising ∧
    (port St.on).portState .s = St.on ∧ (live id).dieB.runs .keep = true ∧
    (live id).canonical = true ∧ (plug 5).fld F.BTL_PLUG_STATE = 5 ∧ e.fld F.BTL_PLUG_STATE ≠ 5 ∧ frozen.frzState = 3 ∧
    keyed.boot.key = true ∧ e.boot.key = false ∧ natBit (0 : Word).toNat 31 = false ∧
    (natBit (0x81000400 : Word).toNat 31 = true ∧ e.canonical = true ∧ good e 0x81000400 ∧ ¬ good e 0x81010400 ∧
      ¬ good e 0x81000100) ∧
    e.boot.flash = none ∧ (busy.boot.flash = some cmd ∧ busy.canonical = true ∧ 255 < cmd.len ∧ cmd.write = false) ∧
    e.fld F.BTL_PLUG_STATE = 0 ∧ (plug 1).fld F.BTL_PLUG_STATE ≠ 0 ∧ (plug 1).fld F.BTL_PLUG_STATE ≠ 5 ∧
    (supplied.fld F.BTL_PLUG_STATE = 1 ∧ supplied.fld F.BTL_SUPPLY_OK = 0x3F ∧ supplied.canonical = true) ∧
    (dieAfter (.supplyReset .a .vio18) (live id)).boot.low.contains .vio18 = true ∧ (1 ≤ (plug 4).fld F.BTL_PLUG_STATE ∧ (plug 4).fld F.BTL_PLUG_STATE ≤ 4) := by decide +kernel

theorem witness_ReferenceIsFollowed :
    let e := A (live id)
    let met (g : List (BitVec 32)) := A (live fun e => e.updRef fun r => { r with
      last := r.last.set 1 (some 0)
      glitches := r.glitches.set 1 g })
    let bad (n : Nat) := glitchIv ((met []).inputHz 1) (((met []).eventInstant 1 (BitVec.ofNat 48 n) 0) - 0).toNat
    let fol := A (live fun e => (e.setFld F.PAIR_STAT_ROLE Role.follow).updPair fun p => { p with
      beat := some (4, 100)
      fts := [(5, 90)] })
    let gated := A (live fun e => e.updRef fun r => { r with gates := (r.gates.set 1 19).set 2 1 })
    let two := A (live fun e => ((e.setFld F.REF_RANK_RANK 1).setFld (F.REF_IN_QUAL 1) 1).setFld F.REF_STAT_STATE RefSt.lock)
    let switching := A (live fun e => e.setFld F.REF_STAT_SWITCHING 1)
    let acq (f : Die → Die) := A (live fun e => f (e.setFld F.REF_STAT_STATE RefSt.acq))
    let off (n : Nat) := acq fun e => e.setRegN R.REF_FOFS n
    let aligned := A (live fun e => (e.setFld F.REF_STAT_ALIGNING 1).setRegN R.REF_ALIGNOFS 5)
    let held := A (live fun e => (e.setFld F.REF_STAT_STATE RefSt.hold).setRegN R.REF_HOLDTIME 4294967295)
    let lock := A (live fun e => e.setFld F.REF_STAT_STATE RefSt.lock)
    let aligning := A (live fun e => e.setFld F.REF_STAT_ALIGNING 1)
    let slews := A (live fun e => e.updRef fun r => { r with slewing := true })
    e.canonical = true ∧ e.ref.last[0] = none ∧ bad 2500 = false ∧ bad 2375 = false ∧ bad 2374 = true ∧ bad 2625 = false ∧
    bad 2626 = true ∧ ((met []).recentGlitches 1).length < 2 ∧ 2 ≤ ((met [0, 0]).recentGlitches 1).length ∧
    (fol.refFollows = true ∧ fol.pair.beat = some (4, 100) ∧ fol.pair.fts.find? (fun x => x.1 == (4 + 1) % 2 ^ 32) = some (5, 90)) ∧
    e.refFollows = false ∧ (10001 : BitVec 16).toInt.natAbs > 10000 ∧
    ((5000 : BitVec 16).toInt.natAbs ≤ 5000 ∧ gated.ringBar 1 = 0 ∧ 20 ≤ gated.ref.gates[1] + 1 ∧ 2 ≤ gated.ref.gates[2] + 1) ∧
    (two.refFollows = false ∧ two.bit F.REF_STAT_SWITCHING = false ∧ two.refState = RefSt.lock ∧
      (two.setFld F.REF_RANK_RANK 0).selectable (two.fld F.REF_STAT_SEL) = false ∧
      (two.setFld F.REF_RANK_RANK 0).bestInput = some 1 ∧ two.bestInput = some 1 ∧ two.bit F.REF_CTRL_FORCE = false) ∧
    switching.bit F.REF_STAT_SWITCHING = true ∧ e.bit F.REF_STAT_SWITCHING = false ∧
    (A (live fun e => e.setFld F.REF_CTRL_FASTACQ 0)).bit F.REF_CTRL_FASTACQ = false ∧
    (slews.ref.slewing = true ∧ slews.fofs - slews.ref.alignOff = slews.inFreq (slews.fld F.REF_STAT_SEL) ∧ e.ref.slewing = false) ∧
    (let x := off 100
     x.refState = RefSt.acq ∧ x.bit F.REF_STAT_SWITCHING = false ∧ (x.fofs - x.ref.alignOff - x.inFreq (x.fld F.REF_STAT_SEL)).natAbs ≤ 100) ∧
    (let x := off 101
     100 < (x.fofs - x.ref.alignOff - x.inFreq (x.fld F.REF_STAT_SEL)).natAbs) ∧
    (aligned.bit F.REF_STAT_ALIGNING = true ∧ aligned.reg R.REF_PHASE ≠ aligned.reg R.REF_ALIGNOFS ∧
      aligning.reg R.REF_PHASE = aligning.reg R.REF_ALIGNOFS) ∧
    ((32000000 : Word).toNat = 32000000 ∧ (192000000 : Word).toNat ≤ 192000000 ∧ (31999999 : Word).toNat < 32000000 ∧
      192000000 < (192000001 : Word).toNat) ∧
    ¬ (e.refState = RefSt.acq) ∧ (held.refState = RefSt.hold ∧ held.regN R.REF_HOLDLIM < held.regN R.REF_HOLDTIME) ∧
    ¬ (e.refState = RefSt.hold) ∧ e.refState = RefSt.free ∧
    ¬ (lock.refState = RefSt.free ∨ lock.refState = RefSt.hold ∨ lock.refState = RefSt.lost ∨ lock.refFollows = true) ∧
    e.bit F.REF_STAT_ALIGNING = false ∧ aligning.bit F.REF_STAT_ALIGNING = true := by decide +kernel

/-- A time-of-day message of second 5 with a good CRC. -/
def todMsg : Vector Byte 16 :=
  let b : Vector Byte 16 := #v[0x53, 0x54, 0x01, 0x01, 0, 0, 0, 0, 0, 5, 0, 37, 0, 0, 0, 0]
  let c := crc16Bytes (b.toList.take 14)
  (b.set 14 (BitVec.ofNat 8 (c / 256))).set 15 (BitVec.ofNat 8 c)

theorem witness_TimeAndStamps :
    let src (k n : Nat) (f : Die → Die) := A (live fun e => f (((e.setFld F.TIM_CTRL_AUTO 0).setFld F.TIM_CTRL_SRC k).updTim fun t =>
      { t with
        diffSrc := k
        diffs := List.replicate n 0 }))
    let valid (k n : Nat) := src k n fun e => e.setFld F.TIM_STAT_VALID 1
    let e := A (live id)
    let soon := A (live fun e => e.setRegN R.TIM_STEPFRAME 2)
    let edge (g : Option (BitVec 48)) := A (live fun e => (e.setFld (F.REF_IN_QUAL 2) 1).updTim fun t => { t with
      tod := { t.tod with
        accepted := true
        got := g } })
    let out := A (live fun e => e.setFld F.TIM_CTRL_PPSOUT_EN 1)
    let noOut := A (live fun e => e.setFld F.TIM_CTRL_PPSOUT_EN 0)
    let waits := A (live fun e => e.updTim fun t => { t with ppsAlign := true })
    let on := A (live fun e => e.setFld F.TIM_SQCTL_SBRX 1)
    let full := A (live fun e => (e.setFld F.TIM_SQCTL_SBRX 1).updTim fun t => { t with rx := List.replicate 8 ⟨1, 0⟩ })
    ((src 0 1 id).timUsed = 0 ∧ (src 1 0 id).tim.diffs = []) ∧
    ((src 1 1 id).timUsed = 1 ∧ (src 1 1 id).tim.diffSrc = 1 ∧ (src 1 1 id).tim.diffs = [0] ∧
      (src 1 1 id).bit F.TIM_STAT_VALID = false ∧ (src 1 1 id).canonical = true) ∧
    ((valid 2 63).timUsed = 2 ∧ (valid 2 63).bit F.TIM_STAT_VALID = true ∧ (valid 2 63).tim.diffs.length < 64) ∧
    ((valid 2 64).timUsed = 2 ∧ 64 ≤ (valid 2 64).tim.diffs.length ∧ (valid 1 4).timUsed = 1 ∧ 4 ≤ (valid 1 4).tim.diffs.length) ∧ soon.armOk (soon.regN R.TIM_STEPFRAME) = true ∧
    e.armOk (e.regN R.TIM_STEPFRAME) = false ∧ todGood todMsg false = false ∧ todGood todMsg true = true ∧ e.qual 2 = false ∧
    ((edge none).qual 2 = true ∧ (edge none).tim.tod.accepted = true ∧ (edge none).tim.tod.got = none) ∧
    (edge (some 1)).tim.tod.got = some ((edge (some 1)).tim.tod.count + 1) ∧ out.ppsOn = true ∧
    out.tim.ppsAlign = false ∧ noOut.ppsOn = false ∧ waits.tim.ppsAlign = true ∧ e.stampId (.startRx 5) = none ∧ StampEvent.startRx 5 ≠ .ppsRx ∧
    (on.stampId (.startRx 0) = some (true, 0) ∧ on.tim.rx.length < 8 ∧ on.canonical = true) ∧
    (full.stampId (.startRx 0) = some (true, 0) ∧ 8 ≤ full.tim.rx.length) ∧ e.tim.rx = [] ∧ e.tim.tx = [] := by decide +kernel

theorem witness_SerialPortsPass :
    let e := A (live id)
    let on (f : SapPort → SapPort) := A (live fun e => (e.setFld (F.SAP_P_CTRL_STATE 0) St.on).updSap 0 f)
    let flow := on fun q => { q with flow := true }
    let full := on fun q => { q with
      flow := true
      inQ := List.replicate 64 0 }
    let out := on fun q => { q with
      flow := true
      outRun := true
      outQ := [5] }
    let master := on id
    let slaved := A (live fun e => ((e.setFld (F.SAP_P_CTRL_STATE 0) St.on).setFld (F.SAP_G_CTRL_MODE 0) 1))
    let stood := A (at_ fun e => { e with clk := ⟨[.sapm], false, false⟩ })
    stood.runs (groupDom (stood.group 0)) = false ∧ e.runs (groupDom (e.group 0)) = true ∧ e.shut (groupDom (e.group 0)) = false ∧
    (slaved.slave 0 = true ∧ slaved.breaks 0 0 (slaved.bitPeriods 0) false = false ∧ slaved.sapState 0 ≠ St.off ∧
      slaved.canonical = true ∧ (slaved.sapPort 0).maskLate = false) ∧
    (e.sapPort 0).flow = false ∧ (on id).passing 0 = true ∧ e.passing 0 = false ∧ e.sapState 0 = St.off ∧
    ((flow.sapPort 0).flow = true ∧ flow.passing 0 = true ∧ (flow.sapPort 0).inQ.length < 2 * flow.slotCount 0) ∧
    2 * full.slotCount 0 ≤ (full.sapPort 0).inQ.length ∧
    (out.passing 0 = true ∧ (out.sapPort 0).flow = true ∧ (out.sapPort 0).outRun = true ∧ (out.sapPort 0).outQ = [5]) ∧
    (master.canonical = true ∧ master.sapState 0 ≠ St.off ∧ master.slave 0 = false ∧ (master.sapPort 0).maskLate = false) ∧
    sapFormatOk 0x1400 (!e.slave 0) (1024 / 2 ^ e.kCode (e.group 0)) = true ∧
    sapNorm 0x18 ≠ bitsOf (e.regN (R.SAP_P_CTRL 0)) 3 14 * 8 ∧
    sapFormatOk 0x18 (!e.slave 0) (1024 / 2 ^ e.kCode (e.group 0)) = false := by decide +kernel

theorem witness_CvHoldsAndCodes :
    let st (k : Nat) := A (live fun e => e.setFld F.CVD_CTRL_STATE k)
    let low := A (live fun e => e.setFld F.CVD_STAT_CLRIN 1)
    (st St.on).canonical = true ∧ (st St.on).bit F.CVD_STAT_CLRIN = false ∧ (st St.on).cvState = St.on ∧
    (st St.rising).cvState = St.rising ∧ low.bit F.CVD_STAT_CLRIN = true ∧ (A (live id)).imageRuns = true ∧
    (A (live id)).cvState = St.off ∧
    (A State.reset).imageRuns = false ∧ (A State.reset).canonical = true := by decide +kernel

/-- Core 0 in user mode, with every byte open to it. -/
def userCore (f : Cpu → Cpu) : State := cored fun c => f { c with
  user := true
  pmpcfg := c.pmpcfg.set 0 0x1F
  pmpaddr := c.pmpaddr.set 0 0xFFFFFFFF }

theorem witness_CoreArithmetic :
    (A (cored id)).coreIssues 0 false = true ∧ (A (cored id)).coreIssues 0 true = true ∧ (5 : Word) ≠ 0 := by decide +kernel

theorem witness_CoreControlFlow :
    let e := A (cored id)
    let u := A (userCore id)
    let m := A (userCore fun c => { c with user := false })
    (e.coreIssues 0 false = true ∧ e.fetchDenied 0 0x100 = false ∧ e.fetchDenied 0 0x100000 = true) ∧
    BrCond.holds .eq 3 3 = true ∧ BrCond.holds .ne 3 3 = false ∧
    ((m.core 0).user = false ∧ (m.core 0).pmpPass (m.core 0).mppUser 2 (m.core 0).mepc.toNat = true ∧
      (m.core 0).mepc.toNat / 0x100000 = 0 ∧ m.coreIssues 0 false = true) ∧ (u.coreIssues 0 false = true ∧ (u.core 0).user = true) ∧
    ¬ ((e.core 0).user = true ∧ (e.core 0).tw = true) := by decide +kernel

theorem witness_CoreExceptions :
    let e := A (cored id)
    let out := A (cored fun c => { c with pc := 0x100000 })
    let irq := A (cored fun c => { c with
      meie := true
      mie := true })
    let e1 := (irq.setRegN (R.XBR_N_IEN 0) 1).setFld (F.XBR_N_LATCH_FT 0) 1
    e.coreIssues 0 (bitsOf (0xFFFFFFFF : Word).toNat 0 2 != 3) = true ∧ e.coreIssues 0 true = true ∧
    (e.coreIssues 0 false = true ∧ e.csrRead 0 (0x7FF : BitVec 12).toNat = none) ∧ (e.core 0).user = false ∧
    (out.runs .ctl = true ∧ out.bitAt F.XBR_CORECTL_RUN 0 = true ∧ (out.core 0).waiting = false ∧ out.stalls 0 = false ∧
      out.fetchDenied 0 (out.core 0).pc = true) ∧
    (e1.claim 0 = some 0 ∧ e1.runs .ctl = true ∧ e1.bitAt F.XBR_CORECTL_RUN 0 = true ∧ (e1.core 0).meie = true ∧
      (e1.core 0).mie = true) ∧ e.claim 0 = none ∧ e.canonical = true := by decide +kernel

theorem witness_CoreLoadsAndStores :
    let at' (a : Word) (f : (Cpu → Cpu) → State) := A (f fun c => { c with x := c.x.set 5 a })
    let m (a : Word) := at' a cored
    let h (a : Word) := (m a).updXbar fun y => { y with bursts := y.bursts.set 4 (some ⟨0x480000, 4, false, true, 1⟩) }
    let u (a : Word) := A (cored fun c => { c with
      x := c.x.set 5 a
      user := true
      pmpcfg := c.pmpcfg.set 0 0x0C
      pmpaddr := c.pmpaddr.set 0 0x3FFFF })
    ((m 0x100).coreIssues 0 false = true ∧ inMem 0x100 = true ∧ ((m 0x100).core 0).reg 5 = 0x100 ∧
      ((m 0x100).core 0).pmpPass ((m 0x100).core 0).dataUser 1 0x100 = true ∧
      ((m 0x100).core 0).pmpPass ((m 0x100).core 0).dataUser 0 0x100 = true ∧ (m 0x100).mem.wf = true ∧
      (m 0x100).mem.mark 0x100 = 0 ∧ (m 0x100).xbar.held 0 (targetOf 0 0x100) = false) ∧
    ((h 0x500000).xbar.held 0 (targetOf 0 0x500000) = true ∧ inMem 0x500000 = true ∧ (h 0x500000).coreIssues 0 false = true ∧
      ((h 0x500000).core 0).pmpPass ((h 0x500000).core 0).dataUser 1 0x500000 = true) ∧ 0x101 % accBytes .word ≠ 0 ∧
    ((u 0x100).coreIssues 0 false = true ∧ ((u 0x100).core 0).pmpPass ((u 0x100).core 0).dataUser 1 0x100 = false ∧
      ((u 0x100).core 0).pmpPass ((u 0x100).core 0).dataUser 0 0x100 = false) := by decide +kernel

theorem witness_CrossbarGrants :
    let e := A (live id)
    let held := A (live fun e => e.setRegN (R.XBR_SEM 3) 0x21)
    let r : XReq := ⟨0, false, 64, none⟩
    let waits := A (live fun e => e.updXbar fun y => { y with reqs := y.reqs.set 5 (some r) })
    let bursting := A (live fun e => e.updXbar fun y => { y with bursts := y.bursts.set 4 (some ⟨0x480000, 4, false, true, 1⟩) })
    e.bit (F.XBR_SEM_HELD 3) = false ∧ (held.bit (F.XBR_SEM_HELD 3) = true ∧ held.fld (F.XBR_SEM_HOLDER 3) = (2 : BitVec 3).toNat) ∧
    held.fld (F.XBR_SEM_HOLDER 3) ≠ (1 : BitVec 3).toNat ∧ targetOf 0 0x700000 = .dflt ∧
    (targetOf 0 0 ≠ .dflt ∧ (∀ j : Fin 7, e.xbar.bursts[j] = none)) ∧ (bursting.xbar.held 0 (targetOf 0 0x500000) = true ∧
      targetOf 0 0x500000 ≠ .dflt) ∧ bursting.xbar.held 0 (targetOf 0 0) = false ∧
    (waits.xbar.reqs[5] = some r ∧ 64 ≤ r.waited ∧ r.urgent = none) ∧ e.xbar.reqs[5] = none ∧
    (63 < 64 ∧ (waits.updXbar fun y => { y with reqs := y.reqs.set 5 (some { r with waited := 63 }) }).xbar.reqs[5] = some { r with waited := 63 }) ∧
    (e.bit F.XBR_IRQ_ERR = false ∧ e.canonical = true ∧ targetOf 0 0xFFFFC = .bank 0 ∧ targetOf 5 0x100000 = .bank 1) := by
  decide +kernel

/-- Who wins a target: its own core at a bank, the urgent one, and of the rest the one that R394 ranks first. -/
theorem witness_RequestsMeet :
    let first (t : Target) (x : Nat) (cs : List Nat) : Bool := cs.all fun j => decide ((rankOrder t).idxOf x ≤ (rankOrder t).idxOf j)
    let y : Xbar := { Xbar.reset with reqs := Xbar.reset.reqs.set 5 (some ⟨0x500000, false, 64, some 3⟩) }
    (rankOrder .shared).all (fun x => first .shared x [x]) = true ∧ first .shared (rankOrder .shared)[0]! [0, 1, 2, 3, 4, 5, 6] = true ∧
    first .shared (rankOrder .shared)[6]! [0, 1, 2, 3, 4, 5, 6] = false ∧ (y.urgentAt 5 = some 3 ∧ y.urgentAt 0 = none) := by
  decide +kernel

theorem witness_BurstsMove :
    let e := A (live id)
    let busy := A (live fun e => e.updXbar fun y => { y with bursts := y.bursts.set 4 (some ⟨0x500000, 4, false, true, 1⟩) })
    let reads := A (live fun e => e.updXbar fun y => { y with bursts := y.bursts.set 5 (some ⟨0x500000, 4, false, false, 1⟩) })
    let at_ (w l : Nat) : Nat := 8 * w + l
    let crosses (w n : Nat) : Prop := at_ w 0 / 1024 ≠ (at_ w 0 + 8 * n - 1) / 1024
    (1 ≤ (16 : BitVec 5).toNat ∧ (16 : BitVec 5).toNat ≤ 16 ∧ (17 : BitVec 5).toNat > 16 ∧ (0 : BitVec 5).toNat < 1) ∧
    (targetOf 5 (at_ 0xA0000 0) = .shared ∧ ¬ crosses 0xA0000 16 ∧ crosses 0xA007F 2 ∧ ¬ crosses 0xA007E 2) ∧
    (targetOf 5 (at_ 0xE0000 0) = .dflt ∧ (3 : Fin 7).val < 4 ∧ (1 : BitVec 3) ≠ 0) ∧
    (e.xbar.bursts[5] = none ∧ e.xbar.held 5 .shared = false ∧ e.mem.wf = true ∧ e.mem.bad = [] ∧ e.canonical = true ∧
      e.bit F.XBR_IRQ_ERR = false) ∧ ([1, 2] : List (BitVec 64)).length ≤ 2 ∧ ([] : List (BitVec 64)).length < 1 ∧
    (busy.xbar.bursts[5] = none ∧ busy.xbar.held 5 .shared = true) ∧
    ((reads.xbar.bursts[5]).map (·.write) = some false ∧ (busy.xbar.bursts[4]).map (·.write) = some true) := by decide +kernel

theorem witness_MiscPeripherals :
    let e := A (live id)
    let rise := A (live fun e => e.setFld F.MISC_GPIO_EDGE_RISE 0xFFFF)
    let armed := A (live fun e => e.setFld F.MISC_GPIO_TCTL_ARMED 1)
    let soon := A (live fun e => e.setRegN R.MISC_GPIO_TFRAME 2)
    let i2c := A (live fun e => e.setFld (F.MISC_I2C_CTRL_STATE 1) St.on)
    let busy := after (.i2cGo .a 1 0x80000000) (live fun e => e.setFld (F.MISC_I2C_CTRL_STATE 1) St.on)
    let full := A (live fun e => e.updMisc fun m => { m with tx := List.replicate 64 0 })
    let midi := A (live fun e => e.setFld F.MISC_MIDI_CTRL_STATE St.on)
    let sending := A (live fun e => (e.setFld F.MISC_MIDI_CTRL_STATE St.on).updMisc fun m => { m with sending := some 1 })
    e.canonical = true ∧ (rise.balls = false ∧ rise.gpioLevel 4 = false ∧ rise.bitAt F.MISC_GPIO_EDGE_RISE 4 = true) ∧
    armed.bit F.MISC_GPIO_TCTL_ARMED = true ∧ (soon.bit F.MISC_GPIO_TCTL_ARMED = false ∧
      soon.armOk (soon.regN R.MISC_GPIO_TFRAME) = true) ∧ e.armOk (e.regN R.MISC_GPIO_TFRAME) = false ∧
    armed.regN R.MISC_GPIO_TFRAME = armed.seq ∧ ¬ (e.bit F.MISC_GPIO_TCTL_ARMED = true) ∧
    (natBit (0x80000000 : Word).toNat 31 = true ∧ i2c.bit (F.MISC_I2C_STAT_BUSY 1) = false ∧
      i2c.fld (F.MISC_I2C_CTRL_STATE 1) = St.on) ∧ (A busy).bit (F.MISC_I2C_STAT_BUSY 1) = true ∧ e.misc.i2c[1] = none ∧
    (A busy).misc.i2c[1] ≠ none ∧ 64 ≤ full.misc.tx.length ∧
    (midi.misc.tx.length < 64 ∧ midi.midiState = St.on ∧ midi.misc.sending = none ∧ midi.misc.tx = []) ∧
    sending.misc.sending ≠ none ∧ e.midiState ≠ St.on := by decide +kernel

theorem witness_RecorderKeepsRecords :
    let e := A (live id)
    let n := (List.range 16)
    let full := A (live fun e => n.foldl (fun e _ => e.logEv 7 1) e)
    let one := A (live fun e => e.logEv 7 1)
    let r := e.record 7 1 0 0 0
    let fail := A (live fun e => (e.logEv 7 1).setFld F.LOG_STAT_LOGFAIL 1)
    let frz := A (live fun e => e.setFld F.LOG_CTRL_FREEZE 1)
    let back := dieAfter (.logRecordWrite .a false) (live fun e => e.logEv 7 1)
    let keyed := A (live fun e => e.updLog fun u => { u with key := 2 })
    let clr := A (live fun e => e.updLog fun u => { u with clear := some ⟨true, false, 9⟩ })
    let auto := A (live fun e => e.setFld F.LOG_CTRL_AUTO 0)
    let gapped := full.updLog fun u => { u with queue := u.queue.take 15 ++ [e.record 0 9 0 0 0] }
    let waiting (e : Die) : Nat := (e.log.queue.filter fun r => r[0].toNat / 2 ^ 8 != 9).length
    (e.log.gathered = none ∧ full.log.gathered = none ∧ 16 ≤ waiting full ∧ waiting gapped = 15 ∧ gapped.log.queue.length = 16) ∧
    (e.runs .keep = true ∧ ¬ (e.bit F.LOG_CTRL_FREEZE = true ∨ e.bit F.LOG_STAT_LOGFAIL = true) ∧ e.log.queue.length < 16) ∧
    (A State.reset).runs .keep = true ∧ frz.bit F.LOG_CTRL_FREEZE = true ∧ 16 ≤ full.log.queue.length ∧
    (one.log.clear = none ∧ one.log.queue = r :: [] ∧ one.bit F.LOG_STAT_LOGFAIL = false ∧ one.logSlot = some 0 ∧
      one.log.owed = false ∧ one.canonical = true) ∧ e.log.queue = [] ∧ fail.bit F.LOG_STAT_LOGFAIL = true ∧ e.log.back = none ∧
    back.log.back = some (0, r) ∧ (0x10000 : Word).toNat % 65536 = 0 ∧ frz.bit F.LOG_STAT_LOGFAIL = false ∧ e.log.key ≠ 2 ∧
    keyed.log.key = 2 ∧ keyed.canonical = true ∧ e.log.clear = none ∧ clr.log.clear = some ⟨true, false, 9⟩ ∧
    auto.bit F.LOG_CTRL_AUTO = false ∧ e.bit F.LOG_CTRL_AUTO = true ∧ 8191 ∉ e.log.bad := by decide +kernel

theorem witness_CountersCount :
    let e := A (live id)
    let c := A (live fun e => { ((e.setFld (F.PCT_SEL_EVENT 3) 9).setRegN (R.PCT_CNT 3) 0xFFFFFFFF) with
      pct := ⟨0, true, 8⟩ })
    e.canonical = true ∧ pctValid (9 * 32 : BitVec 10).toNat = true ∧ pctValid (15 * 32 : BitVec 10).toNat = false ∧
    pctValid (32 + 27 : BitVec 10).toNat = true ∧ pctValid (32 + 28 : BitVec 10).toNat = false ∧
    (natBit c.pct.en.toNat 3 = true ∧ c.fld (F.PCT_SEL_EVENT 3) = (9 : BitVec 10).toNat ∧
      c.reg (R.PCT_CNT 3) = BitVec.allOnes 32 ∧ c.pct.counting = true ∧ c.runs .eng = true) ∧
    ¬ (natBit e.pct.en.toNat 3 = true) := by decide +kernel

theorem witness_FreezeProceeds :
    let e := A (live id)
    let st (k : Nat) (f : Die → Die) := A (live fun e => f (e.setFld F.FRZ_STAT_STATE k))
    let noPin := A (live fun e => e.setFld F.FRZ_CTRL_PINEN 0)
    let keyed := A (live fun e => e.updFrz fun f => { f with key := true })
    let resume := st 3 fun e => e.updFrz fun f => { f with resumeOk := true }
    let lead := both (fun e => (up e).setFld F.PAIR_STAT_ROLE Role.lead) fun e => e.setFld F.PAIR_STAT_ROLE Role.follow
    let last := st 2 fun e => e.setFld F.FRZ_STAT_CLOSED 0x7F
    (last.frzState = 2 ∧ (last.fld F.FRZ_STAT_CLOSED &&& domBefore .keep) = domBefore .keep ∧
      natBit (last.fld F.FRZ_STAT_CLOSED) (domBit .keep) = false ∧ last.runs .keep = true) ∧
    (live id).canonical = true ∧ noPin.bit F.FRZ_CTRL_PINEN = false ∧
    (e.bit F.FRZ_CTRL_PINEN = true ∧ e.frzState = 0 ∧ e.frz.asked = none) ∧ e.frz.key = false ∧ keyed.frz.key = true ∧
    ((st 2 id).frzState ≠ 0 ∧ e.frz.asked = none ∧ (A (live fun e => e.updFrz fun f => { f with asked := some 2 })).frz.asked = some 2) ∧
    (lead.dieA.isLead && lead.dieB.role == Role.follow) = true ∧ (e.isLead && (live id).dieB.role == Role.follow) = false ∧
    ((st 1 id).frzState = 1 ∧ (st 1 id).bit F.PAIR_FENCE_FIN = false) ∧
    ((st 2 id).frzState = 2 ∧ ((st 2 id).fld F.FRZ_STAT_CLOSED &&& domBefore .eng) = domBefore .eng ∧
      natBit ((st 2 id).fld F.FRZ_STAT_CLOSED) (domBit .eng) = false) ∧
    (st 3 id).frzState = 3 ∧ (st 3 id).frz.resumeOk = false ∧ (resume.frz.resumeOk = true ∧ resume.bit F.PAIR_FENCE_FIN = false) :=
  by decide +kernel

theorem witness_ReadOutAnswers :
    let f := A (live fun e => e.setFld F.FRZ_STAT_STATE 3)
    (8191 : Word).toNat + 1 ≤ 8192 ∧ 8192 < (8191 : Word).toNat + 2 ∧ (A (live id)).frzState ≠ 3 ∧ f.frzState = 3 ∧
    8 < (0x12 : Byte).toNat ∧ (8 : Byte).toNat ≤ 8 ∧ (inMem 0x500000 = true ∧ 0x500000 % 8 = 0) ∧
    ((2 ^ 23 - 1) < 2 ^ 23 ∧ bitsOf 0x107FFF 12 9 < 264) ∧ inMem 0x700000 = false ∧ 0x500004 % 8 ≠ 0 := by decide +kernel

theorem witness_FieldTypesAct :
    let fs := (rowsOf (R.BTL_IRQ / 0x1000 * 0x1000)).flatMap fun r => [r.fields]
    fs ≠ [] ∧ (∀ l ∈ fs, ∀ f ∈ l, f.lo + f.w ≤ 32) ∧
    (∀ l ∈ fs, l.Pairwise fun f g => f.lo + f.w ≤ g.lo ∨ g.lo + g.w ≤ f.lo) := by decide +kernel

theorem witness_RegisterAccesses :
    let e := A (live id)
    let p : Posted := ⟨(R.MOR_IEN / 0x1000 % 0x20 : Nat), e.domOf R.MOR_IEN, 0, R.MOR_IEN, 2, false⟩
    let q := A (live fun e => { e with posted := [p] })
    let stalled := A (live fun e => { e with
      posted := [p]
      stalled := [{ p with m := 1 }] })
    let h := A (live fun e => e.updXbar fun y => { y with bursts := y.bursts.set 5 (some ⟨R.MOR_IEN, 4, false, true, 1⟩) })
    e.runs .ctl = true ∧ (e.stalls 0 = false ∧ q.stalls 0 = false ∧ stalled.stalls 0 = false ∧ stalled.stalls 1 = true ∧ h.stalls 0 = false) ∧
    (0x10000000 ≤ R.MOR_IEN ∧ R.MOR_IEN < 0x10012000 ∧ R.MOR_IEN % 4 = 0 ∧ e.domOf R.MOR_IEN ≠ .ctl ∧
      R.MOR_IEN / 0x1000 ≠ 0x1000e ∧ R.MOR_IEN / 0x1000 ≠ 0x1000f ∧ R.MOR_IEN / 0x1000 ≠ 0x10000 ∧ R.MOR_IEN / 0x1000 ≠ 0x10010) ∧
    (0 : BitVec 3).toNat < 4 ∧ (e.xbar.held 0 (targetOf 0 R.MOR_IEN) = false ∧ e.xbar.held 0 .peri = false) ∧
    (h.xbar.held 0 (targetOf 0 R.MOR_IEN) = true ∧ h.refusal 0 false true R.MOR_IEN .word = none ∧
      h.refusal 0 false false R.MOR_IEN .word = none) ∧ e.buffered p.blk p.dom = false ∧ q.buffered p.blk p.dom = true ∧
    (e.refusal 0 false true R.BTL_KEY .word = none ∧ e.domOf R.BTL_KEY = .ctl ∧ R.BTL_KEY % 4 = 0) ∧
    (0x500000 < 0x600000 ∧ e.mem.mark 0x500000 = 0) ∧ (match regRow R.MOR_IEN with | some r => !r.drains | none => false) = true ∧
    (e.posted.find? fun p => p.blk == 3 && p.dom == .eng) = none ∧
    ((q.posted.find? fun r => r.blk == p.blk && r.dom == p.dom) = some p ∧ q.runs p.dom = true ∧ q.canonical = true ∧
      (q.stalled.find? fun x => x.blk == p.blk && x.dom == p.dom) = none) ∧ (A State.reset).runs .eng = false ∧
    e.domOf R.XBR_ECC = .ctl ∧ e.runs (e.domOf R.MOR_IEN) = true ∧ targetOf (0 : BitVec 3).toNat 0x700000 = .dflt ∧
    (R.LOG_CTRL / 0x1000 = 0x1000e ∧ R.LOG_CTRL % 4 = 0) := by decide +kernel

theorem witness_TransitionsEnd :
    let wall (st n en : Nat) := A (live fun e => ((e.setWallState 1 st).setFld F.ENG_WCTL_WALL_EN en).setWallFrames 1 n)
    let port (st en : Nat) := A (live fun e => (e.setFld (F.CHNX_CTRL_STATE 0) st).setFld (F.CHNX_CTRL_EN 0) en)
    let bridge (st en : Nat) (r : BrRamp) (n : Nat) := A (live fun e => ((e.setFld (brState true) st).setFld (brEn true) en).updBridge true fun b => { b with
      ramp := r
      pos := n })
    let sap (g : Fin 8) (st en : Nat) (f : SapPort → SapPort) := A (live fun e => (((e.setFld (F.SAP_P_CTRL_STATE g) st).setFld (F.SAP_P_CTRL_EN g) en).setFld
      (F.SAP_G_CTRL_MODE 0) 1).updSap g f)
    let midi (st en : Nat) := A (live fun e => (e.setFld F.MISC_MIDI_CTRL_STATE st).setFld F.MISC_MIDI_CTRL_EN en)
    ((wall St.rising 0 0).wallState 1 = St.rising ∧ (wall St.rising 0 0).bitAt F.ENG_WCTL_WALL_EN 1 = false) ∧
    ((wall St.falling 0 15).wallState 1 = St.falling ∧ (wall St.falling 0 15).bitAt F.ENG_WCTL_WALL_EN 1 = true) ∧
    ((port St.rising 0).portState .n = St.rising ∧ (port St.rising 0).bit (F.CHNX_CTRL_EN PortId.n.idx) = false) ∧
    (let x (en : Nat) := bridge St.rising en .fadeIn 256
     ((x 1).bridge true).ramp = .fadeIn ∧ 256 ≤ ((x 1).bridge true).pos ∧ (x 1).fld (brState true) = St.rising ∧
      (x 1).bit (brEn true) = true ∧ (x 0).bit (brEn true) = false) ∧
    (let x := bridge St.falling 0 .zero 256
     256 ≤ (x.bridge true).pos ∧ x.fld (brState true) = St.falling ∧ x.bit (brEn true) = false) ∧
    ((bridge St.rising 1 .fadeIn 255).bridge true).pos < 256 ∧
    (let x := sap 0 St.rising 1 fun q => { q with framesLeft := 1 }
     (x.sapPort 0).framesLeft ≠ 0 ∧ x.group 0 = 0) ∧
    (let x := sap 0 St.rising 1 fun q => { q with seen := 15 }
     (x.sapPort 0).framesLeft = 0 ∧ x.sapState 0 = St.rising ∧ x.slave 0 = true ∧ (x.sapPort 0).seen < 16 ∧ x.bit (F.SAP_P_CTRL_EN 0) = true ∧
      x.canonical = true) ∧
    ((sap 0 St.falling 0 id).sapState 0 = St.falling ∧ ((sap 0 St.falling 0 id).sapPort 0).framesLeft = 0) ∧
    ((midi St.rising 1).midiState = St.rising ∧ (midi St.falling 0).midiState = St.falling ∧ (midi St.falling 1).canonical = true) := by decide +kernel

theorem witness_TransitionsAndFramesPass :
    let e := A (live id)
    let wall (st n en : Nat) := A (live fun e => ((e.setWallState 1 st).setFld F.ENG_WCTL_WALL_EN en).setWallFrames 1 n)
    let port (st en : Nat) := A (live fun e => (e.setFld (F.CHNX_CTRL_STATE 0) st).setFld (F.CHNX_CTRL_EN 0) en)
    let vox := A (live fun e => (e.setFld F.VOX_CTRL_STATE St.rising).setFld F.VOX_CTRL_EN 1)
    let cv := A (live fun e => (e.setFld F.CVD_CTRL_STATE St.rising).setFld F.CVD_CTRL_EN 1)
    let i2c (b : Nat) := A (live fun e => (e.setFld (F.MISC_I2C_CTRL_STATE 0) St.falling).setFld (F.MISC_I2C_STAT_BUSY 0) b)
    let fell := A (live fun e => { e with clk := { e.clk with fallen := true } })
    let asked := A (live fun e => { e with pair := { e.pair with restart := .asked } })
    let stopped := dieAfter (.frameTick .a 0) (live fun e => { e with pair := { e.pair with restart := .asked } })
    (wall St.rising 1 0).eng.walls[1].framesLeft ≠ 0 ∧
    ((wall St.rising 0 15).canonical = true ∧ (wall St.rising 0 15).eng.walls[1].framesLeft = 0 ∧
      (wall St.rising 0 15).wallState 1 = St.rising ∧ (wall St.rising 0 15).bitAt F.ENG_WCTL_WALL_EN 1 = true) ∧
    ((wall St.falling 0 0).wallState 1 = St.falling ∧ (wall St.falling 0 0).bitAt F.ENG_WCTL_WALL_EN 1 = false) ∧
    (((port St.rising 1).port .n).framesLeft = 0 ∧ (port St.rising 1).portState .n = St.rising ∧
      (port St.rising 1).bit (F.CHNX_CTRL_EN PortId.n.idx) = true) ∧
    ((port St.falling 0).portState .n = St.falling ∧ (port St.falling 0).bit (F.CHNX_CTRL_EN PortId.n.idx) = false) ∧
    (vox.vox.framesLeft = 0 ∧ vox.voxState = St.rising ∧ vox.bit F.VOX_CTRL_EN = true) ∧
    (cv.cvd.framesLeft = 0 ∧ cv.cvState = St.rising ∧ cv.bit F.CVD_CTRL_EN = true) ∧
    ((i2c 0).fld (F.MISC_I2C_CTRL_STATE 0) = St.falling ∧ (i2c 0).bit (F.MISC_I2C_STAT_BUSY 0) = false ∧
      (i2c 0).bit (F.MISC_I2C_CTRL_EN 0) = false ∧ (i2c 0).canonical = true) ∧ (i2c 1).bit (F.MISC_I2C_STAT_BUSY 0) = true ∧
    fell.clk.fallen = true ∧ e.clk.fallen = false ∧ ((A State.reset).runs .eng = false ∧ (A State.reset).pair.restart ≠ .stopped) ∧
    (stopped.pair.restart = .stopped ∧ stopped.runs .eng = false ∧ stopped.frz.gate = false ∧ stopped.role ≠ Role.follow ∧
      stopped.canonical = true) ∧ (asked.runs .eng = true ∧ asked.pair.restart = .asked) ∧
    (e.runs .eng = true ∧ e.pair.restart = .running) ∧ (live id).linked = false ∧ e.canonical = true := by decide +kernel

theorem witness_FrameStarts :
    let lead (f : Die → Die) := A (live fun e => f (e.setFld F.PAIR_STAT_ROLE Role.lead))
    let e := lead id
    let seq (c : Option Word) (j : Nat) (a : Bool) := lead fun e => (e.setFld F.CHN_STAT_JOIN j).updChn fun x => { x with
      computed := c
      adopt := a }
    let due (m : Nat) (on : Bool) := lead fun e => ((if on then e.setWallState 0 St.on else e).setFld (F.ENG_SWAP_CTL_ARMED 3) 1).setRegN
      (R.ENG_SWAP_MASK 3) m
    let shadows := A (shadowed fun e => (e.setFld F.PAIR_STAT_ROLE Role.lead).setFld F.ENG_SWAPCTL_ZMIRROR 0)
    (e.runs .eng = true ∧ e.pair.restart = .running ∧ e.runsKernels = true ∧ (A State.reset).runsKernels = false) ∧
    ((seq none 2 true).chn.computed = none ∧ (seq (some 5) 2 false).chn.computed = some 5 ∧
      ((seq (some 5) 2 false).chn.adopt = false ∧ (seq (some 5) 2 false).fld F.CHN_STAT_JOIN ≠ 1)) ∧
    ((seq (some 5) 2 true).chn.adopt = true ∧ (seq (some 5) 2 true).refFollows = false) ∧ e.dueAt e.seq = [] ∧
    ((due 0x7FFFFFF true).dueAt (due 0x7FFFFFF true).seq = [3] ∧ (due 0x7FFFFFF true).followsSlots = false ∧
      natBit ((due 0x7FFFFFF true).unionAt (due 0x7FFFFFF true).seq).toNat 0 = true ∧ (due 0x7FFFFFF true).wallOn (seatWall 0) = true) ∧
    (natBit ((due 1 false).unionAt (due 1 false).seq).toNat 0 = true ∧ (due 1 false).wallOn (seatWall 0) = false) ∧
    (e.seatCourse 0 = some 0 ∧ (List.finRange 24).all (fun j => j == 0 || e.seatCourse j != some 0) = true ∧ e.isShadow 0 = false) ∧
    (List.finRange 24).all (fun j => e.seatCourse j != some 6) = true ∧
    (shadows.isShadow 6 = true ∧ shadows.migSrc (wallOf 6) ≠ 6 ∧ shadows.bit F.ENG_SWAPCTL_ZMIRROR = false) ∧
    (shadows.workSeat 6 = some 0 ∧ shadows.wallRuns (wallOf 6) = true ∧ shadows.runsKernels = true) ∧ e.serves 6 = false := by decide +kernel

theorem witness_StepRunsTheFrontCommand : (live id).pending = [] ∧ (A (live id)).runs .keep = true := by decide +kernel

theorem witness_QueueStaysWellFormed : State.reset.queueOk = true ∧
    (match step State.reset with | .next _ => true | _ => false) = true := by decide +kernel

theorem witness_CanonicalFormStays : State.reset.canonical = true ∧ (live id).canonical = true := by decide +kernel

end Sys2Proof.Tests
end

