-- ==== Sys2Proof/Proofs/Clock.lean ====
section
/-! SUPPORT. A KEEP edge beside its time: what the loop, HOLDTIME and the log clear leave alone. -/

namespace Sys2Proof.Machine

variable (e : Die)

@[simp] theorem Die.setFofs_tim (f : Int) : (e.setFofs f).tim = e.tim := rfl
@[simp] theorem Die.alignShift_tim (f : Int) : (e.alignShift f).tim = e.tim := rfl
@[simp] theorem Die.phaseAdd_tim (x : Int) : (e.phaseAdd x).tim = e.tim := rfl
@[simp] theorem Die.slewTick_tim (t : Nat) : (e.slewTick t).tim = e.tim := rfl

@[simp] theorem Die.alignTick_tim (t : Nat) : (e.alignTick t).tim = e.tim := by
  unfold Die.alignTick
  extract_lets gap f e'
  split
  · rw [Die.alignShift_tim, Die.updRef_tim, Die.setReg_tim, Die.alignShift_tim]
  · rw [Die.phaseAdd_tim, Die.alignShift_tim]

@[simp] theorem Die.loopTick_tim (t : Nat) : (e.loopTick t).tim = e.tim := by
  unfold Die.loopTick
  simp -implicitDefEqProofs only [apply_ite Die.tim, Die.slewTick_tim, Die.alignTick_tim, Die.updRef_tim, ite_self]

@[simp] theorem Die.holdTick_tim : e.holdTick.tim = e.tim := by
  unfold Die.holdTick
  simp -implicitDefEqProofs only [apply_ite Die.tim, Die.setRegN_tim, Die.updRef_tim, ite_self]

@[simp] theorem Die.logClearTick_tim : e.logClearTick.tim = e.tim := by
  unfold Die.logClearTick
  split
  · rfl
  · simp only [apply_ite Die.tim, Die.updLog_tim, ite_self]

/-- An edge of a running KEEP moves TICK_NS on by the period of its oscillator (R332). -/
theorem Die.keepEdge_tick (h : e.runs .keep = true) : e.keepEdge.tim.tick = e.tim.tick + BitVec.ofNat 32 e.keepNs := by
  unfold Die.keepEdge
  simp only [h, Bool.not_true, Bool.false_eq_true, if_false, Die.logClearTick_tim, Die.loopTick_tim, Die.holdTick_tim,
    Die.updTim_tim]
  rfl

/-- The dies of a package after an idle step. -/
@[simp] theorem State.die_idle (s : State) (d : DieId) : s.idle.die d = (s.die d).keepEdge := by cases d <;> rfl

/-- Settles O57: a queued command is `step_cons`, and an idle step is one KEEP edge on each die. -/
theorem stepRunsTheFrontCommand : Obligations.StepRunsTheFrontCommand := by
  refine ⟨fun c s => step_cons _ c s.pending rfl, fun s h => ⟨s.idle, step_nil s h, h, fun d hr => ?_⟩⟩
  rw [State.die_idle, Die.keepEdge_tick _ hr]

end Sys2Proof.Machine
end

