-- ==== Sys2Proof/Proofs/Midi.lean ====
section
/-! SUPPORT. MIDI reception: what the parser does with a byte, and what an event leaves of the parsers (R228 to R233). -/

namespace Sys2Proof.Machine

/-- The change of a command given by `upd`. -/
theorem Changes.of_upd {i : Instr} {s : State} {d : DieId} {f g : Die → Die} (h : exec i s = .next (s.upd d f))
    (hf : f (s.die d) = g (s.die d)) : Changes i s d g := by
  unfold Changes
  rw [h, State.upd, hf]

/-- A command that touches one die, and nothing of it while the domain stands still, acts in that domain. -/
theorem ChangesIn.of_upd {i : Instr} {s : State} {d : DieId} {m : Dom} {f g : Die → Die} (h : exec i s = .next (s.upd d f))
    (hr : (s.die d).runs m = true → f (s.die d) = g (s.die d)) (hs : (s.die d).runs m = false → f (s.die d) = s.die d) :
    ChangesIn m i s d g := by
  refine ⟨fun h1 => Changes.of_upd h (hr h1), fun h0 => ?_⟩
  rw [h, State.upd, hs h0, State.setDie_self]

/-- A field fits its register where its numbers say so. -/
theorem Fld.fits_of {f : Fld} (h : decide (f.lo + f.w ≤ 32) = true) : f.fits :=
  (of_decide_eq_true h : f.lo + f.w ≤ 32)

section
variable (e : Die) (u : Fin 2) (b : Byte)

@[simp] theorem Die.midiLevel_vox (f : Bool) : (e.midiLevel u f).vox = e.vox := rfl
@[simp] theorem Die.midiLevel_runs (f : Bool) (m : Dom) : (e.midiLevel u f).runs m = e.runs m := rfl
@[simp] theorem Die.updMidi_bitAt (f : MidiParser → MidiParser) (g : Fld) (i : Nat) :
    (e.updMidi u f).bitAt g i = e.bitAt g i := rfl
@[simp] theorem Die.updMidi_self (f : MidiParser → MidiParser) : (e.updMidi u f).vox.midi[u] = f e.vox.midi[u] :=
  vupd_get_self ..

/-- The level of an input stands in its own register, apart from the allocator's. -/
@[simp] theorem Die.midiLevel_asen (f : Bool) (i : Nat) :
    (e.midiLevel u f).bitAt F.VOX_MCFG_ASEN i = e.bitAt F.VOX_MCFG_ASEN i := by
  unfold Die.midiLevel Die.setBit Die.bitAt
  split
  · rw [Die.fld_setFld_other _ _ _ (Fld.fits_of rfl) _ (by decide)]
  · rw [Die.fld_setFld_other _ _ _ (Fld.fits_of rfl) _ (by decide)]

/-- With no byte waiting the parser has nothing to catch up with. -/
theorem Die.midiFlush_of_empty (h : e.vox.rxHeld = []) : e.midiFlush = e := by
  have hx : ({ e.vox with rxHeld := [] } : Vox) = e.vox := by rw [← h]
  unfold Die.midiFlush
  split
  · rw [h, List.foldl_nil, Die.updVox, hx]
  · rfl

/-- While ENG runs and no byte waits, a received byte meets the parser at once. -/
theorem Die.midiRx_running (f : Bool) (hr : e.runs .eng = true) (h : e.vox.rxHeld = []) :
    e.midiRx u b f = e.midiByte u b f := by
  rw [Die.midiRx, if_pos hr, Die.midiFlush_of_empty e h]

/-- While ENG stands still a received byte waits (R26). -/
theorem Die.midiRx_standing (f : Bool) (hr : e.runs .eng = false) :
    e.midiRx u b f = e.updVox fun x => { x with rxHeld := x.rxHeld ++ [(u, b, f)] } := by
  rw [Die.midiRx, hr, if_neg Bool.false_ne_true]

/-- A byte with a framing error is counted, and the parser waits for a status byte (R228). -/
theorem Die.midiByte_framing : e.midiByte u b true =
    (e.count (if u = 0 then F.VOX_MERR_M0 else F.VOX_MERR_M1) 1).updMidi u fun p => { p with
      status := 0
      data := [] } := by
  simp only [Die.midiByte, Die.midiErr, if_true]

/-- 0xFE arms active sensing where it is enabled (R231). -/
theorem Die.midiByte_sense (h : e.bitAt F.VOX_MCFG_ASEN u = true) :
    e.midiByte u 0xFE false = e.updMidi u fun p => { p with sensing := true } := by
  simp only [Die.midiByte, Bool.false_eq_true, if_false, if_true, h]

/-- A byte below 0x80 is data. -/
theorem Die.midiByte_data (h : b.toNat < 0x80) : e.midiByte u b false = e.midiData u b := by
  have h1 : b ≠ 0xFE := by rintro rfl; exact absurd h (by decide)
  have h2 : ¬ 0xF8 ≤ b.toNat := by omega
  have h3 : ¬ 0x80 ≤ b.toNat := by omega
  simp only [Die.midiByte, Bool.false_eq_true, if_false, h1, h2, h3]

/-- A note-on takes two data bytes. -/
theorem midiLength_noteOn {n : Nat} (h : n / 16 = 9) : midiLength n = 2 := by simp only [midiLength, h]

/-- The first data byte of a note-on joins the message. -/
theorem Die.midiData_noteOn (hs : e.vox.midi[u].status.toNat / 16 = 9) (hd : e.vox.midi[u].data = []) :
    e.midiData u b = e.updMidi u fun p => { p with data := [b] } := by
  have h0 : e.vox.midi[u].status ≠ 0 := fun h => by rw [h] at hs; exact absurd hs (by decide)
  have hF : e.vox.midi[u].status ≠ 0xF0 := fun h => by rw [h] at hs; exact absurd hs (by decide)
  simp only [Die.midiData, h0, hF, if_false, hd, List.nil_append, midiLength_noteOn hs, List.length_singleton,
    Nat.one_lt_two, if_true]

/-- A sensing timeout sets MSENSE and lets sensing rest (R231). -/
theorem Die.senseTimeout_sensing (h : e.vox.midi[u].sensing = true) :
    (e.senseTimeout u).vox.midi[u].sensing = false ∧ (e.senseTimeout u).bit F.VOX_IRQ_MSENSE = true := by
  unfold Die.senseTimeout
  rw [if_pos h]
  refine ⟨?_, ?_⟩
  · rw [Die.setFld_vox, Die.updMidi_self]
  · rw [Die.bit, Die.fld_setFld_self _ _ (Fld.fits_of rfl)]
    rfl

end

/-- A received byte in a unit that is not OFF passes with its level. -/
theorem ChangesIn.of_midiRx {d : DieId} {u : Fin 2} {b : Byte} {f : Bool} {s : State} {g : Die → Die}
    (hoff : (s.die d).fld F.MISC_MIDI_CTRL_STATE ≠ St.off)
    (hg : ((s.die d).midiLevel u f).midiRx u b f = g (s.die d)) : ChangesIn .ctl (.midiRxByte d u b f) s d g := by
  refine ChangesIn.of_upd rfl (fun hr => ?_) (fun hr => ?_)
  · simp only [hr, Bool.not_true, Bool.false_or, beq_iff_eq, hoff, if_false, hg]
  · simp only [hr, Bool.not_false, Bool.true_or, if_true]

/-- Settles O25, byte by byte through the parser's own branches. -/
theorem midiReception : Obligations.MidiReception := by
  intro d u b framing m w ws s e
  refine ⟨fun hr => ?_, fun hoff => ?_, fun hon hr => ?_, fun hon hr hx => ⟨?_, fun _ ha => ?_, fun hb hs hd => ?_⟩,
    fun hf => ?_, fun hf => ?_, fun hs _ => ?_, fun hs => ?_⟩
  · refine Changes.of_upd rfl ?_
    simp only [hr, Bool.not_false, Bool.true_or, if_true, e]
  · refine ChangesIn.of_upd rfl (fun _ => ?_) (fun hr => ?_)
    · simp only [hoff, beq_self_eq_true, Bool.or_true, if_true, e]
    · simp only [hr, Bool.not_false, Bool.true_or, if_true]
  · exact ChangesIn.of_midiRx hon (Die.midiRx_standing _ u b _ hr)
  · refine ChangesIn.of_midiRx hon ?_
    rw [Die.midiRx_running ((s.die d).midiLevel u _) _ _ _ hr hx, Die.midiByte_framing]
  · refine ChangesIn.of_midiRx hon ?_
    rw [Die.midiRx_running ((s.die d).midiLevel u _) _ _ _ hr hx, Die.midiByte_sense _ _ (by rw [Die.midiLevel_asen]; exact ha)]
  · refine ChangesIn.of_midiRx hon ?_
    rw [Die.midiRx_running ((s.die d).midiLevel u _) _ _ _ hr hx, Die.midiByte_data _ _ _ hb, Die.midiData_noteOn ((s.die d).midiLevel u _) _ _ hs hd]
  · refine (ChangesIn.of_updIn rfl).congr fun _ => ?_
    rw [Die.mfifoRead, hf]
  · refine (ChangesIn.of_updIn rfl).congr fun _ => ?_
    rw [Die.mfifoRead, hf]
  · refine (ChangesIn.of_updIn rfl).to fun _ => ?_
    rw [State.die_setDie_self, State.die_setDie_other]
    obtain ⟨h1, h2⟩ := Die.senseTimeout_sensing _ u hs
    exact ⟨h1, h2, rfl⟩
  · refine (ChangesIn.of_updIn rfl).congr fun _ => ?_
    rw [Die.senseTimeout, hs, if_neg Bool.false_ne_true]

end Sys2Proof.Machine
end

