-- ==== Sys2Proof/Proofs/Pallet.lean ====
section
/-! SUPPORT. Pallets: the fields, sinks and check of a pallet that is built, and the slots of one that is received (R245, R246,
R252 to R257). -/

namespace Sys2Proof

/-- Reading a map filtered by address. -/
theorem SMap.get_filter {α : Type} (dflt : Nat → α) (m : SMap α) (p : Nat → Bool) (k : Nat) :
    SMap.get dflt (m.filter fun q => p q.1) k = if p k then SMap.get dflt m k else dflt k := by
  induction m with
  | nil => simp [SMap.get]
  | cons q m ih =>
    obtain ⟨j, v⟩ := q
    rw [List.filter_cons]
    by_cases hj : j = k
    · subst hj
      by_cases hp : p j = true
      · simp [SMap.get, hp]
      · simp [hp, ih]
    · split
      · simp [SMap.get, hj, ih]
      · simp [SMap.get, hj, ih]

namespace Machine

/-! ### Numbers from digits -/

/-- The digits of a number, put together again. -/
theorem foldr_digits (b k n : Nat) :
    (List.range k).foldr (fun i a => n / b ^ i % b + b * a) 0 = n % b ^ k := by
  induction k generalizing n with
  | zero => simp [Nat.mod_one]
  | succ k ih =>
    have hs : ∀ i, n / b ^ (i + 1) % b = n / b / b ^ i % b := fun i => by rw [Nat.div_div_eq_div_mul, Nat.pow_succ']
    rw [List.range_succ_eq_map, List.foldr_cons, List.foldr_map]
    simp only [hs, Nat.succ_eq_add_one, ih, Nat.pow_zero, Nat.div_one]
    rw [Nat.pow_succ', Nat.mod_mul]

/-- A number put together from digits below its base gives each digit back. -/
theorem foldr_digit (w k j : Nat) (q : Nat → Nat) (hq : ∀ i, q i < 2 ^ w) (hj : j < k) :
    bitsOf ((List.range k).foldr (fun i a => q i + 2 ^ w * a) 0) (w * j) w = q j := by
  induction k generalizing j q with
  | zero => omega
  | succ k ih =>
    rw [List.range_succ_eq_map, List.foldr_cons, List.foldr_map]
    cases j with
    | zero => rw [bitsOf, Nat.mul_zero, Nat.pow_zero, Nat.div_one, Nat.add_mul_mod_self_left, Nat.mod_eq_of_lt (hq 0)]
    | succ j =>
      have := ih j (fun i => q (i + 1)) (fun i => hq _) (by omega)
      rw [bitsOf] at this ⊢
      rw [Nat.mul_succ, Nat.pow_add, Nat.mul_comm (2 ^ (w * j)), ← Nat.div_div_eq_div_mul,
        Nat.add_mul_div_left _ _ (Nat.two_pow_pos w), Nat.div_eq_of_lt (hq 0), Nat.zero_add]
      exact this

/-- A number put together from `k` digits has no more. -/
theorem foldr_digits_lt (w k : Nat) (q : Nat → Nat) (hq : ∀ i, q i < 2 ^ w) :
    (List.range k).foldr (fun i a => q i + 2 ^ w * a) 0 < 2 ^ (w * k) := by
  induction k generalizing q with
  | zero => simp
  | succ k ih =>
    rw [List.range_succ_eq_map, List.foldr_cons, List.foldr_map]
    have h := ih (fun i => q (i + 1)) fun i => hq _
    have h0 := hq 0
    have h1 := Nat.mul_le_mul_left (2 ^ w) h
    rw [Nat.mul_succ, Nat.add_comm (w * k), Nat.pow_add]
    simp only [Nat.succ_eq_add_one] at *
    rw [Nat.mul_succ] at h1
    omega

/-- A mask summed bit by bit shows each bit, and no other. -/
theorem foldl_mask (f : Nat → Bool) (k : Nat) :
    (List.range k).foldl (fun m j => m + b2n (f j) * 2 ^ j) 0 < 2 ^ k ∧
    ∀ j, j < k → ((List.range k).foldl (fun m j => m + b2n (f j) * 2 ^ j) 0).testBit j = f j := by
  induction k with
  | zero => exact ⟨by simp, fun j hj => absurd hj (by omega)⟩
  | succ k ih =>
    obtain ⟨hlt, hbit⟩ := ih
    rw [List.range_succ, List.foldl_append, List.foldl_cons, List.foldl_nil]
    generalize (List.range k).foldl (fun m j => m + b2n (f j) * 2 ^ j) 0 = n at *
    have hb : b2n (f k) ≤ 1 := by unfold b2n; split <;> omega
    refine ⟨?_, fun j hj => ?_⟩
    · have := Nat.mul_le_mul_right (2 ^ k) hb
      rw [Nat.pow_succ]
      omega
    · rw [Nat.add_comm, Nat.mul_comm, Nat.testBit_two_pow_mul_add _ hlt]
      split
      · next hjk => exact hbit j hjk
      · next hjk =>
        obtain rfl : j = k := by omega
        rw [Nat.sub_self]
        cases f j <;> rfl

/-! ### A pallet that is built -/

/-- A CRC-16 stays one. -/
theorem crc16Bits_lt (n c v : Nat) (hc : c < 2 ^ 16) : crc16Bits n c v < 2 ^ 16 := by
  induction n generalizing c with
  | zero => exact hc
  | succ n ih =>
    have hs : c % 0x8000 * 2 < 2 ^ 16 := by omega
    refine ih _ ?_
    split
    · exact Nat.xor_lt_two_pow hs (by decide)
    · exact hs

/-- PCRC has 16 bits. -/
theorem palCrc_lt (g : Bool) (b : Blocks) : palCrc g b < 2 ^ 16 := by
  have fold : ∀ (l : List Block) (c : Nat), c < 2 ^ 16 → l.foldl (fun c x => crc16Bits 64 c x.toNat) c < 2 ^ 16 := by
    intro l
    induction l with
    | nil => exact fun _ hc => hc
    | cons x l ih => exact fun c hc => ih _ (crc16Bits_lt _ _ _ hc)
  exact fold _ _ (crc16Bits_lt _ _ _ (crc16Bits_lt _ _ _ (by decide)))

/-- The blocks after the header. -/
theorem toList_drop_set_zero (b : Blocks) (h : Block) : (b.set 0 h).toList.drop 1 = b.toList.drop 1 := by
  rw [Vector.toList_set, List.drop_set_of_lt (by decide)]

/-- PCRC covers the header but itself, and the payload (R245). -/
theorem palCrc_set (g : Bool) (b : Blocks) (h : Block) (h1 : bitsOf h.toNat 51 13 = palFld b 51 13)
    (h2 : bitsOf h.toNat 0 35 = palFld b 0 35) : palCrc g (b.set 0 h) = palCrc g b := by
  unfold palCrc
  rw [toList_drop_set_zero, palFld, palFld, Vector.getElem_set_self, h1, h2]

/-- A pallet's header (R245). -/
def palHeader (origin index seq : Nat) (ring empty follow : Bool) : Nat :=
  origin + b2n ring * 2 ^ 9 + index * 2 ^ 10 + seq % 2 ^ 16 * 2 ^ 19 + b2n empty * 2 ^ 51 + b2n follow * 2 ^ 52

/-- A pallet's 32 samples as one number (R246, R274). -/
def palNumber (g : Bool) (qs : Nat → Quarter) : Nat :=
  (List.range 32).foldr (fun j n =>
    if g then (gen1Sample (qs j)).1 + 2 ^ 24 * n else (qs j).toNat + 2 ^ 28 * n) 0

/-- A pallet before its check is put in. -/
def palBare (g : Bool) (h : Nat) (qs : Nat → Quarter) : Blocks :=
  Vector.ofFn fun (i : Fin 15) => match i.val with
    | 0 => BitVec.ofNat 64 h
    | i + 1 => BitVec.ofNat 64 (palNumber g qs / 2 ^ (64 * i))

section
variable (g : Bool) (o i sq : Nat) (r em f : Bool) (qs : Nat → Quarter)

theorem palBuild_eq : palBuild g o i sq r em f qs =
    (palBare g (palHeader o i sq r em f) qs).set 0
      (BitVec.ofNat 64 (palHeader o i sq r em f + palCrc g (palBare g (palHeader o i sq r em f) qs) * 2 ^ 35)) := rfl

/-- The samples of a pallet fill 12 blocks, or 14. -/
theorem palNumber_lt {n : Nat} (hn : 64 * 14 ≤ n) : palNumber g qs < 2 ^ n := by
  unfold palNumber
  cases g with
  | false =>
    exact (foldr_digits_lt 28 32 (fun j => (qs j).toNat) fun j => (qs j).isLt).trans_le
      (Nat.pow_le_pow_right (by decide) (Nat.le_trans (by decide) hn))
  | true =>
    exact (foldr_digits_lt 24 32 (fun j => (gen1Sample (qs j)).1) fun j => BitVec.isLt _).trans_le
      (Nat.pow_le_pow_right (by decide) (Nat.le_trans (by decide) hn))

/-- The payload of a pallet is the number of its samples. -/
theorem palPayload_build : palPayload (palBuild g o i sq r em f qs) = palNumber g qs := by
  have hl : (palBuild g o i sq r em f qs).toList.drop 1 =
      (List.range 14).map fun k => BitVec.ofNat 64 (palNumber g qs / 2 ^ (64 * k)) := by
    rw [palBuild_eq, toList_drop_set_zero]
    refine List.ext_getElem (by simp) fun k _ _ => ?_
    simp [palBare]
  have hn := foldr_digits (2 ^ 64) 14 (palNumber g qs)
  rw [← Nat.pow_mul, Nat.mod_eq_of_lt (palNumber_lt g qs (Nat.le_refl (64 * 14)))] at hn
  rw [palPayload, hl, List.foldr_map]
  simpa only [BitVec.toNat_ofNat, Nat.pow_mul] using hn

/-- What a slot of a built pallet carries: its quarter, or its Gen-1 sample (R246, R274, R275). -/
theorem palSlot_build (j : Nat) (hj : j < 32) : palSlot g (palBuild g o i sq r em f qs) j =
    if g then BitVec.ofNat 28 ((gen1Sample (qs j)).1 * 16) else qs j := by
  unfold palSlot
  rw [palPayload_build, palNumber]
  cases g with
  | false =>
    simp only [Bool.false_eq_true, if_false]
    rw [foldr_digit 28 32 j (fun j => (qs j).toNat) (fun j => (qs j).isLt) hj, BitVec.ofNat_toNat, BitVec.setWidth_eq]
  | true =>
    simp only [if_true]
    rw [foldr_digit 24 32 j (fun j => (gen1Sample (qs j)).1) (fun j => BitVec.isLt _) hj]

/-- The fields of a built pallet's header, and its check (R245). -/
theorem palFld_build (ho : o < 2 ^ 9) (hi : i < 2 ^ 9) :
    let x := palBuild g o i sq r em f qs
    palFld x 0 9 = o ∧ palFld x 10 9 = i ∧ palFld x 19 16 = sq % 2 ^ 16 ∧ palFld x 51 1 = b2n em ∧
      palFld x 35 16 = palCrc g x := by
  intro x
  have hb : ∀ b : Bool, b2n b ≤ 1 := fun b => by cases b <;> decide
  have hr := hb r
  have he := hb em
  have hf := hb f
  have hc := palCrc_lt g (palBare g (palHeader o i sq r em f) qs)
  have hx : x = _ := palBuild_eq g o i sq r em f qs
  have h0 : palFld (palBare g (palHeader o i sq r em f) qs) = bitsOf (BitVec.ofNat 64 (palHeader o i sq r em f)).toNat := rfl
  have hcrc : palCrc g x = palCrc g (palBare g (palHeader o i sq r em f) qs) := by
    rw [hx]
    refine palCrc_set g _ _ ?_ ?_
    all_goals
      rw [h0]
      generalize palCrc g (palBare g (palHeader o i sq r em f) qs) = c at hc ⊢
      unfold palHeader bitsOf
      rw [BitVec.toNat_ofNat, BitVec.toNat_ofNat]
      omega
  have hfld : palFld x = bitsOf (BitVec.ofNat 64 (palHeader o i sq r em f + palCrc g x * 2 ^ 35)).toNat := by
    rw [hcrc, hx]
    unfold palFld
    rw [Vector.getElem_set_self]
  rw [← hcrc] at hc
  rw [hfld]
  generalize palCrc g x = c at *
  unfold palHeader bitsOf
  rw [BitVec.toNat_ofNat]
  omega

end

end Machine
end Sys2Proof
end

