-- ==== Sys2Proof/Proofs/PalletMoves.lean ====
section
/-! SUPPORT. What the commands of pallets do: insertion, return to the master, passing and reception (R252 to R257, R288). -/

namespace Sys2Proof.Machine

section
variable (e : Die)

/-- Counting nothing changes nothing. -/
@[simp] theorem Die.count_zero (f : Fld) : e.count f 0 = e := rfl

/-- The pallet that `palletInsert` builds from the sinks of frame `q`. -/
def Die.palletFresh (e : Die) (p : Nat) (q : BitVec 16) : Blocks :=
  palBuild (e.gen1 e.fwdTo) (e.fld F.CHN_CTRL_POSID) p q.toNat (e.id == .b) false (e.role == Role.follow) (e.chn.readyQ p)

/-- Samples of a pallet that saturate as Gen-1 samples. -/
def Die.palletSats (e : Die) (p : Nat) : Nat :=
  if e.gen1 e.fwdTo then ((List.range 32).filter fun j => (gen1Sample (e.chn.readyQ p j)).2).length else 0

/-- The fresh pallet replaces the one leaving, and Gen-1 saturations count (R252, R275). -/
theorem Die.palletInsert_inserts {p : Nat} {q : BitVec 16} {m : SMap Quarter} (h : e.chn.ready = some (q, m))
    (hi : e.inserts = true) (hc : e.carries e.fwdTo = true) (ho : e.owns e.fwdTo p = true) (hp : p < e.palletCount e.fwdTo) :
    e.palletInsert p = (e.updChn fun c => { c with pallets := SMap.insert c.pallets p (e.palletFresh p q) }).count
      (F.CHNX_SLIP_GSAT e.fwdTo.idx) (e.palletSats p) := by
  unfold Die.palletInsert
  simp only [h, hi, hc, ho, hp, and_self, if_true]
  rfl

/-- Without eligible sinks, or where the die does not insert the pallet, nothing changes (R238, R252). -/
theorem Die.palletInsert_none {p : Nat} (h : e.chn.ready = none ∨ e.inserts = false ∨ e.carries e.fwdTo = false ∨
    e.owns e.fwdTo p = false ∨ e.palletCount e.fwdTo ≤ p) : e.palletInsert p = e := by
  unfold Die.palletInsert
  split
  · rfl
  · next r hr =>
    refine if_neg fun ⟨hi, hc, ho, hp⟩ => ?_
    rcases h with h | h | h | h | h
    · rw [h] at hr; cases hr
    · rw [h] at hi; cases hi
    · rw [h] at hc; cases hc
    · rw [h] at ho; cases ho
    · omega

/-- What a fresh pallet says: its origin, index and frame, not EMPTY, a good PCRC, and the sinks made ready (R245, R252). -/
theorem Die.palletFresh_says {p : Nat} {q : BitVec 16} {m : SMap Quarter} (hp : p < 2 ^ 9) (h : e.chn.ready = some (q, m)) :
    let x := e.palletFresh p q
    palFld x 0 9 = e.fld F.CHN_CTRL_POSID ∧ palFld x 10 9 = p ∧ palFld x 19 16 = q.toNat ∧ palFld x 51 1 = 0 ∧
      palFld x 35 16 = palCrc (e.gen1 e.fwdTo) x ∧
      ∀ j : Fin 32, palSlot (e.gen1 e.fwdTo) x j.val =
        let v := SMap.get quarterDflt m (0x1000 + 32 * p + j.val)
        if e.gen1 e.fwdTo then BitVec.ofNat 28 ((gen1Sample v).1 * 16) else v := by
  intro x
  obtain ⟨ho, hi, hs, he, hc⟩ := palFld_build (e.gen1 e.fwdTo) (e.fld F.CHN_CTRL_POSID) p q.toNat (e.id == .b) false
    (e.role == Role.follow) (e.chn.readyQ p) (bitsOf_lt _ _ _) hp
  refine ⟨ho, hi, hs.trans (Nat.mod_eq_of_lt q.isLt), he, hc, fun j => ?_⟩
  have hq : e.chn.readyQ p j = SMap.get quarterDflt m (0x1000 + 32 * p + j.val) := by rw [Chain.readyQ, h]
  rw [← hq]
  exact palSlot_build _ _ _ _ _ _ _ _ _ j.isLt

/-- A pallet inserted leaves the engine alone, and of the chain all but itself. -/
theorem Die.palletInsert_frame {p : Nat} {q : BitVec 16} {m : SMap Quarter} (h : e.chn.ready = some (q, m))
    (hi : e.inserts = true) (hc : e.carries e.fwdTo = true) (ho : e.owns e.fwdTo p = true) (hp : p < e.palletCount e.fwdTo) :
    (e.palletInsert p).chn = { e.chn with pallets := SMap.insert e.chn.pallets p (e.palletFresh p q) } ∧
      (e.palletInsert p).eng = e.eng := by
  rw [e.palletInsert_inserts h hi hc ho hp]
  obtain ⟨r, hr, -⟩ := Die.count_spec (e.updChn fun c => { c with pallets := SMap.insert c.pallets p (e.palletFresh p q) })
    (F.CHNX_SLIP_GSAT e.fwdTo.idx) (e.palletSats p)
  rw [hr]
  exact ⟨rfl, rfl⟩

/-- The sinks made ready are those of the chain (R252). -/
theorem get_chainSinks (m : SMap Quarter) (k : Nat) :
    SMap.get quarterDflt (m.filter fun q => 0x1000 ≤ q.1 && q.1 < 0x4000) k =
      if 0x1000 ≤ k ∧ k < 0x4000 then SMap.get quarterDflt m k else 0 := by
  rw [SMap.get_filter quarterDflt m (fun a => 0x1000 ≤ a && a < 0x4000) k]
  simp only [Bool.and_eq_true, decide_eq_true_eq]
  rfl

/-! ### Return to the master -/

/-- Where the die is no master, its port is OFF, or the copy is bad, a returning pallet changes nothing (R253). -/
theorem Die.palletReturn_drops {b : Blocks} {c : Nat} (h : ¬ (e.isMaster = true ∧ e.portState e.fwdFrom ≠ St.off) ∨
    palFld b 35 16 ≠ palCrc (e.gen1 e.fwdFrom) b) : e.palletReturn b c = e := by
  unfold Die.palletReturn
  refine if_pos ?_
  by_cases hm : e.isMaster = true
  · by_cases hp : e.portState e.fwdFrom = St.off
    · exact .inr (.inl hp)
    · exact .inr (.inr (h.resolve_left fun hn => hn ⟨hm, hp⟩))
  · exact .inl (by simp [hm])

/-- A good copy that comes back to a master goes into the container being sent, or is held for the next (R253). -/
theorem Die.palletReturn_good {b : Blocks} {c : Nat} (hm : e.isMaster = true ∧ e.portState e.fwdFrom ≠ St.off)
    (hc : palFld b 35 16 = palCrc (e.gen1 e.fwdFrom) b) : e.palletReturn b c =
      if e.intoPresent (palFld b 10 9) c then e.updChn fun n => { n with pallets := SMap.insert n.pallets (palFld b 10 9) b }
      else e.updChn fun n => { n with held := SMap.insert n.held (palFld b 10 9) b } := by
  unfold Die.palletReturn
  exact if_neg fun h => by simp [hm.1, hm.2, hc] at h

/-! ### Reception -/

/-- The slots of a pallet that the map extracts, as a mask (R255). -/
def Die.extMask (e : Die) (p : PortId) (idx : Nat) : BitVec 32 :=
  BitVec.ofNat 32 ((List.range 32).foldl (fun m j => m + b2n (e.extAt p (32 * idx + j)) * 2 ^ j) 0)

theorem Die.getLsbD_extMask (p : PortId) (idx : Nat) (j : Fin 32) :
    (e.extMask p idx).getLsbD j.val = e.extAt p (32 * idx + j.val) := by
  unfold Die.extMask
  rw [BitVec.getLsbD_ofNat, (foldl_mask _ 32).2 j.val j.isLt]
  simp [j.isLt]

/-- Frames that a pallet's sequence lies behind the next frame (R255). -/
def Die.palletAge (e : Die) (seq : Nat) : Nat := (e.seq + 1 + 2 ^ 32 - seq) % 2 ^ 16

/-- A pallet comes after its deadline (R256). -/
def Die.palletLate (e : Die) (seq cycle : Nat) : Prop :=
  e.palletAge seq = e.fld F.CHN_PCTL_P + 1 ∧ e.cyc < cycle + 544

section
variable (b : Blocks) (cycle : Nat)

/-- A bad pallet on forward in is counted (R245). -/
theorem Die.palletReceive_bad (h : palFld b 35 16 ≠ palCrc (e.gen1 e.fwdFrom) b) :
    e.palletReceive .forwardIn b cycle = e.count (F.CHNX_ERR_PCRC e.fwdFrom.idx) 1 := by
  simp only [Die.palletReceive, if_true, ne_eq, h, not_false_eq_true]

/-- An EMPTY pallet is passed over. -/
theorem Die.palletReceive_empty (h : palFld b 35 16 = palCrc (e.gen1 e.fwdFrom) b) (he : palFld b 51 1 = 1) :
    e.palletReceive .forwardIn b cycle = e := by
  simp only [Die.palletReceive, if_true, ne_eq, h, not_true_eq_false, if_false, he]

variable (hc : palFld b 35 16 = palCrc (e.gen1 e.fwdFrom) b) (he : palFld b 51 1 = 0)
  (ho : palFld b 0 9 ≠ e.fld F.CHN_CTRL_POSID) (hs : e.inService = true) (hi : palFld b 10 9 < 384)
include hc he ho hs hi

/-- A good pallet of another origin that is stale is counted as stale (R255). -/
theorem Die.palletReceive_stale (ha : e.fld F.CHN_PCTL_P + 1 < e.palletAge (palFld b 19 16)) :
    e.palletReceive .forwardIn b cycle = (e.count F.CHN_STALE_COUNT 1).setFld F.CHN_IRQ_STALE 1 := by
  have hi' : ¬ 384 ≤ palFld b 10 9 := by omega
  unfold Die.palletAge at ha
  simp only [Die.palletReceive, if_true, ne_eq, hc, not_true_eq_false, if_false, he, Nat.zero_ne_one, ho, true_and, false_and,
    hs, Bool.not_true, Bool.false_eq_true, false_or, hi', ha]

/-- The first good copy of an index and sequence is stored in time, and counted late after its deadline (R255, R256). -/
theorem Die.palletReceive_first (ha : e.palletAge (palFld b 19 16) ≤ e.fld F.CHN_PCTL_P + 1)
    (hf : e.chn.store.find? (fun c => c.idx == palFld b 10 9 && c.seq.toNat == palFld b 19 16) = none) :
    (e.palletLate (palFld b 19 16) cycle →
      e.palletReceive .forwardIn b cycle = e.plateCount F.CHN_LATE_COUNT F.CHN_IRQ_LATE) ∧
    (¬ e.palletLate (palFld b 19 16) cycle →
      e.palletReceive .forwardIn b cycle = e.updChn fun c => { c with
        store := c.store ++ [⟨palFld b 10 9, BitVec.ofNat 16 (palFld b 19 16), BitVec.ofNat 9 (palFld b 0 9),
          e.extMask e.fwdFrom (palFld b 10 9), Vector.ofFn fun (j : Fin 32) => palSlot (e.gen1 e.fwdFrom) b j.val⟩] }) := by
  have hi' : ¬ 384 ≤ palFld b 10 9 := by omega
  have ha' := Nat.not_lt.2 ha
  unfold Die.palletLate
  unfold Die.palletAge at ha' ⊢
  refine ⟨fun hl => ?_, fun hl => ?_⟩
  · have hlim : ¬ e.fld F.CHN_PCTL_P + 1 < e.fld F.CHN_PCTL_P + 1 := Nat.lt_irrefl _
    simp only [Die.palletReceive, if_true, ne_eq, hc, not_true_eq_false, if_false, he, Nat.zero_ne_one, ho, true_and, false_and,
      hs, Bool.not_true, Bool.false_eq_true, false_or, hi', hlim, hf, hl, and_self]
  · simp only [Die.palletReceive, if_true, ne_eq, hc, not_true_eq_false, if_false, he, Nat.zero_ne_one, ho, true_and, false_and,
      hs, Bool.not_true, Bool.false_eq_true, false_or, hi', ha', hf, hl]
    rfl

end
end

/-- A pallet of the forward input: none while its port is OFF, and else one at the crossing into ENG (R238). -/
def Die.palletArrive (e : Die) (b : Blocks) (cycle : Nat) : Die :=
  if e.portState e.fwdFrom = St.off then e else e.palletCross .forwardIn b cycle

/-- A command of the forward input acts in the domain of the port's receiver. -/
theorem ChangesIn.of_palletReceive {d : DieId} {b : Blocks} {c : BitVec 15} {s : State} {g : Die → Die}
    (hg : (s.die d).palletArrive b c.toNat = g (s.die d)) :
    ChangesIn (rxDom (s.die d).fwdFrom) (.palletReceive d .forwardIn b c) s d g :=
  (ChangesIn.of_updIn (f := fun e => e.palletArrive b c.toNat) rfl).congr fun _ => hg

/-- Settles O28, by what each command of a pallet does to its die. -/
theorem palletsMove : Obligations.PalletsMove := by
  refine ⟨fun d p x b s => ?_, fun d b cycle s => ?_⟩
  · intro e
    refine ⟨⟨_, get_chainSinks e.mor.sinks, ChangesIn.of_updIn rfl⟩, fun q m h hi hc ho hp => ?_, fun h => ?_, ?_,
      fun hl hn => ?_, fun hl hn => ?_, fun hl => ?_⟩
    · obtain ⟨h1, h2, h3, h4, h5, h6⟩ := e.palletFresh_says (p.isLt.trans (by decide)) h
      refine ⟨e.palletFresh p q, h1, h2, h3, h4, h5, h6, fun hg => ?_, ?_⟩
      · refine (ChangesIn.of_updIn rfl).congr fun _ => ?_
        rw [Die.palletInsert_inserts _ h hi hc ho hp, Die.palletSats, if_neg (by rw [hg]; decide), Die.count_zero]
      · refine (ChangesIn.of_updIn rfl).to fun _ => ?_
        rw [State.die_setDie_self, State.die_setDie_other]
        obtain ⟨hchn, heng⟩ := e.palletInsert_frame h hi hc ho hp
        exact ⟨hchn, heng, rfl⟩
    · exact (ChangesIn.of_updIn rfl).congr fun _ => e.palletInsert_none h
    · intro back b on
      have hback {f : Die → Die} (hf : e.palletReturn b x.cycle.toNat = f e) : ChangesIn .ltx back s d f :=
        (ChangesIn.of_updIn rfl).congr fun _ => hf
      refine ⟨fun hn => hback (e.palletReturn_drops (.inl hn)), fun hm hc hp => hback ?_, fun hm hc hp => hback ?_,
        fun _ hc => hback (e.palletReturn_drops (.inr hc))⟩
      · rw [e.palletReturn_good hm hc, hp, if_neg Bool.false_ne_true]
      · rw [e.palletReturn_good hm hc, hp, if_pos rfl]
    · refine Changes.of_upd (f := fun e => e.updPair fun p => { p with passed := p.passed ++ [b] }) ?_ rfl
      rw [exec_palletPass, execPalletPass, State.wall, hl, hn]
      rfl
    · refine Changes.of_upd (f := fun e => e.lossTaken .pallet) ?_ rfl
      rw [exec_palletPass, execPalletPass, State.wall, hl, hn]
      rfl
    · unfold Changes
      rw [exec_palletPass, execPalletPass, State.wall, hl, State.setDie_self]
      rfl
  · intro e port idx seq age lim late recv run
    have cross {f : Die → Die} (hp : e.portState port ≠ St.off) (hf : e.palletCross .forwardIn b cycle.toNat = f e) : run f :=
      ChangesIn.of_palletReceive ((if_neg hp).trans hf)
    refine ⟨fun hp => ChangesIn.of_palletReceive (if_pos hp), fun hp hr hid => cross hp ?_,
      fun hp hr hid => cross hp ?_, fun hb => ?_, fun hp hr => ?_⟩
    · rw [Die.palletCross, hr, if_neg Bool.false_ne_true, hid, if_pos rfl]
    · rw [Die.palletCross, hr, if_neg Bool.false_ne_true, hid, if_neg Bool.false_ne_true]
    · unfold Changes
      rw [exec_palletReceive, execPalletReceive, State.updIn, State.upd, State.setDie_self]
      split
      · rw [hb, if_neg Bool.false_ne_true, State.setDie_self]
      · rfl
    · have recvd {f : Die → Die} (hf : e.palletReceive .forwardIn b cycle.toNat = f e) : run f :=
        cross hp (by rw [Die.palletCross, hr, if_pos rfl, hf])
      refine ⟨fun hc => recvd (e.palletReceive_bad _ _ hc), fun hc he => recvd (e.palletReceive_empty _ _ hc he),
        fun hc he ho hs hi => ⟨fun ha => recvd (e.palletReceive_stale _ _ hc he ho hs hi ha), fun ha hf => ?_⟩⟩
      obtain ⟨hlate, htime⟩ := e.palletReceive_first b cycle.toNat hc he ho hs hi ha hf
      exact ⟨fun hl => recvd (hlate hl), fun hl => ⟨e.extMask port idx, e.getLsbD_extMask port idx, recvd (htime hl)⟩⟩

end Sys2Proof.Machine
end

