-- ==== Sys2Proof/Proofs/Frames.lean ====
section
/-! SUPPORT. The frame tick's line at the cores (R386), and the waiting recall that takes it back (R201). -/

namespace Sys2Proof.Machine

/-- A recall group whose one write clears core 0's frame tick: XBR_0_LATCH is write-one-to-clear. -/
def latchClearing : SceneWait := ⟨0, ⟨0, 0, [(BitVec.ofNat 32 (R.XBR_N_LATCH 0), 1)]⟩, 0, false⟩

/-- Die A after reset, with every clock running and `latchClearing` waiting. -/
def dieWithLatchClearing : Die :=
  { Die.reset .a with
    clk := ⟨[], false, false⟩
    swp := { Swap.reset with waits := [latchClearing] } }

/-- The package with that die. -/
def stateWithLatchClearing : State := ⟨dieWithLatchClearing, Die.reset .b, []⟩

theorem dieWithLatchClearing_canonical : dieWithLatchClearing.canonical = true := by decide +kernel

theorem dieWithLatchClearing_runs_ctl : dieWithLatchClearing.runs .ctl = true := rfl

/-- The group that waited is served after the tick has reached the latches, and its write clears core 0's again. -/
theorem dieWithLatchClearing_sceneWaits : dieWithLatchClearing.tickLine.sceneWaits.pendingAt 0 0 = false := by decide +kernel

/-- FRAME_TICK_LINE: the tick reaches the latches, and then the recalls that waited are served. -/
theorem changesIn_frameTickLine (d : DieId) (s : State) :
    ChangesIn .ctl (.frameTickLine d) s d fun e => e.tickLine.sceneWaits := ChangesIn.of_updIn rfl

/-- Refutes O56: FRAME_TICK_LINE latches the frame tick at every core and then, in the same command, serves the recalls that
waited (R201), whose writes the model does not confine to the scopes of a group (an image's scene section stores any). Here a
waiting group writes XBR_0_LATCH, so that core 0 is left without its frame tick. -/
theorem not_transitionsAndFramesPass : ¬ Obligations.TransitionsAndFramesPass := by
  rintro ⟨-, hframe, -⟩
  obtain ⟨-, -, -, -, hline⟩ := hframe .a 0 0 0 stateWithLatchClearing
  obtain ⟨hruns, -⟩ := hline dieWithLatchClearing_canonical
  obtain ⟨t, hexec, hpending, -⟩ := hruns dieWithLatchClearing_runs_ctl
  have hticked := (changesIn_frameTickLine .a stateWithLatchClearing).1 dieWithLatchClearing_runs_ctl
  rw [Changes, hexec] at hticked
  obtain rfl := Host.Outcome.next.inj hticked
  have hcleared := hpending 0
  rw [State.die_setDie_self] at hcleared
  exact Bool.false_ne_true (dieWithLatchClearing_sceneWaits.symm.trans hcleared)

end Sys2Proof.Machine
end

