-- ==== Sys2Proof/Proofs/BrickArith.lean ====
section
/-! SUPPORT. The arithmetic of a brick: narrowing, saturation, wrap counts, rounding and shift counts (R56, R57, R81 to R84). -/

namespace Sys2Proof.Machine

/-! ### Accumulation with wrap counts -/

/-- A sum of two accumulator terms, cut to 70 bits, is short of the exact sum by its wraps (R81). -/
theorem toInt_ofInt_wrapOf {x : Int} (hlo : -(2 ^ 70) ≤ x) (hhi : x < 2 ^ 70) :
    (BitVec.ofInt 70 x).toInt = x - wrapOf x * 2 ^ 70 := by
  rw [BitVec.toInt_ofInt, wrapOf, Int.bmod_def]
  split_ifs <;> omega

/-- A wrap count within its range is kept exactly. -/
theorem toInt_ofInt_awc {n : Int} (hlo : -3 ≤ n) (hhi : n ≤ 3) : (BitVec.ofInt 3 (clampI (-3) 3 n)).toInt = n := by
  rw [BitVec.toInt_ofInt, clampI, if_neg (by omega), if_neg (by omega), Int.bmod_def]
  split_ifs <;> omega

/-- A pinned wrap count stays (R82). -/
theorem accAdd_awc_pinned {a : AccVal} (x more : Int) (h : a.awc.toInt = 3 ∨ a.awc.toInt = -3) :
    (accAdd a x more).awc = a.awc := if_pos h

/-- A wrap count that is not pinned counts the wraps of the addition (R81). -/
theorem accAdd_awc_free {a : AccVal} {x : Int} (h : a.awc.toInt.natAbs < 3) (hlo : -3 ≤ a.awc.toInt + wrapOf (a.ac.toInt + x))
    (hhi : a.awc.toInt + wrapOf (a.ac.toInt + x) ≤ 3) :
    (accAdd a x 0).awc.toInt = a.awc.toInt + wrapOf (a.ac.toInt + x) := by
  have hfree : ¬ (a.awc.toInt = 3 ∨ a.awc.toInt = -3) := by omega
  simp only [accAdd, if_neg hfree, add_zero]
  exact toInt_ofInt_awc hlo hhi

/-- Settles O2: the 70 bits fall short of the exact sum by the wraps that the count gains. -/
theorem accumulationIsExactUntilPinned : Obligations.AccumulationIsExactUntilPinned := by
  refine ⟨fun a x hlo hhi hfree hmax hmin => ?_, fun a x more h => accAdd_awc_pinned x more h⟩
  have hac := a.ac.le_toInt
  have hac' := a.ac.toInt_lt
  have hsum : (accAdd a x 0).ac.toInt = a.ac.toInt + x - wrapOf (a.ac.toInt + x) * 2 ^ 70 :=
    toInt_ofInt_wrapOf (by omega) (by omega)
  rw [accAdd_awc_free hfree hmin hmax, hsum]
  ring

/-! ### Saturation -/

/-- A saturated quarter is its value brought into the quarter's range (R56). -/
theorem toInt_satQ (v : Int) : (satQ v).toInt = clampI (-(2 ^ 27)) (2 ^ 27 - 1) v := by
  rw [satQ, BitVec.toInt_ofInt, clampI, clampI, Int.bmod_def]
  split_ifs <;> omega

theorem clampI_of_mem {lo hi v : Int} (h1 : lo ≤ v) (h2 : v ≤ hi) : clampI lo hi v = v := by
  rw [clampI, if_neg (by omega), if_neg (by omega)]

theorem clampI_of_lt {lo hi v : Int} (h : v < lo) : clampI lo hi v = lo := if_pos h

theorem clampI_of_gt {lo hi v : Int} (hr : lo ≤ hi) (h : hi < v) : clampI lo hi v = hi := by
  rw [clampI, if_neg (by omega), if_pos h]

/-! ### Rounding -/

/-- Modes 0b00 and 0b11 round to the nearest, ties toward +∞ (R84). -/
theorem roundMode_nearest {mode : BitVec 2} (h : mode = 0 ∨ mode = 3) (x : Int) (e : Nat) :
    2 * roundMode x e mode * 2 ^ e - 2 ^ e ≤ 2 * x ∧ 2 * x < 2 * roundMode x e mode * 2 ^ e + 2 ^ e := by
  have hv : roundMode x e mode = (2 * x + 2 ^ e) / (2 * 2 ^ e) := by
    rcases h with rfl | rfl <;> rfl
  have hp : (0 : Int) < 2 ^ e := by positivity
  have h2p : (0 : Int) < 2 * 2 ^ e := by positivity
  have h1 := Int.ediv_mul_le (2 * x + 2 ^ e) h2p.ne'
  have h2 := Int.lt_ediv_add_one_mul_self (2 * x + 2 ^ e) h2p
  rw [← hv] at h1 h2
  constructor <;> linarith

/-- Mode 0b01 rounds to the nearest, ties to even (R84). -/
theorem roundMode_even (x : Int) (e : Nat) :
    2 * roundMode x e 1 * 2 ^ e - 2 ^ e ≤ 2 * x ∧ 2 * x ≤ 2 * roundMode x e 1 * 2 ^ e + 2 ^ e ∧
      (2 * x = 2 * roundMode x e 1 * 2 ^ e - 2 ^ e ∨ 2 * x = 2 * roundMode x e 1 * 2 ^ e + 2 ^ e →
        roundMode x e 1 % 2 = 0) := by
  have hp : (0 : Int) < 2 ^ e := by positivity
  have h1 := Int.ediv_mul_le x hp.ne'
  have h2 := Int.lt_ediv_add_one_mul_self x hp
  have hv : roundMode x e 1 = if 2 * (x - x / 2 ^ e * 2 ^ e) > 2 ^ e ∨
      (2 * (x - x / 2 ^ e * 2 ^ e) = 2 ^ e ∧ x / 2 ^ e % 2 = 1) then x / 2 ^ e + 1 else x / 2 ^ e := rfl
  rw [hv]
  generalize (2 : Int) ^ e = p at *
  generalize x / p = q at *
  have hup : (q + 1) * p = q * p + p := by ring
  have hup2 : 2 * (q + 1) * p = 2 * (q * p) + 2 * p := by ring
  have hdown2 : 2 * q * p = 2 * (q * p) := by ring
  split_ifs
  · rw [hup2]
    omega
  · rw [hdown2]
    omega

/-- Mode 0b10 rounds toward −∞ (R84). -/
theorem roundMode_floor (x : Int) (e : Nat) :
    roundMode x e 2 * 2 ^ e ≤ x ∧ x < roundMode x e 2 * 2 ^ e + 2 ^ e := by
  have hp : (0 : Int) < 2 ^ e := by positivity
  have h2 := Int.lt_ediv_add_one_mul_self x hp
  rw [add_mul, one_mul] at h2
  exact ⟨Int.ediv_mul_le x hp.ne', h2⟩

/-! ### The store procedure -/

section
variable (ac : BitVec 70) {awc : BitVec 3} (sh : Int) (w : Nat) (mode : BitVec 2) (di : Int)

/-- A wrap above the range stores the top of the width's range (R83). -/
theorem storeAcc_of_pos (h : 0 < awc.toInt) : storeAcc ac awc sh w mode di = (2 ^ (w - 1) - 1, true) := if_pos h

/-- A wrap below the range stores its bottom (R83). -/
theorem storeAcc_of_neg (h : awc.toInt < 0) : storeAcc ac awc sh w mode di = (-(2 ^ (w - 1)), true) := by
  rw [storeAcc, if_neg (by omega), if_pos h]

/-- The exact value rounded to the LSB of the width, the dither added (R84). -/
def storeRounded : Int :=
  roundMode (ac.toInt * 4096 + di * 2 ^ (55 + sh - w).toNat) ((55 + sh - w).toNat + 12) mode

/-- With no wrap the rounded value is brought into the width's range (R83, R84). -/
theorem storeAcc_of_zero (h : awc.toInt = 0) : storeAcc ac awc sh w mode di =
    (clampI (-(2 ^ (w - 1))) (2 ^ (w - 1) - 1) (storeRounded ac sh w mode di),
      decide (storeRounded ac sh w mode di < -(2 ^ (w - 1)) ∨ 2 ^ (w - 1) - 1 < storeRounded ac sh w mode di)) := by
  have hp : (0 : Int) < 2 ^ (w - 1) := by positivity
  unfold storeAcc storeRounded clampI
  rw [if_neg (by omega), if_neg (by omega)]
  dsimp only
  generalize roundMode _ _ _ = v
  split_ifs <;> simp only [Prod.mk.injEq, true_eq_decide_iff, false_eq_decide_iff, true_and] <;> omega

end

theorem clampI_mem {lo hi : Int} (h : lo ≤ hi) (v : Int) : lo ≤ clampI lo hi v ∧ clampI lo hi v ≤ hi := by
  unfold clampI
  split_ifs <;> omega

theorem clampI_eq_max_min {lo hi : Int} (h : lo ≤ hi) (v : Int) : clampI lo hi v = max lo (min hi v) := by
  unfold clampI
  split_ifs <;> omega

/-- A stored value lies in the range of its width (R83, R84). -/
theorem storeAcc_mem (ac : BitVec 70) (awc : BitVec 3) (sh : Int) (w : Nat) (mode : BitVec 2) (di : Int) :
    -(2 ^ (w - 1)) ≤ (storeAcc ac awc sh w mode di).1 ∧ (storeAcc ac awc sh w mode di).1 < 2 ^ (w - 1) := by
  have hp : (0 : Int) < 2 ^ (w - 1) := by positivity
  rcases lt_trichotomy awc.toInt 0 with h | h | h
  · rw [storeAcc_of_neg _ _ _ _ _ h]
    exact ⟨le_refl _, by dsimp only; omega⟩
  · rw [storeAcc_of_zero _ _ _ _ _ h]
    obtain ⟨h1, h2⟩ := clampI_mem (show -(2 ^ (w - 1)) ≤ (2 ^ (w - 1) - 1 : Int) by omega) (storeRounded ac sh w mode di)
    exact ⟨h1, by dsimp only; omega⟩
  · rw [storeAcc_of_pos _ _ _ _ _ h]
    exact ⟨by dsimp only; omega, by dsimp only; omega⟩

/-- Settles O7: by the range of a saturated quarter, the sign of the wrap count, and the rounding mode. -/
theorem storedValuesSaturate : Obligations.StoredValuesSaturate := by
  refine ⟨fun v => ?_, fun ac awc sh w mode di _ => ?_, fun x e mode => ?_, fun ac sh w mode di _ _ => ?_⟩
  · rw [toInt_satQ]
    exact ⟨fun h1 h2 => clampI_of_mem h1 (by omega), fun h => clampI_of_gt (by omega) (by omega), fun h => clampI_of_lt h⟩
  · obtain ⟨h1, h2⟩ := storeAcc_mem ac awc sh w mode di
    exact ⟨h1, h2, storeAcc_of_pos _ _ _ _ _, storeAcc_of_neg _ _ _ _ _⟩
  · refine ⟨fun h => roundMode_nearest h x e, ?_, ?_⟩
    · rintro rfl
      exact roundMode_even x e
    · rintro rfl
      exact roundMode_floor x e
  · have hp : (0 : Int) < 2 ^ (w - 1) := by positivity
    intro e v
    rw [storeAcc_of_zero ac sh.toInt w mode di (awc := 0) rfl]
    exact ⟨clampI_eq_max_min (by omega) _, decide_eq_true_iff⟩

end Sys2Proof.Machine
end

