-- ==== Sys2Proof/Proofs/CourseOps.lean ====
section
/-! SUPPORT. The multiply-accumulate, ALU and store operations of a course: what each puts in flight (R55 to R58, R83 to
R87). -/

namespace Sys2Proof.Machine

/-- The change of an operation may be told otherwise. -/
theorem Issues.congr {i : Instr} {s : State} {d : DieId} {c : Fin 28} {f g : Die → Die} (h : Issues i s d c f)
    (hf : f (s.die d) = g (s.die d)) : Issues i s d c g :=
  ⟨fun hi => by rw [Changes, ← hf]; exact h.1 hi, h.2⟩

/-- So may its change of the course. -/
theorem IssuesCourse.congr {i : Instr} {s : State} {d : DieId} {c : Fin 28} {f g : Course → Course}
    (h : IssuesCourse i s d c f) (hf : ∀ x, f x = g x) : IssuesCourse i s d c g :=
  Issues.congr h (by rw [hf])

/-! ### Multiply-accumulate -/

/-- A result of the present bundle is not yet the latest value of either accumulator (R54). -/
@[simp] theorem Course.latest_issueAcc (x : Course) (m n : Bool) (v : Vector AccVal 8) :
    (x.issueAcc m v).latest n = x.latest n := by
  unfold Course.latest Course.issueAcc Course.issue
  rw [List.foldl_append]
  simp [Course.accs]

/-- Settles O1: each operation by its own meaning; of the dual ones, the second adds to an accumulator that the first left. -/
theorem multiplyOperationsIssue : Obligations.MultiplyOperationsIssue := by
  intro d c acc ma mb msh s
  refine ⟨.of_onCourse rfl, .of_onCourse rfl, .of_onCourse rfl, .of_onCourse rfl, .of_onCourse rfl, .of_onCourse rfl,
    .of_onCourse rfl, .of_onCourse rfl, (IssuesCourse.of_onCourse rfl).congr fun x => ?_,
    (IssuesCourse.of_onCourse rfl).congr fun x => ?_⟩
  · unfold Course.mopAdd
    rw [Course.latest_issueAcc]
    rfl
  · unfold Course.mopAdd
    rw [Course.latest_issueAcc]
    rfl

/-! ### ALU -/

/-- Settles O3: each operation by its own meaning. -/
theorem aluOperationsIssue : Obligations.AluOperationsIssue := by
  intro d c qd qs qt sh imm s two one
  exact ⟨.of_onCourse rfl, .of_onCourse rfl, .of_onCourse rfl, .of_onCourse rfl, .of_onCourse rfl, .of_onCourse rfl,
    .of_onCourse rfl, .of_onCourse rfl, .of_onCourse rfl, .of_onCourse rfl, .of_onCourse rfl, .of_onCourse rfl,
    .of_onCourse rfl, .of_onCourse rfl, .of_onCourse rfl, .of_onCourse rfl, .of_onCourse rfl, .of_onCourse rfl⟩

/-- Settles O5: each operation by its own meaning, ARS by its part. -/
theorem otherAluOperationsIssue : Obligations.OtherAluOperationsIssue := by
  intro d c acc qd qs qt qi sel idx k imm hi part ap s
  refine ⟨.of_onCourse rfl, .of_onCourse rfl, .of_onCourse rfl, .of_onCourse rfl, .of_onCourse rfl, .of_onCourse rfl,
    .of_onCourse rfl, .of_onCourse rfl, .of_onCourse rfl, .of_onCourse rfl, .of_onCourse rfl, .of_onCourse rfl,
    fun h2 h3 => (IssuesCourse.of_onCourse rfl).congr fun x => ?_, ?_, ?_, .of_onCourse rfl⟩
  · rw [if_neg h3, if_neg h2]
  · rintro rfl
    exact .of_onCourse rfl
  · rintro rfl
    exact .of_onCourse rfl

/-! ### Shift counts from 28 -/

/-- A shift count from 28 acts as 28 (R57). -/
theorem shiftCount_of_le {sh : BitVec 5} (h : 28 ≤ sh.toNat) : shiftCount sh = 28 := Nat.min_eq_right h

/-- Shifted left by 28, every quarter but zero saturates by its sign. -/
theorem satQ_shl28 (a : Quarter) : satQ (a.toInt * 2 ^ 28) =
    if a = 0 then 0 else if a.toInt < 0 then BitVec.ofInt 28 (-(2 ^ 27)) else BitVec.ofInt 28 (2 ^ 27 - 1) := by
  have hz : a = 0 ↔ a.toInt = 0 := by rw [← BitVec.toInt_inj]; rfl
  unfold satQ
  split_ifs with h0 hneg
  · rw [h0]; rfl
  · rw [clampI_of_lt (by omega)]; rfl
  · rw [hz] at h0
    have hpos : 134217727 < a.toInt * 2 ^ 28 := by omega
    rw [clampI_of_gt (by decide) hpos]
    rfl

/-- Shifted right by 28, a quarter leaves its sign. -/
theorem shra28 (a : Quarter) : BitVec.ofInt 28 (a.toInt / 2 ^ 28) = if a.toInt < 0 then BitVec.ofInt 28 (-1) else 0 := by
  have hlo := a.le_toInt
  have hhi := a.toInt_lt
  split_ifs with hneg
  · rw [show a.toInt / 2 ^ 28 = -1 by omega]
  · rw [show a.toInt / 2 ^ 28 = 0 by omega]; rfl

/-- Shifted right by 28 without its sign, a quarter leaves nothing. -/
theorem shrl28 (a : Quarter) : BitVec.ofNat 28 (a.toNat / 2 ^ 28) = 0 := by
  rw [Nat.div_eq_of_lt a.isLt]; rfl

/-- Settles O4: by the count that acts and what a shift by 28 leaves of a quarter. -/
theorem shiftCountsFrom28 : Obligations.ShiftCountsFrom28 := by
  intro d c qd qs sh s h
  have hsh : shiftCount sh = 28 := shiftCount_of_le h
  have hshl : exec (.shl d c qd qs sh) s = exec (.shl d c qd qs 28) s := by
    simp only [exec_shl, execShl, hsh]; rfl
  have hshra : exec (.shra d c qd qs sh) s = exec (.shra d c qd qs 28) s := by
    simp only [exec_shra, execShra, hsh]; rfl
  have hshrl : exec (.shrl d c qd qs sh) s = exec (.shrl d c qd qs 28) s := by
    simp only [exec_shrl, execShrl, hsh]; rfl
  refine ⟨hshl, hshra, hshrl, (IssuesCourse.of_onCourse hshl).congr fun x => ?_,
    (IssuesCourse.of_onCourse hshra).congr fun x => ?_, (IssuesCourse.of_onCourse hshrl).congr fun x => ?_⟩
  · exact congrArg (fun f => x.alu1 qd qs f) (funext satQ_shl28)
  · exact congrArg (fun f => x.alu1 qd qs f) (funext shra28)
  · refine (congrArg (fun f => x.alu1 qd qs f) (funext shrl28)).trans ?_
    unfold Course.alu1
    rw [Vector.map_const']
    rfl

/-! ### Stores from the accumulators -/

/-- A dither register after a store of a round mode: it steps under 0b11 alone (R85). -/
def dithering (mode : BitVec 2) (l : BitVec 32) : BitVec 32 := if mode = 3 then ditherNext l else l

/-- The dither a store adds from its register (R84, R85). -/
def ditherAdded (mode : BitVec 2) (l : BitVec 32) : Int := if mode = 3 then ditherOf l else 0

/-- A store of mode 0b11 adds the dither of its register after 32 steps (R85). -/
theorem ditherOf_dithering (mode : BitVec 2) (l : BitVec 32) :
    (if mode = 3 then ditherOf (dithering mode l) else 0) = if mode = 3 then ditherOf (lfsrSteps 32 l) else 0 := by
  unfold dithering
  split_ifs <;> rfl

/-- Two stores of mode 0b11 step the register twice. -/
theorem dithering_dithering (mode : BitVec 2) (l : BitVec 32) :
    dithering mode (dithering mode l) = if mode = 3 then lfsrSteps 32 (lfsrSteps 32 l) else l := by
  unfold dithering
  split_ifs <;> rfl

/-- The course with these dither registers. -/
def Course.withLfsr (x : Course) (l : Vector (BitVec 32) 8) : Course :=
  { x with bricks := Vector.ofFn fun (k : Fin 8) => { x.bricks[k] with lfsr := l[k] } }

/-- The course's dither registers, each changed by `f`. -/
def Course.lfsrs (x : Course) (f : BitVec 32 → BitVec 32) : Vector (BitVec 32) 8 :=
  Vector.ofFn fun (k : Fin 8) => f x.bricks[k].lfsr

/-- STA steps the dither registers where its mode dithers. -/
theorem Course.withLfsr_dithering (x : Course) (mode : BitVec 2) : x.withLfsr (x.lfsrs (dithering mode)) =
    if mode = 3 then { x with bricks := x.bricks.map fun b => { b with lfsr := ditherNext b.lfsr } } else x := by
  have hsame : x.withLfsr (x.lfsrs id) = x := by
    unfold Course.withLfsr Course.lfsrs
    congr 1
    ext k hk : 1
    simp
  split_ifs with h
  · unfold Course.withLfsr Course.lfsrs
    congr 1
    ext k hk : 1
    simp [dithering, h]
  · have hid : dithering mode = id := funext fun l => if_neg h
    rw [hid, hsame]

/-- What STA stores in each lane, and whether it saturates (R83). -/
def Course.staLanes (x : Course) (acc : Bool) (sh : BitVec 5) (width mode : BitVec 2) : Vector (Int × Bool) 8 :=
  Vector.ofFn fun (k : Fin 8) =>
    storeAcc (x.bricks[k].acc acc).ac (x.bricks[k].acc acc).awc sh.toInt (staWidth width) mode
      (ditherAdded mode (dithering mode x.bricks[k].lfsr))

/-- STA puts its quarter and the lanes' saturation in flight, and steps the dither registers (R83, R85). -/
theorem sta_issues (d : DieId) (c : Fin 28) (acc : Bool) (qd : BitVec 4) (sh : BitVec 5) (width mode : BitVec 2) (s : State) :
    IssuesCourse (.sta d c acc qd sh width mode) s d c fun x =>
      ((x.withLfsr (x.lfsrs (dithering mode))).plus 2 (.q .store qd ((x.staLanes acc sh width mode).map fun v =>
        BitVec.ofInt 28 (v.1 * 2 ^ (4 * width.toNat))))).plus 2 (.qsat ((x.staLanes acc sh width mode).map (·.2))) := by
  refine (IssuesCourse.of_onCourse rfl).congr fun x => ?_
  have hlow : 28 - staWidth width = 4 * width.toNat := by unfold staWidth; omega
  have hlanes : (Vector.ofFn fun (l : Fin 8) =>
      let b := (x.withLfsr (x.lfsrs (dithering mode))).bricks[l]
      storeAcc (b.acc acc).ac (b.acc acc).awc sh.toInt (staWidth width) mode (ditherAdded mode b.lfsr)) =
      x.staLanes acc sh width mode := by
    unfold Course.staLanes Course.withLfsr Course.lfsrs
    cases acc <;> simp [Brick.acc]
  dsimp only
  rw [← Course.withLfsr_dithering, ← hlanes, hlow]
  rfl

/-- What DSTA stores in each lane: AC0 into the high stone, dithered first, and AC1 into the low one (R83, R85, R86). -/
def Course.dstaLanes (x : Course) (sh : BitVec 5) (mode : BitVec 2) : Vector (Quarter × Bool) 8 :=
  Vector.ofFn fun (k : Fin 8) =>
    let b := x.bricks[k]
    let h := storeAcc b.ac0 b.awc0 sh.toInt 14 mode (ditherAdded mode (dithering mode b.lfsr))
    let g := storeAcc b.ac1 b.awc1 sh.toInt 14 mode (ditherAdded mode (dithering mode (dithering mode b.lfsr)))
    (ofStones h.1 g.1, h.2 || g.2)

/-- DSTA puts its two stones and the lanes' saturation in flight, and steps the dither registers twice (R83, R85, R86). -/
theorem dsta_issues (d : DieId) (c : Fin 28) (qd : BitVec 4) (sh : BitVec 5) (mode : BitVec 2) (s : State) :
    IssuesCourse (.dsta d c qd sh mode) s d c fun x =>
      ((x.withLfsr (x.lfsrs fun l => dithering mode (dithering mode l))).plus 2
        (.q .store qd ((x.dstaLanes sh mode).map (·.1)))).plus 2 (.qsat ((x.dstaLanes sh mode).map (·.2))) := by
  refine (IssuesCourse.of_onCourse rfl).congr fun x => ?_
  unfold Course.withLfsr Course.lfsrs Course.dstaLanes
  simp only [Vector.map_ofFn, Fin.getElem_fin, Vector.getElem_ofFn]
  rfl

/-- Settles O6: by what STA and DSTA store in each lane. -/
theorem storeOperationsIssue : Obligations.StoreOperationsIssue := by
  intro d c acc qd sh width mode s
  refine ⟨Issues.to (sta_issues ..) ⟨_, _, _, rfl, fun k => ⟨?_, ?_⟩⟩,
    Issues.to (dsta_issues ..) ⟨_, _, _, rfl, fun k => ⟨?_, ?_⟩⟩⟩
  · simp only [Course.lfsrs, Fin.getElem_fin, Vector.getElem_ofFn]
    rfl
  · simp only [Course.staLanes, Course.lfsrs, Fin.getElem_fin, Vector.getElem_map, Vector.getElem_ofFn, staWidth, ditherAdded]
  · simp only [Course.lfsrs, Fin.getElem_fin, Vector.getElem_ofFn, dithering_dithering]
  · simp only [Course.dstaLanes, Course.lfsrs, Fin.getElem_fin, Vector.getElem_map, Vector.getElem_ofFn, ditherAdded]
    rw [ditherOf_dithering mode ((s.die d).course c).bricks[k.val].lfsr]

end Sys2Proof.Machine
end

