-- ==== Sys2Proof/Proofs/CourseState.lean ====
section
/-! SUPPORT. The courses of a die: a course after an update of it, of another, or of the registers, and what reading a tile
leaves (R122, R123). -/

namespace Sys2Proof.Machine

section
variable (e : Die) (c : Fin 28)

@[simp] theorem Die.course_setCourse_self (x : Course) : (e.setCourse c x).course c = x := by
  simp [Die.course, Die.setCourse]

theorem Die.course_setCourse_other {k : Fin 28} (h : k ≠ c) (x : Course) : (e.setCourse c x).course k = e.course k := by
  have hv : c.val ≠ k.val := fun hv => h (Fin.ext hv.symm)
  simp [Die.course, Die.setCourse, hv]

@[simp] theorem Die.setCourse_setCourse (x y : Course) : (e.setCourse c x).setCourse c y = e.setCourse c y := by
  simp [Die.setCourse]

@[simp] theorem Die.setCourse_course : e.setCourse c (e.course c) = e := by
  simp [Die.setCourse, Die.course]

@[simp] theorem Die.course_updCourse_self (f : Course → Course) : (e.updCourse c f).course c = f (e.course c) :=
  e.course_setCourse_self c _

@[simp] theorem Die.updCourse_updCourse (f g : Course → Course) :
    (e.updCourse c f).updCourse c g = e.updCourse c fun x => g (f x) := by
  simp [Die.updCourse]

@[simp] theorem Die.course_setFld (f : Fld) (v : Nat) : (e.setFld f v).course c = e.course c := rfl
@[simp] theorem Die.course_raise (f : Fld) (b : Bool) : (e.raise f b).course c = e.course c := by
  unfold Die.raise
  split <;> rfl

@[simp] theorem Die.setCourse_isShadow (x : Course) (k : Fin 28) : (e.setCourse c x).isShadow k = e.isShadow k := rfl
@[simp] theorem Die.updCourse_isShadow (f : Course → Course) (k : Fin 28) : (e.updCourse c f).isShadow k = e.isShadow k := rfl
@[simp] theorem Die.updCourse_courseSeat (f : Course → Course) (k : Fin 28) :
    (e.updCourse c f).courseSeat k = e.courseSeat k := rfl

/-! ### Reading a tile -/

@[simp] theorem Die.logEv_eng (cls code w4 w5 w6 : Nat) : (e.logEv cls code w4 w5 w6).eng = e.eng := by
  obtain ⟨r, l, h, -⟩ := e.logEv_spec cls code w4 w5 w6
  rw [h]

@[simp] theorem Die.logEv_yard (cls code w4 w5 w6 : Nat) : (e.logEv cls code w4 w5 w6).yard = e.yard := by
  obtain ⟨r, l, h, -⟩ := e.logEv_spec cls code w4 w5 w6
  rw [h]

/-- The report of an uncorrectable read leaves the engine alone (R123). -/
@[simp] theorem Die.reportDbe_eng (addr pair src req : Nat) : (e.reportDbe addr pair src req).eng = e.eng := by
  unfold Die.reportDbe
  rw [Die.logEv_eng, Die.setFld_eng, apply_ite Die.eng]
  exact ite_self _

/-- It leaves the yard alone. -/
@[simp] theorem Die.reportDbe_yard (addr pair src req : Nat) : (e.reportDbe addr pair src req).yard = e.yard := by
  unfold Die.reportDbe
  rw [Die.logEv_yard, Die.setFld_yard, apply_ite Die.yard]
  exact ite_self _

variable (t row req : Nat) (m : BitVec 8)

/-- What the marks found by a read of a tile row leave of its course (R122, R123). -/
def Course.marked (x : Course) (t row : Nat) (m : BitVec 8) : Course := { x with
  bad := SMap.set markDflt x.bad (tileKey t row) m
  sbe := if hasMark m 1 then BitVec.ofNat 16 (satAdd 16 x.sbe.toNat 1) else x.sbe
  dbe := if hasMark m 2 then BitVec.ofNat 8 (satAdd 8 x.dbe.toNat 1) else x.dbe
  fixes := if hasMark m 1 && t ≤ Tl.ring && !x.fixes.contains (tileKey t row) then x.fixes ++ [tileKey t row] else x.fixes }

/-- Marks found by a read of a tile row reach the engine in their course alone. -/
theorem Die.tileMarked_eng :
    (e.tileMarked c t row req m).eng = (if m = 0 then e else e.setCourse c ((e.course c).marked t row m)).eng := by
  unfold Die.tileMarked
  by_cases h0 : m = 0
  · rw [if_pos h0, if_pos h0]
  · rw [if_neg h0, if_neg h0]
    dsimp only
    rw [apply_ite Die.eng, Die.reportDbe_eng, ite_self]
    rfl

@[simp] theorem Die.tileMarked_yard : (e.tileMarked c t row req m).yard = e.yard := by
  unfold Die.tileMarked
  by_cases h0 : m = 0
  · rw [if_pos h0]
  · rw [if_neg h0]
    dsimp only
    rw [apply_ite Die.yard, Die.reportDbe_yard, ite_self]
    rfl

theorem Die.course_tileMarked_self :
    (e.tileMarked c t row req m).course c = if m = 0 then e.course c else (e.course c).marked t row m := by
  rw [Die.course, Die.tileMarked_eng]
  split_ifs
  · rfl
  · exact e.course_setCourse_self c _

theorem Die.course_tileMarked_other {k : Fin 28} (h : k ≠ c) : (e.tileMarked c t row req m).course k = e.course k := by
  rw [Die.course, Die.tileMarked_eng]
  split_ifs
  · rfl
  · exact e.course_setCourse_other c h _

end

end Sys2Proof.Machine
end

