-- ==== Sys2Proof/Proofs/CourseBus.lean ====
section
/-! SUPPORT. The loads and stores of a course on its buses (R61 to R63, R97, R109 to R111). -/

namespace Sys2Proof.Machine

section
variable (e : Die) (c : Fin 28) (b : BusId) (g : Fin 4) (up : BitVec 2) (q : BitVec 4)

/-! ### Loads -/

/-- The tile row a load reads from address `a` of a space of so many rows (R62). -/
def loadRow (cast : Bool) (rows a : Nat) : Nat := if cast then a / 8 % rows else a % rows

/-- What a load delivers of a row: the row, or its addressed quarter in every lane (R62). -/
def loadCast (cast : Bool) (a : Nat) (r : Row) : Row :=
  if cast then Vector.replicate 8 (r[a % 8]'(Nat.mod_lt _ (by decide))) else r

/-- The space above an address does not tell its lane. -/
theorem loadCast_mod (cast : Bool) (a : Nat) (r : Row) : loadCast cast (a % 4096) r = loadCast cast a r := by
  have hlane : a % 4096 % 8 = a % 8 := by omega
  simp only [loadCast, hlane]

/-- A load from a space that its bus has not delivers zeros and sets BUSERR (R61, R62). -/
theorem Die.busLoad_none (cast : Bool) (err : RowErr) (h : loadSpace b (((e.course c).ag b g).toNat / 4096) = none) :
    e.busLoad c b g up q cast err = (e.setFld (F.ENG_C_STAT_BUSERR c) 1).setCourse c
      (((e.course c).plus 3 (.q (loadSrc b) q Row.zero)).postBus b g up) := by
  unfold Die.busLoad
  simp only [h]
  rw [Die.updCourse, Die.busErr, Die.course_setFld]
  rfl

/-- A load from a space of its bus reads a row, which marks it, and puts what it delivers in flight (R61, R62). -/
theorem Die.busLoad_some (cast : Bool) (err : RowErr) {t rows : Nat}
    (h : loadSpace b (((e.course c).ag b g).toNat / 4096) = some (t, rows)) :
    let a := ((e.course c).ag b g).toNat
    let row := loadRow cast rows (a % 4096)
    let m := addMarks (SMap.get markDflt (e.course c).bad (tileKey t row)) err
    e.busLoad c b g up q cast err = (e.tileMarked c t row Req.course m).updCourse c fun x =>
      (x.plus 3 (.q (loadSrc b) q (loadCast cast a (eccRow m ((e.course c).tileRow t row))))).postBus b g up := by
  intro a row m
  rw [← loadCast_mod]
  unfold Die.busLoad
  simp only [h]
  rfl

/-- After such a load: the course with the marks, counts and write-backs of the read and the result in flight; no other course
and not the yard has changed. -/
theorem Die.busLoad_spec (cast : Bool) (err : RowErr) {t rows : Nat}
    (h : loadSpace b (((e.course c).ag b g).toNat / 4096) = some (t, rows)) :
    let a := ((e.course c).ag b g).toNat
    let row := loadRow cast rows (a % 4096)
    let m := addMarks (SMap.get markDflt (e.course c).bad (tileKey t row)) err
    (∃ bad sbe dbe fixes, (e.busLoad c b g up q cast err).course c = ({ e.course c with
        bad := bad
        sbe := sbe
        dbe := dbe
        fixes := fixes }.plus 3 (.q (loadSrc b) q (loadCast cast a (eccRow m ((e.course c).tileRow t row))))).postBus b g up) ∧
      (∀ k : Fin 28, k ≠ c → (e.busLoad c b g up q cast err).course k = e.course k) ∧
      (e.busLoad c b g up q cast err).yard = e.yard := by
  intro a row m
  rw [e.busLoad_some c b g up q cast err h]
  refine ⟨?_, fun k hk => ?_, ?_⟩
  · rw [Die.course_updCourse_self, Die.course_tileMarked_self]
    split_ifs
    · exact ⟨_, _, _, _, rfl⟩
    · exact ⟨_, _, _, _, rfl⟩
  · rw [Die.updCourse, Die.course_setCourse_other _ _ hk, Die.course_tileMarked_other _ _ _ _ _ _ hk]
  · rw [Die.updCourse_yard, Die.tileMarked_yard]

end

/-- Settles O9: by the space a load reads from. -/
theorem busLoadsIssue : Obligations.BusLoadsIssue := by
  intro d c b g up q err s e x v
  refine ⟨fun t rows h => ?_, fun h => ⟨?_, ?_⟩⟩
  · obtain ⟨⟨bad, sbe, dbe, fixes, hx⟩, hother, hyard⟩ := e.busLoad_spec c b g up q false err h
    obtain ⟨⟨bad', sbe', dbe', fixes', hx'⟩, hother', hyard'⟩ := e.busLoad_spec c b g up q true err h
    refine ⟨(Issues.of_issueOn (f := (·.busLoad c b g up q false err)) rfl).to ⟨bad, sbe, dbe, fixes, ?_⟩,
      (Issues.of_issueOn (f := (·.busLoad c b g up q true err)) rfl).to ⟨bad', sbe', dbe', fixes', ?_⟩⟩
    · rw [State.die_setDie_self]
      exact ⟨hx, hother, hyard, State.die_setDie_other ..⟩
    · rw [State.die_setDie_self]
      exact ⟨hx', hother', hyard', State.die_setDie_other ..⟩
  · exact (Issues.of_issueOn rfl).congr (e.busLoad_none c b g up q false err h)
  · exact (Issues.of_issueOn rfl).congr (e.busLoad_none c b g up q true err h)

/-! ### Stores -/

section
variable (e : Die) (c : Fin 28) (g : Fin 4) (up : BitVec 2) (q : BitVec 4)

/-- The course has noted a store of this cycle. -/
def Course.noted (x : Course) (r : StoreRec) : Course := { x with stores := x.stores ++ [r] }

/-- Where its stores are not being compared, a course only notes a store (R111). -/
theorem Die.noteStore_of_ne_verify (h : e.migPhase (wallOf c) ≠ Mig.verify) (r : StoreRec) :
    e.noteStore c r = e.updCourse c (·.noted r) := by
  unfold Die.noteStore
  simp only [beq_eq_false_iff_ne.2 h, Bool.false_and, Bool.false_eq_true, if_false]
  rfl

/-- A ring store of a course that holds a seat goes to the next seat (R97). -/
theorem Die.ringStoreAt_of_seat {seat : Fin 24} (h : e.migPhase (wallOf c) ≠ Mig.verify) (hsh : e.isShadow c = false)
    (hs : e.courseSeat c = some seat) (row : Nat) (data : Row) :
    e.ringStoreAt c row data =
      e.updCourse c fun x => (x.noted (.ring row data)).plus 2 (.ring (nextSeat seat) row data) := by
  unfold Die.ringStoreAt
  rw [e.noteStore_of_ne_verify c h]
  simp only [Die.updCourse_isShadow, hsh, Bool.false_eq_true, if_false, Die.updCourse_courseSeat, hs, Die.updCourse_updCourse]
  rfl

/-- An X store in space 0 writes the X tile (R61, R62). -/
theorem Die.busStore_x_tile (hm : e.migPhase (wallOf c) ≠ Mig.verify) {a : Nat} (h : (e.course c).xa[g].toNat / 4096 = 0)
    (ha : (e.course c).xa[g].toNat % 4096 % 512 = a) :
    e.busStore c .x g up q = e.updCourse c fun x =>
      ((x.noted (.tile .x a ((e.course c).qrow q))).plus 1 (.tile .x a ((e.course c).qrow q))).postBus .x g up := by
  subst ha
  unfold Die.busStore
  simp only [Course.ag, h, e.noteStore_of_ne_verify c hm, Die.updCourse_updCourse]
  rfl

/-- An X store in any other space is dropped, with BUSERR. -/
theorem Die.busStore_x_other (h : (e.course c).xa[g].toNat / 4096 ≠ 0) :
    e.busStore c .x g up q = (e.busErr c).updCourse c (·.postBus .x g up) := by
  unfold Die.busStore
  simp only [Course.ag]
  generalize (e.course c).xa[g].toNat / 4096 = space at *
  split <;> simp_all

/-- A Y store in space 0 writes the Y tile. -/
theorem Die.busStore_y_tile (hm : e.migPhase (wallOf c) ≠ Mig.verify) {a : Nat} (h : (e.course c).ya[g].toNat / 4096 = 0)
    (ha : (e.course c).ya[g].toNat % 4096 % 512 = a) :
    e.busStore c .y g up q = e.updCourse c fun x =>
      ((x.noted (.tile .y a ((e.course c).qrow q))).plus 1 (.tile .y a ((e.course c).qrow q))).postBus .y g up := by
  subst ha
  unfold Die.busStore
  simp only [Course.ag, h, e.noteStore_of_ne_verify c hm, Die.updCourse_updCourse]
  rfl

/-- A Y store in space 1 writes the exit tile. -/
theorem Die.busStore_y_exit (hm : e.migPhase (wallOf c) ≠ Mig.verify) {a : Nat} (h : (e.course c).ya[g].toNat / 4096 = 1)
    (ha : (e.course c).ya[g].toNat % 4096 % 64 = a) :
    e.busStore c .y g up q = e.updCourse c fun x =>
      ((x.noted (.tile .exit a ((e.course c).qrow q))).plus 1 (.tile .exit a ((e.course c).qrow q))).postBus .y g up := by
  subst ha
  unfold Die.busStore
  simp only [Course.ag, h, e.noteStore_of_ne_verify c hm, Die.updCourse_updCourse]
  rfl

/-- A Y store in space 2 is a ring store (R97). -/
theorem Die.busStore_y_ring {seat : Fin 24} (hm : e.migPhase (wallOf c) ≠ Mig.verify) (hsh : e.isShadow c = false)
    (hs : e.courseSeat c = some seat) {a : Nat} (h : (e.course c).ya[g].toNat / 4096 = 2)
    (ha : (e.course c).ya[g].toNat % 4096 % 64 = a) :
    e.busStore c .y g up q = e.updCourse c fun x =>
      ((x.noted (.ring a ((e.course c).qrow q))).plus 2 (.ring (nextSeat seat) a ((e.course c).qrow q))).postBus .y g up := by
  subst ha
  unfold Die.busStore
  simp only [Course.ag, h, e.ringStoreAt_of_seat c hm hsh hs, Die.updCourse_updCourse]

/-- A Y store in any other space is dropped, with BUSERR. -/
theorem Die.busStore_y_other (h : 3 ≤ (e.course c).ya[g].toNat / 4096) :
    e.busStore c .y g up q = (e.busErr c).updCourse c (·.postBus .y g up) := by
  unfold Die.busStore
  simp only [Course.ag]
  generalize (e.course c).ya[g].toNat / 4096 = space at *
  split <;> simp_all

end

/-- Settles O10: by the bus of a store and the space of its generator. -/
theorem busStoresIssue : Obligations.BusStoresIssue := by
  intro d c g up q s e x r sto hm
  have dropped (b : BusId) : (e.busErr c).updCourse c (·.postBus b g up) =
      (e.setFld (F.ENG_C_STAT_BUSERR c) 1).setCourse c (x.postBus b g up) := by
    rw [Die.updCourse, Die.busErr, Die.course_setFld]
  refine ⟨fun h => ?_, fun h => ?_, fun h => ?_, fun h => ?_, fun seat h hsh hs => ⟨?_, ?_⟩, fun h => ?_, ?_⟩
  · exact Issues.congr (.of_issueOn rfl) (e.busStore_x_tile c g up q hm h rfl)
  · exact Issues.congr (.of_issueOn rfl) ((e.busStore_x_other c g up q h).trans (dropped .x))
  · exact Issues.congr (.of_issueOn rfl) (e.busStore_y_tile c g up q hm h rfl)
  · exact Issues.congr (.of_issueOn rfl) (e.busStore_y_exit c g up q hm h rfl)
  · exact Issues.congr (.of_issueOn rfl) (e.busStore_y_ring c g up q hm hsh hs h rfl)
  · exact Issues.congr (.of_issueOn rfl) (e.busStore_y_ring c g up q hm hsh hs h rfl)
  · exact Issues.congr (.of_issueOn rfl) ((e.busStore_y_other c g up q h).trans (dropped .y))
  · exact .of_issueOn rfl

end Sys2Proof.Machine
end

