-- ==== Sys2Proof/Proofs/Sequencer.lean ====
section
/-! SUPPORT. The sequencer's operations: what each does in a delay slot or a repeat, and what outside one (R67 to R72, R78). -/

namespace Sys2Proof.Machine

/-- Outside delay slots and repeats nothing is ignored. -/
theorem Course.not_ignoring {x : Course} (hs : x.slots = 0) (hr : x.rpt = false) : ¬ (0 < x.slots ∨ x.rpt = true) := by
  simp [hs, hr]

/-- A course in a delay slot or a repeat is not outside them. -/
theorem Course.ignoring_not_outside {x : Course} (h : 0 < x.slots ∨ x.rpt = true) : ¬ (x.slots = 0 ∧ x.rpt = false) :=
  fun ⟨hs, hr⟩ => Course.not_ignoring hs hr h

section
variable (e : Die) (c : Fin 28)

/-- In a delay slot or a repeated bundle a sequencer operation is ignored (R69). -/
theorem Die.seqOp_ignored (h : 0 < (e.course c).slots ∨ (e.course c).rpt = true) (a : SeqAct) :
    e.seqOp c a = e.setFld (F.ENG_C_STAT_SEQERR c) 1 := if_pos h

/-- Elsewhere it is held for the end of the cycle. -/
theorem Die.seqOp_held (hs : (e.course c).slots = 0) (hr : (e.course c).rpt = false) (a : SeqAct) :
    e.seqOp c a = e.setCourse c { e.course c with act := a } := if_neg (Course.not_ignoring hs hr)

/-- A loop push is a sequencer operation, but at LD = 3 (R72). -/
theorem Die.loopOp_push (h : ¬ ((e.course c).slots = 0 ∧ (e.course c).rpt = false ∧ (e.course c).ld = 3))
    (count last : BitVec 13) : e.loopOp c count last = e.seqOp c (.loop count last) := if_neg (by simpa using h)

/-- At LD = 3 a loop pushes nothing and sets SEQERR (R72). -/
theorem Die.loopOp_full (hs : (e.course c).slots = 0) (hr : (e.course c).rpt = false) (hl : (e.course c).ld = 3)
    (count last : BitVec 13) : e.loopOp c count last = e.setFld (F.ENG_C_STAT_SEQERR c) 1 := if_pos (by simp [hs, hr, hl])

/-- The innermost loop ends at the present address. -/
def Course.atLoopEnd (x : Course) : Bool :=
  match x.level with
  | some i => x.levels[i].le == x.pc
  | none => false

theorem Course.atLoopEnd_eq_true {x : Course} {i : Fin 3} (h : x.level = some i) (hle : x.levels[i].le = x.pc) :
    x.atLoopEnd = true := by
  simp only [Course.atLoopEnd, h, hle, beq_self_eq_true]

theorem Course.atLoopEnd_eq_false {x : Course} (h : ∀ i, x.level = some i → x.levels[i].le ≠ x.pc) :
    x.atLoopEnd = false := by
  unfold Course.atLoopEnd
  split
  · next i hi => exact beq_eq_false_iff_ne.2 (h i hi)
  · rfl

/-- RPT of a course (R70, R72). -/
def Die.rptOp (e : Die) (c : Fin 28) (count : BitVec 13) : Die :=
  (if (e.course c).atLoopEnd && (e.course c).slots == 0 && !(e.course c).rpt then e.seqErr c else e).seqOp c (.rpt count)

theorem rpt_issues (d : DieId) (count : BitVec 13) (s : State) : Issues (.rpt d c count) s d c fun e => e.rptOp c count :=
  .of_issueOn rfl

/-- Within a loop a repeat is held as any other operation. -/
theorem Die.rptOp_inside (h : ∀ i, (e.course c).level = some i → (e.course c).levels[i].le ≠ (e.course c).pc)
    (count : BitVec 13) : e.rptOp c count = e.seqOp c (.rpt count) := by
  rw [Die.rptOp, Course.atLoopEnd_eq_false h]
  rfl

/-- At a loop's end address a repeat sets SEQERR (R72). -/
theorem Die.rptOp_atLoopEnd (hs : (e.course c).slots = 0) (hr : (e.course c).rpt = false) {i : Fin 3}
    (hi : (e.course c).level = some i) (hle : (e.course c).levels[i].le = (e.course c).pc) (count : BitVec 13) :
    e.rptOp c count = (e.setFld (F.ENG_C_STAT_SEQERR c) 1).setCourse c { e.course c with act := .rpt count } := by
  rw [Die.rptOp, Course.atLoopEnd_eq_true hi hle, if_pos (by simp [hs, hr]), Die.seqErr,
    Die.seqOp_held _ c (by rw [Die.course_setFld, hs]) (by rw [Die.course_setFld, hr]), Die.course_setFld]

/-- In a delay slot or a repeat, it is ignored as any other operation. -/
theorem Die.rptOp_ignored (h : 0 < (e.course c).slots ∨ (e.course c).rpt = true) (count : BitVec 13) :
    e.rptOp c count = e.setFld (F.ENG_C_STAT_SEQERR c) 1 := by
  rw [Die.rptOp, if_neg, e.seqOp_ignored c h]
  rcases h with h | h
  · simp [h.ne']
  · simp [h]

/-- RTI of a course: from a doorbell handler it sets DONE and the course's bit of ENG_BELLIRQ (R78, R91, R109, R114). -/
def Die.rtiOp (e : Die) (c : Fin 28) : Die :=
  if (e.course c).slots = 0 ∧ !(e.course c).rpt ∧ (e.course c).handler = some 2 ∧ !(e.seqOp c .rti).isShadow c then
    ((e.seqOp c .rti).setFld (F.ENG_C_BELL_DONE c) 1).setBitAt F.ENG_BELLIRQ_COURSE c true
  else e.seqOp c .rti

theorem rti_issues (d : DieId) (s : State) : Issues (.rti d c) s d c fun e => e.rtiOp c := .of_issueOn rfl

/-- The return from any other handler, or in shadow, is held as any other operation. -/
theorem Die.rtiOp_held (hs : (e.course c).slots = 0) (hr : (e.course c).rpt = false)
    (h : (e.course c).handler ≠ some 2 ∨ e.isShadow c = true) : e.rtiOp c = e.seqOp c .rti := by
  rw [Die.rtiOp, if_neg]
  rw [e.seqOp_held c hs hr, Die.setCourse_isShadow]
  rintro ⟨-, -, hh, hsh⟩
  rcases h with h | h
  · exact h hh
  · simp [h] at hsh

/-- The return from a doorbell handler rings back. -/
theorem Die.rtiOp_rings (hs : (e.course c).slots = 0) (hr : (e.course c).rpt = false) (hh : (e.course c).handler = some 2)
    (hsh : e.isShadow c = false) :
    e.rtiOp c = ((e.setCourse c { e.course c with act := .rti }).setFld (F.ENG_C_BELL_DONE c) 1).setBitAt
      F.ENG_BELLIRQ_COURSE c true := by
  rw [Die.rtiOp, e.seqOp_held c hs hr, Die.setCourse_isShadow]
  exact if_pos ⟨hs, by simp [hr], hh, by simp [hsh]⟩

/-- In a delay slot or a repeat, RTI is ignored as any other operation. -/
theorem Die.rtiOp_ignored (h : 0 < (e.course c).slots ∨ (e.course c).rpt = true) :
    e.rtiOp c = e.setFld (F.ENG_C_STAT_SEQERR c) 1 := by
  rw [Die.rtiOp, if_neg, e.seqOp_ignored c h]
  exact fun ⟨hs, hr, _⟩ => Course.ignoring_not_outside h ⟨hs, by simpa using hr⟩

end

end Sys2Proof.Machine
end

