-- ==== Sys2Proof/Proofs/EndCycle.lean ====
section
/-! SUPPORT. The end of a course's cycle: what stands, what moves on in flight, and which requests pend (R65, R66, R73, R74,
R102, R109, R112). -/

namespace Sys2Proof.Machine

/-! ### The pipeline of a course: what only the end of the cycle moves on -/

/-- The operations in flight, the request noted as eligible, and the requests raised in the cycle. -/
abbrev Pipe := List (Nat × Wb) × Option (Fin 4) × BitVec 4

/-- The pipeline of a course. -/
def Course.pipe (x : Course) : Pipe := (x.flight, x.now, x.raised)

section
variable (x : Course)

/-- The modes of the generators are none of the pipeline. -/
theorem Course.pipe_withAgm (a : BitVec 32) : { x with agm := a }.pipe = x.pipe := rfl

@[simp] theorem Course.pipe_setCreg (idx : BitVec 5) (v : Quarter) (hi : BitVec 4) : (x.setCreg idx v hi).pipe = x.pipe := by
  unfold Course.setCreg
  dsimp only
  split
  case h_24 => exact x.pipe_withAgm _
  case h_25 | h_26 | h_27 => split <;> rfl
  all_goals rfl

@[simp] theorem Course.pipe_setTileRow (t row : Nat) (v : Row) : (x.setTileRow t row v).pipe = x.pipe := by
  unfold Course.setTileRow
  dsimp only
  split <;> rfl

/-- No write of an operation touches the pipeline. -/
@[simp] theorem Course.pipe_commit1 (w : Wb) : (x.commit1 w).pipe = x.pipe := by
  cases w with
  | creg idx v hi => exact x.pipe_setCreg idx v hi
  | tile t row data => cases t <;> exact x.pipe_setTileRow ..
  | post b g v =>
    unfold Course.commit1
    dsimp only
    split <;> rfl
  | _ => rfl

theorem Course.pipe_foldl_commit1 (l : List Wb) : (l.foldl Course.commit1 x).pipe = x.pipe := by
  induction l generalizing x with
  | nil => rfl
  | cons w l ih => rw [List.foldl_cons, ih, Course.pipe_commit1]

@[simp] theorem Course.pipe_commit (tie : Bool) (due : List Wb) : (x.commit tie due).pipe = x.pipe := by
  unfold Course.commit
  induction List.range 9 generalizing x with
  | nil => rfl
  | cons k ks ih => rw [List.foldl_cons, ih, Course.pipe_foldl_commit1]

/-- What is in flight after a cycle: what has not fallen due, one cycle nearer its write (R65). -/
def stepped (l : List (Nat × Wb)) : List (Nat × Wb) :=
  (l.filter fun w => decide (1 < w.1)).map fun w => (w.1 - 1, w.2)

/-- A pipeline after a cycle. -/
def stepPipe (p : Pipe) : Pipe := (stepped p.1, p.2)

@[simp] theorem Course.pipe_settle (tie : Bool) : (x.settle tie).pipe = stepPipe x.pipe := by
  unfold Course.settle
  rw [Course.pipe_commit]
  rfl

@[simp] theorem Course.pipe_popLoop : x.popLoop.pipe = x.pipe := by
  unfold Course.popLoop
  split <;> rfl

@[simp] theorem Course.pipe_loopTest (n : Nat) (cost : Bool) : (x.loopTest n cost).1.pipe = x.pipe := by
  induction n generalizing x cost with
  | zero => rfl
  | succ n ih =>
    unfold Course.loopTest
    split
    · rfl
    · dsimp only
      split_ifs
      · rfl
      · rfl
      · rw [ih, Course.pipe_popLoop]
        rfl

@[simp] theorem Course.pipe_goOn : x.goOn.pipe = x.pipe := x.pipe_loopTest 3 false

@[simp] theorem Course.pipe_pushLoop (count last : BitVec 13) : (x.pushLoop count last).pipe = x.pipe := by
  unfold Course.pushLoop
  dsimp only
  split <;> rfl

@[simp] theorem Course.pipe_resume : x.resume.pipe = x.pipe := by
  unfold Course.resume
  dsimp only
  split_ifs <;> rfl

@[simp] theorem Course.pipe_fill : x.fill.pipe = x.pipe := by
  unfold Course.fill
  dsimp only
  split_ifs <;> rfl

@[simp] theorem Course.pipe_advance : x.advance.pipe = x.pipe := by
  unfold Course.advance
  dsimp only
  split
  · rfl
  · split_ifs
    · rfl
    · exact Course.pipe_goOn _
    · exact Course.pipe_loopTest _ 3 false
    · exact Course.pipe_loopTest _ 3 false
    · split
      · exact Course.pipe_goOn _
      · exact Course.pipe_goOn _
      · split
        · split_ifs
          · exact Course.pipe_goOn _
          · rfl
        · rfl
      · exact (Course.pipe_goOn _).trans (Course.pipe_pushLoop ..)
      · exact Course.pipe_goOn _

end

/-! ### The die at the end of the cycle -/

section
variable (e : Die) (c : Fin 28)

/-- A bundle that issues leaves the course's pipeline. -/
theorem Die.pipe_issueBundle : ((e.issueBundle c).course c).pipe = (e.course c).pipe := by
  unfold Die.issueBundle
  dsimp only
  rw [apply_ite (fun e : Die => (e.course c).pipe), Die.seqErr, Die.course_setFld, ite_self]
  split_ifs
  · unfold Die.readBundle
    rw [Die.course_tileMarked_self]
    split_ifs <;> rfl
  · rfl

/-- Writing a row of a course's tile leaves the pipeline of every course. -/
theorem Die.pipe_setTileRow (k t : Fin 28) (tl row : Nat) (v : Row) :
    ((e.updCourse t (·.setTileRow tl row v)).course k).pipe = (e.course k).pipe := by
  by_cases h : k = t
  · rw [h, Die.course_updCourse_self, Course.pipe_setTileRow]
  · rw [Die.updCourse, Die.course_setCourse_other _ _ h]

@[simp] theorem Die.course_markWritten (k : Fin 28) (t row : Nat) : (e.markWritten c t row).course k = e.course k := by
  unfold Die.markWritten
  dsimp only
  split_ifs <;> rfl

/-- What a due write does outside its course leaves the pipeline of every course. -/
theorem Die.pipe_commitOut (k : Fin 28) (w : Wb) : ((e.commitOut c w).course k).pipe = (e.course k).pipe := by
  unfold Die.commitOut
  split
  · split
    · dsimp only
      split_ifs
      · rw [Die.course_markWritten, Die.pipe_setTileRow, Die.pipe_setTileRow]
      · rw [Die.pipe_setTileRow]
    · rfl
  · rw [Die.course_markWritten]
  · rw [Die.course_markWritten]
  · rfl

theorem Die.pipe_foldl_commitOut (k : Fin 28) (l : List Wb) :
    ((l.foldl (fun e w => e.commitOut c w) e).course k).pipe = (e.course k).pipe := by
  induction l generalizing e with
  | nil => rfl
  | cons w l ih => rw [List.foldl_cons, ih, Die.pipe_commitOut]

@[simp] theorem Die.course_courseStatus (k : Fin 28) : (e.courseStatus c).course k = e.course k := by
  unfold Die.courseStatus
  dsimp only
  rw [Die.course_raise, Die.course_raise]

/-- One cycle passes for what a course has in flight (R65). -/
theorem Die.pipe_settleCourse :
    ((e.settleCourse c).course c).pipe = stepPipe (e.course c).pipe := by
  unfold Die.settleCourse
  dsimp only
  rw [Die.course_courseStatus, Die.pipe_foldl_commitOut, Die.course_setCourse_self, Course.pipe_settle]

end

/-! ### The requests of a course -/

theorem natBit_eq_testBit (n i : Nat) : natBit n i = n.testBit i := by
  rw [natBit, bitsOf, Nat.testBit_eq_decide_div_mod_eq]
  rfl

/-- After a cycle a pending bit stands that stood before, or whose request was raised (R74). -/
theorem Course.natBit_latched (x : Course) {k : Nat} (hk : k < 9) : natBit x.latched.ics.toNat k =
    (natBit x.ics.toNat k || (decide (4 ≤ k) && x.raised.getLsbD (k - 4))) := by
  have hr : (16 * x.raised.toNat).testBit k = (decide (4 ≤ k) && x.raised.getLsbD (k - 4)) :=
    Nat.testBit_two_pow_mul (i := 4) ..
  rw [natBit_eq_testBit, natBit_eq_testBit, BitVec.testBit_toNat, BitVec.testBit_toNat, Course.latched, BitVec.getLsbD_or,
    BitVec.getLsbD_ofNat, hr, decide_eq_true hk, Bool.true_and]

section
variable (x : Course)

/-- A request raised in the cycle that has passed pends. -/
theorem Course.nextCycle_pends (i : Fin 4) (h : x.raised.getLsbD i.val = true) :
    natBit x.nextCycle.ics.toNat (4 + i.val) = true := by
  have hb := x.natBit_latched (k := 4 + i.val) (by omega)
  rw [Nat.add_sub_cancel_left, h, Bool.and_true, decide_eq_true (Nat.le_add_right 4 i.val), Bool.or_true] at hb
  exact hb

/-- No other bit of ICS changes as the cycle passes. -/
theorem Course.nextCycle_keeps (k : Fin 9) (h : ∀ i : Fin 4, k.val = 4 + i.val → x.raised.getLsbD i.val = false) :
    natBit x.nextCycle.ics.toNat k.val = natBit x.ics.toNat k.val := by
  have hb := x.natBit_latched k.isLt
  have hr : (decide (4 ≤ k.val) && x.raised.getLsbD (k.val - 4)) = false := by
    by_cases h4 : 4 ≤ k.val
    · by_cases h8 : k.val - 4 < 4
      · rw [h ⟨k.val - 4, h8⟩ (by dsimp only; omega), Bool.and_false]
      · rw [BitVec.getLsbD_of_ge _ _ (by omega), Bool.and_false]
    · rw [decide_eq_false h4, Bool.false_and]
  rw [hr, Bool.or_false] at hb
  exact hb

end

/-! ### The end of the cycle, case by case -/

section
variable (e : Die) (c : Fin 28)

/-- The course stands still: it stalls, or its source does while it runs in shadow, or it has no clock (R66, R102, R109,
R112). -/
theorem Die.standsStill_iff : (e.stallsNow c || !e.clocked c) = true ↔
    (e.course c).stalled ≠ none ∨ e.isShadow c = true ∧ (e.course (e.migSrc (wallOf c))).stalled ≠ none ∨
      e.clocked c = false := by
  simp only [Die.stallsNow, Bool.or_eq_true, Bool.and_eq_true, Bool.not_eq_true', Option.isSome_iff_ne_none, or_assoc]

/-- A course that stands still does not change. -/
theorem Die.endCycle_still (h : (e.stallsNow c || !e.clocked c) = true) : e.endCycle c = e := if_pos h

/-- A course after the overhead cycle of a back-edge (R73). -/
def Course.overheadPassed (x : Course) : Course := { x.nextCycle with
  overhead := false
  taken := none }

/-- The overhead cycle of a back-edge passes, and what is in flight stays (R73). -/
theorem Die.endCycle_spent (h : ¬ (e.stallsNow c || !e.clocked c) = true) (ho : (e.course c).overhead = true)
    (hs : e.eng.stopped = false) :
    e.endCycle c = e.setCourse c (e.course c).overheadPassed := by
  unfold Die.endCycle
  dsimp only
  rw [if_neg h, if_pos (by simp [ho, hs])]
  rfl

/-- After an issue cycle, what was in flight is one cycle nearer its write, and the cycle has passed (R65). -/
theorem Die.endCycle_passes (h : ¬ (e.stallsNow c || !e.clocked c) = true)
    (hs : ¬ ((e.course c).overhead = true ∧ e.eng.stopped = false)) :
    ∃ x : Course, (e.endCycle c).course c = x.nextCycle ∧
      x.pipe = stepPipe (e.course c).pipe := by
  unfold Die.endCycle
  dsimp only
  rw [if_neg h, if_neg (by simpa using hs)]
  refine ⟨_, Die.course_updCourse_self .., ?_⟩
  rw [apply_ite Course.pipe, Course.pipe_resume, ite_self, Die.pipe_settleCourse]
  congr 1
  split_ifs
  · rw [Die.course_updCourse_self, Course.pipe_advance, Course.pipe_fill, Die.pipe_issueBundle]
  · rw [Die.course_updCourse_self]
    rfl

end

/-- Settles O13: each operation in and outside a slot, and the end of the cycle of a course that stands still, spends an
overhead cycle, or issues. -/
theorem sequencerOperationsIssue : Obligations.SequencerOperationsIssue := by
  refine ⟨fun d c cycle target count k len s => ?_, fun d c target count k len s => ?_, fun d c s => ?_⟩
  · intro e x act
    refine ⟨Issues.of_issueOn rfl, fun hs hr => ?_⟩
    have held {i : Instr} {f : Die → Die} (h : Issues i s d c f) {a : SeqAct} (hf : f e = e.seqOp c a) : act i a :=
      h.congr (hf.trans (e.seqOp_held c hs hr a))
    exact ⟨held (.of_issueOn rfl) rfl, held (.of_issueOn rfl) rfl,
      fun hne => held (rpt_issues ..) (e.rptOp_inside c hne _),
      fun i hi hle => (rpt_issues ..).congr (e.rptOp_atLoopEnd c hs hr hi hle _),
      fun hld => held (.of_issueOn rfl) (e.loopOp_push c (fun ⟨_, _, h⟩ => hld h) _ _),
      fun hld => held (.of_issueOn rfl) (e.loopOp_push c (fun ⟨_, _, h⟩ => hld h) _ _),
      fun hld => Issues.congr (.of_issueOn rfl) (e.loopOp_full c hs hr hld _ _),
      fun hld => Issues.congr (.of_issueOn rfl) (e.loopOp_full c hs hr hld _ _),
      fun h => held (rti_issues ..) (e.rtiOp_held c hs hr h),
      fun hh hsh => (rti_issues ..).congr (e.rtiOp_rings c hs hr hh hsh),
      Issues.congr (.of_issueOn rfl) (if_neg (Course.not_ignoring hs hr))⟩
  · intro x ignored h
    have seq {i : Instr} {f : Die → Die} (hi : Issues i s d c f) {a : SeqAct} (hf : f (s.die d) = (s.die d).seqOp c a) :
        ignored i := hi.congr (hf.trans ((s.die d).seqOp_ignored c h a))
    have hloop : ¬ (x.slots = 0 ∧ x.rpt = false ∧ x.ld = 3) := fun ⟨hs, hr, _⟩ => Course.ignoring_not_outside h ⟨hs, hr⟩
    exact ⟨seq (.of_issueOn rfl) rfl, seq (.of_issueOn rfl) rfl, (rpt_issues ..).congr ((s.die d).rptOp_ignored c h _),
      seq (.of_issueOn rfl) ((s.die d).loopOp_push c hloop _ _), seq (.of_issueOn rfl) ((s.die d).loopOp_push c hloop _ _),
      (rti_issues ..).congr ((s.die d).rtiOp_ignored c h), Issues.congr (.of_issueOn rfl) (if_pos h)⟩
  · intro x still pends spent
    have hstill : _ ↔ still := (s.die d).standsStill_iff c
    have ends : ChangesIn .eng (.operationWriteback d c) s d (·.endCycle c) := ChangesIn.of_updIn rfl
    refine ⟨fun hgo hissue => ends.to fun _ => ?_, fun hgo hspent => ?_, fun h => ?_⟩
    · obtain ⟨y, hy, hpipe⟩ := (s.die d).endCycle_passes c (mt hstill.1 hgo) hissue
      obtain ⟨hflight, hnow, hraised⟩ : y.flight = stepped x.flight ∧ y.now = x.now ∧ y.raised = x.raised := by
        simpa [Course.pipe, stepPipe] using hpipe
      dsimp only [pends]
      rw [State.die_setDie_self, hy]
      exact ⟨hflight, hnow, rfl, rfl, fun i hi => y.nextCycle_pends i (hraised ▸ hi)⟩
    · have passed : ChangesIn .eng (.operationWriteback d c) s d fun e => e.setCourse c (e.course c).overheadPassed :=
        ends.congr fun _ => (s.die d).endCycle_spent c (mt hstill.1 hgo) hspent.1 hspent.2
      refine passed.to fun _ => ?_
      dsimp only [pends]
      rw [State.die_setDie_self, State.die_setDie_other, Die.course_setCourse_self]
      exact ⟨⟨_, _, rfl⟩, rfl, x.nextCycle_pends, x.nextCycle_keeps, rfl,
        fun k hk => Die.course_setCourse_other _ c hk _, rfl⟩
    · exact ends.congr fun _ => (s.die d).endCycle_still c (hstill.2 h)

end Sys2Proof.Machine
end

