-- ==== Sys2Proof/Proofs/RegFrame.lean ====
section
/-! SUPPORT. Registers through the shared operations: one that an operation does not write reads as before, and a field that it
writes reads what was written. What an event leaves of the die, and what a write by a command of its own does (R26, R30). -/

namespace Sys2Proof.Machine

/-! ### Commands that write a register -/

theorem Changes.congr {i : Instr} {s : State} {d : DieId} {f g : Die → Die} (h : Changes i s d f)
    (hf : f (s.die d) = g (s.die d)) : Changes i s d g := by
  unfold Changes at *
  rw [h, hf]

/-- A command given by `writeIn` writes its register, or its write waits (R26, R30). -/
theorem Writes.of_writeIn {i : Instr} {s : State} {d : DieId} {m : Dom} {a : Nat} {v : Word} {f : Die → Die}
    (h : exec i s = .next (s.writeIn m d a v f)) : Writes m a v i s d f := by
  unfold Writes Waits Changes
  rw [h]
  unfold State.writeIn State.updIn State.upd
  refine ⟨fun hr => by rw [if_pos hr], fun hr => ⟨fun hc => ?_, fun hc => ?_⟩⟩
  · rw [if_neg (by simp [hr]), if_pos hc]
    rfl
  · rw [if_neg (by simp [hr]), if_neg (by simp [hc])]

/-- The change of a command that writes a register may be told otherwise. -/
theorem Writes.congr {i : Instr} {s : State} {d : DieId} {m : Dom} {a : Nat} {v : Word} {f g : Die → Die}
    (h : Writes m a v i s d f) (hf : f (s.die d) = g (s.die d)) : Writes m a v i s d g :=
  ⟨fun hr => (h.1 hr).congr hf, h.2⟩

section
variable (e : Die)

/-! ### Registers that an operation does not write -/

theorem Die.fld_of_reg {e t : Die} {g : Fld} (h : t.reg g.addr = e.reg g.addr) : t.fld g = e.fld g := by
  unfold Die.fld
  rw [h]

theorem Die.bit_of_reg {e t : Die} {g : Fld} (h : t.reg g.addr = e.reg g.addr) : t.bit g = e.bit g := by
  unfold Die.bit
  rw [Die.fld_of_reg h]

variable {f : Fld} {a : Nat} (h : f.addr ≠ a)
include h

theorem Die.reg_setFld_other (v : Nat) : (e.setFld f v).reg a = e.reg a := by
  unfold Die.setFld Die.setRegN
  rw [Die.reg_setReg, if_neg h]

theorem Die.reg_count_other (n : Nat) : (e.count f n).reg a = e.reg a := by
  unfold Die.count
  split
  · rfl
  · exact e.reg_setFld_other h _

end

section
variable (e : Die)

/-! ### Fields that an operation writes -/

/-- A bit reads what its field was given. -/
theorem Die.bit_setFld_self {f : Fld} (hf : f.fits) (v : Nat) : (e.setFld f v).bit f = (v % 2 ^ f.w == 1) := by
  rw [Die.bit, Die.fld_setFld_self _ _ hf]

/-- A bit of another register, or of another place in the same, keeps its value. -/
theorem Die.bit_setFld_other (f g : Fld) (hf : f.fits) (v : Nat)
    (hd : g.addr ≠ f.addr ∨ g.lo + g.w ≤ f.lo ∨ f.lo + f.w ≤ g.lo) : (e.setFld f v).bit g = e.bit g := by
  rw [Die.bit, Die.fld_setFld_other _ _ _ hf _ hd, Die.bit]

/-- A count saturates at the width of its field. -/
theorem Die.fld_count_self {f : Fld} (hf : f.fits) (n : Nat) : (e.count f n).fld f = satAdd f.w (e.fld f) n := by
  have hlt : e.fld f < 2 ^ f.w := bitsOf_lt ..
  unfold Die.count
  split
  · rw [satAdd]
    omega
  · rw [Die.fld_setFld_self _ _ hf, satAdd, Nat.mod_eq_of_lt (by omega)]

theorem Die.fld_count_other (f g : Fld) (hf : f.fits) (n : Nat)
    (hd : g.addr ≠ f.addr ∨ g.lo + g.w ≤ f.lo ∨ f.lo + f.w ≤ g.lo) : (e.count f n).fld g = e.fld g := by
  unfold Die.count
  split
  · rfl
  · exact e.fld_setFld_other _ _ hf _ hd

theorem natBit_mod_two_pow {w i : Nat} (hi : i < w) (n : Nat) : natBit (n % 2 ^ w) i = natBit n i := by
  rw [natBit_eq_testBit, natBit_eq_testBit, Nat.testBit_mod_two_pow, decide_eq_true hi, Bool.true_and]

theorem natBit_insBits (n i j : Nat) (b : Bool) : natBit (insBits n i 1 (b2n b)) j = if j = i then b else natBit n j := by
  rw [natBit_eq_testBit, natBit_eq_testBit, insBits_testBit]
  by_cases hlt : j < i
  · rw [if_pos hlt, if_neg (by omega)]
  · rw [if_neg hlt]
    by_cases hj : j = i
    · rw [if_pos (by omega), if_pos hj, hj, Nat.sub_self]
      cases b <;> rfl
    · rw [if_neg (by omega), if_neg hj]

/-- A bit of a field after a write of one bit of it. -/
theorem Die.bitAt_setBitAt {f : Fld} (hf : f.fits) {j : Nat} (hj : j < f.w) (i : Nat) (b : Bool) :
    (e.setBitAt f i b).bitAt f j = if j = i then b else e.bitAt f j := by
  rw [Die.bitAt, Die.setBitAt, Die.fld_setFld_self _ _ hf, natBit_mod_two_pow hj, natBit_insBits, Die.bitAt]

/-! ### What an event leaves -/

/-- A die without its registers and without what the recorder has yet to write. -/
def Die.hidden (e : Die) : Die := { e with
  regs := []
  log := { e.log with
    queue := []
    gathered := none
    owed := false } }

/-- What no register and no record to come shows is the same on two dies that are hidden alike. -/
theorem Die.of_hidden {α : Type} (g : Die → α) (hg : ∀ x, g x.hidden = g x) {t e : Die} (h : t.hidden = e.hidden) :
    g t = g e := by
  rw [← hg t, h, hg]

@[simp] theorem Die.hidden_setReg (a : Nat) (v : Word) : (e.setReg a v).hidden = e.hidden := rfl
@[simp] theorem Die.hidden_setRegN (a v : Nat) : (e.setRegN a v).hidden = e.hidden := rfl
@[simp] theorem Die.hidden_setFld (f : Fld) (v : Nat) : (e.setFld f v).hidden = e.hidden := rfl
@[simp] theorem Die.hidden_setBit (f : Fld) (b : Bool) : (e.setBit f b).hidden = e.hidden := rfl
@[simp] theorem Die.hidden_setBitAt (f : Fld) (i : Nat) (b : Bool) : (e.setBitAt f i b).hidden = e.hidden := rfl
@[simp] theorem Die.hidden_raise (f : Fld) (b : Bool) : (e.raise f b).hidden = e.hidden := by cases b <;> rfl

@[simp] theorem Die.hidden_count (f : Fld) (n : Nat) : (e.count f n).hidden = e.hidden := by
  unfold Die.count
  split <;> rfl

@[simp] theorem Die.hidden_logQueue (r : LogRec) : (e.logQueue r).hidden = e.hidden := by
  unfold Die.logQueue
  split
  · exact e.hidden_count (F.LOG_MISSED_COUNT r.cls) 1
  · rfl

/-- An event touches the registers and what the recorder has yet to write. -/
@[simp] theorem Die.hidden_logEv (cls code w4 w5 w6 : Nat) : (e.logEv cls code w4 w5 w6).hidden = e.hidden := by
  unfold Die.logEv
  split
  · rfl
  · split
    · exact e.hidden_count _ 1
    · split
      · rfl
      · exact e.hidden_logQueue _

/-- The counts of missed events stand in the recorder's block. -/
theorem logMissed_block {cls : Nat} (h : cls < 256) : R.LOG_MISSED cls / 0x1000 = R.LOG_CTRL / 0x1000 := by
  rw [R.LOG_MISSED, R.LOG_CTRL]
  omega

theorem LogRec.cls_lt (r : LogRec) : r.cls < 256 := by
  have := r[0].isLt
  rw [LogRec.cls]
  omega

variable {a : Nat} (ha : a / 0x1000 ≠ R.LOG_CTRL / 0x1000)
include ha

theorem Die.reg_countMissed {cls : Nat} (hc : cls < 256) (n : Nat) : (e.count (F.LOG_MISSED_COUNT cls) n).reg a = e.reg a :=
  e.reg_count_other (fun h : R.LOG_MISSED cls = a => ha (h ▸ logMissed_block hc)) n

theorem Die.reg_logQueue (r : LogRec) : (e.logQueue r).reg a = e.reg a := by
  unfold Die.logQueue
  split
  · exact e.reg_countMissed ha r.cls_lt 1
  · rfl

/-- An event of a class of R431 writes no register outside the recorder's block. -/
theorem Die.reg_logEv {cls : Nat} (hc : cls < 256) (code w4 w5 w6 : Nat) : (e.logEv cls code w4 w5 w6).reg a = e.reg a := by
  unfold Die.logEv
  split
  · rfl
  · split
    · exact e.reg_countMissed ha hc 1
    · split
      · rfl
      · exact e.reg_logQueue ha _

end

end Sys2Proof.Machine
end

