-- ==== Sys2Proof/Proofs/Walls.lean ====
section
/-! SUPPORT. Walls and their migrations: what a loss of retention takes, and the phases in which a migration may be commanded
(R92, R103, R106, R108, R112, R113). -/

namespace Sys2Proof.Machine

/-! ### The contents of a wall (R103) -/

section
variable (e : Die) (w : Fin 4)

/-- RET lies apart from the states of the walls. -/
@[simp] theorem Die.wallState_setRet (b : Bool) (k : Nat) : (e.setBitAt F.ENG_WCTL_RET w b).wallState k = e.wallState k := by
  unfold Die.wallState Die.setBitAt
  rw [Die.fld_setFld_other _ _ _ (Fld.fits_of rfl) _ (by decide)]

/-- Changing courses leaves each as it was, or changed. -/
theorem Die.course_foldl_updCourse {ι : Type} (g : ι → Fin 28) (f : Course → Course) (k : Fin 28) (l : List ι)
    (h : (∃ i ∈ l, g i = k) ∨ ∃ x, e.course k = f x) :
    ∃ x, (l.foldl (fun e i => e.updCourse (g i) f) e).course k = f x := by
  induction l generalizing e with
  | nil => simpa using h
  | cons i l ih =>
    refine ih (e.updCourse (g i) f) ?_
    by_cases hk : g i = k
    · exact .inr ⟨e.course k, by rw [hk, Die.course_updCourse_self]⟩
    · rw [Die.updCourse, Die.course_setCourse_other _ _ (Ne.symm hk)]
      simpa [hk] using h

/-- Every course of a wall that loses its contents has lost its own. -/
theorem Die.course_loseWall (keep : Bool) (i : Fin 7) :
    ∃ x : Course, (e.loseWall w keep).course (courseAt w i) = x.lose keep := by
  obtain ⟨x, hx⟩ := e.course_foldl_updCourse (courseAt w) (·.lose keep) (courseAt w i) (List.finRange 7)
    (.inl ⟨i, List.mem_finRange i, rfl⟩)
  refine ⟨x, Eq.trans ?_ hx⟩
  cases keep <;> rfl

/-- A course that loses its contents without retention has empty tiles. -/
theorem Course.tileRow_lose (x : Course) (t row : Nat) : (x.lose false).tileRow t row = Row.zero := by
  unfold Course.tileRow
  split <;> rfl

/-- The rows of a bank that has lost them read zero. -/
theorem Yard.get_loseBank (y : Yard) (b : Nat) {key : Nat} (h : key / (264 * 4096) = b) :
    SMap.get rowDflt (y.loseBank b).rows key = Row.zero := by
  refine (SMap.get_filter rowDflt y.rows (fun k => k / (264 * 4096) != b) key).trans ?_
  rw [if_neg (by simp [h])]
  rfl

/-- A bank's rows are lost with its wall's contents. -/
theorem Die.yard_loseWall : ∃ y : Yard, (e.loseWall w false).yard = y.loseBank w.val := ⟨_, rfl⟩

theorem Die.walls_loseWall (keep : Bool) : (e.loseWall w keep).eng.walls[w].held = keep := by
  unfold Die.loseWall
  dsimp only
  rw [vupd_get_self]

/-- A loss of retention clears RET; it takes the contents of a wall that is OFF and held. -/
theorem Die.retLoss_eq : e.retLoss w = if e.wallState w = St.off ∧ e.eng.walls[w].held = true then
    (e.setBitAt F.ENG_WCTL_RET w false).loseWall w false else e.setBitAt F.ENG_WCTL_RET w false := by
  unfold Die.retLoss
  dsimp only
  rw [Die.wallState_setRet, Die.setBitAt_eng]

end

/-! ### Migrations -/

section
variable (e : Die) (w : Fin 4)

/-- GO from IDLE with a seated source and a spare takes the spare (R108). -/
theorem Die.migGo_takes {i src : Fin 7} (hi : e.spareOf w = some i) (hs : e.fld (F.ENG_MIG_SRC w) = src.val)
    (hp : e.migPhase w = Mig.idle) (hc : (e.courseSeat (courseAt w src)).isSome = true) :
    e.migGo w = e.updMig w fun m => ⟨0, [], i, src, true, 0, false, m.rest, false⟩ := by
  unfold Die.migGo
  simp only [hi, hs, src.isLt, dif_pos, Fin.eta, hp, hc, and_self, if_true]

/-- GO in any other phase is ignored (R108). -/
theorem Die.migGo_ignored (hp : e.migPhase w ≠ Mig.idle) : e.migGo w = e := by
  unfold Die.migGo
  simp only [hp, false_and, if_false, dite_eq_ite, ite_self]
  split <;> rfl

/-- ABORT from LOAD to READY ends the migration (R113). -/
theorem Die.migAbort_ends (h1 : 1 ≤ e.migPhase w) (h4 : e.migPhase w ≤ 4) : e.migAbort w =
    (e.updMig w fun m => { m with
      ending := decide (e.migPhase w ≠ Mig.load)
      rest := decide (e.migPhase w = Mig.load)
      waiting := false }).setFld (F.ENG_MIG_PHASE w) Mig.idle := by
  unfold Die.migAbort Die.migEnd
  simp only [h1, h4, and_self, if_true]

/-- ABORT in no phase of a migration clears FAILED, and changes nothing else (R113). -/
theorem Die.migAbort_rests (h : ¬ (1 ≤ e.migPhase w ∧ e.migPhase w ≤ 4)) : e.migAbort w =
    if e.migPhase w = Mig.failed then e.setFld (F.ENG_MIG_PHASE w) Mig.idle else e := by
  unfold Die.migAbort
  simp only [h, if_false]

end

end Sys2Proof.Machine
end

