-- ==== Sys2Proof/Proofs/Window.lean ====
section
/-! SUPPORT. The exchange window: the exchange of a course's exit copies, the count of its overruns, and what an exit slot
presents (R95, R98, R99, R102). -/

namespace Sys2Proof.Machine

section
variable (e : Die) (c : Fin 28)

/-! ### The overrun watchdog (R98, R99) -/

/-- The counts of an overrun (R99). -/
def Die.overrunCounted (e : Die) (c : Fin 28) : Die :=
  ((e.setBitAt F.ENG_OVRIRQ_COURSE c true).count (F.ENG_C_OVR_TOTAL c) 1).count (F.ENG_C_OVR_CONSEC c) 1

/-- An overrun of a course that is in no shadow is counted, and the fourth in a row zeroes its exit (R99). -/
def Die.overrun (e : Die) (c : Fin 28) : Die :=
  let t := e.overrunCounted c
  if t.fld (F.ENG_C_OVR_CONSEC c) = 4 ∧ t.fld (F.ENG_C_OVR_ZEROED c) = 0 then
    (t.setFld (F.ENG_C_OVR_ZEROED c) 1).logEv 4 1 c.val
  else t

/-- A course with no part in the window is left alone. -/
theorem Die.winCourse_idle (h : e.serves c = false) : e.winCourse c = e := by
  unfold Die.winCourse
  rw [if_pos]
  rw [Die.serves, Bool.and_eq_false_iff] at h
  simpa [Option.isNone_iff_eq_none] using h

theorem Die.serves_not (h : e.serves c = true) : ((e.workSeat c).isNone || !e.wallRuns (wallOf c)) = false := by
  rw [Die.serves, Bool.and_eq_true] at h
  simp [h.2, Option.isNone_eq_false_iff.2 h.1]

/-- A course that has reached END exchanges its exit copies, and its seat's overruns end (R95, R99). -/
theorem Die.winCourse_ended (h : e.serves c = true) (hx : (e.course c).reachedEnd = true) :
    e.winCourse c = if e.isShadow c then e.updCourse c (·.exitExchange) else
      ((e.updCourse c (·.exitExchange)).setFld (F.ENG_C_OVR_CONSEC c) 0).setFld (F.ENG_C_OVR_ZEROED c) 0 := by
  unfold Die.winCourse
  rw [e.serves_not c h, if_neg Bool.false_ne_true, if_pos hx]
  rfl

/-- Any other has its watchdog pending, and its overrun is counted (R98, R99). -/
theorem Die.winCourse_overruns (h : e.serves c = true) (hx : (e.course c).reachedEnd = false) :
    e.winCourse c = if e.isShadow c then e.updCourse c (·.pend 0) else (e.updCourse c (·.pend 0)).overrun c := by
  unfold Die.winCourse
  rw [e.serves_not c h, if_neg Bool.false_ne_true, if_neg (by simp [hx])]
  rfl

/-- Counting an overrun touches no course. -/
@[simp] theorem Die.course_overrun (k : Fin 28) : (e.overrun c).course k = e.course k := by
  refine Die.of_hidden (Die.course · k) (fun _ => rfl) ?_
  unfold Die.overrun Die.overrunCounted
  dsimp only
  split <;> simp

theorem ovr_ne_ovrirq : R.ENG_C_OVR c ≠ R.ENG_OVRIRQ := by
  rw [R.ENG_C_OVR, R.ENG_OVRIRQ]
  omega

theorem eng_ne_log {a : Nat} (h : a / 0x1000 = R.ENG_OVRIRQ / 0x1000) : a / 0x1000 ≠ R.LOG_CTRL / 0x1000 := by
  rw [h]
  decide

theorem ovr_block : R.ENG_C_OVR c / 0x1000 = R.ENG_OVRIRQ / 0x1000 := by
  rw [R.ENG_C_OVR, R.ENG_OVRIRQ]
  omega

/-- The mark of an overrun stands apart from the course's counts. -/
theorem Die.fld_overrunMarked {g : Fld} (hg : g.addr = R.ENG_C_OVR c) :
    (e.setBitAt F.ENG_OVRIRQ_COURSE c true).fld g = e.fld g :=
  Die.fld_of_reg (e.reg_setFld_other (fun h => ovr_ne_ovrirq c (hg.symm.trans h.symm)) _)

theorem Die.ovrirq_overrunCounted : (e.overrunCounted c).bitAt F.ENG_OVRIRQ_COURSE c = true := by
  unfold Die.overrunCounted
  have hr := ((e.setBitAt F.ENG_OVRIRQ_COURSE c true).count (F.ENG_C_OVR_TOTAL c) 1).reg_count_other
    (f := F.ENG_C_OVR_CONSEC c) (ovr_ne_ovrirq c) 1
  rw [(e.setBitAt F.ENG_OVRIRQ_COURSE c true).reg_count_other (f := F.ENG_C_OVR_TOTAL c) (ovr_ne_ovrirq c) 1] at hr
  rw [Die.bitAt, Die.fld_of_reg hr, ← Die.bitAt, Die.bitAt_setBitAt _ (Fld.fits_of rfl) c.isLt, if_pos rfl]

theorem Die.total_overrunCounted :
    (e.overrunCounted c).fld (F.ENG_C_OVR_TOTAL c) = min (e.fld (F.ENG_C_OVR_TOTAL c) + 1) 65535 := by
  unfold Die.overrunCounted
  rw [Die.fld_count_other _ _ _ (Fld.fits_of rfl) _ (.inr (.inr (Nat.le_of_ble_eq_true rfl))),
    Die.fld_count_self _ (Fld.fits_of rfl), e.fld_overrunMarked c rfl]
  rfl

theorem Die.consec_overrunCounted :
    (e.overrunCounted c).fld (F.ENG_C_OVR_CONSEC c) = min (e.fld (F.ENG_C_OVR_CONSEC c) + 1) 7 := by
  unfold Die.overrunCounted
  rw [Die.fld_count_self _ (Fld.fits_of rfl),
    Die.fld_count_other _ _ _ (Fld.fits_of rfl) _ (.inr (.inl (Nat.le_of_ble_eq_true rfl))), e.fld_overrunMarked c rfl]
  rfl

theorem Die.zeroed_overrunCounted : (e.overrunCounted c).fld (F.ENG_C_OVR_ZEROED c) = e.fld (F.ENG_C_OVR_ZEROED c) := by
  unfold Die.overrunCounted
  rw [Die.fld_count_other _ _ _ (Fld.fits_of rfl) _ (.inr (.inr (Nat.le_of_ble_eq_true rfl))),
    Die.fld_count_other _ _ _ (Fld.fits_of rfl) _ (.inr (.inl (Nat.le_of_ble_eq_true rfl))), e.fld_overrunMarked c rfl]

/-- Zeroing an exit leaves the other fields of the engine as the counts left them. -/
theorem Die.fld_overrun {g : Fld} (hb : g.addr / 0x1000 = R.ENG_OVRIRQ / 0x1000)
    (hg : g.addr ≠ R.ENG_C_OVR c ∨ g.lo + g.w ≤ 3 ∨ 4 ≤ g.lo) : (e.overrun c).fld g = (e.overrunCounted c).fld g := by
  unfold Die.overrun
  dsimp only
  split
  · rw [Die.fld_of_reg (Die.reg_logEv _ (eng_ne_log hb) (by decide) ..), Die.fld_setFld_other _ _ _ (Fld.fits_of rfl) _ hg]
  · rfl

/-- The fourth overrun in a row zeroes the exit, and a zeroed exit stays so (R99). -/
theorem Die.zeroed_overrun : (e.overrun c).bit (F.ENG_C_OVR_ZEROED c) =
    (e.bit (F.ENG_C_OVR_ZEROED c) || e.fld (F.ENG_C_OVR_CONSEC c) == 3) := by
  have hlt : e.fld (F.ENG_C_OVR_ZEROED c) < 2 := bitsOf_lt ..
  unfold Die.overrun
  dsimp only
  rw [Die.consec_overrunCounted, Die.zeroed_overrunCounted]
  split
  · next h =>
    have h3 : e.fld (F.ENG_C_OVR_CONSEC c) = 3 := by omega
    rw [Die.bit_of_reg (Die.reg_logEv _ (eng_ne_log (ovr_block c)) (by decide) ..), Die.bit_setFld_self _ (Fld.fits_of rfl),
      h3, beq_self_eq_true, Bool.or_true]
    rfl
  · next h =>
    rw [Die.bit, Die.zeroed_overrunCounted, Die.bit, Bool.eq_iff_iff, Bool.or_eq_true, beq_iff_eq, beq_iff_eq]
    omega

/-! ### A course in the window -/

/-- A course that has reached END has its exit copies exchanged. -/
theorem Die.course_winCourse_ended (h : e.serves c = true) (hx : (e.course c).reachedEnd = true) :
    (e.winCourse c).course c = (e.course c).exitExchange := by
  rw [e.winCourse_ended c h hx]
  split
  · rw [Die.course_updCourse_self]
  · rw [Die.course_setFld, Die.course_setFld, Die.course_updCourse_self]

/-- Any other has its watchdog pending. -/
theorem Die.course_winCourse_overruns (h : e.serves c = true) (hx : (e.course c).reachedEnd = false) :
    (e.winCourse c).course c = (e.course c).pend 0 := by
  rw [e.winCourse_overruns c h hx]
  split
  · rw [Die.course_updCourse_self]
  · rw [Die.course_overrun, Die.course_updCourse_self]

/-- A course in shadow counts nothing (R109). -/
theorem Die.regs_winCourse_shadow (h : e.serves c = true) (hsh : e.isShadow c = true) : (e.winCourse c).regs = e.regs := by
  cases hx : (e.course c).reachedEnd
  · rw [e.winCourse_overruns c h hx, if_pos hsh, Die.updCourse_regs]
  · rw [e.winCourse_ended c h hx, if_pos hsh, Die.updCourse_regs]

/-- The overruns of a seat end where its course has reached END (R99). -/
theorem Die.counts_winCourse_ended (h : e.serves c = true) (hx : (e.course c).reachedEnd = true)
    (hsh : e.isShadow c = false) :
    (e.winCourse c).fld (F.ENG_C_OVR_CONSEC c) = 0 ∧ (e.winCourse c).bit (F.ENG_C_OVR_ZEROED c) = false := by
  rw [e.winCourse_ended c h hx, if_neg (by simp [hsh]), Die.bit_setFld_self _ (Fld.fits_of rfl),
    Die.fld_setFld_other _ _ _ (Fld.fits_of rfl) _ (.inr (.inl (Nat.le_of_ble_eq_true rfl))),
    Die.fld_setFld_self _ _ (Fld.fits_of rfl)]
  exact ⟨rfl, rfl⟩

/-- An overrun is counted, and the fourth in a row zeroes the exit (R99). -/
theorem Die.counts_winCourse_overruns (h : e.serves c = true) (hx : (e.course c).reachedEnd = false)
    (hsh : e.isShadow c = false) :
    (e.winCourse c).bitAt F.ENG_OVRIRQ_COURSE c = true ∧
    (e.winCourse c).fld (F.ENG_C_OVR_TOTAL c) = min (e.fld (F.ENG_C_OVR_TOTAL c) + 1) 65535 ∧
    (e.winCourse c).fld (F.ENG_C_OVR_CONSEC c) = min (e.fld (F.ENG_C_OVR_CONSEC c) + 1) 7 ∧
    (e.winCourse c).bit (F.ENG_C_OVR_ZEROED c) =
      (e.bit (F.ENG_C_OVR_ZEROED c) || e.fld (F.ENG_C_OVR_CONSEC c) == 3) := by
  have apart : F.ENG_OVRIRQ_COURSE.addr ≠ R.ENG_C_OVR c := (ovr_ne_ovrirq c).symm
  rw [e.winCourse_overruns c h hx, if_neg (by simp [hsh]), Die.zeroed_overrun, Die.bitAt, Die.fld_overrun _ _ rfl (.inl apart),
    ← Die.bitAt, Die.ovrirq_overrunCounted,
    Die.fld_overrun _ _ (ovr_block c) (.inr (.inr (Nat.le_of_ble_eq_true rfl))), Die.total_overrunCounted,
    Die.fld_overrun _ _ (ovr_block c) (.inr (.inl (Nat.le_of_ble_eq_true rfl))), Die.consec_overrunCounted]
  exact ⟨rfl, rfl, rfl, rfl⟩

/-! ### The window of a die (R88, R95) -/

/-- On a die that runs its kernels the sources present their values, the Mortar gathers them and the sinks take theirs. -/
theorem Die.exchange_runs (hr : e.runs .eng = true) (hk : e.runsKernels = true) (same : Bool) (party : Option (SMap Quarter))
    (reading : BitVec 12) (limits : BitVec 8) :
    e.exchange (!same) party reading limits =
      let w := e.windowSources (!same) party.isNone
      (w.2.gather (w.2.source w.1 (if same then party.getD [] else []))).windowSinks reading limits := by
  unfold Die.exchange
  rw [hr, hk]
  cases same <;> rfl

/-! ### What an exit slot presents (R95, R99, R102) -/

/-- A row with no mark reads as it stands. -/
theorem eccRow_unmarked (r : Row) : eccRow 0 r = r := by
  refine Vector.ext fun i hi => ?_
  have hmark : pairMark 0 (i / 2) ≠ 2 := by simp [pairMark, bitsOf]
  rw [eccRow, Vector.getElem_ofFn, if_neg hmark]
  rfl

variable {e c} {seat : Fin 24}

/-- A seat that no course holds presents zero. -/
theorem Die.exitSlot_unseated (h : e.seatCourse seat = none) (f : Nat) : e.exitSlot seat f = 0 := by
  unfold Die.exitSlot
  rw [h]

/-- A zeroed exit, and one of a wall that is not ON, presents zero. -/
theorem Die.exitSlot_zeroed (h : e.seatCourse seat = some c)
    (hz : e.wallOn (wallOf c) = false ∨ e.bit (F.ENG_C_OVR_ZEROED c) = true) (f : Nat) : e.exitSlot seat f = 0 := by
  unfold Die.exitSlot
  rw [h]
  exact if_pos (by simpa using hz)

/-- Any other presents its presented copy. -/
theorem Die.exitSlot_presented (h : e.seatCourse seat = some c) (hw : e.wallOn (wallOf c) = true)
    (hz : e.bit (F.ENG_C_OVR_ZEROED c) = false) (f : Fin 512)
    (hm : SMap.get markDflt (e.course c).bad (tileKey Tl.pres (f / 8)) = 0) :
    e.exitSlot seat f = (SMap.get rowDflt (e.course c).exitPres (f / 8))[f.val % 8] := by
  unfold Die.exitSlot
  rw [h]
  simp only [hw, hz, Nat.mod_eq_of_lt f.isLt, hm, eccRow_unmarked, Bool.not_true, Bool.or_self, Bool.false_eq_true,
    if_false]

end

/-! ### Walls, migrations and the window -/

/-- Settles O16: the writes of the seat map and of the migrations phase by phase, a loss of retention by the wall's state, and
the window course by course. -/
theorem wallsAndMigrationAreCommanded : Obligations.WallsAndMigrationAreCommanded := by
  refine ⟨fun d w v s => ⟨fun h => ?_, fun h => ?_⟩, fun d w c margin s => ⟨fun _ h => ?_, fun _ hoff hheld => ?_, ?_⟩,
    fun d w s => ?_, fun d c seat f reading limits s => ?_⟩
  · exact (Writes.of_writeIn rfl).congr (if_pos h)
  · exact (Writes.of_writeIn rfl).congr (if_neg h)
  · exact (ChangesIn.of_updIn rfl).congr fun _ => ((s.die d).retLoss_eq w).trans (if_neg h)
  · have loses : ChangesIn .keep (.wallRetentionLoss d w) s d fun e => (e.setBitAt F.ENG_WCTL_RET w false).loseWall w false :=
      (ChangesIn.of_updIn rfl).congr fun _ => ((s.die d).retLoss_eq w).trans (if_pos ⟨hoff, hheld⟩)
    refine loses.to fun _ => ?_
    rw [State.die_setDie_self, State.die_setDie_other]
    refine ⟨fun i k row => ?_, fun i a => ?_, fun key hk => ?_, Die.walls_loseWall .., rfl⟩
    · obtain ⟨x, hx⟩ := ((s.die d).setBitAt F.ENG_WCTL_RET w false).course_loseWall w false i
      rw [hx, x.tileRow_lose]
    · obtain ⟨x, hx⟩ := ((s.die d).setBitAt F.ENG_WCTL_RET w false).course_loseWall w false i
      rw [hx]
      rfl
    · obtain ⟨y, hy⟩ := ((s.die d).setBitAt F.ENG_WCTL_RET w false).yard_loseWall w
      rw [hy, y.get_loseBank _ hk]
  · refine (ChangesIn.of_updIn (f := (·.wear c margin)) rfl).congr fun _ => ?_
    unfold Die.wear
    simp -implicitDefEqProofs only [Die.setFld_eng]
  · intro e p live
    refine ⟨fun i src hi hs hp hc => ?_, fun hp => ?_, fun hl ha => ?_, fun hl ha => ?_, fun hl => ?_, fun h1 h4 => ?_,
      fun hp => ?_, fun hp => ?_, fun hp => ?_, fun hp => ?_⟩
    · exact (Writes.of_writeIn rfl).congr (e.migGo_takes w hi hs hp hc)
    · exact (Writes.of_writeIn rfl).congr (e.migGo_ignored w hp)
    · exact (Writes.of_writeIn rfl).congr ((if_pos hl).trans (if_pos ha))
    · exact (Writes.of_writeIn rfl).congr ((if_pos hl).trans (if_neg (by simp [e, ha])))
    · exact (Writes.of_writeIn rfl).congr (if_neg hl)
    · exact (Writes.of_writeIn rfl).congr (e.migAbort_ends w h1 h4)
    · exact (Writes.of_writeIn rfl).congr ((e.migAbort_rests w (by rw [show e.migPhase w = _ from hp]; decide)).trans (if_pos hp))
    · have hrest : ¬ (1 ≤ p ∧ p ≤ 4) := by rcases hp with hp | hp <;> rw [hp] <;> decide
      have hfail : p ≠ Mig.failed := by rcases hp with hp | hp <;> rw [hp] <;> decide
      exact (Writes.of_writeIn rfl).congr ((e.migAbort_rests w hrest).trans (if_neg hfail))
    · exact (Writes.of_writeIn rfl).congr (if_pos hp)
    · exact (Writes.of_writeIn rfl).congr (if_neg hp)
  · intro e party w x t y
    refine ⟨fun hr hk => ?_, e.winCourse_idle c, fun hs hx => ?_, fun hs hx => ?_,
      fun hc => ⟨fun hz => Die.exitSlot_zeroed hc hz f, fun hw hz hm => Die.exitSlot_presented hc hw hz f hm⟩,
      fun hc => Die.exitSlot_unseated hc f⟩
    · rw [exec_exchangeWindow, execExchangeWindow, State.goIn, if_pos hr, State.exchange, State.upd,
        Die.exchange_runs _ hr hk]
    · dsimp only [y, t]
      rw [e.course_winCourse_ended c hs hx]
      exact ⟨rfl, rfl, rfl, e.regs_winCourse_shadow c hs, e.counts_winCourse_ended c hs hx⟩
    · dsimp only [y, t]
      rw [e.course_winCourse_overruns c hs hx]
      exact ⟨rfl, rfl, rfl, e.regs_winCourse_shadow c hs, e.counts_winCourse_overruns c hs hx⟩

end Sys2Proof.Machine
end

