-- ==== Sys2Proof/Proofs/Resets.lean ====
section
/-! SUPPORT. Die reset: what a die that restarts holds, what it keeps, and what its partner sees of it (R298, R299, R418, R421,
R454). -/

namespace Sys2Proof.Machine

@[simp] theorem DieId.other_other (d : DieId) : d.other.other = d := by cases d <;> rfl

/-- A change of the partner leaves a die. -/
@[simp] theorem State.die_upd_partner (s : State) (d : DieId) (f : Die → Die) : (s.upd d.other f).die d = s.die d := by
  cases d <;> rfl

/-! ### The clear holds (R368) -/

section
variable (e : Die)

theorem Die.cvHoldAll_hidden : ∃ c, e.cvHoldAll.hidden = (e.updCvd fun _ => c).hidden := by
  unfold Die.cvHoldAll
  induction List.finRange 16 generalizing e with
  | nil => exact ⟨e.cvd, rfl⟩
  | cons n l ih =>
    obtain ⟨c, hc⟩ := ih (e.cvHold n)
    exact ⟨c, hc.trans rfl⟩

/-- Setting every clear hold writes no register outside the block of the CV outputs. -/
theorem Die.reg_cvHoldAll {a : Nat} (ha : a / 0x1000 ≠ R.CVD_STAT / 0x1000) : e.cvHoldAll.reg a = e.reg a := by
  unfold Die.cvHoldAll
  induction List.finRange 16 generalizing e with
  | nil => rfl
  | cons n l ih =>
    have hn : R.CVD_N_STAT n ≠ a := by
      rintro rfl
      apply ha
      rw [R.CVD_N_STAT, R.CVD_STAT]
      omega
    refine (ih (e.cvHold n)).trans ?_
    rw [Die.cvHold, Die.updCvd_reg]
    exact e.reg_setFld_other (f := F.CVD_N_STAT_CLRHOLD n) hn 1

/-! ### The end of a restart -/

/-- The registers that a die reset leaves as its wires hold them, the clear holds, and the record of a freeze that it ends (R298,
R368, R454). -/
def Die.restartEnd (n : Die) (fence : Nat) (froze : Bool) : Die :=
  let n := (n.setRegN R.PAIR_FENCE fence).cvHoldAll
  let n := ((n.setFld F.FRZ_STAT_STATE 0).setFld F.ENG_WCTL_WALL_STATE 0).setFld F.CVD_STAT_CLRIN 0
  if froze then n.logEv 0 8 (n.regN R.FRZ_STAT) 0 else n

variable (fence : Nat) (froze : Bool)

theorem Die.restartEnd_hidden : ∃ c, (e.restartEnd fence froze).hidden = (e.updCvd fun _ => c).hidden := by
  obtain ⟨c, hc⟩ := (e.setRegN R.PAIR_FENCE fence).cvHoldAll_hidden
  refine ⟨c, Eq.trans ?_ hc⟩
  unfold Die.restartEnd
  dsimp only
  split
  · rw [Die.hidden_logEv, Die.hidden_setFld, Die.hidden_setFld, Die.hidden_setFld]
  · rw [Die.hidden_setFld, Die.hidden_setFld, Die.hidden_setFld]

/-- A register outside the recorder's block that a restart writes at its end. -/
theorem Die.reg_restartEnd_log {a : Nat} (ha : a / 0x1000 ≠ R.LOG_CTRL / 0x1000) :
    (e.restartEnd fence froze).reg a =
      ((((e.setRegN R.PAIR_FENCE fence).cvHoldAll.setFld F.FRZ_STAT_STATE 0).setFld F.ENG_WCTL_WALL_STATE 0).setFld
        F.CVD_STAT_CLRIN 0).reg a := by
  unfold Die.restartEnd
  dsimp only
  split
  · exact Die.reg_logEv _ ha (by decide) ..
  · rfl

/-- Any other register is left as the restart found it. -/
theorem Die.reg_restartEnd {a : Nat} (hl : a / 0x1000 ≠ R.LOG_CTRL / 0x1000) (hc : a / 0x1000 ≠ R.CVD_STAT / 0x1000)
    (hf : a ≠ R.FRZ_STAT) (hw : a ≠ R.ENG_WCTL) :
    (e.restartEnd fence froze).reg a = (e.setRegN R.PAIR_FENCE fence).reg a := by
  have hs : R.CVD_STAT ≠ a := fun h => hc (by rw [h])
  rw [e.reg_restartEnd_log fence froze hl, Die.reg_setFld_other _ hs, Die.reg_setFld_other _ (Ne.symm hw),
    Die.reg_setFld_other _ (Ne.symm hf), Die.reg_cvHoldAll _ hc]

theorem Die.frzState_restartEnd : (e.restartEnd fence froze).frzState = 0 := by
  unfold Die.frzState
  rw [Die.fld_of_reg (e.reg_restartEnd_log fence froze (by decide)),
    Die.fld_setFld_other _ _ _ (Fld.fits_of rfl) _ (by decide), Die.fld_setFld_other _ _ _ (Fld.fits_of rfl) _ (by decide),
    Die.fld_setFld_self _ _ (Fld.fits_of rfl)]
  rfl

end

/-! ### A die that has restarted -/

/-- The die `n` is `e` after a die reset: its blocks as at reset but for what outlives it. `from1` says that its loader has begun
again. -/
structure Die.Fresh (from1 : Bool) (e n : Die) : Prop where
  eng : n.eng = { Engine.reset with wearBase := e.eng.wearBase }
  yard : n.yard = Yard.reset
  mem : n.mem = Mem.reset
  cpus : n.cpus = (Die.reset e.id).cpus
  posted : n.posted = []
  frz : n.frzState = 0
  dout : n.bit F.PAIR_FENCE_DOUT = true
  trial : n.reg R.BTL_TRIAL = e.reg R.BTL_TRIAL
  logMem : n.log.mem = e.log.mem
  tick : n.tim.tick = e.tim.tick
  regs : ∀ a : Nat, survives a = false → regDom a ≠ Dom.keep → a ≠ R.PAIR_FENCE → a / 0x1000 ≠ R.CVD_STAT / 0x1000 →
    (from1 = true → a ≠ R.BTL_STAT) → n.reg a = regReset a

/-- What the die of a restart is before its end. -/
structure Die.Emptied (e : Die) (reboot : Bool) (n : Die) : Prop where
  eng : n.eng = { Engine.reset with wearBase := e.eng.wearBase }
  yard : n.yard = Yard.reset
  mem : n.mem = Mem.reset
  cpus : n.cpus = (Die.reset e.id).cpus
  posted : n.posted = []
  logMem : n.log.mem = e.log.mem
  tick : n.tim.tick = e.tim.tick
  ref : reboot = true → n.ref = e.ref
  tim : reboot = true → n.tim = { e.tim with
    wckOut := false
    ppsOut := 0 }
  regs : n.regs = e.regs.filter fun r =>
    survives r.1 || (reboot && regDom r.1 == .keep && r.1 != R.PAIR_FENCE)

/-- The fence's register after a restart: the wires, and on a reboot its interrupt. -/
def Die.restartFence (e : Die) (reboot : Bool) : Nat :=
  e.fenceWires + if reboot then 256 * e.fld F.PAIR_FENCE_FIRQ + 512 * e.fld F.PAIR_FENCE_FIEN else 0

section
variable (e : Die) (reboot : Bool)

/-- A restart empties the die, and ends. -/
theorem Die.restart_eq : ∃ n, e.Emptied reboot n ∧
    e.restart reboot = n.restartEnd (e.restartFence reboot) (e.frzState != 0) := by
  refine ⟨_, ?_, rfl⟩
  refine ⟨rfl, rfl, rfl, rfl, rfl, rfl, ?_, fun h => if_pos h, fun h => if_pos h, rfl⟩
  cases reboot <;> rfl

/-- A REBOOT leaves the reference and TIME, but for the pulses of its outputs (R421). -/
theorem Die.reboot_keeps : (e.restart true).ref = e.ref ∧ (e.restart true).tim = { e.tim with
    wckOut := false
    ppsOut := 0 } := by
  obtain ⟨n, hn, he⟩ := e.restart_eq true
  obtain ⟨c, hc⟩ := n.restartEnd_hidden (e.restartFence true) (e.frzState != 0)
  rw [he]
  exact ⟨(Die.of_hidden Die.ref (fun _ => rfl) hc).trans (hn.ref rfl),
    (Die.of_hidden Die.tim (fun _ => rfl) hc).trans (hn.tim rfl)⟩

/-- The wires hold `DWN` asserted through a restart (R298, R299). -/
theorem Die.restartFence_dout : bitsOf (BitVec.ofNat 32 (e.restartFence reboot)).toNat 2 1 = 1 := by
  have h0 : ∀ b : Bool, b2n b < 2 := by decide
  have hfout := h0 (e.bit F.PAIR_FENCE_FOUT)
  have hfin := h0 (e.bit F.PAIR_FENCE_FIN)
  have hdin := h0 (e.bit F.PAIR_FENCE_DIN)
  have hirq : e.fld F.PAIR_FENCE_FIRQ < 2 := bitsOf_lt ..
  have hien : e.fld F.PAIR_FENCE_FIEN < 2 := bitsOf_lt ..
  rw [BitVec.toNat_ofNat, bitsOf, Die.restartFence, Die.fenceWires]
  cases reboot
  · rw [if_neg Bool.false_ne_true]
    omega
  · rw [if_pos rfl]
    omega

/-- A register that no restart keeps reads its reset value after one. -/
theorem Die.Emptied.reg_reset {e n : Die} {reboot : Bool} (h : e.Emptied reboot n) {a : Nat} (hs : survives a = false)
    (hd : regDom a ≠ Dom.keep) : n.reg a = regReset a := by
  rw [Die.reg, h.regs, SMap.get_filter regReset e.regs
    (fun a => survives a || (reboot && regDom a == .keep && a != R.PAIR_FENCE)) a, if_neg]
  simp [hs, hd]

/-- A register that outlives every reset reads as before. -/
theorem Die.Emptied.reg_kept {e n : Die} {reboot : Bool} (h : e.Emptied reboot n) {a : Nat} (hs : survives a = true) :
    n.reg a = e.reg a := by
  rw [Die.reg, h.regs, SMap.get_filter regReset e.regs
    (fun a => survives a || (reboot && regDom a == .keep && a != R.PAIR_FENCE)) a, if_pos]
  · rfl
  · simp [hs]

/-- The recorder's registers outlive every reset. -/
theorem log_of_survives {a : Nat} (h : survives a = false) : a / 0x1000 ≠ R.LOG_CTRL / 0x1000 := by
  intro ha
  simp [survives, ha] at h

/-- A die that restarts is empty but for what outlives a die reset (R418, R454). -/
theorem Die.restart_fresh : Die.Fresh false e (e.restart reboot) := by
  obtain ⟨n, hn, he⟩ := e.restart_eq reboot
  obtain ⟨c, hc⟩ := n.restartEnd_hidden (e.restartFence reboot) (e.frzState != 0)
  rw [he]
  have keepWctl : regDom R.ENG_WCTL = Dom.keep := by decide
  have keepFrz : regDom R.FRZ_STAT = Dom.keep := by decide
  refine ⟨(Die.of_hidden Die.eng (fun _ => rfl) hc).trans hn.eng, (Die.of_hidden Die.yard (fun _ => rfl) hc).trans hn.yard,
    (Die.of_hidden Die.mem (fun _ => rfl) hc).trans hn.mem, (Die.of_hidden Die.cpus (fun _ => rfl) hc).trans hn.cpus,
    (Die.of_hidden Die.posted (fun _ => rfl) hc).trans hn.posted, n.frzState_restartEnd .., ?_, ?_,
    (Die.of_hidden (fun x => x.log.mem) (fun _ => rfl) hc).trans hn.logMem,
    (Die.of_hidden (fun x => x.tim.tick) (fun _ => rfl) hc).trans hn.tick,
    fun a hs hd hp hcv _ => ?_⟩
  · rw [Die.bit, Die.fld, n.reg_restartEnd _ _ (by decide) (by decide) (by decide) (by decide), Die.setRegN, Die.reg_setReg,
      if_pos (show R.PAIR_FENCE = F.PAIR_FENCE_DOUT.addr from rfl)]
    exact beq_iff_eq.2 (e.restartFence_dout reboot)
  · rw [n.reg_restartEnd _ _ (by decide) (by decide) (by decide) (by decide), Die.setRegN, Die.reg_setReg, if_neg (by decide),
      hn.reg_kept (by decide)]
  · rw [n.reg_restartEnd _ _ (log_of_survives hs) hcv (fun h => hd (h ▸ keepFrz)) (fun h => hd (h ▸ keepWctl)), Die.setRegN,
      Die.reg_setReg, if_neg (Ne.symm hp), hn.reg_reset hs hd]

end

/-! ### What a fresh die may write and stay fresh -/

namespace Die.Fresh

variable {b : Bool} {e n : Die}

theorem weaken (h : Fresh false e n) : Fresh b e n :=
  { h with regs := fun a hs hd hp hc _ => h.regs a hs hd hp hc (fun hb => absurd hb Bool.false_ne_true) }

/-- A field of a register that outlives a reset, of the fence apart from `DWN`, or of BTL_STAT where the loader has begun. -/
theorem setFld (h : Fresh b e n) {f : Fld} (v : Nat)
    (hs : survives f.addr = true ∨ f.addr = R.PAIR_FENCE ∨ b = true ∧ f.addr = R.BTL_STAT) (hfrz : f.addr ≠ R.FRZ_STAT)
    (htrial : f.addr ≠ R.BTL_TRIAL) (hdout : (n.setFld f v).bit F.PAIR_FENCE_DOUT = true) : Fresh b e (n.setFld f v) where
  eng := h.eng
  yard := h.yard
  mem := h.mem
  cpus := h.cpus
  posted := h.posted
  frz := (Die.fld_of_reg (n.reg_setFld_other hfrz v)).trans h.frz
  dout := hdout
  trial := (n.reg_setFld_other htrial v).trans h.trial
  logMem := h.logMem
  tick := h.tick
  regs := fun a hsa hd hp hc hb => by
    refine (n.reg_setFld_other ?_ v).trans (h.regs a hsa hd hp hc hb)
    rintro rfl
    rcases hs with hs | hs | ⟨h1, h2⟩
    · rw [hsa] at hs
      exact Bool.false_ne_true hs
    · exact hp hs
    · exact hb h1 h2

/-- A field of a register that outlives a reset may be written. -/
theorem setKept (h : Fresh b e n) {f : Fld} (v : Nat) (hs : survives f.addr = true) (hfrz : f.addr ≠ R.FRZ_STAT)
    (htrial : f.addr ≠ R.BTL_TRIAL) (hfence : f.addr ≠ R.PAIR_FENCE) : Fresh b e (n.setFld f v) :=
  h.setFld v (.inl hs) hfrz htrial ((Die.bit_of_reg (n.reg_setFld_other hfence v)).trans h.dout)

/-- A field of the fence's register apart from `DWN` may be written. -/
theorem setFence (h : Fresh b e n) {f : Fld} (v : Nat) (ha : f.addr = R.PAIR_FENCE) (hf : f.fits)
    (hd : f.lo + f.w ≤ 2 ∨ 3 ≤ f.lo) : Fresh b e (n.setFld f v) :=
  h.setFld v (.inr (.inl ha)) (by rw [ha]; decide) (by rw [ha]; decide)
    ((n.bit_setFld_other f F.PAIR_FENCE_DOUT hf v (.inr hd.symm)).trans h.dout)

/-- The loader may begin again. -/
theorem setStep (h : Fresh false e n) (k : Nat) : Fresh true e (n.setStep k) :=
  h.weaken.setFld k (.inr (.inr ⟨rfl, rfl⟩)) (by decide) (by decide)
    ((Die.bit_of_reg (n.reg_setFld_other (f := F.BTL_STAT_STEP) (by decide) k)).trans h.dout)

/-- What the loader's state holds is its own. -/
theorem updBoot (h : Fresh b e n) (f : Boot → Boot) : Fresh b e (n.updBoot f) :=
  ⟨h.eng, h.yard, h.mem, h.cpus, h.posted, h.frz, h.dout, h.trial, h.logMem, h.tick, h.regs⟩

/-- So is what the read-out port answers. -/
theorem rdo (h : Fresh b e n) (r : ReadOut) : Fresh b e (n.rdo r) :=
  ⟨h.eng, h.yard, h.mem, h.cpus, h.posted, h.frz, h.dout, h.trial, h.logMem, h.tick, h.regs⟩

end Die.Fresh

/-! ### `DWN` and the die reset of a package (R298, R299) -/

/-- `DWN` reaches a die whose KEEP runs, and nothing else of the other changes. -/
structure Die.HearsDown (p q : Die) : Prop where
  hidden : q.hidden = p.hidden
  din : p.runs .keep = true → q.bit F.PAIR_FENCE_DIN = true

section
variable (s : State) (d : DieId)

/-- The die that asserts `DWN` shows it, and may hold its joined balls. -/
theorem State.down_die : ∃ f, (s.down d).die d = ((s.die d).setFld F.PAIR_FENCE_DOUT 1).updPair f := by
  refine ⟨fun p => { p with holding := p.holding || (p.driving && (s.die d.other).role == Role.follow) }, ?_⟩
  unfold State.down State.updIn
  dsimp only
  split
  · rw [State.die_upd_partner, State.die_upd_self]
  · rw [State.die_upd_self]

theorem State.down_other :
    (s.down d).die d.other = if (s.die d.other).runs .keep then (s.die d.other).setDin true else s.die d.other := by
  unfold State.down State.updIn
  dsimp only
  rw [State.die_upd_other, apply_ite (fun t : State => t.die d.other), State.die_upd_self, State.die_upd_other]

theorem Die.hidden_setDin (e : Die) (b : Bool) : (e.setDin b).hidden = e.hidden := by
  unfold Die.setDin
  split <;> rfl

theorem Die.din_setDin (e : Die) : (e.setDin true).bit F.PAIR_FENCE_DIN = true := by
  unfold Die.setDin
  split
  · next h => exact h
  · rw [Die.bit_setFld_other _ _ _ (Fld.fits_of rfl) _ (by decide), Die.setBit, Die.bit_setFld_self _ (Fld.fits_of rfl)]
    rfl

theorem State.down_heard : (s.die d.other).HearsDown ((s.down d).die d.other) := by
  rw [State.down_other]
  split
  · exact ⟨Die.hidden_setDin _ _, fun _ => Die.din_setDin _⟩
  · next h => exact ⟨rfl, fun hr => absurd hr h⟩

theorem State.down_dout : ((s.down d).die d).bit F.PAIR_FENCE_DOUT = true := by
  obtain ⟨f, hf⟩ := s.down_die d
  rw [hf, Die.updPair_bit, Die.bit_setFld_self _ (Fld.fits_of rfl)]
  rfl

theorem State.down_reg {a : Nat} (ha : a ≠ R.PAIR_FENCE) : ((s.down d).die d).reg a = (s.die d).reg a := by
  obtain ⟨f, hf⟩ := s.down_die d
  rw [hf, Die.updPair_reg]
  exact (s.die d).reg_setFld_other (f := F.PAIR_FENCE_DOUT) (Ne.symm ha) 1

variable (reboot : Bool)

theorem State.resetDie_die : (s.resetDie d reboot).die d = ((s.down d).die d).restart reboot := State.die_upd_self ..

theorem State.resetDie_other : (s.resetDie d reboot).die d.other = (s.down d).die d.other := State.die_upd_other ..

/-- A die that is reset is fresh (R298, R299, R418). -/
theorem State.resetDie_fresh : (s.die d).Fresh false ((s.resetDie d reboot).die d) := by
  obtain ⟨f, hf⟩ := s.down_die d
  have h := ((s.down d).die d).restart_fresh reboot
  rw [State.resetDie_die]
  exact { h with
    eng := h.eng.trans (by rw [hf]; rfl)
    cpus := h.cpus.trans (by rw [hf]; rfl)
    trial := h.trial.trans (s.down_reg d (by decide))
    logMem := h.logMem.trans (by rw [hf]; rfl)
    tick := h.tick.trans (by rw [hf]; rfl) }

theorem State.resetDie_heard : (s.die d.other).HearsDown ((s.resetDie d reboot).die d.other) := by
  rw [State.resetDie_other]
  exact s.down_heard d

/-! ### REBOOT (R298, R421) -/

/-- A fence that the end of a reset releases, on the die that is reset. -/
theorem State.resetEnd_die : (s.resetEnd d).die d = s.die d ∨
    (s.resetEnd d).die d = ((s.die d).setFld F.PAIR_FENCE_FIN 0).raise F.PAIR_FENCE_FIRQ ((s.die d).runs .keep) := by
  unfold State.resetEnd State.unfence
  split
  · simp only [DieId.other_other, State.die_upd_partner]
    split
    · refine .inr ?_
      rw [State.die_upd_self, State.die_upd_partner]
    · exact .inl (State.die_upd_partner ..)
  · exact .inl rfl

/-- The same on its holder. -/
theorem State.resetEnd_other : (s.resetEnd d).die d.other = s.die d.other ∨
    (s.resetEnd d).die d.other = (s.die d.other).setFld F.PAIR_FENCE_FOUT 0 := by
  unfold State.resetEnd State.unfence
  split
  · refine .inr ?_
    dsimp only
    rw [DieId.other_other, apply_ite (fun t : State => t.die d.other), State.die_upd_other, ite_self, State.die_upd_self]
  · exact .inl rfl

theorem State.resetEnd_fresh {e : Die} (h : e.Fresh false (s.die d)) : e.Fresh false ((s.resetEnd d).die d) := by
  rcases s.resetEnd_die d with he | he
  · rw [he]
    exact h
  · have hfin := h.setFence (f := F.PAIR_FENCE_FIN) 0 rfl (Fld.fits_of rfl) (.inl (by decide))
    rw [he]
    unfold Die.raise
    split
    · exact hfin.setFence (f := F.PAIR_FENCE_FIRQ) 1 rfl (Fld.fits_of rfl) (.inr (by decide))
    · exact hfin

theorem State.resetEnd_hidden : ((s.resetEnd d).die d).hidden = (s.die d).hidden := by
  rcases s.resetEnd_die d with he | he
  · rw [he]
  · rw [he, Die.hidden_raise, Die.hidden_setFld]

theorem State.resetEnd_heard {p : Die} (h : p.HearsDown (s.die d.other)) : p.HearsDown ((s.resetEnd d).die d.other) := by
  rcases s.resetEnd_other d with he | he
  · rw [he]
    exact h
  · rw [he]
    exact ⟨h.hidden, fun hr => (Die.bit_setFld_other _ _ _ (Fld.fits_of rfl) _ (by decide)).trans (h.din hr)⟩

/-- A REBOOT leaves a fresh die whose loader begins again, with its reference and TIME (R421). -/
theorem State.rebootDie_die : (s.die d).Fresh true ((s.rebootDie d).die d) ∧ ((s.rebootDie d).die d).bootStep = 1 ∧
    ((s.rebootDie d).die d).ref = (s.die d).ref ∧ ((s.rebootDie d).die d).tim = { (s.die d).tim with
      wckOut := false
      ppsOut := 0 } := by
  obtain ⟨f, hf⟩ := s.down_die d
  obtain ⟨href, htim⟩ := ((s.down d).die d).reboot_keeps
  have hh : (((s.resetDie d true).resetEnd d).die d).hidden = (((s.down d).die d).restart true).hidden := by
    rw [State.resetEnd_hidden, State.resetDie_die]
  have hdown : ((s.down d).die d).ref = (s.die d).ref ∧ ((s.down d).die d).tim = (s.die d).tim := by
    rw [hf]
    exact ⟨rfl, rfl⟩
  rw [State.rebootDie, State.die_upd_self]
  refine ⟨(State.resetEnd_fresh _ d (s.resetDie_fresh d true)).setStep 1, Die.fld_setFld_self _ _ (Fld.fits_of rfl) 1,
    (Die.of_hidden Die.ref (fun _ => rfl) hh).trans (href.trans hdown.1),
    (Die.of_hidden Die.tim (fun _ => rfl) hh).trans (htim.trans ?_)⟩
  rw [hdown.2]

theorem State.rebootDie_heard : (s.die d.other).HearsDown ((s.rebootDie d).die d.other) := by
  rw [State.rebootDie, State.die_upd_other]
  exact State.resetEnd_heard _ d (s.resetDie_heard d true)

end

end Sys2Proof.Machine
end

