-- ==== Sys2Proof/Proofs/Flash.lean ====
section
/-! SUPPORT. The flash port: a command that GO starts or that is refused, and the bytes that a read leaves in BTL_FBUF (R409). -/

namespace Sys2Proof.Machine

/-! ### The bytes of BTL_FBUF -/

/-- Byte `k` of BTL_FBUF. -/
def fbufFld (k : Nat) : Fld := ⟨R.BTL_FBUF (k / 4), 8 * (k % 4), 8⟩

theorem fbufFld_fits (k : Nat) : (fbufFld k).fits := by
  unfold Fld.fits fbufFld
  dsimp only
  omega

/-- Two bytes lie apart. -/
theorem fbufFld_apart {k j : Nat} (h : k ≠ j) : (fbufFld k).addr ≠ (fbufFld j).addr ∨
    (fbufFld k).lo + (fbufFld k).w ≤ (fbufFld j).lo ∨ (fbufFld j).lo + (fbufFld j).w ≤ (fbufFld k).lo := by
  unfold fbufFld R.BTL_FBUF
  dsimp only
  omega

/-- The bytes of a read, each with its place, put into BTL_FBUF. -/
def Die.fbufPut (e : Die) (l : List (Byte × Nat)) : Die := l.foldl (fun e b => e.setFld (fbufFld b.2) b.1.toNat) e

section
variable (e : Die)

/-- A byte that the read does not reach keeps its value. -/
theorem Die.fbufPut_other {k : Nat} (l : List (Byte × Nat)) (h : ∀ b ∈ l, b.2 ≠ k) :
    (e.fbufPut l).fld (fbufFld k) = e.fld (fbufFld k) := by
  unfold Die.fbufPut
  induction l generalizing e with
  | nil => rfl
  | cons b l ih =>
    rw [List.foldl_cons, ih _ fun x hx => h x (List.mem_cons_of_mem _ hx),
      Die.fld_setFld_other _ _ _ (fbufFld_fits _) _ (fbufFld_apart (h b List.mem_cons_self).symm)]

/-- A byte that the read reaches is the read's. -/
theorem Die.fbufPut_zipIdx (data : List Byte) (n : Nat) {k : Nat} (hk : k < data.length) :
    (e.fbufPut (data.zipIdx n)).fld (fbufFld (n + k)) = (data[k]).toNat := by
  induction data generalizing e n k with
  | nil => exact absurd hk (Nat.not_lt_zero k)
  | cons x data ih =>
    rw [List.zipIdx_cons]
    cases k with
    | zero =>
      refine ((e.setFld (fbufFld n) x.toNat).fbufPut_other (data.zipIdx (n + 1)) ?_).trans ?_
      · rintro ⟨y, i⟩ hb
        have := (List.mem_zipIdx hb).1
        dsimp only
        omega
      · rw [Nat.add_zero, Die.fld_setFld_self _ _ (fbufFld_fits _)]
        exact Nat.mod_eq_of_lt x.isLt
    | succ k =>
      rw [show n + (k + 1) = n + 1 + k by omega]
      exact ih _ _ (Nat.lt_of_succ_lt_succ hk)

/-! ### The end of a command -/

/-- A command that ends is DONE, and a read has left its bytes (R409). -/
theorem Die.flashDone_eq {c : FlashCmd} (h : e.boot.flash = some c) (data : List Byte) :
    e.flashDone data = ((((if c.write then e else e.fbufPut (data.take c.len).zipIdx).setFld F.BTL_FSTAT_BUSY 0).setFld
      F.BTL_FSTAT_DONE 1).setFld F.BTL_IRQ_FDONE 1).updBoot fun b => { b with flash := none } := by
  unfold Die.flashDone
  rw [h]
  rfl

theorem fbuf_ne_fstat (k : Nat) : R.BTL_FBUF k ≠ R.BTL_FSTAT := by
  rw [R.BTL_FBUF, R.BTL_FSTAT]
  omega

theorem fbuf_ne_irq (k : Nat) : R.BTL_FBUF k ≠ R.BTL_IRQ := by
  rw [R.BTL_FBUF, R.BTL_IRQ]
  omega

variable {e}

theorem Die.flashDone_busy {c : FlashCmd} (h : e.boot.flash = some c) (data : List Byte) :
    (e.flashDone data).bit F.BTL_FSTAT_BUSY = false := by
  rw [e.flashDone_eq h, Die.updBoot_bit, Die.bit_setFld_other _ _ _ (Fld.fits_of rfl) _ (by decide),
    Die.bit_setFld_other _ _ _ (Fld.fits_of rfl) _ (by decide), Die.bit_setFld_self _ (Fld.fits_of rfl)]
  rfl

theorem Die.flashDone_done {c : FlashCmd} (h : e.boot.flash = some c) (data : List Byte) :
    (e.flashDone data).bit F.BTL_FSTAT_DONE = true := by
  rw [e.flashDone_eq h, Die.updBoot_bit, Die.bit_setFld_other _ _ _ (Fld.fits_of rfl) _ (by decide),
    Die.bit_setFld_self _ (Fld.fits_of rfl)]
  rfl

/-- The bytes that a read returned stand in BTL_FBUF (R409). -/
theorem Die.flashDone_byte {c : FlashCmd} (h : e.boot.flash = some c) {data : List Byte} {k : Nat} (hc : k < c.len)
    (hd : k < data.length) (hw : c.write = false) : (e.flashDone data).fld (fbufFld k) = (data.getD k 0).toNat := by
  have hk : k < (data.take c.len).length := by
    rw [List.length_take]
    omega
  have hbyte := e.fbufPut_zipIdx (data.take c.len) 0 hk
  rw [Nat.zero_add, List.getElem_take] at hbyte
  rw [e.flashDone_eq h, Die.updBoot_fld, hw, if_neg Bool.false_ne_true,
    Die.fld_setFld_other _ _ _ (Fld.fits_of rfl) _ (.inl (fbuf_ne_irq _)),
    Die.fld_setFld_other _ _ _ (Fld.fits_of rfl) _ (.inl (fbuf_ne_fstat _)),
    Die.fld_setFld_other _ _ _ (Fld.fits_of rfl) _ (.inl (fbuf_ne_fstat _)), hbyte, List.getD_eq_getElem _ _ hd]

theorem Die.flashDone_flash {c : FlashCmd} (h : e.boot.flash = some c) (data : List Byte) :
    (e.flashDone data).boot.flash = none := by
  rw [e.flashDone_eq h]
  rfl

end

/-! ### GO -/

/-- The forms of GO that the port takes: the image runs, the port is not busy, and the register gives the form (R409). -/
def Die.flashTakes (e : Die) (v : Word) : Prop :=
  6 ≤ e.bootStep ∧ e.bit F.BTL_FSTAT_BUSY = false ∧ bitsOf v.toNat 16 9 ≤ 256 ∧
    (bitsOf v.toNat 8 3 = 0 ∨ bitsOf v.toNat 8 3 = 3 ∨ bitsOf v.toNat 8 3 = 4)

/-- A write of BTL_FCMD ends the key of REBOOT (R421), and shows the command. -/
def Die.flashNoted (e : Die) (v : Word) : Die :=
  (e.updBoot fun b => { b with key := false }).setRegN R.BTL_FCMD (v.toNat % 2 ^ 26)

section
variable (e : Die) (v : Word)

theorem Die.reg_flashNoted {a : Nat} (h : R.BTL_FCMD ≠ a) : (e.flashNoted v).reg a = e.reg a :=
  (Die.reg_setReg ..).trans (if_neg h)

theorem Die.flashCommand_quiet (h : natBit v.toNat 31 = false) : e.flashCommand v = e.flashNoted v := by
  unfold Die.flashCommand
  dsimp only
  rw [if_pos (by simp [h])]
  rfl

theorem Die.flashCommand_taken (h : natBit v.toNat 31 = true) (ht : e.flashTakes v) :
    e.flashCommand v = ((e.flashNoted v).setFld F.BTL_FSTAT_BUSY 1).updBoot fun b => { b with flash := some {
      word := v &&& 0x3FFFFFF
      addr := (e.flashNoted v).reg R.BTL_FADDR
      write := natBit v.toNat 25
      bytes := if natBit v.toNat 25 then (e.flashNoted v).fbuf.take (bitsOf v.toNat 16 9) else []
      len := bitsOf v.toNat 16 9 } } := by
  obtain ⟨hstep, hbusy, hlen, hform⟩ := ht
  have hstep' : 6 ≤ (e.flashNoted v).bootStep := by
    rw [Die.bootStep, Die.fld_of_reg (e.reg_flashNoted v (by decide))]
    exact hstep
  have hbusy' : (e.flashNoted v).bit F.BTL_FSTAT_BUSY = false := by
    rw [Die.bit_of_reg (e.reg_flashNoted v (by decide))]
    exact hbusy
  unfold Die.flashCommand
  dsimp only
  rw [if_neg (by simp [h])]
  refine if_pos ?_
  simp only [Bool.and_eq_true, Bool.or_eq_true, decide_eq_true_eq, beq_iff_eq, Bool.not_eq_true']
  exact ⟨⟨⟨hstep', hbusy'⟩, by tauto⟩, hlen⟩

theorem Die.flashCommand_refused (h : natBit v.toNat 31 = true) (ht : ¬ e.flashTakes v) :
    e.flashCommand v = (e.flashNoted v).setFld F.BTL_FSTAT_REFUSED 1 := by
  unfold Die.flashCommand
  dsimp only
  rw [if_neg (by simp [h])]
  refine if_neg fun hok => ht ?_
  simp only [Bool.and_eq_true, Bool.or_eq_true, decide_eq_true_eq, beq_iff_eq, Bool.not_eq_true'] at hok
  obtain ⟨⟨⟨hstep, hbusy⟩, hform⟩, hlen⟩ := hok
  refine ⟨?_, ?_, hlen, by tauto⟩
  · rw [Die.bootStep, ← Die.fld_of_reg (e.reg_flashNoted v (by decide))]
    exact hstep
  · rw [← Die.bit_of_reg (e.reg_flashNoted v (by decide))]
    exact hbusy

end

end Sys2Proof.Machine
end

