-- ==== Sys2Proof/Proofs/Supplies.lean ====
section
/-! SUPPORT. The plug manager and the supply monitor: the states of BTL_PLUG, the ports that fall as a card leaves, and the rails
of BTL_SUPPLY (R426 to R429). -/

namespace Sys2Proof.Machine

/-! ### The plug manager (R426, R427) -/

section
variable (e : Die)

@[simp] theorem Die.hidden_setPlug (v : Nat) : (e.setPlug v).hidden = e.hidden := by
  unfold Die.setPlug
  split <;> rfl

/-- The plug manager takes a state. -/
theorem Die.setPlug_state {v : Nat} (hv : v < 8) : (e.setPlug v).fld F.BTL_PLUG_STATE = v := by
  unfold Die.setPlug
  split
  · next h => exact h
  · rw [Die.fld_setFld_other _ _ _ (Fld.fits_of rfl) _ (by decide), Die.fld_setFld_self _ _ (Fld.fits_of rfl)]
    exact Nat.mod_eq_of_lt hv

theorem Die.reg_setPlug {a : Nat} (hp : R.BTL_PLUG ≠ a) (hi : R.BTL_IRQ ≠ a) (v : Nat) : (e.setPlug v).reg a = e.reg a := by
  unfold Die.setPlug
  split
  · rfl
  · rw [Die.reg_setFld_other _ hi, Die.reg_setFld_other _ hp]

/-- A port of a card that leaves: its EN clears, and it falls at once (R427). -/
def Die.portLeaves (e : Die) (p : PortId) : Die :=
  let e := e.setFld (F.CHNX_CTRL_EN p.idx) 0
  if e.portState p = St.on ∨ e.portState p = St.rising then e.chnFall p else e

variable (p : PortId)

/-- A port that begins to fall writes its state. -/
theorem Die.reg_chnFall (a : Nat) : (e.chnFall p).reg a = (e.setFld (F.CHNX_CTRL_STATE p.idx) St.falling).reg a := rfl

theorem Die.reg_portLeaves {a : Nat} (h : R.CHNX_CTRL p.idx ≠ a) : (e.portLeaves p).reg a = e.reg a := by
  have hen := e.reg_setFld_other (f := F.CHNX_CTRL_EN p.idx) h 0
  unfold Die.portLeaves
  dsimp only
  split
  · rw [Die.reg_chnFall, Die.reg_setFld_other _ (f := F.CHNX_CTRL_STATE p.idx) h, hen]
  · exact hen

theorem Die.portLeaves_en : (e.portLeaves p).bit (F.CHNX_CTRL_EN p.idx) = false := by
  have hen : (e.setFld (F.CHNX_CTRL_EN p.idx) 0).bit (F.CHNX_CTRL_EN p.idx) = false := by
    rw [Die.bit_setFld_self _ (Fld.fits_of rfl)]
    rfl
  unfold Die.portLeaves
  dsimp only
  split
  · rw [Die.bit_of_reg (Die.reg_chnFall ..), Die.bit_setFld_other _ _ _ (Fld.fits_of rfl) _
      (.inr (.inl (Nat.le_of_ble_eq_true rfl))), hen]
  · exact hen

theorem Die.portLeaves_state : (e.portLeaves p).portState p =
    if e.portState p = St.on ∨ e.portState p = St.rising then St.falling else e.portState p := by
  have hst : (e.setFld (F.CHNX_CTRL_EN p.idx) 0).portState p = e.portState p :=
    e.fld_setFld_other _ _ (Fld.fits_of rfl) _ (.inr (.inr (Nat.le_of_ble_eq_true rfl)))
  unfold Die.portLeaves
  dsimp only
  rw [hst]
  split
  · rw [Die.portState, Die.fld_of_reg (Die.reg_chnFall ..), Die.fld_setFld_self _ _ (Fld.fits_of rfl)]
    rfl
  · exact hst

/-- A card that leaves: the plug manager's state, the clear holds, and both ports (R427). -/
def Die.leaves (e : Die) : Die :=
  (((e.setPlug 5).setFld F.BTL_PLUG_SEATED 0).cvHoldAll.portLeaves .n).portLeaves .s

theorem State.leaving_of (s : State) (d : DieId) (h1 : 1 ≤ (s.die d).fld F.BTL_PLUG_STATE)
    (h4 : (s.die d).fld F.BTL_PLUG_STATE ≤ 4) :
    s.leaving d = (s.down d).upd d fun e => e.leaves.logEv 0 5 (e.leaves.regN R.BTL_PLUG) := by
  unfold State.leaving
  dsimp only
  rw [if_neg (by omega)]
  rfl

/-- Outside the blocks of the CV outputs, of the ports and of the plug manager a card that leaves writes no register. -/
theorem Die.reg_leaves {a : Nat} (hc : a / 0x1000 ≠ R.CVD_STAT / 0x1000) (hn : R.CHNX_CTRL PortId.n.idx ≠ a)
    (hs : R.CHNX_CTRL PortId.s.idx ≠ a) : e.leaves.reg a = ((e.setPlug 5).setFld F.BTL_PLUG_SEATED 0).reg a := by
  unfold Die.leaves
  rw [Die.reg_portLeaves _ _ hs, Die.reg_portLeaves _ _ hn, Die.reg_cvHoldAll _ hc]

/-- Each port is as it was until it leaves. -/
theorem Die.leaves_port : e.leaves.bit (F.CHNX_CTRL_EN p.idx) = false ∧ e.leaves.portState p =
    if e.portState p = St.on ∨ e.portState p = St.rising then St.falling else e.portState p := by
  have hst : (((e.setPlug 5).setFld F.BTL_PLUG_SEATED 0).cvHoldAll).portState p = e.portState p := by
    refine Die.fld_of_reg ?_
    cases p
    all_goals rw [Die.reg_cvHoldAll _ (by decide), Die.reg_setFld_other _ (by decide), Die.reg_setPlug _ (by decide) (by decide)]
  unfold Die.leaves
  cases p with
  | n =>
    rw [Die.bit_of_reg (Die.reg_portLeaves _ .s (by decide)), Die.portLeaves_en, Die.portState,
      Die.fld_of_reg (Die.reg_portLeaves _ .s (by decide)), ← Die.portState, Die.portLeaves_state, hst]
    exact ⟨rfl, rfl⟩
  | s =>
    have hn (x : Die) : (x.portLeaves .n).portState .s = x.portState .s := Die.fld_of_reg (x.reg_portLeaves .n (by decide))
    rw [Die.portLeaves_en, Die.portLeaves_state, hn, hst]
    exact ⟨rfl, rfl⟩

end

/-! ### The rails (R429) -/

section
variable (e : Die) (r : Rail) (ok : Bool)

theorem railBit_lt : railBit r < 6 := by cases r <;> decide

theorem Die.hidden_railSet : ∃ f, (e.railSet r ok).hidden = (e.updMisc f).hidden := by
  unfold Die.railSet Die.gpioMove
  dsimp only
  split
  · exact ⟨fun m => m, rfl⟩
  · exact ⟨fun m => { m with stood := some (e.misc.stood.getD (BitVec.ofNat 16 e.gpioPins)) }, rfl⟩

theorem Die.reg_railSet {a : Nat} (h : R.MISC_GPIO_IRQ ≠ a) :
    (e.railSet r ok).reg a = (e.setBitAt F.BTL_SUPPLY_OK (railBit r) ok).reg a := by
  unfold Die.railSet Die.gpioMove
  dsimp only
  split
  · exact Die.reg_setFld_other _ (f := F.MISC_GPIO_IRQ_PIN) h _
  · rfl

/-- A rail's OK after it has left its window or come back. -/
theorem Die.railSet_ok : (e.railSet r ok).bitAt F.BTL_SUPPLY_OK (railBit r) = ok := by
  rw [Die.bitAt, Die.fld_of_reg (e.reg_railSet r ok (by decide)), ← Die.bitAt,
    Die.bitAt_setBitAt _ (Fld.fits_of rfl) (railBit_lt r), if_pos rfl]

/-- SUPOK stands in the plug's register. -/
theorem Die.reg_supOk {a : Nat} (h : R.BTL_PLUG ≠ a) : e.supOk.reg a = e.reg a :=
  e.reg_setFld_other (f := F.BTL_PLUG_SUPOK) h _

/-- With a rail out of its window SUPOK is clear. -/
theorem Die.supOk_clear (h : e.bitAt F.BTL_SUPPLY_OK (railBit r) = false) : e.supOk.bit F.BTL_PLUG_SUPOK = false := by
  have hne : e.fld F.BTL_SUPPLY_OK ≠ 0x3F := by
    intro he
    rw [Die.bitAt, he] at h
    revert h
    cases r <;> decide
  rw [Die.supOk, beq_eq_false_iff_ne.2 hne, Die.setBit, Die.bit_setFld_self _ (Fld.fits_of rfl)]
  rfl

/-- A rail has been out of its window for 1 µs (R429). -/
def Die.railWarned (e : Die) (r : Rail) : Die :=
  let e := ((e.railSet r false).setBitAt F.BTL_SUPPLY_WARN (railBit r) true).supOk
  let e := if r = .vcv then e.setFld F.CVD_STAT_VCVOK 0 else e
  (e.healthNote fun h => { h with supply := h.supply + 1 }).logEv 0 6 (e.regN R.BTL_SUPPLY)

/-- VCORE asserts `DWN` as well (R299, R429). -/
theorem State.supplyWarn_eq (s : State) (d : DieId) : s.supplyWarn d r =
    if r = .vcore then (s.upd d (·.railWarned r)).down d else s.upd d (·.railWarned r) := rfl

theorem Die.reg_railWarned {a : Nat} (hl : a / 0x1000 ≠ R.LOG_CTRL / 0x1000) (hc : R.CVD_STAT ≠ a) :
    (e.railWarned r).reg a = ((e.railSet r false).setBitAt F.BTL_SUPPLY_WARN (railBit r) true).supOk.reg a := by
  unfold Die.railWarned
  dsimp only
  rw [Die.reg_logEv _ hl (by decide)]
  split
  · exact Die.reg_setFld_other _ (f := F.CVD_STAT_VCVOK) hc 0
  · rfl

/-- A rail out of its window clears its OK and notes WARN (R429). -/
theorem Die.railWarned_supply : (e.railWarned r).bitAt F.BTL_SUPPLY_OK (railBit r) = false ∧
    (e.railWarned r).bitAt F.BTL_SUPPLY_WARN (railBit r) = true ∧ (e.railWarned r).bit F.BTL_PLUG_SUPOK = false := by
  have hok : ((e.railSet r false).setBitAt F.BTL_SUPPLY_WARN (railBit r) true).bitAt F.BTL_SUPPLY_OK (railBit r) = false := by
    rw [Die.bitAt, Die.setBitAt, Die.fld_setFld_other _ _ _ (Fld.fits_of rfl) _ (by decide), ← Die.bitAt, Die.railSet_ok]
  have hsupply : (e.railWarned r).reg R.BTL_SUPPLY =
      ((e.railSet r false).setBitAt F.BTL_SUPPLY_WARN (railBit r) true).reg R.BTL_SUPPLY := by
    rw [Die.reg_railWarned _ _ (by decide) (by decide), Die.reg_supOk _ (by decide)]
  refine ⟨?_, ?_, ?_⟩
  · rw [Die.bitAt, Die.fld_of_reg hsupply, ← Die.bitAt, hok]
  · rw [Die.bitAt, Die.fld_of_reg hsupply, ← Die.bitAt, Die.bitAt_setBitAt _ (Fld.fits_of rfl) (railBit_lt r), if_pos rfl]
  · rw [Die.bit_of_reg (e.reg_railWarned r (by decide) (by decide)), Die.supOk_clear _ r hok]

/-- VIO18, once lost, starts KEEP again (R24, R418). -/
def Die.keepStarts (e : Die) (r : Rail) : Die :=
  if r = .vio18 ∧ e.boot.low.contains .vio18 then
    { e with clk := { e.clk with stopped := e.clk.stopped.filter (· != .keep) } } else e

/-- The rails that hold a die in reset once `r` is back. -/
def lowWithout (low : List ResetRail) (r : Rail) : List ResetRail :=
  match r with
  | .vcore => low.filter (· != .vcore)
  | .vio18 => low.filter (· != .vio18)
  | _ => low

theorem mem_lowWithout (low : List ResetRail) (x : ResetRail) :
    x ∈ lowWithout low r ↔ x ∈ low ∧ ¬ ((x = .vcore ∧ r = .vcore) ∨ (x = .vio18 ∧ r = .vio18)) := by
  cases r <;> simp [lowWithout]

theorem Die.keepStarts_runs (h : e.runs .keep = true ∨ (r = .vio18 ∧ e.boot.low.contains .vio18 = true)) :
    (e.keepStarts r).runs .keep = true := by
  unfold Die.keepStarts
  split
  · simp [Die.runs]
  · next hn => exact h.resolve_right hn

/-- A rail is back while KEEP runs, or brings KEEP back (R429). -/
theorem Die.supplyRestore_eq (h : e.runs .keep = true ∨ (r = .vio18 ∧ e.boot.low.contains .vio18 = true)) :
    e.supplyRestore r = (((e.keepStarts r).railSet r true).supOk).updBoot fun b => { b with low := lowWithout b.low r } := by
  refine (if_neg ?_).trans ?_
  · have := e.keepStarts_runs r h
    rw [Die.keepStarts] at this
    rw [this]
    exact Bool.false_ne_true
  · cases r <;> rfl

theorem Die.keepStarts_boot : (e.keepStarts r).boot = e.boot ∧ (e.keepStarts r).eng = e.eng := by
  unfold Die.keepStarts
  split <;> exact ⟨rfl, rfl⟩

/-- A rail that is back shows OK, and no longer holds the die in reset (R429). -/
theorem Die.supplyRestore_back (h : e.runs .keep = true ∨ (r = .vio18 ∧ e.boot.low.contains .vio18 = true)) :
    (e.supplyRestore r).bitAt F.BTL_SUPPLY_OK (railBit r) = true ∧
    (∀ x, x ∈ (e.supplyRestore r).boot.low ↔ x ∈ e.boot.low ∧ ¬ ((x = .vcore ∧ r = .vcore) ∨ (x = .vio18 ∧ r = .vio18))) ∧
    (e.supplyRestore r).eng = e.eng := by
  obtain ⟨f, hf⟩ := (e.keepStarts r).hidden_railSet r true
  obtain ⟨hboot, heng⟩ := e.keepStarts_boot r
  have hb : ((e.keepStarts r).railSet r true).boot = e.boot := (Die.of_hidden Die.boot (fun _ => rfl) hf).trans hboot
  have he : ((e.keepStarts r).railSet r true).eng = e.eng := (Die.of_hidden Die.eng (fun _ => rfl) hf).trans heng
  rw [e.supplyRestore_eq r h]
  refine ⟨?_, fun x => ?_, he⟩
  · have hok := (e.keepStarts r).railSet_ok r true
    rwa [Die.bitAt, ← Die.fld_of_reg (Die.reg_supOk ((e.keepStarts r).railSet r true) (a := R.BTL_SUPPLY) (by decide))] at hok
  · rw [← hb]
    exact mem_lowWithout r _ x

end

end Sys2Proof.Machine
end

