-- ==== Sys2Proof/Proofs/DieResets.lean ====
section
/-! SUPPORT. The commands that reset a die, drive its flash port, and follow its plug and its rails, from what each of them leaves
of the die and of its partner (R298, R299, R409, R418 to R430, R454). -/

namespace Sys2Proof.Machine

/-- A command that acts in its domain on either die, and here on one alone. -/
theorem ChangesIn.of_goIn {i : Instr} {s : State} {d : DieId} {m : Dom} {f : State → State} {g : Die → Die}
    (h : exec i s = .next (s.goIn m d f)) (hf : f s = s.setDie d (g (s.die d))) : ChangesIn m i s d g := by
  unfold ChangesIn Changes
  rw [h]
  unfold State.goIn
  exact ⟨fun hr => by rw [if_pos hr, hf], fun hr => by rw [if_neg (by simp [hr])]⟩

/-- What a command answers decides what is claimed of it. -/
theorem Completes.of_eq {i : Instr} {s t : State} {P : State → Prop} (h : exec i s = .next t) (hp : P t) : Completes i s P :=
  ⟨t, h, hp⟩

section
variable (s : State) (d : DieId)

/-- The loss of VCORE resets the die, clears its OK, and holds it in reset (R429). -/
theorem State.vcoreLost (h : (s.die d).runs .keep = true ∨ (s.die d).frzState = 3) : s.supplyReset d .vcore =
    (s.resetDie d false).upd d fun e => ((e.setBitAt F.BTL_SUPPLY_OK 0 false).supOk).updBoot fun b => { b with
      low := .vcore :: b.low.filter (· != .vcore) } := by
  refine if_neg ?_
  simpa [imp_iff_not_or] using h

/-- With KEEP standing and no freeze the monitor of VCORE does not see it (R451, R454). -/
theorem State.vcoreUnseen (hr : (s.die d).runs .keep = false) (hf : (s.die d).frzState ≠ 3) : s.supplyReset d .vcore = s := by
  refine if_pos ?_
  simp [hr, hf]

/-- A card seated again ends a LEAVING that has not ended (R426, R428). -/
theorem State.seated_eq : s.seated d =
    (if (s.die d).fld F.BTL_PLUG_STATE = 5 ∧ (s.die d).bootStep ≠ 0 then s.resetDie d false else s).upd d fun e =>
      if (s.die d).fld F.BTL_PLUG_STATE = 0 ∨ (s.die d).fld F.BTL_PLUG_STATE = 5 then
        (e.setPlug 1).setFld F.BTL_PLUG_SEATED 1 else e := rfl

/-- A fresh die's loader stands at STEP 0. -/
theorem Die.Fresh.bootStep_eq {e n : Die} (h : e.Fresh false n) : n.bootStep = 0 := by
  unfold Die.bootStep Die.fld
  rw [h.regs _ (by decide) (by decide) (by decide) (by decide) (fun hb => absurd hb Bool.false_ne_true)]
  decide

/-- A card is seated: the plug manager shows it, and the die is in reset (R426, R428). -/
theorem State.seated_die (h : (s.die d).fld F.BTL_PLUG_STATE = 0 ∨ (s.die d).fld F.BTL_PLUG_STATE = 5) :
    ((s.seated d).die d).fld F.BTL_PLUG_STATE = 1 ∧ ((s.seated d).die d).bit F.BTL_PLUG_SEATED = true ∧
    ((s.die d).fld F.BTL_PLUG_STATE = 5 → ((s.seated d).die d).bootStep = 0) ∧
    ((s.die d).fld F.BTL_PLUG_STATE = 0 ∨ (s.die d).bootStep = 0 →
      ((s.seated d).die d).boot = (s.die d).boot ∧ (s.seated d).die d.other = s.die d.other) := by
  have hstep (x : Die) : ((x.setPlug 1).setFld F.BTL_PLUG_SEATED 1).bootStep = x.bootStep :=
    Die.fld_of_reg ((Die.reg_setFld_other _ (by decide) 1).trans (x.reg_setPlug (by decide) (by decide) 1))
  have hboot (x : Die) : ((x.setPlug 1).setFld F.BTL_PLUG_SEATED 1).boot = x.boot :=
    Die.of_hidden Die.boot (fun _ => rfl) (x.hidden_setPlug 1)
  rw [State.seated_eq, State.die_upd_self, State.die_upd_other, if_pos h, hstep, hboot]
  refine ⟨?_, ?_, fun h5 => ?_, fun h0 => ?_⟩
  · rw [Die.fld_setFld_other _ _ _ (Fld.fits_of rfl) _ (by decide), Die.setPlug_state _ (by decide)]
  · rw [Die.bit_setFld_self _ (Fld.fits_of rfl)]
    rfl
  · split
    · exact (s.resetDie_fresh d false).bootStep_eq
    · next hn => exact not_not.1 fun hne => hn ⟨h5, hne⟩
  · rw [if_neg]
    · exact ⟨rfl, rfl⟩
    · rintro ⟨h5, hne⟩
      rcases h0 with h0 | h0
      · rw [h0] at h5
        exact absurd h5 (by decide)
      · exact hne h0

/-- A card leaves: the plug manager shows it, `DWN` asserts, and both ports fall (R427). -/
theorem State.leaving_die (h1 : 1 ≤ (s.die d).fld F.BTL_PLUG_STATE) (h4 : (s.die d).fld F.BTL_PLUG_STATE ≤ 4) :
    ((s.leaving d).die d).fld F.BTL_PLUG_STATE = 5 ∧ ((s.leaving d).die d).bit F.BTL_PLUG_SEATED = false ∧
    ((s.leaving d).die d).bit F.PAIR_FENCE_DOUT = true ∧
    ((s.die d.other).runs .keep = true → ((s.leaving d).die d.other).bit F.PAIR_FENCE_DIN = true) ∧
    (∀ p : PortId, ((s.leaving d).die d).bit (F.CHNX_CTRL_EN p.idx) = false ∧
      ((s.leaving d).die d).portState p = if (s.die d).portState p = St.on ∨ (s.die d).portState p = St.rising then St.falling
        else (s.die d).portState p) := by
  rw [s.leaving_of d h1 h4, State.die_upd_self, State.die_upd_other]
  have hplug : ((s.down d).die d).leaves.reg R.BTL_PLUG =
      ((((s.down d).die d).setPlug 5).setFld F.BTL_PLUG_SEATED 0).reg R.BTL_PLUG :=
    Die.reg_leaves _ (by decide) (by decide) (by decide)
  refine ⟨?_, ?_, ?_, (s.down_heard d).din, fun p => ?_⟩
  · rw [Die.fld_of_reg (Die.reg_logEv _ (by decide) (by decide) ..), Die.fld_of_reg hplug,
      Die.fld_setFld_other _ _ _ (Fld.fits_of rfl) _ (by decide), Die.setPlug_state _ (by decide)]
  · rw [Die.bit_of_reg (Die.reg_logEv _ (by decide) (by decide) ..), Die.bit_of_reg hplug,
      Die.bit_setFld_self _ (Fld.fits_of rfl)]
    rfl
  · rw [Die.bit_of_reg (Die.reg_logEv _ (by decide) (by decide) ..),
      Die.bit_of_reg (Die.reg_leaves _ (by decide) (by decide) (by decide)),
      Die.bit_of_reg (Die.reg_setFld_other _ (by decide) 0),
      Die.bit_of_reg (Die.reg_setPlug _ (by decide) (by decide) 5), s.down_dout]
  · have hlog : R.CHNX_CTRL p.idx / 0x1000 ≠ R.LOG_CTRL / 0x1000 := by cases p <;> decide
    have hfence : R.CHNX_CTRL p.idx ≠ R.PAIR_FENCE := by cases p <;> decide
    have hst : ((s.down d).die d).portState p = (s.die d).portState p := Die.fld_of_reg (s.down_reg d hfence)
    rw [Die.bit_of_reg (Die.reg_logEv _ hlog (by decide) ..), Die.portState,
      Die.fld_of_reg (Die.reg_logEv _ hlog (by decide) ..), ← Die.portState, ← hst]
    exact Die.leaves_port _ p

/-- A rail out of its window is noted, and VCORE asserts `DWN` (R299, R429). -/
theorem State.supplyWarn_die (r : Rail) :
    ((s.supplyWarn d r).die d).bitAt F.BTL_SUPPLY_OK (railBit r) = false ∧
    ((s.supplyWarn d r).die d).bitAt F.BTL_SUPPLY_WARN (railBit r) = true ∧
    ((s.supplyWarn d r).die d).bit F.BTL_PLUG_SUPOK = false ∧
    (r ≠ .vcore → (s.supplyWarn d r).die d.other = s.die d.other) ∧
    (r = .vcore → ((s.supplyWarn d r).die d).bit F.PAIR_FENCE_DOUT = true) := by
  obtain ⟨hok, hwarn, hsup⟩ := (s.die d).railWarned_supply r
  have hdie : (s.upd d (·.railWarned r)).die d = (s.die d).railWarned r := State.die_upd_self ..
  rw [State.supplyWarn_eq]
  by_cases hr : r = .vcore
  · rw [if_pos hr]
    have hsupply := (s.upd d (·.railWarned r)).down_reg d (a := R.BTL_SUPPLY) (by decide)
    have hplug := (s.upd d (·.railWarned r)).down_reg d (a := R.BTL_PLUG) (by decide)
    rw [hdie] at hsupply hplug
    refine ⟨?_, ?_, ?_, fun h => absurd hr h, fun _ => State.down_dout ..⟩
    · rw [Die.bitAt, Die.fld_of_reg hsupply, ← Die.bitAt, hok]
    · rw [Die.bitAt, Die.fld_of_reg hsupply, ← Die.bitAt, hwarn]
    · rw [Die.bit_of_reg hplug, hsup]
  · rw [if_neg hr, hdie]
    exact ⟨hok, hwarn, hsup, fun _ => State.die_upd_other .., fun h => absurd h hr⟩

end

/-- Settles O39: the resets from what a fresh die holds, the flash port by the forms of GO, and the plug and the rails field by
field. -/
theorem dieResetsAndSupplies : Obligations.DieResetsAndSupplies := by
  refine ⟨fun d rb s _ => ?_, fun d v data r c s => ?_⟩
  · intro e p fresh
    have fresh_of {b : Bool} {t : State} (h : e.Fresh b (t.die d)) (ho : p.HearsDown (t.die d.other)) : fresh b t :=
      ⟨h.eng, h.yard, h.mem, h.cpus, h.posted, h.frz, h.dout, ho.din, h.trial, h.logMem, h.tick, h.regs,
        Die.of_hidden Die.eng (fun _ => rfl) ho.hidden, Die.of_hidden Die.yard (fun _ => rfl) ho.hidden,
        Die.of_hidden Die.mem (fun _ => rfl) ho.hidden⟩
    have reset (b : Bool) : fresh false (s.resetDie d b) := fresh_of (s.resetDie_fresh d b) (s.resetDie_heard d b)
    refine ⟨.of_eq rfl (reset rb), fun h5 => .of_goIn rfl fun _ => ?_, fun h5 => ?_, fun h3 => ?_,
      fun hk => .of_goIn rfl fun _ => ?_, fun hk => ?_, fun h => ?_, fun hr hf => ?_⟩
    · rw [if_pos h5]
      exact reset false
    · exact .of_goIn rfl ((if_neg h5).trans (s.setDie_self d).symm)
    · refine .of_eq (congrArg Host.Outcome.next (if_pos h3)) (fresh_of ?_ ?_)
      · rw [State.die_upd_self]
        exact (s.resetDie_fresh d false).rdo _
      · rw [State.die_upd_other]
        exact s.resetDie_heard d false
    · rw [State.reboot, if_pos hk]
      obtain ⟨hfresh, hstep, href, htim⟩ := s.rebootDie_die d
      exact ⟨fresh_of hfresh (s.rebootDie_heard d), hstep, href, htim⟩
    · exact .of_goIn rfl ((if_neg (by simp [show (s.die d).boot.key = false from hk])).trans (s.setDie_self d).symm)
    · refine .of_eq (congrArg Host.Outcome.next (s.vcoreLost d h)) ⟨fresh_of ?_ ?_, ?_⟩
      · rw [State.die_upd_self]
        exact (((s.resetDie_fresh d false).setKept _ (by decide) (by decide) (by decide) (by decide)).setKept _ (by decide)
          (by decide) (by decide) (by decide)).updBoot _
      · rw [State.die_upd_other]
        exact s.resetDie_heard d false
      · rw [State.die_upd_self]
        exact List.mem_cons_self
    · exact congrArg Host.Outcome.next (s.vcoreUnseen d hr hf)
  · intro e good st
    refine ⟨fun h => ?_, fun h _ => ⟨fun hg => ?_, fun hg => ?_⟩, fun h => ?_, fun h _ => ?_, fun h _ => ?_, fun h0 h5 => ?_,
      fun h1 hok _ => ?_, fun h => ?_, fun h1 h4 _ => ?_, fun _ => ?_, fun _ h => ?_⟩
    · exact (ChangesIn.of_updIn rfl).congr fun _ => e.flashCommand_quiet v h
    · have takes : e.flashTakes v := hg
      refine (ChangesIn.of_updIn (f := (·.flashCommand v)) rfl).to fun _ => ?_
      rw [State.die_setDie_self, State.die_setDie_other, (s.die d).flashCommand_taken v h takes]
      refine ⟨?_, ⟨_, rfl, e.reg_flashNoted v (by decide), rfl, rfl⟩, rfl, rfl⟩
      rw [Die.updBoot_bit, Die.bit_setFld_self _ (Fld.fits_of rfl)]
      rfl
    · have refused : ¬ e.flashTakes v := hg
      refine (ChangesIn.of_updIn (f := (·.flashCommand v)) rfl).to fun _ => ?_
      rw [State.die_setDie_self, State.die_setDie_other, (s.die d).flashCommand_refused v h refused]
      refine ⟨?_, rfl, rfl, rfl⟩
      rw [Die.bit_setFld_self _ (Fld.fits_of rfl)]
      rfl
    · refine (ChangesIn.of_updIn rfl).congr fun _ => ?_
      rw [Die.flashDone, h]
    · refine (ChangesIn.of_updIn (f := (·.flashDone data)) rfl).to fun _ => ?_
      rw [State.die_setDie_self, State.die_setDie_other]
      exact ⟨Die.flashDone_flash h data, Die.flashDone_busy h data, Die.flashDone_done h data,
        fun k _ hc hd hw _ => Die.flashDone_byte h hc hd hw, rfl⟩
    · exact .of_goIn rfl fun _ => s.seated_die d h
    · refine .of_goIn rfl ?_
      rw [State.seated_eq, if_neg fun hn => h5 hn.1, State.upd, if_neg fun hn => hn.elim h0 h5]
    · have powers : ChangesIn .keep (.plugPowered d) s d (·.setPlug 2) := (ChangesIn.of_updIn rfl).congr fun _ => if_pos ⟨h1, hok⟩
      refine powers.to fun _ => ?_
      rw [State.die_setDie_self, State.die_setDie_other]
      exact ⟨Die.setPlug_state _ (by decide), Die.of_hidden Die.boot (fun _ => rfl) (e.hidden_setPlug 2), rfl⟩
    · exact (ChangesIn.of_updIn rfl).congr fun _ => if_neg fun hn => h.elim (fun h => h hn.1) (fun h => h hn.2)
    · exact .of_goIn rfl fun _ => s.leaving_die d h1 h4
    · exact .of_goIn rfl fun _ => s.supplyWarn_die d r
    · refine .of_eq rfl ?_
      rw [State.die_upd_self, State.die_upd_other]
      obtain ⟨hok, hlow, heng⟩ := e.supplyRestore_back r h
      exact ⟨hok, hlow, heng, rfl⟩

end Sys2Proof.Machine
end

