-- ==== Sys2Proof/Proofs/CopyMoves.lean ====
section
/-! SUPPORT. What the state copy moves between dies: the registers and tiles of a seat's course, the bytes of SHARED, and a row of
the yard (R117, R118, R122, R123, R305, R392). -/

namespace Sys2Proof.Machine

/-! ### Rows of a tile -/

section
variable (x p : Course) (t row : Nat)

/-- A tile's rows after a write of one of them. -/
theorem Course.tileRow_setTileRow (h1 : 1 ≤ t) (h7 : t ≤ 7) (v : Row) (i : Nat) :
    (x.setTileRow t row v).tileRow t i = if row = i then v else x.tileRow t i := by
  interval_cases t <;> exact SMap.get_set rowDflt _ row v i

/-- The first `n` of the rows that `takeBlock` brings. -/
def Course.takeRows (x p : Course) (t first n : Nat) : Course :=
  (List.range n).foldl (fun x i => x.setTileRow t (first + i) (p.tileRow t (first + i))) x

theorem Course.takeBlock_eq (first : Nat) : x.takeBlock p t first = x.takeRows p t first 64 := rfl

theorem Course.takeRows_succ (first n : Nat) : x.takeRows p t first (n + 1) =
    (x.takeRows p t first n).setTileRow t (first + n) (p.tileRow t (first + n)) := by
  simp only [Course.takeRows, List.range_succ, List.foldl_append, List.foldl_cons, List.foldl_nil]

/-- Rows taken from another course are its rows; every other stays. -/
theorem Course.tileRow_takeRows (h1 : 1 ≤ t) (h7 : t ≤ 7) (first n i : Nat) : (x.takeRows p t first n).tileRow t i =
    if first ≤ i ∧ i < first + n then p.tileRow t i else x.tileRow t i := by
  induction n with
  | zero => exact (if_neg (by omega)).symm
  | succ n ih =>
    rw [Course.takeRows_succ, Course.tileRow_setTileRow _ _ _ h1 h7, ih]
    by_cases hi : first + n = i
    · rw [if_pos hi, if_pos (by omega), hi]
    · rw [if_neg hi]
      exact if_congr (by omega) rfl rfl

/-- The tiles that phase 4 copies are tiles of a course. -/
theorem copyTile_bounds (tl : Fin 3) : 1 ≤ copyTile tl ∧ copyTile tl ≤ 7 := by
  revert tl
  decide

/-! ### What a course delivers -/

/-- A course without marks delivers what it holds. -/
theorem Course.delivered_of_unmarked (h : x.bad = []) : x.delivered = x := by
  rw [Course.delivered, h]
  rfl

/-- The registers that a copy brings do not depend on the rows of the tiles. -/
theorem Course.takeRegs_setTileRow (v : Row) : x.takeRegs (p.setTileRow t row v) = x.takeRegs p := by
  unfold Course.setTileRow
  dsimp only
  split <;> rfl

/-- Nor on how the tiles are delivered. -/
theorem Course.takeRegs_delivered : x.takeRegs p.delivered = x.takeRegs p := by
  unfold Course.delivered
  refine List.foldlRecOn (motive := fun y => x.takeRegs y = x.takeRegs p) _ _ rfl fun y hy m _ => ?_
  split
  · exact hy
  · rw [Course.takeRegs_setTileRow, hy]

end

/-! ### A seat's course -/

section
variable (e lead : Die) {seat : Fin 24} {c k : Fin 28}

theorem Die.course_updCourse_other {o : Fin 28} (h : o ≠ c) (f : Course → Course) : (e.updCourse c f).course o = e.course o :=
  e.course_setCourse_other c h _

/-- A seat that both dies map takes from the lead's course, as its tiles deliver it. -/
theorem Die.takeSeat_of_mapped (hc : e.seatCourse seat = some c) (hk : lead.seatCourse seat = some k)
    (f : Course → Course → Course) :
    e.takeSeat lead seat f = e.updCourse c fun x => f x (lead.course k).delivered := by
  unfold Die.takeSeat
  rw [hc, hk]

/-- Reads of a course without marks leave no mark. -/
theorem Die.giveSeat_of_unmarked (hk : e.seatCourse seat = some k) (hb : (e.course k).bad = []) (ts : Nat → Bool) :
    e.giveSeat seat ts = e := by
  unfold Die.giveSeat Die.readMarked
  rw [hk]
  simp only [hb, List.foldl_nil]

/-! ### Registers -/

/-- Registers taken from the lead are its own; every other stays. -/
theorem Die.reg_takeRegs (rs : List Nat) (a : Nat) :
    (e.takeRegs lead rs).reg a = if a ∈ rs then lead.reg a else e.reg a := by
  induction rs generalizing e with
  | nil => rfl
  | cons r rs ih =>
    rw [Die.takeRegs, List.foldl_cons, ← Die.takeRegs, ih, Die.reg_setReg]
    by_cases hr : r = a
    · subst hr
      simp
    · simp [hr, Ne.symm hr]

/-- Nothing but registers changes. -/
theorem Die.takeRegs_regs (rs : List Nat) : ∃ r, e.takeRegs lead rs = { e with regs := r } := by
  induction rs generalizing e with
  | nil => exact ⟨e.regs, rfl⟩
  | cons r rs ih => exact ih (e.setReg r (lead.reg r))

end

/-! ### Bytes of SHARED -/

section
variable (m : Mem) (e lead : Die) (a v n : Nat)

/-- A byte of what a load gives. -/
theorem Mem.byte_load {i : Nat} (hi : i < n) :
    BitVec.ofNat 8 (m.load a n / 256 ^ i) = SMap.get byteDflt m.bytes (a + i) := by
  induction n generalizing a i with
  | zero => omega
  | succ n ih =>
    have hlt := (SMap.get byteDflt m.bytes a).isLt
    rw [Mem.load]
    cases i with
    | zero =>
      apply BitVec.eq_of_toNat_eq
      rw [BitVec.toNat_ofNat, pow_zero, Nat.div_one, Nat.add_zero a]
      omega
    | succ i =>
      rw [Nat.pow_succ', ← Nat.div_div_eq_div_mul, Nat.add_mul_div_left _ _ (by omega), Nat.div_eq_of_lt hlt, Nat.zero_add,
        ih (a + 1) (by omega), show a + 1 + i = a + (i + 1) by omega]

/-- A write stores its bytes, whatever it does to the mark of its word. -/
theorem Mem.get_write (b : Nat) : SMap.get byteDflt (m.write a v n).bytes b =
    if a ≤ b ∧ b < a + n then BitVec.ofNat 8 (v / 256 ^ (b - a)) else SMap.get byteDflt m.bytes b := by
  rw [← Mem.get_store, Mem.write]
  split <;> rfl

/-- A memory without marks has none after a write. -/
theorem Mem.write_unmarked (h : m.bad = []) : (m.write a v n).bad = [] := by
  unfold Mem.write
  split
  · rw [Mem.setMark, Mem.store_bad, h]
    rfl
  · rw [Mem.store_bad, h]

/-- The bytes of another memory, written as one number. -/
theorem Mem.get_write_load (q : Mem) (b : Nat) : SMap.get byteDflt (m.write a (q.load a n) n).bytes b =
    if a ≤ b ∧ b < a + n then SMap.get byteDflt q.bytes b else SMap.get byteDflt m.bytes b := by
  rw [Mem.get_write]
  refine if_ctx_congr Iff.rfl (fun hb => ?_) fun _ => rfl
  rw [Mem.byte_load q a n (by omega), Nat.add_sub_cancel' hb.1]

variable {e lead}

/-- A good word reads as it stands, and its read leaves no mark (R392). -/
theorem Die.memRead_of_unmarked (h : e.mem.bad = []) (master : Nat) : e.memRead master a n none = (some (e.mem.load a n), e) := by
  have hmark : e.mem.mark a = 0 := by
    rw [Mem.mark, h]
    rfl
  simp [Die.memRead, hmark]

theorem Die.bridgeRead_of_unmarked (h : e.mem.bad = []) : e.bridgeRead a n = (e.mem.load a n, e) := by
  rw [Die.bridgeRead, Die.memRead_of_unmarked a n h]

/-- Good words are written at once, the read of a read-modify-write with them (R392). -/
theorem Die.bridgeWrite_of_unmarked (h : e.mem.bad = []) : e.bridgeWrite a v n = e.memWrite a v n := by
  unfold Die.bridgeWrite Die.memStore
  by_cases h8 : n = 8
  · simp [h8]
  · simp [h8, Die.memRead_of_unmarked _ 8 h]

/-- Good bytes of SHARED come from the lead word by word, where the steps suffice for the words they lie in; the lead stays. -/
theorem Die.copyBytes_of_unmarked (words : Nat) (h : e.mem.bad = []) (hl : lead.mem.bad = []) (hr : a + n ≤ 0x600000)
    (hk : n = 0 ∨ a % 8 + n ≤ 8 * words) : ∃ m : Mem, Die.copyBytes words (e, lead) a n = ({ e with mem := m }, lead) ∧
      ∀ b : Nat, SMap.get byteDflt m.bytes b =
        if a ≤ b ∧ b < a + n then SMap.get byteDflt lead.mem.bytes b else SMap.get byteDflt e.mem.bytes b := by
  induction words generalizing e a n with
  | zero => exact ⟨e.mem, rfl, fun b => (if_neg (by omega)).symm⟩
  | succ k ih =>
    rw [Die.copyBytes]
    by_cases hn : n = 0
    · exact ⟨e.mem, if_pos (.inl (by omega)), fun b => (if_neg (by omega)).symm⟩
    · have hin : inMem a = true := decide_eq_true (by omega)
      obtain ⟨q, hq⟩ : ∃ q, min n (8 - a % 8) = q := ⟨_, rfl⟩
      have hgo : ¬ (q = 0 ∨ (!inMem a) = true) := by
        rw [hin]
        rintro (h0 | h0)
        · omega
        · exact absurd h0 (by decide)
      simp only [hq, if_neg hgo, Die.bridgeRead_of_unmarked _ _ hl, Die.bridgeWrite_of_unmarked _ _ _ h]
      obtain ⟨m, hm, hbytes⟩ := ih (e := e.memWrite a (lead.mem.load a q) q) (a + q) (n - q) (Mem.write_unmarked _ _ _ _ h)
        (by omega) (by omega)
      refine ⟨m, hm, fun b => ?_⟩
      rw [hbytes, Die.memWrite_mem, Mem.get_write_load]
      by_cases hb : b < a + q
      · rw [if_neg (by omega)]
        exact if_congr (by omega) rfl rfl
      · rw [if_neg (c := a ≤ b ∧ b < a + q) (by omega)]
        exact if_congr (by omega) rfl rfl

end

/-! ### A row of the yard -/

section
variable (e lead : Die) (row : BitVec 22)

/-- A row of the yard that is read without error, outside a background test and a remap, with no write of YARDW between its
grants. -/
structure Die.PlainRow : Prop where
  unborrowed : e.yard.borrowed (e.yard.key row) = none
  written : e.yard.unwritten = false
  unmarked : SMap.get markDflt e.yard.bad (e.yard.key row) = 0
  unmapped : e.fld (F.YRD_REMAP_PHASE (bankOf row)) = 0

variable {e lead row}

/-- A use of a grant leaves a row plain. -/
theorem Die.PlainRow.useGrant (h : e.PlainRow row) (b : Fin 4) : (e.useGrant b).PlainRow row :=
  ⟨h.unborrowed, h.written, h.unmarked, h.unmapped⟩

/-- Outside a background test nothing is touched. -/
theorem Die.touchTest_of_unborrowed {key : Nat} (h : e.yard.borrowed key = none) : e.touchTest key = e := by
  unfold Die.touchTest
  rw [h]

/-- A plain row reads as it stands, and its read leaves nothing (R122, R123). -/
theorem Die.PlainRow.readYard (h : e.PlainRow row) (req : Nat) :
    e.readYard row req [] = (SMap.get rowDflt e.yard.rows (e.yard.key row), e) := by
  have hw : e.yard.isUnwritten row.toNat = false := by simp [Yard.isUnwritten, h.written]
  have hrow : e.yard.rowAt (e.yard.key row) = SMap.get rowDflt e.yard.rows (e.yard.key row) := by
    rw [Yard.rowAt, h.unborrowed]
  have hmark : addMarks (SMap.get markDflt e.yard.bad (e.yard.key row)) [] = 0 := h.unmarked
  simp only [Die.readYard, hw, hmark, hrow, eccRow_unmarked, Die.touchTest_of_unborrowed h.unborrowed, Bool.false_eq_true,
    if_true, if_false]

/-- A write of a plain row writes it, with good check bits. -/
def Yard.rewrite (y : Yard) (key : Nat) (v : Row) : Yard := { y with
  bad := SMap.set markDflt y.bad key 0
  fixes := y.fixes.filter (· ≠ key)
  rmws := y.spoil key
  rows := SMap.set rowDflt y.rows key v }

theorem Die.PlainRow.writeYard (h : e.PlainRow row) (v : Row) :
    e.writeYard row v = e.updYard (·.rewrite (e.yard.key row) v) := by
  have hput : e.yard.putRowAt (e.yard.key row) v 0 = e.yard.rewrite (e.yard.key row) v := by
    have hb : ({ e.yard with
        bad := SMap.set markDflt e.yard.bad (e.yard.key row) 0
        fixes := e.yard.fixes.filter (· ≠ e.yard.key row)
        rmws := e.yard.spoil (e.yard.key row) } : Yard).borrowed (e.yard.key row) = none := h.unborrowed
    unfold Yard.putRowAt
    simp only [hb]
    rfl
  have hkeep (y : Yard) (hy : y.unwritten = false) :
      (if y.unwritten && !y.rewritten.contains row.toNat then row.toNat :: y.rewritten else y.rewritten) = y.rewritten :=
    if_neg (by simp [hy])
  have hmirror (x : Die) (hx : x.fld (F.YRD_REMAP_PHASE (bankOf row)) = 0) (key : Nat) : x.mirror (bankOf row) key = x := by
    simp [Die.mirror, hx]
  calc e.writeYard row v
      = (e.updYard (·.rewrite (e.yard.key row) v)).mirror (bankOf row) (e.yard.key row) := by
        unfold Die.writeYard Die.putYard
        dsimp only
        rw [Die.touchTest_of_unborrowed h.unborrowed, Die.updYard, hput, hkeep (e.yard.rewrite (e.yard.key row) v) h.written]
        rfl
    _ = _ := hmirror (e.updYard _) h.unmapped _

/-- A row that is plain at both dies is copied in one grant of its bank at each (R117, R118). -/
theorem Die.PlainRow.copyRow (h : e.PlainRow row) (hl : lead.PlainRow row) : Die.copyRow (e, lead) row =
    ((e.useGrant (bankOf row)).updYard (·.rewrite (e.yard.key row) (SMap.get rowDflt lead.yard.rows (lead.yard.key row))),
      lead.useGrant (bankOf row)) := by
  simp only [Die.copyRow, (hl.useGrant _).readYard, (h.useGrant _).writeYard]
  rfl

/-- A granted bank has been served. -/
theorem Die.useGrant_served {b : Fin 4} {r : Requester} (h : e.yard.grants[b] = some (some r)) :
    (e.useGrant b).yard = { e.yard with grants := e.yard.grants.set b.val (some none) } := by
  rw [Die.useGrant, Die.updYard_yard, h]
  rfl

/-- Where a bank arbitrates, one row is served of a run. -/
theorem Die.copyServes_of_granted {r : Requester} (h : e.yard.grants[bankOf row] = some (some r)) {n : Nat} (hn : 1 ≤ n) :
    e.copyServes lead row n = 1 := by
  have ha : e.arbitrated (bankOf row) = true := by rw [Die.arbitrated, h]; rfl
  simp only [Die.copyServes, ha, Bool.true_or, if_true]
  omega

/-- A grant of the state copy lets it copy. -/
theorem Die.copyGranted_of_granted (h : e.yard.grants[bankOf row] = some (some .stateCopy)) : e.copyGranted row = true := by
  rw [Die.copyGranted, Die.granted, h]
  rfl

end

end Sys2Proof.Machine
end

