-- ==== Sys2Proof/Proofs/CopyCommands.lean ====
section
/-! SUPPORT. The commands of the state copy: what STATE_COPY_BLOCK moves to a joiner and what COPY_CHANGE_REPEAT makes there
(R117, R118, R285, R305, R306, R308). -/

namespace Sys2Proof.Machine

/-! ### What the joiner notes (R305) -/

section
variable (e : Die)

/-- LEFT lies in PAIR_COPY. -/
theorem Die.reg_leftFollows {a : Nat} (h : R.PAIR_COPY ≠ a) : e.leftFollows.reg a = e.reg a :=
  e.reg_setFld_other h _

/-- And apart from PHASE. -/
@[simp] theorem Die.phase_leftFollows : e.leftFollows.fld F.PAIR_COPY_PHASE = e.fld F.PAIR_COPY_PHASE :=
  e.fld_setFld_other _ _ (Fld.fits_of rfl) _ (by decide)

variable (item : CopyItem) (rows : List (BitVec 22))

/-- A joiner that has been brought an item has noted it. -/
def Die.noting (e : Die) (item : CopyItem) (rows : List (BitVec 22)) : Die :=
  (e.updPair fun p => { p with copy := p.copy.took item rows }).leftFollows

theorem Die.reg_noting {a : Nat} (h : R.PAIR_COPY ≠ a) : (e.noting item rows).reg a = e.reg a :=
  Die.reg_leftFollows _ h

theorem Die.phase_noting : (e.noting item rows).fld F.PAIR_COPY_PHASE = e.fld F.PAIR_COPY_PHASE :=
  Die.phase_leftFollows _

/-- The course of a seat that has come has changed, and no other. -/
theorem Die.course_noting_updCourse (c : Fin 28) (f : Course → Course) :
    ((e.updCourse c f).noting item rows).course c = f (e.course c) ∧
      ∀ o : Fin 28, o ≠ c → ((e.updCourse c f).noting item rows).course o = e.course o :=
  ⟨e.course_updCourse_self c f, fun _ ho => e.course_updCourse_other ho f⟩

theorem Die.eng_noting : (e.noting item rows).eng = e.eng := rfl

theorem Die.chn_noting : (e.noting item rows).chn = e.chn := rfl

theorem Die.copy_noting : (e.noting item rows).pair.copy = e.pair.copy.took item rows := rfl

end

/-! ### STATE_COPY_BLOCK -/

section
variable {s : State} {d : DieId} {item : CopyItem}

theorem State.die_setDie_of_other (s : State) (d : DieId) (x : Die) : (s.setDie d.other x).die d = s.die d := by
  cases d <;> rfl

/-- What is claimed of the next state may be weakened. -/
theorem Completes.mono {i : Instr} {P Q : State → Prop} (h : Completes i s P) (hpq : ∀ t, P t → Q t) : Completes i s Q := by
  obtain ⟨t, ht, hp⟩ := h
  exact ⟨t, ht, hpq t hp⟩

/-- A joiner can copy: the link is up, no block of the copy was lost, and both dies' ENG runs (R285, R305). -/
structure State.Copies (s : State) (d : DieId) : Prop where
  linked : s.linked = true
  lossless : (s.die d).pair.lossy.contains .copy = false
  joins : (s.die d).role = Role.join
  runs : (s.die d).runs .eng = true
  leadRuns : (s.die d.other).runs .eng = true

/-- While the link is down nothing passes the party wall. -/
theorem State.wall_unlinked (h : s.linked = false) (c : PwClass) (f : Die → Die) : s.wall d c f = s := by
  rw [State.wall, h]
  rfl

/-- What is not lost makes its change. -/
theorem State.wall_of_lossless (h : s.linked = true) {c : PwClass} (hl : (s.die d).pair.lossy.contains c = false)
    (f : Die → Die) : s.wall d c f = s.upd d f := by
  simp only [State.wall, h, hl, Bool.not_true, Bool.false_eq_true, if_false]

/-- A block that no die takes or gives changes nothing. -/
theorem Changes.of_unmoved (hl : (s.die d).pair.lossy.contains .copy = false)
    (h : (s.die d).copyBlock (s.die d.other) item = (s.die d, s.die d.other)) :
    Changes (.stateCopyBlock d item) s d fun e => e := by
  have hsame : s.stateCopy d item = s := by
    unfold State.stateCopy
    split
    · rfl
    · next hgo =>
      have hlinked : s.linked = true := by
        cases hk : s.linked
        · exact absurd (by simp [hk]) hgo
        · rfl
      simp only [State.wall_of_lossless hlinked hl, h, State.upd]
      rw [State.setDie_self, State.setDie_self]
  rw [Changes, exec_stateCopyBlock, execStateCopyBlock, hsame, State.setDie_self]

theorem Changes.of_unlinked (h : s.linked = false) : Changes (.stateCopyBlock d item) s d fun e => e := by
  rw [Changes, exec_stateCopyBlock, execStateCopyBlock, State.stateCopy, h, State.setDie_self]
  rfl

/-- An item that the joiner does not take, or that cannot be copied now, is not moved. -/
theorem Die.copyBlock_unmoved (e lead : Die) (hi : e.role = Role.join → item ≠ .phaseEnd)
    (h : e.takesItem item = false ∨ e.mayCopy lead item = false) : e.copyBlock lead item = (e, lead) := by
  unfold Die.copyBlock
  rw [if_neg fun hn => hi hn.1 hn.2, if_pos]
  rcases h with h | h <;> simp [h]

/-- A die that is no joiner takes nothing. -/
theorem Die.takesItem_of_role {e : Die} (h : e.role ≠ Role.join) : e.takesItem item = false := by
  simp [Die.takesItem, h]

/-- A joiner takes the items of its phase. -/
theorem Die.takesItem_iff {e : Die} (h : e.role = Role.join) (hi : item ≠ .phaseEnd) :
    e.takesItem item = true ↔ itemPhase item = e.fld F.PAIR_COPY_PHASE := by
  simp [Die.takesItem, h, hi]

/-- A block that comes to a joiner does to both dies what it does. -/
theorem Completes.of_copyBlock (h : s.Copies d) {j l : Die} (hmove : (s.die d).copyBlock (s.die d.other) item = (j, l))
    {P : State → Prop} (hP : ∀ t : State, t.pending = s.pending → t.die d = j → t.die d.other = l → P t) :
    Completes (.stateCopyBlock d item) s P := by
  refine ⟨(s.setDie d j).setDie d.other l, ?_, hP _ ?_ ?_ ?_⟩
  · rw [exec_stateCopyBlock, execStateCopyBlock, State.stateCopy]
    simp only [h.linked, h.runs, h.leadRuns, State.wall_of_lossless h.linked h.lossless, hmove, State.upd, Bool.not_true,
      Bool.or_false, Bool.false_eq_true, if_false]
  · rw [State.pending_setDie, State.pending_setDie]
  · rw [State.die_setDie_of_other, State.die_setDie_self]
  · exact State.die_setDie_self ..

/-- An item of its phase that can be copied now is brought to a joiner and noted there. -/
theorem Completes.of_moved (item : CopyItem) (h : s.Copies d) (hi : item ≠ .phaseEnd)
    (hp : itemPhase item = (s.die d).fld F.PAIR_COPY_PHASE)
    (hm : (s.die d).mayCopy (s.die d.other) item = true) {j l : Die} {rows : List (BitVec 22)}
    (hr : (s.die d).itemRows (s.die d.other) item = rows) (hmove : (s.die d).moveItem (s.die d.other) item = (j, l))
    {P : State → Prop} (hP : ∀ t : State, t.pending = s.pending → t.die d = j.noting item rows → t.die d.other = l → P t) :
    Completes (.stateCopyBlock d item) s P := by
  refine .of_copyBlock h ?_ hP
  have htake := (Die.takesItem_iff h.joins hi).2 hp
  unfold Die.copyBlock
  rw [if_neg fun hn => hi hn.2, htake, hm, hmove, hr]
  rfl

/-- The state after a copy of an item that is listed: the item is noted, PHASE stays, and no command is queued. -/
def State.Noted (s : State) (d : DieId) (item : CopyItem) (t : State) : Prop :=
  (t.die d).pair.copy.items = item :: (s.die d).pair.copy.items ∧ t.pending = s.pending ∧
    (t.die d).fld F.PAIR_COPY_PHASE = (s.die d).fld F.PAIR_COPY_PHASE

/-- An item of phase 1 or 2 is listed by the joiner, beside what it brings. -/
theorem Completes.of_listed (item : CopyItem) (h : s.Copies d) (hp : itemPhase item = (s.die d).fld F.PAIR_COPY_PHASE)
    (hm : (s.die d).mayCopy (s.die d.other) item = true) {j l : Die}
    (hlist : item ≠ .phaseEnd ∧ (s.die d).itemRows (s.die d.other) item = [] ∧
      ∀ c : CopyState, c.took item [] = { c with items := item :: c.items })
    (hmove : (s.die d).moveItem (s.die d.other) item = (j, l))
    (hj : j.pair = (s.die d).pair ∧ j.reg R.PAIR_COPY = (s.die d).reg R.PAIR_COPY)
    {P : State → Prop} (hP : ∀ t : State, s.Noted d item t → t.die d = j.noting item [] → t.die d.other = l → P t) :
    Completes (.stateCopyBlock d item) s P := by
  obtain ⟨hi, hrows, htook⟩ := hlist
  obtain ⟨hpair, hreg⟩ := hj
  refine .of_moved item h hi hp hm hrows hmove fun t hpend hd ho => hP t ⟨?_, hpend, ?_⟩ hd ho
  · rw [hd, Die.copy_noting, htook, hpair]
  · rw [hd, Die.phase_noting, Die.fld_of_reg hreg]

/-- An item of phase 1 or 2 that a seat's course brings changes the joiner's course of that seat alone. -/
theorem Completes.of_listedSeat (item : CopyItem) (h : s.Copies d) (hp : itemPhase item = (s.die d).fld F.PAIR_COPY_PHASE)
    (hm : (s.die d).mayCopy (s.die d.other) item = true)
    (hlist : item ≠ .phaseEnd ∧ (s.die d).itemRows (s.die d.other) item = [] ∧
      ∀ c : CopyState, c.took item [] = { c with items := item :: c.items })
    {seat : Fin 24} {c k : Fin 28} (hc : (s.die d).seatCourse seat = some c) (hk : (s.die d.other).seatCourse seat = some k)
    {f : Course → Course → Course} {l : Die}
    (hmove : (s.die d).moveItem (s.die d.other) item = ((s.die d).takeSeat (s.die d.other) seat f, l))
    {P : State → Prop} (hP : ∀ t : State, s.Noted d item t →
      (t.die d).course c = f ((s.die d).course c) ((s.die d.other).course k).delivered →
      (∀ o : Fin 28, o ≠ c → (t.die d).course o = (s.die d).course o) → (t.die d).mor = (s.die d).mor →
      (t.die d).yard = (s.die d).yard → t.die d.other = l → P t) :
    Completes (.stateCopyBlock d item) s P := by
  rw [Die.takeSeat_of_mapped _ _ hc hk] at hmove
  refine .of_listed item h hp hm hlist hmove ⟨rfl, rfl⟩ fun t hn hd ho => ?_
  obtain ⟨hself, hother⟩ := (s.die d).course_noting_updCourse item [] c (f · ((s.die d.other).course k).delivered)
  refine hP t hn ?_ (fun o hoc => ?_) ?_ ?_ ho
  · rw [hd, hself]
  · rw [hd, hother o hoc]
  · rw [hd]
    rfl
  · rw [hd]
    rfl

/-! ### Rows of the yard, one in a grant (R117, R118) -/

/-- A row of the yard has come in a grant of its bank at each die, which has been served. -/
def State.RowCopied (s : State) (d : DieId) (row : BitVec 22) (t : State) : Prop :=
  let e := s.die d
  let lead := s.die d.other
  let bank := bankOf row
  (t.die d).yard.rows = SMap.set rowDflt e.yard.rows (e.yard.key row) (SMap.get rowDflt lead.yard.rows (lead.yard.key row)) ∧
    (t.die d).yard.grants[bank] = some none ∧
    (t.die d.other).yard = { lead.yard with grants := lead.yard.grants.set bank.val (some none) } ∧ (t.die d).eng = e.eng ∧
    (t.die d.other).regs = lead.regs ∧ (t.die d.other).eng = lead.eng

/-- Both dies grant the bank of a row to the state copy, and the row is plain at both. -/
structure State.RowServed (s : State) (d : DieId) (row : BitVec 22) : Prop where
  granted : (s.die d).yard.grants[bankOf row] = some (some .stateCopy)
  leadGranted : (s.die d.other).yard.grants[bankOf row] = some (some .stateCopy)
  plain : (s.die d).PlainRow row
  leadPlain : (s.die d.other).PlainRow row

theorem State.RowServed.copyGranted {row : BitVec 22} (h : s.RowServed d row) :
    (s.die d).copyGranted row = true ∧ (s.die d.other).copyGranted row = true :=
  ⟨Die.copyGranted_of_granted h.granted, Die.copyGranted_of_granted h.leadGranted⟩

/-- One row is served of a run. -/
theorem Die.itemRows_yardRows {e : Die} {r : Requester} {row : BitVec 22} (h : e.yard.grants[bankOf row] = some (some r))
    (lead : Die) {n : Nat} (hn : 1 ≤ n) : e.itemRows lead (.yardRows row n) = [row] := by
  rw [Die.itemRows, Die.copyServes_of_granted h hn]
  exact congrArg ([·]) (BitVec.add_zero row)

/-- And the first of a block of which none has come. -/
theorem Die.itemRows_dirtyYard {e : Die} {r : Requester} {row : BitVec 22} (h : e.yard.grants[bankOf row] = some (some r))
    (lead : Die) (hpart : e.pair.copy.part = []) : e.itemRows lead (.dirtyYard row) = [row] := by
  have hrest : e.blockRest row = (List.range 8).map fun i => row + BitVec.ofNat 22 i := by
    rw [Die.blockRest, hpart]
    exact List.filter_eq_self.2 fun _ _ => rfl
  rw [Die.itemRows, Die.copyServes_of_granted h (by decide), hrest]
  exact congrArg ([·]) (BitVec.add_zero row)

/-- A joiner notes the first row of a dirty block, which stays dirty. -/
theorem CopyState.took_dirtyYard {c : CopyState} {row : BitVec 22} (h : c.part = []) :
    c.took (.dirtyYard row) [row] = { c with part := [row.toNat] } := by
  have hnext : (row + 1#22).toNat ≠ row.toNat := by
    rw [BitVec.toNat_add, BitVec.toNat_ofNat]
    omega
  have hmore : ¬ ((List.range 8).all fun i => [row.toNat].contains (row + BitVec.ofNat 22 i).toNat) = true := by
    intro hall
    have hone := List.all_eq_true.1 hall 1 (by decide)
    exact hnext (by simpa using hone)
  simp only [CopyState.took, h, List.map_cons, List.map_nil, List.append_nil]
  exact if_neg hmore

/-- An item that brings a row of the yard now brings this one. -/
theorem Completes.of_row (item : CopyItem) (h : s.Copies d) (hi : item ≠ .phaseEnd)
    (hp : itemPhase item = (s.die d).fld F.PAIR_COPY_PHASE) (hm : (s.die d).mayCopy (s.die d.other) item = true)
    {row : BitVec 22} (hrows : (s.die d).itemRows (s.die d.other) item = [row])
    (hmove : (s.die d).moveItem (s.die d.other) item =
      ((s.die d).itemRows (s.die d.other) item).foldl Die.copyRow (s.die d, s.die d.other))
    (hs : s.RowServed d row) {P : State → Prop}
    (hP : ∀ t : State, s.RowCopied d row t → (t.die d).pair.copy = (s.die d).pair.copy.took item [row] → P t) :
    Completes (.stateCopyBlock d item) s P := by
  rw [hrows, List.foldl_cons, List.foldl_nil, hs.plain.copyRow hs.leadPlain] at hmove
  refine .of_moved item h hi hp hm hrows hmove fun t _ hd ho => hP t ?_ ?_
  · rw [State.RowCopied, hd, ho]
    refine ⟨rfl, ?_, Die.useGrant_served hs.leadGranted, rfl, rfl, rfl⟩
    show ((s.die d).useGrant (bankOf row)).yard.grants[bankOf row] = some none
    rw [Die.useGrant_served hs.granted]
    exact Vector.getElem_set_self ..
  · rw [hd]
    rfl

/-! ### The end of a phase -/

/-- The end of a phase whose items have all come: phase 1 waits for FT, and the others give way at once (R305). -/
theorem Die.copyPhaseEnd_first {e : Die} (hw : e.phaseWhole = true) (h : e.fld F.PAIR_COPY_PHASE = 1) :
    e.copyPhaseEnd = e.updPair fun p => { p with copy := { p.copy with ended := true } } := by
  simp only [Die.copyPhaseEnd, hw, h, Bool.not_true, Bool.false_eq_true, if_false, if_true]

theorem Die.copyPhaseEnd_later {e : Die} (hw : e.phaseWhole = true) (h : e.fld F.PAIR_COPY_PHASE ≠ 1) :
    ∃ f, e.copyPhaseEnd = (e.setFld F.PAIR_COPY_PHASE (e.fld F.PAIR_COPY_PHASE + 1)).updPair f :=
  ⟨_, by simp only [Die.copyPhaseEnd, hw, h, Bool.not_true, Bool.false_eq_true, if_false]; rfl⟩

theorem Die.copyPhaseEnd_early {e : Die} (hw : e.phaseWhole = false) : e.copyPhaseEnd = e := by
  simp only [Die.copyPhaseEnd, hw, Bool.not_false, if_true]

theorem Die.copyBlock_phaseEnd (e lead : Die) (h : e.role = Role.join) :
    e.copyBlock lead .phaseEnd = (e.copyPhaseEnd.leftFollows, lead) :=
  if_pos ⟨h, rfl⟩

end

/-! ### COPY_CHANGE_REPEAT (R306) -/

section
variable {s : State} {d : DieId} {ch : CopyChange}

theorem Changes.of_unlinkedChange (h : s.linked = false) : Changes (.copyChangeRepeat d ch) s d fun e => e := by
  rw [Changes, exec_copyChangeRepeat, execCopyChangeRepeat, State.wall_unlinked h, State.setDie_self]

theorem Changes.of_copyChange (h : s.linked = true) (hl : (s.die d).pair.lossy.contains .copy = false) {f : Die → Die}
    (hf : (s.die d).copyChange ch = f (s.die d)) : Changes (.copyChangeRepeat d ch) s d f := by
  rw [Changes, exec_copyChangeRepeat, execCopyChangeRepeat, State.wall_of_lossless h hl, State.upd, hf]

variable (e : Die)

/-- A change that comes to a joiner does there what it does. -/
theorem Completes.of_copyChange (h : s.linked = true) (hl : (s.die d).pair.lossy.contains .copy = false) {x : Die}
    (hx : (s.die d).copyChange ch = x) {P : State → Prop}
    (hP : ∀ t : State, t.die d = x → t.die d.other = s.die d.other → P t) : Completes (.copyChangeRepeat d ch) s P :=
  ⟨_, Changes.of_copyChange (f := fun _ => x) h hl hx, hP _ (State.die_setDie_self ..) (State.die_setDie_other ..)⟩

variable {e}

/-- Each kind of change is made at a joiner where its item has been copied. -/
theorem Die.copyChange_engw (h : e.role = Role.join) {c : Fin 28} {seat : Fin 24} (hs : e.workSeat c = some seat) (ix : BitVec 12)
    (q : Quarter) : e.copyChange (.engw c ix q) = if e.pair.copy.items.contains (.zBanks seat) = true then
      e.zBackWrite c (ix.toNat / 8) ⟨ix.toNat % 8, Nat.mod_lt _ (by decide)⟩ q [] else e := by
  rw [Die.copyChange, if_neg (not_not.2 h)]
  simp only [hs]

/-- The back length and the smoothing of a ring that a write of its back descriptor gives. -/
def RingDesc.withBack (r : RingDesc) (w : Word) : RingDesc := { r with
  backLen := bitsOf w.toNat 0 20
  backSmooth := natBit w.toNat 20 }

theorem Die.copyChange_ringBack (h : e.role = Role.join) (n : BitVec 10) (w : Word) : e.copyChange (.ringBack n w) =
    if e.pair.copy.items.contains .rings = true then e.updYard fun y => y.setRing n.toNat ((y.ring n.toNat).withBack w) else e :=
  if_neg (not_not.2 h)

theorem Die.copyChange_morw (h : e.role = Role.join) (sink : BitVec 15) (w : Word) : e.copyChange (.morw sink w) =
    if e.pair.copy.items.contains .routes = true then e.morwWrite sink.toNat w else e :=
  if_neg (not_not.2 h)

theorem Die.copyChange_voiceReg (h : e.role = Role.join) (a w : Word) : e.copyChange (.voiceReg a w) =
    if (e.pair.copy.items.contains .voiceCfg && voiceCfgRegs.contains a.toNat) = true then e.voiceCfgWrite a.toNat w else e :=
  if_neg (not_not.2 h)

theorem Die.copyChange_shared (h : e.role = Role.join) (a : Word) (b : Byte) : e.copyChange (.shared a b) =
    if (e.pair.copy.hasByte a.toNat && inMem a.toNat) = true then e.bridgeWrite a.toNat b.toNat 1 else e :=
  if_neg (not_not.2 h)

theorem Yard.ring_setRing (y : Yard) (n : Nat) (r : RingDesc) (k : Nat) :
    (y.setRing n r).ring k = if k = n then r else y.ring k := by
  rw [Yard.ring, Yard.setRing, SMap.get_set]
  exact if_congr eq_comm rfl rfl

variable (e)

/-- A row of a course's back Z bank with one lane written. -/
def Course.putLane (x : Course) (row : Nat) (lane : Fin 8) (q : Quarter) (bad : SMap (BitVec 8)) : Course :=
  { x.setTileRow Tl.zb row (Vector.ofFn fun (l : Fin 8) => if l = lane then q else (x.tileRow Tl.zb row)[l]) with bad := bad }

theorem Course.tileRow_putLane (x : Course) (row : Nat) (lane : Fin 8) (q : Quarter) (bad : SMap (BitVec 8)) (i : Nat) :
    (x.putLane row lane q bad).tileRow Tl.zb i = if row = i
      then Vector.ofFn fun (l : Fin 8) => if l = lane then q else (x.tileRow Tl.zb row)[l] else x.tileRow Tl.zb i :=
  Course.tileRow_setTileRow x Tl.zb row (by decide) (by decide) _ i

/-- A quarter written into a good row of the back Z bank changes its lane alone. -/
theorem Die.zBackWrite_of_unmarked {c : Fin 28} {row : Nat} (h : SMap.get markDflt (e.course c).bad (tileKey Tl.zb row) = 0)
    (lane : Fin 8) (q : Quarter) : ∃ b, e.zBackWrite c row lane q [] = e.updCourse c (·.putLane row lane q b) := by
  have hread : (e.readTile c Tl.zb row Req.xbar []).2 = e := by
    simp only [Die.readTile, addMarks, List.foldl_nil, h, Die.tileMarked, if_true]
  have hpair (r : Row) : pairWrite 0 r lane q = Vector.ofFn fun (l : Fin 8) => if l = lane then q else r[l] := by
    have hgood (p : Nat) : pairMark 0 p ≠ 2 := by simp [pairMark, bitsOf]
    simp only [pairWrite, hgood, and_false, if_false]
  unfold Die.zBackWrite
  rw [hread]
  exact ⟨_, by simp only [Die.updCourse, h, hpair]; rfl⟩

end

end Sys2Proof.Machine
end

