-- ==== Sys2Proof/Proofs/CopyItems.lean ====
section
/-! SUPPORT. The items of the state copy one by one: what each brings to a joiner (R305, R308). -/

namespace Sys2Proof.Machine

/-- A register that was taken from the lead reads as the lead's. -/
theorem Die.reg_noting_taken (e lead : Die) (item : CopyItem) (rows : List (BitVec 22)) {rs : List Nat} (hno : R.PAIR_COPY ∉ rs)
    {j : Die} (hj : j.regs = (e.takeRegs lead rs).regs) {a : Nat} (ha : a ∈ rs) : (j.noting item rows).reg a = lead.reg a := by
  rw [Die.reg_noting _ _ _ fun h => hno (h ▸ ha), Die.reg, hj]
  exact (e.reg_takeRegs lead rs a).trans (if_pos ha)

/-- The bytes of a region come, and with the scene library what the die has read of it; the lead stays. -/
theorem Die.moveItem_sharedRegion {e lead : Die} {a n : Nat} (h : e.mem.bad = []) (hl : lead.mem.bad = [])
    (hr : a + n ≤ 0x600000) : ∃ (m : Mem) (w : Swap), e.moveItem lead (.sharedRegion a n) = ({ e with
      swp := w
      mem := m }, lead) ∧ ∀ b : Nat, SMap.get byteDflt m.bytes b =
        if a ≤ b ∧ b < a + n then SMap.get byteDflt lead.mem.bytes b else SMap.get byteDflt e.mem.bytes b := by
  obtain ⟨w, hw⟩ : ∃ w, e.takeItem lead (.sharedRegion a n) = { e with swp := w } := by
    unfold Die.takeItem
    dsimp only
    split
    · exact ⟨_, rfl⟩
    · exact ⟨e.swp, rfl⟩
  obtain ⟨m, hm, hbytes⟩ := Die.copyBytes_of_unmarked (e := { e with swp := w }) (lead := lead) a n (n / 8 + 2) h hl hr (by omega)
  refine ⟨m, w, ?_, hbytes⟩
  rw [← hm, ← hw]
  rfl

/-- The registers of the four swap slots. -/
def swapRegs : List Nat := (List.range 4).flatMap fun n => [R.ENG_SWAP_MASK n, R.ENG_SWAP_FRAME n, R.ENG_SWAP_CTL n]

theorem mem_swapRegs (k : Fin 4) : R.ENG_SWAP_MASK k ∈ swapRegs ∧ R.ENG_SWAP_FRAME k ∈ swapRegs ∧
    R.ENG_SWAP_CTL k ∈ swapRegs := by
  revert k
  decide

section
variable {s : State} {d : DieId} (h : s.Copies d)
include h

/-! ### Phase 1 -/

section
variable (hp : (s.die d).fld F.PAIR_COPY_PHASE = 1)
include hp

theorem State.Copies.zBanks {seat : Fin 24} {c k : Fin 28} (hc : (s.die d).seatCourse seat = some c)
    (hk : (s.die d.other).seatCourse seat = some k) : Completes (.stateCopyBlock d (.zBanks seat)) s fun t =>
      s.Noted d (.zBanks seat) t ∧
      (∀ row : Nat, ((t.die d).course c).tileRow Tl.zf row = ((s.die d.other).course k).delivered.tileRow Tl.zf row ∧
        ((t.die d).course c).tileRow Tl.zb row = ((s.die d.other).course k).delivered.tileRow Tl.zb row) ∧
      (∀ o : Fin 28, o ≠ c → (t.die d).course o = (s.die d).course o) ∧ (t.die d).mor = (s.die d).mor ∧
      (t.die d).yard = (s.die d).yard ∧ (((s.die d.other).course k).bad = [] → t.die d.other = s.die d.other) := by
  refine .of_listedSeat (.zBanks seat) h hp.symm rfl ⟨nofun, rfl, fun _ => rfl⟩ hc hk rfl
    fun t hn hself hother hmor hyard ho => ⟨hn, fun row => ?_, hother, hmor, hyard, fun hb => ?_⟩
  · rw [hself]
    exact ⟨rfl, rfl⟩
  · rw [ho]
    exact (s.die d.other).giveSeat_of_unmarked hk hb _

theorem State.Copies.courseRegs {seat : Fin 24} {c k : Fin 28} (hc : (s.die d).seatCourse seat = some c)
    (hk : (s.die d.other).seatCourse seat = some k) : Completes (.stateCopyBlock d (.courseRegs seat)) s fun t =>
      s.Noted d (.courseRegs seat) t ∧
      (t.die d).course c = ((s.die d).course c).takeRegs ((s.die d.other).course k) ∧
      (∀ o : Fin 28, o ≠ c → (t.die d).course o = (s.die d).course o) ∧ t.die d.other = s.die d.other := by
  refine .of_listedSeat (.courseRegs seat) h hp.symm rfl ⟨nofun, rfl, fun _ => rfl⟩ hc hk rfl
    fun t hn hself hother _ _ ho => ⟨hn, ?_, hother, ho⟩
  rw [hself, Course.takeRegs_delivered]

theorem State.Copies.routes : Completes (.stateCopyBlock d .routes) s fun t => s.Noted d .routes t ∧
    (t.die d).mor = { (s.die d).mor with
      front := (s.die d.other).mor.front
      back := (s.die d.other).mor.back
      inForce := (s.die d.other).mor.inForce
      fades := (s.die d.other).mor.fades } ∧
    (t.die d).eng = (s.die d).eng ∧ (t.die d).yard = (s.die d).yard ∧ t.die d.other = s.die d.other := by
  refine .of_listed .routes h hp.symm rfl ⟨nofun, rfl, fun _ => rfl⟩ rfl ⟨rfl, rfl⟩ fun t hn hd ho => ⟨hn, ?_⟩
  rw [hd, ho]
  exact ⟨rfl, rfl, rfl, rfl⟩

theorem State.Copies.voiceCfg : Completes (.stateCopyBlock d .voiceCfg) s fun t => s.Noted d .voiceCfg t ∧
    (t.die d).vox = { (s.die d).vox with
      front := (s.die d.other).vox.front
      back := (s.die d.other).vox.back
      late := (s.die d.other).vox.late } ∧
    (t.die d).eng = (s.die d).eng ∧ t.die d.other = s.die d.other := by
  refine .of_listed .voiceCfg h hp.symm rfl ⟨nofun, rfl, fun _ => rfl⟩ rfl ⟨rfl, rfl⟩ fun t hn hd ho => ⟨hn, ?_⟩
  rw [hd, ho]
  exact ⟨rfl, rfl, rfl⟩

theorem State.Copies.rings : Completes (.stateCopyBlock d .rings) s fun t => s.Noted d .rings t ∧
    (t.die d).yard = { (s.die d).yard with rings := (s.die d.other).yard.rings } ∧ (t.die d).eng = (s.die d).eng ∧
    t.die d.other = s.die d.other := by
  refine .of_listed .rings h hp.symm rfl ⟨nofun, rfl, fun _ => rfl⟩ rfl ⟨rfl, rfl⟩ fun t hn hd ho => ⟨hn, ?_⟩
  rw [hd, ho]
  exact ⟨rfl, rfl, rfl⟩

theorem State.Copies.swapSlots : Completes (.stateCopyBlock d .swapSlots) s fun t => s.Noted d .swapSlots t ∧
    (∀ r, r ∈ swapRegs → (t.die d).reg r = (s.die d.other).reg r) ∧ (t.die d).eng = (s.die d).eng ∧
    t.die d.other = s.die d.other := by
  obtain ⟨r, hregs⟩ := (s.die d).takeRegs_regs (s.die d.other) swapRegs
  have hno : R.PAIR_COPY ∉ swapRegs := by decide
  refine .of_listed .swapSlots h hp.symm rfl ⟨nofun, rfl, fun _ => rfl⟩ (j := (s.die d).takeRegs (s.die d.other) swapRegs) rfl
    ⟨by rw [hregs], by rw [Die.reg_takeRegs, if_neg hno]⟩ fun t hn hd ho => ⟨hn, fun r hr => ?_, ?_, ho⟩
  · rw [hd, Die.reg_noting_taken _ _ _ _ hno rfl hr]
  · rw [hd, hregs]
    rfl

theorem State.Copies.generators : Completes (.stateCopyBlock d .generators) s fun t => s.Noted d .generators t ∧
    (∀ r, r ∈ genRegs → (t.die d).reg r = (s.die d.other).reg r) ∧ (t.die d).mor.gens = (s.die d.other).mor.gens ∧
    (t.die d).mor.pink = (s.die d.other).mor.pink ∧ (t.die d).mor.front = (s.die d).mor.front ∧
    (t.die d).eng = (s.die d).eng ∧ t.die d.other = s.die d.other := by
  obtain ⟨r, hregs⟩ := (s.die d).takeRegs_regs (s.die d.other) genRegs
  have hno : R.PAIR_COPY ∉ genRegs := by decide
  refine .of_listed .generators h hp.symm rfl ⟨nofun, rfl, fun _ => rfl⟩
    (j := ((s.die d).takeRegs (s.die d.other) genRegs).updMor fun m => { m with
      gens := (s.die d.other).mor.gens
      pink := (s.die d.other).mor.pink }) rfl
    ⟨by rw [Die.updMor_pair, hregs], by rw [Die.updMor_reg, Die.reg_takeRegs, if_neg hno]⟩
    fun t hn hd ho => ⟨hn, fun r hr => ?_, ?_⟩
  · rw [hd, Die.reg_noting_taken (s.die d) (s.die d.other) _ _ hno (Die.updMor_regs ..) hr]
  · rw [hd, ho, hregs]
    exact ⟨rfl, rfl, rfl, rfl, rfl⟩

theorem State.Copies.chainMaps : Completes (.stateCopyBlock d .chainMaps) s fun t => s.Noted d .chainMaps t ∧
    (t.die d).chn.n.map = (s.die d.other).chn.n.map ∧ (t.die d).chn.s.map = (s.die d.other).chn.s.map ∧
    (t.die d).fld F.CHN_PCTL_P = (s.die d.other).fld F.CHN_PCTL_P ∧ (t.die d).eng = (s.die d).eng ∧
    t.die d.other = s.die d.other := by
  have hmaps : ((s.die d).takeItem (s.die d.other) .chainMaps).chn = { (s.die d).chn with
      n := { (s.die d).chn.n with map := (s.die d.other).chn.n.map }
      s := { (s.die d).chn.s with map := (s.die d.other).chn.s.map } } := rfl
  refine .of_listed .chainMaps h hp.symm rfl ⟨nofun, rfl, fun _ => rfl⟩ rfl ⟨rfl, Die.reg_setFld_other _ (by decide) _⟩
    fun t hn hd ho => ⟨hn, ?_⟩
  rw [hd, ho, Die.chn_noting, Die.eng_noting, hmaps]
  refine ⟨rfl, rfl, ?_, rfl, rfl⟩
  rw [Die.fld_of_reg (Die.reg_noting _ _ _ (by decide))]
  exact (Die.fld_setFld_self _ _ (Fld.fits_of rfl) _).trans (Nat.mod_eq_of_lt (bitsOf_lt ..))

theorem State.Copies.sharedRegion {a n : Nat} (hr : a + n ≤ 0x600000) (hb : (s.die d).mem.bad = [])
    (hb' : (s.die d.other).mem.bad = []) : Completes (.stateCopyBlock d (.sharedRegion a n)) s fun t =>
      s.Noted d (.sharedRegion a n) t ∧
      (∀ k : Nat, SMap.get byteDflt (t.die d).mem.bytes k = if a ≤ k ∧ k < a + n
        then SMap.get byteDflt (s.die d.other).mem.bytes k else SMap.get byteDflt (s.die d).mem.bytes k) ∧
      (t.die d).eng = (s.die d).eng ∧ t.die d.other = s.die d.other := by
  obtain ⟨m, w, hmove, hbytes⟩ := Die.moveItem_sharedRegion hb hb' hr
  refine .of_listed (.sharedRegion a n) h hp.symm rfl ⟨nofun, rfl, fun _ => rfl⟩ hmove ⟨rfl, rfl⟩ fun t hn hd ho => ⟨hn, ?_⟩
  rw [hd, ho]
  exact ⟨hbytes, rfl, rfl⟩

end

/-! ### Phase 2 -/

section
variable (hp : (s.die d).fld F.PAIR_COPY_PHASE = 2) (hw : (s.die d.other).eng.window = true)
include hp hw

theorem State.Copies.tiles {seat : Fin 24} {c k : Fin 28} (hc : (s.die d).seatCourse seat = some c)
    (hk : (s.die d.other).seatCourse seat = some k) : Completes (.stateCopyBlock d (.tiles seat)) s fun t =>
      (∀ i : Nat, ((t.die d).course c).tileRow Tl.x i = ((s.die d.other).course k).delivered.tileRow Tl.x i ∧
        ((t.die d).course c).tileRow Tl.y i = ((s.die d.other).course k).delivered.tileRow Tl.y i ∧
        ((t.die d).course c).tileRow Tl.ring i = ((s.die d.other).course k).delivered.tileRow Tl.ring i) ∧
      (∀ o : Fin 28, o ≠ c → (t.die d).course o = (s.die d).course o) ∧
      (t.die d).pair.copy.items = .tiles seat :: (s.die d).pair.copy.items ∧
      (((s.die d.other).course k).bad = [] → t.die d.other = s.die d.other) := by
  refine .of_listedSeat (.tiles seat) h hp.symm hw ⟨nofun, rfl, fun _ => rfl⟩ hc hk rfl
    fun t hn hself hother _ _ ho => ⟨fun i => ?_, hother, hn.1, fun hb => ?_⟩
  · rw [hself]
    exact ⟨rfl, rfl, rfl⟩
  · rw [ho]
    exact (s.die d.other).giveSeat_of_unmarked hk hb _

theorem State.Copies.voices : Completes (.stateCopyBlock d .voices) s fun t =>
    (t.die d).vox = { (s.die d).vox with
      voices := (s.die d.other).vox.voices
      next := (s.die d.other).vox.next } ∧
    (t.die d).pair.copy.items = .voices :: (s.die d).pair.copy.items ∧ (t.die d).eng = (s.die d).eng ∧
    t.die d.other = s.die d.other := by
  refine .of_listed .voices h hp.symm hw ⟨nofun, rfl, fun _ => rfl⟩ rfl ⟨rfl, rfl⟩ fun t hn hd ho => ?_
  rw [hd, ho]
  exact ⟨rfl, rfl, rfl, rfl⟩

end

/-! ### Phases 3 and 4 -/

theorem State.Copies.yardRows (hp : (s.die d).fld F.PAIR_COPY_PHASE = 3) {row : BitVec 22} {n : Nat} (hn : 1 ≤ n)
    (hs : s.RowServed d row) : Completes (.stateCopyBlock d (.yardRows row n)) s fun t => s.RowCopied d row t ∧
      (t.die d).pair.copy.rows = (row.toNat, 1) :: (s.die d).pair.copy.rows := by
  refine .of_row (.yardRows row n) h nofun hp.symm (Bool.and_eq_true_iff.2 hs.copyGranted)
    (Die.itemRows_yardRows hs.granted _ hn) rfl hs fun t hone hcopy => ⟨hone, ?_⟩
  rw [hcopy]
  rfl

section
variable (hp : (s.die d).fld F.PAIR_COPY_PHASE = 4) (hw : (s.die d.other).eng.window = true)
include hp hw

theorem State.Copies.dirtyTile {seat : Fin 24} {c k : Fin 28} (hc : (s.die d).seatCourse seat = some c)
    (hk : (s.die d.other).seatCourse seat = some k) (hb : ((s.die d.other).course k).bad = []) (tl : Fin 3) (r : BitVec 9) :
    Completes (.stateCopyBlock d (.dirtyTile seat tl r)) s fun t =>
      (∀ i : Nat, ((t.die d).course c).tileRow (copyTile tl) i = if r.toNat ≤ i ∧ i < r.toNat + 64
        then ((s.die d.other).course k).tileRow (copyTile tl) i else ((s.die d).course c).tileRow (copyTile tl) i) ∧
      (∀ o : Fin 28, o ≠ c → (t.die d).course o = (s.die d).course o) ∧
      (t.die d).pair.copy.dirty = (s.die d).pair.copy.dirty.erase (.dirtyTile seat tl r) ∧ (t.die d).yard = (s.die d).yard ∧
      t.die d.other = s.die d.other := by
  have htake : (s.die d).takeItem (s.die d.other) (.dirtyTile seat tl r) =
      (s.die d).updCourse c fun x => x.takeBlock ((s.die d.other).course k) (copyTile tl) r.toNat := by
    rw [Die.takeItem, Die.takeSeat_of_mapped _ _ hc hk, Course.delivered_of_unmarked _ hb]
  have hgive : (s.die d.other).giveItem (.dirtyTile seat tl r) = s.die d.other := Die.giveSeat_of_unmarked _ hk hb _
  have hmove : (s.die d).moveItem (s.die d.other) (.dirtyTile seat tl r) =
      ((s.die d).updCourse c fun x => x.takeBlock ((s.die d.other).course k) (copyTile tl) r.toNat, s.die d.other) := by
    exact Prod.ext htake hgive
  refine .of_moved (.dirtyTile seat tl r) (rows := []) h nofun hp.symm hw rfl hmove fun t _ hd ho => ?_
  obtain ⟨h1, h7⟩ := copyTile_bounds tl
  obtain ⟨hself, hother⟩ := (s.die d).course_noting_updCourse (.dirtyTile seat tl r) [] c
    fun x => x.takeBlock ((s.die d.other).course k) (copyTile tl) r.toNat
  rw [hd, ho, hself]
  refine ⟨fun i => ?_, hother, rfl, rfl, rfl⟩
  rw [Course.takeBlock_eq, Course.tileRow_takeRows _ _ _ h1 h7]

theorem State.Copies.dirtyYard {row : BitVec 22} (hs : s.RowServed d row) (hpart : (s.die d).pair.copy.part = []) :
    Completes (.stateCopyBlock d (.dirtyYard row)) s fun t => s.RowCopied d row t ∧
      (t.die d).pair.copy.part = [row.toNat] ∧ (t.die d).pair.copy.dirty = (s.die d).pair.copy.dirty := by
  obtain ⟨hg, hg'⟩ := hs.copyGranted
  have hm : (s.die d).mayCopy (s.die d.other) (.dirtyYard row) = true :=
    Bool.and_eq_true_iff.2 ⟨Bool.and_eq_true_iff.2 ⟨hw, hg⟩, hg'⟩
  refine .of_row (.dirtyYard row) h nofun hp.symm hm (Die.itemRows_dirtyYard hs.granted _ hpart) rfl hs
    fun t hone hcopy => ⟨hone, ?_⟩
  rw [hcopy, CopyState.took_dirtyYard hpart]
  exact ⟨rfl, rfl⟩

end

/-! ### The end of a phase -/

theorem State.Copies.endFirst (hw : (s.die d).phaseWhole = true) (hp : (s.die d).fld F.PAIR_COPY_PHASE = 1) :
    Completes (.stateCopyBlock d .phaseEnd) s fun t => (t.die d).pair.copy.ended = true ∧
      (t.die d).fld F.PAIR_COPY_PHASE = 1 ∧ (t.die d).eng = (s.die d).eng ∧ t.die d.other = s.die d.other := by
  refine .of_copyBlock h (Die.copyBlock_phaseEnd _ _ h.joins) fun t _ hd ho => ?_
  rw [hd, ho, Die.copyPhaseEnd_first hw hp]
  exact ⟨rfl, (Die.phase_leftFollows _).trans hp, rfl, rfl⟩

theorem State.Copies.endLater (hw : (s.die d).phaseWhole = true)
    (hp : (s.die d).fld F.PAIR_COPY_PHASE = 2 ∨ (s.die d).fld F.PAIR_COPY_PHASE = 3) :
    Completes (.stateCopyBlock d .phaseEnd) s fun t =>
      (t.die d).fld F.PAIR_COPY_PHASE = (s.die d).fld F.PAIR_COPY_PHASE + 1 ∧ (t.die d).eng = (s.die d).eng ∧
      t.die d.other = s.die d.other := by
  obtain ⟨f, hf⟩ := Die.copyPhaseEnd_later hw (by omega)
  refine .of_copyBlock h (Die.copyBlock_phaseEnd _ _ h.joins) fun t _ hd ho => ?_
  rw [hd, ho, hf]
  refine ⟨?_, rfl, rfl⟩
  rw [Die.phase_leftFollows, Die.updPair_fld, Die.fld_setFld_self _ _ (Fld.fits_of rfl)]
  exact Nat.mod_eq_of_lt (show (s.die d).fld F.PAIR_COPY_PHASE + 1 < 8 by omega)

theorem State.Copies.endEarly (hw : (s.die d).phaseWhole = false) : Completes (.stateCopyBlock d .phaseEnd) s fun t =>
    (t.die d).fld F.PAIR_COPY_PHASE = (s.die d).fld F.PAIR_COPY_PHASE ∧ (t.die d).pair = (s.die d).pair ∧
    (t.die d).eng = (s.die d).eng ∧ t.die d.other = s.die d.other := by
  refine .of_copyBlock h (Die.copyBlock_phaseEnd _ _ h.joins) fun t _ hd ho => ?_
  rw [hd, ho, Die.copyPhaseEnd_early hw]
  exact ⟨Die.phase_leftFollows _, rfl, rfl, rfl⟩

end

end Sys2Proof.Machine
end

