-- ==== Sys2Proof/Proofs/StateCopy.lean ====
section
/-! SUPPORT. The changes of what a joiner has copied, and with the items all that the state copy brings (R285, R305, R306,
R308). -/

namespace Sys2Proof.Machine

/-! ### Changes of what has been copied (R306) -/

section
variable {s : State} {d : DieId}

/-- A joiner that has a seat's Z banks takes a quarter of a good row of the back bank. -/
theorem Completes.of_engw (hk : s.linked = true) (hl : (s.die d).pair.lossy.contains .copy = false)
    (hj : (s.die d).role = Role.join) {c : Fin 28} {seat : Fin 24} (hs : (s.die d).workSeat c = some seat)
    (hhas : (s.die d).pair.copy.items.contains (.zBanks seat) = true) (ix : BitVec 12) (q : Quarter)
    (hb : SMap.get markDflt ((s.die d).course c).bad (tileKey Tl.zb (ix.toNat / 8)) = 0) :
    Completes (.copyChangeRepeat d (.engw c ix q)) s fun t =>
      (∀ i : Nat, ((t.die d).course c).tileRow Tl.zb i = if i = ix.toNat / 8 then Vector.ofFn fun (l : Fin 8) =>
        if l.val = ix.toNat % 8 then q else (((s.die d).course c).tileRow Tl.zb (ix.toNat / 8))[l]
        else ((s.die d).course c).tileRow Tl.zb i) ∧
      (∀ o : Fin 28, o ≠ c → (t.die d).course o = (s.die d).course o) ∧ (t.die d).regs = (s.die d).regs ∧
      t.die d.other = s.die d.other := by
  obtain ⟨m, hm⟩ := (s.die d).zBackWrite_of_unmarked hb ⟨ix.toNat % 8, Nat.mod_lt _ (by decide)⟩ q
  refine .of_copyChange hk hl ((Die.copyChange_engw hj hs ix q).trans ((if_pos hhas).trans hm)) fun t hd ho =>
    ⟨fun i => ?_, fun o hoc => ?_, by rw [hd, Die.updCourse_regs], ho⟩
  · rw [hd, Die.course_updCourse_self, Course.tileRow_putLane]
    simp only [Fin.ext_iff, eq_comm (a := i)]
  · rw [hd, Die.course_updCourse_other _ hoc]

/-- A joiner that has the ring descriptors takes a back descriptor. -/
theorem Completes.of_ringBack (hk : s.linked = true) (hl : (s.die d).pair.lossy.contains .copy = false)
    (hj : (s.die d).role = Role.join) (hhas : (s.die d).pair.copy.items.contains .rings = true) (n : BitVec 10) (w : Word) :
    Completes (.copyChangeRepeat d (.ringBack n w)) s fun t =>
      (∀ k : Nat, (t.die d).yard.ring k = if k = n.toNat then ((s.die d).yard.ring n.toNat).withBack w
        else (s.die d).yard.ring k) ∧
      (t.die d).regs = (s.die d).regs ∧ (t.die d).eng = (s.die d).eng ∧ (t.die d).yard.rows = (s.die d).yard.rows ∧
      t.die d.other = s.die d.other := by
  refine .of_copyChange hk hl ((Die.copyChange_ringBack hj n w).trans (if_pos hhas)) fun t hd ho => ?_
  rw [hd, ho]
  exact ⟨Yard.ring_setRing _ _ _, rfl, rfl, rfl, rfl⟩

/-- A voice-configuration register's address fits a word. -/
theorem toNat_voiceCfgReg {r : Nat} (h : r ∈ voiceCfgRegs) : (BitVec.ofNat 32 r).toNat = r := by
  revert r
  decide

end

/-- Settles O37: the blocks item by item, each read as the lead holds it at the command (log 97) and a row of the yard in one
grant of its bank at each die (log 225), and the changes kind by kind. -/
theorem stateCopyTakes : Obligations.StateCopyTakes := by
  refine ⟨?_, ?_, ?_⟩
  · intro d item seat off n s a e lead ready phase noted
    refine ⟨?_, ?_, ?_, ?_, ?_⟩
    · rintro (h | ⟨hr, hl⟩)
      · exact .of_unlinked h
      · exact .of_unmoved hl (e.copyBlock_unmoved lead (fun hj => absurd hj hr) (.inl (Die.takesItem_of_role hr)))
    · rintro ⟨-, hl, hj, -⟩ hi hp
      refine .of_unmoved hl (e.copyBlock_unmoved lead (fun _ => hi) (.inl ?_))
      exact Bool.eq_false_iff.2 fun ht => hp ((Die.takesItem_iff hj hi).1 ht)
    · rintro ⟨hk, hl, hj, hr, hr', -⟩ hp
      have h : s.Copies d := ⟨hk, hl, hj, hr, hr'⟩
      refine ⟨fun c hc k hk => ⟨h.zBanks hp hc hk, ?_⟩, h.routes hp, h.voiceCfg hp, h.rings hp, ?_, h.generators hp,
        h.chainMaps hp, fun hin hb hb' => h.sharedRegion hp hin hb hb'⟩
      · refine (h.courseRegs hp hc hk).mono fun t ⟨hn, hself, hother, ho⟩ => ⟨hn, ?_, hother, ho⟩
        rw [hself]
        and_intros <;> rfl
      · refine (h.swapSlots hp).mono fun t ⟨hn, hregs, heng, ho⟩ => ⟨hn, fun k => ?_, heng, ho⟩
        obtain ⟨hmask, hframe, hctl⟩ := mem_swapRegs k
        exact ⟨hregs _ hmask, hregs _ hframe, hregs _ hctl⟩
    · rintro ⟨hk, hl, hj, hr, hr', -⟩ hw
      have h : s.Copies d := ⟨hk, hl, hj, hr, hr'⟩
      exact ⟨h.endFirst hw, h.endLater hw⟩
    · rintro ⟨hk, hl, hj, hr, hr', -⟩ hw
      exact State.Copies.endEarly ⟨hk, hl, hj, hr, hr'⟩ hw
  · intro d seat tl blk row n s e lead ready r0 phase bank asks plain one
    have served (ha : asks) (hp : plain e) (hp' : plain lead) : s.RowServed d row := by
      obtain ⟨hb, hw, hm, hr, -⟩ := hp
      obtain ⟨hb', hw', hm', hr', -⟩ := hp'
      exact ⟨ha.1, ha.2, ⟨hb, hw, hm, hr⟩, ⟨hb', hw', hm', hr'⟩⟩
    refine ⟨?_, ?_, ?_, ?_, ?_⟩
    · rintro ⟨-, hl, -⟩ hw
      have shut (item : CopyItem) (hi : item ≠ .phaseEnd) (hm : e.mayCopy lead item = false) :
          Changes (.stateCopyBlock d item) s d fun e => e :=
        .of_unmoved hl (e.copyBlock_unmoved lead (fun _ => hi) (.inr hm))
      refine ⟨fun _ => ⟨shut (.tiles seat) nofun hw, shut .voices nofun hw⟩,
        fun _ => ⟨shut (.dirtyTile seat tl r0) nofun hw, shut (.dirtyYard row) nofun ?_⟩⟩
      exact Bool.and_eq_false_iff.2 (.inl (Bool.and_eq_false_iff.2 (.inl hw)))
    · rintro ⟨hk, hl, hj, hr, hr', -⟩ hw hp
      have h : s.Copies d := ⟨hk, hl, hj, hr, hr'⟩
      exact ⟨fun c hc k hk => h.tiles hp hw hc hk, h.voices hp hw⟩
    · rintro ⟨-, hl, -⟩ hp hg
      exact .of_unmoved hl (e.copyBlock_unmoved lead (fun _ => nofun) (.inr (Bool.and_eq_false_iff.2 hg)))
    · rintro ⟨hk, hl, hj, hr, hr', -⟩ hp hn ha he hlead
      exact State.Copies.yardRows ⟨hk, hl, hj, hr, hr'⟩ hp hn (served ha he hlead)
    · rintro ⟨hk, hl, hj, hr, hr', -⟩ hw hp
      have h : s.Copies d := ⟨hk, hl, hj, hr, hr'⟩
      exact ⟨fun c hc k hk _ hb _ => h.dirtyTile hp hw hc hk hb tl r0,
        fun ha he hlead _ hpart => h.dirtyYard hp hw (served ha he hlead) hpart⟩
  · intro d ch c ix q sink w a n b s e ready has row
    refine ⟨?_, ?_, ?_, ?_, ?_, ?_, ?_, ?_, ?_, ?_, ?_⟩
    · rintro (h | ⟨hr, hl⟩)
      · exact .of_unlinkedChange h
      · cases h : s.linked
        · exact .of_unlinkedChange h
        · exact .of_copyChange h hl (if_pos hr)
    · rintro seat hseat ⟨hk, hl, hj⟩ hhas hb -
      exact .of_engw hk hl hj hseat hhas ix q hb
    · rintro seat hseat ⟨hk, hl, hj⟩ hno
      exact .of_copyChange hk hl ((Die.copyChange_engw hj hseat ix q).trans (if_neg hno))
    · rintro ⟨hk, hl, hj⟩ hhas
      exact .of_copyChange hk hl ((Die.copyChange_morw hj sink w).trans (if_pos hhas))
    · rintro ⟨hk, hl, hj⟩ hno
      exact .of_copyChange hk hl ((Die.copyChange_morw hj sink w).trans (if_neg hno))
    · rintro ⟨hk, hl, hj⟩ hhas r hr
      refine .of_copyChange hk hl ((Die.copyChange_voiceReg hj _ w).trans ?_)
      rw [toNat_voiceCfgReg hr]
      exact if_pos (Bool.and_eq_true_iff.2 ⟨hhas, List.contains_iff_mem.2 hr⟩)
    · rintro ⟨hk, hl, hj⟩ hno
      refine .of_copyChange hk hl ((Die.copyChange_voiceReg hj a w).trans (if_neg fun hboth => ?_))
      obtain ⟨hhas, hreg⟩ := Bool.and_eq_true_iff.1 hboth
      exact hno.elim (fun hn => hn hhas) fun hn => Bool.eq_false_iff.1 hn hreg
    · rintro ⟨hk, hl, hj⟩ hhas -
      refine (Completes.of_ringBack hk hl hj hhas n w).mono fun t ⟨hring, hrest⟩ => ⟨fun k => (hring k).trans ?_, hrest⟩
      rw [RingDesc.withBack, bitsOf, pow_zero, Nat.div_one]
    · rintro ⟨hk, hl, hj⟩ hno
      exact .of_copyChange hk hl ((Die.copyChange_ringBack hj n w).trans (if_neg hno))
    · rintro ⟨hk, hl, hj⟩ hhas hin hb
      refine .of_copyChange hk hl ((Die.copyChange_shared hj a b).trans ?_)
      exact (if_pos (Bool.and_eq_true_iff.2 ⟨hhas, hin⟩)).trans (Die.bridgeWrite_of_unmarked _ _ _ hb)
    · rintro ⟨hk, hl, hj⟩ hno
      refine .of_copyChange hk hl ((Die.copyChange_shared hj a b).trans (if_neg fun hboth => ?_))
      exact Bool.eq_false_iff.1 hno (Bool.and_eq_true_iff.1 hboth).1

end Sys2Proof.Machine
end

