-- ==== Sys2Proof/Proofs/Fades.lean ====
section
/-! SUPPORT. Changes under signal: what FT starts of a sink's change, what the close of the window advances and ends, and what
the Mortar's registers then show (R160, R162 to R165). -/

namespace Sys2Proof

/-! ### Sparse maps by their listed addresses -/

section
variable {α β : Type} {dflt : Nat → α} {k : Nat}

/-- An address that reads otherwise than unlisted ones is listed. -/
theorem SMap.mem_keys_of_get {m : SMap α} (h : SMap.get dflt m k ≠ dflt k) : k ∈ m.map (·.1) := by
  induction m with
  | nil => exact absurd rfl h
  | cons p m ih =>
    obtain ⟨j, v⟩ := p
    by_cases hj : j = k
    · exact List.mem_cons.2 (.inl hj.symm)
    · rw [SMap.get, if_neg hj] at h
      exact List.mem_cons_of_mem _ (ih h)

/-- The entries of an address after an insertion at another. -/
theorem SMap.filter_insert_other {s : Nat} (h : s ≠ k) (m : SMap α) (v : α) :
    (SMap.insert m s v).filter (fun p => p.1 == k) = m.filter fun p => p.1 == k := by
  induction m with
  | nil => simp [SMap.insert, h]
  | cons p m ih =>
    obtain ⟨j, w⟩ := p
    rw [SMap.insert]
    split
    · simp [h]
    · split
      · next hj => simp [h, hj]
      · rw [List.filter_cons, List.filter_cons, ih]

/-- The entries of an address that had none after an insertion at it. -/
theorem SMap.filter_insert_self {m : SMap α} (h : (m.filter fun p => p.1 == k) = []) (v : α) :
    (SMap.insert m k v).filter (fun p => p.1 == k) = [(k, v)] := by
  induction m with
  | nil => simp [SMap.insert]
  | cons p m ih =>
    obtain ⟨j, w⟩ := p
    have hj : ¬ j = k := by
      rintro rfl
      simp at h
    rw [List.filter_cons, if_neg (by simpa using hj)] at h
    rw [SMap.insert]
    split
    · simp [hj, h]
    · rw [List.filter_cons, if_neg (by simpa using hj), ih h]

/-- A read after writes of which those to the address all write one value. -/
theorem SMap.get_foldl_set [DecidableEq α] (key : β → Nat) (val : β → α) {v : α} (l : List β) (t : SMap α)
    (h : ∀ b ∈ l.filter (fun b => key b == k), val b = v) :
    SMap.get dflt (l.foldl (fun t b => SMap.set dflt t (key b) (val b)) t) k =
      if l.filter (fun b => key b == k) = [] then SMap.get dflt t k else v := by
  induction l generalizing t with
  | nil => rfl
  | cons b l ih =>
    rw [List.filter_cons] at h ⊢
    rw [List.foldl_cons]
    by_cases hb : key b = k
    · rw [if_pos (beq_iff_eq.2 hb)] at h ⊢
      rw [ih _ fun c hc => h c (List.mem_cons_of_mem _ hc), SMap.get_set, if_pos hb, h b List.mem_cons_self, ite_self,
        if_neg (List.cons_ne_nil _ _)]
    · rw [if_neg (mt beq_iff_eq.1 hb)] at h ⊢
      rw [ih _ h, SMap.get_set, if_neg hb]

end

namespace Machine

/-! ### What counting and raising a bit leave -/

section
variable (e : Die)

@[simp] theorem Die.raise_mor (f : Fld) (b : Bool) : (e.raise f b).mor = e.mor := by cases b <;> rfl

@[simp] theorem Die.count_mor (f : Fld) (n : Nat) : (e.count f n).mor = e.mor := by
  obtain ⟨r, hr, -⟩ := e.count_spec f n
  rw [hr]

@[simp] theorem Die.count_eng (f : Fld) (n : Nat) : (e.count f n).eng = e.eng := by
  obtain ⟨r, hr, -⟩ := e.count_spec f n
  rw [hr]

theorem Die.reg_raise_other {f : Fld} {a : Nat} (h : f.addr ≠ a) (b : Bool) : (e.raise f b).reg a = e.reg a := by
  cases b
  · rfl
  · exact e.reg_setFld_other h 1

end

/-! ### One sink of the Mortar -/

/-- What the Mortar holds of one sink: its front entry, the entry in force, and its fades. -/
structure SinkState where
  front : Word
  inForce : Word
  fades : List (Nat × Fade)

/-- Sink `k` as the Mortar holds it. -/
def Mortar.sinkState (m : Mortar) (k : Nat) : SinkState :=
  ⟨SMap.get wordDflt m.front k, SMap.get wordDflt m.inForce k, m.fades.filter fun f => f.1 == k⟩

/-- Sink `k` once its change has started: a fade that runs goes on, an entry that differs steps or begins a fade (R162, R164). -/
def SinkState.started (x : SinkState) (k : Nat) : SinkState :=
  if x.fades ≠ [] ∨ entDiffers x.front x.inForce = false then x
  else if entFade x.front = 0 then { x with inForce := x.front }
  else { x with fades := [(k, ⟨x.inForce, x.front, 0⟩)] }

theorem entDiffers_self (w : Word) : entDiffers w w = false := by simp [entDiffers]

section
variable {x : SinkState} {k : Nat}

theorem SinkState.started_of_rests (h : x.fades ≠ [] ∨ entDiffers x.front x.inForce = false) : x.started k = x := if_pos h

theorem SinkState.started_of_steps (hf : x.fades = []) (hd : entDiffers x.front x.inForce = true) (h0 : entFade x.front = 0) :
    x.started k = { x with inForce := x.front } := by
  rw [SinkState.started, if_neg (by simp [hf, hd]), if_pos h0]

theorem SinkState.started_of_fades (hf : x.fades = []) (hd : entDiffers x.front x.inForce = true) (h0 : entFade x.front ≠ 0) :
    x.started k = { x with fades := [(k, ⟨x.inForce, x.front, 0⟩)] } := by
  rw [SinkState.started, if_neg (by simp [hf, hd]), if_neg h0]

/-- A change that has started does not start again. -/
theorem SinkState.started_started : (x.started k).started k = x.started k := by
  by_cases h : x.fades ≠ [] ∨ entDiffers x.front x.inForce = false
  · rw [started_of_rests h, started_of_rests h]
  · obtain ⟨hf, hd⟩ := not_or.1 h
    have hf := not_not.1 hf
    have hd := Bool.of_not_eq_false hd
    by_cases h0 : entFade x.front = 0
    · rw [started_of_steps hf hd h0, started_of_rests (.inr (entDiffers_self _))]
    · rw [started_of_fades hf hd h0, started_of_rests (.inl (List.cons_ne_nil _ _))]

end

/-! ### The start of the changes at FT (R162, R164) -/

section
variable (m : Mortar) {k : Nat}

/-- A fade runs on a sink where its fades are not none. -/
theorem Mortar.any_fades (k : Nat) : m.fades.any (fun f => f.1 == k) = decide ((m.sinkState k).fades ≠ []) := by
  rw [Bool.eq_iff_iff, List.any_eq_true, decide_eq_true_iff, Mortar.sinkState, Ne, List.filter_eq_nil_iff]
  push Not
  rfl

section
variable {m}

/-- A sink that a fade runs on, or whose entries do not differ, starts nothing. -/
theorem Mortar.startChange_of_rests (h : (m.sinkState k).fades ≠ [] ∨
    entDiffers (m.sinkState k).front (m.sinkState k).inForce = false) : m.startChange k = m := by
  unfold Mortar.startChange
  rw [Mortar.any_fades]
  refine if_pos ?_
  rw [Bool.or_eq_true, decide_eq_true_eq, Bool.not_eq_true']
  exact h

theorem Mortar.startChange_of_differs (hf : (m.sinkState k).fades = [])
    (hd : entDiffers (m.sinkState k).front (m.sinkState k).inForce = true) :
    m.startChange k = if entFade (m.sinkState k).front = 0 then
      { m with inForce := SMap.set wordDflt m.inForce k (m.sinkState k).front }
    else { m with fades := SMap.insert m.fades k ⟨(m.sinkState k).inForce, (m.sinkState k).front, 0⟩ } := by
  unfold Mortar.startChange
  rw [Mortar.any_fades]
  refine if_neg ?_
  rw [Bool.or_eq_true, decide_eq_true_eq, Bool.not_eq_true', not_or, Bool.not_eq_false]
  exact ⟨not_not.2 hf, hd⟩

end

theorem Mortar.sinkState_startChange_self : (m.startChange k).sinkState k = (m.sinkState k).started k := by
  by_cases h : (m.sinkState k).fades ≠ [] ∨ entDiffers (m.sinkState k).front (m.sinkState k).inForce = false
  · rw [Mortar.startChange_of_rests h, SinkState.started_of_rests h]
  · obtain ⟨hf, hd⟩ := not_or.1 h
    have hf := not_not.1 hf
    have hd := Bool.of_not_eq_false hd
    rw [Mortar.startChange_of_differs hf hd]
    split
    · next h0 =>
      rw [SinkState.started_of_steps hf hd h0]
      simp only [Mortar.sinkState, SMap.get_set, if_true]
    · next h0 =>
      rw [SinkState.started_of_fades hf hd h0]
      simp only [Mortar.sinkState, SMap.filter_insert_self hf]

theorem Mortar.sinkState_startChange_other {s : Nat} (h : s ≠ k) : (m.startChange s).sinkState k = m.sinkState k := by
  unfold Mortar.startChange
  dsimp only
  split
  · rfl
  · split
    · simp only [Mortar.sinkState, SMap.get_set, if_neg h]
    · simp only [Mortar.sinkState, SMap.filter_insert_other h]

/-- The changes of some sinks start: that of a sink among them, once. -/
theorem Mortar.sinkState_foldl_startChange (l : List Nat) :
    (l.foldl Mortar.startChange m).sinkState k = if k ∈ l then (m.sinkState k).started k else m.sinkState k := by
  induction l generalizing m with
  | nil => rfl
  | cons s l ih =>
    rw [List.foldl_cons, ih]
    by_cases hs : s = k
    · subst hs
      rw [Mortar.sinkState_startChange_self, if_pos List.mem_cons_self, SinkState.started_started, ite_self]
    · rw [Mortar.sinkState_startChange_other m hs]
      simp only [List.mem_cons, Ne.symm hs, false_or]

/-- A sink whose entries differ is listed. -/
theorem Mortar.mem_listed (h : entDiffers (SMap.get wordDflt m.front k) (SMap.get wordDflt m.inForce k) = true) :
    k ∈ m.listed := by
  rw [Mortar.listed, List.mem_append, List.mem_filter]
  by_cases hf : k ∈ m.front.map (·.1)
  · exact .inl hf
  · have h0 : SMap.get wordDflt m.front k = wordDflt k := not_not.1 fun hn => hf (SMap.mem_keys_of_get hn)
    refine .inr ⟨SMap.mem_keys_of_get (dflt := wordDflt) fun hn => ?_, by simpa using hf⟩
    rw [h0, hn, wordDflt, entDiffers_self] at h
    exact absurd h Bool.false_ne_true

end

section
variable (e : Die) {k : Nat}

/-- At FT the change of every sink starts. -/
theorem Die.sinkState_fadeStart (k : Nat) : e.fadeStart.mor.sinkState k = (e.mor.sinkState k).started k := by
  have hfold : e.fadeStart.mor.sinkState k = (e.mor.listed.foldl Mortar.startChange e.mor).sinkState k := rfl
  rw [hfold, Mortar.sinkState_foldl_startChange]
  split
  · rfl
  · next hk =>
    refine (SinkState.started_of_rests (.inr ?_)).symm
    exact Bool.eq_false_iff.2 fun hd => hk (e.mor.mem_listed hd)

/-! ### The close of the window (R160, R162, R165) -/

/-- A fade one frame further on. -/
def Fade.next (f : Nat × Fade) : Nat × Fade := (f.1, { f.2 with pos := f.2.pos + 1 })

/-- The Mortar with every fade one frame further on, and those that have run their lengths ended. -/
def Mortar.advanced (m : Mortar) : Mortar := { m with
  fades := (m.fades.map Fade.next).filter fun f => f.2.pos < entFade f.2.new
  inForce := ((m.fades.map Fade.next).filter fun f => entFade f.2.new ≤ f.2.pos).foldl
    (fun t f => SMap.set wordDflt t f.1 f.2.new) m.inForce }

/-- The sinks whose change waits for FT with no fade running. -/
def Mortar.unstarted (m : Mortar) : Nat :=
  (m.listed.filter fun s => entDiffers (SMap.get wordDflt m.front s) (SMap.get wordDflt m.inForce s)
    && !m.fades.any (·.1 == s)).length

/-- The sinks with a fade running or a change waiting. -/
def Mortar.changing (m : Mortar) : Nat := m.fades.length + m.waits + m.unstarted

/-- The die once the window has closed with digest `n`: the fades have advanced, the changes are counted, and FADEDONE sets where
none is left. What follows of the close is proved for every `n`, so that no digest is computed. -/
def Die.closedWith (n : Nat) : Die :=
  let x := (e.setRegN R.MOR_DIGEST n).updMor Mortar.advanced
  ((x.setRegN R.MOR_FADECNT (x.mor.fades.length + (x.mor.waits + x.mor.unstarted) * 2 ^ 16)).updMor fun m =>
    { m with total := x.mor.changing }).raise F.MOR_IRQ_FADEDONE
    ((!e.mor.fades.isEmpty || e.mor.total != 0) && x.mor.changing == 0)

theorem Die.mortarClose_eq : e.mortarClose = e.closedWith e.mor.digest := rfl

theorem Die.closedWith_mor (n : Nat) :
    (e.closedWith n).mor = { e.mor.advanced with total := e.mor.advanced.changing } := by
  simp only [Die.closedWith, Die.raise_mor, Die.updMor_mor, Die.setRegN_mor]

theorem Die.digest_closedWith {n : Nat} (h : n < 2 ^ 32) : (e.closedWith n).regN R.MOR_DIGEST = n := by
  rw [Die.closedWith, Die.regN, Die.reg_raise_other _ (by decide), Die.updMor_reg, Die.setRegN, Die.reg_setReg,
    if_neg (by decide), Die.updMor_reg, Die.setRegN, Die.reg_setReg, if_pos rfl, BitVec.toNat_ofNat, Nat.mod_eq_of_lt h]

/-- With nothing changing before the close FADEDONE keeps (R165). -/
theorem Die.fadedone_closedWith_idle (n : Nat) (hf : e.mor.fades = []) (ht : e.mor.total = 0) :
    (e.closedWith n).bit F.MOR_IRQ_FADEDONE = e.bit F.MOR_IRQ_FADEDONE := by
  refine Die.bit_of_reg ?_
  rw [Die.closedWith, hf, ht]
  exact (Die.reg_setReg ..).trans (Die.reg_setReg ..)

/-- FADEDONE sets where the sinks with a fade running or a change waiting fall to none (R165). -/
theorem Die.fadedone_closedWith_falls (n : Nat) (hb : e.mor.fades ≠ [] ∨ e.mor.total ≠ 0)
    (hn : e.mor.advanced.changing = 0) : (e.closedWith n).bit F.MOR_IRQ_FADEDONE = true := by
  have hbusy : (!e.mor.fades.isEmpty || e.mor.total != 0) = true := by simpa using hb
  simp only [Die.closedWith, hbusy, Die.updMor_mor, Die.setRegN_mor, hn, beq_self_eq_true, Bool.and_self]
  exact Die.bit_setFld_self _ (Fld.fits_of rfl) 1

theorem Mortar.digest_lt (m : Mortar) : m.digest < 2 ^ 32 := by
  rw [Mortar.digest, crc32Words]
  exact Nat.lt_of_le_of_lt (Nat.sub_le _ _) (by decide)

/-- The fades of a sink, told apart after they have moved on. -/
theorem Mortar.filter_fades_next (m : Mortar) (p : Nat × Fade → Bool) :
    (((m.fades.map Fade.next).filter p).filter fun f => f.1 == k) = ((m.sinkState k).fades.map Fade.next).filter p := by
  rw [List.filter_comm, List.filter_map]
  rfl

/-- A sink after the close: its fades go on, and its entry in force is that of the one that ends. -/
theorem Mortar.sinkState_advanced (m : Mortar) {w : Word}
    (h : ∀ f ∈ ((m.sinkState k).fades.map Fade.next).filter fun f => entFade f.2.new ≤ f.2.pos, f.2.new = w) :
    m.advanced.sinkState k = ⟨(m.sinkState k).front,
      if (((m.sinkState k).fades.map Fade.next).filter fun f => entFade f.2.new ≤ f.2.pos) = [] then
        (m.sinkState k).inForce
      else w,
      ((m.sinkState k).fades.map Fade.next).filter fun f => f.2.pos < entFade f.2.new⟩ := by
  rw [← Mortar.filter_fades_next] at h
  have hget := SMap.get_foldl_set (dflt := wordDflt) Prod.fst (fun f : Nat × Fade => f.2.new) _ m.inForce h
  rw [Mortar.filter_fades_next] at hget
  rw [← Mortar.filter_fades_next m fun f => f.2.pos < entFade f.2.new]
  exact congrArg (SinkState.mk _ · _) hget

theorem Die.sinkState_mortarClose (k : Nat) : e.mortarClose.mor.sinkState k = e.mor.advanced.sinkState k := by
  rw [Die.mortarClose_eq, Die.closedWith_mor]
  rfl

/-- A sink with no fade stays as it is. -/
theorem Die.sinkState_mortarClose_plain (h : (e.mor.sinkState k).fades = []) :
    e.mortarClose.mor.sinkState k = e.mor.sinkState k := by
  rw [Die.sinkState_mortarClose, Mortar.sinkState_advanced e.mor (w := 0) (by simp [h]), h]
  exact congrArg (SinkState.mk _ _) h.symm

section
variable {fd : Fade} (h : (e.mor.sinkState k).fades = [(k, fd)])
include h

/-- A fade that has not run its length goes on (R162). -/
theorem Die.sinkState_mortarClose_goes (hp : fd.pos + 1 < entFade fd.new) :
    e.mortarClose.mor.sinkState k = { e.mor.sinkState k with fades := [(k, { fd with pos := fd.pos + 1 })] } := by
  have hnot : ¬ entFade fd.new ≤ fd.pos + 1 := Nat.not_le.2 hp
  rw [Die.sinkState_mortarClose, Mortar.sinkState_advanced e.mor (w := 0) (by simp [h, Fade.next, hnot]), h]
  simp [Fade.next, hp, hnot]

/-- A fade that has run its length ends, and its entry comes into force (R162). -/
theorem Die.sinkState_mortarClose_ends (hp : entFade fd.new ≤ fd.pos + 1) :
    e.mortarClose.mor.sinkState k = ⟨(e.mor.sinkState k).front, fd.new, []⟩ := by
  have hnot : ¬ fd.pos + 1 < entFade fd.new := Nat.not_lt.2 hp
  rw [Die.sinkState_mortarClose, Mortar.sinkState_advanced e.mor (w := fd.new) (by simp [h, Fade.next]), h]
  simp [Fade.next, hp, hnot]

end

/-- Nothing changes where no fade is left and no listed sink's entries differ. -/
theorem Mortar.changing_eq_zero {m : Mortar} (hf : m.fades = [])
    (hl : (m.listed.all fun j => !entDiffers (SMap.get wordDflt m.front j) (SMap.get wordDflt m.inForce j)) = true) :
    m.changing = 0 := by
  have hw : m.waits = 0 := by
    rw [Mortar.waits, hf]
    rfl
  have hu : m.unstarted = 0 := by
    rw [Mortar.unstarted, List.length_eq_zero_iff, List.filter_eq_nil_iff]
    intro j hj hd
    have hsame := List.all_eq_true.1 hl j hj
    rw [Bool.and_eq_true] at hd
    rw [hd.1] at hsame
    exact absurd hsame Bool.false_ne_true
  rw [Mortar.changing, hf, hw, hu]
  rfl

end

end Machine
end Sys2Proof
end

