-- ==== Sys2Proof/Proofs/Gather.lean ====
section
/-! SUPPORT. What every sink takes from the sources in the window, and the saturations counted (R148, R158, R163, R166); and the
commands that write the Mortar's routes, generators and bridge map (R149, R151, R170, R174). -/

namespace Sys2Proof.Machine

/-! ### The sinks of a window -/

/-- The sinks that an entry in force or a fade lists, without the reserved ones. -/
def Mortar.gathered (m : Mortar) : List Nat :=
  (m.inForce.map (·.1) ++ (m.fades.map (·.1)).filter (fun s => !m.inForce.any (·.1 == s))).filter sinkValid

/-- What a sink takes, and whether it saturates. -/
def Mortar.taken (m : Mortar) (src : Nat → Quarter) (s : Nat) : Nat × Quarter × Bool :=
  match m.fades.find? (·.1 == s) with
  | some f => (s, fadeValue f.2 src)
  | none => (s, plainValue (SMap.get wordDflt m.inForce s) src)

/-- The values of the sinks. -/
def Mortar.sinkMap (m : Mortar) (src : Nat → Quarter) : SMap Quarter :=
  (m.gathered.map (m.taken src)).foldl (fun t v => SMap.set quarterDflt t v.1 v.2.1) []

/-- The saturations of a window. -/
def Mortar.sats (m : Mortar) (src : Nat → Quarter) : Nat := ((m.gathered.map (m.taken src)).filter (fun v => v.2.2)).length

section
variable (e : Die) (src : Nat → Quarter) {k : Nat}

theorem Die.gather_eq : e.gather src =
    ((e.updMor fun m => { m with
      sinks := e.mor.sinkMap src
      pwOut := (e.seq, (e.mor.sinkMap src).filter fun v => 0x4300 ≤ v.1 && v.1 < 0x4400) :: m.pwOut.take 1 }).count
        F.MOR_SATCNT_COUNT (e.mor.sats src)).raise F.MOR_IRQ_SAT (e.mor.sats src != 0) := rfl

theorem Die.gather_mor : (e.gather src).mor = { e.mor with
    sinks := e.mor.sinkMap src
    pwOut := (e.seq, (e.mor.sinkMap src).filter fun v => 0x4300 ≤ v.1 && v.1 < 0x4400) :: e.mor.pwOut.take 1 } := by
  rw [Die.gather_eq, Die.raise_mor, Die.count_mor, Die.updMor_mor]

theorem Die.gather_sink : (e.gather src).sink k = SMap.get quarterDflt (e.mor.sinkMap src) k := by
  rw [Die.sink, Die.gather_mor]

end

section
variable (m : Mortar) (src : Nat → Quarter) {k : Nat}

/-- A sink that no fade runs on takes its source's value (R148, R166). -/
theorem Mortar.taken_plain (h : (m.sinkState k).fades = []) :
    m.taken src k = (k, plainValue (m.sinkState k).inForce src) := by
  have hf : m.fades.find? (·.1 == k) = none := by
    rw [← List.head?_filter]
    exact congrArg List.head? h
  rw [Mortar.taken, hf]
  rfl

/-- A sink in a fade takes the sum of the gained terms (R163). -/
theorem Mortar.taken_fade {fd : Fade} (h : (m.sinkState k).fades = [(k, fd)]) : m.taken src k = (k, fadeValue fd src) := by
  have hf : m.fades.find? (·.1 == k) = some (k, fd) := by
    rw [← List.head?_filter]
    exact congrArg List.head? h
  rw [Mortar.taken, hf]

theorem Mortar.taken_fst (s : Nat) : (m.taken src s).1 = s := by
  rw [Mortar.taken]
  split <;> rfl

/-- A sink that is gathered carries what it takes, and any other zero. -/
theorem Mortar.get_sinkMap :
    SMap.get quarterDflt (m.sinkMap src) k = if k ∈ m.gathered then (m.taken src k).2.1 else 0 := by
  have hval : ∀ v ∈ (m.gathered.map (m.taken src)).filter (fun v => v.1 == k), v.2.1 = (m.taken src k).2.1 := by
    intro v hv
    obtain ⟨hmem, hk⟩ := List.mem_filter.1 hv
    obtain ⟨s, -, rfl⟩ := List.mem_map.1 hmem
    rw [beq_iff_eq, Mortar.taken_fst] at hk
    rw [hk]
  rw [Mortar.sinkMap, SMap.get_foldl_set (fun v : Nat × Quarter × Bool => v.1) (fun v => v.2.1) _ _ hval]
  by_cases hk : k ∈ m.gathered
  · rw [if_pos hk, if_neg]
    exact List.ne_nil_of_mem (List.mem_filter.2 ⟨List.mem_map_of_mem hk, beq_iff_eq.2 (m.taken_fst src k)⟩)
  · rw [if_neg hk, if_pos]
    · rfl
    · refine List.filter_eq_nil_iff.2 fun v hv hvk => hk ?_
      obtain ⟨s, hs, rfl⟩ := List.mem_map.1 hv
      rwa [beq_iff_eq.1 hvk |>.symm.trans (m.taken_fst src s)]

/-- The sinks gathered are valid, and an entry in force or a fade lists them. -/
theorem Mortar.mem_gathered : k ∈ m.gathered ↔
    (k ∈ m.inForce.map (·.1) ∨ k ∈ m.fades.map (·.1)) ∧ sinkValid k = true := by
  have hany : m.inForce.any (fun p => p.1 == k) = true ↔ k ∈ m.inForce.map (·.1) := by
    simp only [List.any_eq_true, beq_iff_eq, List.mem_map]
  rw [Mortar.gathered, List.mem_filter, List.mem_append, List.mem_filter, Bool.not_eq_true', ← Bool.not_eq_true, hany]
  tauto

variable {m}

/-- Silence is what a sink carries that nothing routes to. -/
theorem Mortar.inForce_of_not_gathered (hv : sinkValid k = true) (h : k ∉ m.gathered) :
    (m.sinkState k).inForce = 0 ∧ (m.sinkState k).fades = [] := by
  rw [Mortar.mem_gathered, not_and_or, not_or] at h
  obtain ⟨hin, hfade⟩ := h.resolve_right (not_not.2 hv)
  refine ⟨not_not.1 fun hn => hin (SMap.mem_keys_of_get (dflt := wordDflt) hn), List.filter_eq_nil_iff.2 fun f hf hk => ?_⟩
  exact hfade (List.mem_map.2 ⟨f, hf, beq_iff_eq.1 hk⟩)

theorem plainValue_silence (h0 : src 0 = 0) : plainValue 0 src = (0, false) := by
  have hsrc : entSrc 0 = 0 := by decide
  have hmute : entMute 0 = false := by decide
  have hinv : entInv 0 = false := by decide
  rw [plainValue, hsrc, hmute, hinv, h0]
  rfl

end

section
variable (e : Die) {src : Nat → Quarter} {k : Nat}

/-- A reserved sink carries zero (R155). -/
theorem Die.gather_sink_reserved (h : sinkValid k = false) : (e.gather src).sink k = 0 := by
  rw [Die.gather_sink, Mortar.get_sinkMap, if_neg]
  intro hk
  exact Bool.eq_false_iff.1 h (e.mor.mem_gathered.1 hk).2

/-- A sink that no fade runs on carries its source's value (R148, R166). -/
theorem Die.gather_sink_plain (hv : sinkValid k = true) (h0 : src 0 = 0) (hf : (e.mor.sinkState k).fades = []) :
    (e.gather src).sink k = (plainValue (e.mor.sinkState k).inForce src).1 := by
  rw [Die.gather_sink, Mortar.get_sinkMap]
  split
  · rw [Mortar.taken_plain _ _ hf]
  · next hk => rw [(Mortar.inForce_of_not_gathered hv hk).1, plainValue_silence src h0]

/-- A sink in a fade carries the sum of the gained terms (R163). -/
theorem Die.gather_sink_fade (hv : sinkValid k = true) {fd : Fade} (hf : (e.mor.sinkState k).fades = [(k, fd)]) :
    (e.gather src).sink k = (fadeValue fd src).1 := by
  rw [Die.gather_sink, Mortar.get_sinkMap, if_pos, Mortar.taken_fade _ _ hf]
  refine not_not.1 fun hk => ?_
  rw [(Mortar.inForce_of_not_gathered hv hk).2] at hf
  exact absurd hf (List.cons_ne_nil _ _).symm

/-! ### Saturations (R163, R166) -/

/-- A value beyond the range of a quarter is marked. -/
theorem satMark_of_gt {x : Int} (h : 134217727 < x) : (satMark x).2 = true := by
  refine decide_eq_true fun hx => ?_
  rw [toInt_satQ, clampI_of_gt (by decide) (by omega)] at hx
  omega

/-- The most negative value saturates when it is negated. -/
theorem plainValue_saturates {w : Word} (hm : entMute w = false) (hi : entInv w = true)
    (hq : (src (entSrc w)).toInt = -134217728) : (plainValue w src).2 = true := by
  rw [plainValue, hm, hi, hq]
  exact satMark_of_gt (by decide)

/-- Without INV nothing saturates. -/
theorem plainValue_exact {w : Word} (hi : entInv w = false) : (plainValue w src).2 = false := by
  rw [plainValue, hi]
  cases entMute w <;> rfl

/-- A saturation is marked and counted. -/
theorem Die.gather_saturates (hn : e.mor.sats src ≠ 0) : (e.gather src).bit F.MOR_IRQ_SAT = true ∧
    min (e.fld F.MOR_SATCNT_COUNT + 1) (2 ^ F.MOR_SATCNT_COUNT.w - 1) ≤ (e.gather src).fld F.MOR_SATCNT_COUNT := by
  rw [Die.gather_eq, bne_iff_ne.2 hn]
  refine ⟨Die.bit_setFld_self _ (Fld.fits_of rfl) 1, ?_⟩
  rw [Die.raise, if_pos rfl, Die.fld_setFld_other _ _ _ (Fld.fits_of rfl) _ (.inl (by decide)),
    Die.fld_count_self _ (Fld.fits_of rfl), Die.updMor_fld, satAdd]
  omega

theorem Mortar.sats_pos {m : Mortar} (hk : k ∈ m.gathered) (hs : (m.taken src k).2.2 = true) : m.sats src ≠ 0 :=
  fun h => List.ne_nil_of_mem (List.mem_filter.2 ⟨List.mem_map_of_mem hk, hs⟩) (List.length_eq_zero_iff.1 h)

/-- Where no entry in force inverts and no fade runs, nothing saturates. -/
theorem Mortar.sats_eq_zero {m : Mortar} (hi : (m.inForce.all fun r => !entInv r.2) = true) (hf : m.fades = []) :
    m.sats src = 0 := by
  have hget : ∀ t : SMap Word, (t.all fun r => !entInv r.2) = true → ∀ s, entInv (SMap.get wordDflt t s) = false := by
    intro t
    induction t with
    | nil => exact fun _ _ => (by decide : entInv 0 = false)
    | cons p t ih =>
      intro h s
      rw [List.all_cons, Bool.and_eq_true, Bool.not_eq_true'] at h
      rw [SMap.get]
      split
      · exact h.1
      · exact ih h.2 s
  rw [Mortar.sats, List.length_eq_zero_iff, List.filter_eq_nil_iff]
  intro v hv hsat
  obtain ⟨s, -, rfl⟩ := List.mem_map.1 hv
  have hfades : (m.sinkState s).fades = [] := by
    rw [Mortar.sinkState, hf]
    rfl
  rw [Mortar.taken_plain m src hfades] at hsat
  exact Bool.eq_false_iff.1 (plainValue_exact (hget _ hi s)) hsat

/-- Without a saturation the window writes no register. -/
theorem Die.gather_regs (hn : e.mor.sats src = 0) : (e.gather src).regs = e.regs := by
  rw [Die.gather_eq, hn]
  rfl

/-- The party-wall channels of the window. -/
theorem Die.gather_pwOut : ∃ p : SMap Quarter, (e.gather src).mor.pwOut.head? = some (e.seq, p) ∧
    ∀ j, SMap.get quarterDflt p j = if 0x4300 ≤ j ∧ j < 0x4400 then (e.gather src).sink j else 0 := by
  refine ⟨_, by rw [Die.gather_mor]; rfl, fun j => ?_⟩
  rw [SMap.get_filter quarterDflt _ (fun a => 0x4300 ≤ a && a < 0x4400) j, Die.gather_sink]
  simp only [Bool.and_eq_true, decide_eq_true_eq]
  rfl

end

/-! ### Writes (R149, R151, R170, R174) -/

/-- A generator register has its row, and SINEn_INC is one of 32 bits. -/
theorem genRegs_rows : ∀ a ∈ genRegs, (regRow a).isSome = true := by decide

theorem sineInc_row : ∀ n < 4, R.MOR_SINE_INC n ∈ genRegs ∧
    (regRow (R.MOR_SINE_INC n)).map (·.fields) = some [⟨0, 32, .rw⟩] := by decide

section
variable (e : Die)

/-- A generator register takes what its fields hold of the value (R170). -/
theorem Die.genWrite_of_row {a : Nat} {r : RegRow} (ha : genRegs.contains a = true) (hr : regRow a = some r) (v : Word) :
    e.genWrite a v = e.setRegN a (r.fields.foldl (fun n f => n + bitsOf v.toNat f.lo f.w * 2 ^ f.lo) 0) := by
  rw [Die.genWrite, if_pos ha, hr]

theorem Die.genWrite_sineInc {n : Nat} (hn : n < 4) (v : Word) :
    e.genWrite (R.MOR_SINE_INC n) v = e.setReg (R.MOR_SINE_INC n) v := by
  obtain ⟨hmem, hrow⟩ := sineInc_row n hn
  obtain ⟨r, hr, hf⟩ := Option.map_eq_some_iff.1 hrow
  rw [e.genWrite_of_row (List.contains_iff_mem.2 hmem) hr, hf, Die.setRegN]
  congr 1
  simp only [List.foldl_cons, List.foldl_nil, bitsOf, pow_zero, Nat.div_one, Nat.mul_one, Nat.zero_add]
  rw [Nat.mod_eq_of_lt v.isLt, BitVec.ofNat_toNat, BitVec.setWidth_eq]

end

/-- Settles O21: the writes command by command, then one sink through the start of its change, the window and the close. -/
theorem mortarWrites : Obligations.MortarWrites := by
  refine ⟨?_, ?_⟩
  · intro d sink addr v s e
    refine ⟨fun hb hv => ?_, fun hb hv => ?_, fun hb => ?_, fun hb => ?_, fun n hn ha => ?_, fun hb => ?_, fun hg => ?_,
      fun hg => ?_, fun hoff => ?_, fun hoff => ?_⟩
    · refine (ChangesIn.of_updIn rfl).congr fun _ => ?_
      rw [Die.morwWrite, hb, if_neg Bool.false_ne_true]
      simp only [Mortar.setBack, hv, if_true]
    · refine (ChangesIn.of_updIn rfl).congr fun _ => ?_
      rw [Die.morwWrite, hb, if_neg Bool.false_ne_true]
      simp only [Mortar.setBack, hv, Bool.false_eq_true, if_false]
      rfl
    · refine (ChangesIn.of_updIn rfl).congr fun _ => ?_
      exact if_pos hb
    · exact (ChangesIn.of_updIn rfl).congr fun _ => if_pos hb
    · refine (Writes.of_writeIn rfl).congr ?_
      rw [ha, Die.genWrite_sineInc _ hn]
    · exact (ChangesIn.of_updIn rfl).congr fun _ => if_neg (ne_true_of_eq_false hb)
    · obtain ⟨r, hr⟩ := Option.isSome_iff_exists.1 (genRegs_rows _ (List.contains_iff_mem.1 hg))
      exact ⟨r, hr, (Writes.of_writeIn rfl).congr (Die.genWrite_of_row _ hg hr v)⟩
    · exact (Writes.of_writeIn rfl).congr (if_neg (ne_true_of_eq_false hg))
    · exact (Writes.of_writeIn rfl).congr (if_pos hoff)
    · exact (Writes.of_writeIn rfl).congr (if_neg hoff)
  · intro d src k s e m on new old st g q cl
    have starts : st.sinkState k = (m.sinkState k).started k := e.sinkState_fadeStart k
    have plain (hv : sinkValid k = true) (h0 : src 0 = 0) (hon : on m = []) : g.sink k = (plainValue old src).1 :=
      e.gather_sink_plain hv h0 hon
    refine ⟨fun hrest => ?_, fun hon hd => ⟨fun h0 => ?_, fun h0 => ?_⟩, fun hv => e.gather_sink_reserved hv,
      fun hv h0 hon => ?_, fun hv fd hon => e.gather_sink_fade hv hon, fun hv h0 hon hm hi hq => ?_,
      fun hi hf => e.gather_regs (Mortar.sats_eq_zero hi hf), e.gather_pwOut, fun hr hk => ?_, ?_, fun hon => ?_,
      fun fd hon hp => ?_, fun fd hon hp => ?_, fun hf ht => e.fadedone_closedWith_idle _ hf ht, fun hb hf hl => ?_⟩
    · rw [SinkState.started_of_rests hrest] at starts
      exact ⟨congrArg SinkState.fades starts, congrArg SinkState.inForce starts⟩
    · rw [SinkState.started_of_steps hon hd h0] at starts
      exact ⟨(congrArg SinkState.fades starts).trans hon, congrArg SinkState.inForce starts⟩
    · rw [SinkState.started_of_fades hon hd h0] at starts
      exact ⟨congrArg SinkState.fades starts, congrArg SinkState.inForce starts⟩
    · rw [plain hv h0 hon, plainValue]
      split
      · rfl
      · split <;> rfl
    · refine e.gather_saturates fun hn => ?_
      have hk : k ∈ m.gathered := by
        refine not_not.1 fun hk => ?_
        rw [show old = 0 from (Mortar.inForce_of_not_gathered hv hk).1] at hi
        exact absurd hi (by decide)
      refine Mortar.sats_pos hk ?_ hn
      rw [Mortar.taken_plain m src hon]
      exact plainValue_saturates hm hi hq
    · refine Changes.of_upd rfl ?_
      rw [Die.windowClose, hr, hk]
      rfl
    · exact e.digest_closedWith e.mor.digest_lt
    · have rests := e.sinkState_mortarClose_plain (k := k) hon
      exact ⟨(congrArg SinkState.fades rests).trans hon, congrArg SinkState.inForce rests⟩
    · have goes := e.sinkState_mortarClose_goes hon hp
      exact ⟨congrArg SinkState.fades goes, congrArg SinkState.inForce goes⟩
    · have ends := e.sinkState_mortarClose_ends hon hp
      exact ⟨congrArg SinkState.fades ends, congrArg SinkState.inForce ends⟩
    · have hmor : cl.mor = { m.advanced with total := m.advanced.changing } := e.closedWith_mor _
      rw [hmor] at hf hl
      exact e.fadedone_closedWith_falls _ hb (Mortar.changing_eq_zero hf hl)

end Sys2Proof.Machine
end

