-- ==== Sys2Proof/Proofs/Bridges.lean ====
section
/-! SUPPORT. The rate bridges: what a sample gives, what a lock and its loss do to each direction, and what a direction presents
(R175 to R179). -/

namespace Sys2Proof.Machine

/-! ### One direction beside the other -/

section
variable (e : Die) (s2m : Bool)

@[simp] theorem Die.bridge_updBridge_self (f : Bridge → Bridge) : (e.updBridge s2m f).bridge s2m = f (e.bridge s2m) := by
  cases s2m <;> rfl

@[simp] theorem Die.bridge_updBridge_other (f : Bridge → Bridge) : (e.updBridge s2m f).bridge (!s2m) = e.bridge (!s2m) := by
  cases s2m <;> rfl

/-- A die whose Mortar is another's has its bridges. -/
theorem Die.bridge_of_mor {e t : Die} (h : t.mor = e.mor) (s2m : Bool) : t.bridge s2m = e.bridge s2m := by
  rw [Die.bridge, h, Die.bridge]

/-- Each direction changes by its own state. -/
def Die.eachBridge (g : Nat → Bridge → Bridge) : Die :=
  [false, true].foldl (fun e s2m => e.updBridge s2m (g (e.fld (brState s2m)))) e

variable (g : Nat → Bridge → Bridge)

theorem Die.eachBridge_bridge : (e.eachBridge g).bridge s2m = g (e.fld (brState s2m)) (e.bridge s2m) := by
  cases s2m <;> rfl

theorem Die.eachBridge_bit (f : Fld) : (e.eachBridge g).bit f = e.bit f := rfl
theorem Die.eachBridge_ratio : (e.eachBridge g).mor.ratio = e.mor.ratio := rfl
theorem Die.eachBridge_eng : (e.eachBridge g).eng = e.eng := rfl

end

/-- LOCK stands apart from the states of the directions. -/
theorem lock_apart (s2m : Bool) : (brState s2m).addr ≠ F.MOR_BRCTL_LOCK.addr ∨
    (brState s2m).lo + (brState s2m).w ≤ F.MOR_BRCTL_LOCK.lo ∨
    F.MOR_BRCTL_LOCK.lo + F.MOR_BRCTL_LOCK.w ≤ (brState s2m).lo := by
  cases s2m <;> decide

/-! ### Lock and its loss (R177, R178) -/

/-- A direction in state `st` as LOCK sets: one that waits, or is ON, fades in. -/
def Bridge.lockGained (st : Nat) (b : Bridge) : Bridge :=
  if st = St.rising ∧ b.ramp = .zero ∨ st = St.on then { b with ramp := .fadeIn, pos := 0, phased := false }
  else { b with phased := false }

/-- A direction in state `st` as LOCK clears: one that is ON ramps to zero. -/
def Bridge.lockLost (st : Nat) (b : Bridge) : Bridge := if st = St.on then b.startDown 64 else b

section
variable (e : Die)

theorem Die.bridgeLock_held (ratio : Word) (h : e.bit F.MOR_BRCTL_LOCK = true) :
    e.bridgeLock ratio = (e.setFld F.MOR_BRCTL_LOCK 1).updMor fun m => { m with ratio := ratio } := if_pos h

theorem Die.bridgeLock_first (ratio : Word) (h : e.bit F.MOR_BRCTL_LOCK = false) : e.bridgeLock ratio =
    ((e.setFld F.MOR_BRCTL_LOCK 1).updMor fun m => { m with ratio := ratio }).eachBridge Bridge.lockGained := by
  rw [Die.bridgeLock, h, if_neg Bool.false_ne_true]
  rfl

theorem Die.bridgeLoss_unlocked (h : e.bit F.MOR_BRCTL_LOCK = false) : e.bridgeLoss = e := by
  rw [Die.bridgeLoss, h]
  rfl

theorem Die.updBridge_lockLost (s2m : Bool) (st : Nat) :
    (if st = St.on then e.updBridge s2m (·.startDown 64) else e) = e.updBridge s2m (Bridge.lockLost st) := by
  by_cases h : st = St.on
  · rw [if_pos h]
    exact congrArg (e.updBridge s2m) (funext fun b => (if_pos h).symm)
  · have hid : Bridge.lockLost st = fun b => b := funext fun b => if_neg h
    rw [if_neg h, hid]
    cases s2m <;> rfl

theorem Die.bridgeLoss_locked (h : e.bit F.MOR_BRCTL_LOCK = true) :
    e.bridgeLoss = ((e.setFld F.MOR_BRCTL_LOCK 0).setFld F.MOR_IRQ_BRLOCK 1).eachBridge Bridge.lockLost := by
  unfold Die.bridgeLoss Die.eachBridge
  rw [h]
  simp only [Die.updBridge_lockLost]
  rfl

/-- What a lock leaves (R177, R178). -/
theorem Die.bridgeLock_spec (ratio : Word) (s2m : Bool) :
    (e.bridgeLock ratio).bit F.MOR_BRCTL_LOCK = true ∧ (e.bridgeLock ratio).mor.ratio = ratio ∧
    (e.bridgeLock ratio).eng = e.eng ∧
    (e.bridgeLock ratio).bridge s2m = if e.bit F.MOR_BRCTL_LOCK then e.bridge s2m
      else (e.bridge s2m).lockGained (e.fld (brState s2m)) := by
  have hset : (e.setFld F.MOR_BRCTL_LOCK 1).bit F.MOR_BRCTL_LOCK = true := Die.bit_setFld_self _ (Fld.fits_of rfl) 1
  cases h : e.bit F.MOR_BRCTL_LOCK
  · rw [e.bridgeLock_first ratio h]
    refine ⟨(Die.eachBridge_bit ..).trans hset, Die.eachBridge_ratio .., Die.eachBridge_eng .., ?_⟩
    rw [Die.eachBridge_bridge, Die.updMor_fld, Die.fld_setFld_other _ _ _ (Fld.fits_of rfl) _ (lock_apart s2m)]
    cases s2m <;> rfl
  · rw [e.bridgeLock_held ratio h]
    refine ⟨(Die.updMor_bit ..).trans hset, rfl, rfl, ?_⟩
    cases s2m <;> rfl

/-- What the loss of a lock leaves (R177). -/
theorem Die.bridgeLoss_spec (h : e.bit F.MOR_BRCTL_LOCK = true) (s2m : Bool) :
    e.bridgeLoss.bit F.MOR_BRCTL_LOCK = false ∧ e.bridgeLoss.bit F.MOR_IRQ_BRLOCK = true ∧
    e.bridgeLoss.bridge s2m = (e.bridge s2m).lockLost (e.fld (brState s2m)) := by
  rw [e.bridgeLoss_locked h]
  refine ⟨?_, (Die.eachBridge_bit ..).trans (Die.bit_setFld_self _ (Fld.fits_of rfl) 1), ?_⟩
  · rw [Die.eachBridge_bit, Die.bit_setFld_other _ _ _ (Fld.fits_of rfl) _ (.inl (by decide)),
      Die.bit_setFld_self _ (Fld.fits_of rfl)]
    rfl
  · have irq : (brState s2m).addr ≠ F.MOR_IRQ_BRLOCK.addr := by cases s2m <;> decide
    rw [Die.eachBridge_bridge, Die.fld_setFld_other _ _ _ (Fld.fits_of rfl) _ (.inl irq),
      Die.fld_setFld_other _ _ _ (Fld.fits_of rfl) _ (lock_apart s2m)]
    exact congrArg _ (Die.bridge_of_mor rfl s2m)

end

/-! ### What a direction presents (R177, R178) -/

/-- A factor of zero gives zero. -/
theorem rampQ_zero (q : Quarter) (den : Nat) (up : Bool) : rampQ q (0, den) up = 0 := by
  simp [rampQ]

/-- A factor of one gives the value itself. -/
theorem rampQ_one (q : Quarter) (up : Bool) : rampQ q (1, 1) up = q := by
  simp [rampQ]

/-- A ramp that has run its length stands at zero. -/
theorem Bridge.level_down {b : Bridge} {len num den : Nat} (h : b.ramp = .down len num den) (hp : len ≤ b.pos) :
    b.level = (0, len * den) := by
  rw [Bridge.level, h, BrRamp.factor, Nat.min_eq_right hp, Nat.sub_self, Nat.zero_mul]

/-! ### The samples of an input period (R175) -/

section
variable (b : Bridge) (s2m : Bool) (r : Nat) (phi : BitVec 24)

/-- A period that opens counts its output samples and what is left over, and touches nothing else; the ratio leaves nothing of
the period over. -/
theorem Bridge.period_spec : ∃ n a a0 p, b.period s2m r phi = { b with n := n, acc := a, acc0 := a0, phased := p } ∧
    (r ≠ 0 → if s2m then n * r + a = a0 + 2 ^ 24 else n * 2 ^ 24 + a = a0 + r) := by
  unfold Bridge.period
  split
  · next hr => exact ⟨1, b.acc, b.acc0, b.phased, rfl, fun h => absurd hr h⟩
  · cases s2m
    · exact ⟨_, _, _, _, rfl, fun _ => Nat.div_add_mod' _ _⟩
    · exact ⟨_, _, _, _, rfl, fun _ => Nat.div_add_mod' _ _⟩

/-- The direction as it converts a sample of channel `ch`: a sample of no higher channel than the last opens a period. -/
def Bridge.opened (ch : Nat) : Bridge := if ch ≤ b.lastCh then b.period s2m r phi else b

theorem Bridge.opened_spec (ch : Nat) : ∃ n a a0 p,
    b.opened s2m r phi ch = { b with n := n, acc := a, acc0 := a0, phased := p } ∧ (b.lastCh < ch → n = b.n ∧ a = b.acc) ∧
    (ch ≤ b.lastCh → r ≠ 0 → if s2m then n * r + a = a0 + 2 ^ 24 else n * 2 ^ 24 + a = a0 + r) := by
  unfold Bridge.opened
  split
  · next hc =>
    obtain ⟨n, a, a0, p, hb, hr⟩ := b.period_spec s2m r phi
    exact ⟨n, a, a0, p, hb, fun h => absurd hc (Nat.not_le.2 h), fun _ => hr⟩
  · next hc => exact ⟨b.n, b.acc, b.acc0, b.phased, rfl, fun _ => ⟨rfl, rfl⟩, fun h => absurd h hc⟩

/-- The phase fractions of a period's output samples do not hang on the latest one, but where no ratio is tracked. -/
theorem Bridge.phiAt_congr {x : Bridge} (h0 : x.acc0 = b.acc0) (hphi : r = 0 → x.phi = b.phi) (j : Nat) :
    x.phiAt s2m r j = b.phiAt s2m r j := by
  unfold Bridge.phiAt
  split
  · next hr => exact hphi hr
  · rw [h0]

/-- A ramp at zero converts nothing. -/
theorem Bridge.outputs_zero {b : Bridge} (h : b.ramp = .zero) (hist : List Quarter) (ratio : Word) :
    ∀ y ∈ b.outputs s2m hist ratio, y = (0, false) := by
  intro y hy
  obtain ⟨j, -, rfl⟩ := List.mem_map.1 hy
  rw [h]
  rfl

/-- A full ramp converts every sample. -/
theorem Bridge.outputs_full {b : Bridge} (h : b.ramp = .full) (hist : List Quarter) (ratio : Word) :
    b.outputs s2m hist ratio = (List.range b.n).map fun j =>
      satMark (Config.bridgeFilter hist (b.phiAt s2m ratio.toNat j) j ratio) := by
  rw [Bridge.outputs, h]
  rfl

end

/-- The direction once a channel has taken input sample `x`: the sample joins the inputs, and its outputs join those that
wait. -/
def Bridge.taking (b : Bridge) (s2m : Bool) (ch : Nat) (x : Quarter) (ratio : Word) : Bridge :=
  let hist := x :: (SMap.get histDflt b.hist ch).take 95
  { b with
    lastCh := ch
    phi := if b.n = 0 then b.phi else b.phiAt s2m ratio.toNat (b.n - 1)
    hist := SMap.set histDflt b.hist ch hist
    out := SMap.set histDflt b.out ch
      (b.wait (SMap.get histDflt b.out ch) ((b.outputs s2m hist ratio).map (·.1))) }

/-- A sample of a direction changes it, and counts its saturations (R175, R179). -/
theorem Die.bridgeStep_spec (e : Die) (s2m : Bool) (ch : Nat) (x : Quarter) (phi : BitVec 24) : ∃ n,
    e.bridgeStep s2m ch x phi = (e.updBridge s2m fun _ =>
      ((e.bridge s2m).opened s2m e.mor.ratio.toNat phi ch).taking s2m ch x e.mor.ratio).count F.MOR_BRSAT_COUNT n := ⟨_, rfl⟩

theorem Die.bridgeStep_bridge (e : Die) (s2m : Bool) (ch : Nat) (x : Quarter) (phi : BitVec 24) :
    (e.bridgeStep s2m ch x phi).bridge s2m =
      ((e.bridge s2m).opened s2m e.mor.ratio.toNat phi ch).taking s2m ch x e.mor.ratio ∧
    (e.bridgeStep s2m ch x phi).bridge (!s2m) = e.bridge (!s2m) ∧ (e.bridgeStep s2m ch x phi).eng = e.eng := by
  obtain ⟨n, h⟩ := e.bridgeStep_spec s2m ch x phi
  have hmor := h ▸ Die.count_mor _ F.MOR_BRSAT_COUNT n
  refine ⟨?_, ?_, ?_⟩
  · rw [Die.bridge_of_mor hmor, Die.bridge_updBridge_self]
  · rw [Die.bridge_of_mor hmor, Die.bridge_updBridge_other]
  · rw [h, Die.count_eng]
    rfl

/-- What a direction's taking leaves of its phase fractions. -/
theorem Bridge.phiAt_taking (b : Bridge) (s2m : Bool) (ch : Nat) (x : Quarter) (ratio : Word) (j : Nat) :
    (b.taking s2m ch x ratio).phiAt s2m ratio.toNat j = b.phiAt s2m ratio.toNat j := by
  refine Bridge.phiAt_congr (x := b.taking s2m ch x ratio) b s2m _ rfl (fun h0 => ?_) j
  have hphi : b.phiAt s2m ratio.toNat (b.n - 1) = b.phi := if_pos h0
  exact (congrArg (ite _ _) hphi).trans (ite_self _)

/-- Settles O22: a sample by the period it opens, what is presented by the ramp's factor, and lock, loss and wait by the states of
the directions. -/
theorem rateBridges : Obligations.RateBridges := by
  intro d s2m ch phi ratio s e b r waits
  refine ⟨fun hoff => ?_, fun hon => ?_, fun c => ⟨fun hz => ?_, fun hf => ?_, fun len num den hd hp => ?_⟩, fun _ => ?_,
    fun hl => ?_, fun hl _ => ?_, fun hw => ?_, fun hw => ?_⟩
  · exact (ChangesIn.of_updIn (f := (·.bridgeSample s2m ch.toNat phi)) rfl).congr fun _ => if_pos hoff
  · refine (ChangesIn.of_updIn (f := (·.bridgeSample s2m ch.toNat phi)) rfl).to fun _ => ?_
    have hstep : (s.die d).bridgeSample s2m ch.toNat phi =
      e.bridgeStep s2m ch.toNat (e.bridgeInput s2m ch.toNat) phi := if_neg hon
    obtain ⟨hx, hother, heng⟩ := e.bridgeStep_bridge s2m ch.toNat (e.bridgeInput s2m ch.toNat) phi
    obtain ⟨n, a, a0, p, hb, hkeep, hratio⟩ := b.opened_spec s2m r phi ch.toNat
    rw [State.die_setDie_self, State.die_setDie_other, hstep, hother, heng, hx, hb]
    refine ⟨rfl, rfl, rfl, rfl, rfl, hkeep, hratio, ⟨_, ?_, rfl, fun hz y hy => ?_, fun hf => ?_⟩, rfl, rfl, rfl⟩
    · rw [List.length_map, Bridge.outputs, List.length_map, List.length_range]
      rfl
    · obtain ⟨q, hq, rfl⟩ := List.mem_map.1 hy
      rw [Bridge.outputs_zero s2m (by exact hz) _ _ q hq]
    · rw [Bridge.outputs_full s2m (by exact hf), List.map_map]
      refine List.map_congr_left fun j _ => ?_
      rw [Bridge.phiAt_taking]
      rfl
  · rw [Bridge.present, Bridge.level, hz]
    exact rampQ_zero ..
  · rw [Bridge.present, Bridge.level, hf]
    exact rampQ_one ..
  · rw [Bridge.present, Bridge.level_down hd hp]
    exact rampQ_zero ..
  · refine (ChangesIn.of_updIn (f := (·.bridgeLock ratio)) rfl).to fun _ => ?_
    obtain ⟨hlock, hr, heng, hbr⟩ := e.bridgeLock_spec ratio s2m
    rw [State.die_setDie_self, State.die_setDie_other]
    refine ⟨hlock, hr, fun hl hst => ?_, fun hl => ?_, heng, rfl⟩
    · rw [hbr, hl, if_neg Bool.false_ne_true]
      exact if_pos hst.symm
    · exact hbr.trans (if_pos hl)
  · exact (ChangesIn.of_updIn rfl).congr fun _ => e.bridgeLoss_unlocked hl
  · refine (ChangesIn.of_updIn (f := (·.bridgeLoss)) rfl).to fun _ => ?_
    obtain ⟨hlock, hirq, hbr⟩ := e.bridgeLoss_spec hl s2m
    rw [State.die_setDie_self, State.die_setDie_other]
    exact ⟨hlock, hirq, fun hst => hbr.trans (if_pos hst), fun hst => hbr.trans (if_neg hst), rfl⟩
  · obtain ⟨hst, hz, hen⟩ := hw
    exact (ChangesIn.of_updIn (f := (·.bridgeAbort s2m)) rfl).congr fun _ => if_pos ⟨hst, hz, by rw [hen]; rfl⟩
  · refine (ChangesIn.of_updIn (f := (·.bridgeAbort s2m)) rfl).congr fun _ => if_neg fun hn => hw ?_
    obtain ⟨hst, hz, hen⟩ := hn
    exact ⟨hst, hz, (Bool.not_eq_true' _).mp hen⟩

end Sys2Proof.Machine
end

