-- ==== Sys2Proof/Proofs/SceneWrites.lean ====
section
/-! SUPPORT. The writes of a recall's group (R200, R201): whichever register or window they reach, none of them touches the
swap state beside the slots' own registers, which holds the recalls that wait. -/

namespace Sys2Proof.Machine

/-- A fold of steps that each keep a view of the die keeps it. -/
theorem Die.foldl_keeps {α ι : Type} (view : Die → α) {step : Die → ι → Die} (h : ∀ x i, view (step x i) = view x)
    (l : List ι) (e : Die) : view (l.foldl step e) = view e := by
  induction l generalizing e with
  | nil => rfl
  | cons i l ih => rw [List.foldl_cons, ih, h]

section
variable (e : Die)

/-! ### Shared operations -/

@[simp] theorem Die.count_swp (f : Fld) (n : Nat) : (e.count f n).swp = e.swp :=
  Die.of_hidden Die.swp (fun _ => rfl) (e.hidden_count f n)

@[simp] theorem Die.raise_swp (f : Fld) (b : Bool) : (e.raise f b).swp = e.swp :=
  Die.of_hidden Die.swp (fun _ => rfl) (e.hidden_raise f b)

@[simp] theorem Die.logEv_swp (cls code w4 w5 w6 : Nat) : (e.logEv cls code w4 w5 w6).swp = e.swp :=
  Die.of_hidden Die.swp (fun _ => rfl) (e.hidden_logEv cls code w4 w5 w6)

@[simp] theorem Die.busError_swp (m : BitVec 3) (w : Bool) (c : Nat) (a : Word) : (e.busError m w c a).swp = e.swp := by
  obtain ⟨r, hr, -⟩ := e.busError_spec m w c a
  rw [hr, Die.served_swp]

@[simp] theorem Die.typed_swp (a : Nat) (v hw : Word) : (e.typed a v hw).swp = e.swp := by
  unfold Die.typed
  split <;> rfl

@[simp] theorem Die.clock_swp (m : Dom) (run : Bool) : (e.clock m run).swp = e.swp := by
  simp only [Die.clock, apply_ite Die.swp, ite_self]

@[simp] theorem Die.gpioMove_swp (f : Die → Die) : (e.gpioMove f).swp = (f e).swp := by
  obtain ⟨r, o, hr, -⟩ := e.gpioMove_spec f
  rw [hr]

/-! ### The array, the yard and the Mortar -/

@[simp] theorem Die.tileMarked_swp (c : Fin 28) (t row req : Nat) (m : BitVec 8) : (e.tileMarked c t row req m).swp = e.swp := by
  simp -implicitDefEqProofs [Die.tileMarked, Die.reportDbe, Die.healthNote, apply_ite Die.swp]

@[simp] theorem Die.zBackWrite_swp (c : Fin 28) (row : Nat) (lane : Fin 8) (q : Quarter) (err : RowErr) :
    (e.zBackWrite c row lane q err).swp = e.swp := e.tileMarked_swp ..

@[simp] theorem Die.pendCourse_swp (c : Fin 28) (i : Fin 4) : (e.pendCourse c i).swp = e.swp := by
  simp -implicitDefEqProofs [Die.pendCourse, apply_ite Die.swp]

@[simp] theorem Die.seatmapWrite_swp (w : Fin 4) (v : Word) : (e.seatmapWrite w v).swp = e.swp := by
  simp -implicitDefEqProofs [Die.seatmapWrite, apply_ite Die.swp]

@[simp] theorem Die.migGo_swp (w : Fin 4) : (e.migGo w).swp = e.swp := by
  unfold Die.migGo
  split
  · simp -implicitDefEqProofs [apply_ite Die.swp, apply_dite Die.swp]
  · rfl

@[simp] theorem Die.migAbort_swp (w : Fin 4) : (e.migAbort w).swp = e.swp := by
  simp -implicitDefEqProofs [Die.migAbort, Die.migEnd, apply_ite Die.swp]

@[simp] theorem Die.migArm_swp (w : Fin 4) : (e.migArm w).swp = e.swp := by
  simp -implicitDefEqProofs [Die.migArm, apply_ite Die.swp]

@[simp] theorem Die.migRearm_swp (w : Fin 4) : (e.migRearm w).swp = e.swp := by
  simp -implicitDefEqProofs [Die.migRearm, apply_ite Die.swp]

@[simp] theorem Die.loseWall_swp (w : Fin 4) (keep : Bool) : (e.loseWall w keep).swp = e.swp := by
  have h := Die.foldl_keeps Die.swp (step := fun e i => e.updCourse (courseAt w i) (·.lose keep)) (fun _ _ => rfl)
    (List.finRange 7) e
  simp -implicitDefEqProofs [Die.loseWall, apply_ite Die.swp, h]

@[simp] theorem Die.retLoss_swp (w : Fin 4) : (e.retLoss w).swp = e.swp := by
  simp -implicitDefEqProofs [Die.retLoss, apply_ite Die.swp]

@[simp] theorem Die.slotArm_swp (n : Fin 4) : (e.slotArm n).swp = e.swp := by
  simp -implicitDefEqProofs [Die.slotArm, apply_ite Die.swp]

@[simp] theorem Die.slotDisarm_swp (n : Fin 4) : (e.slotDisarm n).swp = e.swp := by
  simp -implicitDefEqProofs [Die.slotDisarm, apply_ite Die.swp]

@[simp] theorem Die.slotCtl_swp (n : Fin 4) (v : Word) : (e.slotCtl n v).swp = e.swp := by
  unfold Die.slotCtl
  split
  · exact e.slotArm_swp n
  · exact e.slotDisarm_swp n
  · rfl

@[simp] theorem Die.remapGo_swp (b : Fin 4) : (e.remapGo b).swp = e.swp := by
  unfold Die.remapGo
  split
  · rfl
  · split
    · exact e.setFld_swp _ _
    · dsimp only
      rw [Die.setFld_swp, Die.setFld_swp, Die.updYard_swp]

@[simp] theorem Die.hodPush_swp (h : Fin 16) (d3 : Word) : (e.hodPush h d3).swp = e.swp := by
  simp -implicitDefEqProofs [Die.hodPush, Die.updHod, apply_ite Die.swp]

@[simp] theorem Die.genWrite_swp (a : Nat) (v : Word) : (e.genWrite a v).swp = e.swp := by
  unfold Die.genWrite
  split
  · split <;> rfl
  · rfl

@[simp] theorem Die.bridgeEnable_swp (s2m : Bool) : (e.bridgeEnable s2m).swp = e.swp := by
  simp -implicitDefEqProofs [Die.bridgeEnable, Die.bridgeRise, Die.bridgeFall, Die.bridgeAbort, Die.updBridge, apply_ite Die.swp]

@[simp] theorem Die.bridgeMap_swp (v : Word) : (e.bridgeMap v).swp = e.swp := by
  simp -implicitDefEqProofs [Die.bridgeMap, apply_ite Die.swp]

/-- An ENGW write is an answer after at most two writes of back Z banks. Its decoding of the course is a variable here: the
kernel, asked to evaluate it, would count the window's base down one by one. -/
theorem Die.engwWrite_keeps {α : Type} (view : Die → α) (ha : ∀ (x : Die) m v, view (x.answer m v) = view x)
    (hz : ∀ (x : Die) c row lane q err, view (x.zBackWrite c row lane q err) = view x)
    (m : BitVec 3) (addr v : Word) (err : RowErr) : view (e.engwWrite m addr v err) = view e := by
  obtain ⟨write, hw⟩ : ∃ write, write = Die.engwWrite := ⟨_, rfl⟩
  rw [← hw]
  delta Die.engwWrite at hw
  generalize engwCourse = course at hw
  subst hw
  beta_reduce
  split
  · exact ha e m 0
  · simp only [apply_ite view, ha, hz, ite_self]

@[simp] theorem Die.engwWrite_swp (m : BitVec 3) (addr v : Word) (err : RowErr) : (e.engwWrite m addr v err).swp = e.swp :=
  e.engwWrite_keeps Die.swp Die.answer_swp Die.zBackWrite_swp m addr v err

@[simp] theorem Die.morwWrite_swp (sink : Nat) (v : Word) : (e.morwWrite sink v).swp = e.swp := by
  simp -implicitDefEqProofs [Die.morwWrite, apply_ite Die.swp]

/-! ### The allocator and the chain -/

@[simp] theorem Die.enqueue_swp (src : Fin 4) (ev : Block) : (e.enqueue src ev).swp = e.swp := by
  simp -implicitDefEqProofs [Die.enqueue, Die.qdrop, apply_ite Die.swp]

@[simp] theorem Die.voiceCfgWrite_swp (a : Nat) (v : Word) : (e.voiceCfgWrite a v).swp = e.swp := by
  unfold Die.voiceCfgWrite
  split
  · rfl
  · simp -implicitDefEqProofs [apply_ite Die.swp]

@[simp] theorem Die.mapWrite_swp (p : PortId) (v : Word) : (e.mapWrite p v).swp = e.swp := by
  simp -implicitDefEqProofs [Die.mapWrite, apply_ite Die.swp]

@[simp] theorem Die.chnCtrl_swp (v : Word) : (e.chnCtrl v).swp = e.swp := by
  simp -implicitDefEqProofs [Die.chnCtrl, Die.reseq, apply_ite Die.swp]

@[simp] theorem Die.pArm_swp : e.pArm.swp = e.swp := by
  simp -implicitDefEqProofs [Die.pArm, apply_ite Die.swp]

/-! ### The reference and the time -/

@[simp] theorem Die.alignShift_swp (f : Int) : (e.alignShift f).swp = e.swp := rfl

@[simp] theorem Die.refGo_swp (st : Nat) : (e.refGo st).swp = e.swp := by
  simp -implicitDefEqProofs [Die.refGo, apply_ite Die.swp]

@[simp] theorem Die.alignEnd_swp : e.alignEnd.swp = e.swp := by
  simp -implicitDefEqProofs [Die.alignEnd, apply_ite Die.swp]

@[simp] theorem Die.holdFreq_swp : e.holdFreq.swp = e.swp := by
  unfold Die.holdFreq
  split <;> rfl

@[simp] theorem Die.refHold_swp : e.refHold.swp = e.swp := by
  simp -implicitDefEqProofs [Die.refHold, apply_ite Die.swp]

@[simp] theorem Die.refSwitch_swp (i : Nat) : (e.refSwitch i).swp = e.swp := by
  simp -implicitDefEqProofs [Die.refSwitch]

@[simp] theorem Die.refSelect_swp : e.refSelect.swp = e.swp := by
  unfold Die.refSelect
  split
  · rfl
  · split <;> simp -implicitDefEqProofs [apply_ite Die.swp]

@[simp] theorem Die.refAlign_swp (v : Word) : (e.refAlign v).swp = e.swp := by
  simp -implicitDefEqProofs [Die.refAlign, Die.wckAlign, Die.ppsPlace, Die.alignAbort, apply_ite Die.swp]

@[simp] theorem Die.timeStepArm_swp : e.timeStepArm.swp = e.swp := by
  simp -implicitDefEqProofs [Die.timeStepArm, apply_ite Die.swp]

/-! ### Serial audio and control voltages -/

@[simp] theorem Die.sapCtrl_swp (p : Fin 8) (v : Word) : (e.sapCtrl p v).swp = e.swp := by
  simp -implicitDefEqProofs [Die.sapCtrl, apply_ite Die.swp]

@[simp] theorem Die.groupPhases_swp : e.groupPhases.swp = e.swp :=
  Die.foldl_keeps Die.swp (fun x p => by simp -implicitDefEqProofs [Die.unmeasured, apply_ite Die.swp]) _ e

@[simp] theorem Die.clockBack_swp (g : Fin 2) : (e.clockBack g).swp = e.swp := by
  simp -implicitDefEqProofs [Die.clockBack, apply_ite Die.swp]

@[simp] theorem Die.groupCtrl_swp (g : Fin 2) (v : Word) : (e.groupCtrl g v).swp = e.swp := by
  simp -implicitDefEqProofs [Die.groupCtrl, apply_ite Die.swp]

@[simp] theorem Die.cvData_swp (n : Fin 16) (v : Word) (setting : Bool) : (e.cvData n v setting).swp = e.swp := by
  simp -implicitDefEqProofs [Die.cvData, apply_ite Die.swp]

/-! ### The cores -/

@[simp] theorem Die.memRead_swp (master a n : Nat) (err : Option EccKind) : (e.memRead master a n err).2.swp = e.swp := by
  unfold Die.memRead
  dsimp only
  split <;> simp

@[simp] theorem Die.beatRead_swp (m : Fin 7) (a : Nat) (err : Option EccKind) : (e.beatRead m a err).2.swp = e.swp := by
  have h := e.memRead_swp m.val a 8 err
  unfold Die.beatRead
  split
  · next hr => rw [hr] at h; exact h
  · next hr => rw [hr] at h; simpa using h

@[simp] theorem Die.discardBeats_swp (m : Fin 7) (b : XBurst) : (e.discardBeats m b).swp = e.swp := by
  unfold Die.discardBeats
  split
  · rfl
  · exact Die.foldl_keeps Die.swp (fun x i => x.beatRead_swp m _ none) _ e

@[simp] theorem Die.masterReset_swp (m : Fin 7) : (e.masterReset m).swp = e.swp := by
  unfold Die.masterReset
  split <;> simp

@[simp] theorem Die.coreRun_swp (v : Word) : (e.coreRun v).swp = e.swp :=
  Die.foldl_keeps Die.swp (fun x n => by simp -implicitDefEqProofs [apply_ite Die.swp]) _ (e.setFld F.XBR_CORECTL_RUN v.toNat)

@[simp] theorem Die.semWrite_swp (m : BitVec 3) (s : Fin 16) (v : Word) : (e.semWrite m s v).swp = e.swp := by
  simp -implicitDefEqProofs [Die.semWrite, apply_ite Die.swp]

/-! ### The recorder, the counters and the freeze -/

@[simp] theorem Die.logClearWith_swp (keyed : Bool) (v : Word) : (e.logClearWith keyed v).swp = e.swp := by
  simp -implicitDefEqProofs [Die.logClearWith, apply_ite Die.swp]

@[simp] theorem Die.queueGap_swp : e.queueGap.swp = e.swp := by
  unfold Die.queueGap
  dsimp only
  rw [Die.updLog_swp, Die.foldl_keeps Die.swp fun x c => x.setFld_swp _ _]

@[simp] theorem Die.logFreeze_swp (v : Bool) : (e.logFreeze v).swp = e.swp := by
  simp -implicitDefEqProofs [Die.logFreeze, apply_ite Die.swp]

@[simp] theorem Die.markBad_swp (slot : Nat) : (e.markBad slot).swp = e.swp := by
  simp -implicitDefEqProofs [Die.markBad, apply_ite Die.swp]

@[simp] theorem Die.loadWindow_swp (slot : Nat) (err : Option EccKind) : (e.loadWindow slot err).swp = e.swp := by
  unfold Die.loadWindow
  dsimp only
  rw [Die.setRegN_swp, Die.foldl_keeps Die.swp fun x i => x.setReg_swp _ _]
  split
  · exact e.count_swp _ 1
  · exact e.markBad_swp slot
  · rfl

@[simp] theorem Die.logFwcode_swp (v : Word) : (e.logFwcode v).swp = e.swp := by
  simp -implicitDefEqProofs [Die.logFwcode, apply_ite Die.swp]

@[simp] theorem Die.pctCtrl_swp (v : Word) : (e.pctCtrl v).swp = e.swp := by
  simp -implicitDefEqProofs [Die.pctCtrl, apply_ite Die.swp]

@[simp] theorem Die.pctSelect_swp (n : Fin 8) (v : Word) : (e.pctSelect n v).swp = e.swp := by
  simp -implicitDefEqProofs [Die.pctSelect, apply_ite Die.swp]

@[simp] theorem Die.pctCounterWrite_swp (n : Fin 8) (v : Word) (inc : Bool) : (e.pctCounterWrite n v inc).swp = e.swp := by
  simp -implicitDefEqProofs [Die.pctCounterWrite, Die.pctWrap, apply_ite Die.swp]

@[simp] theorem Die.frzAsk_swp (cause : BitVec 2) : (e.frzAsk cause).swp = e.swp := by
  simp -implicitDefEqProofs [Die.frzAsk, apply_ite Die.swp]

/-! ### GPIO, MIDI, I2C and the flash -/

@[simp] theorem Die.gpioArm_swp : e.gpioArm.swp = e.swp := by
  simp -implicitDefEqProofs [Die.gpioArm, apply_ite Die.swp]

@[simp] theorem Die.midiStart_swp : e.midiStart.swp = e.swp := by
  simp -implicitDefEqProofs [Die.midiStart, apply_ite Die.swp]

@[simp] theorem Die.midiNext_swp : e.midiNext.swp = e.swp := by
  simp -implicitDefEqProofs [Die.midiNext, apply_ite Die.swp]

@[simp] theorem Die.midiPush_swp (b : Byte) : (e.midiPush b).swp = e.swp := by
  unfold Die.midiPush
  split
  · exact e.setFld_swp _ _
  · rw [Die.midiNext_swp, Die.updMisc_swp]

@[simp] theorem Die.i2cStart_swp (n : Fin 2) : (e.i2cStart n).swp = e.swp := by
  simp -implicitDefEqProofs [Die.i2cStart, apply_ite Die.swp]

@[simp] theorem Die.i2cGo_swp (n : Fin 2) (v : Word) : (e.i2cGo n v).swp = e.swp := by
  simp -implicitDefEqProofs [Die.i2cGo, apply_ite Die.swp]

@[simp] theorem Die.flashCommand_swp (v : Word) : (e.flashCommand v).swp = e.swp := by
  simp -implicitDefEqProofs [Die.flashCommand, Die.btlKey, apply_ite Die.swp]

end

/-! ### Writes that may have an effect of their own -/

/-- The effect of a write's own, where the register has one, leaves the swap state. -/
def Die.KeepsSwap (e : Die) (own : Option Die) : Prop := ∀ x, own = some x → x.swp = e.swp

section
variable {e : Die}

@[simp] theorem Die.keepsSwap_none : e.KeepsSwap none := fun _ h => nomatch h

@[simp] theorem Die.keepsSwap_some {x : Die} : e.KeepsSwap (some x) ↔ x.swp = e.swp :=
  ⟨fun h => h x rfl, fun h _ hx => Option.some.inj hx ▸ h⟩

theorem Die.KeepsSwap.ite {c : Prop} [Decidable c] {o o' : Option Die} (h : e.KeepsSwap o) (h' : e.KeepsSwap o') :
    e.KeepsSwap (if c then o else o') := by
  split
  · exact h
  · exact h'

theorem Die.KeepsSwap.map {ι : Type} {f : ι → Die} (h : ∀ i, (f i).swp = e.swp) (o : Option ι) : e.KeepsSwap (o.map f) := by
  cases o with
  | none => exact Die.keepsSwap_none
  | some i => exact Die.keepsSwap_some.2 (h i)

theorem Die.KeepsSwap.orElse {o o' : Option Die} (h : e.KeepsSwap o) (h' : e.KeepsSwap o') : e.KeepsSwap (o <|> o') := by
  cases o with
  | none => exact h'
  | some x => exact h

theorem Die.KeepsSwap.getD {o : Option Die} (h : e.KeepsSwap o) {x : Die} (hx : x.swp = e.swp) : (o.getD x).swp = e.swp := by
  cases o with
  | none => exact hx
  | some y => exact h y rfl

end

section
variable (e : Die) (m : BitVec 3) (a : Nat) (v hw : Word) (keyed : Bool)

theorem Die.keepsSwap_btlEffect : e.KeepsSwap (e.btlEffect a v) :=
  .ite (Die.keepsSwap_some.2 (e.flashCommand_swp v)) Die.keepsSwap_none

theorem Die.keepsSwap_refEffect : e.KeepsSwap (e.refEffect a v hw) := by
  refine .ite ?_ (.ite ?_ (.ite ?_ Die.keepsSwap_none)) <;> simp -implicitDefEqProofs [Die.rankWrite]

theorem Die.keepsSwap_timEffect : e.KeepsSwap (e.timEffect a v hw) :=
  .ite (by simp -implicitDefEqProofs [apply_ite Die.swp]) Die.keepsSwap_none

theorem Die.keepsSwap_portEffect (p : PortId) : e.KeepsSwap (e.portEffect p a v hw) :=
  .ite (by simp -implicitDefEqProofs [Die.fillRestart, apply_ite Die.swp])
    (.ite (Die.keepsSwap_some.2 (e.mapWrite_swp p v)) Die.keepsSwap_none)

theorem Die.keepsSwap_chnEffect : e.KeepsSwap (e.chnEffect a v hw) := by
  refine .ite ?_ (.ite ?_ (.ite ?_ Die.keepsSwap_none)) <;> simp -implicitDefEqProofs [apply_ite Die.swp]

theorem Die.keepsSwap_sapEffect : e.KeepsSwap (e.sapEffect a v hw) :=
  .orElse (.map (fun p => e.sapCtrl_swp p v) _)
    (.orElse (.map (fun p => by rw [Die.sapMask, Die.updSap_swp, Die.setReg_swp]) _) (.map (fun g => e.groupCtrl_swp g v) _))

theorem Die.keepsSwap_cvdEffect : e.KeepsSwap (e.cvdEffect a v hw) :=
  .orElse (.map (fun _ => e.setRegN_swp _ _) _) (.map (fun n => e.cvData_swp n v _) _)

theorem Die.keepsSwap_voxEffect : e.KeepsSwap (e.voxEffect a v) := by
  refine .ite ?_ (.ite ?_ (.ite ?_ Die.keepsSwap_none)) <;> simp -implicitDefEqProofs [Die.fwPush]

theorem Die.keepsSwap_morEffect : e.KeepsSwap (e.morEffect a v hw) := by
  refine .ite ?_ (.ite ?_ (.ite ?_ Die.keepsSwap_none)) <;> simp -implicitDefEqProofs

theorem Die.keepsSwap_engEffect : e.KeepsSwap (e.engEffect a v hw) := by
  refine .orElse (.map (fun c => ?_) _) (.orElse (.map (fun w => e.seatmapWrite_swp w v) _) (.orElse (.map (fun w => ?_) _)
    (.orElse (.map (fun n => ?_) _) (.orElse (.map (fun n => ?_) _) (.orElse (.map (fun n => e.slotCtl_swp n v) _)
      (.ite (Die.keepsSwap_some.2 ?_) Die.keepsSwap_none))))))
  · simp -implicitDefEqProofs [apply_ite Die.swp]
  · simp -implicitDefEqProofs [apply_ite Die.swp]
  · simp -implicitDefEqProofs [apply_ite Die.swp]
  · simp -implicitDefEqProofs [apply_ite Die.swp]
  · rw [Die.foldl_keeps Die.swp Die.retLoss_swp, Die.typed_swp]

theorem Die.keepsSwap_yrdEffect : e.KeepsSwap (e.yrdEffect a v hw) := by
  refine .orElse (.map (fun b => ?_) _) (.orElse (.ite (Die.keepsSwap_some.2 ?_) Die.keepsSwap_none)
    (.orElse (.ite (Die.keepsSwap_some.2 ?_) Die.keepsSwap_none) (.orElse (.map (fun _ => e.setReg_swp a v) _)
      (.orElse (.map (fun _ => e.setReg_swp a v) _) (.orElse (.map (fun _ => e.setReg_swp a v) _)
        (.map (fun h => e.hodPush_swp h v) _))))))
  · simp -implicitDefEqProofs [apply_ite Die.swp]
  · rw [Die.ringBack, Die.updYard_swp]
  · rw [Die.updYard_swp]

theorem Die.keepsSwap_xbrEffect : e.KeepsSwap (e.xbrEffect m a v) :=
  .orElse (.ite (Die.keepsSwap_some.2 (e.coreRun_swp v)) Die.keepsSwap_none)
    (.orElse (.map (fun s => e.semWrite_swp m s v) _) (.map (fun _ => e.setFld_swp _ _) _))

theorem Die.keepsSwap_logEffect : e.KeepsSwap (e.logEffect a v keyed) := by
  refine .ite ?_ (.ite ?_ (.ite ?_ (.ite ?_ Die.keepsSwap_none))) <;> simp -implicitDefEqProofs [Die.logCursor]

theorem Die.keepsSwap_pctEffect : e.KeepsSwap (e.pctEffect a v hw) :=
  .orElse (.ite (Die.keepsSwap_some.2 (e.pctCtrl_swp v)) Die.keepsSwap_none)
    (.orElse (.map (fun n => e.pctSelect_swp n v) _) (.map (fun n => e.pctCounterWrite_swp n v _) _))

theorem Die.keepsSwap_frzEffect : e.KeepsSwap (e.frzEffect m a v hw keyed) :=
  .ite (by simp -implicitDefEqProofs [apply_ite Die.swp]) Die.keepsSwap_none

theorem Die.keepsSwap_miscEffect : e.KeepsSwap (e.miscEffect a v hw) := by
  refine .orElse (.ite ?_ (.ite ?_ (.ite ?_ (.ite ?_ Die.keepsSwap_none)))) (.orElse (.map (fun n => ?_) _)
    (.map (fun n => e.i2cGo_swp n v) _)) <;> simp -implicitDefEqProofs [Die.i2cRecover, apply_ite Die.swp]

/-- No register write touches the swap state beside the slots' own registers. -/
@[simp] theorem Die.effect_swp : (e.effect m a v hw keyed).swp = e.swp := by
  refine Die.KeepsSwap.getD ?_ (e.typed_swp a v hw)
  split
  · exact e.keepsSwap_btlEffect a v
  · exact e.keepsSwap_refEffect a v hw
  · exact e.keepsSwap_timEffect a v hw
  · exact e.keepsSwap_portEffect a v hw .n
  · exact e.keepsSwap_portEffect a v hw .s
  · exact e.keepsSwap_chnEffect a v hw
  · exact e.keepsSwap_sapEffect a v hw
  · exact e.keepsSwap_cvdEffect a v hw
  · exact e.keepsSwap_voxEffect a v
  · exact e.keepsSwap_morEffect a v hw
  · exact e.keepsSwap_engEffect a v hw
  · exact e.keepsSwap_yrdEffect a v hw
  · exact e.keepsSwap_xbrEffect m a v
  · exact e.keepsSwap_logEffect a v keyed
  · exact e.keepsSwap_pctEffect a v hw
  · exact e.keepsSwap_frzEffect m a v hw keyed
  · exact e.keepsSwap_miscEffect a v hw
  · exact Die.keepsSwap_none

/-- Nor does any write of a recall's group. -/
@[simp] theorem Die.sceneWrite_swp (w : Word × Word) : (e.sceneWrite w).swp = e.swp := by
  unfold Die.sceneWrite
  split
  · exact e.engwWrite_swp 0 w.1 w.2 []
  · exact e.morwWrite_swp _ w.2
  · exact e.effect_swp 0 _ w.2 0 false
  · rfl

/-- Nor do all of them together. -/
theorem Die.foldl_sceneWrite_swp (ws : List (Word × Word)) : (ws.foldl Die.sceneWrite e).swp = e.swp :=
  Die.foldl_keeps Die.swp Die.sceneWrite_swp ws e

end

end Sys2Proof.Machine
end

