-- ==== Sys2Proof/Proofs/Scenes.lean ====
section
/-! SUPPORT. Swap slots and scene recalls: what ARM and DISARM do to a slot, how a slot is named and armed for a group, and which
groups a recall serves or leaves waiting (R190, R191, R200, R201). -/

namespace Sys2Proof.Machine

/-! ### ARM and DISARM (R190, R191) -/

section
variable {e : Die} {n : Fin 4}

theorem Die.slotArm_armed (h : e.bit (F.ENG_SWAP_CTL_ARMED n) = true) : e.slotArm n = e := if_pos h

theorem Die.slotArm_inTime (h : e.bit (F.ENG_SWAP_CTL_ARMED n) = false) (h2 : 2 ≤ e.framesTo (e.regN (R.ENG_SWAP_FRAME n)))
    (hlt : e.framesTo (e.regN (R.ENG_SWAP_FRAME n)) < 2 ^ 31) : e.slotArm n = e.setFld (F.ENG_SWAP_CTL_ARMED n) 1 := by
  rw [Die.slotArm, h, if_neg Bool.false_ne_true, if_pos ⟨h2, hlt⟩]

theorem Die.slotArm_late (h : e.bit (F.ENG_SWAP_CTL_ARMED n) = false)
    (hk : ¬ (2 ≤ e.framesTo (e.regN (R.ENG_SWAP_FRAME n)) ∧ e.framesTo (e.regN (R.ENG_SWAP_FRAME n)) < 2 ^ 31)) :
    e.slotArm n = e.setBitAt F.ENG_SWAPIRQ_LATE n true := by
  rw [Die.slotArm, h, if_neg Bool.false_ne_true, if_neg hk]

theorem Die.slotDisarm_unarmed (h : e.bit (F.ENG_SWAP_CTL_ARMED n) = false) : e.slotDisarm n = e := by
  rw [Die.slotDisarm, h, Bool.not_false, if_pos rfl]

theorem Die.slotDisarm_inTime (h : e.bit (F.ENG_SWAP_CTL_ARMED n) = true) (hk : 2 ≤ e.framesTo (e.regN (R.ENG_SWAP_FRAME n))) :
    e.slotDisarm n = e.setFld (F.ENG_SWAP_CTL_ARMED n) 0 := by
  rw [Die.slotDisarm, h, Bool.not_true, if_neg Bool.false_ne_true, if_pos hk]

theorem Die.slotDisarm_late (h : e.bit (F.ENG_SWAP_CTL_ARMED n) = true) (hk : e.framesTo (e.regN (R.ENG_SWAP_FRAME n)) < 2) :
    e.slotDisarm n = e.setBitAt F.ENG_SWAPIRQ_DISLATE n true := by
  rw [Die.slotDisarm, h, Bool.not_true, if_neg Bool.false_ne_true, if_neg (Nat.not_le.2 hk)]

end

/-! ### The registers of a slot -/

theorem R.swapMask_ne_frame (n : Fin 4) : R.ENG_SWAP_MASK n ≠ R.ENG_SWAP_FRAME n := by
  rw [R.ENG_SWAP_MASK, R.ENG_SWAP_FRAME]; omega

theorem R.swapMask_ne_ctl (n : Fin 4) : R.ENG_SWAP_MASK n ≠ R.ENG_SWAP_CTL n := by
  rw [R.ENG_SWAP_MASK, R.ENG_SWAP_CTL]; omega

theorem R.swapFrame_ne_ctl (n : Fin 4) : R.ENG_SWAP_FRAME n ≠ R.ENG_SWAP_CTL n := by
  rw [R.ENG_SWAP_FRAME, R.ENG_SWAP_CTL]; omega

theorem R.swapMask_ne_irq (n : Fin 4) : R.ENG_SWAP_MASK n ≠ R.ENG_SWAPIRQ := by
  rw [R.ENG_SWAP_MASK, R.ENG_SWAPIRQ]; omega

theorem R.swapFrame_ne_irq (n : Fin 4) : R.ENG_SWAP_FRAME n ≠ R.ENG_SWAPIRQ := by
  rw [R.ENG_SWAP_FRAME, R.ENG_SWAPIRQ]; omega

theorem R.swapCtl_ne_irq (n : Fin 4) : R.ENG_SWAP_CTL n ≠ R.ENG_SWAPIRQ := by
  rw [R.ENG_SWAP_CTL, R.ENG_SWAPIRQ]; omega

/-- A register is one that no slot command and no recall names: none of the slot's own, nor ENG_SWAPIRQ. -/
def ApartFromSlot (n : Fin 4) (a : Nat) : Prop :=
  a ≠ R.ENG_SWAP_MASK n ∧ a ≠ R.ENG_SWAP_FRAME n ∧ a ≠ R.ENG_SWAP_CTL n ∧ a ≠ R.ENG_SWAPIRQ

/-- ENG_SEQ lies below the slots. -/
theorem apartFromSlot_seq (n : Fin 4) : ApartFromSlot n R.ENG_SEQ := by
  rw [ApartFromSlot, R.ENG_SWAP_MASK, R.ENG_SWAP_FRAME, R.ENG_SWAP_CTL, R.ENG_SWAPIRQ, R.ENG_SEQ]
  omega

/-- The recorder's registers lie in another block. -/
theorem apartFromSlot_log {n : Fin 4} {a : Nat} (h : a / 0x1000 = R.LOG_CTRL / 0x1000) : ApartFromSlot n a := by
  rw [R.LOG_CTRL] at h
  rw [ApartFromSlot, R.ENG_SWAP_MASK, R.ENG_SWAP_FRAME, R.ENG_SWAP_CTL, R.ENG_SWAPIRQ]
  omega

theorem Die.regN_setRegN (e : Die) (a v b : Nat) (hv : v < 2 ^ 32) :
    (e.setRegN a v).regN b = if a = b then v else e.regN b := by
  rw [Die.regN, Die.setRegN, Die.reg_setReg]
  split
  · rw [BitVec.toNat_ofNat, Nat.mod_eq_of_lt hv]
  · rfl

theorem Die.reg_setRegN_other (e : Die) {a b : Nat} (v : Nat) (h : a ≠ b) : (e.setRegN a v).reg b = e.reg b := by
  rw [Die.setRegN, Die.reg_setReg, if_neg h]

/-- A slot that is to be armed for a frame: its names are written, and ARM. -/
def Die.slotSet (e : Die) (n : Fin 4) (mask frame : Nat) : Die := (e.slotName n mask frame).slotArm n

/-- What naming and arming slot `n` makes of a die, in time or not. -/
structure Die.SlotIsSet (x y : Die) (n : Fin 4) (mask frame : Nat) : Prop where
  hidden : y.hidden = x.hidden
  log : y.log = x.log
  mask : y.regN (R.ENG_SWAP_MASK n) = mask
  frame : y.regN (R.ENG_SWAP_FRAME n) = frame
  apart : ∀ a, ApartFromSlot n a → y.reg a = x.reg a

section
variable {x : Die} {n : Fin 4} {mask frame : Nat}

theorem Die.SlotIsSet.setFld {y : Die} (h : Die.SlotIsSet x y n mask frame) {f : Fld}
    (hf : f.addr = R.ENG_SWAP_CTL n ∨ f.addr = R.ENG_SWAPIRQ) (v : Nat) : Die.SlotIsSet x (y.setFld f v) n mask frame := by
  have hm : f.addr ≠ R.ENG_SWAP_MASK n := by
    rcases hf with hf | hf <;> rw [hf]
    · exact (R.swapMask_ne_ctl n).symm
    · exact (R.swapMask_ne_irq n).symm
  have hr : f.addr ≠ R.ENG_SWAP_FRAME n := by
    rcases hf with hf | hf <;> rw [hf]
    · exact (R.swapFrame_ne_ctl n).symm
    · exact (R.swapFrame_ne_irq n).symm
  refine ⟨h.hidden, h.log, ?_, ?_, fun a ha => ?_⟩
  · rw [Die.regN, Die.reg_setFld_other _ hm]
    exact h.mask
  · rw [Die.regN, Die.reg_setFld_other _ hr]
    exact h.frame
  · have hne : f.addr ≠ a := by
      rcases hf with hf | hf <;> rw [hf]
      · exact ha.2.2.1.symm
      · exact ha.2.2.2.symm
    rw [Die.reg_setFld_other _ hne, h.apart a ha]

variable (ha : x.bit (F.ENG_SWAP_CTL_ARMED n) = false)
include ha

theorem Die.slotName_unarmed : x.slotName n mask frame =
    (x.setRegN (R.ENG_SWAP_MASK n) mask).setRegN (R.ENG_SWAP_FRAME n) frame := by
  rw [Die.slotName, ha, if_neg Bool.false_ne_true]

theorem Die.slotName_isSet (hm : mask < 2 ^ 32) (hf : frame < 2 ^ 32) :
    Die.SlotIsSet x (x.slotName n mask frame) n mask frame := by
  rw [Die.slotName_unarmed ha]
  refine ⟨rfl, rfl, ?_, ?_, fun a h => ?_⟩
  · rw [Die.regN_setRegN _ _ _ _ hf, if_neg (R.swapMask_ne_frame n).symm, Die.regN_setRegN _ _ _ _ hm, if_pos rfl]
  · rw [Die.regN_setRegN _ _ _ _ hf, if_pos rfl]
  · obtain ⟨h1, h2, -, -⟩ := h
    rw [Die.reg_setRegN_other _ _ h2.symm, Die.reg_setRegN_other _ _ h1.symm]

/-- Naming a slot writes neither its CTL nor ENG_SWAPIRQ. -/
theorem Die.slotName_reg {a : Nat} (h : a = R.ENG_SWAP_CTL n ∨ a = R.ENG_SWAPIRQ) :
    (x.slotName n mask frame).reg a = x.reg a := by
  rw [Die.slotName_unarmed ha]
  rcases h with rfl | rfl
  · rw [Die.reg_setRegN_other _ _ (R.swapFrame_ne_ctl n), Die.reg_setRegN_other _ _ (R.swapMask_ne_ctl n)]
  · rw [Die.reg_setRegN_other _ _ (R.swapFrame_ne_irq n), Die.reg_setRegN_other _ _ (R.swapMask_ne_irq n)]

theorem Die.slotName_framesTo (hm : mask < 2 ^ 32) (hf : frame < 2 ^ 32) :
    (x.slotName n mask frame).framesTo ((x.slotName n mask frame).regN (R.ENG_SWAP_FRAME n)) = x.framesTo frame := by
  have h := Die.slotName_isSet ha hm hf
  rw [h.frame, Die.framesTo, Die.seq, Die.regN, h.apart _ (apartFromSlot_seq n)]
  rfl

/-- In time the slot arms, and ENG_SWAPIRQ stands (R190). -/
theorem Die.slotSet_inTime (hm : mask < 2 ^ 32) (hf : frame < 2 ^ 32) (hk : 2 ≤ x.framesTo frame ∧ x.framesTo frame < 2 ^ 31) :
    Die.SlotIsSet x (x.slotSet n mask frame) n mask frame ∧
      (x.slotSet n mask frame).bit (F.ENG_SWAP_CTL_ARMED n) = true ∧
      (x.slotSet n mask frame).reg R.ENG_SWAPIRQ = x.reg R.ENG_SWAPIRQ := by
  have hb : (x.slotName n mask frame).bit (F.ENG_SWAP_CTL_ARMED n) = false :=
    (Die.bit_of_reg (Die.slotName_reg ha (.inl rfl))).trans ha
  rw [← Die.slotName_framesTo ha hm hf] at hk
  rw [Die.slotSet, Die.slotArm_inTime hb hk.1 hk.2]
  refine ⟨(Die.slotName_isSet ha hm hf).setFld (.inl rfl) 1, ?_, ?_⟩
  · rw [Die.bit_setFld_self _ (Fld.fits_of rfl)]
    rfl
  · rw [Die.reg_setFld_other _ (R.swapCtl_ne_irq n)]
    exact Die.slotName_reg ha (.inr rfl)

/-- Late, the slot does not arm, and its LATE sets (R190). -/
theorem Die.slotSet_late (hm : mask < 2 ^ 32) (hf : frame < 2 ^ 32) (hk : ¬ (2 ≤ x.framesTo frame ∧ x.framesTo frame < 2 ^ 31)) :
    Die.SlotIsSet x (x.slotSet n mask frame) n mask frame ∧
      (x.slotSet n mask frame).bit (F.ENG_SWAP_CTL_ARMED n) = false ∧
      (x.slotSet n mask frame).bitAt F.ENG_SWAPIRQ_LATE n = true := by
  have hb : (x.slotName n mask frame).bit (F.ENG_SWAP_CTL_ARMED n) = false :=
    (Die.bit_of_reg (Die.slotName_reg ha (.inl rfl))).trans ha
  rw [← Die.slotName_framesTo ha hm hf] at hk
  rw [Die.slotSet, Die.slotArm_late hb hk]
  refine ⟨(Die.slotName_isSet ha hm hf).setFld (.inr rfl) _, ?_, ?_⟩
  · rw [Die.setBitAt, Die.bit_setFld_other _ _ _ (Fld.fits_of rfl) _ (.inl (R.swapCtl_ne_irq n)), hb]
  · rw [Die.bitAt_setBitAt _ (Fld.fits_of rfl) n.isLt, if_pos rfl]

end

/-! ### A group is served (R201) -/

/-- A recall takes a slot for a group. -/
def Die.slotTaken (e : Die) (n : Fin 4) : Die :=
  { e with swp := { e.swp with armedBy := n :: e.swp.armedBy.filter (· != n) } }

/-- What is left to do for a group once it is written: its slot. -/
def Die.sceneSlot (x : Die) (w : SceneWait) : Die :=
  let n := w.slot
  let t := (w.target + w.group.offset) % 2 ^ 32
  if x.bit (F.ENG_SWAP_CTL_ARMED n) then x
  else
    let e := (x.slotSet n w.group.mask.toNat t).slotTaken n
    if e.bit (F.ENG_SWAP_CTL_ARMED n) || !w.flag then e
    else
      let f := (e.seq + 2) % 2 ^ 32
      (e.slotSet n w.group.mask.toNat f).logEv 7 (Config.sceneCode true).toNat t f

theorem Die.SlotIsSet.trans {x y z : Die} {n : Fin 4} {mask frame mask' frame' : Nat} (h : Die.SlotIsSet x y n mask frame)
    (h' : Die.SlotIsSet y z n mask' frame') : Die.SlotIsSet x z n mask' frame' :=
  ⟨h'.hidden.trans h.hidden, h'.log.trans h.log, h'.mask, h'.frame, fun a ha => (h'.apart a ha).trans (h.apart a ha)⟩

/-- Taking the slot changes no register. -/
theorem Die.SlotIsSet.taken {x y : Die} {n : Fin 4} {mask frame : Nat} (h : Die.SlotIsSet x y n mask frame) :
    Die.SlotIsSet (x.slotTaken n) (y.slotTaken n) n mask frame :=
  ⟨congrArg (fun e => e.slotTaken n) h.hidden, h.log, h.mask, h.frame, h.apart⟩

theorem Die.sceneArm_eq (e : Die) (w : SceneWait) : e.sceneArm w = (w.group.writes.foldl Die.sceneWrite e).sceneSlot w := rfl

/-- The group's slot is named and taken, and beside the recorder nothing else changed. -/
structure Die.GroupIsSet (x t : Die) (n : Fin 4) (mask frame : Nat) : Prop where
  hidden : t.hidden = (x.slotTaken n).hidden
  mask : t.regN (R.ENG_SWAP_MASK n) = mask
  frame : t.regN (R.ENG_SWAP_FRAME n) = frame
  apart : ∀ a, ApartFromSlot n a → a / 0x1000 ≠ R.LOG_CTRL / 0x1000 → t.reg a = x.reg a

theorem Die.GroupIsSet.of_slotIsSet {x y : Die} {n : Fin 4} {mask frame : Nat} (h : Die.SlotIsSet (x.slotTaken n) y n mask frame) :
    Die.GroupIsSet x y n mask frame :=
  ⟨h.hidden, h.mask, h.frame, fun a ha _ => h.apart a ha⟩

/-- No register of a slot, nor ENG_SWAPIRQ, lies in the recorder's block. -/
theorem Die.reg_logEv_eng (e : Die) {a : Nat} (ha : a / 0x1000 = R.ENG_SWAPIRQ / 0x1000) (code w4 w5 w6 : Nat) :
    (e.logEv 7 code w4 w5 w6).reg a = e.reg a :=
  e.reg_logEv (by rw [ha]; decide) (by decide) code w4 w5 w6

theorem R.swapMask_block (n : Fin 4) : R.ENG_SWAP_MASK n / 0x1000 = R.ENG_SWAPIRQ / 0x1000 := by
  rw [R.ENG_SWAP_MASK, R.ENG_SWAPIRQ]; omega

theorem R.swapFrame_block (n : Fin 4) : R.ENG_SWAP_FRAME n / 0x1000 = R.ENG_SWAPIRQ / 0x1000 := by
  rw [R.ENG_SWAP_FRAME, R.ENG_SWAPIRQ]; omega

theorem R.swapCtl_block (n : Fin 4) : R.ENG_SWAP_CTL n / 0x1000 = R.ENG_SWAPIRQ / 0x1000 := by
  rw [R.ENG_SWAP_CTL, R.ENG_SWAPIRQ]; omega

/-- What a group's slot leaves of the die. -/
theorem Die.GroupIsSet.frame_eq {x t : Die} {n : Fin 4} {mask frame : Nat} (h : Die.GroupIsSet x t n mask frame) :
    t.eng = x.eng ∧ t.mor = x.mor ∧ t.yard = x.yard ∧ t.vox = x.vox ∧ t.mem = x.mem ∧ t.swp = (x.slotTaken n).swp := by
  have same {α : Type} (view : Die → α) (hv : ∀ x, view x.hidden = view x) : view t = view (x.slotTaken n) :=
    Die.of_hidden view hv h.hidden
  exact ⟨same Die.eng fun _ => rfl, same Die.mor fun _ => rfl, same Die.yard fun _ => rfl, same Die.vox fun _ => rfl,
    same Die.mem fun _ => rfl, same Die.swp fun _ => rfl⟩

/-- A record leaves the slot as it is set. -/
theorem Die.SlotIsSet.groupIsSet_logEv {x y : Die} {n : Fin 4} {mask frame : Nat}
    (h : Die.SlotIsSet (x.slotTaken n) y n mask frame) (code w4 w5 : Nat) :
    Die.GroupIsSet x (y.logEv 7 code w4 w5) n mask frame := by
  refine ⟨(y.hidden_logEv ..).trans h.hidden, ?_, ?_, fun a ha hl => ?_⟩
  · rw [Die.regN, Die.reg_logEv_eng _ (R.swapMask_block n)]
    exact h.mask
  · rw [Die.regN, Die.reg_logEv_eng _ (R.swapFrame_block n)]
    exact h.frame
  · rw [Die.reg_logEv _ hl (by decide)]
    exact h.apart a ha

/-- An event that finds the recorder idle is its one record to come (R434). -/
theorem Die.logEv_queue {e : Die} (cls code w4 w5 w6 : Nat) (hg : e.log.gathered = none) (hq : e.log.queue = [])
    (hr : e.runs .keep = true) (hf : e.bit F.LOG_CTRL_FREEZE = false) (hl : e.bit F.LOG_STAT_LOGFAIL = false) :
    (e.logEv cls code w4 w5 w6).log.queue = [e.record cls code w4 w5 w6] := by
  have hev : ¬ 16 ≤ e.log.events := by simp [LogUnit.events, hq]
  simp only [Die.logEv, hr, Bool.not_true, Bool.false_eq_true, if_false, hf, hl, Bool.or_false, hg, Die.logQueue, hev, hq,
    List.nil_append]

/-- Class and data of a record (R431). -/
theorem Die.record_says (e : Die) {cls : Nat} (hc : cls < 256) (code w4 w5 w6 : Nat) :
    (e.record cls code w4 w5 w6)[0].toNat / 2 ^ 24 = cls ∧ (e.record cls code w4 w5 w6)[4] = BitVec.ofNat 32 w4 ∧
      (e.record cls code w4 w5 w6)[5] = BitVec.ofNat 32 w5 := by
  refine ⟨?_, rfl, rfl⟩
  have hb : ∀ b, b2n b ≤ 1 := by decide
  have h1 := hb (!e.runs .eng)
  have h2 := hb (!e.bit F.TIM_STAT_VALID)
  have h3 := hb (e.id == .b)
  have h4 := hb e.isLead
  have h5 := Nat.mod_lt code (Nat.two_pow_pos 16)
  show (BitVec.ofNat 32 _).toNat / 2 ^ 24 = cls
  rw [BitVec.toNat_ofNat]
  omega

/-- The earliest frame that R190 accepts lies two ahead. -/
theorem Die.framesTo_earliest (e : Die) : e.framesTo ((e.seq + 2) % 2 ^ 32) = 2 := by
  have h : e.seq < 2 ^ 32 := (e.reg R.ENG_SEQ).isLt
  rw [Die.framesTo]
  omega

section
variable {x : Die} {w : SceneWait} (ha : x.bit (F.ENG_SWAP_CTL_ARMED w.slot) = false)
include ha

/-- In time the group's slot is armed for its target. -/
theorem Die.sceneSlot_inTime (hk : 2 ≤ x.framesTo ((w.target + w.group.offset) % 2 ^ 32) ∧
      x.framesTo ((w.target + w.group.offset) % 2 ^ 32) < 2 ^ 31) :
    Die.GroupIsSet x (x.sceneSlot w) w.slot w.group.mask.toNat ((w.target + w.group.offset) % 2 ^ 32) ∧
      (x.sceneSlot w).bit (F.ENG_SWAP_CTL_ARMED w.slot) = true ∧ (x.sceneSlot w).reg R.ENG_SWAPIRQ = x.reg R.ENG_SWAPIRQ ∧
      (x.sceneSlot w).log = x.log := by
  obtain ⟨hset, harm, hirq⟩ := Die.slotSet_inTime ha (mask := w.group.mask.toNat) (by omega) (Nat.mod_lt _ (by decide)) hk
  have heq : x.sceneSlot w = (x.slotSet w.slot w.group.mask.toNat ((w.target + w.group.offset) % 2 ^ 32)).slotTaken w.slot := by
    rw [Die.sceneSlot, ha]
    exact if_pos (Bool.or_eq_true_iff.2 (.inl harm))
  rw [heq]
  exact ⟨.of_slotIsSet hset.taken,
    harm, hirq, hset.log⟩

variable (hk : ¬ (2 ≤ x.framesTo ((w.target + w.group.offset) % 2 ^ 32) ∧
  x.framesTo ((w.target + w.group.offset) % 2 ^ 32) < 2 ^ 31))
include hk

/-- Late, and not allowed another frame, the slot is named only, and LATE sets. -/
theorem Die.sceneSlot_late (hw : w.flag = false) :
    Die.GroupIsSet x (x.sceneSlot w) w.slot w.group.mask.toNat ((w.target + w.group.offset) % 2 ^ 32) ∧
      (x.sceneSlot w).bit (F.ENG_SWAP_CTL_ARMED w.slot) = false ∧
      (x.sceneSlot w).bitAt F.ENG_SWAPIRQ_LATE w.slot = true := by
  obtain ⟨hset, harm, hlate⟩ := Die.slotSet_late ha (mask := w.group.mask.toNat) (by omega) (Nat.mod_lt _ (by decide)) hk
  have heq : x.sceneSlot w = (x.slotSet w.slot w.group.mask.toNat ((w.target + w.group.offset) % 2 ^ 32)).slotTaken w.slot := by
    rw [Die.sceneSlot, ha, hw]
    exact if_pos (Bool.or_eq_true_iff.2 (.inr rfl))
  rw [heq]
  exact ⟨.of_slotIsSet hset.taken,
    harm, hlate⟩

/-- Late, and allowed another frame, the slot is armed for the earliest, with LATE and a record of both frames. -/
theorem Die.sceneSlot_earliest (hw : w.flag = true) :
    Die.GroupIsSet x (x.sceneSlot w) w.slot w.group.mask.toNat ((x.seq + 2) % 2 ^ 32) ∧
      (x.sceneSlot w).bit (F.ENG_SWAP_CTL_ARMED w.slot) = true ∧
      (x.sceneSlot w).bitAt F.ENG_SWAPIRQ_LATE w.slot = true ∧
      (x.log.gathered = none → x.log.queue = [] → x.runs .keep = true → x.bit F.LOG_CTRL_FREEZE = false →
        x.bit F.LOG_STAT_LOGFAIL = false → ∃ r : LogRec, (x.sceneSlot w).log.queue = [r] ∧ r[0].toNat / 2 ^ 24 = 7 ∧
          r[4] = BitVec.ofNat 32 ((w.target + w.group.offset) % 2 ^ 32) ∧ r[5] = BitVec.ofNat 32 (x.seq + 2)) := by
  have hm : w.group.mask.toNat < 2 ^ 32 := by omega
  obtain ⟨hset, harm, hlate⟩ := Die.slotSet_late ha hm (Nat.mod_lt _ (by decide)) hk
  have hseq : (x.slotSet w.slot w.group.mask.toNat ((w.target + w.group.offset) % 2 ^ 32)).seq = x.seq :=
    congrArg BitVec.toNat (hset.apart _ (apartFromSlot_seq _))
  have heq : x.sceneSlot w = (((x.slotSet w.slot w.group.mask.toNat ((w.target + w.group.offset) % 2 ^ 32)).slotTaken
      w.slot).slotSet w.slot w.group.mask.toNat ((x.seq + 2) % 2 ^ 32)).logEv 7 (Config.sceneCode true).toNat
        ((w.target + w.group.offset) % 2 ^ 32) ((x.seq + 2) % 2 ^ 32) := by
    rw [Die.sceneSlot, ha, hw, ← hseq]
    have hno : ∀ b : Bool, b = false → ¬ (b || !true) = true := by decide
    exact if_neg (hno _ harm)
  rw [heq]
  generalize x.slotSet w.slot w.group.mask.toNat ((w.target + w.group.offset) % 2 ^ 32) = y at *
  have hnear : (y.slotTaken w.slot).framesTo ((x.seq + 2) % 2 ^ 32) = 2 := by
    rw [← hseq]
    exact y.framesTo_earliest
  obtain ⟨hset', harm', hirq'⟩ := Die.slotSet_inTime (x := y.slotTaken w.slot) harm hm
    (Nat.mod_lt (x.seq + 2) (Nat.two_pow_pos 32)) (by rw [hnear]; decide)
  have hall := hset.taken.trans hset'
  generalize (y.slotTaken w.slot).slotSet w.slot w.group.mask.toNat ((x.seq + 2) % 2 ^ 32) = z at *
  refine ⟨hall.groupIsSet_logEv .., ?_, ?_, fun hg hq hr hf hl => ?_⟩
  · rw [Die.bit_of_reg (z.reg_logEv_eng (R.swapCtl_block w.slot) ..)]
    exact harm'
  · rw [Die.bitAt, Die.fld_of_reg ((z.reg_logEv_eng rfl ..).trans hirq')]
    exact hlate
  · have hlog : z.log = x.log := hall.log
    refine ⟨_, Die.logEv_queue _ _ _ _ _ (by rw [hlog, hg]) (by rw [hlog, hq]) ?_ ?_ ?_, ?_⟩
    · exact (Die.of_hidden (fun e => e.runs .keep) (fun _ => rfl) hall.hidden).trans hr
    · rw [← hf]
      exact Die.bit_of_reg (hall.apart _ (apartFromSlot_log rfl))
    · rw [← hl]
      exact Die.bit_of_reg (hall.apart _ (apartFromSlot_log rfl))
    · obtain ⟨hc, h4, h5⟩ := z.record_says (by decide : 7 < 256) (Config.sceneCode true).toNat
        ((w.target + w.group.offset) % 2 ^ 32) ((x.seq + 2) % 2 ^ 32) 0
      refine ⟨hc, h4, h5.trans ?_⟩
      rw [← BitVec.toNat_inj, BitVec.toNat_ofNat, BitVec.toNat_ofNat, Nat.mod_mod]

end

/-- In every case the slot carries the group's mask, and some frame. -/
theorem Die.sceneSlot_isSet {x : Die} {w : SceneWait} (ha : x.bit (F.ENG_SWAP_CTL_ARMED w.slot) = false) :
    ∃ frame, Die.GroupIsSet x (x.sceneSlot w) w.slot w.group.mask.toNat frame := by
  by_cases hk : 2 ≤ x.framesTo ((w.target + w.group.offset) % 2 ^ 32) ∧ x.framesTo ((w.target + w.group.offset) % 2 ^ 32) < 2 ^ 31
  · exact ⟨_, (Die.sceneSlot_inTime ha hk).1⟩
  · by_cases hw : w.flag = true
    · exact ⟨_, (Die.sceneSlot_earliest ha hk hw).1⟩
    · exact ⟨_, (Die.sceneSlot_late ha hk (Bool.eq_false_iff.2 hw)).1⟩

/-! ### Recalls (R200, R201) -/

section
variable (e : Die) (p : Vector Block 2)

/-- The recall is one of the die's own show, while its image runs. -/
def Die.recallMine (e : Die) (p : Vector Block 2) : Prop :=
  e.imageRuns = true ∧ (bitsOf p[0].toNat 56 8 = 0x10 ∧ bitsOf p[0].toNat 48 8 = 1) ∧ bitsOf p[1].toNat 32 32 = e.swp.show_.toNat

/-- The slots of an older recall are disarmed where they can be; the others are kept in mind. -/
def Die.recallStart (e : Die) : Die :=
  let e := e.swp.armedBy.foldl (fun e n => if e.bit (F.ENG_SWAP_CTL_ARMED n) then e.slotDisarm n else e) e
  { e with swp := { e.swp with
    waits := []
    armedBy := []
    stuck := (e.swp.armedBy ++ e.swp.stuck).filter fun n => e.bit (F.ENG_SWAP_CTL_ARMED n) } }

/-- What a recall leaves to do for a group of slot 0. -/
def recallWait (g : SceneGroup) (p : Vector Block 2) : SceneWait := ⟨0, g, bitsOf p[0].toNat 0 32, natBit p[1].toNat 16⟩

theorem Die.sceneRecall_ignored (h : ¬ e.recallMine p) : e.sceneRecall p = e := by
  unfold Die.sceneRecall
  refine if_pos ?_
  simp only [Bool.or_eq_true, Bool.not_eq_true', bne_iff_ne, ne_eq]
  simp only [Die.recallMine, not_and_or, Bool.not_eq_true] at h
  tauto

variable (h : e.recallMine p)
include h

theorem Die.sceneRecall_absent
    (hs : e.swp.scenes.find? (fun sc => sc.number.toNat == bitsOf p[0].toNat 32 16) = none) :
    e.sceneRecall p = e.logEv 7 (Config.sceneCode false).toNat (bitsOf p[0].toNat 32 16) := by
  obtain ⟨hi, ⟨h1, h2⟩, h3⟩ := h
  simp only [Die.sceneRecall, hi, h1, h2, h3, bne_self_eq_false, Bool.not_true, Bool.or_false, Bool.false_eq_true, if_false, hs]

/-- A scene with one group places it in slot 0. -/
theorem Die.sceneRecall_single {sc : Scene} {g : SceneGroup}
    (hs : e.swp.scenes.find? (fun sc => sc.number.toNat == bitsOf p[0].toNat 32 16) = some sc) (hg : sc.groups = [g]) :
    e.sceneRecall p = e.recallStart.scenePlace (recallWait g p) := by
  obtain ⟨hi, ⟨h1, h2⟩, h3⟩ := h
  simp only [Die.sceneRecall, hi, h1, h2, h3, bne_self_eq_false, Bool.not_true, Bool.or_false, Bool.false_eq_true, if_false, hs,
    hg]
  rfl

end

section
variable {e : Die}

/-- With no older recall there is nothing to disarm. -/
theorem Die.recallStart_fresh (ha : e.swp.armedBy = []) (hs : e.swp.stuck = []) (hw : e.swp.waits = []) : e.recallStart = e := by
  have hswp : ∀ q : Swap, q.armedBy = [] → q.stuck = [] → q.waits = [] →
      { q with
        waits := []
        armedBy := []
        stuck := [] } = q := by
    rintro ⟨⟩ rfl rfl rfl
    rfl
  simp only [Die.recallStart, ha, List.foldl_nil, hs, List.append_nil, List.filter_nil, hswp e.swp ha hs hw]

/-- A slot of an older recall that can no longer be disarmed gets DISLATE, and is stuck. -/
theorem Die.recallStart_late {n : Fin 4} (ha : e.swp.armedBy = [n]) (hs : e.swp.stuck = [])
    (hb : e.bit (F.ENG_SWAP_CTL_ARMED n) = true) (hk : e.framesTo (e.regN (R.ENG_SWAP_FRAME n)) < 2) :
    e.recallStart = { e.setBitAt F.ENG_SWAPIRQ_DISLATE n true with swp := { e.swp with
      waits := []
      armedBy := []
      stuck := [n] } } := by
  have hb' : (e.setBitAt F.ENG_SWAPIRQ_DISLATE n true).bit (F.ENG_SWAP_CTL_ARMED n) = true := by
    rw [Die.setBitAt, Die.bit_setFld_other _ _ _ (Fld.fits_of rfl) _ (.inl (R.swapCtl_ne_irq n)), hb]
  simp only [Die.recallStart, ha, List.foldl_cons, List.foldl_nil, hb, if_true, Die.slotDisarm_late hb hk, Die.setBitAt_swp, hs,
    List.append_nil, List.filter_cons, List.filter_nil, hb']

/-- Where nothing is stuck, a group is served at once. -/
theorem Die.scenePlace_free {w : SceneWait} (hs : e.swp.stuck = []) : e.scenePlace w = e.sceneArm w := by
  rw [Die.scenePlace, Die.sceneBlocked, hs]
  rfl

/-- A group waits for a stuck slot that is its own or holds its scopes. -/
theorem Die.scenePlace_blocked {w : SceneWait} {n : Fin 4} (hs : e.swp.stuck = [n]) (hb : e.bit (F.ENG_SWAP_CTL_ARMED n) = true)
    (h : n = w.slot ∨ BitVec.ofNat 27 (e.regN (R.ENG_SWAP_MASK n)) &&& w.group.mask ≠ 0) :
    e.scenePlace w = { e with swp := { e.swp with waits := e.swp.waits ++ [w] } } := by
  have hbl : e.sceneBlocked w = true := by
    simp only [Die.sceneBlocked, hs, List.any_cons, List.any_nil, hb, Bool.true_and, Bool.or_false, Bool.or_eq_true,
      beq_iff_eq, bne_iff_ne]
    exact h
  rw [Die.scenePlace, if_pos hbl]

/-- A recall with one group and no older recall writes the group and then sets its slot. -/
theorem Die.sceneRecall_fresh {p : Vector Block 2} {sc : Scene} {g : SceneGroup} (hm : e.recallMine p)
    (hf : e.swp.scenes.find? (fun sc => sc.number.toNat == bitsOf p[0].toNat 32 16) = some sc) (hg : sc.groups = [g])
    (ha : e.swp.armedBy = []) (hs : e.swp.stuck = []) (hw : e.swp.waits = []) :
    e.sceneRecall p = (g.writes.foldl Die.sceneWrite e).sceneSlot (recallWait g p) := by
  rw [e.sceneRecall_single p hm hf hg, Die.recallStart_fresh ha hs hw, Die.scenePlace_free hs, Die.sceneArm_eq]
  rfl

/-- Where an older recall's slot holds the group's scopes and is late to disarm, the group waits. -/
theorem Die.sceneRecall_stuck {p : Vector Block 2} {sc : Scene} {g : SceneGroup} {n : Fin 4} (hm : e.recallMine p)
    (hf : e.swp.scenes.find? (fun sc => sc.number.toNat == bitsOf p[0].toNat 32 16) = some sc) (hg : sc.groups = [g])
    (ha : e.swp.armedBy = [n]) (hs : e.swp.stuck = []) (hb : e.bit (F.ENG_SWAP_CTL_ARMED n) = true)
    (hk : e.framesTo (e.regN (R.ENG_SWAP_FRAME n)) < 2)
    (hn : n = 0 ∨ BitVec.ofNat 27 (e.regN (R.ENG_SWAP_MASK n)) &&& g.mask ≠ 0) :
    e.sceneRecall p = { e.setBitAt F.ENG_SWAPIRQ_DISLATE n true with swp := { e.swp with
      armedBy := []
      stuck := [n]
      waits := [recallWait g p] } } := by
  rw [e.sceneRecall_single p hm hf hg, Die.recallStart_late ha hs hb hk]
  have hmask : (e.setBitAt F.ENG_SWAPIRQ_DISLATE n true).regN (R.ENG_SWAP_MASK n) = e.regN (R.ENG_SWAP_MASK n) :=
    congrArg BitVec.toNat (Die.reg_setFld_other e (R.swapMask_ne_irq n).symm _)
  rw [← hmask] at hn
  exact Die.scenePlace_blocked rfl
    ((Die.bit_setFld_other e _ _ (Fld.fits_of rfl) _ (.inl (R.swapCtl_ne_irq n))).trans hb) hn

/-! ### The frame tick -/

@[simp] theorem Die.tickLine_swp : e.tickLine.swp = e.swp :=
  Die.foldl_keeps Die.swp (fun x _ => x.setFld_swp _ 1) _ e

/-- The tick's latches are no slot's CTL. -/
theorem Die.bit_tickLine (n : Fin 4) : e.tickLine.bit (F.ENG_SWAP_CTL_ARMED n) = e.bit (F.ENG_SWAP_CTL_ARMED n) := by
  refine Die.foldl_keeps (Die.bit · (F.ENG_SWAP_CTL_ARMED n)) (fun x i => ?_) _ e
  refine x.bit_setFld_other _ _ (Fld.fits_of rfl) 1 (.inl ?_)
  show R.ENG_SWAP_CTL n ≠ R.XBR_N_LATCH i
  rw [R.ENG_SWAP_CTL, R.XBR_N_LATCH]
  omega

/-- Once the stuck slot is DONE, the group that waits for it is served. -/
theorem Die.sceneWaits_done {w : SceneWait} {n : Fin 4} (hw : e.swp.waits = [w]) (hs : e.swp.stuck = [n])
    (hb : e.bit (F.ENG_SWAP_CTL_ARMED n) = false) :
    e.sceneWaits = ({ e with swp := { e.swp with
      waits := []
      stuck := [] } } : Die).sceneArm w := by
  have hbl : e.sceneBlocked w = false := by
    simp only [Die.sceneBlocked, hs, List.any_cons, List.any_nil, hb, Bool.false_and, Bool.or_false]
  simp only [Die.sceneWaits, hw, hs, List.filter_cons, List.filter_nil, hbl, hb, Bool.not_false, if_true, Bool.false_eq_true,
    if_false, List.foldl_cons, List.foldl_nil]

/-- At the frame tick the group that waited for DONE is written, and its slot set. -/
theorem Die.sceneWaits_tickLine {w : SceneWait} {n : Fin 4} (hw : e.swp.waits = [w]) (hs : e.swp.stuck = [n])
    (hb : e.bit (F.ENG_SWAP_CTL_ARMED n) = false) :
    e.tickLine.sceneWaits = (w.group.writes.foldl Die.sceneWrite { e.tickLine with swp := { e.swp with
      waits := []
      stuck := [] } }).sceneSlot w := by
  rw [Die.sceneWaits_done (by rw [Die.tickLine_swp, hw]) (by rw [Die.tickLine_swp, hs]) ((Die.bit_tickLine n).trans hb),
    Die.sceneArm_eq, Die.tickLine_swp]

end

/-! ### The statement -/

section
variable {d : DieId} {n : Fin 4} {s : State}

/-- SWAP_ARM writes 1 to the slot's CTL. -/
theorem writes_swapArm : Writes .eng (R.ENG_SWAP_CTL n) 1 (.swapArm d n) s d (·.slotArm n) := Writes.of_writeIn rfl

/-- SWAP_DISARM writes 2 to it. -/
theorem writes_swapDisarm : Writes .eng (R.ENG_SWAP_CTL n) 2 (.swapDisarm d n) s d (·.slotDisarm n) := Writes.of_writeIn rfl

theorem changesIn_sceneRecall {p : Vector Block 2} : ChangesIn .eng (.sceneRecall d p) s d (·.sceneRecall p) :=
  ChangesIn.of_updIn rfl

end

/-- Settles O23: ARM and DISARM by the slot's state and its target, a recall by what stands of an older one, and the frame tick
by the group that waits. -/
theorem swapSlotsAndScenes : Obligations.SwapSlotsAndScenes := by
  refine ⟨fun d n s => ?_, fun d p sc g n s => ?_⟩
  · intro e k
    refine ⟨fun ha => ⟨?_, fun hk => ?_, fun hk => ?_⟩, fun ha => ⟨?_, fun h2 hlt => ?_, fun hk => ?_⟩⟩
    · exact writes_swapArm.congr (Die.slotArm_armed ha)
    · exact writes_swapDisarm.congr (Die.slotDisarm_inTime ha hk)
    · exact writes_swapDisarm.congr (Die.slotDisarm_late ha hk)
    · exact writes_swapDisarm.congr (Die.slotDisarm_unarmed ha)
    · exact writes_swapArm.congr (Die.slotArm_inTime ha h2 hlt)
    · refine writes_swapArm.congr (Die.slotArm_late ha fun h => ?_)
      exact hk.elim (Nat.not_lt.2 h.1) (Nat.not_le.2 h.2)
  · intro e head num mine found target written ticked k inTime made
    refine ⟨fun hm => ?_, fun hm hs => ?_, fun hm hf ha hs hw hb _ => ?_, fun hm hf ha hs hb hk hn => ?_,
      fun w hwg hws hw hs hb ht _ => ?_⟩
    · exact changesIn_sceneRecall.congr fun _ => e.sceneRecall_ignored p hm
    · exact changesIn_sceneRecall.congr fun _ => e.sceneRecall_absent p hm hs
    · have hplace : e.sceneRecall p = written.sceneSlot (recallWait g p) := Die.sceneRecall_fresh hm hf.1 hf.2 ha hs hw
      have hmade : ∀ {mask frame : Nat}, Die.GroupIsSet written (e.sceneRecall p) 0 mask frame →
          made (s.setDie d (e.sceneRecall p)) mask frame := fun h => by
        obtain ⟨heng, hmor, hyard, hvox, hmem, hswp⟩ := h.frame_eq
        simp only [made, State.die_setDie_self, State.die_setDie_other]
        exact ⟨heng, hmor, hyard, hvox, hmem, h.mask, h.frame, fun a h1 h2 h3 h4 => h.apart a ⟨h1, h2, h3, h4⟩,
          congrArg Swap.armedBy hswp, trivial⟩
      refine ⟨fun hk => changesIn_sceneRecall.to fun _ => ?_, fun hk hfl => changesIn_sceneRecall.to fun _ => ?_,
        fun hk hfl => changesIn_sceneRecall.to fun _ => ?_⟩
      · obtain ⟨hset, hslot⟩ := Die.sceneSlot_inTime (w := recallWait g p) hb hk
        rw [← hplace] at hset hslot
        exact ⟨hmade hset, by rwa [State.die_setDie_self]⟩
      · obtain ⟨hset, hslot⟩ := Die.sceneSlot_earliest (w := recallWait g p) hb hk hfl
        rw [← hplace] at hset hslot
        exact ⟨hmade hset, by rwa [State.die_setDie_self]⟩
      · obtain ⟨hset, hslot⟩ := Die.sceneSlot_late (w := recallWait g p) hb hk hfl
        rw [← hplace] at hset hslot
        exact ⟨hmade hset, by rwa [State.die_setDie_self]⟩
    · exact changesIn_sceneRecall.congr fun _ => Die.sceneRecall_stuck hm hf.1 hf.2 ha hs hb hk hn
    · refine (changesIn_frameTickLine d s).to fun _ => ?_
      subst hwg
      obtain ⟨frame, hset⟩ := Die.sceneSlot_isSet (x := ticked) (w := w) (by rw [hws]; exact ht)
      obtain ⟨heng, hmor, hyard, hvox, -, hswp⟩ := hset.frame_eq
      have hmask := hset.mask
      have hticked : ticked.swp = _ := Die.foldl_sceneWrite_swp _ w.group.writes
      rw [Die.slotTaken, hticked] at hswp
      rw [hws] at hmask
      rw [State.die_setDie_self, State.die_setDie_other, Die.sceneWaits_tickLine hw hs hb, hswp]
      exact ⟨heng, hmor, hyard, hvox, hmask, rfl, rfl, rfl⟩

end Sys2Proof.Machine
end

