-- ==== Sys2Proof/Proofs/NoteEvents.lean ====
section
/-! SUPPORT. Note events and batches: what enters the queue of the allocator, what a note load brings, what a batch takes of the
queue, and which batch a follow resolves (R207 to R213, R223, R285, R286). -/

namespace Sys2Proof.Machine

/-! ### An event enters the queue, or is dropped (R208, R211, R212) -/

section
variable (e : Die) (src : Fin 4) {ev : Block}

theorem Die.enqueue_discarded (h : evDiscarded ev = true) : e.enqueue src ev = e := if_pos h

theorem Die.enqueue_notOn (h : evDiscarded ev = false) (hs : e.voxState ≠ St.on) : e.enqueue src ev = e.qdrop src := by
  rw [Die.enqueue, h, if_neg Bool.false_ne_true, if_pos hs]

theorem Die.enqueue_full (h : evDiscarded ev = false) (hs : e.voxState = St.on) (hq : 512 ≤ e.vox.queue.length) :
    e.enqueue src ev = (e.qdrop src).setFld F.VOX_IRQ_QFULL 1 := by
  rw [Die.enqueue, h, if_neg Bool.false_ne_true, if_neg (not_not.2 hs), if_pos hq]

/-- An event that carries no time is due for the next frame whose batch has not closed (R212). -/
theorem Die.enqueue_untimed (h : evDiscarded ev = false) (hs : e.voxState = St.on) (hq : e.vox.queue.length < 512)
    (ht : natBit ev.toNat 63 = false) :
    e.enqueue src ev = e.updVox fun x => { x with
      queue := x.queue ++ [⟨ev, src, BitVec.ofNat 32 ((e.seq + (if e.eng.window then 2 else 1)) % 2 ^ 32)⟩] } := by
  rw [Die.enqueue, h, if_neg Bool.false_ne_true, if_neg (not_not.2 hs), if_neg (Nat.not_le.2 hq)]
  simp only [ht, Bool.false_and, Bool.false_eq_true, if_false]
  rfl

end

/-- Firmware pushes HI as written, with LO as it stands (R209). -/
theorem Die.fwPush_eq (e : Die) (hi : Word) :
    e.fwPush hi = (e.setReg R.VOX_FWEV_HI hi).enqueue 0 (hi ++ (e.setReg R.VOX_FWEV_HI hi).reg R.VOX_FWEV_LO) := by
  rw [Die.fwPush, Die.reg_setReg, if_neg (by decide)]

/-! ### A note load (R26, R210, R420) -/

section
variable {e : Die} {h : Block} {evs : List Block}

/-- The form of a note load that a die takes: KIND and VER are known, its events are all there, and its layer is listened to. -/
def Die.noteLoadOk (e : Die) (h : Block) (evs : List Block) : Prop :=
  bitsOf h.toNat 56 8 = 0x20 ∧ bitsOf h.toNat 48 8 = 1 ∧ 1 ≤ bitsOf h.toNat 32 6 ∧ bitsOf h.toNat 32 6 ≤ evs.length ∧
    e.bitAt F.VOX_CHLISTEN_LAYERS (bitsOf h.toNat 44 4) = true

theorem Die.noteCross_known (hr : e.runs .eng = true) (ok : e.noteLoadOk h evs) :
    e.noteCross (h :: evs) = (evs.take (bitsOf h.toNat 32 6)).foldl (fun e ev => e.enqueue 1 ev) e := by
  rw [Die.noteCross, if_pos hr]
  exact if_pos ok

theorem Die.noteCross_unknown (hr : e.runs .eng = true) (ok : ¬ e.noteLoadOk h evs) : e.noteCross (h :: evs) = e := by
  rw [Die.noteCross, if_pos hr]
  exact if_neg ok

theorem Die.noteCross_waits (hr : e.runs .eng = false) (hl : e.runs .ltx = true) (hi : e.idles = false) (p : List Block) :
    e.noteCross p = e.updChn fun c => { c with waiting := c.waiting ++ [.note p] } := by
  rw [Die.noteCross, hr, hl, hi]
  rfl

theorem Die.noteCross_lost (hr : e.runs .eng = false) (h : e.runs .ltx = false ∨ e.idles = true) (p : List Block) :
    e.noteCross p = e := by
  have hlost : (e.idles || !e.runs .ltx) = true := by
    rcases h with h | h <;> simp only [h, Bool.not_false, Bool.or_true, Bool.true_or]
  rw [Die.noteCross, hr, if_neg Bool.false_ne_true, if_pos hlost]

end

/-- FIRMWARE_EVENT_PUSH writes VOX_FWEV_HI. -/
theorem writes_firmwareEventPush {d : DieId} {hi : Word} {s : State} :
    Writes .eng R.VOX_FWEV_HI hi (.firmwareEventPush d hi) s d (·.fwPush hi) := Writes.of_writeIn rfl

/-- Settles O24: the branches of the queue's entry for a firmware event, and those of the crossing from LTX for a note load. -/
theorem eventsEnterTheQueue : Obligations.EventsEnterTheQueue := by
  refine ⟨fun d hi s => ?_, fun d h evs s => ?_⟩
  · intro e e1 ev next
    refine ⟨fun hd => ?_, fun hd hs => ?_, fun hd hs hq => ?_, fun hd hs hq ht => ?_⟩ <;>
      refine writes_firmwareEventPush.congr ((Die.fwPush_eq _ hi).trans ?_)
    · exact Die.enqueue_discarded _ _ hd
    · exact Die.enqueue_notOn _ _ hd hs
    · exact Die.enqueue_full _ _ hd hs hq
    · exact Die.enqueue_untimed _ _ hd hs hq ht
  · intro ok e
    exact ⟨fun hr hok => Changes.of_upd rfl (Die.noteCross_known hr hok),
      fun hr hok => Changes.of_upd rfl (Die.noteCross_unknown hr hok),
      fun hr hl hi => Changes.of_upd rfl (Die.noteCross_waits hr hl hi _),
      fun hr hlost => Changes.of_upd rfl (Die.noteCross_lost hr hlost _)⟩

/-! ### The batch (R213) -/

/-- What a batch takes beside what it had taken: events that are due, in the queue's order, and every other event is left in
that order. -/
theorem takeBatch_spec (k : Nat) (q taken : List NoteEv) (done cut : Bool) :
    ∃ t, (takeBatch k q taken done cut).1 = taken ++ t ∧ (∀ x ∈ t, x.dueBy k = true) ∧
      (t ++ (takeBatch k q taken done cut).2.1).Perm q ∧ ((takeBatch k q taken done cut).2.1).Sublist q ∧ t.Sublist q ∧
      (taken.length ≤ 64 → (taken ++ t).length ≤ 64) := by
  induction q generalizing taken done cut with
  | nil => exact ⟨[], (List.append_nil _).symm, nofun, .nil, .slnil, .slnil, by rw [List.append_nil]; exact id⟩
  | cons q qs ih =>
    have left (done cut : Bool) : ∃ t, (takeBatch k qs taken done cut).1 = taken ++ t ∧ (∀ x ∈ t, x.dueBy k = true) ∧
        (t ++ q :: (takeBatch k qs taken done cut).2.1).Perm (q :: qs) ∧
        (q :: (takeBatch k qs taken done cut).2.1).Sublist (q :: qs) ∧ t.Sublist (q :: qs) ∧
        (taken.length ≤ 64 → (taken ++ t).length ≤ 64) := by
      obtain ⟨t, ht, hdue, hperm, hrest, hsub, hlen⟩ := ih taken done cut
      exact ⟨t, ht, hdue, List.perm_middle.trans (hperm.cons q), hrest.cons_cons q, hsub.cons q, hlen⟩
    rw [takeBatch]
    split
    · exact left done cut
    · next hd =>
      split
      · exact left true cut
      · next hlen64 =>
        split
        · exact left true true
        · obtain ⟨t, ht, hdue, hperm, hrest, hsub, hlen⟩ := ih (taken ++ [q]) done cut
          rw [List.append_assoc, List.singleton_append] at ht hlen
          refine ⟨q :: t, ht, List.forall_mem_cons.2 ⟨?_, hdue⟩, hperm.cons q, hrest.cons q, hsub.cons_cons q, fun _ => hlen ?_⟩
          · simpa using (not_or.1 (mt Bool.or_eq_true_iff.2 hd)).2
          · rw [List.length_append, List.length_singleton]
            omega

/-! ### The follow (R223, R285, R286) -/

section
variable {e : Die} {own got : Batch}

theorem Die.followResolve_none (h : e.vox.own = none) : e.followResolve = e := by rw [Die.followResolve, h]

theorem Die.followResolve_received (h : e.vox.own = some own) (hr : e.vox.received = some got) (hf : got.frame = own.frame) :
    e.followResolve = (e.updVox fun x => { x with
      own := none
      received := none }).resolveBatch got := by
  rw [Die.followResolve, h, hr]
  simp only [Option.filter, beq_iff_eq.2 hf, if_true]

theorem Die.followResolve_own (h : e.vox.own = some own) (hr : ∀ b, e.vox.received = some b → b.frame ≠ own.frame) :
    e.followResolve = ((e.updVox fun x => { x with
      own := none
      received := none }).count F.VOX_PAIROWN_COUNT 1).resolveBatch own := by
  have hnone : (e.vox.received.filter fun b => b.frame == own.frame) = none :=
    Option.filter_eq_none_iff.2 fun b hb => mt beq_iff_eq.1 (hr b hb)
  rw [Die.followResolve, h]
  simp only [hnone]

end

section
variable {d : DieId} {s : State}

theorem exec_leadBatch_follow (h : (s.die d).voxFollows = true) :
    exec (.leadBatchReceive d) s = .next (s.wall d .batch fun e => e.updVox fun x => { x with
      received := (s.die d.other).vox.sent }) := by
  rw [exec_leadBatchReceive, execLeadBatchReceive, if_pos h]

/-- A die that does not follow, and one whose link is down, receives no batch. -/
theorem exec_leadBatch_none (h : (s.die d).voxFollows = false ∨ s.linked = false) : exec (.leadBatchReceive d) s = .next s := by
  rcases h with h | h
  · rw [exec_leadBatchReceive, execLeadBatchReceive, h]
    rfl
  · rw [exec_leadBatchReceive, execLeadBatchReceive, State.wall_unlinked h, ite_self]

/-- What waits for a block of a class that was lost is lost. -/
theorem State.wall_of_lost (h : s.linked = true) {c : PwClass} (hl : (s.die d).pair.lossy.contains c = true)
    (f : Die → Die) : s.wall d c f = s.upd d (·.lossTaken c) := by
  simp only [State.wall, h, hl, Bool.not_true, Bool.false_eq_true, if_false, if_true]

theorem changesIn_followResolve : ChangesIn .eng (.followResolve d) s d (·.followResolve) := ChangesIn.of_updIn rfl

end

/-- Settles O26: the batch passes the party wall as any traffic does, a resolution takes the branches of FOLLOW_RESOLVE, and the
batch is an induction over the queue. -/
theorem batchesAreResolved : Obligations.BatchesAreResolved := by
  refine ⟨fun d own got s => ?_, fun k q => ?_⟩
  · intro e
    refine ⟨fun hf hl => ⟨fun hn => ?_, fun hn => ?_⟩, fun hn => ?_, fun ho => ?_, fun ho hr hf => ?_, fun ho hr => ?_⟩
    · exact Changes.of_upd ((exec_leadBatch_follow hf).trans (by rw [State.wall_of_lossless hl hn])) rfl
    · exact Changes.of_upd ((exec_leadBatch_follow hf).trans (by rw [State.wall_of_lost hl hn])) rfl
    · exact (exec_leadBatch_none hn).trans (by rw [State.setDie_self])
    · exact changesIn_followResolve.congr fun _ => Die.followResolve_none ho
    · exact changesIn_followResolve.congr fun _ => Die.followResolve_received ho hr hf
    · exact changesIn_followResolve.congr fun _ => Die.followResolve_own ho hr
  · obtain ⟨t, ht, hdue, hperm, hrest, hsub, hlen⟩ := takeBatch_spec k q [] false false
    intro r
    rw [List.nil_append] at ht hlen
    rw [show r.1 = t from ht]
    exact ⟨hlen (Nat.zero_le _), hdue, hperm, hrest, hsub⟩

end Sys2Proof.Machine
end

