-- ==== Sys2Proof/Proofs/Voices.lean ====
section
/-! SUPPORT. The voices of the allocator as a map by number, the voices of a group, and what a batch's commands do to a voice and
to the command it is told (R208, R214, R216). -/

namespace Sys2Proof

/-! ### Sparse maps by their entries -/

section
variable {α : Type} {dflt : Nat → α} {lo k : Nat} {m : SMap α}

/-- Every address of a rising map reaches its bound. -/
theorem SMap.le_of_mem (h : SMap.rising lo m = true) {p : Nat × α} (hp : p ∈ m) : lo ≤ p.1 := by
  induction m generalizing lo with
  | nil => exact absurd hp List.not_mem_nil
  | cons q m ih =>
    simp only [SMap.rising, Bool.and_eq_true, decide_eq_true_eq] at h
    rcases List.mem_cons.1 hp with rfl | hp
    · exact h.1
    · exact (Nat.le_succ_of_le h.1).trans (ih h.2 hp)

/-- The entries of a rising map stand in strictly rising order. -/
theorem SMap.pairwise_of_rising (h : SMap.rising lo m = true) : m.Pairwise (·.1 < ·.1) := by
  induction m generalizing lo with
  | nil => exact .nil
  | cons q m ih =>
    simp only [SMap.rising, Bool.and_eq_true] at h
    exact .cons (fun p hp => SMap.le_of_mem h.2 hp) (ih h.2)

/-- A listed entry is what its address reads. -/
theorem SMap.get_of_mem (h : SMap.rising lo m = true) {p : Nat × α} (hp : p ∈ m) : SMap.get dflt m p.1 = p.2 := by
  induction m generalizing lo with
  | nil => exact absurd hp List.not_mem_nil
  | cons q m ih =>
    simp only [SMap.rising, Bool.and_eq_true] at h
    rcases List.mem_cons.1 hp with rfl | hp
    · exact if_pos rfl
    · exact (if_neg (Nat.ne_of_lt (SMap.le_of_mem h.2 hp))).trans (ih h.2 hp)

/-- An address that reads otherwise than unlisted ones is listed with what it reads. -/
theorem SMap.mem_of_get (h : SMap.rising lo m = true) (hk : SMap.get dflt m k ≠ dflt k) : (k, SMap.get dflt m k) ∈ m := by
  obtain ⟨p, hp, rfl⟩ := List.mem_map.1 (SMap.mem_keys_of_get hk)
  rw [SMap.get_of_mem h hp]
  exact hp

/-- A read of a map filtered by its entries. -/
theorem SMap.get_filter_entries (h : SMap.rising lo m = true) (f : Nat × α → Bool) (k : Nat) :
    SMap.get dflt (m.filter f) k = if f (k, SMap.get dflt m k) then SMap.get dflt m k else dflt k := by
  induction m generalizing lo with
  | nil => exact (ite_self _).symm
  | cons q m ih =>
    obtain ⟨j, v⟩ := q
    simp only [SMap.rising, Bool.and_eq_true] at h
    rw [List.filter_cons]
    by_cases hj : j = k
    · subst hj
      have hbelow : SMap.get dflt (m.filter f) j = dflt j := SMap.get_below (SMap.rising_filter f h.2) (Nat.lt_succ_self j)
      simp only [SMap.get, if_true]
      split
      · exact if_pos rfl
      · exact hbelow
    · simp only [SMap.get, if_neg hj, ← ih h.2]
      split
      · exact if_neg hj
      · rfl

/-- A read of a map whose values are changed alike, where the change leaves what unlisted addresses read as. -/
theorem SMap.get_map_values (f : α → α) (hf : f (dflt k) = dflt k) :
    SMap.get dflt (m.map fun p => (p.1, f p.2)) k = f (SMap.get dflt m k) := by
  induction m with
  | nil => exact hf.symm
  | cons q m ih =>
    rw [List.map_cons, SMap.get, SMap.get, ih]
    exact (apply_ite f _ _ _).symm

/-- Changing values keeps the addresses rising. -/
theorem SMap.rising_map_values (f : α → α) (h : SMap.rising lo m = true) :
    SMap.rising lo (m.map fun p => (p.1, f p.2)) = true := by
  induction m generalizing lo with
  | nil => rfl
  | cons q m ih =>
    simp only [SMap.rising, Bool.and_eq_true, List.map_cons] at h ⊢
    exact ⟨h.1, ih h.2⟩

/-- Inserting at a listed address replaces the entry where it stands. -/
theorem SMap.insert_of_mem (h : SMap.rising lo m = true) {x : α} (hx : (k, x) ∈ m) (y : α) :
    ∃ l l', m = l ++ (k, x) :: l' ∧ SMap.insert m k y = l ++ (k, y) :: l' := by
  induction m generalizing lo with
  | nil => exact absurd hx List.not_mem_nil
  | cons q m ih =>
    obtain ⟨j, v⟩ := q
    simp only [SMap.rising, Bool.and_eq_true] at h
    rcases List.mem_cons.1 hx with hq | hx
    · cases hq
      exact ⟨[], m, rfl, by rw [SMap.insert, if_neg (Nat.lt_irrefl k), if_pos rfl, List.nil_append]⟩
    · have hj : j < k := SMap.le_of_mem h.2 hx
      obtain ⟨l, l', hm, hi⟩ := ih h.2 hx
      refine ⟨(j, v) :: l, l', by rw [hm, List.cons_append], ?_⟩
      rw [SMap.insert, if_neg hj.not_gt, if_neg hj.ne, hi, List.cons_append]

end

namespace Machine

/-! ### Voices by number (R214) -/

/-- The voices of a die stand in canonical form (assumption log 8). -/
def Die.voicesWf (e : Die) : Prop := SMap.wf (fun _ => Voice.none) e.vox.voices = true

/-- The voice is one of a group, not IDLE, that satisfies a condition. -/
def Voice.among (x : Voice) (g : Nat) (P : Voice → Bool) : Bool := x.group.toNat == g && x.state != .idle && P x

theorem Voice.among_iff {x : Voice} {g : BitVec 4} {P : Voice → Bool} (hP : x.state = .idle → P x = false) :
    x.among g.toNat P = true ↔ x.group = g ∧ P x = true := by
  simp only [Voice.among, Bool.and_eq_true, beq_iff_eq, bne_iff_ne, BitVec.toNat_inj, and_assoc, ne_eq, and_congr_right_iff,
    and_iff_right_iff_imp]
  exact fun _ hp hi => Bool.false_ne_true ((hP hi).symm.trans hp)

theorem Voice.not_busy_of_idle {x : Voice} (h : x.state = .idle) : x.busy = false := by rw [Voice.busy, h]; rfl

theorem Voice.not_busy_of_fade {x : Voice} (h : x.state = .fade) : x.busy = false := by rw [Voice.busy, h]; rfl

theorem Voice.ne_none {x : Voice} (h : x.state ≠ .idle) : x ≠ Voice.none := fun hx => h (congrArg Voice.state hx)

section
variable {e : Die}

theorem Die.voicesOf_eq (g : Nat) (P : Voice → Bool) : e.voicesOf g P = e.vox.voices.filter fun v => v.2.among g P := rfl

theorem Die.voice_setVoice (v : Nat) (x : Voice) (k : Nat) : (e.setVoice v x).voice k = if v = k then x else e.voice k :=
  SMap.get_set ..

theorem Die.voicesWf_setVoice (h : e.voicesWf) (v : Nat) (x : Voice) : (e.setVoice v x).voicesWf := SMap.wf_set h v x

variable (h : e.voicesWf)
include h

theorem Die.voices_rising : SMap.rising 0 e.vox.voices = true := (SMap.wf_iff.1 h).1

/-- The voices of a group are those whose state says so. -/
theorem Die.mem_voicesOf {g : Nat} {P : Voice → Bool} {v : Nat × Voice} :
    v ∈ e.voicesOf g P ↔ e.voice v.1 = v.2 ∧ v.2.among g P = true := by
  rw [Die.voicesOf_eq, List.mem_filter]
  refine and_congr_left fun ha => ⟨fun hv => SMap.get_of_mem (Die.voices_rising h) hv, fun hv => ?_⟩
  obtain ⟨⟨-, hidle⟩, -⟩ : (_ ∧ v.2.state ≠ .idle) ∧ _ := by simpa [Voice.among] using ha
  have hmem := SMap.mem_of_get (dflt := fun _ => Voice.none) (k := v.1) (Die.voices_rising h)
    (by rw [show SMap.get _ _ _ = v.2 from hv]; exact Voice.ne_none hidle)
  rwa [show SMap.get _ _ _ = v.2 from hv] at hmem

theorem Die.voicesOf_pairwise (g : Nat) (P : Voice → Bool) : (e.voicesOf g P).Pairwise (·.1 < ·.1) :=
  (SMap.pairwise_of_rising (Die.voices_rising h)).filter _

end

/-! ### The voice of a list that an order picks (R214, R218) -/

theorem oldestOf_eq_none {l : List (Nat × Voice)} : oldestOf l = none ↔ l = [] := by
  cases l with
  | nil => exact ⟨fun _ => rfl, fun _ => rfl⟩
  | cons v l =>
    rw [oldestOf]
    split
    · simp
    · split <;> simp

/-- The oldest voice of a list is in it, and none has a lower start number. -/
theorem oldestOf_spec {l : List (Nat × Voice)} {v : Nat × Voice} (h : oldestOf l = some v) :
    v ∈ l ∧ ∀ x ∈ l, v.2.start.toNat ≤ x.2.start.toNat := by
  induction l generalizing v with
  | nil => exact absurd h nofun
  | cons y l ih =>
    rw [oldestOf] at h
    split at h
    · next hn =>
      cases h
      rw [oldestOf_eq_none.1 hn]
      exact ⟨List.mem_cons_self, List.forall_mem_singleton.2 le_rfl⟩
    · next w hw =>
      obtain ⟨hmem, hmin⟩ := ih hw
      split at h
      · next hle =>
        cases h
        exact ⟨List.mem_cons_self, List.forall_mem_cons.2 ⟨le_rfl, fun x hx => hle.trans (hmin x hx)⟩⟩
      · next hlt =>
        cases h
        exact ⟨List.mem_cons_of_mem _ hmem, List.forall_mem_cons.2 ⟨(Nat.lt_of_not_le hlt).le, hmin⟩⟩

section
variable {e : Die}

theorem Die.quietestOf_eq_none {l : List (Nat × Voice)} : e.quietestOf l = none ↔ l = [] := by
  cases l with
  | nil => exact ⟨fun _ => rfl, fun _ => rfl⟩
  | cons v l =>
    rw [Die.quietestOf]
    split
    · simp
    · split <;> simp

/-- The quietest voice of a list is in it, none has a lower level, and of those with its level in a list in rising order it has the
lowest number. -/
theorem Die.quietestOf_spec {l : List (Nat × Voice)} {v : Nat × Voice} (h : e.quietestOf l = some v) :
    v ∈ l ∧ ∀ x ∈ l, (e.level v.1).toInt ≤ (e.level x.1).toInt ∧
      (l.Pairwise (·.1 < ·.1) → e.level x.1 = e.level v.1 → v.1 ≤ x.1) := by
  induction l generalizing v with
  | nil => exact absurd h nofun
  | cons y l ih =>
    rw [Die.quietestOf] at h
    split at h
    · next hn =>
      cases h
      rw [Die.quietestOf_eq_none.1 hn]
      exact ⟨List.mem_cons_self, List.forall_mem_singleton.2 ⟨le_rfl, fun _ _ => le_rfl⟩⟩
    · next w hw =>
      obtain ⟨hmem, hmin⟩ := ih hw
      split at h
      · next hle =>
        cases h
        exact ⟨List.mem_cons_self, List.forall_mem_cons.2 ⟨⟨le_rfl, fun _ _ => le_rfl⟩,
          fun x hx => ⟨hle.trans (hmin x hx).1, fun hp _ => (List.rel_of_pairwise_cons hp hx).le⟩⟩⟩
      · next hlt =>
        cases h
        refine ⟨List.mem_cons_of_mem _ hmem, List.forall_mem_cons.2 ⟨⟨(lt_of_not_ge hlt).le, fun _ heq => ?_⟩,
          fun x hx => ⟨(hmin x hx).1, fun hp => (hmin x hx).2 hp.of_cons⟩⟩⟩
        exact absurd (congrArg BitVec.toInt heq).le hlt

end

/-! ### Commands for voices (R221) -/

/-- What the batch tells a voice: its CMD and VALUE. -/
def VoxRun.told (r : VoxRun) (k : Nat) : Option (Nat × Option (BitVec 16)) :=
  (r.cmds.find? (·.1 == k)).map fun c => (c.2.cmd, c.2.value)

/-- A batch whose die has its voices in canonical form. -/
def VoxRun.wf (r : VoxRun) : Prop := r.die.voicesWf

/-- A voice that enters RELEASE, its kept velocity spent (R208). -/
def Voice.released (x : Voice) : Voice := { x with
  state := .release
  relVel := 0 }

/-- A voice that fades for `s` frames from the next FT (R216). -/
def Voice.faded (x : Voice) (s : Nat) : Voice := { x with
  state := .fade
  fadeFts := s + 1 }

section
variable {r : VoxRun} (v : Nat) (x : Voice) (c : VCmd) (k : Nat)

theorem VoxRun.voice_give : (r.give v x c).die.voice k = if v = k then x else r.die.voice k := Die.voice_setVoice ..

/-- A command replaces the one the voice had, and no other voice's. -/
theorem VoxRun.told_give : (r.give v x c).told k = if v = k then some (c.cmd, c.value) else r.told k := by
  unfold VoxRun.told VoxRun.give
  rw [List.find?_append, List.find?_filter]
  by_cases h : v = k
  · subst h
    rw [List.find?_eq_none.2 fun a _ => by simp [bne], if_pos rfl]
    simp
  · have hf : (fun a : Nat × VCmd => decide ((a.1 != v) = true ∧ (a.1 == k) = true)) = fun a => a.1 == k := by
      funext a
      by_cases ha : a.1 = k
      · simp [ha, Ne.symm h]
      · simp [ha]
    rw [hf, if_neg h]
    simp [h]

theorem VoxRun.wf_give (h : r.wf) : (r.give v x c).wf := Die.voicesWf_setVoice h v x

end

/-! ### A command for every voice of a group that satisfies a condition (R208) -/

/-- Such voices take a new state and a command each. -/
def VoxRun.giveAll (r : VoxRun) (g : Nat) (P : Voice → Bool) (f : Voice → Voice) (c : Voice → VCmd) : VoxRun :=
  (r.die.voicesOf g P).foldl (fun r v => r.give v.1 (f v.2) (c v.2)) r

section
variable {r : VoxRun} (f : Voice → Voice) (c : Voice → VCmd)

/-- Commands given in turn to voices of different numbers: each takes its own, and no other voice any. -/
theorem VoxRun.foldl_give {l : List (Nat × Voice)} (hl : l.Pairwise (·.1 < ·.1)) (q : VoxRun)
    (hq : q = l.foldl (fun r v => r.give v.1 (f v.2) (c v.2)) r) :
    (∀ v ∈ l, q.die.voice v.1 = f v.2 ∧ q.told v.1 = some ((c v.2).cmd, (c v.2).value)) ∧
      ∀ k, (∀ v ∈ l, v.1 ≠ k) → q.die.voice k = r.die.voice k ∧ q.told k = r.told k := by
  induction l generalizing r with
  | nil =>
    cases hq
    exact ⟨nofun, fun _ _ => ⟨rfl, rfl⟩⟩
  | cons v l ih =>
    obtain ⟨hv, hl⟩ := List.pairwise_cons.1 hl
    obtain ⟨hin, hout⟩ := ih hl hq
    refine ⟨List.forall_mem_cons.2 ⟨?_, hin⟩, fun k hk => ?_⟩
    · obtain ⟨hx, hc⟩ := hout v.1 fun w hw => (hv w hw).ne'
      rw [hx, hc, VoxRun.voice_give, VoxRun.told_give, if_pos rfl, if_pos rfl]
      exact ⟨rfl, rfl⟩
    · obtain ⟨hne, hk⟩ := List.forall_mem_cons.1 hk
      obtain ⟨hx, hc⟩ := hout k hk
      rw [hx, hc, VoxRun.voice_give, VoxRun.told_give, if_neg hne, if_neg hne]
      exact ⟨rfl, rfl⟩

variable {g : Nat} {P : Voice → Bool}

theorem VoxRun.wf_giveAll (h : r.wf) : (r.giveAll g P f c).wf := by
  unfold VoxRun.giveAll
  generalize r.die.voicesOf g P = l
  induction l generalizing r with
  | nil => exact h
  | cons v l ih => exact ih (VoxRun.wf_give _ _ _ h)

/-- Of the allocator only the voices change. -/
theorem VoxRun.giveAll_sustain : (r.giveAll g P f c).die.vox.sustain = r.die.vox.sustain := by
  unfold VoxRun.giveAll
  generalize r.die.voicesOf g P = l
  induction l generalizing r with
  | nil => rfl
  | cons v l ih => exact ih

/-- The voices that the condition names take the command, and the others keep what they have. -/
theorem VoxRun.giveAll_spec (h : r.wf) {k : Nat} {A : Prop} (hA : (r.die.voice k).among g P = true ↔ A) :
    (A → (r.giveAll g P f c).die.voice k = f (r.die.voice k) ∧
      (r.giveAll g P f c).told k = some ((c (r.die.voice k)).cmd, (c (r.die.voice k)).value)) ∧
    (¬ A → (r.giveAll g P f c).die.voice k = r.die.voice k ∧ (r.giveAll g P f c).told k = r.told k) := by
  obtain ⟨hin, hout⟩ := VoxRun.foldl_give f c (Die.voicesOf_pairwise h g P) (r.giveAll g P f c) rfl
  refine ⟨fun ha => hin (k, r.die.voice k) ((Die.mem_voicesOf h).2 ⟨rfl, hA.2 ha⟩), fun ha => hout k fun v hv hk => ha (hA.1 ?_)⟩
  obtain ⟨hvoice, hamong⟩ := (Die.mem_voicesOf h).1 hv
  rwa [← hk, hvoice]

/-- Fading the voices of a group is such a command: the length of a fade stays the same meanwhile. -/
theorem VoxRun.foldl_fade (l : List (Nat × Voice)) : l.foldl (fun r v => r.fade v) r =
    l.foldl (fun q v => q.give v.1 (v.2.faded r.die.stealFrames) ⟨3, none, none, none, none⟩) r := by
  have same (s : Nat) (q : VoxRun) (hq : q.die.stealFrames = s) : l.foldl (fun r v => r.fade v) q =
      l.foldl (fun q v => q.give v.1 (v.2.faded s) ⟨3, none, none, none, none⟩) q := by
    induction l generalizing q with
    | nil => rfl
    | cons v l ih =>
      rw [List.foldl_cons, List.foldl_cons, ih (q.fade v) hq, VoxRun.fade, hq]
      rfl
  exact same _ r rfl

end

end Machine

end Sys2Proof
end

