-- ==== Sys2Proof/Proofs/VoiceEvents.lean ====
section
/-! SUPPORT. The events of a batch: a note-on and its victim, a note-off, and the commands that reach every voice of a group (R208,
R214, R216 to R218). -/

namespace Sys2Proof.Machine

/-! ### The victim (R218) -/

/-- The voices that a steal may take: of the group, in ON, HELD or RELEASE, without a command. -/
def VoxRun.able (r : VoxRun) (g : Nat) : List (Nat × Voice) := (r.die.voicesOf g Voice.busy).filter fun v => !r.has v.1

/-- Of these the released ones, where PREFREL asks and one is there. -/
def VoxRun.candidates (r : VoxRun) (cfg : SMap Word) (g : Nat) : List (Nat × Voice) :=
  if cfgPrefRel cfg g && (r.able g).any (fun v => v.2.state == .release) then
    (r.able g).filter (fun v => v.2.state == .release)
  else r.able g

/-- Of these the ones on the note. -/
def VoxRun.sameNote (r : VoxRun) (cfg : SMap Word) (g : Nat) (note : BitVec 7) : List (Nat × Voice) :=
  (r.candidates cfg g).filter fun v => v.2.note == note

/-- The policy in force: FALLBACK where POLICY asks for the note and no voice plays it. -/
def VoxRun.policyNow (r : VoxRun) (cfg : SMap Word) (g : Nat) (note : BitVec 7) : Nat :=
  if cfgPolicy cfg g = 2 ∧ r.sameNote cfg g note = [] then b2n (cfgFallback cfg g) else cfgPolicy cfg g

section
variable {r : VoxRun} {cfg : SMap Word} {g : Nat} {note : BitVec 7}

theorem VoxRun.candidates_eq_nil (h : r.candidates cfg g = []) : r.able g = [] := by
  rw [VoxRun.candidates] at h
  split at h
  · next hrel =>
    obtain ⟨x, hx, hs⟩ := List.any_eq_true.1 (Bool.and_eq_true_iff.1 hrel).2
    exact absurd (List.mem_filter.2 ⟨hx, hs⟩) (h ▸ List.not_mem_nil)
  · exact h

theorem VoxRun.mem_able_of_candidates {v : Nat × Voice} (h : v ∈ r.candidates cfg g) : v ∈ r.able g := by
  rw [VoxRun.candidates] at h
  split at h
  · exact (List.mem_filter.1 h).1
  · exact h

theorem VoxRun.candidates_of_able (h : r.able g = []) : r.candidates cfg g = [] :=
  List.eq_nil_iff_forall_not_mem.2 fun _ hv => List.not_mem_nil (h ▸ VoxRun.mem_able_of_candidates hv)

/-- The candidates stand in rising order of their numbers. -/
theorem VoxRun.candidates_pairwise (h : r.wf) : (r.candidates cfg g).Pairwise (·.1 < ·.1) := by
  have hable : (r.able g).Pairwise (·.1 < ·.1) := (Die.voicesOf_pairwise h g Voice.busy).filter _
  rw [VoxRun.candidates]
  split
  · exact hable.filter _
  · exact hable

/-- The victim is picked by the policy in force. -/
theorem VoxRun.victim_eq : r.victim cfg g note =
    if r.policyNow cfg g note = 2 then oldestOf (r.sameNote cfg g note)
    else if r.policyNow cfg g note = 1 then oldestOf (r.candidates cfg g) else r.die.quietestOf (r.candidates cfg g) := by
  have hc : (if cfgPrefRel cfg g && !((r.able g).filter fun v => v.2.state == .release).isEmpty then
      (r.able g).filter fun v => v.2.state == .release else r.able g) = r.candidates cfg g := by
    have hany : (!((r.able g).filter fun v => v.2.state == .release).isEmpty) =
        (r.able g).any (fun v => v.2.state == .release) := Bool.eq_iff_iff.2 (by simp)
    rw [VoxRun.candidates, hany]
  have hv : r.victim cfg g note =
      if cfgPolicy cfg g = 2 ∧ (!(r.sameNote cfg g note).isEmpty) = true then oldestOf (r.sameNote cfg g note)
      else if cfgPolicy cfg g = 1 ∨ cfgPolicy cfg g = 2 ∧ cfgFallback cfg g = true then oldestOf (r.candidates cfg g)
      else r.die.quietestOf (r.candidates cfg g) := by
    rw [VoxRun.sameNote, ← hc]
    rfl
  rw [hv, VoxRun.policyNow]
  by_cases hp : cfgPolicy cfg g = 2
  · by_cases hs : r.sameNote cfg g note = []
    · cases hf : cfgFallback cfg g <;> simp [hp, hs, b2n]
    · simp [hp, hs]
  · simp [hp]

theorem VoxRun.victim_eq_none (h : r.able g = []) : r.victim cfg g note = none := by
  have hc : r.candidates cfg g = [] := VoxRun.candidates_of_able h
  rw [VoxRun.victim_eq, VoxRun.sameNote, hc, List.filter_nil]
  simp only [oldestOf, Die.quietestOf, ite_self]

/-- With a voice to take there is a victim. -/
theorem VoxRun.able_of_no_victim (h : r.victim cfg g note = none) : r.able g = [] := by
  rw [VoxRun.victim_eq] at h
  split at h
  · next hp =>
    have hs := oldestOf_eq_none.1 h
    rw [VoxRun.policyNow, hs] at hp
    split at hp
    · cases hf : cfgFallback cfg g <;> simp [hf, b2n] at hp
    · next hn => exact absurd ⟨hp, rfl⟩ hn
  · split at h
    · exact VoxRun.candidates_eq_nil (oldestOf_eq_none.1 h)
    · exact VoxRun.candidates_eq_nil (Die.quietestOf_eq_none.1 h)

/-- The victim is a candidate, and the first by the policy in force. -/
theorem VoxRun.victim_spec {v : Nat × Voice} (h : r.victim cfg g note = some v) :
    v ∈ r.candidates cfg g ∧
    (r.policyNow cfg g note = 1 → ∀ x ∈ r.candidates cfg g, v.2.start.toNat ≤ x.2.start.toNat) ∧
    (r.policyNow cfg g note = 2 → v ∈ r.sameNote cfg g note ∧
      ∀ x ∈ r.sameNote cfg g note, v.2.start.toNat ≤ x.2.start.toNat) ∧
    (r.policyNow cfg g note = 0 → ∀ x ∈ r.candidates cfg g, (r.die.level v.1).toInt ≤ (r.die.level x.1).toInt ∧
      (r.wf → r.die.level x.1 = r.die.level v.1 → v.1 ≤ x.1)) := by
  rw [VoxRun.victim_eq] at h
  split at h
  · next hp =>
    obtain ⟨hmem, hmin⟩ := oldestOf_spec h
    rw [hp]
    exact ⟨(List.mem_filter.1 hmem).1, nofun, fun _ => ⟨hmem, hmin⟩, nofun⟩
  · next hp =>
    split at h
    · next hp1 =>
      obtain ⟨hmem, hmin⟩ := oldestOf_spec h
      rw [hp1]
      exact ⟨hmem, fun _ => hmin, nofun, nofun⟩
    · next hp1 =>
      obtain ⟨hmem, hmin⟩ := Die.quietestOf_spec h
      exact ⟨hmem, fun hn => absurd hn hp1, fun hn => absurd hn hp, fun _ x hx => ⟨(hmin x hx).1,
        fun hw => (hmin x hx).2 (VoxRun.candidates_pairwise hw)⟩⟩

theorem VoxRun.busy_of_able {v : Nat × Voice} (h : v ∈ r.able g) : v.2.busy = true := by
  have ha := (List.mem_filter.1 (List.mem_filter.1 h).1).2
  exact (Bool.and_eq_true_iff.1 ha).2

end

/-! ### A note-on (R208, R214, R217) -/

/-- The voice that a note-on starts: it has the event's group and note, and the next start number. -/
def VoxRun.started (r : VoxRun) (ev : Block) : Voice := ⟨.on, evGroup ev, evNote ev, r.die.vox.next, 0, 0⟩

/-- The command of a voice that starts (R221). -/
def VoxRun.startCmd (r : VoxRun) (ev : Block) : VCmd :=
  ⟨1, none, some (BitVec.ofNat 28 ((evNote ev).toNat * 512 + evFrac ev)), some (evValue ev), some (r.die.vox.next.toNat % 4096)⟩

/-- A voice starts, and the next start number moves on. -/
def VoxRun.startVoice (r : VoxRun) (w : Nat) (ev : Block) : VoxRun := { r.give w (r.started ev) (r.startCmd ev) with
  die := (r.give w (r.started ev) (r.startCmd ev)).die.updVox fun x => { x with next := r.die.vox.next + 1 } }

section
variable {r : VoxRun} {cfg : SMap Word} {ev : Block} {m : Mark} {w : Nat}

theorem VoxRun.startVoice_voice (k : Nat) : (r.startVoice w ev).die.voice k =
    if w = k then r.started ev else r.die.voice k := VoxRun.voice_give w (r.started ev) (r.startCmd ev) k

theorem VoxRun.startVoice_told (k : Nat) : (r.startVoice w ev).told k =
    if w = k then some (1, some (evValue ev)) else r.told k := VoxRun.told_give w (r.started ev) (r.startCmd ev) k

theorem VoxRun.startVoice_next : (r.startVoice w ev).die.vox.next = r.die.vox.next + 1 := rfl

theorem VoxRun.wf_startVoice (h : r.wf) : (r.startVoice w ev).wf :=
  VoxRun.wf_give w (r.started ev) (r.startCmd ev) h

/-- The lowest idle voice is IDLE, and every lower one is not. -/
theorem Die.idleVoice_spec {e : Die} (h : e.idleVoice = some w) :
    (e.voice w).state = .idle ∧ ∀ j, j < w → (e.voice j).state ≠ .idle := by
  obtain ⟨hw, i, hi, hiw, hlow⟩ := List.find?_eq_some_iff_getElem.1 h
  rw [List.getElem_range] at hiw
  subst hiw
  refine ⟨eq_of_beq hw, fun j hj hidle => ?_⟩
  have := hlow j hj
  rw [List.getElem_range, hidle] at this
  exact absurd this (by decide)

theorem VoxRun.noteOn_free (h : r.die.idleVoice = some w) : r.noteOn cfg .free ev = r.startVoice w ev := by
  rw [VoxRun.noteOn, h]
  rfl

theorem VoxRun.noteOn_steal {v : Nat × Voice} (h : r.die.idleVoice = some w)
    (hv : r.victim cfg (evGroup ev).toNat (evNote ev) = some v) : r.noteOn cfg .steal ev = (r.fade v).startVoice w ev := by
  rw [VoxRun.noteOn, h]
  simp only [hv]
  rfl

/-- A note-on marked to be dropped, without an idle voice, or that finds no victim to steal, is dropped. -/
theorem VoxRun.noteOn_dropped (h : m = .drop ∨ r.die.idleVoice = none ∨
    m = .steal ∧ r.victim cfg (evGroup ev).toNat (evNote ev) = none) : r.noteOn cfg m ev = r.dropOn (evGroup ev).toNat := by
  cases hi : r.die.idleVoice with
  | none => rw [VoxRun.noteOn, hi]
  | some w =>
    rcases h with rfl | h | ⟨rfl, hv⟩
    · rw [VoxRun.noteOn, hi]
    · exact absurd (hi.symm.trans h) nofun
    · rw [VoxRun.noteOn, hi]
      simp only [hv]

/-- What a note-on can do: it is dropped, starts a voice, or fades one and starts another. -/
theorem VoxRun.noteOn_cases : r.noteOn cfg m ev = r.dropOn (evGroup ev).toNat ∨ (∃ w, r.noteOn cfg m ev = r.startVoice w ev) ∨
    ∃ v w, r.noteOn cfg m ev = (r.fade v).startVoice w ev := by
  cases hi : r.die.idleVoice with
  | none => exact .inl (VoxRun.noteOn_dropped (.inr (.inl hi)))
  | some w =>
    cases m with
    | drop => exact .inl (VoxRun.noteOn_dropped (.inl rfl))
    | free => exact .inr (.inl ⟨w, VoxRun.noteOn_free hi⟩)
    | steal =>
      cases hv : r.victim cfg (evGroup ev).toNat (evNote ev) with
      | none => exact .inl (VoxRun.noteOn_dropped (.inr (.inr ⟨rfl, hv⟩)))
      | some v => exact .inr (.inr ⟨v, w, VoxRun.noteOn_steal hi hv⟩)

/-- A dropped note-on touches the registers alone. -/
theorem VoxRun.dropOn_vox (g : Nat) : (r.dropOn g).die.vox = r.die.vox := by
  obtain ⟨_, hr, -⟩ := r.die.count_spec (F.VOX_GDROP_COUNT g) 1
  rw [VoxRun.dropOn, Die.setFld_vox, hr]

/-- A dropped note-on counts at its group and sets NOTEDROP. -/
theorem VoxRun.dropOn_counts {g : Nat} :
    (r.dropOn g).die.fld (F.VOX_GDROP_COUNT g) =
      min (r.die.fld (F.VOX_GDROP_COUNT g) + 1) (2 ^ (F.VOX_GDROP_COUNT g).w - 1) ∧
    (r.dropOn g).die.bit F.VOX_IRQ_NOTEDROP = true := by
  refine ⟨?_, by rw [VoxRun.dropOn, Die.bit_setFld_self _ (Fld.fits_of rfl)]; rfl⟩
  have hne : R.VOX_GDROP g ≠ R.VOX_IRQ := by
    rw [R.VOX_GDROP, R.VOX_IRQ]
    omega
  rw [VoxRun.dropOn, Die.fld_setFld_other _ _ _ (Fld.fits_of rfl) _ (.inl hne), Die.fld_count_self _ (Fld.fits_of rfl), satAdd]

theorem VoxRun.fade_voice (v : Nat × Voice) (k : Nat) :
    (r.fade v).die.voice k = if v.1 = k then v.2.faded r.die.stealFrames else r.die.voice k := VoxRun.voice_give ..

theorem VoxRun.fade_told (v : Nat × Voice) (k : Nat) : (r.fade v).told k = if v.1 = k then some (3, none) else r.told k :=
  VoxRun.told_give ..

theorem VoxRun.wf_fade (h : r.wf) (v : Nat × Voice) : (r.fade v).wf := VoxRun.wf_give v.1 _ _ h

theorem VoxRun.wf_noteOn (h : r.wf) : (r.noteOn cfg m ev).wf := by
  rcases VoxRun.noteOn_cases (r := r) (cfg := cfg) (m := m) (ev := ev) with hq | ⟨w, hq⟩ | ⟨v, w, hq⟩ <;> rw [hq]
  · exact (congrArg (fun x : Vox => SMap.wf (fun _ => Voice.none) x.voices = true) (VoxRun.dropOn_vox _)).mpr h
  · exact VoxRun.wf_startVoice h
  · exact VoxRun.wf_startVoice (VoxRun.wf_fade h v)

end

/-! ### A note-off (R208) -/

/-- The oldest voice of the event's group and note in a state. -/
def VoxRun.oldestAt (r : VoxRun) (ev : Block) (s : VState) : Option (Nat × Voice) :=
  oldestOf (r.die.voicesOf (evGroup ev).toNat fun v => v.state == s && v.note == evNote ev)

section
variable {r : VoxRun} {ev : Block} {v : Nat × Voice}

theorem VoxRun.noteOff_held (h : r.oldestAt ev .on = some v)
    (hs : natBit r.die.vox.sustain.toNat (evGroup ev).toNat = true) :
    r.noteOff ev = { r with die := r.die.setVoice v.1 { v.2 with
      state := .held
      relVel := evValue ev } } := by
  rw [VoxRun.oldestAt] at h
  simp only [VoxRun.noteOff, h, hs, if_true]

theorem VoxRun.noteOff_on (h : r.oldestAt ev .on = some v)
    (hs : natBit r.die.vox.sustain.toNat (evGroup ev).toNat = false) : r.noteOff ev = r.release v (evValue ev) := by
  rw [VoxRun.oldestAt] at h
  simp only [VoxRun.noteOff, h, hs, Bool.false_eq_true, if_false]

theorem VoxRun.noteOff_fromHeld (h : r.oldestAt ev .on = none) (hh : r.oldestAt ev .held = some v) :
    r.noteOff ev = r.release v (evValue ev) := by
  rw [VoxRun.oldestAt] at h hh
  simp only [VoxRun.noteOff, h, hh]

theorem VoxRun.noteOff_none (h : r.oldestAt ev .on = none) (hh : r.oldestAt ev .held = none) : r.noteOff ev = r := by
  rw [VoxRun.oldestAt] at h hh
  simp only [VoxRun.noteOff, h, hh]

/-- The oldest voice is the die's voice of its number. -/
theorem VoxRun.voice_oldestAt (hw : r.wf) {s : VState} (h : r.oldestAt ev s = some v) : r.die.voice v.1 = v.2 :=
  ((Die.mem_voicesOf hw).1 (oldestOf_spec h).1).1

/-- A voice that is released as it stands takes the velocity, and no other voice changes. -/
theorem VoxRun.release_spec (hv : r.die.voice v.1 = v.2) (vel : BitVec 16) (k : Nat) :
    (k = v.1 → (r.release v vel).die.voice k = (r.die.voice k).released ∧ (r.release v vel).told k = some (2, some vel)) ∧
    (k ≠ v.1 → (r.release v vel).die.voice k = r.die.voice k ∧ (r.release v vel).told k = r.told k) := by
  rw [VoxRun.release, VoxRun.voice_give, VoxRun.told_give]
  refine ⟨?_, fun hk => ?_⟩
  · rintro rfl
    rw [if_pos rfl, if_pos rfl, hv]
    exact ⟨rfl, rfl⟩
  · rw [if_neg hk.symm, if_neg hk.symm]
    exact ⟨rfl, rfl⟩

theorem VoxRun.wf_noteOff (h : r.wf) : (r.noteOff ev).wf := by
  cases hon : r.oldestAt ev .on with
  | some v =>
    cases hs : natBit r.die.vox.sustain.toNat (evGroup ev).toNat with
    | true =>
      rw [VoxRun.noteOff_held hon hs]
      exact Die.voicesWf_setVoice h _ _
    | false =>
      rw [VoxRun.noteOff_on hon hs]
      exact VoxRun.wf_give _ _ _ h
  | none =>
    cases hh : r.oldestAt ev .held with
    | some v =>
      rw [VoxRun.noteOff_fromHeld hon hh]
      exact VoxRun.wf_give _ _ _ h
    | none => rwa [VoxRun.noteOff_none hon hh]

end

/-! ### Events for a group (R208) -/

section
variable {r : VoxRun} {cfg : SMap Word} {m : Mark} {ev : Block}

/-- The batch with the sustain of a group put down or up. -/
def VoxRun.sustained (r : VoxRun) (g : Nat) (down : Bool) : VoxRun :=
  { r with die := r.die.updVox fun x => { x with sustain := BitVec.ofNat 16 (insBits x.sustain.toNat g 1 (b2n down)) } }

theorem VoxRun.sustained_sustain {g : Nat} (hg : g < 16) (down : Bool) :
    natBit (r.sustained g down).die.vox.sustain.toNat g = down := by
  have hs : (r.sustained g down).die.vox.sustain = BitVec.ofNat 16 (insBits r.die.vox.sustain.toNat g 1 (b2n down)) := rfl
  rw [hs, BitVec.toNat_ofNat, natBit_mod_two_pow hg, natBit_insBits, if_pos rfl]

theorem VoxRun.event_noteOn (h : evType ev = 1) : r.event cfg m ev = r.noteOn cfg m ev := by
  rw [VoxRun.event, h]
  rfl

theorem VoxRun.event_noteOff (h : evType ev = 2) : r.event cfg m ev = r.noteOff ev := by
  rw [VoxRun.event, h]
  rfl

/-- NOTE_CTL and NOTE_PITCH tell the voices of a note, which stay as they are. -/
theorem VoxRun.event_noteCmd (h : evType ev = 3 ∨ evType ev = 4) : ∃ c : VCmd, c.cmd = evType ev + 1 ∧ c.value = some (evValue ev) ∧
    r.event cfg m ev = r.giveAll (evGroup ev).toNat (fun v => v.busy && v.note == evNote ev) id fun _ => c := by
  rcases h with h | h <;> rw [VoxRun.event, h] <;> exact ⟨_, rfl, rfl, rfl⟩

theorem VoxRun.event_slot (h : evType ev = 5) (hc : evCtl ev < 8) : r.event cfg m ev = { r with
    die := r.die.updVox fun x => { x with
      slots := SMap.set (fun _ => 0) x.slots (8 * (evGroup ev).toNat + evCtl ev) (evValue ev) }
    groups := if r.groups.contains (evGroup ev).toNat then r.groups else r.groups ++ [(evGroup ev).toNat] } := by
  rw [VoxRun.event, h]
  exact if_pos hc

/-- The sustain that goes down is kept; one that goes up releases the HELD voices of the group. -/
theorem VoxRun.event_sustain (h : evType ev = 5) (hc : ¬ evCtl ev < 8) : r.event cfg m ev =
    if 0x8000 ≤ (evValue ev).toNat then r.sustained (evGroup ev).toNat (decide (0x8000 ≤ (evValue ev).toNat))
    else (r.sustained (evGroup ev).toNat (decide (0x8000 ≤ (evValue ev).toNat))).giveAll (evGroup ev).toNat
      (fun v => v.state == .held) Voice.released fun v => ⟨2, none, none, some v.relVel, none⟩ := by
  rw [VoxRun.event, h]
  simp only [VoxRun.groupCtl, if_neg hc, decide_eq_true_eq]
  rfl

theorem VoxRun.event_allOff (h : evType ev = 6) : r.event cfg m ev = r.giveAll (evGroup ev).toNat
    (fun v => v.state == .on || v.state == .held) Voice.released fun _ => ⟨2, none, none, some (evValue ev), none⟩ := by
  rw [VoxRun.event, h]
  rfl

theorem VoxRun.event_kill (h : evType ev = 7) : r.event cfg m ev = r.giveAll (evGroup ev).toNat Voice.busy
    (·.faded r.die.stealFrames) fun _ => ⟨3, none, none, none, none⟩ := by
  rw [VoxRun.event, h]
  exact VoxRun.foldl_fade _

theorem VoxRun.event_other (h : evType ev = 0) : r.event cfg m ev = r := by
  rw [VoxRun.event, h]
  rfl

/-- Every event keeps the voices in canonical form (assumption log 8). -/
theorem VoxRun.wf_event (h : r.wf) : (r.event cfg m ev).wf := by
  have htype : evType ev < 2 ^ 3 := bitsOf_lt ..
  interval_cases ht : evType ev
  · rwa [VoxRun.event_other ht]
  · rw [VoxRun.event_noteOn ht]
    exact VoxRun.wf_noteOn h
  · rw [VoxRun.event_noteOff ht]
    exact VoxRun.wf_noteOff h
  · obtain ⟨c, -, -, hq⟩ := VoxRun.event_noteCmd (r := r) (cfg := cfg) (m := m) (.inl ht)
    rw [hq]
    exact VoxRun.wf_giveAll _ _ h
  · obtain ⟨c, -, -, hq⟩ := VoxRun.event_noteCmd (r := r) (cfg := cfg) (m := m) (.inr ht)
    rw [hq]
    exact VoxRun.wf_giveAll _ _ h
  · by_cases hc : evCtl ev < 8
    · rw [VoxRun.event_slot ht hc]
      exact h
    · rw [VoxRun.event_sustain ht hc]
      split
      · exact h
      · exact VoxRun.wf_giveAll _ _ h
  · rw [VoxRun.event_allOff ht]
    exact VoxRun.wf_giveAll _ _ h
  · rw [VoxRun.event_kill ht]
    exact VoxRun.wf_giveAll _ _ h

/-- A voice of the group in one of the states that an event names. -/
theorem Voice.among_states {x : Voice} {g : BitVec 4} :
    (x.among g.toNat (fun v => v.state == .on || v.state == .held) = true ↔ x.group = g ∧ (x.state = .on ∨ x.state = .held)) ∧
    (x.among g.toNat (fun v => v.state == .held) = true ↔ x.group = g ∧ x.state = .held) := by
  refine ⟨(Voice.among_iff fun hi => by rw [hi]; rfl).trans ?_, (Voice.among_iff fun hi => by rw [hi]; rfl).trans ?_⟩ <;>
    simp only [Bool.or_eq_true, beq_iff_eq]

end

end Sys2Proof.Machine
end

