-- ==== Sys2Proof/Proofs/VoiceBatch.lean ====
section
/-! SUPPORT. Before a batch and at FT: voices that end, groups over their quota, fades that count down; and the marks of the
note-ons of a batch (R213, R214, R216, R217). -/

namespace Sys2Proof.Machine

/-! ### Voices that end before a batch (R216, R220) -/

/-- A voice whose fade ends, or a released one of level zero whose seat reached END. -/
def Die.ended (e : Die) (v : Nat × Voice) : Bool :=
  (v.2.state == .fade && decide (v.2.fadeFts ≤ 1)) ||
    (v.2.state == .release && e.level v.1 == 0 && e.seatEnded (e.voicePlace v.1).1)

/-- The die without these voices. -/
def Die.swept (e : Die) : Die :=
  let e := e.updVox fun x => { x with
    voices := x.voices.filter fun v => !(v.2.state == .fade && v.2.fadeFts ≤ 1) }
  e.updVox fun x => { x with
    voices := x.voices.filter fun v =>
      !(v.2.state == .release && e.level v.1 == 0 && e.seatEnded (e.voicePlace v.1).1) }

section
variable {e : Die}

theorem Die.swept_voices : e.swept.vox.voices = e.vox.voices.filter fun v => !e.ended v := by
  have hf : ∀ v : Nat × Voice, (!e.ended v) =
      (!(v.2.state == .release && e.level v.1 == 0 && e.seatEnded (e.voicePlace v.1).1) &&
        !(v.2.state == .fade && decide (v.2.fadeFts ≤ 1))) := fun v => by rw [Die.ended, Bool.not_or, Bool.and_comm]
  simp only [hf, ← List.filter_filter]
  rfl

theorem Die.voicesWf_swept (h : e.voicesWf) : e.swept.voicesWf := by
  rw [Die.voicesWf, Die.swept_voices]
  exact SMap.wf_filter _ h

theorem Die.swept_voice (h : e.voicesWf) (k : Nat) :
    e.swept.voice k = if e.ended (k, e.voice k) then Voice.none else e.voice k := by
  rw [Die.voice, Die.swept_voices, SMap.get_filter_entries (Die.voices_rising h)]
  change (if (!e.ended (k, e.voice k)) = true then e.voice k else Voice.none) = _
  cases e.ended (k, e.voice k) <;> rfl

/-- A voice that plays on is not ended. -/
theorem Die.swept_voice_playing (h : e.voicesWf) {k : Nat} (hk : (e.voice k).state = .on ∨ (e.voice k).state = .held) :
    e.swept.voice k = e.voice k := by
  have hn : e.ended (k, e.voice k) = false := by rcases hk with hk | hk <;> simp [Die.ended, hk]
  rw [Die.swept_voice h, hn, if_neg Bool.false_ne_true]

theorem Die.swept_fewer (g : Nat) (P : Voice → Bool) : (e.swept.voicesOf g P).length ≤ (e.voicesOf g P).length := by
  rw [Die.voicesOf_eq, Die.voicesOf_eq, Die.swept_voices]
  exact (List.filter_sublist.filter _).length_le

end

/-! ### Groups over their quota (R216) -/

/-- How many voices of a group are ON, HELD or in RELEASE. -/
def VoxRun.busyIn (r : VoxRun) (g : Nat) : Nat := (r.die.voicesOf g Voice.busy).length

/-- The oldest of these fades. -/
def VoxRun.fadeOldest (g : Nat) (r : VoxRun) : VoxRun :=
  match oldestOf (r.die.voicesOf g Voice.busy) with
  | none => r
  | some v => r.fade v

/-- A group over its quota fades as many as are too many. -/
def VoxRun.trim (cfg : SMap Word) (r : VoxRun) (g : Nat) : VoxRun :=
  (List.range (r.busyIn g - cfgQuota cfg g)).foldl (fun r _ => r.fadeOldest g) r

section
variable {r : VoxRun} {cfg : SMap Word} {g : Nat}

/-- Before a batch voices end, and then the groups are trimmed in turn. -/
theorem VoxRun.prepare_eq : r.prepare cfg = (List.range 16).foldl (VoxRun.trim cfg) { r with die := r.die.swept } := rfl

theorem VoxRun.trim_eq : r.trim cfg g = (VoxRun.fadeOldest g)^[r.busyIn g - cfgQuota cfg g] r := by
  rw [VoxRun.trim, List.foldl_const, List.length_range]

/-- Fading a voice takes it from the count of its own group, and from no other. -/
theorem VoxRun.fade_busyIn (h : r.wf) {v : Nat × Voice} (hv : v ∈ r.die.voicesOf g Voice.busy) (g' : Nat) :
    r.busyIn g' = (r.fade v).busyIn g' + if g' = g then 1 else 0 := by
  obtain ⟨hmem, hamong⟩ := List.mem_filter.1 hv
  obtain ⟨l, l', hm, hi⟩ := SMap.insert_of_mem (Die.voices_rising h) hmem (v.2.faded r.die.stealFrames)
  have hset : (r.fade v).die.vox.voices =
      SMap.set (fun _ => Voice.none) r.die.vox.voices v.1 (v.2.faded r.die.stealFrames) := rfl
  have hlisted : v.2.faded r.die.stealFrames ≠ Voice.none := Voice.ne_none (show VState.fade ≠ .idle by decide)
  rw [SMap.set, if_neg hlisted, hi] at hset
  have hold : v.2.among g' Voice.busy = decide (g' = g) := by
    have hg : v.2.group.toNat = g ∧ v.2.state ≠ .idle ∧ v.2.busy = true := by simpa [and_assoc] using hamong
    by_cases hgg : g' = g <;> simp [Voice.among, hg, hgg, eq_comm (a := g)]
  have hnew : (v.2.faded r.die.stealFrames).among g' Voice.busy = false := by
    rw [Voice.among, Voice.not_busy_of_fade rfl, Bool.and_false]
  have hr : r.die.vox.voices = l ++ v :: l' := hm
  rw [VoxRun.busyIn, VoxRun.busyIn, Die.voicesOf_eq, Die.voicesOf_eq, hset, hr]
  simp only [List.filter_append, List.filter_cons, hold, hnew, List.length_append, Bool.false_eq_true, if_false, decide_eq_true_eq]
  split
  · rw [List.length_cons, Nat.add_assoc]
  · rfl

/-- What fading the oldest voice of a group does: nothing to an empty group, and otherwise one voice of it fades. -/
theorem VoxRun.fadeOldest_spec (h : r.wf) : (r.fadeOldest g).wf ∧ (r.fadeOldest g).busyIn g = r.busyIn g - 1 ∧
    (∀ g', g' ≠ g → (r.fadeOldest g).busyIn g' = r.busyIn g') ∧
    ∀ k, (r.fadeOldest g).die.voice k = r.die.voice k ∨ (r.die.voice k).busy = true ∧ (r.die.voice k).group.toNat = g := by
  unfold VoxRun.fadeOldest
  split
  · next hn => exact ⟨h, by rw [VoxRun.busyIn, oldestOf_eq_none.1 hn]; rfl, fun _ _ => rfl, fun _ => .inl rfl⟩
  · next v hv =>
    have hmem := (oldestOf_spec hv).1
    have hcount := VoxRun.fade_busyIn h hmem
    refine ⟨VoxRun.wf_fade h v, ?_, fun g' hg => ?_, fun k => ?_⟩
    · rw [hcount g, if_pos rfl, Nat.add_sub_cancel]
    · rw [hcount g', if_neg hg, Nat.add_zero]
    · rw [VoxRun.fade_voice]
      split
      · next hk =>
        obtain ⟨hvoice, hamong⟩ := (Die.mem_voicesOf h).1 hmem
        have hg : v.2.group.toNat = g ∧ v.2.state ≠ .idle ∧ v.2.busy = true := by
          simpa [Voice.among, and_assoc] using hamong
        rw [← hk, hvoice]
        exact .inr ⟨hg.2.2, hg.1⟩
      · exact .inl rfl

/-- The same done several times over. -/
theorem VoxRun.fadeOldest_iterate (h : r.wf) (n : Nat) :
    ((VoxRun.fadeOldest g)^[n] r).wf ∧ ((VoxRun.fadeOldest g)^[n] r).busyIn g = r.busyIn g - n ∧
    (∀ g', g' ≠ g → ((VoxRun.fadeOldest g)^[n] r).busyIn g' = r.busyIn g') ∧
    ∀ k, ((VoxRun.fadeOldest g)^[n] r).die.voice k = r.die.voice k ∨
      (r.die.voice k).busy = true ∧ (r.die.voice k).group.toNat = g := by
  induction n with
  | zero => exact ⟨h, rfl, fun _ _ => rfl, fun _ => .inl rfl⟩
  | succ n ih =>
    obtain ⟨hw, hg, ho, hk⟩ := ih
    obtain ⟨hw', hg', ho', hk'⟩ := VoxRun.fadeOldest_spec (g := g) hw
    rw [Function.iterate_succ_apply']
    refine ⟨hw', by rw [hg', hg, Nat.sub_sub], fun g' hne => (ho' g' hne).trans (ho g' hne), fun k => ?_⟩
    rcases hk k with hk | hk
    · rw [← hk]
      exact hk' k
    · exact .inr hk

end

/-- What trimming some groups does: the voices that are not busy stay, no group counts more than before and none of those trimmed
more than its quota, and the voices of a group within its quota stay. -/
structure VoxRun.Trimmed (cfg : SMap Word) (l : List Nat) (r q : VoxRun) : Prop where
  wf : q.wf
  still : ∀ k, (r.die.voice k).busy = false → q.die.voice k = r.die.voice k
  fewer : ∀ g, q.busyIn g ≤ r.busyIn g
  within : ∀ g ∈ l, q.busyIn g ≤ cfgQuota cfg g
  kept : ∀ k, r.busyIn (r.die.voice k).group.toNat ≤ cfgQuota cfg (r.die.voice k).group.toNat → q.die.voice k = r.die.voice k

section
variable {r : VoxRun} {cfg : SMap Word}

theorem VoxRun.trim_trimmed (h : r.wf) (g : Nat) : VoxRun.Trimmed cfg [g] r (r.trim cfg g) := by
  obtain ⟨hw, hg, ho, hk⟩ := VoxRun.fadeOldest_iterate (g := g) h (r.busyIn g - cfgQuota cfg g)
  rw [← VoxRun.trim_eq] at hw hg ho hk
  refine ⟨hw, fun k hb => (hk k).resolve_right fun hbusy => ?_, fun g' => ?_, List.forall_mem_singleton.2 (by omega), fun k hq => ?_⟩
  · exact Bool.false_ne_true (hb.symm.trans hbusy.1)
  · by_cases hgg : g' = g
    · rw [hgg, hg]
      exact Nat.sub_le ..
    · exact (ho g' hgg).le
  · refine (hk k).elim id fun ⟨_, hgroup⟩ => ?_
    rw [hgroup] at hq
    rw [VoxRun.trim_eq, Nat.sub_eq_zero_of_le hq, Function.iterate_zero, id]

theorem VoxRun.foldl_trim_trimmed (h : r.wf) (l : List Nat) : VoxRun.Trimmed cfg l r (l.foldl (VoxRun.trim cfg) r) := by
  induction l generalizing r with
  | nil => exact ⟨h, fun _ _ => rfl, fun _ => le_rfl, nofun, fun _ _ => rfl⟩
  | cons g l ih =>
    have one := VoxRun.trim_trimmed (cfg := cfg) h g
    have rest := ih one.wf
    refine ⟨rest.wf, fun k hb => ?_, fun g' => (rest.fewer g').trans (one.fewer g'), List.forall_mem_cons.2 ⟨?_, rest.within⟩,
      fun k hq => ?_⟩
    · have hk := one.still k hb
      exact (rest.still k (by rwa [hk])).trans hk
    · exact (rest.fewer g).trans (one.within g List.mem_cons_self)
    · have hk := one.kept k hq
      exact (rest.kept k (by rw [hk]; exact (one.fewer _).trans hq)).trans hk

/-- What happens before a batch: the voices that end are IDLE, and the groups are trimmed. -/
theorem VoxRun.prepare_trimmed (h : r.wf) :
    VoxRun.Trimmed cfg (List.range 16) { r with die := r.die.swept } (r.prepare cfg) := by
  rw [VoxRun.prepare_eq]
  exact VoxRun.foldl_trim_trimmed (r := { r with die := r.die.swept }) (Die.voicesWf_swept h) _

/-- A voice that ends is IDLE when the batch begins. -/
theorem VoxRun.prepare_ended (h : r.wf) {k : Nat} (hk : r.die.ended (k, r.die.voice k) = true) :
    ((r.prepare cfg).die.voice k).state = .idle := by
  have hs : r.die.swept.voice k = Voice.none := (Die.swept_voice h k).trans (if_pos hk)
  rw [(VoxRun.prepare_trimmed h).still k (by rw [hs]; rfl), hs]
  rfl

/-- A fade that goes on is left alone. -/
theorem VoxRun.prepare_fading (h : r.wf) {k : Nat} (hf : (r.die.voice k).state = .fade) (hn : 1 < (r.die.voice k).fadeFts) :
    (r.prepare cfg).die.voice k = r.die.voice k := by
  have he : r.die.ended (k, r.die.voice k) = false := by simp [Die.ended, hf, hn]
  have hs : r.die.swept.voice k = r.die.voice k := (Die.swept_voice h k).trans (if_neg (by rw [he]; exact Bool.false_ne_true))
  exact ((VoxRun.prepare_trimmed h).still k (by rw [hs]; exact Voice.not_busy_of_fade hf)).trans hs

/-- A voice that plays on in a group within its quota is left alone. -/
theorem VoxRun.prepare_playing (h : r.wf) {k : Nat}
    (hq : (r.die.voicesOf (r.die.voice k).group.toNat Voice.busy).length ≤ cfgQuota cfg (r.die.voice k).group.toNat)
    (hk : (r.die.voice k).state = .on ∨ (r.die.voice k).state = .held) : (r.prepare cfg).die.voice k = r.die.voice k := by
  have hs := Die.swept_voice_playing h hk
  refine ((VoxRun.prepare_trimmed h).kept k ?_).trans hs
  rw [hs]
  exact (Die.swept_fewer _ _).trans hq

end

/-! ### FT (R216) -/

/-- A fade counts down by one FT. -/
def Voice.countedDown (x : Voice) : Voice := if x.state = .fade then { x with fadeFts := x.fadeFts - 1 } else x

section
variable (e : Die)

@[simp] theorem Die.pendCourse_vox (c : Fin 28) (i : Fin 4) : (e.pendCourse c i).vox = e.vox := by
  unfold Die.pendCourse
  dsimp only
  split
  · rfl
  · split <;> rfl

theorem Die.voxFt_voices : e.voxFt.vox.voices = e.vox.voices.map fun v => (v.1, v.2.countedDown) := by
  have hbells : ∀ (x : Die) (s : Fin 24), (match x.seatCourse s with
      | none => x
      | some c => x.pendCourse c 3).vox = x.vox := fun x s => by
    split
    · rfl
    · exact x.pendCourse_vox _ 3
  exact congrArg (fun x : Vox => x.voices.map fun v => (v.1, v.2.countedDown)) (Die.foldl_keeps Die.vox hbells e.vox.bells e)

theorem Die.voxFt_voice (k : Nat) : e.voxFt.voice k = (e.voice k).countedDown := by
  rw [Die.voice, Die.voxFt_voices, SMap.get_map_values _ rfl]
  rfl

theorem Die.voicesWf_voxFt (h : e.voicesWf) : e.voxFt.voicesWf := by
  obtain ⟨hr, hn⟩ := SMap.wf_iff.1 h
  rw [Die.voicesWf, Die.voxFt_voices, SMap.wf_iff]
  refine ⟨SMap.rising_map_values _ hr, fun p hp => ?_⟩
  obtain ⟨v, hv, rfl⟩ := List.mem_map.1 hp
  dsimp only
  unfold Voice.countedDown
  split
  · next hf => exact Voice.ne_none (by rw [hf]; nofun)
  · exact hn v hv

end

/-! ### The marks of the note-ons of a batch (R217) -/

/-- The note-on at `j` comes before event `a` at `i` in its group: by source, and then by arrival. -/
def onBefore (batch : List NoteEv) (a : NoteEv) (i j : Nat) : Bool :=
  match batch[j]? with
  | none => false
  | some p => evType p.ev == 1 && (evGroup p.ev).toNat == (evGroup a.ev).toNat &&
      (p.src.val < a.src.val || (p.src == a.src && j < i))

/-- How many do so. -/
def onRank (batch : List NoteEv) (a : NoteEv) (i : Nat) : Nat := ((List.range batch.length).filter (onBefore batch a i)).length

/-- The mark of a rank in a group with room for some and spare voices for more. -/
def markAt (room spare k : Nat) : Mark := if k < room then .free else if k < room + spare then .steal else .drop

theorem markAt_eq_free {room spare k : Nat} : markAt room spare k = .free ↔ k < room := by
  unfold markAt
  split
  · next h => exact ⟨fun _ => h, fun _ => rfl⟩
  · next h => split <;> exact ⟨nofun, fun hk => absurd hk h⟩

theorem markAt_ne_drop {room spare k : Nat} : markAt room spare k ≠ .drop ↔ k < room + spare := by
  unfold markAt
  split
  · exact ⟨fun _ => by omega, fun _ => nofun⟩
  · split
    · next h => exact ⟨fun _ => h, fun _ => nofun⟩
    · next h => exact ⟨fun hk => absurd rfl hk, fun hk => absurd hk h⟩

section
variable {batch : List NoteEv} {a b : NoteEv} {i j : Nat} {cfg : SMap Word} {busy fading : Nat → Nat}

theorem onBefore_iff : onBefore batch a i j = true ↔ ∃ p, batch[j]? = some p ∧ evType p.ev = 1 ∧ evGroup p.ev = evGroup a.ev ∧
    (p.src.val < a.src.val ∨ p.src = a.src ∧ j < i) := by
  unfold onBefore
  split
  · next h => simp [h]
  · next p h => simp [h, BitVec.toNat_inj, and_assoc]

theorem markOns_eq (ha : batch[i]? = some a) : markOns cfg busy fading batch i =
    markAt (cfgQuota cfg (evGroup a.ev).toNat - busy (evGroup a.ev).toNat)
      (cfgReserve cfg (evGroup a.ev).toNat - fading (evGroup a.ev).toNat) (onRank batch a i) := by
  rw [markOns, ha]
  rfl

/-- What comes before an earlier note-on of a group comes before a later one. -/
theorem onRank_le (hg : evGroup a.ev = evGroup b.ev) (hba : b.src.val < a.src.val ∨ b.src = a.src ∧ j < i) :
    onRank batch b j ≤ onRank batch a i := by
  refine (List.monotone_filter_right _ fun n hn => ?_).length_le
  obtain ⟨p, hp, hon, hgroup, horder⟩ := onBefore_iff.1 hn
  refine onBefore_iff.2 ⟨p, hp, hon, hgroup.trans hg.symm, ?_⟩
  rcases horder with h | ⟨h, hnj⟩
  · exact .inl (hba.elim h.trans fun hb => hb.1 ▸ h)
  · rw [h]
    exact hba.imp_right fun hb => ⟨hb.1, hnj.trans hb.2⟩

/-- The places of a list whose entries satisfy a condition are as many as the entries. -/
theorem length_filter_range {α : Type} (P : α → Bool) (l : List α) :
    ((List.range l.length).filter fun n => (l[n]?).any P).length = (l.filter P).length := by
  induction l with
  | nil => rfl
  | cons x l ih =>
    have hs : ((fun n => ((x :: l)[n]?).any P) ∘ Nat.succ) = fun n => (l[n]?).any P := rfl
    rw [List.length_cons, List.range_succ_eq_map, List.filter_cons, List.filter_cons, List.filter_map, hs, List.getElem?_cons_zero,
      Option.any_some]
    split
    · rw [List.length_cons, List.length_cons, List.length_map, ih]
    · rw [List.length_map, ih]

/-- A note-on comes after fewer note-ons of its group than the batch holds. -/
theorem onRank_lt (ha : batch[i]? = some a) (hon : evType a.ev = 1) :
    onRank batch a i < (batch.filter fun b => evType b.ev == 1 && evGroup b.ev == evGroup a.ev).length := by
  rw [← length_filter_range]
  have hi : i ∈ List.range batch.length := List.mem_range.2 (List.getElem?_eq_some_iff.1 ha).1
  have hsub : (List.range batch.length).filter (onBefore batch a i) =
      ((List.range batch.length).filter fun n => (batch[n]?).any fun b => evType b.ev == 1 && evGroup b.ev == evGroup a.ev).filter
        (onBefore batch a i) := by
    rw [List.filter_filter]
    refine List.filter_congr fun n _ => ?_
    by_cases hn : onBefore batch a i n = true
    · obtain ⟨p, hp, hon, hgroup, -⟩ := onBefore_iff.1 hn
      simp [hn, hp, hon, hgroup]
    · rw [eq_false_of_ne_true hn, Bool.false_and]
  rw [onRank, hsub]
  refine List.length_filter_lt_length_iff_exists.2 ⟨i, List.mem_filter.2 ⟨hi, by simp [ha, hon]⟩, fun hbefore => ?_⟩
  obtain ⟨p, hp, -, -, horder⟩ := onBefore_iff.1 hbefore
  cases hp.symm.trans ha
  omega

end

end Sys2Proof.Machine
end

