-- ==== Sys2Proof/Proofs/VoiceEngine.lean ====
section
/-! SUPPORT. The statement about the voices: note-ons, the other events of a batch, what comes before a batch, and its marks. -/

namespace Sys2Proof.Machine

/-! ### Note-ons (R208, R214, R216 to R218) -/

section
variable {r : VoxRun} {cfg : SMap Word} {ev : Block} {w : Nat}

theorem VoxRun.cmd_of_told {k c : Nat} {x : Option (BitVec 16)} (h : r.told k = some (c, x)) :
    (r.cmds.find? (·.1 == k)).map (·.2.cmd) = some c := by
  have hfst := congrArg (Option.map Prod.fst) h
  rwa [VoxRun.told, Option.map_map] at hfst

/-- A note-on that steals fades its victim and starts the idle voice, which are two voices. -/
theorem VoxRun.noteOn_steal_spec {v : Nat × Voice} (hi : r.die.idleVoice = some w)
    (hv : r.victim cfg (evGroup ev).toNat (evNote ev) = some v) (hd : r.die.voice v.1 = v.2) :
    (r.noteOn cfg .steal ev).die.voice v.1 = v.2.faded r.die.stealFrames ∧
    (r.noteOn cfg .steal ev).die.voice w = r.started ev ∧
    (r.noteOn cfg .steal ev).told v.1 = some (3, none) ∧ (r.noteOn cfg .steal ev).told w = some (1, some (evValue ev)) ∧
    ∀ j, j ≠ v.1 → j ≠ w → (r.noteOn cfg .steal ev).die.voice j = r.die.voice j := by
  have hbusy : v.2.busy = true := VoxRun.busy_of_able (VoxRun.mem_able_of_candidates (VoxRun.victim_spec hv).1)
  have hne : w ≠ v.1 := by
    rintro rfl
    rw [← hd, Voice.not_busy_of_idle (Die.idleVoice_spec hi).1] at hbusy
    exact Bool.false_ne_true hbusy
  rw [VoxRun.noteOn_steal hi hv]
  refine ⟨?_, ?_, ?_, ?_, fun j hjv hjw => ?_⟩
  · rw [VoxRun.startVoice_voice, if_neg hne, VoxRun.fade_voice, if_pos rfl]
  · rw [VoxRun.startVoice_voice, if_pos rfl]
    rfl
  · rw [VoxRun.startVoice_told, if_neg hne, VoxRun.fade_told, if_pos rfl]
  · rw [VoxRun.startVoice_told, if_pos rfl]
  · rw [VoxRun.startVoice_voice, if_neg hjw.symm, VoxRun.fade_voice, if_neg hjv.symm]

end

/-! ### Other events (R208) -/

section
variable {r : VoxRun} {cfg : SMap Word} {m : Mark} {ev : Block}

/-- A sustain event sets the sustain of its group, and one that goes up releases the HELD voices of the group. -/
theorem VoxRun.event_sustain_spec (hw : r.wf) (h : evType ev = 5) (hc : evCtl ev = 8) (k : Nat) :
    natBit (r.event cfg m ev).die.vox.sustain.toNat (evGroup ev).toNat = decide (0x8000 ≤ (evValue ev).toNat) ∧
    ((evValue ev).toNat < 0x8000 ∧ (r.die.voice k).group = evGroup ev ∧ (r.die.voice k).state = .held →
      (r.event cfg m ev).die.voice k = (r.die.voice k).released ∧
        (r.event cfg m ev).told k = some (2, some (r.die.voice k).relVel)) ∧
    (¬ ((evValue ev).toNat < 0x8000 ∧ (r.die.voice k).group = evGroup ev ∧ (r.die.voice k).state = .held) →
      (r.event cfg m ev).die.voice k = r.die.voice k ∧ (r.event cfg m ev).told k = r.told k) := by
  have hbit : natBit (r.sustained (evGroup ev).toNat (decide (0x8000 ≤ (evValue ev).toNat))).die.vox.sustain.toNat (evGroup ev).toNat =
      decide (0x8000 ≤ (evValue ev).toNat) := VoxRun.sustained_sustain (evGroup ev).isLt _
  rw [VoxRun.event_sustain h (by omega)]
  split
  · next hdown => exact ⟨hbit, fun hup => absurd hup.1 (by omega), fun _ => ⟨rfl, rfl⟩⟩
  · next hup =>
    have hup : (evValue ev).toNat < 0x8000 := Nat.lt_of_not_le hup
    obtain ⟨hin, hout⟩ := VoxRun.giveAll_spec (r := r.sustained (evGroup ev).toNat (decide (0x8000 ≤ (evValue ev).toNat)))
      Voice.released (fun v => ⟨2, none, none, some v.relVel, none⟩) hw (k := k) Voice.among_states.2
    exact ⟨by rw [VoxRun.giveAll_sustain, hbit], fun hk => hin hk.2, fun hk => hout fun hx => hk ⟨hup, hx⟩⟩

/-- NOTE_CTL and NOTE_PITCH tell the voices of the note, and change none. -/
theorem VoxRun.event_noteCmd_spec (hw : r.wf) (h : evType ev = 3 ∨ evType ev = 4) (k : Nat) :
    (r.event cfg m ev).die.voice k = r.die.voice k ∧ (r.event cfg m ev).told k =
      if (r.die.voice k).group = evGroup ev ∧ (r.die.voice k).note = evNote ev ∧ (r.die.voice k).busy = true then
        some (evType ev + 1, some (evValue ev))
      else r.told k := by
  obtain ⟨c, hcmd, hvalue, hq⟩ := VoxRun.event_noteCmd (r := r) (cfg := cfg) (m := m) h
  have hamong : (r.die.voice k).among (evGroup ev).toNat (fun v => v.busy && v.note == evNote ev) = true ↔
      (r.die.voice k).group = evGroup ev ∧ (r.die.voice k).note = evNote ev ∧ (r.die.voice k).busy = true := by
    rw [Voice.among_iff fun hi => by rw [Voice.not_busy_of_idle hi, Bool.false_and], Bool.and_eq_true, beq_iff_eq,
      and_comm (a := Voice.busy _ = true)]
  obtain ⟨hin, hout⟩ := VoxRun.giveAll_spec id (fun _ => c) hw hamong
  rw [hq]
  split
  · next hk =>
    rw [← hcmd, ← hvalue]
    exact hin hk
  · next hk => exact hout hk

/-- A note-off releases the oldest ON voice of its note or holds it, and with none releases the oldest HELD one. -/
theorem VoxRun.event_noteOff_spec (hw : r.wf) (h : evType ev = 2) (k : Nat) :
    (∀ v, r.oldestAt ev .on = some v →
      (natBit r.die.vox.sustain.toNat (evGroup ev).toNat = true → (r.event cfg m ev).cmds = r.cmds ∧
        (r.event cfg m ev).die.voice k = if k = v.1 then { r.die.voice k with
          state := .held
          relVel := evValue ev } else r.die.voice k) ∧
      (natBit r.die.vox.sustain.toNat (evGroup ev).toNat = false →
        (k = v.1 → (r.event cfg m ev).die.voice k = (r.die.voice k).released ∧
          (r.event cfg m ev).told k = some (2, some (evValue ev))) ∧
        (k ≠ v.1 → (r.event cfg m ev).die.voice k = r.die.voice k ∧ (r.event cfg m ev).told k = r.told k))) ∧
    (∀ v, r.oldestAt ev .held = some v → r.oldestAt ev .on = none →
      (k = v.1 → (r.event cfg m ev).die.voice k = (r.die.voice k).released ∧
        (r.event cfg m ev).told k = some (2, some (evValue ev))) ∧
      (k ≠ v.1 → (r.event cfg m ev).die.voice k = r.die.voice k ∧ (r.event cfg m ev).told k = r.told k)) ∧
    (r.oldestAt ev .on = none → r.oldestAt ev .held = none → (r.event cfg m ev).cmds = r.cmds ∧
      (r.event cfg m ev).die.voice k = r.die.voice k) := by
  rw [VoxRun.event_noteOff h]
  refine ⟨fun v hv => ⟨fun hs => ?_, fun hs => ?_⟩, fun v hv hon => ?_, fun hon hheld => ?_⟩
  · rw [VoxRun.noteOff_held hv hs, Die.voice_setVoice]
    refine ⟨rfl, ?_⟩
    by_cases hk : k = v.1
    · rw [if_pos hk.symm, if_pos hk, hk, VoxRun.voice_oldestAt hw hv]
    · rw [if_neg (Ne.symm hk), if_neg hk]
  · rw [VoxRun.noteOff_on hv hs]
    exact VoxRun.release_spec (VoxRun.voice_oldestAt hw hv) _ k
  · rw [VoxRun.noteOff_fromHeld hon hv]
    exact VoxRun.release_spec (VoxRun.voice_oldestAt hw hv) _ k
  · rw [VoxRun.noteOff_none hon hheld]
    exact ⟨rfl, rfl⟩

end

/-! ### The statement -/

/-- Settles O27: a note-on by what becomes of it, the other events by the voices they name, what comes before a batch by the groups
trimmed in turn, and the marks by rank. -/
theorem noteOnStartsLowestIdleVoice : Obligations.NoteOnStartsLowestIdleVoice := by
  refine ⟨fun r cfg ev v hv => ?_, fun r cfg ev m w => ?_, fun r cfg ev m k => ?_, fun r cfg batch busy fading i j k g => ?_⟩
  · intro q
    have hq : q = r.startVoice v ev := VoxRun.noteOn_free hv
    have hvoice : q.die.voice v = r.started ev := by rw [hq, VoxRun.startVoice_voice, if_pos rfl]
    rw [hvoice, hq]
    exact ⟨rfl, rfl, rfl, rfl, VoxRun.startVoice_next, fun j hj => by rw [VoxRun.startVoice_voice, if_neg hj.symm],
      (Die.idleVoice_spec hv).2⟩
  · intro g q able c same p
    refine ⟨fun hd => ?_, VoxRun.able_of_no_victim, fun v hv => ?_⟩
    · have hq : q = r.dropOn g := VoxRun.noteOn_dropped (hd.imp_right fun h => h.imp_right fun h => ⟨h.1, VoxRun.victim_eq_none h.2⟩)
      rw [hq]
      exact ⟨rfl, VoxRun.dropOn_vox g, VoxRun.dropOn_counts⟩
    · obtain ⟨hmem, hold, hsame, hquiet⟩ := VoxRun.victim_spec hv
      refine ⟨hmem, hold, hsame, hquiet, ?_⟩
      rintro rfl hi hd
      obtain ⟨hvv, hvw, htv, htw, hother⟩ := VoxRun.noteOn_steal_spec hi hv hd
      exact ⟨hvv, hvw, congrArg (fun x : VoxRun => x.die.vox.next) (VoxRun.noteOn_steal hi hv), VoxRun.cmd_of_told htv,
        VoxRun.cmd_of_told htw, hother⟩
  · intro g n wf q at_ x y told kept released
    refine ⟨VoxRun.wf_event, fun hw h => VoxRun.event_noteOff_spec hw h k, fun hw h => ?_, fun hw h => ?_, fun h hc => ?_,
      fun hw h hc => VoxRun.event_sustain_spec hw h hc k, fun hw h => VoxRun.event_noteCmd_spec hw h k⟩
    · have hq : q = _ := VoxRun.event_allOff h
      simp only [released, kept, y, hq]
      exact VoxRun.giveAll_spec _ _ hw Voice.among_states.1
    · have hq : q = _ := VoxRun.event_kill h
      simp only [kept, y, hq]
      exact VoxRun.giveAll_spec _ _ hw (Voice.among_iff Voice.not_busy_of_idle)
    · have hq : q = _ := VoxRun.event_slot h hc
      simp only [kept, y, hq]
      refine ⟨⟨rfl, rfl⟩, ?_, ?_⟩
      · split
        · next hn => exact List.contains_iff_mem.1 hn
        · exact List.mem_append_right _ List.mem_cons_self
      · rw [Die.updVox_vox, SMap.get_set, if_pos rfl]
  · intro wf x p ons
    refine ⟨fun hw => ⟨(VoxRun.prepare_trimmed (r := r) hw).wf, Die.voicesWf_voxFt _ hw⟩,
      fun hw => ⟨fun hf hn => ?_, VoxRun.prepare_fading hw, fun hr hl hs => ?_, ?_, VoxRun.prepare_playing hw⟩,
      fun _ => Die.voxFt_voice _ k, rfl, rfl, fun a ha b hb hona honb hg => ⟨fun hba hdrop => ?_, fun hroom => ?_⟩⟩
    · exact VoxRun.prepare_ended hw (by simp [Die.ended, x, hf, hn])
    · exact VoxRun.prepare_ended hw (by simp [Die.ended, x, hr, hl, hs])
    · exact (VoxRun.prepare_trimmed hw).within g (List.mem_range.2 g.isLt)
    · have hle := onRank_le (batch := batch) hg hba
      rw [markOns_eq ha] at hdrop
      rw [markOns_eq ha, markOns_eq hb, ← hg, markAt_eq_free, markAt_eq_free]
      exact ⟨markAt_ne_drop.2 (hle.trans_lt (markAt_ne_drop.1 hdrop)), hle.trans_lt⟩
    · rw [markOns_eq ha, markAt_eq_free]
      exact (onRank_lt ha hona).trans_le hroom

end Sys2Proof.Machine
end

