-- ==== Sys2Proof/Proofs/ChainState.lean ====
section
/-! SUPPORT. The ports of a die after an update of one of them, fields that lie apart, and what the selection of REF and the notes
of the chain leave of a die (R234, R235, R269, R270, R314, R317). -/

namespace Sys2Proof.Machine

@[simp] theorem PortId.other_other (p : PortId) : p.other.other = p := by cases p <;> rfl

theorem PortId.other_ne (p : PortId) : p.other ≠ p := by cases p <;> decide

theorem PortId.eq_other_of_ne {p q : PortId} (h : p ≠ q) : p = q.other := by
  cases p <;> cases q
  case n.s => rfl
  case s.n => rfl
  all_goals exact absurd rfl h

section
variable (e : Die)

/-! ### Ports -/

theorem Die.fwdIn_eq : e.fwdIn = e.fwdOut.other := (PortId.other_other _).symm

theorem Die.fwdOut_ne_fwdIn : e.fwdOut ≠ e.fwdIn := PortId.other_ne _

section
variable (p : PortId) (f : Port → Port)

@[simp] theorem Die.port_updPort_self : (e.updPort p f).port p = f (e.port p) := by cases p <;> rfl

@[simp] theorem Die.port_updPort_other : (e.updPort p f).port p.other = e.port p.other := by cases p <;> rfl

@[simp] theorem Die.port_updPort_of_other : (e.updPort p.other f).port p = e.port p := by cases p <;> rfl

@[simp] theorem Die.updPort_bit (g : Fld) : (e.updPort p f).bit g = e.bit g := rfl

end

/-! ### Fields that lie apart -/

/-- A field fits its register and shares no bit with another field. -/
def Fld.apart (f g : Fld) : Bool :=
  decide (f.lo + f.w ≤ 32) && (g.addr != f.addr || decide (g.lo + g.w ≤ f.lo) || decide (f.lo + f.w ≤ g.lo))

theorem Fld.apart_iff {f g : Fld} :
    f.apart g = true ↔ f.fits ∧ (g.addr ≠ f.addr ∨ g.lo + g.w ≤ f.lo ∨ f.lo + f.w ≤ g.lo) := by
  simp [Fld.apart, Fld.fits, or_assoc]

section
variable {f g : Fld} (h : f.apart g = true)
include h

theorem Die.fld_setFld_apart (v : Nat) : (e.setFld f v).fld g = e.fld g :=
  e.fld_setFld_other f g (Fld.apart_iff.1 h).1 v (Fld.apart_iff.1 h).2

theorem Die.bit_setFld_apart (v : Nat) : (e.setFld f v).bit g = e.bit g := by
  rw [Die.bit, e.fld_setFld_apart h, Die.bit]

theorem Die.bit_count_apart (n : Nat) : (e.count f n).bit g = e.bit g := by
  rw [Die.bit, e.fld_count_other f g (Fld.apart_iff.1 h).1 n (Fld.apart_iff.1 h).2, Die.bit]

theorem Die.bit_raise_apart (b : Bool) : (e.raise f b).bit g = e.bit g := by
  cases b
  · rfl
  · exact e.bit_setFld_apart h 1

end

/-- An event writes no field outside the recorder's block. -/
theorem Die.fld_logEv {g : Fld} (hg : g.addr / 0x1000 ≠ R.LOG_CTRL / 0x1000) {cls : Nat} (hc : cls < 256) (code x y z : Nat) :
    (e.logEv cls code x y z).fld g = e.fld g := Die.fld_of_reg (e.reg_logEv hg hc code x y z)

theorem Die.bit_logEv {g : Fld} (hg : g.addr / 0x1000 ≠ R.LOG_CTRL / 0x1000) {cls : Nat} (hc : cls < 256) (code x y z : Nat) :
    (e.logEv cls code x y z).bit g = e.bit g := Die.bit_of_reg (e.reg_logEv hg hc code x y z)

/-! ### What the reference and the notes of the chain leave -/

/-- A die without its registers, its records to come, the reference and the time: what the selection of REF, counts and
interrupts leave alone. -/
def Die.deep (e : Die) : Die := { e.hidden with
  ref := Ref.reset
  tim := Tim.reset }

/-- What neither a register nor the reference or the time shows is the same on two dies that are alike beneath them. -/
theorem Die.of_deep {α : Type} (g : Die → α) (hg : ∀ x, g x.deep = g x) {t e : Die} (h : t.deep = e.deep) : g t = g e := by
  rw [← hg t, h, hg]

theorem Die.deep_of_hidden {t e : Die} (h : t.hidden = e.hidden) : t.deep = e.deep :=
  congrArg (fun x : Die => { x with
    ref := Ref.reset
    tim := Tim.reset }) h

@[simp] theorem Die.deep_setReg (a : Nat) (v : Word) : (e.setReg a v).deep = e.deep := rfl
@[simp] theorem Die.deep_setRegN (a v : Nat) : (e.setRegN a v).deep = e.deep := rfl
@[simp] theorem Die.deep_setFld (f : Fld) (v : Nat) : (e.setFld f v).deep = e.deep := rfl
@[simp] theorem Die.deep_updRef (f : Ref → Ref) : (e.updRef f).deep = e.deep := rfl
@[simp] theorem Die.deep_updTim (f : Tim → Tim) : (e.updTim f).deep = e.deep := rfl
@[simp] theorem Die.deep_raise (f : Fld) (b : Bool) : (e.raise f b).deep = e.deep := Die.deep_of_hidden (e.hidden_raise f b)
@[simp] theorem Die.deep_count (f : Fld) (n : Nat) : (e.count f n).deep = e.deep := Die.deep_of_hidden (e.hidden_count f n)
@[simp] theorem Die.deep_logEv (cls code x y z : Nat) : (e.logEv cls code x y z).deep = e.deep :=
  Die.deep_of_hidden (e.hidden_logEv cls code x y z)

@[simp] theorem Die.count_chn (f : Fld) (n : Nat) : (e.count f n).chn = e.chn :=
  Die.of_deep Die.chn (fun _ => rfl) (e.deep_count f n)

@[simp] theorem Die.raise_chn (f : Fld) (b : Bool) : (e.raise f b).chn = e.chn :=
  Die.of_deep Die.chn (fun _ => rfl) (e.deep_raise f b)

@[simp] theorem Die.deep_refGo (st : Nat) : (e.refGo st).deep = e.deep := by
  simp -implicitDefEqProofs [Die.refGo, apply_ite Die.deep]

@[simp] theorem Die.deep_alignShift (f : Int) : (e.alignShift f).deep = e.deep := rfl

@[simp] theorem Die.deep_alignEnd : e.alignEnd.deep = e.deep := by
  simp -implicitDefEqProofs [Die.alignEnd, apply_ite Die.deep]

@[simp] theorem Die.deep_holdFreq : e.holdFreq.deep = e.deep := by
  unfold Die.holdFreq
  split <;> rfl

@[simp] theorem Die.deep_refHold : e.refHold.deep = e.deep := by
  simp -implicitDefEqProofs [Die.refHold, apply_ite Die.deep]

@[simp] theorem Die.deep_refSwitch (i : Nat) : (e.refSwitch i).deep = e.deep := by
  simp -implicitDefEqProofs [Die.refSwitch]

/-- A selection of REF touches the registers, the recorder and the reference alone. -/
@[simp] theorem Die.deep_refSelect : e.refSelect.deep = e.deep := by
  unfold Die.refSelect
  split
  · rfl
  · split <;> simp -implicitDefEqProofs [apply_ite Die.deep]

@[simp] theorem Die.deep_refDisqualify (i cause : Nat) : (e.refDisqualify i cause).deep = e.deep := by
  simp -implicitDefEqProofs [Die.refDisqualify, apply_ite Die.deep]

@[simp] theorem Die.deep_masterIs (p : PortId) (pos rank : Nat) : (e.masterIs p pos rank).deep = e.deep := by
  simp -implicitDefEqProofs [Die.masterIs, apply_ite Die.deep]

@[simp] theorem Die.deep_settleLost (p : PortId) : (e.settleLost p).deep = e.deep := by
  simp -implicitDefEqProofs [Die.settleLost, apply_ite Die.deep]

@[simp] theorem Die.deep_wrapNote (p : PortId) (formed : Bool) : (e.wrapNote p formed).deep = e.deep := by
  simp -implicitDefEqProofs [Die.wrapNote]

/-! ### Registers that a selection of REF writes -/

section
variable {a : Nat} {l : List Nat} (ha : a ∉ l)
include ha

theorem Die.reg_setFld_notMem {f : Fld} (hf : f.addr ∈ l) (v : Nat) : (e.setFld f v).reg a = e.reg a :=
  e.reg_setFld_other (fun h : f.addr = a => ha (h ▸ hf)) v

theorem Die.reg_setReg_notMem {b : Nat} (hb : b ∈ l) (v : Word) : (e.setReg b v).reg a = e.reg a := by
  rw [Die.reg_setReg, if_neg fun h : b = a => ha (h ▸ hb)]

end

/-- The registers that a selection of REF moves (R314 to R322). -/
def refMoved : List Nat := [R.REF_STAT, R.REF_IRQ, R.REF_HOLDTIME, R.REF_FOFS, R.REF_SWCNT]

/-- The register at an address is neither the recorder's nor one that a selection of REF moves. -/
def keptByRef (a : Nat) : Prop := a / 0x1000 ≠ R.LOG_CTRL / 0x1000 ∧ a ∉ refMoved

section
variable {a : Nat} (ha : keptByRef a)
include ha

theorem Die.reg_logEv_kept (code x y z : Nat) : (e.logEv 1 code x y z).reg a = e.reg a :=
  e.reg_logEv ha.1 (by decide) code x y z

theorem Die.reg_refGo (st : Nat) : (e.refGo st).reg a = e.reg a := by
  simp +decide -implicitDefEqProofs only [Die.refGo, Die.setRegN, apply_ite (fun x : Die => x.reg a), Die.reg_logEv_kept _ ha,
    Die.reg_setFld_notMem _ ha.2, Die.reg_setReg_notMem _ ha.2, Die.updRef_reg, ite_self]

theorem Die.reg_alignShift (f : Int) : (e.alignShift f).reg a = e.reg a := e.reg_setReg_notMem ha.2 (by decide) _

theorem Die.reg_alignEnd : e.alignEnd.reg a = e.reg a := by
  unfold Die.alignEnd
  split
  · rw [Die.reg_setFld_notMem _ ha.2 (by decide), Die.reg_setFld_notMem _ ha.2 (by decide), Die.reg_alignShift _ ha]
  · rfl

theorem Die.reg_holdFreq : e.holdFreq.reg a = e.reg a := by
  unfold Die.holdFreq
  split
  · exact e.reg_setReg_notMem ha.2 (by decide) _
  · rfl

theorem Die.reg_refHold : e.refHold.reg a = e.reg a := by
  unfold Die.refHold
  dsimp only
  split
  · rw [Die.reg_holdFreq _ ha, Die.reg_refGo _ ha, Die.reg_alignShift _ ha, Die.updRef_reg]
  · rw [Die.reg_setReg_notMem _ ha.2 (by decide), Die.reg_refGo _ ha, Die.reg_alignShift _ ha, Die.updRef_reg]

theorem Die.reg_refSwitch (i : Nat) : (e.refSwitch i).reg a = e.reg a := by
  simp +decide -implicitDefEqProofs only [Die.refSwitch, Die.setRegN, Die.reg_alignEnd _ ha, Die.reg_setReg_notMem _ ha.2,
    Die.reg_setFld_notMem _ ha.2, Die.updRef_reg, Die.reg_refGo _ ha]

/-- A selection of REF leaves every other register. -/
theorem Die.reg_refSelect : e.refSelect.reg a = e.reg a := by
  unfold Die.refSelect
  split
  · rfl
  · split <;> simp only [apply_ite (fun x : Die => x.reg a), Die.reg_refSwitch _ ha, Die.reg_refHold _ ha, ite_self]

end

end

end Sys2Proof.Machine
end

