-- ==== Sys2Proof/Proofs/Loads.lean ====
section
/-! PROOF. O29. Loads: what their reception, their transmission and their delivery do, and the load that a ring entry becomes (R260 to
R267, R271, R276, R289). -/

namespace Sys2Proof

/-- Inserting passes through a change of the values. -/
theorem SMap.map_insert {α β : Type} (f : α → β) (m : SMap α) (k : Nat) (v : α) :
    (SMap.insert m k v).map (fun x => (x.1, f x.2)) = SMap.insert (m.map fun x => (x.1, f x.2)) k (f v) := by
  induction m with
  | nil => rfl
  | cons p m ih =>
    obtain ⟨j, w⟩ := p
    simp only [SMap.insert, List.map_cons]
    split
    · rfl
    · split
      · rfl
      · rw [List.map_cons, ih]

namespace Machine

/-- The low bits of a number as a word of `n` bits shows them. -/
theorem bitsOf_ofNat {n lo w : Nat} (h : lo + w ≤ n) (x : Nat) : bitsOf (BitVec.ofNat n x).toNat lo w = bitsOf x lo w := by
  apply Nat.eq_of_testBit_eq
  intro i
  rw [bitsOf_testBit, bitsOf_testBit, BitVec.toNat_ofNat, Nat.testBit_mod_two_pow]
  by_cases hi : i < w
  · have : lo + i < n := by omega
    simp [this]
  · simp [hi]

/-- A CRC-32 fits 32 bits. -/
theorem crc32Blocks_lt (bs : List Block) : crc32Blocks bs < 2 ^ 32 := Nat.lt_of_le_of_lt (Nat.sub_le ..) (by decide)

/-! ### Delivery (R265, R266) -/

/-- The record has a sequence: it is the highest, or lies below and is marked, or lies too far below (R265). -/
def Seen.has (r : Seen) (q : BitVec 16) : Prop :=
  (q - r.top).toNat = 0 ∨ ¬ (q - r.top).toNat < 2 ^ 15 ∧
    ¬ ((r.top - q).toNat ≤ 64 ∧ (!natBit r.below.toNat ((r.top - q).toNat - 1)) = true)

/-- What the record has is not new. -/
theorem Seen.take_of_has {r : Seen} {q : BitVec 16} (h : r.has q) : Seen.take (some r) q = (r, false) := by
  unfold Seen.take
  dsimp only
  split
  · rfl
  · next h0 =>
    obtain ⟨hup, hk⟩ := h.resolve_left h0
    rw [if_neg hup, if_neg hk]

/-- The record has what it has taken. -/
theorem Seen.take_has (r : Option Seen) (q : BitVec 16) : (Seen.take r q).1.has q := by
  have top (b : BitVec 64) : (⟨q, b⟩ : Seen).has q := .inl (by simp)
  cases r with
  | none => exact top 0
  | some r =>
    unfold Seen.take
    dsimp only
    split
    · next h0 => exact .inl h0
    · next h0 =>
      split
      · exact top _
      · next hup =>
        split
        · next hk =>
          refine .inr ⟨hup, fun h => ?_⟩
          have hpos : (r.top - q).toNat - 1 < 64 := by omega
          have hbit := h.2
          simp only [natBit_eq_testBit, BitVec.testBit_toNat, BitVec.getLsbD_or, BitVec.getLsbD_ofNat, hpos, decide_true,
            Bool.true_and, Nat.testBit_two_pow_self, Bool.or_true, Bool.not_true, Bool.false_eq_true] at hbit
        · next hk => exact .inr ⟨hup, hk⟩

/-- The record of duplicates for a load. -/
def Die.seenOf (e : Die) (ld : Load) : Option Seen := SMap.get (fun _ => none) (e.chn.seen.map fun x => (x.1, some x.2)) (ldKey ld)

/-- The record after a load, and whether the load is new to it (R265). -/
def Die.takes (e : Die) (ld : Load) : Seen × Bool := Seen.take (e.seenOf ld) (BitVec.ofNat 16 (ldFld ld 25 16))

section
variable (e : Die) (ld : Load)

/-- A load is as new to a die as to another with the same record. -/
theorem Die.takes_of_seen {t : Die} (h : t.chn.seen = e.chn.seen) : t.takes ld = e.takes ld := by
  rw [Die.takes, Die.seenOf, h, ← Die.seenOf, ← Die.takes]

/-- A load that is marked is not new again (R265). -/
theorem Die.takes_of_marked {t : Die} (h : t.chn.seen = SMap.insert e.chn.seen (ldKey ld) (e.takes ld).1) :
    (t.takes ld).2 = false := by
  rw [Die.takes, Die.seenOf, h, SMap.map_insert some, SMap.get_insert, if_pos rfl,
    Seen.take_of_has (r := (e.takes ld).1) (Seen.take_has (e.seenOf ld) _)]

/-- The die with the load marked as delivered. -/
def Die.marks (e : Die) (ld : Load) : Die := e.updChn fun c => { c with seen := SMap.insert c.seen (ldKey ld) (e.takes ld).1 }

/-- Delivery by the record, the lane, and the room in the ring (R265, R266). -/
theorem Die.deliver_eq (v : Bool) : e.deliver ld v =
    if !(e.takes ld).2 then (e.count F.CHN_DUP_COUNT 1, .duplicate)
    else if ldLane ld = 2 then ((e.marks ld).noteCross ld.payload, .delivered)
    else if e.rxFull then (e.setFld F.CHN_IRQ_RXOVF 1, .full)
    else ((e.marks ld).rxRing ld v, .delivered) := rfl

theorem Die.enqueue_chn (src : Fin 4) (ev : Block) : (e.enqueue src ev).chn = e.chn := by
  simp -implicitDefEqProofs [Die.enqueue, Die.qdrop, apply_ite Die.chn]

theorem Die.noteLoad_chn (payload : List Block) : (e.noteLoad payload).chn = e.chn := by
  unfold Die.noteLoad
  split
  · rfl
  · dsimp only
    split
    · exact Die.foldl_keeps Die.chn (fun x ev => x.enqueue_chn 1 ev) _ e
    · rfl

/-- A note load marks no load as delivered. -/
theorem Die.noteCross_seen (payload : List Block) : (e.noteCross payload).chn.seen = e.chn.seen := by
  unfold Die.noteCross
  split
  · rw [Die.noteLoad_chn]
  · split <;> rfl

theorem Die.storeBlocks_chn (a : Nat) (bs : List Block) : (e.storeBlocks a bs).chn = e.chn := by
  induction bs generalizing e a with
  | nil => rfl
  | cons b bs ih => rw [Die.storeBlocks, ih, Die.memWrite_chn]

theorem Die.rxRing_chn (v : Bool) : (e.rxRing ld v).chn = e.chn := by
  unfold Die.rxRing
  dsimp only
  split
  · rw [apply_ite Die.chn, Die.setFld_chn, Die.setFld_chn, Die.setFld_chn, Die.storeBlocks_chn, ite_self]
  · rfl

/-- A load that has been delivered, or was a duplicate, is a duplicate (R265). -/
theorem Die.takes_deliver (v : Bool) (h : (e.deliver ld v).2 ≠ .full) : ((e.deliver ld v).1.takes ld).2 = false := by
  rw [Die.deliver_eq] at h ⊢
  split
  · next hd => exact (congrArg Prod.snd (Die.takes_of_seen e ld (by rw [Die.count_chn]))).trans (by simpa using hd)
  · next hd =>
    split
    · exact e.takes_of_marked ld (Die.noteCross_seen _ _)
    · next hl =>
      split
      · next hf => rw [if_neg hd, if_neg hl, if_pos hf] at h; exact absurd rfl h
      · exact e.takes_of_marked ld (by rw [Die.rxRing_chn]; rfl)

/-- No load is delivered twice (R265). -/
theorem Die.deliver_deliver (v w : Bool) (h : (e.deliver ld v).2 ≠ .full) : ((e.deliver ld v).1.deliver ld w).2 = .duplicate := by
  rw [Die.deliver_eq _ ld w, e.takes_deliver ld v h]
  rfl

/-- A load that finds the ring full leaves only an interrupt (R266). -/
theorem Die.deliver_full (v : Bool) (h : (e.deliver ld v).2 = .full) : (e.deliver ld v).1 = e.setFld F.CHN_IRQ_RXOVF 1 := by
  rw [Die.deliver_eq] at h ⊢
  split_ifs at h ⊢
  · rfl

end

/-! ### Reception and transmission (R261 to R263, R289) -/

section
variable (e : Die) (p : PortId) (ld : Load)

/-- Another HOPS leaves the fields beside it. -/
theorem ldFld_ldHops {lo w : Nat} (h : lo + w ≤ 10 ∨ 19 ≤ lo) (hw : lo + w ≤ 64) (n : Nat) :
    ldFld (ldHops ld n) lo w = ldFld ld lo w := by
  rw [ldFld, ldHops, bitsOf_ofNat hw, bitsOf_insBits_other _ _ _ _ _ _ h, ← ldFld]

/-- A load is addressed to a die whatever its HOPS. -/
theorem Die.addressed_ldHops (n : Nat) : e.addressed (ldHops ld n) = e.addressed ld := by
  have h (lo w : Nat) (h : lo + w ≤ 10 ∨ 19 ≤ lo) (hw : lo + w ≤ 64) :
      bitsOf (ldHops ld n).header.toNat lo w = bitsOf ld.header.toNat lo w := ldFld_ldHops ld h hw n
  simp only [Die.addressed, natBit, ldFld, h 41 1 (by decide) (by decide), h 42 1 (by decide) (by decide),
    h 43 9 (by decide) (by decide)]

/-- A load on another port than the forward input, or on one that is OFF, changes nothing. -/
theorem Die.loadReceive_elsewhere (h : p ≠ e.fwdFrom ∨ e.portState p = St.off) : e.loadReceive p ld = (e, none) := if_pos h

section
variable (hp : p = e.fwdFrom) (hon : e.portState p ≠ St.off) (hw : e.wrapFar = false)
include hp hon hw

/-- A bad load is counted and dropped (R260, R261). -/
theorem Die.loadReceive_bad (hg : ldGood ld = false) :
    e.loadReceive p ld = ((e.count (F.CHNX_ERR_LCRC p.idx) 1).freeLoad p ld, none) := by
  unfold Die.loadReceive
  rw [if_neg (not_or.2 ⟨not_not.2 hp, hon⟩)]
  simp only [hw, hg, Bool.false_and, Bool.false_eq_true, Bool.not_false, if_false, if_true]

/-- A good load for others goes on with a hop more, or leaves the ring where it came from or has made too many (R261). -/
theorem Die.loadReceive_others (hg : ldGood ld = true) (ha : e.addressed ld = false) :
    e.loadReceive p ld = (if ldFld ld 53 9 = e.fld F.CHN_CTRL_POSID ∨ 511 < ldFld ld 10 9 + 1 then
        e.freeLoad p (ldHops ld (min (ldFld ld 10 9 + 1) 511))
      else e.updChn fun c => { c with queue := c.queue ++ [⟨p, false, ldHops ld (min (ldFld ld 10 9 + 1) 511)⟩] }, none) := by
  unfold Die.loadReceive
  rw [if_neg (not_or.2 ⟨not_not.2 hp, hon⟩)]
  have hfull : (Delivery.full != Delivery.full) = false := rfl
  simp only [hw, hg, e.addressed_ldHops, ha, hfull, Bool.false_and, Bool.false_eq_true, Bool.not_true, if_false, Bool.or_false,
    Bool.or_eq_true, beq_iff_eq, decide_eq_true_eq]
  rfl

end
end

/-! ### A load from a ring entry (R267) -/

/-- What reading SHARED leaves of a die: the chain, the pair, the engine, the clocks, and every register that belongs neither to
the recorder nor to the crossbar. -/
structure Die.ReadFrom (e t : Die) : Prop where
  chn : t.chn = e.chn
  pair : t.pair = e.pair
  eng : t.eng = e.eng
  clk : t.clk = e.clk
  reg : ∀ a, a / 0x1000 ≠ R.LOG_CTRL / 0x1000 → a / 0x1000 ≠ R.XBR_IRQ / 0x1000 → t.reg a = e.reg a

theorem Die.ReadFrom.refl (e : Die) : e.ReadFrom e := ⟨rfl, rfl, rfl, rfl, fun _ _ _ => rfl⟩

theorem Die.ReadFrom.trans {e t u : Die} (h : e.ReadFrom t) (h' : t.ReadFrom u) : e.ReadFrom u :=
  ⟨h'.chn.trans h.chn, h'.pair.trans h.pair, h'.eng.trans h.eng, h'.clk.trans h.clk,
    fun a hl hx => (h'.reg a hl hx).trans (h.reg a hl hx)⟩

/-- Operations on the registers and the recorder alone leave what reading leaves, where their registers are the crossbar's or the
recorder's. -/
theorem Die.ReadFrom.of_hidden {e t : Die} (h : t.hidden = e.hidden)
    (hr : ∀ a, a / 0x1000 ≠ R.LOG_CTRL / 0x1000 → a / 0x1000 ≠ R.XBR_IRQ / 0x1000 → t.reg a = e.reg a) : e.ReadFrom t :=
  ⟨Die.of_hidden Die.chn (fun _ => rfl) h, Die.of_hidden Die.pair (fun _ => rfl) h, Die.of_hidden Die.eng (fun _ => rfl) h,
    Die.of_hidden Die.clk (fun _ => rfl) h, hr⟩

theorem Die.reg_setFld_xbar (e : Die) {f : Fld} (hf : f.addr / 0x1000 = R.XBR_IRQ / 0x1000) {a : Nat}
    (ha : a / 0x1000 ≠ R.XBR_IRQ / 0x1000) (v : Nat) : (e.setFld f v).reg a = e.reg a :=
  e.reg_setFld_other (fun h : f.addr = a => ha (h ▸ hf)) v

theorem Die.reg_count_xbar (e : Die) {f : Fld} (hf : f.addr / 0x1000 = R.XBR_IRQ / 0x1000) {a : Nat}
    (ha : a / 0x1000 ≠ R.XBR_IRQ / 0x1000) (n : Nat) : (e.count f n).reg a = e.reg a :=
  e.reg_count_other (fun h : f.addr = a => ha (h ▸ hf)) n

theorem Die.reg_setReg_xbar (e : Die) {b : Nat} (hb : b / 0x1000 = R.XBR_IRQ / 0x1000) {a : Nat}
    (ha : a / 0x1000 ≠ R.XBR_IRQ / 0x1000) (v : Word) : (e.setReg b v).reg a = e.reg a := by
  rw [Die.reg_setReg, if_neg fun h : b = a => ha (h ▸ hb)]

/-- A read of a memory, whatever its check bits show. -/
theorem Die.readFrom_memRead (e : Die) (master a n : Nat) (err : Option EccKind) : e.ReadFrom (e.memRead master a n err).2 := by
  unfold Die.memRead
  dsimp only
  split
  · exact .refl e
  · refine .trans (t := { e with mem := e.mem.setMark a 0 }) ⟨rfl, rfl, rfl, rfl, fun _ _ _ => rfl⟩ (.of_hidden ?_ fun b _ hx => ?_)
    · rw [Die.hidden_setFld, Die.hidden_count]
    · rw [Die.reg_setFld_xbar _ rfl hx, Die.reg_count_xbar _ rfl hx]
  · refine .trans (t := { e with mem := e.mem.setMark a 2 }) ⟨rfl, rfl, rfl, rfl, fun _ _ _ => rfl⟩ (.of_hidden ?_ fun b hl hx => ?_)
    · rw [Die.hidden_logEv, Die.hidden_setFld, Die.hidden_count]
    · rw [Die.reg_logEv _ hl (by decide), Die.reg_setFld_xbar _ rfl hx, Die.reg_count_xbar _ rfl hx]

theorem Die.readFrom_busError (e : Die) (m : BitVec 3) (w : Bool) (c : Nat) (v : Word) : e.ReadFrom (e.busError m w c v) := by
  have hreg : ∀ a, a / 0x1000 ≠ R.XBR_IRQ / 0x1000 → (e.busError m w c v).reg a = e.reg a := fun a hx => by
    unfold Die.busError
    dsimp only
    split
    · rfl
    · rw [Die.setRegN, Die.reg_setReg_xbar _ (b := R.XBR_ERRID) rfl hx, Die.reg_setReg_xbar _ (b := R.XBR_ERRADDR) rfl hx,
        Die.reg_setFld_xbar _ rfl hx]
      rfl
  obtain ⟨r, hr, -⟩ := e.busError_spec m w c v
  rw [hr] at hreg ⊢
  exact ⟨rfl, rfl, rfl, rfl, fun a _ hx => hreg a hx⟩

theorem Die.readFrom_drawn (e : Die) : e.ReadFrom e.drawn := ⟨rfl, rfl, rfl, rfl, fun _ _ _ => rfl⟩

/-- CHD reads a word of SHARED. -/
theorem Die.readFrom_chdRead (e : Die) (a : Nat) : e.ReadFrom (e.chdRead a).2 := by
  have h := e.readFrom_memRead 4 a 8 none
  unfold Die.chdRead
  split
  · next v t ht => rw [ht] at h; exact h
  · next t ht =>
    rw [ht] at h
    exact (h.trans (t.readFrom_busError ..)).trans (Die.readFrom_drawn _)

theorem Die.chdWords_succ (n : Nat) (e : Die) (a : Nat) : Die.chdWords (n + 1) e a =
    ((e.chdRead a).1 :: (Die.chdWords n (e.chdRead a).2 (a + 8)).1, (Die.chdWords n (e.chdRead a).2 (a + 8)).2) := rfl

theorem Die.readFrom_chdWords (n : Nat) (e : Die) (a : Nat) : e.ReadFrom (Die.chdWords n e a).2 := by
  induction n generalizing e a with
  | zero => exact .refl e
  | succ n ih =>
    rw [Die.chdWords_succ]
    exact (e.readFrom_chdRead a).trans (ih _ _)

theorem Die.length_chdWords (n : Nat) (e : Die) (a : Nat) : (Die.chdWords n e a).1.length = n := by
  induction n generalizing e a with
  | zero => rfl
  | succ n ih => rw [Die.chdWords_succ, List.length_cons, ih]

/-- The header of the load that a ring entry becomes, from the entry's first word (R260, R267). -/
def Die.entryHeader (e : Die) (lane : Nat) (w : Block) : Nat :=
  insBits (insBits (insBits (insBits (insBits (insBits w.toNat 62 2 lane) 53 9 (e.fld F.CHN_CTRL_POSID)) 52 1
    (b2n (e.role == Role.split && e.id == .b))) 25 16 (e.fld (F.CHN_TXSEQ_SEQ lane))) 10 9 0) 0 10 0

section
variable (e : Die) (a lane : Nat)

/-- The load of a ring entry is sealed, with as many words as its header says. What reads SHARED and what makes the header are
variables in the proof: the kernel, asked to evaluate them, would count numerals down one by one. -/
theorem Die.entryLoad_spec : ∃ w bs t, e.entryLoad a lane = (ldSeal ⟨BitVec.ofNat 64 (e.entryHeader lane w), bs, 0⟩, t) ∧
    bs.length = bitsOf (e.entryHeader lane w) 19 6 + 1 ∧ e.ReadFrom t := by
  have hread := e.readFrom_chdRead a
  have hlen := Die.length_chdWords
  have hwords := Die.readFrom_chdWords
  unfold Die.entryHeader
  obtain ⟨load, hload⟩ : ∃ load, load = Die.entryLoad := ⟨_, rfl⟩
  obtain ⟨words, hw⟩ : ∃ words, words = Die.chdWords := ⟨_, rfl⟩
  obtain ⟨ins, hi⟩ : ∃ ins, ins = insBits := ⟨_, rfl⟩
  obtain ⟨read, hr⟩ : ∃ read, read = Die.chdRead := ⟨_, rfl⟩
  rw [← hload, ← hi]
  rw [← hw] at hlen hwords
  rw [← hr] at hread
  delta Die.entryLoad at hload
  rw [← hw, ← hi, ← hr] at hload
  rw [hload]
  exact ⟨(read e a).1, _, _, rfl, hlen .., hread.trans (hwords ..)⟩

/-- A load sealed, part by part. -/
theorem ldSeal_mk (h : Block) (p : List Block) (c : Block) : ldSeal ⟨h, p, c⟩ = ⟨h, p, BitVec.ofNat 64 (ldCrc ⟨h, p, c⟩ * 2 ^ 32)⟩ := rfl

theorem ldCrc_lt (ld : Load) : ldCrc ld < 2 ^ 32 := crc32Blocks_lt _

theorem ldFld_mk (h : Block) (p : List Block) (c : Block) (lo w : Nat) : ldFld ⟨h, p, c⟩ lo w = bitsOf h.toNat lo w := rfl

/-- Sealing leaves the fields of the header. -/
theorem ldFld_seal (ld : Load) (lo w : Nat) : ldFld (ldSeal ld) lo w = ldFld ld lo w := by
  obtain ⟨h, p, c⟩ := ld
  rw [ldSeal_mk, ldFld_mk, ldFld_mk]

/-- A sealed load of the length its header gives is good (R260). -/
theorem ldGood_seal {ld : Load} (hl : ldFld ld 19 6 + 1 = ld.payload.length) : ldGood (ldSeal ld) = true := by
  have hlt := ldCrc_lt ld
  obtain ⟨h, p, c⟩ := ld
  rw [ldGood, ldFld_seal, hl, ldSeal_mk, Bool.and_eq_true, beq_iff_eq, beq_iff_eq]
  refine ⟨rfl, ?_⟩
  simp only [ldCrc, BitVec.toNat_ofNat] at hlt ⊢
  omega

/-- What the load of a ring entry says: it is good, of its lane, of this die, and of the lane's SEQ; and it is read from SHARED
(R260, R267). -/
theorem Die.entryLoad_says (hl : lane < 4) : ∃ x t, e.entryLoad a lane = (x, t) ∧ e.ReadFrom t ∧ ldGood x = true ∧
    ldLane x = lane ∧ ldFld x 53 9 = e.fld F.CHN_CTRL_POSID ∧ ldFld x 25 16 = e.fld (F.CHN_TXSEQ_SEQ lane) := by
  obtain ⟨w, bs, t, hx, hlen, hread⟩ := e.entryLoad_spec a lane
  have hfld {lo n : Nat} (h : lo + n ≤ 64) :
      ldFld ⟨BitVec.ofNat 64 (e.entryHeader lane w), bs, 0⟩ lo n = bitsOf (e.entryHeader lane w) lo n := bitsOf_ofNat h _
  refine ⟨_, t, hx, hread, ldGood_seal (by rw [hfld (by decide), hlen]), ?_⟩
  rw [ldLane, ldFld_seal, ldFld_seal, ldFld_seal, hfld (by decide), hfld (by decide), hfld (by decide), Die.entryHeader]
  simp +decide only [bitsOf_insBits_other, bitsOf_insBits_self]
  exact ⟨Nat.mod_eq_of_lt hl, Nat.mod_eq_of_lt (bitsOf_lt ..), Nat.mod_eq_of_lt (bitsOf_lt ..)⟩

/-- A ring entry that is fetched (R267): the entry becomes a load of the die, in the queue of forward out, and the tail and SEQ move
on. -/
theorem Die.loadFetch_fetches {a : Nat} {l : Fin 4} (ha : ringAt (e.regN (R.CHN_TXBASE l)) (e.fld (F.CHN_TXTAIL_INDEX l)) = some a)
    (hf : e.fetches = true) (hc : e.fld (F.CHN_TXCNT_COUNT l) ≠ 0)
    (ht : e.fld (F.CHN_TXTAIL_INDEX l) ≠ e.fld (F.CHN_TXHEAD_INDEX l)) (hq : e.queued e.fwdOut l + 66 ≤ 8192) :
    ∃ x t, e.loadFetch l = (t, some x) ∧ (ldGood x = true ∧ ldLane x = l.val ∧ ldFld x 53 9 = e.fld F.CHN_CTRL_POSID ∧
        ldFld x 25 16 = e.fld (F.CHN_TXSEQ_SEQ l)) ∧ t.pair = e.pair ∧ t.clk = e.clk ∧ t.eng = e.eng ∧ t.role = e.role ∧
      t.chn.queue = e.chn.queue ++ [⟨e.fwdOut, true, x⟩] ∧
      t.fld (F.CHN_TXTAIL_INDEX l) =
        (if e.fld (F.CHN_TXCNT_COUNT l) ≤ e.fld (F.CHN_TXTAIL_INDEX l) + 1 then 0 else e.fld (F.CHN_TXTAIL_INDEX l) + 1) ∧
      t.fld (F.CHN_TXSEQ_SEQ l) = (e.fld (F.CHN_TXSEQ_SEQ l) + 1) % 2 ^ 16 := by
  obtain ⟨x, t, hx, hread, hsays⟩ := e.entryLoad_says a l.val l.isLt
  have haddr : ∀ l : Fin 4, R.CHN_TXSEQ l / 0x1000 ≠ R.LOG_CTRL / 0x1000 ∧ R.CHN_TXSEQ l / 0x1000 ≠ R.XBR_IRQ / 0x1000 ∧
      R.CHN_TXSEQ l ≠ R.PAIR_STAT ∧ R.CHN_TXTAIL l ≠ R.PAIR_STAT := by decide
  obtain ⟨hlog, hxbar, hseqRole, htailRole⟩ := haddr l
  have hseq : t.fld (F.CHN_TXSEQ_SEQ l) = e.fld (F.CHN_TXSEQ_SEQ l) := Die.fld_of_reg (hread.reg _ hlog hxbar)
  have hlt : e.fld (F.CHN_TXCNT_COUNT l) < 2 ^ 12 := bitsOf_lt ..
  have hidle : ¬ ((!e.fetches) = true ∨ e.fld (F.CHN_TXCNT_COUNT l) = 0 ∨
      e.fld (F.CHN_TXTAIL_INDEX l) = e.fld (F.CHN_TXHEAD_INDEX l) ∨ 8192 < e.queued e.fwdOut l + 66) := by
    rw [hf]
    simp only [Bool.not_true, Bool.false_eq_true, hc, ht, false_or]
    omega
  obtain ⟨entry, he⟩ : ∃ entry, entry = Die.entryLoad := ⟨_, rfl⟩
  unfold Die.loadFetch
  rw [← he] at hx ⊢
  simp only [ha, hidle, hx, if_false]
  have hapart : ∀ l : Fin 4, (F.CHN_TXSEQ_SEQ l).apart (F.CHN_TXTAIL_INDEX l) = true := by decide
  refine ⟨x, _, rfl, hsays, hread.pair, hread.clk, hread.eng, ?_, ?_, ?_, ?_⟩
  · rw [Die.role, Die.updChn_fld, Die.role]
    refine Die.fld_of_reg ?_
    rw [Die.reg_setFld_other _ hseqRole, Die.reg_setFld_other _ htailRole]
    exact hread.reg _ (by decide) (by decide)
  · rw [Die.updChn_chn, Die.setFld_chn, Die.setFld_chn, hread.chn]
  · rw [Die.updChn_fld, Die.fld_setFld_apart _ (hapart l), Die.fld_setFld_self _ _ (Fld.fits_of rfl)]
    refine Nat.mod_eq_of_lt ?_
    split
    · exact Nat.two_pow_pos _
    · exact Nat.lt_trans (by omega) hlt
  · rw [Die.updChn_fld, Die.fld_setFld_self _ _ (Fld.fits_of rfl), hseq]
    rfl

end

/-- A die with the same link, pair and clocks keeps the party wall as it is. -/
theorem State.linked_setDie (s : State) (d : DieId) {t : Die} (hp : t.pair = (s.die d).pair) (hc : t.clk = (s.die d).clk) :
    (s.setDie d t).linked = s.linked := by
  have h : t.linkUp = (s.die d).linkUp := by rw [Die.linkUp, Die.runs, hp, hc, ← Die.runs, ← Die.linkUp]
  cases d
  · exact congrArg (· && s.dieB.linkUp) h
  · exact congrArg (s.dieA.linkUp && ·) h

/-- A load that the die has fetched; where it leads, the load is passed to a follow (R267, R289). -/
def State.passFetched (s : State) (d : DieId) (t : Die) (x : Load) : State :=
  if t.isLead && ((s.setDie d t).die d.other).role == Role.follow then
    (s.setDie d t).wall d.other .load fun f => { f with pair := { f.pair with relay := f.pair.relay ++ [x] } }
  else s.setDie d t

/-- What a fetched load leaves of both dies: the partner has it to relay where it follows and the party wall carries (R289). -/
theorem State.passFetched_dies {s : State} {d : DieId} {t : Die} (x : Load) (hp : t.pair = (s.die d).pair)
    (hc : t.clk = (s.die d).clk) (hl : (s.die d.other).pair.lossy.contains .load = false) :
    (s.passFetched d t x).die d = t ∧ ((s.passFetched d t x).die d.other).pair.relay =
      (if t.isLead && s.linked && (s.die d.other).role == Role.follow then (s.die d.other).pair.relay ++ [x]
        else (s.die d.other).pair.relay) := by
  unfold State.passFetched
  have hlink := s.linked_setDie d hp hc
  rw [State.die_setDie_other]
  cases hlead : t.isLead && (s.die d.other).role == Role.follow with
  | false =>
    have hno : (t.isLead && s.linked && (s.die d.other).role == Role.follow) = false := by
      rw [Bool.and_right_comm, hlead, Bool.false_and]
    rw [hno, if_neg Bool.false_ne_true, if_neg Bool.false_ne_true, State.die_setDie_self, State.die_setDie_other]
    exact ⟨rfl, rfl⟩
  | true =>
    rw [Bool.and_right_comm, hlead, if_pos rfl, Bool.true_and]
    cases hs : s.linked with
    | false =>
      rw [State.wall_unlinked (hlink.trans hs), State.die_setDie_self, State.die_setDie_other]
      exact ⟨rfl, rfl⟩
    | true =>
      rw [State.wall_of_lossless (hlink.trans hs) (by rw [State.die_setDie_other]; exact hl), State.die_upd_partner,
        State.die_setDie_self, State.die_upd_self, State.die_setDie_other]
      exact ⟨rfl, rfl⟩

section
variable (d : DieId) (s : State)

/-- A fetch that finds an entry. -/
theorem CompletesIn.of_loadFetch {l : Fin 4} {t : Die} {x : Load} {P : State → Prop} (h : (s.die d).loadFetch l = (t, some x))
    (hp : P (s.passFetched d t x)) : CompletesIn d .ltx (.loadFetch d l) s P := by
  refine CompletesIn.of_goIn (exec_loadFetch ..) fun _ => ?_
  rw [h]
  exact hp

/-- A load that is passed to no partner. -/
theorem ChangesIn.of_loadReceive {p : PortId} {ld : Load} {f : Die → Die} (h : (s.die d).loadReceive p ld = (f (s.die d), none)) :
    ChangesIn (rxDom p) (.loadReceive d p ld) s d f := by
  refine ChangesIn.of_goIn (exec_loadReceive ..) ?_
  rw [h]

/-! ### Control blocks (R262) -/

variable (e : Die)

theorem ldBlocks_length (ld : Load) : (ldBlocks ld).length = ld.payload.length + 2 := by simp [ldBlocks]

/-- A port that is not ON sends idle blocks. -/
theorem Die.controlBlock_off {room : Nat} (hc : e.carries e.fwdTo = false) (hs : e.chn.sending = none) :
    e.controlBlock room = e.updChn fun c => { c with lastBlock := none } := by
  unfold Die.controlBlock Die.dropSending
  rw [hc, hs]
  rfl

/-- The count of blocks sent of a load's lane goes one up. -/
def Die.countSent (e : Die) (ld : Load) : Die :=
  let f := F.CHNX_LANE_SENT e.fwdTo.idx (e.ctrLane e.fwdTo (ldLane ld))
  e.setFld f (e.fld f + 1)

/-- A block before the last of a load is sent and counted, and the load goes on. -/
theorem Die.sendBlock_more {q : QLoad} {n : Nat} (h : n + 1 < (ldBlocks q.ld).length) :
    e.sendBlock q n = (e.countSent q.ld).updChn fun c => { c with
      lastBlock := (ldBlocks q.ld)[n]?
      sending := some (q, n + 1) } := by
  have hlast : ¬ (ldBlocks q.ld).length ≤ n + 1 := by omega
  unfold Die.sendBlock
  simp only [hlast, decide_false, Bool.false_and, Bool.false_eq_true, if_false]
  rfl

/-- The load in hand goes on. -/
theorem Die.controlBlock_goes {room : Nat} {q : QLoad} {n : Nat} (hc : e.carries e.fwdTo = true)
    (hs : e.chn.sending = some (q, n)) : e.controlBlock room = e.sendBlock q n := by
  unfold Die.controlBlock
  rw [hc, hs]
  rfl

/-- The load chosen leaves its queue and begins. -/
theorem Die.controlBlock_starts {room : Nat} {q : QLoad} (hc : e.carries e.fwdTo = true) (hs : e.chn.sending = none)
    (hp : e.pickLoad room = some q) (hw : e.wrapNear = false) :
    e.controlBlock room = (e.updChn fun c => { c with queue := c.queue.erase q }).sendBlock q 0 := by
  unfold Die.controlBlock
  rw [hc, hs]
  simp only [hp, hw]
  rfl

theorem Die.controlBlock_idle {room : Nat} (hc : e.carries e.fwdTo = true) (hs : e.chn.sending = none)
    (hp : e.pickLoad room = none) : e.controlBlock room = e.updChn fun c => { c with lastBlock := none } := by
  unfold Die.controlBlock
  rw [hc, hs]
  simp only [hp]
  rfl

/-- The load chosen stands in the queue, fits what is left of the region, and has credit (R262, R263). -/
theorem Die.pickLoad_some {room : Nat} {q : QLoad} (h : e.pickLoad room = some q) :
    q ∈ e.chn.queue ∧ (ldBlocks q.ld).length ≤ room ∧ e.hasCredit q.ld = true := by
  obtain ⟨lane, -, hl⟩ := List.exists_of_findSome?_eq_some h
  split at hl
  · next r hr =>
    split at hl
    · next hfit =>
      obtain rfl := Option.some.inj hl
      exact ⟨List.mem_of_find?_eq_some hr, hfit⟩
    · cases hl
  · cases hl

/-! ### Credit (R263) -/

theorem Die.creditReceive_off {p : PortId} {cred : Block} (h : e.portState p = St.off) : e.creditReceive p false cred = e :=
  if_pos (.inl h)

/-- The four counts received become those shown. -/
theorem Die.creditReceive_shows {p : PortId} {cred : Block} (h : e.portState p ≠ St.off) (hw : e.wrapNear = false) :
    e.creditReceive p false cred =
      let put (e : Die) (l : Nat) : Die := e.setFld (F.CHNX_LANE_FREED p.idx l) (bitsOf cred.toNat (16 * l) 16)
      put (put (put (put e 0) 1) 2) 3 := by
  unfold Die.creditReceive
  simp only [h, hw, Bool.or_false, Bool.and_false, Bool.false_and, Bool.false_eq_true, or_false, if_false]
  rfl

/-! ### Relay (R289) -/

theorem Die.loadRelay_next {x : Load} {xs : List Load} (h : e.pair.relay = x :: xs) : e.loadRelay =
    (e.updPair fun p => { p with
      relay := xs
      relayed := p.relayed.setIfInBounds (ldLane x) (some (BitVec.ofNat 16 (ldFld x 25 16))) }).updChn fun c => { c with
        queue := if e.role = Role.follow then c.queue ++ [⟨e.fwdOut, true, x⟩] else c.queue } := by
  unfold Die.loadRelay
  rw [h]
  by_cases hr : e.role = Role.follow
  · simp only [hr, if_true]
    exact if_pos hr
  · simp only [hr, if_false]
    exact if_neg hr

end

/-- Settles O29, by what each command of a load does to its die. -/
theorem loadsMove : Obligations.LoadsMove := by
  refine ⟨fun d p ld room lane cred s => ?_, fun e ld v w => ⟨e.deliver_deliver ld v w, e.deliver_full ld v⟩⟩
  intro e n
  have ltx {f : Die → Die} (h : e.controlBlock room.toNat = f e) : ChangesIn .ltx (.controlBlockSend d room) s d f :=
    (ChangesIn.of_updIn rfl).congr fun _ => h
  refine ⟨fun h => .of_loadReceive d s (e.loadReceive_elsewhere p ld h),
    fun hp hon hw => ⟨fun hg => .of_loadReceive d s (e.loadReceive_bad p ld hp hon hw hg), fun hg ha => ⟨fun hn ho => ?_, fun h => ?_⟩⟩,
    fun hc hs => ltx (e.controlBlock_off hc hs), fun q k hc hs hk => ltx ?_, fun q hc hs hp hw => ?_,
    fun hc hs hp => ltx (e.controlBlock_idle hc hs hp), fun h => (ChangesIn.of_updIn rfl).congr fun _ => e.creditReceive_off h,
    fun h hw => (ChangesIn.of_updIn rfl).congr fun _ => e.creditReceive_shows h hw, fun a ha hf hc ht hq _ hl => ?_,
    fun h => ?_, fun x xs h => (ChangesIn.of_updIn rfl).congr fun _ => e.loadRelay_next h⟩
  · refine .of_loadReceive d s ((e.loadReceive_others p ld hp hon hw hg ha).trans ?_)
    rw [if_neg (not_or.2 ⟨ho, by omega⟩), Nat.min_eq_left hn]
  · refine .of_loadReceive d s ((e.loadReceive_others p ld hp hon hw hg ha).trans ?_)
    rw [if_pos h.symm]
  · rw [e.controlBlock_goes hc hs, e.sendBlock_more hk]
    rfl
  · obtain ⟨hmem, hlen, hcredit⟩ := e.pickLoad_some hp
    refine ⟨hmem, hlen, hcredit, ltx ?_⟩
    rw [e.controlBlock_starts hc hs hp hw, Die.sendBlock_more _ (by rw [ldBlocks_length]; omega)]
    rfl
  · obtain ⟨x, t, hx, ⟨hgood, hlane, horigin, hseq⟩, hpair, hclk, heng, hrole, hqueue, htail, hnext⟩ :=
      e.loadFetch_fetches ha hf hc ht hq
    obtain ⟨hself, hrelay⟩ := State.passFetched_dies x hpair hclk hl
    refine .of_loadFetch d s hx ⟨x, hgood, hlane, horigin, hseq, ?_⟩
    rw [hself, hrelay, Die.isLead, hrole]
    exact ⟨hqueue, htail, hnext, rfl, heng⟩
  · refine (ChangesIn.of_updIn rfl).congr fun _ => ?_
    unfold Die.loadRelay
    rw [h]

end Machine
end Sys2Proof
end

