-- ==== Sys2Proof/Proofs/Headers.lean ====
section
/-! SUPPORT. Fields of a container's header after another field is set, and what the headers that leave a die hold (R242, R243,
R247, R249). -/

namespace Sys2Proof.Machine

section
variable (h : Blocks) (b : Fin 15) (lo w v : Nat)

theorem getElem_hdrSet (b' : Fin 15) :
    (hdrSet h b lo w v)[b'] = if b = b' then BitVec.ofNat 64 (insBits h[b].toNat lo w v) else h[b'] := by
  rw [hdrSet, Fin.getElem_fin, Vector.getElem_set]
  simp only [Fin.val_inj, Fin.getElem_fin]

theorem hdrFld_hdrSet_block {b b' : Fin 15} (hb : b ≠ b') (lo' w' : Nat) :
    hdrFld (hdrSet h b lo w v) b' lo' w' = hdrFld h b' lo' w' := by
  rw [hdrFld, getElem_hdrSet, if_neg hb, hdrFld]

theorem hdrFld_hdrSet_self (hw : lo + w ≤ 64) : hdrFld (hdrSet h b lo w v) b lo w = v % 2 ^ w := by
  rw [hdrFld, getElem_hdrSet, if_pos rfl, bitsOf_ofNat hw, bitsOf_insBits_self]

theorem hdrFld_hdrSet_apart {lo w lo' w' : Nat} (hw : lo' + w' ≤ 64) (ha : lo' + w' ≤ lo ∨ lo + w ≤ lo') :
    hdrFld (hdrSet h b lo w v) b lo' w' = hdrFld h b lo' w' := by
  rw [hdrFld, getElem_hdrSet, if_pos rfl, bitsOf_ofNat hw, bitsOf_insBits_other _ _ _ _ _ _ ha, hdrFld]

end

section
variable (h : Blocks)

/-! ### HCRC -/

/-- The check covers H0 to H13. -/
theorem hdrCrc_hdrSet_check (lo w v : Nat) : hdrCrc (hdrSet h 14 lo w v) = hdrCrc h := by
  refine congrArg crc32Blocks (List.ext_getElem (by simp) fun i hi _ => ?_)
  have : i < 14 := by simp at hi; omega
  simp [hdrSet, show ¬ 14 = i by omega]

theorem hdrGood_hdrSeal : hdrGood (hdrSeal h) = true := by
  have hlt : hdrCrc h < 2 ^ 32 := crc32Blocks_lt _
  rw [hdrGood, hdrSeal, hdrCrc_hdrSet_check, hdrFld_hdrSet_self _ _ _ _ _ (by decide), Nat.mod_eq_of_lt hlt]
  exact beq_self_eq_true _

theorem hdrFld_hdrSeal {b : Fin 15} (hb : 14 ≠ b) (lo w : Nat) : hdrFld (hdrSeal h) b lo w = hdrFld h b lo w :=
  hdrFld_hdrSet_block _ _ _ _ hb _ _

/-! ### Headers that leave -/

section
variable (e : Die) (p : PortId)

/-- A header leaves a port with a good check. -/
theorem Die.hdrGood_hopOut (ltx : Word) (forward : Bool) : hdrGood (e.hopOut p ltx forward h) = true := by
  unfold Die.hopOut
  split <;> exact hdrGood_hdrSeal _

/-- H0 to H5 leave a port as they are. -/
theorem Die.hdrFld_hopOut (ltx : Word) (forward : Bool) {b : Fin 15} (hb : b < 6) (lo w : Nat) :
    hdrFld (e.hopOut p ltx forward h) b lo w = hdrFld h b lo w := by
  have h6 : 6 ≠ b := ne_of_gt hb
  have h7 : 7 ≠ b := ne_of_gt (hb.trans (by decide))
  have h8 : 8 ≠ b := ne_of_gt (hb.trans (by decide))
  have h9 : 9 ≠ b := ne_of_gt (hb.trans (by decide))
  have h14 : 14 ≠ b := ne_of_gt (hb.trans (by decide))
  unfold Die.hopOut
  split
  · simp only [hdrFld_hdrSeal _ h14, hdrFld_hdrSet_block _ _ _ _ h6, hdrFld_hdrSet_block _ _ _ _ h7,
      hdrFld_hdrSet_block _ _ _ _ h8, hdrFld_hdrSet_block _ _ _ _ h9]
  · simp only [hdrFld_hdrSeal _ h14, apply_ite (fun x => hdrFld x b lo w), hdrFld_hdrSet_block _ _ _ _ h6,
      hdrFld_hdrSet_block _ _ _ _ h7, hdrFld_hdrSet_block _ _ _ _ h8, hdrFld_hdrSet_block _ _ _ _ h9, ite_self]

theorem Die.hopHeader_h0 (forward : Bool) (lo w : Nat) : hdrFld (e.hopHeader p h forward) 0 lo w = hdrFld h 0 lo w := by
  simp +decide only [Die.hopHeader, apply_ite (fun x => hdrFld x 0 lo w), hdrFld_hdrSet_block, ite_self]

theorem Die.hopHeader_hops : hdrFld (e.hopHeader p h true) 4 17 9 = (hdrFld h 4 17 9 + 1) % 2 ^ 9 := by
  simp +decide only [Die.hopHeader, if_true, hdrFld_hdrSet_block, hdrFld_hdrSet_self]

theorem Die.hopHeader_delay (forward : Bool) : hdrFld (e.hopHeader p h forward) 3 0 48 =
    (hdrFld h 3 0 48 + 64 * e.hopCycles p + e.fld (F.CHNX_CABLE_DELAY p.idx)) % 2 ^ 48 := by
  simp +decide only [Die.hopHeader, apply_ite (fun x => hdrFld x 3 0 48), hdrFld_hdrSet_block, hdrFld_hdrSet_self, ite_self]

theorem Die.alarms_lt : e.alarms < 2 ^ 16 := by
  have hb (b : Bool) : b2n b ≤ 1 := by cases b <;> decide
  have h0 := hb (e.wrapNear || e.wrapFar)
  have h1 := hb (e.bit (F.CHNX_STAT_FILLLOW 0) || e.bit (F.CHNX_STAT_FILLLOW 1))
  have h2 := hb (e.chn.electLeft != 0)
  have h3 := hb e.chn.dupPos
  have h4 := hb e.chn.plate
  have h5 := hb (e.gen1 .n && e.portState .n != St.off || e.gen1 .s && e.portState .s != St.off)
  have h6 := hb e.wrapFar
  dsimp only [Die.alarms]
  omega

theorem Die.hopHeader_alarms (forward : Bool) : hdrFld (e.hopHeader p h forward) 5 0 16 = hdrFld h 5 0 16 ||| e.alarms := by
  have hlt : hdrFld h 5 0 16 ||| e.alarms < 2 ^ 16 := Nat.or_lt_two_pow (bitsOf_lt ..) e.alarms_lt
  have h5 (x : Blocks) : hdrFld (if forward then hdrSet x 4 17 9 (hdrFld x 4 17 9 + 1) else x) 5 0 16 = hdrFld x 5 0 16 := by
    split
    · exact hdrFld_hdrSet_block _ _ _ _ (by decide) _ _
    · rfl
  rw [Die.hopHeader, hdrFld_hdrSet_self _ _ _ _ _ (by decide), h5, hdrFld_hdrSet_block _ _ _ _ (by decide), Nat.mod_eq_of_lt hlt]

variable (seed : Nat)

theorem Die.originHeader_seq : hdrFld (e.originHeader seed) 0 0 32 = e.seq := by
  have hlt : e.seq < 2 ^ 32 := BitVec.isLt _
  simp +decide only [Die.originHeader, hdrFld_hdrSet_block, hdrFld_hdrSet_self, Nat.mod_eq_of_lt hlt]

theorem Die.originHeader_delay (hs : seed < 2 ^ 48) : hdrFld (e.originHeader seed) 3 0 48 = seed := by
  simp +decide only [Die.originHeader, hdrFld_hdrSet_block, hdrFld_hdrSet_self, Nat.mod_eq_of_lt hs]

theorem Die.originHeader_position : hdrFld (e.originHeader seed) 4 0 9 = e.fld F.CHN_CTRL_POSID := by
  have hlt : e.fld F.CHN_CTRL_POSID < 2 ^ 9 := bitsOf_lt ..
  simp +decide only [Die.originHeader, hdrFld_hdrSet_block, hdrFld_hdrSet_apart, hdrFld_hdrSet_self, Nat.mod_eq_of_lt hlt]

theorem Die.originHeader_rank : hdrFld (e.originHeader seed) 4 9 8 = e.fld F.CHN_CTRL_MRANK := by
  have hlt : e.fld F.CHN_CTRL_MRANK < 2 ^ 8 := bitsOf_lt ..
  simp +decide only [Die.originHeader, hdrFld_hdrSet_block, hdrFld_hdrSet_self, Nat.mod_eq_of_lt hlt]

end

end

end Sys2Proof.Machine
end

