-- ==== Sys2Proof/Proofs/ChainAround.lean ====
section
/-! SUPPORT. What the steps of a start block leave alone: both ports, ENG, YARD and the wraps (R242 to R250, R269, R270). -/

namespace Sys2Proof.Machine

/-- A field fits its register and holds no wrap. -/
def Fld.spares (f : Fld) : Bool := f.apart F.CHN_STAT_WRAPNEAR && f.apart F.CHN_STAT_WRAPFAR

/-- A die's name, ENG, YARD and wraps. -/
def Die.aside (e : Die) := (e.id, e.eng, e.yard, e.wrapNear, e.wrapFar)

/-- Both ports too. -/
def Die.around (e : Die) := (e.chn.n, e.chn.s, e.aside)

section
variable (e : Die)

theorem Die.aside_iff {t e : Die} : t.aside = e.aside ↔
    t.id = e.id ∧ t.eng = e.eng ∧ t.yard = e.yard ∧ t.wrapNear = e.wrapNear ∧ t.wrapFar = e.wrapFar := by
  simp [Die.aside]

theorem Die.aside_of_around {t e : Die} (h : t.around = e.around) : t.aside = e.aside := congrArg (·.2.2) h

theorem Die.wrapFar_of_around {t e : Die} (h : t.around = e.around) : t.wrapFar = e.wrapFar := congrArg (·.2.2.2.2.2.2) h

theorem Die.wrapNear_of_around {t e : Die} (h : t.around = e.around) : t.wrapNear = e.wrapNear := congrArg (·.2.2.2.2.2.1) h

theorem Die.port_of_around {t e : Die} (h : t.around = e.around) (p : PortId) : t.port p = e.port p := by
  cases p
  · exact congrArg (·.1) h
  · exact congrArg (·.2.1) h

theorem Die.fwdOut_of_aside {t e : Die} (h : t.aside = e.aside) : t.fwdOut = e.fwdOut := by
  rw [Die.fwdOut, Die.fwdIn, (Die.aside_iff.1 h).1, Die.fwdOut, Die.fwdIn]

/-- What lies beyond a port. -/
def Die.beyond (e : Die) (p : PortId) := (e.port p.other, e.aside)

theorem Die.beyond_of_around {t e : Die} (h : t.around = e.around) (p : PortId) : t.beyond p = e.beyond p := by
  rw [Die.beyond, Die.port_of_around h, Die.aside_of_around h, Die.beyond]

@[simp] theorem Die.beyond_updPort (p : PortId) (f : Port → Port) : (e.updPort p f).beyond p = e.beyond p := by
  rw [Die.beyond, Die.port_updPort_other, Die.beyond]
  rfl

theorem Die.around_of_deep {t e : Die} (h : t.deep = e.deep) (hn : t.wrapNear = e.wrapNear) (hf : t.wrapFar = e.wrapFar) :
    t.around = e.around := by
  rw [Die.around, Die.aside, Die.of_deep Die.chn (fun _ => rfl) h, Die.of_deep Die.id (fun _ => rfl) h,
    Die.of_deep Die.eng (fun _ => rfl) h, Die.of_deep Die.yard (fun _ => rfl) h, hn, hf, Die.around, Die.aside]

theorem Die.around_of_reg {t e : Die} (h : t.deep = e.deep) (hr : t.reg R.CHN_STAT = e.reg R.CHN_STAT) : t.around = e.around :=
  Die.around_of_deep h (Die.bit_of_reg hr) (Die.bit_of_reg hr)

@[simp] theorem Die.aside_updPort (p : PortId) (f : Port → Port) : (e.updPort p f).aside = e.aside := rfl
@[simp] theorem Die.aside_updChn (f : Chain → Chain) : (e.updChn f).aside = e.aside := rfl
theorem Die.around_updPort_congr {t e : Die} (h : t.around = e.around) (p : PortId) (f : Port → Port) :
    (t.updPort p f).around = (e.updPort p f).around := by
  simp only [Die.around, Prod.mk.injEq] at h
  obtain ⟨hn, hs, ha⟩ := h
  cases p <;> simp [Die.around, Die.updPort, hn, hs, ha]

@[simp] theorem Die.around_updRef (f : Ref → Ref) : (e.updRef f).around = e.around := rfl
@[simp] theorem Die.around_updTim (f : Tim → Tim) : (e.updTim f).around = e.around := rfl

theorem Die.around_updChn (f : Chain → Chain) (hn : (f e.chn).n = e.chn.n) (hs : (f e.chn).s = e.chn.s) :
    (e.updChn f).around = e.around := by
  simp [Die.around, hn, hs]

theorem Die.around_setReg {a : Nat} (h : a ≠ R.CHN_STAT) (v : Word) : (e.setReg a v).around = e.around :=
  Die.around_of_reg (e.deep_setReg a v) (by rw [Die.reg_setReg, if_neg h])

theorem Die.around_logEv (code x y z : Nat) : (e.logEv 2 code x y z).around = e.around :=
  Die.around_of_reg (e.deep_logEv 2 code x y z) (e.reg_logEv (by decide) (by decide) code x y z)

section
variable {f : Fld} (h : f.spares = true)
include h

theorem Die.around_setFld (v : Nat) : (e.setFld f v).around = e.around := by
  obtain ⟨hn, hf⟩ := Bool.and_eq_true_iff.1 h
  exact Die.around_of_deep rfl (e.bit_setFld_apart hn v) (e.bit_setFld_apart hf v)

theorem Die.around_count (n : Nat) : (e.count f n).around = e.around := by
  obtain ⟨hn, hf⟩ := Bool.and_eq_true_iff.1 h
  exact Die.around_of_deep (e.deep_count f n) (e.bit_count_apart hn n) (e.bit_count_apart hf n)

theorem Die.around_raise (b : Bool) : (e.raise f b).around = e.around := by
  obtain ⟨hn, hf⟩ := Bool.and_eq_true_iff.1 h
  exact Die.around_of_deep (e.deep_raise f b) (e.bit_raise_apart hn b) (e.bit_raise_apart hf b)

end

theorem keptByRef_chnStat : keptByRef R.CHN_STAT := ⟨by decide, by decide⟩

@[simp] theorem Die.around_refSelect : e.refSelect.around = e.around :=
  Die.around_of_reg e.deep_refSelect (e.reg_refSelect keptByRef_chnStat)

variable (p : PortId) (h : Blocks)

@[simp] theorem Die.around_refDisqualify (cause : Nat) : (e.refDisqualify 3 cause).around = e.around := by
  simp +decide -implicitDefEqProofs only [Die.refDisqualify, apply_ite Die.around, Die.around_refSelect, Die.around_setFld,
    Die.around_updRef, ite_self]

@[simp] theorem Die.around_masterIs (pos rank : Nat) : (e.masterIs p pos rank).around = e.around := by
  cases p <;> simp +decide -implicitDefEqProofs only [Die.masterIs, apply_ite Die.around, Die.around_logEv, Die.around_setFld,
    ite_self]

@[simp] theorem Die.around_settleLost : (e.settleLost p).around = e.around := by
  cases p <;> simp +decide -implicitDefEqProofs only [Die.settleLost, apply_ite Die.around, Die.around_setFld, ite_self]

@[simp] theorem Die.around_wrapNote (formed : Bool) : (e.wrapNote p formed).around = e.around := by
  cases p <;> simp +decide -implicitDefEqProofs only [Die.wrapNote, Die.around_logEv, Die.around_setFld]

@[simp] theorem Die.around_startCounts (filler : Nat) (before : ContainerEnd) (fill : Nat) :
    (e.startCounts p filler before fill).around = e.around := by
  cases p <;> simp +decide -implicitDefEqProofs only [Die.startCounts, Die.around_count, Die.around_raise, Die.around_setFld]

@[simp] theorem Die.around_fwdHeard : e.fwdHeard.around = e.around := by
  simp +decide -implicitDefEqProofs only [Die.fwdHeard, apply_ite Die.around, Die.around_setFld, Die.around_updChn, ite_self]

@[simp] theorem Die.around_nearHear : (e.nearHear p).around = e.around := by
  simp +decide -implicitDefEqProofs only [Die.nearHear, apply_ite Die.around, Die.around_updChn, ite_self]

@[simp] theorem Die.around_chainSample : (e.chainSample p h).around = e.around := by
  simp +decide -implicitDefEqProofs only [Die.chainSample, apply_ite Die.around, Die.around_updTim, ite_self]

@[simp] theorem Die.around_rttMeasure (arrival : Word) : (e.rttMeasure p h arrival).around = e.around := by
  cases p <;> simp +decide -implicitDefEqProofs only [Die.rttMeasure, apply_ite Die.around, Die.around_setFld, ite_self]

@[simp] theorem Die.around_dupEnter : (e.dupEnter p).around = e.around := by
  cases p <;> simp +decide -implicitDefEqProofs only [Die.dupEnter, Die.around_setFld, Die.around_updChn]

@[simp] theorem Die.around_delaySeen : (e.delaySeen h).around = e.around := by
  unfold Die.delaySeen
  rw [Die.around_updChn _ _ rfl rfl]
  split <;> simp +decide -implicitDefEqProofs only [Die.setRegN, Die.around_setReg]

@[simp] theorem Die.around_seqCheck (seq : Nat) : (e.seqCheck p seq).around = e.around := by
  cases p <;> simp +decide -implicitDefEqProofs only [Die.seqCheck, apply_ite Die.around, Die.around_setFld, Die.around_updChn,
    ite_self]

@[simp] theorem Die.around_masterTakes : (e.masterTakes p h).around = e.around := by
  simp +decide -implicitDefEqProofs only [Die.masterTakes, apply_ite Die.around, Die.around_refSelect, Die.around_masterIs,
    Die.around_setFld, Die.around_updChn, ite_self]

@[simp] theorem Die.around_forwardTakes (toFt : Nat) : (e.forwardTakes p h toFt).around = e.around := by
  cases p <;> simp +decide -implicitDefEqProofs only [Die.forwardTakes, apply_ite Die.around, Die.around_seqCheck,
    Die.around_delaySeen, Die.around_refDisqualify, Die.around_dupEnter, Die.around_masterIs, Die.around_setFld, ite_self]

@[simp] theorem Die.around_startEng (fwd : Bool) (toFt : Nat) : (e.startEng p fwd h toFt).around = e.around := by
  simp +decide -implicitDefEqProofs only [Die.startEng, apply_ite Die.around, Die.around_masterTakes, Die.around_forwardTakes,
    Die.around_updChn, Die.around_setFld, ite_self]

@[simp] theorem Die.around_startCross (fwd : Bool) (toFt : Nat) : (e.startCross p fwd h toFt).around = e.around := by
  simp +decide -implicitDefEqProofs only [Die.startCross, apply_ite Die.around, Die.around_startEng, Die.around_updChn,
    Die.around_setFld, ite_self]

end

end Sys2Proof.Machine
end

