-- ==== Sys2Proof/Proofs/StartBlocks.lean ====
section
/-! PROOF. O30: a start block in its stages, and a container that is forwarded (R242, R248, R249, R269, R270). -/

namespace Sys2Proof.Machine

section
variable (e : Die) (p : PortId)

/-! ### The stages of a start block -/

/-- The wraps as the start block finds them, and the end of a silence. -/
def Die.startFinds (e : Die) (p : PortId) : Die :=
  let e := e.wrapTake p
  if (e.port p).silent then (e.updPort p fun x => { x with silent := false }).settleLost p else e

/-- The header is kept, and the end of the container before is counted. -/
def Die.startKeeps (e : Die) (p : PortId) (sb : Byte) (h : Blocks) (arrival : Word) (filler : Nat) (before : ContainerEnd)
    (fill : Nat) : Die :=
  (e.startCounts p filler before fill).updPort p fun x => { x with
    hdr := some h
    hdrGood := hdrGood h
    startIn := sb
    arrival := arrival }

/-- The forward input is heard, or the stream is repeated. -/
def Die.startPasses (e : Die) (p : PortId) (ret fwd : Bool) : Die :=
  let e := if fwd then e.fwdHeard else e
  if !ret && p == e.fwdOut && !e.wrapFar && !e.wrapNear then e.repeatOut else e

/-- What the header's check makes of the start block. -/
def Die.startEnds (e : Die) (p : PortId) (ret fwd : Bool) (h : Blocks) (arrival : Word) (toFt : Nat) : Die :=
  if !hdrGood h then
    (e.count (F.CHNX_ERR_HCRC p.idx) 1).updPort p fun x => { x with
      good := 0
      goodReturn := 0 }
  else
    let cur := hdrFld h 4 0 9 = e.fld F.CHN_STAT_MPOS
    let e := e.updPort p fun x => { x with
      good := if !ret && cur then x.good + 1 else 0
      goodReturn := if ret then x.goodReturn + 1 else 0 }
    let e := (e.hopLocal p h arrival).nearHear p
    let e := if fwd && !e.isMaster then e.chainSample p h else e
    e.startCross p fwd h toFt

variable (sb : Byte) (h : Blocks) (arrival : Word) (toFt filler : Nat) (before : ContainerEnd) (fill : Nat)

theorem Die.startBlock_off (hp : e.portState p = St.off) : e.startBlock p sb h arrival toFt filler before fill = e := if_pos hp

theorem Die.startBlock_stages (hp : e.portState p ≠ St.off) : ∃ fwd : Bool,
    e.startBlock p sb h arrival toFt filler before fill =
      (((e.startFinds p).startKeeps p sb h arrival filler before fill).startPasses p (startReturn sb) fwd).startEnds p
        (startReturn sb) fwd h arrival toFt :=
  ⟨p == (e.wrapTake p).fwdFrom && !startReturn sb, if_neg hp⟩

/-! ### The wraps -/

theorem Die.deep_farSwitch : e.farSwitch.deep = e.deep := by
  simp -implicitDefEqProofs only [Die.farSwitch, apply_ite Die.deep, Die.deep_wrapNote, Die.deep_settleLost, Die.deep_setFld,
    ite_self]

/-- A far wrap frees no block of the loads that come on forward out, and touches no other part of the die than its registers. -/
theorem Die.deep_farWrap : ∃ fr, e.farWrap.deep = (e.updPort e.fwdOut fun x => { x with freed := fr }).deep := by
  unfold Die.farWrap
  split
  · exact ⟨_, Die.deep_wrapNote ..⟩
  · exact ⟨(e.port e.fwdOut).freed, by cases e.fwdOut <;> rfl⟩

theorem Die.farSwitch_wrapFar (hf : e.wrapFar = true) : e.farSwitch.wrapFar = decide ((e.port e.fwdIn).good < 256) := by
  rw [Die.farSwitch, hf, Bool.true_and]
  by_cases hg : 256 ≤ (e.port e.fwdIn).good
  · rw [if_pos (decide_eq_true hg), Die.wrapFar_of_around (Die.around_wrapNote ..), Die.wrapFar_of_around (Die.around_settleLost ..),
      decide_eq_false (by omega)]
    exact e.bit_setFld_self (Fld.fits_of rfl) 0
  · rw [if_neg (by simpa using hg), hf, decide_eq_true (by omega)]

theorem Die.farWrap_wrapFar (hf : e.wrapFar = false) : e.farWrap.wrapFar = e.mayWrap e.fwdIn := by
  rw [Die.farWrap, hf]
  cases hm : e.mayWrap e.fwdIn
  · exact hf
  · refine (Die.wrapFar_of_around (Die.around_wrapNote ..)).trans ?_
    exact e.bit_setFld_self (Fld.fits_of rfl) 1

/-- The wraps, as a start block finds them, move a port only in the blocks freed there. -/
theorem Die.deep_wrapTake : ∃ fr, (e.wrapTake p).deep = (e.updPort p fun x => { x with freed := fr }).deep := by
  unfold Die.wrapTake
  split
  · exact ⟨(e.port p).freed, e.deep_farSwitch.trans (by cases p <;> rfl)⟩
  next hp =>
    rw [PortId.eq_other_of_ne hp]
    exact e.deep_farWrap

theorem Die.startFinds_port : ∃ fr, (e.startFinds p).port p = { e.port p with
    freed := fr
    silent := false } := by
  obtain ⟨fr, hd⟩ := e.deep_wrapTake p
  have hp : (e.wrapTake p).port p = { e.port p with freed := fr } :=
    (Die.of_deep (fun x : Die => x.port p) (fun _ => rfl) hd).trans (Die.port_updPort_self ..)
  refine ⟨fr, ?_⟩
  rw [Die.startFinds]
  split
  · rw [Die.port_of_around (Die.around_settleLost ..), Die.port_updPort_self, hp]
  next hs => rw [hp, ← Bool.eq_false_of_not_eq_true hs, hp]

theorem Die.startFinds_beyond : (e.startFinds p).beyond p = (e.wrapTake p).beyond p := by
  rw [Die.startFinds]
  split
  · rw [Die.beyond_of_around (Die.around_settleLost ..), Die.beyond_updPort]
  · rfl

theorem Die.wrapTake_port_other : (e.wrapTake p).port p.other = e.port p.other := by
  obtain ⟨fr, hd⟩ := e.deep_wrapTake p
  exact (Die.of_deep (fun x : Die => x.port p.other) (fun _ => rfl) hd).trans (Die.port_updPort_other ..)

theorem Die.wrapTake_fwdOut : (e.wrapTake p).fwdOut = e.fwdOut := by
  obtain ⟨fr, hd⟩ := e.deep_wrapTake p
  exact (Die.of_deep Die.fwdOut (fun _ => rfl) hd).trans rfl

/-! ### The header kept, and the stream repeated -/

section
variable (sb : Byte) (h : Blocks) (arrival : Word) (toFt filler : Nat) (before : ContainerEnd) (fill : Nat)

theorem Die.startKeeps_port : (e.startKeeps p sb h arrival filler before fill).port p = { e.port p with
    hdr := some h
    hdrGood := hdrGood h
    startIn := sb
    arrival := arrival } := by
  rw [Die.startKeeps, Die.port_updPort_self, Die.port_of_around (Die.around_startCounts ..)]

theorem Die.startKeeps_beyond : (e.startKeeps p sb h arrival filler before fill).beyond p = e.beyond p := by
  rw [Die.startKeeps, Die.beyond_updPort, Die.beyond_of_around (Die.around_startCounts ..)]

/-- A stream that is repeated leaves on reverse out, which is otherwise as it was. -/
theorem Die.repeatOut_leaves : ∃ (o : Option Blocks) (b : Byte) (t : Die), t.around = e.around ∧
    e.repeatOut = t.updPort e.fwdIn fun x => { x with
      out := o
      startOut := b } := by
  have hr : (e.updChn fun c => { c with repeating := true }).around = e.around := e.around_updChn _ rfl rfl
  have hsame (q : PortId) : (e.updChn fun c => { c with repeating := true }) =
      (e.updChn fun c => { c with repeating := true }).updPort q fun x => { x with
        out := (e.port q).out
        startOut := (e.port q).startOut } := by cases q <;> rfl
  unfold Die.repeatOut
  dsimp only
  split
  · exact ⟨_, _, _, hr, hsame _⟩
  · split
    · exact ⟨_, _, _, hr, hsame _⟩
    · exact ⟨_, _, _, hr, rfl⟩

/-- What the forward input hears moves no port; a stream without RETURN on reverse in may be repeated on the other port. -/
theorem Die.startPasses_leaves (ret fwd : Bool) : ∃ t : Die, t.around = e.around ∧
    (e.startPasses p ret fwd = t ∨ ret = false ∧ p = e.fwdOut ∧ ∃ (o : Option Blocks) (b : Byte),
      e.startPasses p ret fwd = t.updPort p.other fun x => { x with
        out := o
        startOut := b }) := by
  have hh : (if fwd then e.fwdHeard else e).around = e.around := by
    split
    · exact e.around_fwdHeard
    · rfl
  rw [Die.startPasses]
  generalize (if fwd then e.fwdHeard else e) = u at hh ⊢
  have ho : u.fwdOut = e.fwdOut := Die.fwdOut_of_aside (Die.aside_of_around hh)
  split
  next hc =>
    simp only [Bool.and_eq_true, Bool.not_eq_true', beq_iff_eq] at hc
    obtain ⟨⟨⟨hr, hp⟩, -⟩, -⟩ := hc
    obtain ⟨o, b, t, ht, hu⟩ := u.repeatOut_leaves
    refine ⟨t, ht.trans hh, .inr ⟨hr, hp.trans ho, o, b, ?_⟩⟩
    rw [hu, u.fwdIn_eq, hp]
  next => exact ⟨u, hh, .inl rfl⟩

theorem Die.startPasses_port (ret fwd : Bool) : (e.startPasses p ret fwd).port p = e.port p := by
  obtain ⟨t, ht, h | ⟨-, -, o, b, h⟩⟩ := e.startPasses_leaves p ret fwd
  · rw [h, Die.port_of_around ht]
  · rw [h, Die.port_updPort_of_other, Die.port_of_around ht]

theorem Die.startPasses_aside (ret fwd : Bool) : (e.startPasses p ret fwd).aside = e.aside := by
  obtain ⟨t, ht, h | ⟨-, -, o, b, h⟩⟩ := e.startPasses_leaves p ret fwd
  · rw [h, Die.aside_of_around ht]
  · rw [h, Die.aside_updPort, Die.aside_of_around ht]

theorem Die.startPasses_port_other (ret fwd : Bool) : ∃ (o : Option Blocks) (b : Byte),
    (e.startPasses p ret fwd).port p.other = { e.port p.other with
      out := o
      startOut := b } := by
  obtain ⟨t, ht, h | ⟨-, -, o, b, h⟩⟩ := e.startPasses_leaves p ret fwd
  · exact ⟨(e.port p.other).out, (e.port p.other).startOut, by rw [h, Die.port_of_around ht]⟩
  · exact ⟨o, b, by rw [h, Die.port_updPort_self, Die.port_of_around ht]⟩

theorem Die.startPasses_port_other_same {ret : Bool} (fwd : Bool) (hr : ret = true ∨ p ≠ e.fwdOut) :
    (e.startPasses p ret fwd).port p.other = e.port p.other := by
  obtain ⟨t, ht, h | ⟨h0, hp, -⟩⟩ := e.startPasses_leaves p ret fwd
  · rw [h, Die.port_of_around ht]
  · exact absurd hr (by simp [h0, hp])

/-! ### The end of a start block -/

/-- A good header leaves at most its STAMP at its port. -/
theorem Die.hopLocal_around : ∃ st sa, (e.hopLocal p h arrival).around = (e.updPort p fun x => { x with
    stampAt := sa
    stamp := st }).around := by
  have ht : (F.CHNX_STAT_TAKEN p.idx).spares = true := by cases p <;> decide
  rw [Die.hopLocal]
  split
  · exact ⟨(e.port p).stamp, (e.port p).stampAt, (e.around_setFld ht 0).trans (by cases p <;> rfl)⟩
  · exact ⟨_, _, (Die.around_setFld _ ht _).trans (Die.around_updPort_congr (e.around_rttMeasure p h arrival) p _)⟩

theorem Die.startEnds_leaves (ret fwd : Bool) : ∃ g gr st sa, (e.startEnds p ret fwd h arrival toFt).around =
    (e.updPort p fun x => { x with
      good := g
      goodReturn := gr
      stamp := st
      stampAt := sa }).around ∧
    (hdrGood h = false → g = 0 ∧ gr = 0) ∧
    (hdrGood h = true → ret = true → g = 0 ∧ gr = (e.port p).goodReturn + 1) := by
  rw [Die.startEnds]
  split
  next hg =>
    have hc : (F.CHNX_ERR_HCRC p.idx).spares = true := by cases p <;> decide
    refine ⟨0, 0, (e.port p).stamp, (e.port p).stampAt, (Die.around_updPort_congr (e.around_count hc 1) p _).trans ?_,
      fun _ => ⟨rfl, rfl⟩, fun h1 => absurd h1 (by simpa using hg)⟩
    cases p <;> rfl
  next hg =>
    obtain ⟨st, sa, hl⟩ := Die.hopLocal_around (e.updPort p fun x => { x with
      good := if !ret && hdrFld h 4 0 9 = e.fld F.CHN_STAT_MPOS then x.good + 1 else 0
      goodReturn := if ret then x.goodReturn + 1 else 0 }) p h arrival
    refine ⟨if !ret && hdrFld h 4 0 9 = e.fld F.CHN_STAT_MPOS then (e.port p).good + 1 else 0,
      if ret then (e.port p).goodReturn + 1 else 0, st, sa, (Die.around_startCross ..).trans ?_,
      fun h0 => absurd h0 (by simpa using hg), fun _ hr => by simp [hr]⟩
    rw [apply_ite Die.around, Die.around_chainSample, ite_self, Die.around_nearHear]
    exact hl.trans (by cases p <;> rfl)

/-! ### The start block as a whole -/

/-- In a port that is not OFF a start block is kept, with the counts that its check leaves. -/
theorem Die.startBlock_port (hp : e.portState p ≠ St.off) : ∃ fr g gr st sa,
    (e.startBlock p sb h arrival toFt filler before fill).port p = { e.port p with
      silent := false
      hdr := some h
      hdrGood := hdrGood h
      startIn := sb
      arrival := arrival
      stampAt := sa
      stamp := st
      good := g
      goodReturn := gr
      freed := fr } ∧
    (hdrGood h = false → g = 0 ∧ gr = 0) ∧
    (hdrGood h = true → startReturn sb = true → g = 0 ∧ gr = (e.port p).goodReturn + 1) := by
  obtain ⟨fwd, hs⟩ := e.startBlock_stages p sb h arrival toFt filler before fill hp
  obtain ⟨fr, hfinds⟩ := e.startFinds_port p
  obtain ⟨g, gr, st, sa, hends, hbad, hret⟩ := Die.startEnds_leaves
    (((e.startFinds p).startKeeps p sb h arrival filler before fill).startPasses p (startReturn sb) fwd) p h arrival toFt
    (startReturn sb) fwd
  rw [Die.startPasses_port, Die.startKeeps_port, hfinds] at hret
  refine ⟨fr, g, gr, st, sa, ?_, hbad, hret⟩
  rw [hs, Die.port_of_around hends, Die.port_updPort_self, Die.startPasses_port, Die.startKeeps_port, hfinds]

/-- Beyond its port a start block leaves what the repeated stream leaves. -/
theorem Die.startBlock_beyond (hp : e.portState p ≠ St.off) : ∃ (fwd : Bool) (t : Die),
    t.beyond p = (e.wrapTake p).beyond p ∧
    (e.startBlock p sb h arrival toFt filler before fill).beyond p = (t.startPasses p (startReturn sb) fwd).beyond p := by
  obtain ⟨fwd, hs⟩ := e.startBlock_stages p sb h arrival toFt filler before fill hp
  refine ⟨fwd, (e.startFinds p).startKeeps p sb h arrival filler before fill, ?_, ?_⟩
  · rw [Die.startKeeps_beyond, Die.startFinds_beyond]
  · obtain ⟨g, gr, st, sa, hends, -, -⟩ := Die.startEnds_leaves
      (((e.startFinds p).startKeeps p sb h arrival filler before fill).startPasses p (startReturn sb) fwd) p h arrival toFt
      (startReturn sb) fwd
    rw [hs, Die.beyond_of_around hends, Die.beyond_updPort]

/-- Beyond its port a start block leaves the die as the wraps find it. -/
theorem Die.startBlock_aside (hp : e.portState p ≠ St.off) :
    (e.startBlock p sb h arrival toFt filler before fill).aside = (e.wrapTake p).aside := by
  obtain ⟨fwd, t, ht, hs⟩ := e.startBlock_beyond p sb h arrival toFt filler before fill hp
  calc _ = (t.startPasses p (startReturn sb) fwd).aside := congrArg Prod.snd hs
    _ = t.aside := t.startPasses_aside p _ _
    _ = _ := congrArg Prod.snd ht

theorem Die.startBlock_port_other (hp : e.portState p ≠ St.off) : ∃ (o : Option Blocks) (b : Byte),
    (e.startBlock p sb h arrival toFt filler before fill).port p.other = { e.port p.other with
      out := o
      startOut := b } := by
  obtain ⟨fwd, t, ht, hs⟩ := e.startBlock_beyond p sb h arrival toFt filler before fill hp
  obtain ⟨o, b, hob⟩ := t.startPasses_port_other p (startReturn sb) fwd
  have hto : t.port p.other = e.port p.other := (congrArg Prod.fst ht).trans (e.wrapTake_port_other p)
  exact ⟨o, b, (congrArg Prod.fst hs).trans (hob.trans (by rw [hto]))⟩

theorem Die.startBlock_port_other_same (hp : e.portState p ≠ St.off) (hr : startReturn sb = true ∨ p ≠ e.fwdOut) :
    (e.startBlock p sb h arrival toFt filler before fill).port p.other = e.port p.other := by
  obtain ⟨fwd, t, ht, hs⟩ := e.startBlock_beyond p sb h arrival toFt filler before fill hp
  have hto : t.port p.other = e.port p.other := (congrArg Prod.fst ht).trans (e.wrapTake_port_other p)
  have hout : t.fwdOut = e.fwdOut := (Die.fwdOut_of_aside (congrArg Prod.snd ht)).trans (e.wrapTake_fwdOut p)
  exact (congrArg Prod.fst hs).trans ((t.startPasses_port_other_same p fwd (hout ▸ hr)).trans hto)

theorem Die.startBlock_eng_yard (hp : e.portState p ≠ St.off) :
    (e.startBlock p sb h arrival toFt filler before fill).eng = e.eng ∧
    (e.startBlock p sb h arrival toFt filler before fill).yard = e.yard := by
  obtain ⟨-, heng, hyard, -, -⟩ := Die.aside_iff.1 (e.startBlock_aside p sb h arrival toFt filler before fill hp)
  obtain ⟨fr, hd⟩ := e.deep_wrapTake p
  exact ⟨heng.trans ((Die.of_deep Die.eng (fun _ => rfl) hd).trans rfl),
    hyard.trans ((Die.of_deep Die.yard (fun _ => rfl) hd).trans rfl)⟩

/-- The far wrap after a start block is as the start block finds it. -/
theorem Die.startBlock_wrapFar (hp : e.portState p ≠ St.off) :
    (e.startBlock p sb h arrival toFt filler before fill).wrapFar = (e.wrapTake p).wrapFar := by
  obtain ⟨-, -, -, -, hfar⟩ := Die.aside_iff.1 (e.startBlock_aside p sb h arrival toFt filler before fill hp)
  exact hfar

end

end

end Sys2Proof.Machine
end

