-- ==== Sys2Proof/Proofs/ContainersLeave.lean ====
section
/-! PROOF. O30: the wraps as a container that leaves finds them, and the start block with which it leaves (R241, R243, R248,
R249, R270 to R272). -/

namespace Sys2Proof.Machine

section
variable (e : Die) (p : PortId)

/-! ### What the wraps move -/

theorem Die.zeroSent_eq : e.zeroSent p = (((e.setReg (R.CHNX_LANE p.idx 0) 0).setReg (R.CHNX_LANE p.idx 1) 0).setReg
    (R.CHNX_LANE p.idx 2) 0).setReg (R.CHNX_LANE p.idx 3) 0 := rfl

@[simp] theorem Die.deep_zeroSent : (e.zeroSent p).deep = e.deep := by
  rw [Die.zeroSent_eq]
  simp only [Die.deep_setReg]

theorem Die.deep_updChn_congr {t e : Die} (h : t.deep = e.deep) (f : Chain → Chain) : (t.updChn f).deep = (e.updChn f).deep :=
  congrArg (fun x : Die => x.updChn f) h

/-- The near wrap point that stops, as the rest of the die sees it. -/
theorem Die.deep_nearStop : e.nearStop.deep = (if e.wrapNear && e.chn.stopNext then e.updChn fun c => { c with
    healing := false
    stopNext := false } else e).deep := by
  rw [Die.nearStop]
  split
  · rw [Die.deep_wrapNote]
    exact Die.deep_updChn_congr ((Die.deep_settleLost ..).trans (e.deep_setFld ..)) _
  · rfl

/-- A near wrap that forms, as the rest of the die sees it. -/
theorem Die.deep_nearWrap : e.nearWrap.deep = (if e.mayWrap e.fwdOut && !e.wrapNear then e.updChn fun c => { c with
    healing := false
    stopNext := false
    repeating := false } else e).deep := by
  rw [Die.nearWrap]
  split
  · rw [Die.deep_wrapNote]
    exact Die.deep_updChn_congr ((Die.deep_zeroSent ..).trans (e.deep_setFld ..)) _
  · rfl

/-- A view that no note of a wrap moves is the same on the die that the next container finds. -/
theorem Die.of_wrapSend {α : Type} (g : Die → α) (hg : ∀ x, g x.deep = g x)
    (hs : ∀ (x : Die) (f : Chain → Chain), (∀ c, (f c).held = c.held) → g (x.updChn f) = g x) : g e.wrapSend = g e := by
  have hif (b : Bool) (x : Die) (f : Chain → Chain) (hf : ∀ c, (f c).held = c.held) : g (if b then x.updChn f else x) = g x := by
    cases b
    · rfl
    · exact hs x f hf
  have hstop : g e.nearStop = g e := (Die.of_deep g hg e.deep_nearStop).trans (hif _ _ _ fun _ => rfl)
  exact ((Die.of_deep g hg (Die.deep_nearWrap _)).trans (hif _ _ _ fun _ => rfl)).trans hstop

theorem Die.wrapSend_eng : e.wrapSend.eng = e.eng := e.of_wrapSend Die.eng (fun _ => rfl) fun _ _ _ => rfl
theorem Die.wrapSend_held : e.wrapSend.chn.held = e.chn.held := e.of_wrapSend (·.chn.held) (fun _ => rfl) fun x _ h => h x.chn

/-! ### Registers that the wraps of a container that leaves write -/

/-- The registers that a near wrap and its end move (R270 to R272). -/
def wrapMoved : List Nat := [R.CHN_STAT, R.CHNX_STAT 0, R.CHNX_STAT 1, R.CHNX_IRQ 0, R.CHNX_IRQ 1] ++
  ((List.range 4).map (R.CHNX_LANE 0) ++ (List.range 4).map (R.CHNX_LANE 1))

section
variable {a : Nat} (hl : a / 0x1000 ≠ R.LOG_CTRL / 0x1000) (ha : a ∉ wrapMoved)
include ha

theorem Die.reg_settleLost : (e.settleLost p).reg a = e.reg a := by
  cases p <;> simp +decide -implicitDefEqProofs only [Die.settleLost, apply_ite (fun x : Die => x.reg a),
    Die.reg_setFld_notMem _ ha, ite_self]

theorem Die.reg_zeroSent : (e.zeroSent p).reg a = e.reg a := by
  cases p <;> simp +decide -implicitDefEqProofs only [Die.zeroSent_eq, Die.reg_setReg_notMem _ ha]

include hl

theorem Die.reg_wrapNote (formed : Bool) : (e.wrapNote p formed).reg a = e.reg a := by
  rw [Die.wrapNote, Die.reg_logEv _ hl (by decide)]
  cases p <;> exact e.reg_setFld_notMem ha (by decide) 1

theorem Die.reg_nearStop : e.nearStop.reg a = e.reg a := by
  rw [Die.nearStop]
  split
  · rw [Die.reg_wrapNote _ _ hl ha, Die.updChn_reg, Die.reg_settleLost _ _ ha, Die.reg_setFld_notMem _ ha (by decide)]
  · rfl

theorem Die.reg_nearWrap : e.nearWrap.reg a = e.reg a := by
  rw [Die.nearWrap]
  split
  · rw [Die.reg_wrapNote _ _ hl ha, Die.updChn_reg, Die.reg_zeroSent _ _ ha, Die.reg_setFld_notMem _ ha (by decide)]
  · rfl

theorem Die.reg_wrapSend : e.wrapSend.reg a = e.reg a := (Die.reg_nearWrap _ hl ha).trans (e.reg_nearStop hl ha)

end

/-! ### The header that leaves (R243, R249) -/

/-- A header leaves with a good check: as it came, or with H0 to H5 as they are where it is formed anew. -/
def Blocks.LeavesAs (h : Blocks) (fresh : Bool) (o : Blocks) : Prop :=
  hdrGood o = true ∧ (fresh = false → o = hdrSeal h) ∧
    (fresh = true → ∀ b : Fin 15, b < 6 → ∀ lo w : Nat, hdrFld o b lo w = hdrFld h b lo w)

/-- A die without its chain. -/
def Die.unchained (e : Die) : Die := { e with chn := Chain.reset }

theorem Die.of_unchained {α : Type} (g : Die → α) (hg : ∀ x, g x.unchained = g x) {t e : Die} (h : t.unchained = e.unchained) :
    g t = g e := by
  rw [← hg t, h, hg]

@[simp] theorem Die.unchained_updChn (f : Chain → Chain) : (e.updChn f).unchained = e.unchained := rfl
@[simp] theorem Die.unchained_updPort (f : Port → Port) : (e.updPort p f).unchained = e.unchained := rfl

/-- What a container that starts leaves of the chain. -/
def Chain.kept (c : Chain) := (c.held, c.healing)

theorem Die.updPort_kept (f : Port → Port) : (e.updPort p f).chn.kept = e.chn.kept := by cases p <;> rfl

@[simp] theorem Die.unchained_dropSending : e.dropSending.unchained = e.unchained := by
  unfold Die.dropSending
  split
  · rfl
  · split <;> rfl

theorem Die.dropSending_kept : e.dropSending.chn.kept = e.chn.kept := by
  unfold Die.dropSending
  split
  · rfl
  · split
    · rfl
    · exact Die.updPort_kept ..

section
variable (h : Blocks) (ltx : Word) (fresh : Bool)

theorem Die.sendReturn_setOut : ∃ b o, e.sendReturn p h ltx = e.setOut p b o := ⟨_, _, rfl⟩

/-- A stream that leaves is the container that its port sends. -/
theorem Die.sendForward_setOut : ∃ b o, e.sendForward p h ltx fresh = e.setOut p b o := by
  unfold Die.sendForward
  split
  · exact ⟨_, _, rfl⟩
  · exact ⟨_, _, rfl⟩

/-- A port that is ON carries the forward stream. -/
theorem Die.sendForward_out (hc : e.carries p = true) : ∃ o, ((e.sendForward p h ltx fresh).port p).out = some o ∧
    ((e.sendForward p h ltx fresh).port p).startOut = e.startByte p false ∧ h.LeavesAs fresh o := by
  have hs : e.sends p = true := Bool.or_eq_true_iff.2 (.inr hc)
  rw [Die.sendForward, if_pos hc, Die.setOut, Die.port_updPort_self, hs]
  refine ⟨_, rfl, rfl, ?_⟩
  cases fresh
  · exact ⟨hdrGood_hdrSeal h, fun _ => rfl, fun hf => absurd hf (by decide)⟩
  · exact ⟨e.hdrGood_hopOut .., fun hf => absurd hf (by decide), fun _ _ hb _ _ => Die.hdrFld_hopOut _ _ _ _ _ hb _ _⟩

/-- The chain as a container starts. -/
def Die.launching (e : Die) (ltx : Word) : Die := e.dropSending.updChn fun c => { c with
  pallets := []
  errors := []
  launched := ltx
  wrapBlocks := 0
  grace := false
  lastBlock := none }

theorem Die.unchained_launching : (e.launching ltx).unchained = e.unchained := e.unchained_dropSending

/-- The streams with which a container starts. -/
def Die.starts (e : Die) (h : Blocks) (ltx : Word) (fresh : Bool) : Die :=
  if e.wrapNear then
    let e := e.sendForward e.fwdIn h ltx fresh
    if e.chn.healing then e.sendForward e.fwdOut h ltx fresh else e.updPort e.fwdOut fun x => { x with out := none }
  else (e.sendForward e.fwdOut h ltx fresh).reverseOut h ltx

theorem Die.launch_eq : e.launch h ltx fresh = (e.launching ltx).starts h ltx fresh := rfl

/-- A container starts on the port of the forward stream; the other port sends a stream, or none. -/
theorem Die.starts_eq : ∃ f, e.starts h ltx fresh = (e.sendForward e.fwdTo h ltx fresh).updPort e.fwdTo.other f := by
  cases hn : e.wrapNear
  · obtain ⟨b, o, hb⟩ := e.sendForward_setOut e.fwdOut h ltx fresh
    have ht : e.fwdTo = e.fwdOut := by rw [Die.fwdTo, hn]; rfl
    rw [Die.starts, hn, ht, hb, if_neg Bool.false_ne_true, Die.reverseOut, ← e.fwdIn_eq]
    split
    · exact ⟨fun x => x, by cases e.fwdIn <;> rfl⟩
    · obtain ⟨b', o', hb'⟩ := (e.setOut e.fwdOut b o).sendReturn_setOut e.fwdIn h ltx
      exact ⟨_, hb'⟩
  · obtain ⟨b, o, hb⟩ := e.sendForward_setOut e.fwdIn h ltx fresh
    have ht : e.fwdTo = e.fwdIn := by rw [Die.fwdTo, hn]; rfl
    obtain ⟨b', o', hb'⟩ := (e.setOut e.fwdIn b o).sendForward_setOut e.fwdOut h ltx fresh
    rw [Die.starts, hn, ht, hb, if_pos rfl]
    dsimp only
    split
    · exact ⟨_, hb'⟩
    · exact ⟨_, rfl⟩

/-- A container that starts changes the chain alone. -/
theorem Die.unchained_launch : (e.launch h ltx fresh).unchained = e.unchained := by
  rw [Die.launch_eq]
  obtain ⟨f, hf⟩ := (e.launching ltx).starts_eq h ltx fresh
  obtain ⟨b, o, hb⟩ := (e.launching ltx).sendForward_setOut (e.launching ltx).fwdTo h ltx fresh
  rw [hf, hb, Die.unchained_updPort]
  exact e.unchained_launching ltx

theorem Die.launch_kept : (e.launch h ltx fresh).chn.kept = e.chn.kept := by
  rw [Die.launch_eq]
  obtain ⟨f, hf⟩ := (e.launching ltx).starts_eq h ltx fresh
  obtain ⟨b, o, hb⟩ := (e.launching ltx).sendForward_setOut (e.launching ltx).fwdTo h ltx fresh
  rw [hf, hb, Die.updPort_kept, Die.setOut, Die.updPort_kept]
  exact e.dropSending_kept

/-- A container starts on the port through which the forward stream leaves. -/
theorem Die.launch_out (hc : e.carries e.fwdTo = true) : ∃ o, ((e.launch h ltx fresh).port e.fwdTo).out = some o ∧
    ((e.launch h ltx fresh).port e.fwdTo).startOut = e.startByte e.fwdTo false ∧ h.LeavesAs fresh o := by
  have hu := e.unchained_launching ltx
  have hto : (e.launching ltx).fwdTo = e.fwdTo := Die.of_unchained Die.fwdTo (fun _ => rfl) hu
  have hb : (e.launching ltx).startByte e.fwdTo false = e.startByte e.fwdTo false :=
    Die.of_unchained (·.startByte e.fwdTo false) (fun _ => rfl) hu
  have hcarries : (e.launching ltx).carries e.fwdTo = true := (Die.of_unchained (·.carries e.fwdTo) (fun _ => rfl) hu).trans hc
  obtain ⟨f, hf⟩ := (e.launching ltx).starts_eq h ltx fresh
  obtain ⟨o, ho, hs, hl⟩ := (e.launching ltx).sendForward_out e.fwdTo h ltx fresh hcarries
  rw [Die.launch_eq, hf, hto, Die.port_updPort_of_other]
  exact ⟨o, ho, hs.trans hb, hl⟩

end

/-! ### CONTAINER_FORWARD -/

/-- The die sends the container of the start block it has. -/
def Die.Forwards (e : Die) (h : Blocks) : Prop :=
  (e.port e.fwdFrom).hdr = some h ∧ e.isMaster = false ∧ startReturn (e.port e.fwdFrom).startIn = false ∧
    e.ownGoesOn ((e.port e.fwdFrom).arrival + BitVec.ofNat 32 (e.hopCycles e.fwdFrom)) = false

/-- The die as its forwarded container leaves. -/
def Die.forwarding (e : Die) : Die := e.wrapSend.updChn fun c => { c with originating := false }

/-- The header with which a forwarded container leaves. -/
def Die.forwardHeader (e : Die) (h : Blocks) : Blocks :=
  if (e.port e.fwdFrom).hdrGood then e.forwarding.hopHeader e.fwdFrom h true else h

theorem Die.containerForward_eq {h : Blocks} (hf : e.Forwards h) (bad : List (BitVec 13)) : ∃ ltx, e.containerForward bad =
    (e.forwarding.launch (e.forwardHeader h) ltx (e.port e.fwdFrom).hdrGood).updChn fun c => { c with errors := bad } := by
  obtain ⟨hh, hm, hr, ho⟩ := hf
  refine ⟨(e.port e.fwdFrom).arrival + BitVec.ofNat 32 (e.hopCycles e.fwdFrom), ?_⟩
  rw [Die.containerForward]
  dsimp only
  rw [hh]
  dsimp only
  rw [if_neg (by simp [hm, hr, ho]), Die.forwardHeader]
  cases (e.port e.fwdFrom).hdrGood <;> rfl

theorem Die.containerForward_idle (hf : e.isMaster = true ∨ (e.port e.fwdFrom).hdr = none ∨
    startReturn (e.port e.fwdFrom).startIn = true ∨
    e.ownGoesOn ((e.port e.fwdFrom).arrival + BitVec.ofNat 32 (e.hopCycles e.fwdFrom)) = true) (bad : List (BitVec 13)) :
    e.containerForward bad = e := by
  rw [Die.containerForward]
  dsimp only
  cases hh : (e.port e.fwdFrom).hdr with
  | none => rfl
  | some h =>
    rw [hh] at hf
    exact if_pos (by simpa using hf)

theorem Die.healing_containerForward {h : Blocks} (hf : e.Forwards h) (bad : List (BitVec 13)) :
    (e.containerForward bad).chn.healing = e.wrapSend.chn.healing := by
  obtain ⟨ltx, hc⟩ := e.containerForward_eq hf bad
  rw [hc]
  exact congrArg Prod.snd (Die.launch_kept ..)

/-- What a container that is forwarded changes beyond the wraps is the chain. -/
theorem Die.unchained_containerForward {h : Blocks} (hf : e.Forwards h) (bad : List (BitVec 13)) :
    (e.containerForward bad).unchained = e.wrapSend.unchained := by
  obtain ⟨ltx, hc⟩ := e.containerForward_eq hf bad
  rw [hc, Die.unchained_updChn, Die.unchained_launch, Die.forwarding, Die.unchained_updChn]

theorem keptBySend_cable : R.CHNX_CABLE p.idx / 0x1000 ≠ R.LOG_CTRL / 0x1000 ∧ R.CHNX_CABLE p.idx ∉ wrapMoved := by
  cases p <;> decide

theorem keptBySend_ctrl : R.CHNX_CTRL p.idx / 0x1000 ≠ R.LOG_CTRL / 0x1000 ∧ R.CHNX_CTRL p.idx ∉ wrapMoved := by
  cases p <;> decide

theorem Die.wrapSend_cable : e.wrapSend.fld (F.CHNX_CABLE_DELAY p.idx) = e.fld (F.CHNX_CABLE_DELAY p.idx) :=
  Die.fld_of_reg (e.reg_wrapSend (keptBySend_cable p).1 (keptBySend_cable p).2)

theorem Die.wrapSend_hopCycles : e.wrapSend.hopCycles p = e.hopCycles p := by
  rw [Die.hopCycles, Die.gen1, Die.bit_of_reg (e.reg_wrapSend (keptBySend_ctrl p).1 (keptBySend_ctrl p).2), Die.hopCycles, Die.gen1]

/-- A good header goes on with HOPS one higher, DELAY raised by the hop and the cable, and the alarms joined in (R249). -/
theorem Die.forwardHeader_good (h : Blocks) (hg : (e.port e.fwdFrom).hdrGood = true) :
    hdrFld (e.forwardHeader h) 0 0 64 = hdrFld h 0 0 64 ∧
    hdrFld (e.forwardHeader h) 4 17 9 = (hdrFld h 4 17 9 + 1) % 2 ^ 9 ∧
    hdrFld (e.forwardHeader h) 3 0 48 =
      (hdrFld h 3 0 48 + 64 * e.hopCycles e.fwdFrom + e.fld (F.CHNX_CABLE_DELAY e.fwdFrom.idx)) % 2 ^ 48 ∧
    hdrFld (e.forwardHeader h) 5 0 16 = hdrFld h 5 0 16 ||| e.wrapSend.alarms := by
  rw [Die.forwardHeader, if_pos hg, ← e.wrapSend_hopCycles, ← e.wrapSend_cable]
  exact ⟨Die.hopHeader_h0 .., Die.hopHeader_hops .., Die.hopHeader_delay .., Die.hopHeader_alarms ..⟩

/-- The forwarded container leaves on the port of the forward stream. -/
theorem Die.containerForward_out {h : Blocks} (hf : e.Forwards h) (bad : List (BitVec 13))
    (hc : e.wrapSend.carries e.wrapSend.fwdTo = true) : ∃ o, ((e.containerForward bad).port e.wrapSend.fwdTo).out = some o ∧
    ((e.containerForward bad).port e.wrapSend.fwdTo).startOut = e.wrapSend.startByte e.wrapSend.fwdTo false ∧
    (e.containerForward bad).chn.errors = bad ∧ (e.forwardHeader h).LeavesAs (e.port e.fwdFrom).hdrGood o := by
  obtain ⟨ltx, heq⟩ := e.containerForward_eq hf bad
  obtain ⟨o, ho, hs, hl⟩ := e.forwarding.launch_out (e.forwardHeader h) ltx (e.port e.fwdFrom).hdrGood hc
  have hport (t : Die) (q : PortId) : (t.updChn fun c => { c with errors := bad }).port q = t.port q := by cases q <;> rfl
  rw [heq, hport]
  exact ⟨o, ho, hs, rfl, hl⟩

end

/-- Settles O30: a start block acts in stages, of which only the keeping of the header and its counts move its port and only a
repeated stream the other; a container that is forwarded leaves as the die finds its wraps. -/
theorem startBlocksAreForwarded : Obligations.StartBlocksAreForwarded := by
  unfold Obligations.StartBlocksAreForwarded
  intro d p sb h arrival toFt filler before fill bad s e recv send w back own
  have hrecv : ChangesIn (rxDom p) recv s d (·.startBlock p sb h arrival toFt.toNat filler.toNat before fill.toNat) :=
    ChangesIn.of_updIn (exec_startBlockReceive ..)
  have hsend : ChangesIn .ltx send s d (·.containerForward bad) := ChangesIn.of_updIn (exec_containerForward ..)
  refine ⟨fun hp => hrecv.congr fun _ => Die.startBlock_off _ _ _ _ _ _ _ _ _ hp, fun hp => hrecv.to fun _ => ?_,
    fun hidle => hsend.congr fun _ => Die.containerForward_idle _ hidle bad, fun hh hm hr ho hc => hsend.to fun _ => ?_⟩
  · obtain ⟨fr, g, gr, st, sa, hport, hbad, hret⟩ :=
      e.startBlock_port p sb h arrival toFt.toNat filler.toNat before fill.toNat hp
    obtain ⟨heng, hyard⟩ := e.startBlock_eng_yard p sb h arrival toFt.toNat filler.toNat before fill.toNat hp
    rw [State.die_setDie_self, State.die_setDie_other, hport]
    exact ⟨rfl, rfl, rfl, rfl, rfl, hbad, hret, e.startBlock_port_other_same p sb h arrival _ _ before _ hp,
      e.startBlock_port_other p sb h arrival _ _ before _ hp, heng, hyard, rfl⟩
  · have hf : e.Forwards h := ⟨hh, hm, hr, ho⟩
    obtain ⟨o, hout, hstart, herr, hgood, hcame, hfresh⟩ := e.containerForward_out hf bad hc
    have hu := e.unchained_containerForward hf bad
    rw [State.die_setDie_self, State.die_setDie_other]
    refine ⟨o, hout, hstart, herr, hgood, fun hb => ?_, fun hg => ?_, Die.of_unchained Die.regs (fun _ => rfl) hu,
      (Die.of_unchained Die.eng (fun _ => rfl) hu).trans e.wrapSend_eng, rfl⟩
    · rw [hcame hb, Die.forwardHeader, if_neg (by simp [hb])]
    · obtain ⟨h0, hhops, hdelay, halarms⟩ := e.forwardHeader_good h hg
      rw [hfresh hg 0 (by decide), hfresh hg 4 (by decide), hfresh hg 3 (by decide), hfresh hg 5 (by decide)]
      exact ⟨h0, hhops, hdelay, halarms⟩

end Sys2Proof.Machine
end

