-- ==== Sys2Proof/Proofs/PortsLost.lean ====
section
/-! SUPPORT. What the loss of a port and its block lock leave of the die (R236, R237, R270, R277). -/

namespace Sys2Proof.Machine

section
variable (e : Die)

/-! ### Clocks -/

/-- A clock that comes or goes moves the freeze and the clocks alone. -/
theorem Die.of_clock {α : Type} (g : Die → α) (hg : ∀ (x : Die) f k, g { x with
    frz := f
    clk := k } = g x) (m : Dom) (run : Bool) : g (e.clock m run) = g e := by
  unfold Die.clock
  dsimp only
  split <;> split
  · exact hg e _ e.clk
  · exact hg e _ _
  · rfl
  · exact hg e e.frz _

theorem Die.shut_of_reg {t e : Die} (h : t.reg R.FRZ_STAT = e.reg R.FRZ_STAT) (m : Dom) : t.shut m = e.shut m := by
  have hs : t.fld F.FRZ_STAT_STATE = e.fld F.FRZ_STAT_STATE := Die.fld_of_reg h
  have hc : t.fld F.FRZ_STAT_CLOSED = e.fld F.FRZ_STAT_CLOSED := Die.fld_of_reg h
  rw [Die.shut, Die.bitAt, hs, hc, Die.shut, Die.bitAt]

theorem Die.runs_clock {m : Dom} (hs : e.shut m = false) : (e.clock m true).runs m = true := by
  have hshut (f : Freeze) : ({ e with frz := f } : Die).shut m = e.shut m := rfl
  unfold Die.clock
  dsimp only
  rw [apply_ite (fun x : Die => x.shut m), hshut, ite_self, hs]
  simp [Die.runs, domSet]

variable (p : PortId)

@[simp] theorem Die.bit_rxClock (run : Bool) (g : Fld) : (e.rxClock p run).bit g = e.bit g :=
  e.of_clock (·.bit g) (fun _ _ _ => rfl) _ run

@[simp] theorem Die.around_rxClock (run : Bool) : (e.rxClock p run).around = e.around :=
  e.of_clock Die.around (fun _ _ _ => rfl) _ run

/-! ### PORT_LOST -/

/-- The loss of a port is noted, unless it was lost before. -/
def Die.noteLost (e : Die) (p : PortId) (was : Bool) : Die :=
  if was then e
  else
    let e := (e.setFld (F.CHNX_STAT_LOST p.idx) 1).setFld (F.CHNX_IRQ_LOST p.idx) 1
    let e := e.logEv 2 2 p.idx (e.chnxStat p)
    e.healthNote fun h => { h with chlost := h.chlost + 1 }

/-- The port's good containers count from zero. -/
def Die.zeroGood (e : Die) (p : PortId) : Die := e.updPort p fun x => { x with
  good := 0
  goodReturn := 0 }

/-- A near wrap point whose lost port is lost again heals no more. -/
def Die.stopHealing (e : Die) (p : PortId) : Die :=
  if p = e.fwdOut ∧ e.wrapNear then e.updChn fun c => { c with
    healing := false
    stopNext := false } else e

theorem Die.portLost_eq (hp : e.portState p ≠ St.off) (cause : LossCause) : e.portLost p cause =
    (((e.lossBits p cause).zeroGood p).noteLost p (e.bit (F.CHNX_STAT_LOST p.idx))).stopHealing p := if_neg hp

theorem Die.portLost_off (hp : e.portState p = St.off) (cause : LossCause) : e.portLost p cause = match cause with
    | .los => (e.setFld (F.CHNX_STAT_LOS p.idx) 1).rxClock p false
    | .modabs => (e.setFld (F.CHNX_STAT_MODABS p.idx) 1).rxClock p false
    | .txflt => e.setFld (F.CHNX_STAT_TXFLT p.idx) 1
    | _ => e := by
  cases cause <;> exact if_pos hp

/-! What each of the four leaves. -/

@[simp] theorem Die.around_healthNote (f : HealthCounts → HealthCounts) : (e.healthNote f).around = e.around := rfl
@[simp] theorem Die.bit_healthNote (f : HealthCounts → HealthCounts) (g : Fld) : (e.healthNote f).bit g = e.bit g := rfl

theorem Die.around_noteLost (was : Bool) : (e.noteLost p was).around = e.around := by
  cases p <;> simp +decide -implicitDefEqProofs only [Die.noteLost, apply_ite Die.around, Die.around_healthNote,
    Die.around_logEv, Die.around_setFld, ite_self]

theorem Die.aside_lossBits (cause : LossCause) : (e.lossBits p cause).aside = e.aside := by
  have hset {f : Fld} (x : Die) (h : f.spares = true) (v : Nat) : (x.setFld f v).aside = x.aside :=
    Die.aside_of_around (x.around_setFld h v)
  cases cause
  case noStart => rfl
  case los => exact (Die.aside_of_around (Die.around_rxClock ..)).trans (hset e (by cases p <;> decide) 1)
  case modabs => exact (Die.aside_of_around (Die.around_rxClock ..)).trans (hset e (by cases p <;> decide) 1)
  case txflt => exact hset e (by cases p <;> decide) 1
  case hiber => exact hset e (by cases p <;> decide) 1
  case blockLock =>
    unfold Die.lossBits
    dsimp only
    split
    · rw [hset _ (by cases p <;> decide), hset _ (by cases p <;> decide)]
    · rfl

theorem Die.aside_stopHealing : (e.stopHealing p).aside = e.aside := by
  unfold Die.stopHealing
  split <;> rfl

theorem Die.port_stopHealing : (e.stopHealing p).port p = e.port p := by
  unfold Die.stopHealing
  split <;> cases p <;> rfl

theorem Die.bit_stopHealing (g : Fld) : (e.stopHealing p).bit g = e.bit g := by
  unfold Die.stopHealing
  split <;> rfl

/-- The loss leaves the die's name, ENG, YARD and wraps. -/
theorem Die.portLost_aside (hp : e.portState p ≠ St.off) (cause : LossCause) : (e.portLost p cause).aside = e.aside := by
  rw [e.portLost_eq p hp, Die.aside_stopHealing, Die.aside_of_around (Die.around_noteLost ..)]
  exact e.aside_lossBits p cause

theorem Die.portLost_port (hp : e.portState p ≠ St.off) (cause : LossCause) :
    ((e.portLost p cause).port p).good = 0 ∧ ((e.portLost p cause).port p).goodReturn = 0 := by
  rw [e.portLost_eq p hp, Die.port_stopHealing, Die.port_of_around (Die.around_noteLost ..), Die.zeroGood, Die.port_updPort_self]
  exact ⟨rfl, rfl⟩

/-- A near wrap point whose forward out is lost no longer heals. -/
theorem Die.portLost_healing (hp : e.portState p ≠ St.off) (cause : LossCause) (ho : p = e.fwdOut) (hn : e.wrapNear = true) :
    (e.portLost p cause).chn.healing = false ∧ (e.portLost p cause).chn.stopNext = false := by
  rw [e.portLost_eq p hp]
  have ha : (((e.lossBits p cause).zeroGood p).noteLost p (e.bit (F.CHNX_STAT_LOST p.idx))).aside = e.aside :=
    (Die.aside_of_around (Die.around_noteLost ..)).trans (e.aside_lossBits p cause)
  obtain ⟨-, -, -, hnear, -⟩ := Die.aside_iff.1 ha
  rw [Die.stopHealing, if_pos ⟨ho.trans (Die.fwdOut_of_aside ha).symm, hnear.trans hn⟩]
  exact ⟨rfl, rfl⟩

/-! The bits of CHN_x_STAT after a loss. -/

theorem Die.bit_noteLost {g : Fld} (hl : (F.CHNX_STAT_LOST p.idx).apart g = true) (hi : (F.CHNX_IRQ_LOST p.idx).apart g = true)
    (hg : g.addr / 0x1000 ≠ R.LOG_CTRL / 0x1000) (was : Bool) : (e.noteLost p was).bit g = e.bit g := by
  unfold Die.noteLost
  split
  · rfl
  · rw [Die.bit_healthNote, Die.bit_logEv _ hg (by decide), Die.bit_setFld_apart _ hi, Die.bit_setFld_apart _ hl]

/-- A port that is lost shows LOST. -/
theorem Die.bit_noteLost_lost (was : Bool) (hw : e.bit (F.CHNX_STAT_LOST p.idx) = was) :
    (e.noteLost p was).bit (F.CHNX_STAT_LOST p.idx) = true := by
  cases was
  · have hg : (F.CHNX_STAT_LOST p.idx).addr / 0x1000 ≠ R.LOG_CTRL / 0x1000 := by cases p <;> decide
    have hi : (F.CHNX_IRQ_LOST p.idx).apart (F.CHNX_STAT_LOST p.idx) = true := by cases p <;> decide
    rw [Die.noteLost, if_neg Bool.false_ne_true, Die.bit_healthNote, Die.bit_logEv _ hg (by decide), Die.bit_setFld_apart _ hi]
    exact e.bit_setFld_self (Fld.fits_of rfl) 1
  · exact hw

/-- What a loss reports is not LOST itself. -/
theorem Die.bit_lossBits_lost (cause : LossCause) :
    (e.lossBits p cause).bit (F.CHNX_STAT_LOST p.idx) = e.bit (F.CHNX_STAT_LOST p.idx) := by
  cases cause
  case noStart => rfl
  case los => exact (Die.bit_rxClock ..).trans (e.bit_setFld_apart (by cases p <;> decide) 1)
  case modabs => exact (Die.bit_rxClock ..).trans (e.bit_setFld_apart (by cases p <;> decide) 1)
  case txflt => exact e.bit_setFld_apart (by cases p <;> decide) 1
  case hiber => exact e.bit_setFld_apart (by cases p <;> decide) 1
  case blockLock =>
    unfold Die.lossBits
    dsimp only
    split
    · rw [Die.bit_setFld_apart _ (by cases p <;> decide), Die.bit_setFld_apart _ (by cases p <;> decide)]
    · rfl

theorem Die.portLost_lost (hp : e.portState p ≠ St.off) (cause : LossCause) :
    (e.portLost p cause).bit (F.CHNX_STAT_LOST p.idx) = true := by
  rw [e.portLost_eq p hp, Die.bit_stopHealing]
  exact Die.bit_noteLost_lost _ p _ (e.bit_lossBits_lost p cause)

/-- A bit that neither the report nor the note of the loss writes. -/
theorem Die.portLost_bit (hp : e.portState p ≠ St.off) {cause : LossCause} {g : Fld}
    (hl : (F.CHNX_STAT_LOST p.idx).apart g = true) (hi : (F.CHNX_IRQ_LOST p.idx).apart g = true)
    (hg : g.addr / 0x1000 ≠ R.LOG_CTRL / 0x1000) (hc : (e.lossBits p cause).bit g = e.bit g) :
    (e.portLost p cause).bit g = e.bit g := by
  rw [e.portLost_eq p hp, Die.bit_stopHealing, Die.bit_noteLost _ p hl hi hg]
  exact hc

/-- LOS or MODABS that already stands shows no other input of the module. -/
theorem Die.portLost_inputs (hp : e.portState p ≠ St.off) {cause : LossCause}
    (hc : cause = .los ∧ e.bit (F.CHNX_STAT_LOS p.idx) = true ∨ cause = .modabs ∧ e.bit (F.CHNX_STAT_MODABS p.idx) = true) :
    (e.portLost p cause).bit (F.CHNX_STAT_LOS p.idx) = e.bit (F.CHNX_STAT_LOS p.idx) ∧
    (e.portLost p cause).bit (F.CHNX_STAT_MODABS p.idx) = e.bit (F.CHNX_STAT_MODABS p.idx) ∧
    (e.portLost p cause).bit (F.CHNX_STAT_TXFLT p.idx) = e.bit (F.CHNX_STAT_TXFLT p.idx) := by
  have hkept {g : Fld} (hl : (F.CHNX_STAT_LOST p.idx).apart g = true) (hi : (F.CHNX_IRQ_LOST p.idx).apart g = true)
      (hg : g.addr / 0x1000 ≠ R.LOG_CTRL / 0x1000) := e.portLost_bit p hp (cause := cause) hl hi hg
  refine ⟨hkept (by cases p <;> decide) (by cases p <;> decide) (by cases p <;> decide) ?_,
    hkept (by cases p <;> decide) (by cases p <;> decide) (by cases p <;> decide) ?_,
    hkept (by cases p <;> decide) (by cases p <;> decide) (by cases p <;> decide) ?_⟩
  all_goals obtain ⟨rfl, hb⟩ | ⟨rfl, hb⟩ := hc
  all_goals refine (Die.bit_rxClock ..).trans ?_
  · exact (e.bit_setFld_self (Fld.fits_of rfl) 1).trans hb.symm
  · exact e.bit_setFld_apart (by cases p <;> decide) 1
  · exact e.bit_setFld_apart (by cases p <;> decide) 1
  · exact (e.bit_setFld_self (Fld.fits_of rfl) 1).trans hb.symm
  · exact e.bit_setFld_apart (by cases p <;> decide) 1
  · exact e.bit_setFld_apart (by cases p <;> decide) 1

/-! ### BLOCK_LOCK_GAINED -/

/-- A one-bit field takes the lowest bit of what is written. -/
theorem Die.bit_setFld_bitsOf {f : Fld} (hf : f.fits) (hw : f.w = 1) (n i : Nat) :
    (e.setFld f (bitsOf n i 1)).bit f = n.testBit i := by
  rw [e.bit_setFld_self hf, hw, Nat.mod_eq_of_lt (bitsOf_lt ..), ← natBit_eq_testBit, natBit]

section
variable (n : Nat)

theorem Die.modulePins_los : (e.modulePins p n).bit (F.CHNX_STAT_LOS p.idx) = n.testBit 0 := by
  rw [Die.modulePins, Die.bit_setFld_apart _ (by cases p <;> decide), Die.bit_setFld_apart _ (by cases p <;> decide)]
  exact e.bit_setFld_bitsOf (Fld.fits_of rfl) rfl n 0

theorem Die.modulePins_modabs : (e.modulePins p n).bit (F.CHNX_STAT_MODABS p.idx) = n.testBit 1 := by
  rw [Die.modulePins, Die.bit_setFld_apart _ (by cases p <;> decide)]
  exact Die.bit_setFld_bitsOf _ (Fld.fits_of rfl) rfl n 1

theorem Die.modulePins_txflt : (e.modulePins p n).bit (F.CHNX_STAT_TXFLT p.idx) = n.testBit 2 :=
  Die.bit_setFld_bitsOf _ (Fld.fits_of rfl) rfl n 2

theorem Die.modulePins_reg {a : Nat} (ha : a ≠ R.CHNX_STAT p.idx) : (e.modulePins p n).reg a = e.reg a := by
  have h {f : Fld} (x : Die) (hf : f.addr = R.CHNX_STAT p.idx) (v : Nat) : (x.setFld f v).reg a = x.reg a :=
    x.reg_setFld_other (fun hfa : f.addr = a => ha (hfa.symm.trans hf)) v
  rw [Die.modulePins, h _ rfl, h _ rfl, h _ rfl]

theorem Die.modulePins_portState : (e.modulePins p n).portState p = e.portState p :=
  Die.fld_of_reg (e.modulePins_reg p n (by cases p <;> decide))

theorem Die.modulePins_around : (e.modulePins p n).around = e.around := by
  rw [Die.modulePins, Die.around_setFld _ (by cases p <;> decide), Die.around_setFld _ (by cases p <;> decide),
    Die.around_setFld _ (by cases p <;> decide)]

end

/-- A port that has block lock is lost no longer, unless an input holds it. -/
def Die.locks (e : Die) (p : PortId) (held : Bool) : Die :=
  let i := p.idx
  let e := if e.bit (F.CHNX_STAT_LOCK i) then e else (e.setFld (F.CHNX_STAT_LOCK i) 1).setFld (F.CHNX_IRQ_LOCKCHG i) 1
  let e := (e.setFld (F.CHNX_STAT_HIBER i) 0).setFld (F.CHNX_STAT_LOST i) (b2n held)
  (e.rxClock p true).updPort p fun x => { x with silent := false }

theorem Die.lockGained_off (n : Nat) (hp : e.portState p = St.off) : e.lockGained p n = e.modulePins p n :=
  if_pos ((e.modulePins_portState p n).trans hp)

theorem Die.lockGained_lost (n : Nat) (hp : e.portState p ≠ St.off) (hn : (n.testBit 0 || n.testBit 1) = true) :
    e.lockGained p n = (e.modulePins p n).portLost p (if n.testBit 0 then .los else .modabs) := by
  rw [← natBit_eq_testBit, ← natBit_eq_testBit] at hn
  rw [← natBit_eq_testBit]
  refine (if_neg ?_).trans (if_pos hn)
  rwa [Die.modulePins_portState]

theorem Die.lockGained_locks (n : Nat) (hp : e.portState p ≠ St.off) (hn : (n.testBit 0 || n.testBit 1) = false) :
    e.lockGained p n = (e.modulePins p n).locks p (n % 8 != 0) := by
  rw [← natBit_eq_testBit, ← natBit_eq_testBit] at hn
  refine (if_neg ?_).trans (if_neg (by simp [hn]))
  rwa [Die.modulePins_portState]

/-! What block lock leaves. -/

/-- The port's LOCK, whether it stood before or not. -/
def Die.setLock (e : Die) (p : PortId) : Die :=
  if e.bit (F.CHNX_STAT_LOCK p.idx) then e else (e.setFld (F.CHNX_STAT_LOCK p.idx) 1).setFld (F.CHNX_IRQ_LOCKCHG p.idx) 1

theorem Die.setLock_lock : (e.setLock p).bit (F.CHNX_STAT_LOCK p.idx) = true := by
  unfold Die.setLock
  split
  next h => exact h
  next =>
    rw [Die.bit_setFld_apart _ (by cases p <;> decide)]
    exact e.bit_setFld_self (Fld.fits_of rfl) 1

theorem Die.setLock_bit {g : Fld} (hl : (F.CHNX_STAT_LOCK p.idx).apart g = true) (hi : (F.CHNX_IRQ_LOCKCHG p.idx).apart g = true) :
    (e.setLock p).bit g = e.bit g := by
  unfold Die.setLock
  split
  · rfl
  · rw [Die.bit_setFld_apart _ hi, Die.bit_setFld_apart _ hl]

theorem Die.setLock_around : (e.setLock p).around = e.around := by
  unfold Die.setLock
  split
  · rfl
  · rw [Die.around_setFld _ (by cases p <;> decide), Die.around_setFld _ (by cases p <;> decide)]

section
variable (held : Bool)

theorem Die.locks_eq : e.locks p held = ((((e.setLock p).setFld (F.CHNX_STAT_HIBER p.idx) 0).setFld (F.CHNX_STAT_LOST p.idx)
    (b2n held)).rxClock p true).updPort p fun x => { x with silent := false } := rfl

theorem Die.locks_aside : (e.locks p held).aside = e.aside := by
  rw [Die.locks_eq, Die.aside_updPort, Die.aside_of_around (Die.around_rxClock ..),
    Die.aside_of_around (Die.around_setFld _ (by cases p <;> decide) _),
    Die.aside_of_around (Die.around_setFld _ (by cases p <;> decide) _), Die.aside_of_around (e.setLock_around p)]

/-- The bits of CHN_x_STAT beside LOCK, HIBER and LOST. -/
theorem Die.locks_bit {g : Fld} (hl : (F.CHNX_STAT_LOCK p.idx).apart g = true) (hi : (F.CHNX_IRQ_LOCKCHG p.idx).apart g = true)
    (hh : (F.CHNX_STAT_HIBER p.idx).apart g = true) (ho : (F.CHNX_STAT_LOST p.idx).apart g = true) :
    (e.locks p held).bit g = e.bit g := by
  rw [Die.locks_eq, Die.updPort_bit, Die.bit_rxClock, Die.bit_setFld_apart _ ho, Die.bit_setFld_apart _ hh,
    e.setLock_bit p hl hi]

theorem Die.locks_lock : (e.locks p held).bit (F.CHNX_STAT_LOCK p.idx) = true := by
  rw [Die.locks_eq, Die.updPort_bit, Die.bit_rxClock, Die.bit_setFld_apart _ (by cases p <;> decide),
    Die.bit_setFld_apart _ (by cases p <;> decide), e.setLock_lock]

theorem Die.locks_hiber : (e.locks p held).bit (F.CHNX_STAT_HIBER p.idx) = false := by
  rw [Die.locks_eq, Die.updPort_bit, Die.bit_rxClock, Die.bit_setFld_apart _ (by cases p <;> decide)]
  exact Die.bit_setFld_self _ (Fld.fits_of rfl) 0

theorem Die.locks_lost : (e.locks p held).bit (F.CHNX_STAT_LOST p.idx) = held := by
  rw [Die.locks_eq, Die.updPort_bit, Die.bit_rxClock, Die.bit_setFld_self _ (Fld.fits_of rfl)]
  cases held <;> rfl

/-- The receiver runs again, unless a freeze has closed its gate. -/
theorem Die.locks_runs (hs : e.shut (rxDom p) = false) : (e.locks p held).runs (rxDom p) = true := by
  have hset (x : Die) {f : Fld} (hf : f.addr ≠ R.FRZ_STAT) (v : Nat) : (x.setFld f v).shut (rxDom p) = x.shut (rxDom p) :=
    Die.shut_of_reg (x.reg_setFld_other hf v) _
  have hlock : (e.setLock p).shut (rxDom p) = e.shut (rxDom p) := by
    unfold Die.setLock
    split
    · rfl
    · rw [hset _ (by cases p <;> decide), hset _ (by cases p <;> decide)]
  refine Die.runs_clock _ ?_
  rw [hset _ (by cases p <;> decide), hset _ (by cases p <;> decide)]
  exact hlock.trans hs

end

end

end Sys2Proof.Machine
end

