-- ==== Sys2Proof/Proofs/WrapPoints.lean ====
section
/-! PROOF. O33: where wraps form and heal, and what a port shows as it is lost and locks again (R236, R237, R270, R272, R277). -/

namespace Sys2Proof.Machine

section
variable (e : Die) (p : PortId)

/-! ### The near wrap -/

/-- A cause of the loss of a port still stands. -/
def Die.lostStands (e : Die) (p : PortId) : Bool :=
  e.bit (F.CHNX_STAT_LOS p.idx) || e.bit (F.CHNX_STAT_MODABS p.idx) || e.bit (F.CHNX_STAT_TXFLT p.idx) ||
    e.bit (F.CHNX_STAT_HIBER p.idx) || !e.bit (F.CHNX_STAT_LOCK p.idx) || (e.port p).silent

theorem Die.settleLost_lost : (e.settleLost p).bit (F.CHNX_STAT_LOST p.idx) =
    (e.lostStands p && e.bit (F.CHNX_STAT_LOST p.idx)) := by
  rw [show e.settleLost p = if e.lostStands p then e else e.setFld (F.CHNX_STAT_LOST p.idx) 0 from rfl]
  cases e.lostStands p
  · exact e.bit_setFld_self (Fld.fits_of rfl) 0
  · rfl

theorem Die.around_zeroSent : (e.zeroSent p).around = e.around := by
  cases p <;> simp +decide -implicitDefEqProofs only [Die.zeroSent_eq, Die.around_setReg]

/-- The note of a wrap writes no bit of CHN_x_STAT. -/
theorem Die.bit_wrapNote {g : Fld} (hi : (F.CHNX_IRQ_WRAPCHG p.idx).apart g = true) (hg : g.addr / 0x1000 ≠ R.LOG_CTRL / 0x1000)
    (formed : Bool) : (e.wrapNote p formed).bit g = e.bit g := by
  rw [Die.wrapNote, Die.bit_logEv _ hg (by decide), Die.bit_setFld_apart _ hi]

theorem Die.bit_zeroSent {g : Fld} (hg : ∀ l : Nat, l < 4 → R.CHNX_LANE p.idx l ≠ g.addr) : (e.zeroSent p).bit g = e.bit g := by
  refine Die.bit_of_reg ?_
  rw [Die.zeroSent_eq, Die.reg_setReg, if_neg (hg 3 (by decide)), Die.reg_setReg, if_neg (hg 2 (by decide)), Die.reg_setReg,
    if_neg (hg 1 (by decide)), Die.reg_setReg, if_neg (hg 0 (by decide))]

/-- A die that is no near wrap point becomes one where its forward out may wrap. -/
theorem Die.nearWrap_wrapNear (hn : e.wrapNear = false) : e.nearWrap.wrapNear = e.mayWrap e.fwdOut := by
  cases hm : e.mayWrap e.fwdOut
  · rw [Die.nearWrap, hm, if_neg (by simp), hn]
  · rw [Die.nearWrap, hm, hn, if_pos (by simp), Die.wrapNear_of_around (Die.around_wrapNote ..), Die.wrapNear, Die.updChn_bit]
    exact (Die.wrapNear_of_around (Die.around_zeroSent ..)).trans (e.bit_setFld_self (Fld.fits_of rfl) 1)

theorem Die.nearWrap_near (hn : e.wrapNear = true) : e.nearWrap = e := by
  rw [Die.nearWrap, if_neg (by simp [hn])]

theorem Die.nearStop_goes (h : e.wrapNear = false ∨ e.chn.stopNext = false) : e.nearStop = e :=
  if_neg (by obtain h | h := h <;> simp [h])

/-- A wrap that forms leaves LOST of the port. -/
theorem Die.nearWrap_lost (q : PortId) : e.nearWrap.bit (F.CHNX_STAT_LOST q.idx) = e.bit (F.CHNX_STAT_LOST q.idx) := by
  rw [Die.nearWrap]
  split
  · rw [Die.bit_wrapNote _ _ (by cases q <;> cases e.fwdOut <;> decide) (by cases q <;> decide), Die.updChn_bit,
      Die.bit_zeroSent _ _ (by cases q <;> cases e.fwdIn <;> decide), Die.bit_setFld_apart _ (by cases q <;> decide)]
  · rfl

theorem Die.nearWrap_healing (h : e.chn.healing = false) : e.nearWrap.chn.healing = false := by
  rw [Die.of_deep (·.chn.healing) (fun _ => rfl) e.deep_nearWrap]
  split
  · rfl
  · exact h

section
variable (hn : e.wrapNear = true) (hs : e.chn.stopNext = true)
include hn hs

theorem Die.nearStop_stops : e.nearStop = (((e.setFld F.CHN_STAT_WRAPNEAR 0).settleLost e.fwdOut).updChn fun c => { c with
    healing := false
    stopNext := false }).wrapNote e.fwdOut false := if_pos (by simp [hn, hs])

theorem Die.nearStop_wrapNear : e.nearStop.wrapNear = false := by
  rw [e.nearStop_stops hn hs, Die.wrapNear_of_around (Die.around_wrapNote ..)]
  exact (Die.wrapNear_of_around (Die.around_settleLost ..)).trans (e.bit_setFld_self (Fld.fits_of rfl) 0)

theorem Die.nearStop_healing : e.nearStop.chn.healing = false := by
  rw [Die.of_deep (·.chn.healing) (fun _ => rfl) e.deep_nearStop, if_pos (by simp [hn, hs])]
  rfl

theorem Die.nearStop_lost : e.nearStop.bit (F.CHNX_STAT_LOST e.fwdOut.idx) =
    (e.lostStands e.fwdOut && e.bit (F.CHNX_STAT_LOST e.fwdOut.idx)) := by
  have hset {g : Fld} (hg : F.CHN_STAT_WRAPNEAR.apart g = true) : (e.setFld F.CHN_STAT_WRAPNEAR 0).bit g = e.bit g :=
    e.bit_setFld_apart hg 0
  rw [e.nearStop_stops hn hs]
  cases e.fwdOut
  all_goals
    rw [Die.bit_wrapNote _ _ (by decide) (by decide), Die.updChn_bit, Die.settleLost_lost, Die.lostStands]
    rw [hset (by decide), hset (by decide), hset (by decide), hset (by decide), hset (by decide), hset (by decide)]
    rfl

/-- Where a cause stands the port may wrap again; where none does it is lost no longer. -/
theorem Die.nearStop_mayWrap : e.nearStop.mayWrap e.fwdOut = (e.lostStands e.fwdOut && e.mayWrap e.fwdOut) := by
  have hctrl : e.nearStop.bit (F.CHNX_CTRL_NOWRAP e.fwdOut.idx) = e.bit (F.CHNX_CTRL_NOWRAP e.fwdOut.idx) :=
    Die.bit_of_reg (e.reg_nearStop (keptBySend_ctrl _).1 (keptBySend_ctrl _).2)
  rw [Die.mayWrap, e.nearStop_lost hn hs, hctrl, Die.mayWrap, Bool.and_assoc]

end

/-! ### What the next container finds -/

theorem Die.wrapSend_forms (hn : e.wrapNear = false) : e.wrapSend.wrapNear = e.mayWrap e.fwdOut := by
  rw [Die.wrapSend, e.nearStop_goes (.inl hn), e.nearWrap_wrapNear hn]

theorem Die.wrapSend_stays (hn : e.wrapNear = true) (hs : e.chn.stopNext = false) : e.wrapSend.wrapNear = true := by
  rw [Die.wrapSend, e.nearStop_goes (.inr hs), e.nearWrap_near hn, hn]

section
variable (hn : e.wrapNear = true) (hs : e.chn.stopNext = true)
include hn hs

theorem Die.wrapSend_stops : e.wrapSend.wrapNear = (e.lostStands e.fwdOut && e.mayWrap e.fwdOut) := by
  have hout : e.nearStop.fwdOut = e.fwdOut := by
    rw [Die.of_deep Die.fwdOut (fun _ => rfl) e.deep_nearStop]
    split <;> rfl
  rw [Die.wrapSend, Die.nearWrap_wrapNear _ (e.nearStop_wrapNear hn hs), hout, e.nearStop_mayWrap hn hs]

theorem Die.wrapSend_lost : e.wrapSend.bit (F.CHNX_STAT_LOST e.fwdOut.idx) =
    (e.lostStands e.fwdOut && e.bit (F.CHNX_STAT_LOST e.fwdOut.idx)) := by
  rw [Die.wrapSend, Die.nearWrap_lost, e.nearStop_lost hn hs]

theorem Die.wrapSend_healing : e.wrapSend.chn.healing = false := Die.nearWrap_healing _ (e.nearStop_healing hn hs)

end

end

/-- What a forwarded container makes of the near wrap. -/
theorem CompletesIn.of_forwards {d : DieId} {s : State} {h : Blocks} (hf : (s.die d).Forwards h) (bad : List (BitVec 13))
    {P : State → Prop} (hp : ∀ t : State, (t.die d).unchained = (s.die d).wrapSend.unchained →
      (t.die d).chn.healing = (s.die d).wrapSend.chn.healing → t.die d.other = s.die d.other → P t) :
    CompletesIn d .ltx (.containerForward d bad) s P := by
  refine (ChangesIn.of_updIn (exec_containerForward ..)).to fun _ => hp _ ?_ ?_ (State.die_setDie_other ..)
  · rw [State.die_setDie_self, Die.unchained_containerForward _ hf]
  · rw [State.die_setDie_self, Die.healing_containerForward _ hf]

section
variable (d : DieId) (p : PortId) (s : State)

/-- What a loss of a port that is not OFF shows. -/
theorem CompletesIn.of_portLost (cause : LossCause) (hp : (s.die d).portState p ≠ St.off) :
    CompletesIn d .ltx (.portLost d p cause) s fun t =>
      (t.die d).bit (F.CHNX_STAT_LOST p.idx) = true ∧ ((t.die d).port p).good = 0 ∧ ((t.die d).port p).goodReturn = 0 ∧
      (t.die d).wrapNear = (s.die d).wrapNear ∧ (t.die d).wrapFar = (s.die d).wrapFar ∧
      (p = (s.die d).fwdOut → (s.die d).wrapNear = true → (t.die d).chn.healing = false ∧ (t.die d).chn.stopNext = false) ∧
      (t.die d).eng = (s.die d).eng ∧ t.die d.other = s.die d.other := by
  refine (ChangesIn.of_updIn (exec_portLost ..)).to fun _ => ?_
  rw [State.die_setDie_self, State.die_setDie_other]
  obtain ⟨-, heng, -, hnear, hfar⟩ := Die.aside_iff.1 ((s.die d).portLost_aside p hp cause)
  obtain ⟨hgood, hret⟩ := (s.die d).portLost_port p hp cause
  exact ⟨(s.die d).portLost_lost p hp cause, hgood, hret, hnear, hfar, (s.die d).portLost_healing p hp cause, heng, rfl⟩

variable (pins : BitVec 3)

/-- A lock without light or a module shows the inputs, and the port is lost. -/
theorem CompletesIn.of_lockWithoutLight (hp : (s.die d).portState p ≠ St.off)
    (hpins : pins.getLsbD 0 = true ∨ pins.getLsbD 1 = true) : CompletesIn d .ltx (.blockLockGained d ⟨p, pins⟩) s fun t =>
      (t.die d).bit (F.CHNX_STAT_LOST p.idx) = true ∧ (t.die d).bit (F.CHNX_STAT_LOS p.idx) = pins.getLsbD 0 ∧
      (t.die d).bit (F.CHNX_STAT_MODABS p.idx) = pins.getLsbD 1 ∧ (t.die d).bit (F.CHNX_STAT_TXFLT p.idx) = pins.getLsbD 2 ∧
      (t.die d).wrapNear = (s.die d).wrapNear ∧ (t.die d).wrapFar = (s.die d).wrapFar ∧ (t.die d).eng = (s.die d).eng ∧
      t.die d.other = s.die d.other := by
  refine (ChangesIn.of_updIn (exec_blockLockGained ..)).to fun _ => ?_
  rw [State.die_setDie_self, State.die_setDie_other, (s.die d).lockGained_lost p pins.toNat hp (Bool.or_eq_true_iff.2 hpins)]
  generalize hu : (s.die d).modulePins p pins.toNat = u
  have hoff : u.portState p ≠ St.off := by rwa [← hu, Die.modulePins_portState]
  have hlos : u.bit (F.CHNX_STAT_LOS p.idx) = pins.getLsbD 0 := by rw [← hu]; exact Die.modulePins_los ..
  have hmodabs : u.bit (F.CHNX_STAT_MODABS p.idx) = pins.getLsbD 1 := by rw [← hu]; exact Die.modulePins_modabs ..
  have htxflt : u.bit (F.CHNX_STAT_TXFLT p.idx) = pins.getLsbD 2 := by rw [← hu]; exact Die.modulePins_txflt ..
  have haside : u.aside = (s.die d).aside := by rw [← hu]; exact Die.aside_of_around (Die.modulePins_around ..)
  generalize hcause : (if pins.toNat.testBit 0 then LossCause.los else .modabs) = cause
  have hstands : cause = .los ∧ u.bit (F.CHNX_STAT_LOS p.idx) = true ∨
      cause = .modabs ∧ u.bit (F.CHNX_STAT_MODABS p.idx) = true := by
    rw [hlos, hmodabs, ← hcause]
    change (if pins.getLsbD 0 then _ else _) = _ ∧ _ ∨ (if pins.getLsbD 0 then _ else _) = _ ∧ _
    cases h0 : pins.getLsbD 0
    · exact .inr ⟨rfl, hpins.resolve_left (by rw [h0]; decide)⟩
    · exact .inl ⟨rfl, rfl⟩
  obtain ⟨h1, h2, h3⟩ := u.portLost_inputs p hoff hstands
  obtain ⟨-, heng, -, hnear, hfar⟩ := Die.aside_iff.1 ((u.portLost_aside p hoff cause).trans haside)
  exact ⟨u.portLost_lost p hoff cause, h1.trans hlos, h2.trans hmodabs, h3.trans htxflt, hnear, hfar, heng, rfl⟩

/-- A lock ends the loss, unless an input of the module holds it. -/
theorem CompletesIn.of_lock (hp : (s.die d).portState p ≠ St.off) (h0 : pins.getLsbD 0 = false) (h1 : pins.getLsbD 1 = false) :
    CompletesIn d .ltx (.blockLockGained d ⟨p, pins⟩) s fun t =>
      (t.die d).bit (F.CHNX_STAT_LOCK p.idx) = true ∧ (t.die d).bit (F.CHNX_STAT_LOST p.idx) = (pins != 0) ∧
      (t.die d).bit (F.CHNX_STAT_LOS p.idx) = pins.getLsbD 0 ∧ (t.die d).bit (F.CHNX_STAT_MODABS p.idx) = pins.getLsbD 1 ∧
      (t.die d).bit (F.CHNX_STAT_TXFLT p.idx) = pins.getLsbD 2 ∧ (t.die d).bit (F.CHNX_STAT_HIBER p.idx) = false ∧
      ((s.die d).shut (rxDom p) = false → (t.die d).runs (rxDom p) = true) ∧ (t.die d).wrapNear = (s.die d).wrapNear ∧
      (t.die d).wrapFar = (s.die d).wrapFar ∧ (t.die d).eng = (s.die d).eng ∧ t.die d.other = s.die d.other := by
  refine (ChangesIn.of_updIn (exec_blockLockGained ..)).to fun _ => ?_
  have hheld : (pins.toNat % 8 != 0) = (pins != 0) := by revert pins; decide
  rw [State.die_setDie_self, State.die_setDie_other,
    (s.die d).lockGained_locks p pins.toNat hp (by rw [Bool.or_eq_false_iff]; exact ⟨h0, h1⟩), hheld]
  generalize hu : (s.die d).modulePins p pins.toNat = u
  have hshut : u.shut (rxDom p) = (s.die d).shut (rxDom p) := by
    rw [← hu]
    exact Die.shut_of_reg (Die.modulePins_reg _ _ _ (by cases p <;> decide)) _
  have haside : u.aside = (s.die d).aside := by rw [← hu]; exact Die.aside_of_around (Die.modulePins_around ..)
  obtain ⟨-, heng, -, hnear, hfar⟩ := Die.aside_iff.1 ((u.locks_aside p (pins != 0)).trans haside)
  refine ⟨u.locks_lock p _, u.locks_lost p _, ?_, ?_, ?_, u.locks_hiber p _, fun hs => u.locks_runs p _ (hshut.trans hs), hnear,
    hfar, heng, rfl⟩
  all_goals
    rw [u.locks_bit p _ (by cases p <;> decide) (by cases p <;> decide) (by cases p <;> decide) (by cases p <;> decide), ← hu]
  · exact Die.modulePins_los ..
  · exact Die.modulePins_modabs ..
  · exact Die.modulePins_txflt ..

end

/-- Settles O33: each command is cut into the steps that touch the wraps, LOST or the module's inputs, and what the steps leave. -/
theorem wrapsFormAndHeal : Obligations.WrapsFormAndHeal := by
  unfold Obligations.WrapsFormAndHeal
  intro d p cause pins bad sb h arrival toFt filler before fill s e lock recv sends out stands
  have hlost : ChangesIn .ltx (.portLost d p cause) s d (·.portLost p cause) := ChangesIn.of_updIn (exec_portLost ..)
  have hlock : ChangesIn .ltx lock s d (·.lockGained p pins.toNat) := ChangesIn.of_updIn (exec_blockLockGained ..)
  have hheal : ChangesIn .ltx (.nearHeal d p) s d (·.nearHeal p) := ChangesIn.of_updIn (exec_nearHeal ..)
  have hrecv (q : PortId) : ChangesIn (rxDom q) (recv q) s d
      (·.startBlock q sb h arrival toFt.toNat filler.toNat before fill.toNat) := ChangesIn.of_updIn (exec_startBlockReceive ..)
  have hforwards (hs : sends) : ∃ h', e.Forwards h' := by
    obtain ⟨hh, hm, hr, ho⟩ := hs
    obtain ⟨h', hh⟩ := Option.isSome_iff_exists.1 hh
    exact ⟨h', hh, hm, hr, ho⟩
  refine ⟨fun hp => ⟨?_, hlock.congr fun _ => e.lockGained_off p _ hp⟩,
    fun hp _ => ⟨CompletesIn.of_portLost d p s cause hp, CompletesIn.of_lockWithoutLight d p s pins hp,
      CompletesIn.of_lock d p s pins hp⟩,
    fun _ hs hn => ?_, fun _ hs hn => ?_, fun _ hp hf => (hrecv _).to fun _ => ?_, fun _ hp hf => (hrecv _).to fun _ => ?_,
    fun hh => hheal.congr fun _ => ?_, fun hh => hheal.congr fun _ => ?_, ChangesIn.of_updIn (exec_repeatEnd ..),
    Writes.of_writeIn (exec_fillRestart ..)⟩
  · refine hlost.congr fun _ => (e.portLost_off p hp cause).trans ?_
    cases cause <;> rfl
  · obtain ⟨h', hf⟩ := hforwards hs
    refine CompletesIn.of_forwards hf bad fun t hu _ hother => ⟨?_, ?_, hother⟩
    · exact (Die.of_unchained Die.wrapNear (fun _ => rfl) hu).trans (e.wrapSend_forms hn)
    · exact (Die.of_unchained Die.eng (fun _ => rfl) hu).trans e.wrapSend_eng
  · obtain ⟨h', hf⟩ := hforwards hs
    refine CompletesIn.of_forwards hf bad fun t hu hhealing hother => ?_
    have hnear : (t.die d).wrapNear = e.wrapSend.wrapNear := Die.of_unchained Die.wrapNear (fun _ => rfl) hu
    have hbit : (t.die d).bit (F.CHNX_STAT_LOST out) = e.wrapSend.bit (F.CHNX_STAT_LOST out) :=
      Die.of_unchained (·.bit (F.CHNX_STAT_LOST out)) (fun _ => rfl) hu
    refine ⟨fun hs => hnear.trans (e.wrapSend_stays hn hs), fun hs => ⟨hhealing.trans (e.wrapSend_healing hn hs), ?_, ?_⟩,
      (Die.of_unchained Die.eng (fun _ => rfl) hu).trans e.wrapSend_eng, hother⟩
    all_goals
      intro (hstands : e.lostStands e.fwdOut = _)
      rw [hbit, hnear, e.wrapSend_lost hn hs, e.wrapSend_stops hn hs, hstands]
    · exact ⟨rfl, rfl⟩
    · exact ⟨rfl, rfl⟩
  · rw [State.die_setDie_self, State.die_setDie_other]
    refine ⟨(e.startBlock_wrapFar _ sb h arrival _ _ before _ hp).trans ?_, (e.startBlock_eng_yard _ sb h arrival _ _ before _ hp).1, rfl⟩
    rw [Die.wrapTake, if_neg e.fwdOut_ne_fwdIn, e.farWrap_wrapFar hf]
  · rw [State.die_setDie_self, State.die_setDie_other]
    refine ⟨(e.startBlock_wrapFar _ sb h arrival _ _ before _ hp).trans ?_, (e.startBlock_eng_yard _ sb h arrival _ _ before _ hp).1, rfl⟩
    rw [Die.wrapTake, if_pos rfl, e.farSwitch_wrapFar hf]
  · exact if_pos (by simpa [and_assoc] using hh)
  · exact if_neg (by simpa [and_assoc] using hh)

end Sys2Proof.Machine
end

