-- ==== Sys2Proof/Proofs/Masters.lean ====
section
/-! PROOF. O31: the container a master originates, and the election (R247, R250, R253, R269). -/

namespace Sys2Proof

/-- An entry that is not the default is listed, and so read with any default. -/
theorem SMap.get_listed {α : Type} {z b : α} (f : Nat → α) {m : SMap α} {k : Nat} (h : SMap.get (fun _ => z) m k = b) (hb : b ≠ z) :
    SMap.get f m k = b := by
  induction m with
  | nil => exact absurd h.symm hb
  | cons x m ih =>
    rw [SMap.get] at h ⊢
    split
    next hk => rwa [if_pos hk] at h
    next hk =>
      rw [if_neg hk] at h
      exact ih h

/-- A map tabulated over a list of keys. -/
theorem SMap.get_tabulate {α : Type} (d f : Nat → α) {l : List Nat} {k : Nat} (hk : k ∈ l) :
    SMap.get d (l.map fun i => (i, f i)) k = f k := by
  induction l with
  | nil => exact absurd hk List.not_mem_nil
  | cons x l ih =>
    rw [List.map_cons, SMap.get]
    split
    next hx => rw [hx]
    next hx => exact ih ((List.mem_cons.1 hk).resolve_left (Ne.symm hx))

end Sys2Proof

namespace Sys2Proof.Machine

section
variable (e : Die)

/-! ### CONTAINER_ORIGINATE -/

/-- The die as its own container leaves. -/
def Die.joined (e : Die) : Die := e.wrapSend.setFld F.CHN_STAT_JOIN 2

/-- The container launched takes the copies held, and EMPTY pallets for the rest. -/
def Die.fillPallets (e : Die) (empty : Nat → Blocks) : Die := e.updChn fun c => { c with
  originating := true
  pallets := (List.range (e.palletCount e.fwdTo)).map fun i => (i, SMap.get empty e.chn.held i)
  held := [] }

variable (seed : Nat) (ltx : Word)

theorem Die.originate_other (hm : e.isMaster = false) : e.originate seed ltx = e := by
  rw [Die.originate, if_pos (by simp [hm])]

theorem Die.originate_master (hm : e.isMaster = true) : ∃ empty, e.originate seed ltx =
    (e.joined.launch (e.wrapSend.originHeader seed) ltx true).fillPallets empty :=
  ⟨_, if_neg (by simp [hm])⟩

/-- A register that neither a wrap nor the die's joining writes. -/
theorem Die.joined_reg {a : Nat} (hl : a / 0x1000 ≠ R.LOG_CTRL / 0x1000) (ha : a ∉ wrapMoved) : e.joined.reg a = e.reg a := by
  rw [Die.joined, Die.reg_setFld_notMem _ ha (by decide), e.reg_wrapSend hl ha]

theorem Die.joined_fwdTo : e.joined.fwdTo = e.wrapSend.fwdTo := by
  obtain ⟨hid, -, -, hnear, -⟩ := Die.aside_iff.1 (Die.aside_of_around (e.wrapSend.around_setFld (f := F.CHN_STAT_JOIN) (by decide) 2))
  rw [Die.joined, Die.fwdTo, hnear, Die.fwdOut, Die.fwdIn, hid, Die.fwdTo, Die.fwdOut, Die.fwdIn]

theorem Die.joined_carries (p : PortId) : e.joined.carries p = e.wrapSend.carries p := by
  have h : e.joined.portState p = e.wrapSend.portState p :=
    e.wrapSend.fld_setFld_apart (f := F.CHN_STAT_JOIN) (g := F.CHNX_CTRL_STATE p.idx) (by cases p <;> decide) 2
  rw [Die.carries, h, Die.carries]

theorem Die.joined_palletCount (p : PortId) : e.joined.palletCount p = e.palletCount p := by
  have hgen1 : e.joined.gen1 p = e.gen1 p := Die.bit_of_reg (e.joined_reg (keptBySend_ctrl p).1 (keptBySend_ctrl p).2)
  have hrate : e.joined.fld F.ENG_RATE_RATE = e.fld F.ENG_RATE_RATE := Die.fld_of_reg (e.joined_reg (by decide) (by decide))
  rw [Die.palletCount, Die.cyc, hgen1, hrate, Die.palletCount, Die.cyc]

/-- The header says the master's frame sequence, position and rank. -/
theorem Die.wrapSend_originHeader (hs : seed < 2 ^ 48) :
    hdrFld (e.wrapSend.originHeader seed) 0 0 32 = e.seq ∧ hdrFld (e.wrapSend.originHeader seed) 3 0 48 = seed ∧
    hdrFld (e.wrapSend.originHeader seed) 4 0 9 = e.fld F.CHN_CTRL_POSID ∧
    hdrFld (e.wrapSend.originHeader seed) 4 9 8 = e.fld F.CHN_CTRL_MRANK := by
  have hseq : e.wrapSend.seq = e.seq := congrArg BitVec.toNat (e.reg_wrapSend (a := R.ENG_SEQ) (by decide) (by decide))
  have hctrl : e.wrapSend.reg R.CHN_CTRL = e.reg R.CHN_CTRL := e.reg_wrapSend (by decide) (by decide)
  have hpos : e.wrapSend.fld F.CHN_CTRL_POSID = e.fld F.CHN_CTRL_POSID := Die.fld_of_reg hctrl
  have hrank : e.wrapSend.fld F.CHN_CTRL_MRANK = e.fld F.CHN_CTRL_MRANK := Die.fld_of_reg hctrl
  exact ⟨(Die.originHeader_seq ..).trans hseq, Die.originHeader_delay _ _ hs, (Die.originHeader_position ..).trans hpos,
    (Die.originHeader_rank ..).trans hrank⟩

/-- The die as its own container has left, before its pallets are filled. -/
theorem Die.joined_launch (h : Blocks) (fresh : Bool) :
    (e.joined.launch h ltx fresh).fld F.CHN_STAT_JOIN = 2 ∧ (e.joined.launch h ltx fresh).eng = e.eng ∧
    (e.joined.launch h ltx fresh).chn.held = e.chn.held ∧
    (e.joined.launch h ltx fresh).palletCount (e.joined.launch h ltx fresh).fwdTo = e.palletCount e.wrapSend.fwdTo := by
  have hu := e.joined.unchained_launch h ltx fresh
  refine ⟨?_, ?_, ?_, ?_⟩
  · exact (Die.of_unchained (·.fld F.CHN_STAT_JOIN) (fun _ => rfl) hu).trans (e.wrapSend.fld_setFld_self _ (Fld.fits_of rfl) 2)
  · exact (Die.of_unchained Die.eng (fun _ => rfl) hu).trans e.wrapSend_eng
  · exact (congrArg Prod.fst (e.joined.launch_kept h ltx fresh)).trans e.wrapSend_held
  · rw [Die.of_unchained (fun x : Die => x.palletCount x.fwdTo) (fun _ => rfl) hu, e.joined_palletCount, e.joined_fwdTo]

theorem Die.fillPallets_port (empty : Nat → Blocks) (p : PortId) : (e.fillPallets empty).port p = e.port p := by cases p <;> rfl

/-- A pallet of which the die holds a copy leaves as that copy. -/
theorem Die.fillPallets_held (empty : Nat → Blocks) {i : Nat} (hi : i < e.palletCount e.fwdTo) {z b : Blocks} (hb : b ≠ z)
    (h : SMap.get (fun _ => z) e.chn.held i = b) (d : Nat → Blocks) : SMap.get d (e.fillPallets empty).chn.pallets i = b :=
  (SMap.get_tabulate d _ (List.mem_range.2 hi)).trans (SMap.get_listed empty h hb)

/-! ### ELECTION_TIMEOUT -/

theorem Die.mayElect_iff : e.mayElect = true ↔ e.isMaster = false ∧ e.bit F.CHN_CTRL_MCAP = true ∧
    (e.gen1 e.fwdTo = false ∨ e.bit F.CHN_CTRL_MFORCE = true) ∧ 8 + 2 * e.fld F.CHN_CTRL_MRANK ≤ e.chn.quiet := by
  simp [Die.mayElect, and_assoc]

/-- The die claims its ring. -/
def Die.claims (e : Die) : Die := (e.setFld F.CHN_STAT_ELECT 2).updChn fun c => { c with electLeft := 64 }

/-- The die once its claim is noted and REF selected anew. -/
def Die.elected (e : Die) : Die :=
  (e.claims.masterIs e.claims.fwdFrom (e.claims.fld F.CHN_CTRL_POSID) (e.claims.fld F.CHN_CTRL_MRANK)).refSelect

theorem Die.electionTimeout_elected (h : e.mayElect = true) : e.electionTimeout = e.elected :=
  if_neg (by simp [h])

section
variable (p : PortId) {pos rank : Nat}

/-- A note of a new master leaves what it is not about. -/
theorem Die.fld_masterIs {g : Fld} (hp : F.CHN_STAT_MPOS.apart g = true) (hr : F.CHN_STAT_MRANK.apart g = true)
    (hi : (F.CHNX_IRQ_MASTERCHG p.idx).apart g = true) (hg : g.addr / 0x1000 ≠ R.LOG_CTRL / 0x1000) :
    (e.masterIs p pos rank).fld g = e.fld g := by
  have hset : ((e.setFld F.CHN_STAT_MPOS pos).setFld F.CHN_STAT_MRANK rank).fld g = e.fld g := by
    rw [Die.fld_setFld_apart _ hr, Die.fld_setFld_apart _ hp]
  unfold Die.masterIs
  split
  · rfl
  · dsimp only
    split
    · rw [Die.fld_logEv _ hg (by decide), Die.fld_setFld_apart _ hi, hset]
    · exact hset

theorem Die.masterIs_says (hp : pos < 2 ^ 9) (hr : rank < 2 ^ 8) : (e.masterIs p pos rank).fld F.CHN_STAT_MPOS = pos ∧
    (e.masterIs p pos rank).fld F.CHN_STAT_MRANK = rank := by
  have hpos : ((e.setFld F.CHN_STAT_MPOS pos).setFld F.CHN_STAT_MRANK rank).fld F.CHN_STAT_MPOS = pos := by
    rw [Die.fld_setFld_apart _ (by decide), Die.fld_setFld_self _ _ (Fld.fits_of rfl)]
    exact Nat.mod_eq_of_lt hp
  have hrank : ((e.setFld F.CHN_STAT_MPOS pos).setFld F.CHN_STAT_MRANK rank).fld F.CHN_STAT_MRANK = rank := by
    rw [Die.fld_setFld_self _ _ (Fld.fits_of rfl)]
    exact Nat.mod_eq_of_lt hr
  unfold Die.masterIs
  split
  next h => exact h
  next =>
    dsimp only
    split
    · exact ⟨(Die.fld_logEv _ (by decide) (by decide) ..).trans ((Die.fld_setFld_apart _ (by cases p <;> decide) 1).trans hpos),
        (Die.fld_logEv _ (by decide) (by decide) ..).trans ((Die.fld_setFld_apart _ (by cases p <;> decide) 1).trans hrank)⟩
    · exact ⟨hpos, hrank⟩

end

/-! What the claim leaves. -/

theorem Die.deep_elected : e.elected.deep = (e.updChn fun c => { c with electLeft := 64 }).deep :=
  (Die.deep_refSelect _).trans ((Die.deep_masterIs ..).trans rfl)

theorem Die.fld_elected {g : Fld} (hg : keptByRef g.addr) : e.elected.fld g =
    (e.claims.masterIs e.claims.fwdFrom (e.claims.fld F.CHN_CTRL_POSID) (e.claims.fld F.CHN_CTRL_MRANK)).fld g :=
  Die.fld_of_reg (Die.reg_refSelect _ hg)

/-- The die is master. -/
theorem Die.elected_isMaster : e.elected.isMaster = true := by
  have helect : e.claims.fld F.CHN_STAT_ELECT = 2 := e.fld_setFld_self F.CHN_STAT_ELECT (Fld.fits_of rfl) 2
  rw [Die.isMaster, e.fld_elected keptByRef_chnStat,
    Die.fld_masterIs _ _ (by decide) (by decide) (by cases e.claims.fwdFrom <;> decide) (by decide), helect]
  rfl

/-- The master shown is the die itself. -/
theorem Die.elected_says : e.elected.fld F.CHN_STAT_MPOS = e.fld F.CHN_CTRL_POSID ∧
    e.elected.fld F.CHN_STAT_MRANK = e.fld F.CHN_CTRL_MRANK := by
  have hclaims {g : Fld} (hg : F.CHN_STAT_ELECT.apart g = true) : e.claims.fld g = e.fld g := e.fld_setFld_apart hg 2
  obtain ⟨hpos, hrank⟩ := e.claims.masterIs_says e.claims.fwdFrom (pos := e.claims.fld F.CHN_CTRL_POSID)
    (rank := e.claims.fld F.CHN_CTRL_MRANK) (bitsOf_lt ..) (bitsOf_lt ..)
  exact ⟨(e.fld_elected keptByRef_chnStat).trans (hpos.trans (hclaims (by decide))),
    (e.fld_elected keptByRef_chnStat).trans (hrank.trans (hclaims (by decide)))⟩

end

/-- Settles O31: a master's container is launched as any other, its pallets tabulated from the copies held; the election sets
ELECT, and the note of the new master is the die's own. -/
theorem masterOriginates : Obligations.MasterOriginates := by
  unfold Obligations.MasterOriginates
  intro d seed ltx s e
  have horiginate : ChangesIn .eng (.containerOriginate d seed ltx) s d (·.originate seed.toNat ltx) :=
    ChangesIn.of_updIn (exec_containerOriginate ..)
  have helect : ChangesIn .eng (.electionTimeout d) s d (·.electionTimeout) := ChangesIn.of_updIn (exec_electionTimeout ..)
  refine ⟨fun hm => horiginate.congr fun _ => Die.originate_other _ _ _ hm, fun hm hc _ => horiginate.to fun _ => ?_,
    fun hidle => helect.congr fun _ => if_pos ?_, fun hm hcap hq hg _ => helect.to fun _ => ?_⟩
  · obtain ⟨empty, heq⟩ := e.originate_master seed.toNat ltx hm
    obtain ⟨o, hout, -, hgood, -, hfields⟩ := e.joined.launch_out (e.wrapSend.originHeader seed.toNat) ltx true
      (by rw [e.joined_carries, e.joined_fwdTo, hc])
    obtain ⟨hseq, hdelay, hpos, hrank⟩ := e.wrapSend_originHeader seed.toNat seed.isLt
    obtain ⟨hjoin, heng, hheld, hcount⟩ := e.joined_launch ltx (e.wrapSend.originHeader seed.toNat) true
    rw [State.die_setDie_self, State.die_setDie_other]
    rw [heq]
    refine ⟨o, ?_, hgood, (hfields rfl 0 (by decide) 0 32).trans hseq, (hfields rfl 3 (by decide) 0 48).trans hdelay,
      (hfields rfl 4 (by decide) 0 9).trans hpos, (hfields rfl 4 (by decide) 9 8).trans hrank, hjoin, rfl, rfl,
      fun i hi b hb h => ?_, heng, rfl⟩
    · rw [Die.fillPallets_port, ← e.joined_fwdTo, hout]
    · exact Die.fillPallets_held _ empty (by rwa [hcount]) hb (by rwa [hheld]) _
  · rw [Bool.not_eq_true', ← Bool.not_eq_true, Die.mayElect_iff]
    rintro ⟨hm, hcap, hg, hq⟩
    obtain h | h | h | ⟨h, h'⟩ := hidle
    · exact Bool.false_ne_true (hm.symm.trans h)
    · exact Bool.false_ne_true (h.symm.trans hcap)
    · exact Nat.not_le.2 h hq
    · obtain h0 | h1 := hg
      · exact Bool.false_ne_true (h0.symm.trans h)
      · exact Bool.false_ne_true (h'.symm.trans h1)
  · have helected := e.electionTimeout_elected (e.mayElect_iff.2 ⟨hm, hcap, hg, hq⟩)
    rw [State.die_setDie_self, State.die_setDie_other, helected]
    exact ⟨e.elected_isMaster, e.elected_says.1, e.elected_says.2, Die.of_deep (·.chn.electLeft) (fun _ => rfl) e.deep_elected,
      (Die.of_deep (·.chn.queue) (fun _ => rfl) e.deep_elected).trans rfl,
      (Die.of_deep Die.eng (fun _ => rfl) e.deep_elected).trans rfl, rfl⟩

end Sys2Proof.Machine
end

