-- ==== Sys2Proof/Proofs/ChainConfig.lean ====
section
/-! PROOF. O32: a die that is detached, CHN_CTRL, the maps and P (R250, R251, R254, R259, R268). -/

namespace Sys2Proof.Machine

/-- A write to a domain that runs, by what holds afterwards. -/
theorem Writes.to {i : Instr} {s : State} {d : DieId} {m : Dom} {a : Nat} {v : Word} {f : Die → Die} {P : State → Prop}
    (h : Writes m a v i s d f) (hp : P (s.setDie d (f (s.die d)))) : WritesTo m a v i s d P :=
  ⟨fun hr => ⟨_, h.1 hr, hp⟩, h.2⟩

section
variable (e : Die)

/-! ### DETACH -/

theorem Die.detach_master (hm : e.isMaster = true) : e.detach = e := if_pos hm

/-- The die as it loses its forward input. -/
def Die.forwardLost (e : Die) : Die := (e.setFld F.CHN_STAT_JOIN 0).updChn fun c => { c with
  computed := none
  fwdGood := none
  mismatch := 0 }

theorem Die.detach_detached (hm : e.isMaster = false) : e.detach = e.forwardLost.refDisqualify 3 1 := if_neg (by simp [hm])

theorem Die.reg_refDisqualify {a : Nat} (ha : keptByRef a) (hn : a ∉ [(F.REF_IN_QUAL 3).addr, F.REF_IRQ_QUAL.addr]) (cause : Nat) :
    (e.refDisqualify 3 cause).reg a = e.reg a := by
  rw [Die.refDisqualify]
  split
  · rw [Die.reg_refSelect _ ha, Die.reg_setFld_notMem _ hn (by decide), Die.reg_setFld_notMem _ hn (by decide),
      Die.reg_setFld_notMem _ hn (by decide), Die.updRef_reg]
  · rfl

/-- An input that is disqualified does not qualify. -/
theorem Die.qual_refDisqualify (cause : Nat) : (e.refDisqualify 3 cause).qual 3 = false := by
  have hkept : keptByRef (F.REF_IN_QUAL 3).addr := ⟨by decide, by decide⟩
  rw [Die.refDisqualify]
  split
  · rw [Die.qual, Die.bit_of_reg (Die.reg_refSelect _ hkept), Die.bit_setFld_apart _ (by decide),
      Die.bit_setFld_apart _ (by decide), Die.bit_setFld_self _ (Fld.fits_of rfl)]
    rfl
  next h => exact Bool.eq_false_of_not_eq_true h

theorem Die.detach_says (hm : e.isMaster = false) : e.detach.fld F.CHN_STAT_JOIN = 0 ∧ e.detach.chn.computed = none ∧
    e.detach.chn.fwdGood = none ∧ e.detach.qual 3 = false ∧ e.detach.eng = e.eng := by
  have hd := e.forwardLost.deep_refDisqualify 3 1
  rw [e.detach_detached hm]
  refine ⟨?_, Die.of_deep (·.chn.computed) (fun _ => rfl) hd, Die.of_deep (·.chn.fwdGood) (fun _ => rfl) hd,
    Die.qual_refDisqualify ..,
    (Die.of_deep Die.eng (fun _ => rfl) hd).trans rfl⟩
  rw [Die.fld_of_reg (Die.reg_refDisqualify _ keptByRef_chnStat (by decide) 1)]
  exact e.fld_setFld_self F.CHN_STAT_JOIN (Fld.fits_of rfl) 0

/-! ### CHN_CTRL -/

section
variable (v : Word)

/-- The fields of CHN_CTRL that a write always changes. -/
def Die.chnCtrlFields (e : Die) (n : Nat) : Die :=
  (((e.setFld F.CHN_CTRL_MCAP (bitsOf n 9 1)).setFld F.CHN_CTRL_MRANK (bitsOf n 10 8)).setFld F.CHN_CTRL_INS_EN
    (bitsOf n 18 1)).setFld F.CHN_CTRL_MFORCE (bitsOf n 20 1)

/-- A computed sequence asked for. -/
def Die.reseqWhere (e : Die) (b : Bool) : Die := if b then e.reseq else e

/-- The position of a die whose ports are both OFF. -/
def Die.position (e : Die) (n : Nat) : Die := (e.setFld F.CHN_CTRL_POSID n).updChn fun c => { c with dupPos := false }

theorem Die.chnCtrl_off (h : e.portsOff = true) : e.chnCtrl v =
    ((e.chnCtrlFields v.toNat).reseqWhere (natBit v.toNat 19)).position v.toNat := if_pos h

theorem Die.chnCtrl_on (h : e.portsOff = false) : e.chnCtrl v = (e.chnCtrlFields v.toNat).reseqWhere (natBit v.toNat 19) :=
  if_neg (by simp [h])

@[simp] theorem Die.fld_reseqWhere (b : Bool) (g : Fld) : (e.reseqWhere b).fld g = e.fld g := by cases b <;> rfl

theorem Die.adopt_reseqWhere (b : Bool) : (e.reseqWhere b).chn.adopt = (b || e.chn.adopt) := by cases b <;> rfl
theorem Die.dupPos_reseqWhere (b : Bool) : (e.reseqWhere b).chn.dupPos = e.chn.dupPos := by cases b <;> rfl
theorem Die.eng_reseqWhere (b : Bool) : (e.reseqWhere b).eng = e.eng := by cases b <;> rfl

theorem Die.chn_chnCtrlFields (n : Nat) : (e.chnCtrlFields n).chn = e.chn := by
  simp -implicitDefEqProofs only [Die.chnCtrlFields, Die.setFld_chn]

theorem Die.eng_chnCtrlFields (n : Nat) : (e.chnCtrlFields n).eng = e.eng := by
  simp -implicitDefEqProofs only [Die.chnCtrlFields, Die.setFld_eng]

theorem Die.fld_position {g : Fld} (hg : F.CHN_CTRL_POSID.apart g = true) (n : Nat) : (e.position n).fld g = e.fld g :=
  e.fld_setFld_apart hg n

theorem Die.adopt_position (n : Nat) : (e.position n).chn.adopt = e.chn.adopt := rfl
theorem Die.eng_position (n : Nat) : (e.position n).eng = e.eng := rfl

/-- A field that takes as many bits as it has. -/
theorem Die.fld_setFld_bitsOf {f : Fld} (hf : f.fits) (n lo : Nat) : (e.setFld f (bitsOf n lo f.w)).fld f = bitsOf n lo f.w := by
  rw [e.fld_setFld_self f hf, Nat.mod_eq_of_lt (bitsOf_lt ..)]

theorem Die.chnCtrlFields_says (n : Nat) : (e.chnCtrlFields n).fld F.CHN_CTRL_MCAP = bitsOf n 9 1 ∧
    (e.chnCtrlFields n).fld F.CHN_CTRL_MRANK = bitsOf n 10 8 ∧ (e.chnCtrlFields n).fld F.CHN_CTRL_INS_EN = bitsOf n 18 1 ∧
    (e.chnCtrlFields n).fld F.CHN_CTRL_MFORCE = bitsOf n 20 1 ∧
    (e.chnCtrlFields n).fld F.CHN_CTRL_POSID = e.fld F.CHN_CTRL_POSID := by
  unfold Die.chnCtrlFields
  refine ⟨?_, ?_, ?_, Die.fld_setFld_bitsOf _ (f := F.CHN_CTRL_MFORCE) (Fld.fits_of rfl) n 20, ?_⟩
  · simp +decide only [Die.fld_setFld_apart]
    exact e.fld_setFld_bitsOf (f := F.CHN_CTRL_MCAP) (Fld.fits_of rfl) n 9
  · simp +decide only [Die.fld_setFld_apart]
    exact Die.fld_setFld_bitsOf _ (f := F.CHN_CTRL_MRANK) (Fld.fits_of rfl) n 10
  · simp +decide only [Die.fld_setFld_apart]
    exact Die.fld_setFld_bitsOf _ (f := F.CHN_CTRL_INS_EN) (Fld.fits_of rfl) n 18
  · simp +decide only [Die.fld_setFld_apart]

/-- Four fields, and the computed sequence asked for, follow every write. -/
theorem Die.chnCtrl_says : (e.chnCtrl v).fld F.CHN_CTRL_MCAP = bitsOf v.toNat 9 1 ∧
    (e.chnCtrl v).fld F.CHN_CTRL_MRANK = bitsOf v.toNat 10 8 ∧ (e.chnCtrl v).fld F.CHN_CTRL_INS_EN = bitsOf v.toNat 18 1 ∧
    (e.chnCtrl v).fld F.CHN_CTRL_MFORCE = bitsOf v.toNat 20 1 ∧
    (e.chnCtrl v).chn.adopt = (natBit v.toNat 19 || e.chn.adopt) ∧ (e.chnCtrl v).eng = e.eng := by
  obtain ⟨hmcap, hmrank, hins, hmforce, -⟩ := e.chnCtrlFields_says v.toNat
  cases hoff : e.portsOff
  · rw [e.chnCtrl_on v hoff, Die.adopt_reseqWhere, Die.eng_reseqWhere, Die.chn_chnCtrlFields, Die.eng_chnCtrlFields]
    simp only [Die.fld_reseqWhere, and_true]
    exact ⟨hmcap, hmrank, hins, hmforce⟩
  · rw [e.chnCtrl_off v hoff, Die.adopt_position, Die.eng_position, Die.adopt_reseqWhere, Die.eng_reseqWhere,
      Die.chn_chnCtrlFields, Die.eng_chnCtrlFields]
    simp +decide only [Die.fld_position, Die.fld_reseqWhere, and_true]
    exact ⟨hmcap, hmrank, hins, hmforce⟩

/-- With both ports OFF the position changes, and DUPPOS clears. -/
theorem Die.chnCtrl_position_off (h : e.portsOff = true) :
    (e.chnCtrl v).fld F.CHN_CTRL_POSID = bitsOf v.toNat 0 9 ∧ (e.chnCtrl v).chn.dupPos = false := by
  rw [e.chnCtrl_off v h, Die.position, Die.updChn_fld, Die.fld_setFld_self _ _ (Fld.fits_of rfl), bitsOf, pow_zero, Nat.div_one]
  exact ⟨rfl, rfl⟩

theorem Die.chnCtrl_position_on (h : e.portsOff = false) :
    (e.chnCtrl v).fld F.CHN_CTRL_POSID = e.fld F.CHN_CTRL_POSID ∧ (e.chnCtrl v).chn.dupPos = e.chn.dupPos := by
  obtain ⟨-, -, -, -, hposid⟩ := e.chnCtrlFields_says v.toNat
  rw [e.chnCtrl_on v h, Die.fld_reseqWhere]
  exact ⟨hposid, (Die.dupPos_reseqWhere ..).trans (congrArg Chain.dupPos (e.chn_chnCtrlFields _))⟩

end

/-! ### The maps and P -/

section
variable (p : PortId) (v : Word)

/-- The die with a map entry that waits for the next FT. -/
def Die.mapNext (e : Die) (p : PortId) (v : Word) : Die :=
  let slot := e.fld (F.CHNX_MAPIDX_SLOT p.idx)
  e.updChn fun c => { c with
    mapNext := c.mapNext ++ [(p, slot, BitVec.ofNat 2 (if slot % 32 = 0 then v.toNat % 4 else v.toNat % 2))] }

theorem Die.mapWrite_outside (h : 12288 ≤ e.fld (F.CHNX_MAPIDX_SLOT p.idx)) : e.mapWrite p v = e := if_pos h

section
variable (h : e.fld (F.CHNX_MAPIDX_SLOT p.idx) < 12288)
include h

theorem Die.mapWrite_fits (hf : (e.mapNext p v).mapApply.extCount * (e.fld F.CHN_PCTL_P + 2) ≤ 1048576) :
    e.mapWrite p v = e.mapNext p v := by
  rw [Die.mapWrite, if_neg (Nat.not_le.2 h)]
  exact if_neg (Nat.not_lt.2 hf)

theorem Die.mapWrite_refused (hf : 1048576 < (e.mapNext p v).mapApply.extCount * (e.fld F.CHN_PCTL_P + 2)) :
    e.mapWrite p v = e.setFld F.CHN_IRQ_CAP 1 := by
  rw [Die.mapWrite, if_neg (Nat.not_le.2 h)]
  exact if_pos hf

end

end

/-- P_ARM is in time and in range (R254, R259). -/
def Die.armFits (e : Die) : Prop :=
  2 ≤ e.framesTo (e.regN R.CHN_PFRAME) ∧ e.framesTo (e.regN R.CHN_PFRAME) < 2 ^ 31 ∧ 16 ≤ e.fld F.CHN_PCTL_PNEW ∧
    e.fld F.CHN_PCTL_PNEW ≤ 512 ∧ e.mapApply.extCount * (e.fld F.CHN_PCTL_PNEW + 2) ≤ 1048576

theorem Die.pArm_armed (h : e.bit F.CHN_PCTL_ARMED = true) : e.pArm = e := if_pos h

section
variable (h : e.bit F.CHN_PCTL_ARMED = false)
include h

theorem Die.pArm_fits (hf : e.armFits) : e.pArm = e.setFld F.CHN_PCTL_ARMED 1 := by
  rw [Die.pArm, if_neg (by simp [h])]
  exact if_pos hf

theorem Die.pArm_refused (hf : ¬ e.armFits) : e.pArm = e.setFld F.CHN_IRQ_PERR 1 := by
  rw [Die.pArm, if_neg (by simp [h])]
  exact if_neg hf

end

end

/-- Settles O32: each write is one of the cases of its definition, with the fields of CHN_CTRL apart and input 3 disqualified. -/
theorem chainIsConfigured : Obligations.ChainIsConfigured := by
  unfold Obligations.ChainIsConfigured
  intro d p v s e slot w next pnew k fit
  have hdetach : ChangesIn .eng (.detach d) s d (·.detach) := ChangesIn.of_updIn (exec_detach ..)
  have hmap : Writes .eng (R.CHNX_MAPDATA p.idx) v (.chainMapWrite d p v) s d (·.mapWrite p v) :=
    Writes.of_writeIn (exec_chainMapWrite ..)
  have harm : Writes .eng R.CHN_PCTL (e.strobe R.CHN_PCTL 26) (.pArm d) s d (·.pArm) := Writes.of_writeIn (exec_pArm ..)
  have hctrl : Writes .eng R.CHN_CTRL v (.chnCtrlWrite d v) s d (·.chnCtrl v) := Writes.of_writeIn (exec_chnCtrlWrite ..)
  refine ⟨fun hm => hdetach.congr fun _ => e.detach_master hm, fun hm _ => hdetach.to fun _ => ?_,
    Writes.of_writeIn (exec_reseqWrite ..), fun _ => hctrl.to ?_, fun h => hmap.congr (e.mapWrite_outside p v h),
    fun h hf => hmap.congr (e.mapWrite_fits p v h hf), fun h hf => hmap.congr (e.mapWrite_refused p v h hf),
    fun h => harm.congr (e.pArm_armed h), fun h hf => harm.congr (e.pArm_fits h hf), fun h hf => harm.congr (e.pArm_refused h hf)⟩
  · obtain ⟨hjoin, hcomputed, hgood, hqual, heng⟩ := e.detach_says hm
    rw [State.die_setDie_self, State.die_setDie_other]
    exact ⟨hjoin, hcomputed, hgood, hqual, heng, rfl⟩
  · obtain ⟨hmcap, hmrank, hins, hmforce, hadopt, heng⟩ := e.chnCtrl_says v
    rw [State.die_setDie_self, State.die_setDie_other]
    exact ⟨hmcap, hmrank, hins, hmforce, e.chnCtrl_position_off v, e.chnCtrl_position_on v, hadopt, heng, rfl⟩

end Sys2Proof.Machine
end
